-- ==== Sys2Proof/Word.lean ====
section
/-! DEFINITION. The word types of the CX-3256 and the plainest operations on them: bytes, words, bit fields and the
sparse table that every array of the part is held in. -/

namespace Sys2Proof

/-- A byte of memory. -/
abbrev Byte := BitVec 8

/-- A G register's word. -/
abbrev Word := BitVec 64

/-- An engine number, 0 to 31 (R9). -/
abbrev Eng := Fin 32

/-- A ring number, 0 to 3 (R9). -/
abbrev RingId := Fin 4

/-- A sparse array: entries whose value differs from the array's default, by rising key. -/
abbrev Tbl (α : Type) := List (Nat × α)

/-- One bit as a Bool. -/
abbrev bit {n : Nat} (x : BitVec n) (i : Nat) : Bool := x.getLsbD i

/-- A Bool as one bit. -/
abbrev ofBool (b : Bool) : BitVec 1 := BitVec.ofBool b

/-- The field of width `w` whose least significant bit is bit `lo`. -/
abbrev field {n : Nat} (x : BitVec n) (lo w : Nat) : BitVec w := x.extractLsb' lo w

end Sys2Proof
end

