-- ==== Sys2Proof/Config.lean ====
section
/-! DEFINITION. What one part has fixed (its fuses) and the values the spec leaves open, as constants without a body:
no statement can rest on a particular value of any of them. -/

namespace Sys2Proof

/-- What the fuses of one part hold (R470, R477, R517): the grade, the die identifier, the hash of the vendor key, the
development fuse and the Anchor margin plan. -/
structure FuseSet where
  /-- The part is industrial, CX-3256-I (R3). -/
  industrial : Bool
  /-- UID of IDENTIFY (R470). -/
  uid : BitVec 64
  /-- SHA-384 of the vendor's public key (R477). -/
  vendorHash : BitVec 384
  /-- The development fuse is intact (R477, R481). -/
  development : Bool
  /-- VCORE of the Anchor plan, in mV (R517). -/
  anchorVcore : BitVec 16
  /-- Bytes 16 to 183 of the Anchor plan: the delay registers and the SerDes targets (R517). -/
  anchorBody : List Byte
deriving DecidableEq, Repr, Inhabited

/-- An upset: bits of a memory of the part that fail while it runs (R297, R336, R340, R346, R348). Bits are numbered from 0
through the codewords of the line, entry or word, check bits included. `reads` of a line lists what each of its next
reads finds. -/
inductive Upset where
  /-- A line of DRAM, of a key array, of cluster SRAM or of a local store, or an entry of the on-chip key store. -/
  | line (line : Nat) (rank subchannel : Bool) (reads : List (List Nat))
  /-- A line that the L2 of a cluster holds. -/
  | l2 (c : Fin 4) (line : Nat) (bits : List Nat)
  /-- A line that an engine's data cache holds. -/
  | dcache (e : Fin 32) (line : Nat) (bits : List Nat)
  /-- A line that an engine's instruction cache or line buffer holds. -/
  | icache (e : Fin 32) (line : Nat) (bits : List Nat)
  /-- An entry of an engine's store buffer, counted from the oldest. -/
  | storeBuffer (e : Fin 32) (index : Nat) (bits : List Nat)
  /-- A register bank, or a commit record, of a slot fails beyond correction (R536). -/
  | bank (slot : Fin 256)
  | commitRecord (slot : Fin 256)
  /-- A queue context fails, beyond correction or not (R536, R558). -/
  | queueContext (qid : BitVec 16) (corrected : Bool)
  /-- Keeper's RAM, or Compass's state, fails beyond correction (R536). -/
  | keeperRam
  | compass
  /-- A receiver error on a PCIe lane, or a replay of the link (R391, R558). -/
  | pcieLane (lane : Fin 8)
  | pcieReplay
  /-- A word of an engine's Control Store: a micro-word, or from 0x10000 up a nano-word. -/
  | controlStore (e : Fin 32) (addr : Nat)
deriving DecidableEq, Repr, Inhabited

/-- The upset that happens at draw `n`, if any: nothing determines when and where bits of a memory fail. -/
opaque Config.upset : Nat → Option Upset

/-- Whether an error pattern beyond what R336 and R346 promise to correct or to detect is detected; it is taken as
corrected otherwise. -/
opaque Config.eccBeyond : List Nat → Bool

/-- The set of a DMC directory in which a line lies, taken modulo 32,768 (R341): the spec gives no index. -/
opaque Config.dirSet : Nat → Nat

/-- How many cycles a write intent waits that finds all 16 fill trackers busy (R357), by draw: a tracker fills at least
one line every 16 fcy, and may be faster. -/
opaque Config.fillWait : Nat → Nat

/-- The fuses of the part (R3, R470, R477, R517). -/
opaque Config.fuses : FuseSet

/-- Draw number `n` of the TRNG (R33, R40, R243, R544): 64 bits that nothing determines. -/
opaque Config.trng : Nat → BitVec 64

/-- The number of clocks the LFSR of an engine has run at its draw number `n` (R243): it advances once per cycle, and
the model counts no cycles between two draws. -/
opaque Config.lfsrSteps : Nat → Nat

/-- What a register that reports a physical measurement reads (R558: THRM, TRAIN, LANEEQ, LANEEYE), by CSR offset. -/
opaque Config.measured : Nat → BitVec 64

/-- What the core rail reads back above the lowest reading that a change of target accepts, in mV, by draw (R512). -/
opaque Config.coreReading : Nat → Nat

/-- Whether a boundary cell captures a high level under a test instruction, by draw and cell: what drives the balls of a
part in reset lies outside it (R584, R585). -/
opaque Config.ballLevel : Nat → Nat → Bool

/-- PCIE of IDENTIFY and HIF.LINKST (R470, R558): the speed and width that the link trains to. -/
opaque Config.pcieLink : BitVec 8

/-- CAGES of IDENTIFY (R470) at draw `n`: which rings have both modules. -/
opaque Config.cages : Nat → BitVec 8

/-- HIF.TAGST register `k` while `n` requests are outstanding (R558): the spec names no rule for the choice of tags. -/
opaque Config.tagState : Nat → Nat → BitVec 64

/-- Header bytes that an AER capability logs (R558), half `k` at draw `n`. -/
opaque Config.tlpHeader : Nat → Nat → BitVec 64

/-- How many bytes the clock difference of two neighbours moves an elastic buffer between two trains of code groups, by
draw (R414): the model takes it modulo 13, less 6, since 200 ppm of a cycle are at most 6.25 BT. -/
opaque Config.lineDrift : Nat → Nat

/-- What a node forwards, or its receiver reads, for an invalid code group inside a train, by group: the spec does not
say. -/
opaque Config.badGroup : BitVec 10 → BitVec 8

/-- WHY of NLK.LASTHDR1 for a frame discarded for a code error or a failing CRC (R432, R458), by draw: the spec gives no
code for these reasons. -/
opaque Config.frameReason : Nat → BitVec 8

/-- The code that a tester scans for BYPASS, by draw: 0xFF and every code that the table of R583 does not list act as
BYPASS, and the row carries no code. -/
opaque Config.scannedCode : Nat → BitVec 8

/-- Which of the 32 vendor-private instructions enables the trace port (R573, R583): the spec does not say. -/
opaque Config.traceOffset : BitVec 5

/-- What the trace port carries, TRC_CLK and TRC_D[6:0], by draw (R573): Darmus debug data. -/
opaque Config.traceData : Nat → BitVec 8

/-- What a flash slot holds after a programming that fails its read-back (R488), by draw: the spec does not say. -/
opaque Config.flashLeft : Nat → List (BitVec 8)

/-- How many cycles a store waits that finds the store buffer full (R101: "Up to 4 cy"), by draw; the model takes it
modulo 5. -/
opaque Config.storeBufferWait : Nat → Nat

/-- The vendor part's micro-word at an address (R294): the spec gives no layout of that part's body. -/
opaque Config.vendorMicro : Nat → BitVec 32

/-- The vendor part's nano-word at an address (R294). -/
opaque Config.vendorNano : Nat → BitVec 256

/-- What a port of the micro level holds when a routine starts (R305): the spec gives it no value, by draw and port. -/
opaque Config.microStart : Nat → Nat → BitVec 256

/-- Results and conditions of a unit that the spec does not state (R307, R308), by draw and port: 0 .Y, 1 .Y2, 2 the
condition bits. -/
opaque Config.unitOpen : Nat → Nat → BitVec 256

/-- Whether FMA of zero, infinity and a quiet NaN addend signals invalid: IEEE 754-2008 leaves it to the
implementation, and the spec (R180) does not say. -/
opaque Config.fmaZeroInfNan : Bool

end Sys2Proof
end

