-- ==== Sys2Proof/Syntax.lean ====
section
/-! DEFINITION. The commands of the CX-3256 as a block: one constructor of Instr for each row of spec/opcode_table.json,
with the row's operands. A macro instruction carries its engine and its encoded fields (04, R83, R89); an event of the
outside world carries what the part receives; where the spec gives no rule for a physical outcome (a training run, a
comparator's reading), the command carries that outcome. -/

namespace Sys2Proof

/-- The length code LC of W0 (R83). -/
inductive Len where
  | l4 | l6 | l8 | l12
deriving DecidableEq, Repr, Inhabited

/-- The length in bytes that LC stands for (R83). -/
def Len.bytes : Len → Nat
  | .l4 => 4 | .l6 => 6 | .l8 => 8 | .l12 => 12

/-- Format A, register (R89). `imm` is IMM16 of the 6-byte form. -/
structure FmtA where
  pred : BitVec 4
  len : Len
  ra : BitVec 4
  rb : BitVec 4
  rc : BitVec 4
  mod : BitVec 6
  imm : BitVec 16
deriving DecidableEq, Repr, Inhabited

/-- Format B, register-memory (R89). `mod` is W0[5:0]: in the 6-byte form MOD is its bits [5:4] and bits [3:0] are 0
here, because `disp` holds the whole displacement as encoded: 20 bits in 6 and 8 bytes, 32 bits in 12 bytes. -/
structure FmtB where
  pred : BitVec 4
  len : Len
  ra : BitVec 4
  bs : BitVec 4
  ix : BitVec 4
  mod : BitVec 6
  disp : BitVec 32
  mod2 : BitVec 32
deriving DecidableEq, Repr, Inhabited

/-- Format C, memory-memory (R89). -/
structure FmtC where
  pred : BitVec 4
  len : Len
  b1 : BitVec 4
  b2 : BitVec 4
  l1 : BitVec 5
  l2 : BitVec 5
  dp1 : BitVec 32
  dp2 : BitVec 32
deriving DecidableEq, Repr, Inhabited

/-- Format D, memory-immediate (R89). `imm` is IMM12 in 8 bytes and IMM32 in 12 bytes, as encoded. -/
structure FmtD where
  pred : BitVec 4
  len : Len
  bs : BitVec 4
  ix : BitVec 4
  sz : BitVec 2
  mod : BitVec 8
  disp : BitVec 32
  imm : BitVec 32
deriving DecidableEq, Repr, Inhabited

/-- Format E, branch (R89). `off` is OFF as encoded: 14 bits in 4 bytes, 30 bits in 6 and 8 bytes, and W0[13:0], marked
zero, in 12 bytes. -/
structure FmtE where
  pred : BitVec 4
  len : Len
  m : BitVec 4
  off : BitVec 30
  mask : BitVec 16
  tgt : BitVec 48
deriving DecidableEq, Repr, Inhabited

/-- Format X-A, extended register (R89). `rc` and `mod2` are 0 in the 4-byte form. -/
structure FmtXA where
  pred : BitVec 4
  len : Len
  ra : BitVec 4
  rb : BitVec 4
  mod : BitVec 2
  rc : BitVec 4
  mod2 : BitVec 12
deriving DecidableEq, Repr, Inhabited

/-- Format X-B, extended memory (R89). -/
structure FmtXB where
  pred : BitVec 4
  len : Len
  ra : BitVec 4
  bs : BitVec 4
  mod : BitVec 2
  disp : BitVec 32
  mod2 : BitVec 32
deriving DecidableEq, Repr, Inhabited

/-- An operation of R179 that has a register form and a memory form. -/
inductive FmtX where
  | reg (x : FmtXA)
  | mem (x : FmtXB)
deriving DecidableEq, Repr, Inhabited

/-- DTS in its register form, opcode 0x4E, and in its memory form, opcode 0x4F (R118). -/
inductive FmtDts where
  | reg (x : FmtA)
  | mem (x : FmtB)
deriving DecidableEq, Repr, Inhabited

/-- Who performs a CSR access: an engine, or the host through a BAR (R16, R370). -/
inductive Writer where
  | engine (e : Eng)
  | host
deriving DecidableEq, Repr, Inhabited

/-- Where a CSR access goes: the 64 MiB of PF0 BAR0, or the function page of VFd (R384). -/
inductive CsrPage where
  | csr
  | vf (d : BitVec 8)
deriving DecidableEq, Repr, Inhabited

/-- How a command packet reaches Keeper (R463 to R465): the host's GO write to the mailbox, an SMBus EXEC, or a GO write
of an engine that Keeper has already accepted. -/
inductive Via where
  | mailbox
  | smbus
  | accepted
deriving DecidableEq, Repr, Inhabited

/-- How a non-posted PCIe request ends (R391). -/
inductive Completion where
  | data (bytes : List Byte)
  | ur
  | ca
  | poisoned
deriving DecidableEq, Repr, Inhabited

/-- How Keeper's PF0 reads of an image end (R391, R482): with the bytes, or with the first unsuccessful completion. -/
inductive KeeperRead where
  | data (bytes : List Byte)
  | ur
  | ca
  | timeout
  | poisoned
deriving DecidableEq, Repr, Inhabited

/-- The request that a completion or a completion timeout ends: an engine's host-window load, or read request `k` of the
copy in progress of an SQ (R379, R389). -/
inductive HostReq where
  | load (e : Eng)
  | copy (qid : BitVec 16) (k : Nat)
deriving DecidableEq, Repr, Inhabited

/-- A ring direction (R394). -/
inductive Dir where
  | a | b
deriving DecidableEq, Repr, Inhabited

/-- A side of a ring node (R420): its east or its west port. -/
inductive Side where
  | east | west
deriving DecidableEq, Repr, Inhabited

/-- Why a side counts as failed (R420). -/
inductive SideCause where
  | signal | codeErrors | wrp
deriving DecidableEq, Repr, Inhabited

/-- The fields of a valid beacon body (R403). -/
structure Beacon where
  cycle : BitVec 32
  loop : BitVec 16
  sdly : BitVec 16
  tsel : Bool
  wrp : Bool
  handoff : Bool
  swp : Bool
  hold : Bool
  ver : BitVec 8
  swcyc : BitVec 32
deriving DecidableEq, Repr, Inhabited

/-- What a transaction timer runs for (R440, R442): the OQ entry at an index, or the open request of a pair. -/
inductive TimerOf where
  | entry (oqid : BitVec 16) (index : BitVec 16)
  | request (station : BitVec 8) (cls : BitVec 4)
deriving DecidableEq, Repr, Inhabited

/-- A DDR5 module's type (R344): one of the two that are supported, or another. -/
inductive ModuleType where
  | rdimm | eccUdimm | other
deriving DecidableEq, Repr, Inhabited

/-- A DDR5 module as its SPD describes it (R344). -/
structure Module where
  typ : ModuleType
  ranks : Nat
  /-- Device width: 4 for ×4, 8 for ×8. -/
  width : Nat
  /-- Device density in Gb. -/
  density : Nat
  /-- Highest data rate it supports, in MT/s. -/
  rate : Nat
  /-- Capacity in GiB. -/
  gib : Nat
deriving DecidableEq, Repr, Inhabited

/-- What boot or a wake finds in the hardware: the module of each channel with the outcome of its training, and whether
TRNG health holds (R345, R490). -/
structure BootEnv where
  module0 : Option Module
  train0 : Bool
  module1 : Option Module
  train1 : Bool
deriving DecidableEq, Repr, Inhabited

/-- The margin plan that step 2 of REPLAN finds (R521): the spec gives no rule for the figures. -/
structure PlanFound where
  vcore : BitVec 16
  body : List Byte
  minMargin : BitVec 16
  reached : Bool
deriving DecidableEq, Repr, Inhabited

/-- A host configuration write (R391): the settings it leaves for one function. -/
inductive CfgWrite where
  | vfEnable (on : Bool) (numVfs : BitVec 16)
  | busMaster (fn : BitVec 8) (on : Bool)
  | dState (fn : BitVec 8) (d3hot : Bool)
  | completionTimeout (value : BitVec 4)
  | msix (fn : BitVec 8) (enable : Bool) (mask : Bool)
  | sizes (fn : BitVec 8) (maxPayload : Nat) (maxRead : Nat)
deriving DecidableEq, Repr, Inhabited

/-- A clock input (R508). -/
inductive ClockIn where
  | rclk | refclk | xtal32
deriving DecidableEq, Repr, Inhabited

/-- A rail whose fall releases the ring pins (R571). -/
inductive RailLow where
  | core | ao08
deriving DecidableEq, Repr, Inhabited

/-- The commands: one constructor for each row of spec/opcode_table.json. -/
inductive Instr where
  -- integer (R175 to R178)
  | add (e : Eng) (x : FmtA)
  | sub (e : Eng) (x : FmtA)
  | and (e : Eng) (x : FmtA)
  | or (e : Eng) (x : FmtA)
  | xor (e : Eng) (x : FmtA)
  | shl (e : Eng) (x : FmtA)
  | shr (e : Eng) (x : FmtA)
  | sar (e : Eng) (x : FmtA)
  | rol (e : Eng) (x : FmtA)
  | cmp (e : Eng) (x : FmtA)
  | cmpu (e : Eng) (x : FmtA)
  | cmpp (e : Eng) (x : FmtA)
  | mov (e : Eng) (x : FmtA)
  | mvi (e : Eng) (x : FmtA)
  | mul (e : Eng) (x : FmtA)
  | mulh (e : Eng) (x : FmtA)
  | mulhu (e : Eng) (x : FmtA)
  | div (e : Eng) (x : FmtA)
  | divu (e : Eng) (x : FmtA)
  | ld (e : Eng) (x : FmtB)
  | lds (e : Eng) (x : FmtB)
  | st (e : Eng) (x : FmtB)
  | lea (e : Eng) (x : FmtB)
  | sti (e : Eng) (x : FmtD)
  -- fixed decimal (R118)
  | dad (e : Eng) (x : FmtA)
  | dsb (e : Eng) (x : FmtA)
  | dzp (e : Eng) (x : FmtA)
  | dld (e : Eng) (x : FmtB)
  | dst (e : Eng) (x : FmtB)
  | dmp (e : Eng) (x : FmtA)
  | ddv (e : Eng) (x : FmtA)
  | dcp (e : Eng) (x : FmtA)
  | dsh (e : Eng) (x : FmtA)
  | drn (e : Eng) (x : FmtA)
  | dpk (e : Eng) (x : FmtB)
  | dup (e : Eng) (x : FmtB)
  | dtb (e : Eng) (x : FmtA)
  | btd (e : Eng) (x : FmtA)
  | dts (e : Eng) (x : FmtDts)
  | dadm (e : Eng) (x : FmtC)
  | dsbm (e : Eng) (x : FmtC)
  | dcpm (e : Eng) (x : FmtC)
  | dzpm (e : Eng) (x : FmtC)
  -- strings (R134). `stop` commit points pass before an interruption pauses the instruction
  | mvs (e : Eng) (x : FmtA) (stop : Nat)
  | mvp (e : Eng) (x : FmtA) (stop : Nat)
  | cls (e : Eng) (x : FmtA) (stop : Nat)
  | clp (e : Eng) (x : FmtA) (stop : Nat)
  | trn (e : Eng) (x : FmtA) (stop : Nat)
  | trt (e : Eng) (x : FmtA) (stop : Nat)
  | scn (e : Eng) (x : FmtA) (stop : Nat)
  | xcd (e : Eng) (x : FmtA) (stop : Nat)
  | edt (e : Eng) (x : FmtA) (stop : Nat)
  | edk (e : Eng) (x : FmtA) (stop : Nat)
  | crc (e : Eng) (x : FmtA) (stop : Nat)
  -- posting and fences (R216)
  | pst (e : Eng) (x : FmtB)
  | psx (e : Eng) (x : FmtB)
  | prd (e : Eng) (x : FmtB)
  | pbn (e : Eng) (x : FmtB)
  | sync (e : Eng) (x : FmtA)
  | syncw (e : Eng) (x : FmtA)
  | syncr (e : Eng) (x : FmtA)
  -- moves and conversions (R185)
  | fld (e : Eng) (x : FmtB)
  | fst (e : Eng) (x : FmtB)
  | fmvg (e : Eng) (x : FmtA)
  | gmvf (e : Eng) (x : FmtA)
  | dtf (e : Eng) (x : FmtA)
  | ftd (e : Eng) (x : FmtA)
  -- floating point (R179)
  | fadd (e : Eng) (x : FmtX)
  | fsub (e : Eng) (x : FmtX)
  | fmul (e : Eng) (x : FmtX)
  | fdiv (e : Eng) (x : FmtX)
  | fma (e : Eng) (x : FmtX)
  | fsqrt (e : Eng) (x : FmtXA)
  | fcmp (e : Eng) (x : FmtXA)
  | fcmpp (e : Eng) (x : FmtXA)
  | fcvt (e : Eng) (x : FmtXA)
  | frnd (e : Eng) (x : FmtXA)
  | ftog (e : Eng) (x : FmtXA)
  | gtof (e : Eng) (x : FmtXA)
  | fquant (e : Eng) (x : FmtXA)
  -- predicates and branches (R187, R188)
  | pset (e : Eng) (x : FmtA)
  | b (e : Eng) (x : FmtE)
  | bc (e : Eng) (x : FmtE)
  | br (e : Eng) (x : FmtA)
  | call (e : Eng) (x : FmtE)
  | callr (e : Eng) (x : FmtE)
  | ret (e : Eng) (x : FmtE)
  | dbnz (e : Eng) (x : FmtE)
  -- status control, keys, waits (R202)
  | svc (e : Eng) (x : FmtA)
  | eret (e : Eng) (x : FmtA)
  | spsw (e : Eng) (x : FmtA)
  | gpsw (e : Eng) (x : FmtA)
  | gete (e : Eng) (x : FmtA)
  | sete (e : Eng) (x : FmtA)
  | krs (e : Eng) (x : FmtA)
  | krg (e : Eng) (x : FmtA)
  | sfpc (e : Eng) (x : FmtA)
  | gfpc (e : Eng) (x : FmtA)
  | kset (e : Eng) (x : FmtA)
  | kget (e : Eng) (x : FmtA)
  | tlbia (e : Eng) (x : FmtA)
  | tlbid (e : Eng) (x : FmtA)
  | tlbix (e : Eng) (x : FmtA)
  | wfe (e : Eng) (x : FmtA)
  | wfeComplete (e : Eng)
  | wuntil (e : Eng) (x : FmtA)
  | wuntilComplete (e : Eng)
  | sev (e : Eng) (x : FmtA)
  | sevSend (e : Eng)
  | tbr (e : Eng) (x : FmtA)
  | mcall (e : Eng) (x : FmtA)
  -- cryptography and CRC (R205)
  | aese (e : Eng) (x : FmtXA)
  | aesd (e : Eng) (x : FmtXA)
  | aesk (e : Eng) (x : FmtXA)
  | ghmul (e : Eng) (x : FmtXA)
  | crcg (e : Eng) (x : FmtXA)
  | crcgn (e : Eng) (x : FmtXA)
  | aesb (e : Eng) (x : FmtXB)
  | ghb (e : Eng) (x : FmtXB)
  | shb (e : Eng) (x : FmtXB)
  | tdb (e : Eng) (x : FmtXB)
  -- store buffer and posts (R102, R221 to R223)
  | storeBufferDrain (e : Eng)
  | postPerform (unit : Fin 40)
  | postReply (e : Eng)
  | deferredPostingException (e : Eng)
  -- micro level (R300)
  | next (e : Eng)
  | jump (e : Eng)
  | bt (e : Eng)
  | bf (e : Eng)
  | microCall (e : Eng)
  | microRet (e : Eng)
  | disp (e : Eng)
  | waitev (e : Eng)
  | waitevEnd (e : Eng)
  | waittb (e : Eng)
  | waittbEnd (e : Eng)
  | endWord (e : Eng)
  | exc (e : Eng)
  | microRunaway (e : Eng)
  -- Compass (R274 to R292). `late` is a slot and a vector routed while the entry is in progress (R284)
  | eventRouted (source : BitVec 20)
  | eventEntry (e : Eng) (late : Option (BitVec 8 × BitVec 6))
  | heldExceptionDelivery (e : Eng)
  | qstopSet (e : Eng)
  | pend (slot : BitVec 8) (value : Word)
  -- queues and host interface (R364 to R392)
  | qcfg (qid : BitVec 16) (value : Word)
  | qdbp (qid : BitVec 16) (w : Writer) (value : BitVec 32)
  | qdbc (qid : BitVec 16) (w : Writer) (value : BitVec 32)
  | hdbp (fn : BitVec 8) (i : BitVec 8) (w : Writer) (value : BitVec 32)
  | hdbc (fn : BitVec 8) (i : BitVec 8) (w : Writer) (value : BitVec 32)
  | sqCopyCompletion (qid : BitVec 16) (k : Nat) (result : Completion)
  | cqBurst (qid : BitVec 16)
  | pcieCompletion (e : Eng) (result : Completion)
  | hifCompletionTimeout (r : HostReq)
  | msixPendingSend (fn : BitVec 8) (vec : Fin 8)
  | functionLevelReset (fn : BitVec 8)
  | csrWrite (page : CsrPage) (off : BitVec 26) (size : Nat) (value : Word)
  -- rings (R399 to R453)
  | beaconSend (r : RingId) (measured : Option (BitVec 16))
  | beaconReceive (r : RingId) (dir : Dir) (groups : List (BitVec 10)) (rt : BitVec 15)
  | beaconMissing (r : RingId)
  | minislotSend (r : RingId) (k : Fin 10)
  | minislotReturn (r : RingId) (groups : List (BitVec 10))
  | minislotLost (r : RingId)
  | tableExtractResend (r : RingId) (a : BitVec 6)
  | frameReceive (r : RingId) (dir : Dir) (groups : List (BitVec 10))
  | dataSlot (r : RingId) (slot : Nat)
  | acknowledgementWaitExpiry (r : RingId) (a : BitVec 6)
  | transactionTimeout (t : TimerOf)
  | stationLost (r : RingId) (a : BitVec 6)
  | sideFailure (r : RingId) (side : Side) (cause : SideCause)
  | wrap (r : RingId) (side : Side)
  | unwrap (r : RingId) (side : Side)
  | scheduleSwitch (r : RingId)
  -- Keeper's transports (R464, R465)
  | smbusBlockWrite (bytes : List Byte) (pecOk : Bool)
  | smbusBlockRead (count : Nat) (pecOk : Bool)
  | smbusBufferReset (pecOk : Bool)
  | smbusAlertResponse
  | commandComplete
  -- Keeper's commands (R468)
  | identify (via : Via)
  | status (via : Via)
  | versions (via : Via)
  | logRead (via : Via)
  | powerSet (via : Via)
  | armWake (via : Via)
  | disarm (via : Via)
  | imageLoad (via : Via) (host : KeeperRead)
  | imageVerify (via : Via)
  | imageCommit (via : Via) (programmed : Bool)
  | cstoreReload (via : Via)
  | domainCreate (via : Via)
  | domainDestroy (via : Via)
  | domainQuiesce (via : Via)
  | domainResume (via : Via)
  | domainKeys (via : Via)
  | memInit (via : Via)
  | scrubSet (via : Via)
  | zeroize (via : Via)
  | ringStart (via : Via) (modules : Option (List Byte) × Option (List Byte)) (trained : Bool)
  | ringStop (via : Via)
  | ringInsert (via : Via) (aligned : List Bool × List Bool) (other : Option Beacon)
  | ringBypass (via : Via)
  | planSwitch (via : Via)
  | sxtReport (via : Via)
  | replan (via : Via) (found : PlanFound) (avsOk : Bool)
  | planRevert (via : Via) (avsOk : Bool)
  | resetPart (via : Via)
  | engineReset (via : Via)
  | selftest (via : Via) (pass : BitVec 8)
  | fuseRead (via : Via)
  | keyEnroll (via : Via)
  -- power, clocks, memory upkeep, Sextant
  | timerFire (t : Fin 32)
  | armFire (i : Fin 8)
  | dormantEntry
  | wakeComplete (env : BootEnv)
  | clusterTransitionComplete (c : Fin 4)
  | bootComplete (env : BootEnv)
  | selfRefreshEntry (m : Fin 2)
  | dramRefresh (m : Fin 2)
  | patrolScrubRead (m : Fin 2)
  | fillTrackerStep (m : Fin 2) (k : Nat)
  | correctedRecordFlush (origin : Byte)
  | monitorSample (i : Fin 96) (c0 c1 c2 : BitVec 16)
  | sextantHourly (hours : Vector (BitVec 32) 10)
  | delayRegisterFault (c : Fin 4) (j : Fin 32)
  | thermalSample (sensors : Vector (BitVec 16) 5)
  | thermtrip (sensor : Fin 5)
  | rclkLoss
  | refclkLoss
  | xtal32Loss
  | pllLockLoss (pll : Fin 7)
  | fabricTimeout (requester : Byte) (pa : BitVec 46)
  | coreRailLow (rail : RailLow)
  -- resets and test access (R540, R582 to R586)
  | powerOnReset
  | resetN
  | perstN
  | tapReset
  | extest (shift : List Bool)
  | idcode
  | samplePreload (balls : List Bool) (shift : List Bool)
  | clamp
  | highz
  | extestPulse (shift : List Bool)
  | extestTrain (shift : List Bool)
  | bypass
  -- the remaining rows
  | unassignedOpcode (e : Eng) (pred : BitVec 4) (len : Len) (op : BitVec 8) (xop : BitVec 8)
  | instructionFetchFault (e : Eng)
  | sideRecovery (r : RingId) (side : Side)
  | resetDeassertion
  | clockInputRestored (c : ClockIn)
  | pcieConfigurationWrite (w : CfgWrite)
  | linkRecovery
  | malformedCommand (via : Via)
  | submissionWhileBusy (via : Via)
deriving DecidableEq, Repr

end Sys2Proof
end

