-- ==== Sys2Proof/Decode.lean ====
section
/-! DEFINITION. Decoding. The table gives no row any bits, so no table word spells a command. The bytes of a macro
instruction do: its first word and extension (R83), its format (R89) and its opcode (R94) give the command that the row
of its mnemonic stands for. -/

namespace Sys2Proof

/-- The command that `nbits` bits `w` spell by the table's bits: none, since no row of the table has bits. -/
def decodeTableWord (nbits w : Nat) : Option Instr :=
  let _ := nbits + w
  none

/-! ### The first word and the formats (R83, R89) -/

/-- Bytes as a little-endian number. -/
def littleEndian : List Byte → Nat
  | [] => 0
  | b :: r => b.toNat + 256 * littleEndian r

/-- The length that LC of a first word stands for (R83). -/
def lenOf (w : BitVec 32) : Len :=
  match (field w 26 2).toNat with
  | 0 => .l4 | 1 => .l6 | 2 => .l8 | _ => .l12

/-- Format A (R89). -/
def asA (w : BitVec 32) (e : Word) : FmtA :=
  { pred := field w 28 4, len := lenOf w, ra := field w 14 4, rb := field w 10 4, rc := field w 6 4, mod := field w 0 6,
    imm := if lenOf w = .l6 then field e 0 16 else 0 }

/-- DISP of formats B, D and X-B in 8 and 12 bytes (R89). -/
def dispOf (len : Len) (e : Word) : BitVec 32 :=
  match len with
  | .l8 => (field e 0 20).setWidth 32
  | .l12 => field e 0 32
  | _ => 0

/-- MOD2 or the immediate above DISP in 8 and 12 bytes (R89). -/
def aboveDisp (len : Len) (e : Word) : BitVec 32 :=
  match len with
  | .l8 => (field e 20 12).setWidth 32
  | .l12 => field e 32 32
  | _ => 0

/-- Format B (R89). In 6 bytes W0[3:0] are DISP[19:16]. -/
def asB (w : BitVec 32) (e : Word) : FmtB :=
  let six := decide (lenOf w = .l6)
  { pred := field w 28 4, len := lenOf w, ra := field w 14 4, bs := field w 10 4, ix := field w 6 4,
    mod := if six then field w 4 2 ++ 0#4 else field w 0 6,
    disp := if six then (field w 0 4 ++ field e 0 16).setWidth 32 else dispOf (lenOf w) e, mod2 := aboveDisp (lenOf w) e }

/-- Format C (R89). -/
def asC (w : BitVec 32) (e : Word) : FmtC :=
  let long := decide (lenOf w = .l12)
  { pred := field w 28 4, len := lenOf w, b1 := field w 14 4, b2 := field w 10 4, l1 := field w 5 5, l2 := field w 0 5,
    dp1 := if long then field e 0 32 else 0, dp2 := if long then field e 32 32 else 0 }

/-- Format D (R89). -/
def asD (w : BitVec 32) (e : Word) : FmtD :=
  { pred := field w 28 4, len := lenOf w, bs := field w 14 4, ix := field w 10 4, sz := field w 8 2, mod := field w 0 8,
    disp := dispOf (lenOf w) e, imm := aboveDisp (lenOf w) e }

/-- Format E (R89). -/
def asE (w : BitVec 32) (e : Word) : FmtE :=
  let off : BitVec 30 := match lenOf w with
    | .l6 | .l8 => field w 0 14 ++ field e 0 16
    | _ => (field w 0 14).setWidth 30
  let mask : BitVec 16 := match lenOf w with
    | .l8 => field e 16 16
    | .l12 => field e 48 16
    | _ => 0
  { pred := field w 28 4, len := lenOf w, m := field w 14 4, off := off, mask := mask,
    tgt := if lenOf w = .l12 then field e 0 48 else 0 }

/-- Layout X-A (R89). -/
def asXA (w : BitVec 32) (e : Word) : FmtXA :=
  let six := decide (lenOf w = .l6)
  { pred := field w 28 4, len := lenOf w, ra := field w 6 4, rb := field w 2 4, mod := field w 0 2,
    rc := if six then field e 12 4 else 0, mod2 := if six then field e 0 12 else 0 }

/-- Layout X-B (R89). -/
def asXB (w : BitVec 32) (e : Word) : FmtXB :=
  { pred := field w 28 4, len := lenOf w, ra := field w 6 4, bs := field w 2 4, mod := field w 0 2,
    disp := dispOf (lenOf w) e, mod2 := aboveDisp (lenOf w) e }

/-! ### The opcodes (R94) -/

/-- The entry of an opcode in a list. -/
def opFind {α : Type} (op : Nat) : List (Nat × α) → Option α
  | [] => none
  | (k, f) :: r => if op = k then some f else opFind op r

/-- Format A: integer (R175), fixed decimal (R118), fences and moves (R185, R216), BR and PSET (R187, R188), and status
control, keys, waits and MCALL (R95, R202). -/
def opsA : List (Nat × (Eng → FmtA → Instr)) :=
  [(0x01, .add), (0x02, .sub), (0x03, .and), (0x04, .or), (0x05, .xor), (0x06, .shl), (0x07, .shr),
   (0x08, .sar), (0x09, .rol), (0x0A, .cmp), (0x0B, .cmpu), (0x0C, .cmpp), (0x0D, .mov), (0x0E, .mvi),
   (0x10, .mul), (0x11, .mulh), (0x12, .mulhu), (0x13, .div), (0x14, .divu)]
  ++
  [(0x40, .dad), (0x43, .dsb), (0x44, .dmp), (0x45, .ddv), (0x46, .dcp), (0x47, .dsh), (0x48, .drn),
   (0x49, .dzp), (0x4C, .dtb), (0x4D, .btd)]
  ++
  [(0x78, .sync), (0x79, .syncw), (0x7A, .syncr), (0x82, .fmvg), (0x83, .gmvf), (0x84, .dtf), (0x85, .ftd),
   (0xA2, .br), (0xA7, .pset)]
  ++
  [(0xC0, .svc), (0xC1, .eret), (0xC2, .spsw), (0xC3, .gpsw), (0xC4, .gete), (0xC5, .sete), (0xC6, .krs),
   (0xC7, .krg), (0xC8, .sfpc), (0xC9, .gfpc), (0xCA, .kset), (0xCB, .kget), (0xCC, .tlbia), (0xCD, .tlbid),
   (0xCE, .tlbix), (0xCF, .wfe), (0xD0, .sev), (0xD1, .wuntil), (0xD2, .tbr), (0xF8, .mcall)]

/-- The string instructions (R134). -/
def opsString : List (Nat × (Eng → FmtA → Nat → Instr)) :=
  [(0x60, .mvs), (0x61, .mvp), (0x62, .cls), (0x63, .clp), (0x64, .trn), (0x65, .trt), (0x66, .scn),
   (0x67, .xcd), (0x68, .edt), (0x69, .edk), (0x6A, .crc)]

/-- Format B (R118, R175, R185, R216). -/
def opsB : List (Nat × (Eng → FmtB → Instr)) :=
  [(0x20, .ld), (0x21, .lds), (0x22, .st), (0x23, .lea), (0x41, .dld), (0x42, .dst), (0x4A, .dpk), (0x4B, .dup),
   (0x70, .pst), (0x71, .psx), (0x72, .prd), (0x73, .pbn), (0x80, .fld), (0x81, .fst)]

/-- Format C (R118). -/
def opsC : List (Nat × (Eng → FmtC → Instr)) :=
  [(0x50, .dadm), (0x51, .dsbm), (0x52, .dcpm), (0x53, .dzpm)]

/-- Format E (R188). -/
def opsE : List (Nat × (Eng → FmtE → Instr)) :=
  [(0xA0, .b), (0xA1, .bc), (0xA3, .call), (0xA4, .callr), (0xA5, .ret), (0xA6, .dbnz)]

/-- Escape 0xFE: the operations with a register form, and with 0x80 added a memory form (R179). -/
def xopsBoth : List (Nat × (Eng → FmtX → Instr)) :=
  [(0x00, .fadd), (0x01, .fsub), (0x02, .fmul), (0x03, .fdiv), (0x04, .fma)]

/-- Escape 0xFE: the operations in layout X-A alone (R179). -/
def xopsFloat : List (Nat × (Eng → FmtXA → Instr)) :=
  [(0x05, .fsqrt), (0x06, .fcmp), (0x07, .fcmpp), (0x08, .fcvt), (0x09, .frnd), (0x0A, .ftog), (0x0B, .gtof),
   (0x0C, .fquant)]

/-- Escape 0xFF in layout X-A (R205). -/
def xopsCrypto : List (Nat × (Eng → FmtXA → Instr)) :=
  [(0x00, .aese), (0x01, .aesd), (0x02, .aesk), (0x03, .ghmul), (0x08, .crcg), (0x09, .crcgn)]

/-- Escape 0xFF in layout X-B (R205). -/
def xopsBlock : List (Nat × (Eng → FmtXB → Instr)) :=
  [(0x80, .aesb), (0x81, .ghb), (0x82, .shb), (0x83, .tdb)]

/-- The command of an escaped instruction, none when its XOP is unassigned (R179, R205). -/
def decodeEscape (e : Eng) (w : BitVec 32) (x : Word) : Option Instr :=
  let xop := (field w 10 8).toNat
  if field w 18 8 = 0xFE then
    match opFind xop xopsBoth, opFind (xop - 0x80) xopsBoth with
    | some f, _ => some (f e (.reg (asXA w x)))
    | none, some f => if 0x80 ≤ xop then some (f e (.mem (asXB w x))) else (opFind xop xopsFloat).map (· e (asXA w x))
    | none, none => (opFind xop xopsFloat).map (· e (asXA w x))
  else
    match opFind xop xopsCrypto with
    | some f => some (f e (asXA w x))
    | none => (opFind xop xopsBlock).map (· e (asXB w x))

/-- The command of an instruction with a primary opcode, none when the opcode is unassigned (R94). -/
def decodePrimary (e : Eng) (stop : Nat) (w : BitVec 32) (x : Word) : Option Instr :=
  let op := (field w 18 8).toNat
  if op = 0x30 then some (.sti e (asD w x))
  else if op = 0x4E then some (.dts e (.reg (asA w x)))
  else if op = 0x4F then some (.dts e (.mem (asB w x)))
  else
    match opFind op opsA, opFind op opsB, opFind op opsC, opFind op opsE, opFind op opsString with
    | some f, _, _, _, _ => some (f e (asA w x))
    | _, some f, _, _, _ => some (f e (asB w x))
    | _, _, some f, _, _ => some (f e (asC w x))
    | _, _, _, some f, _ => some (f e (asE w x))
    | _, _, _, _, some f => some (f e (asA w x) stop)
    | _, _, _, _, _ => none

/-- The command of a macro instruction for engine `e`: `w` is its first word and `x` its extension (R83). `stop` is the
commit point at which an interruption pauses a string instruction. An unassigned opcode is its own row (R94, R96). -/
def decodeWords (e : Eng) (stop : Nat) (w : BitVec 32) (x : Word) : Instr :=
  let op := field w 18 8
  let i := if op = 0xFE ∨ op = 0xFF then decodeEscape e w x else decodePrimary e stop w x
  i.getD (.unassignedOpcode e (field w 28 4) (lenOf w) op (if op = 0xFE ∨ op = 0xFF then field w 10 8 else 0))

/-- The command of the macro instruction whose bytes stand at IA, none while fewer bytes are given than it has (R83). -/
def decodeMacro (e : Eng) (stop : Nat) (l : List Byte) : Option Instr :=
  if l.length < 4 then none
  else
    let w := BitVec.ofNat 32 (littleEndian (l.take 4))
    let n := (lenOf w).bytes
    if l.length < n then none
    else some (decodeWords e stop w (BitVec.ofNat 64 (littleEndian ((l.take n).drop 4))))

end Sys2Proof
end

