-- ==== Sys2Proof/Machine/State.lean ====
section
/-! DEFINITION. The state of the CX-3256 as plain data: every register, bank, buffer, queue, counter and pin the spec
gives the part, the reasons a step can stop, and the state right after power-on reset. Names follow the spec; the rule
stands beside each field. Counters and plain registers of the register map (19) live in one sparse table keyed by CSR
offset, `State.csr`. -/

namespace Sys2Proof.Machine

/-- Why a step stops. Every command of the table has an effect or is turned away with none, so the only fault names an
access that no agent of the part can make. -/
inductive Fault where
  /-- Raised by no meaning of this model: kept for an access outside the 46-bit physical space (R10). Safe. -/
  | noSuchAddress (pa : Nat)
deriving DecidableEq, Repr

/-- Why a command has no meaning. -/
inductive Refusal where
  /-- Raised by an arm of exec whose command has no meaning yet, under the row's mnemonic. Safe. -/
  | notModelled (mnemonic : String)
deriving DecidableEq, Repr

/-! ### Register banks (03) -/

/-- One loop register set of the micro level (R314, R315). -/
structure LoopReg where
  start : BitVec 14
  stop : BitVec 14
  count : BitVec 16
  active : Bool
  dbr : Bool
deriving DecidableEq, Repr, Inhabited

/-- The commit record of a bank (R322, R327). `readPast` is the number of bytes read past a result (R156). -/
structure CommitRec where
  valid : Bool
  readPast : BitVec 32
  resume : BitVec 14
  target : Option (BitVec 14)
  loops : Vector LoopReg 3
  order : List (Fin 3)
  flags : BitVec 16
  mbk : Byte
  n : BitVec 6
  gen : Byte
deriving DecidableEq, Repr, Inhabited

/-- A register bank (R45). Bit 0 of `p` is never read: P0 reads as 1 (R54). -/
structure Bank where
  g : Vector Word 16
  d : Vector (BitVec 256) 8
  f : Vector (BitVec 128) 16
  p : BitVec 8
  cc : BitVec 2
  psw : BitVec 128
  fpc : BitVec 32
  krr : BitVec 32
  epsw : BitVec 128
  estat : Word
  eaddr : Word
  commit : CommitRec
  /-- The copy of the commit record that a delivery keeps beside EPSW (R324). -/
  ecommit : CommitRec
deriving DecidableEq, Repr, Inhabited

/-! ### Compass (10) -/

/-- An exception as Compass latches it (R289): CAUSE, DETAIL, EADDR and ILEN. -/
structure Exc where
  cause : BitVec 8
  detail : BitVec 16
  eaddr : Word
  ilen : BitVec 4
deriving DecidableEq, Repr, Inhabited

/-- The state of a slot (R265). -/
inductive SlotState where
  | idle | active | held
deriving DecidableEq, Repr, Inhabited

/-- A slot (R264, R277, R278) with its wake latch (R196) and the secret of SCRAMBLED mode (R191). XEXC reads 1 while
`heldExc` or `deferred` holds an exception (R289, R223). -/
structure Slot where
  state : SlotState
  qstop : Bool
  nest : Bool
  xlvl : BitVec 3
  heldExc : Option Exc
  deferred : List Exc
  lastvec : BitVec 6
  disc : BitVec 16
  ovf : Bool
  pend : Word
  wake : Bool
  secret : Word
deriving DecidableEq, Repr, Inhabited

/-! ### Engines (03, 04, 08, 09, 11, 12) -/

/-- A TLB entry (R242). `device` is the memory type of the frame. -/
structure TlbEntry where
  vpn : BitVec 36
  dom : BitVec 8
  frame : BitVec 34
  w : Bool
  x : Bool
  p : Bool
  d : Bool
  pki : BitVec 4
  lock : BitVec 8
  share : BitVec 2
  device : Bool
deriving DecidableEq, Repr, Inhabited

/-- A store-buffer entry (R102, R337): a 16-byte block, the bytes stored in it, whether it is still open, and whether it
is held until its segment's commit point (R142). `err` lists its failing bits (R336). -/
structure SbEntry where
  block : Nat
  data : BitVec 128
  mask : BitVec 16
  opened : Bool
  held : Bool
  err : List Nat := []
deriving DecidableEq, Repr, Inhabited

/-- The four posting instructions (R216). -/
inductive PostKind where
  | pst | psx | prd | pbn
deriving DecidableEq, Repr, Inhabited

/-- What a home reports of a post (R217 to R224). -/
inductive PostResult where
  | done (cc : Option (BitVec 2)) (dval : Option (BitVec 256)) (gval : Option Word)
  | failed (x : Exc)
  | poisoned
deriving DecidableEq, Repr, Inhabited

/-- A post from its issue until its reply (R221). `arrive` is the earliest moment at which its home can perform it, and
`reply` the moment its reply reaches the engine, both on the clock of the issuing engine (R222). -/
structure Post where
  kind : PostKind
  slot : BitVec 8
  va : Word
  pa : Nat
  len : Nat
  u : Bool
  waited : Bool
  doe : Bool
  home : Fin 40
  ra : BitVec 4
  val : BitVec 256
  val2 : BitVec 256
  ilen : BitVec 4
  arrive : Nat
  reply : Nat
  result : Option PostResult
deriving DecidableEq, Repr, Inhabited

/-- Where the data of a host-window load goes (R389). -/
inductive LoadDest where
  | g (ra : BitVec 4) (size : Nat) (signed : Bool)
  | f (ra : BitVec 4) (size : Nat)
  | mvs (ra rb rc : BitVec 4) (pd : Nat)
  | lsu
  | fop (op : Nat) (ra : BitVec 4) (fmt : Nat)
  | block (xop : Nat) (ra : BitVec 4) (mode : Nat)
deriving DecidableEq, Repr, Inhabited

/-- A host-window load that waits for its PCIe completions (R389, R391). `bus` and `size` are those of the read in
progress, which `issued` says has left; `got` are the bytes of the reads before it and `left` counts the bytes after it.
`start` is the Chronometer at the load's beginning, `since` that at the issue of the read (R390). -/
structure HostLoad where
  bus : Word
  size : Nat
  issued : Bool
  got : List Byte
  left : Nat
  start : Word
  fn : BitVec 8
  dest : LoadDest
  ilen : BitVec 4
  va : Word
  since : Word
deriving DecidableEq, Repr, Inhabited

/-- What an engine waits for inside an instruction or a micro-word (R197, R198, R200, R217, R319, R391). -/
inductive Wait where
  | none
  | wfe (deadline : Option Word)
  | wuntil (t : Word)
  | sev (slot : BitVec 8) (vec : BitVec 6)
  | post
  | host (h : HostLoad)
  | waitev
  | waittb (t : Word)
deriving DecidableEq, Repr, Inhabited

/-- The ports of one unit of the micro level (R306), and the clock of the routine at which its last operation is done. -/
structure UnitPorts where
  a : BitVec 256
  d : BitVec 256
  m : BitVec 16
  y : BitVec 256
  y2 : BitVec 256
  cond : BitVec 4
  ready : Nat
deriving DecidableEq, Repr, Inhabited

/-- A frame of the micro stack (R318). -/
structure MicroFrame where
  ret : BitVec 14
  saved : List (Nat × Word)
deriving DecidableEq, Repr, Inhabited

/-- What an executed word still has to do when its units are idle: nothing, its commit point, the end of the routine, or
its wait (R310, R319, R322, R323). -/
inductive WordDue where
  | none | commit | finish
  | wait (w : Wait)
deriving DecidableEq, Repr, Inhabited

/-- A customer routine in progress (R305, R314 to R326). `shadow` holds the bank with its pending writes (R321), `count`
the words since the last commit point (R325), `clock` the clocks of the routine; `atCommit` says that its last word was
a commit point. -/
structure MicroRun where
  pc : BitVec 14
  target : Option (BitVec 14)
  delay : Bool
  n : BitVec 6
  x : FmtA
  mf : BitVec 16
  loops : Vector LoopReg 3
  order : List (Fin 3)
  mbk : Byte
  rsm : BitVec 7
  stack : List MicroFrame
  units : Tbl UnitPorts
  shadow : Bank
  count : Nat
  clock : Nat
  atCommit : Bool
  /-- MODE and BANK, and a value written to either with the words that still run under the old one (R305, R330). -/
  mode : BitVec 16
  bank : BitVec 3
  modeDue : Option (BitVec 16 × Nat)
  bankDue : Option (BitVec 3 × Nat)
  /-- Pending writes to banks of other levels, by level (R301, R321). -/
  far : Tbl Bank
  due : WordDue
deriving DecidableEq, Repr, Inhabited

/-- The customer window of an engine's Control Store, with the entries of its part, and the words of that Control Store
that parity finds bad at their next read: micro addresses, and nano addresses from 0x10000 up (R294, R297, R332). The
vendor words are those of `Config`. -/
structure CStore where
  entries : List (BitVec 32)
  micro : List (BitVec 32)
  nano : List (BitVec 256)
  parity : List Nat
deriving DecidableEq, Repr, Inhabited

/-- The state of a cache line (R338). -/
inductive Mesi where
  | m | e | s
deriving DecidableEq, Repr, Inhabited

/-- A line held by a cache: its line number (physical address div 64), its state, and the failing bits of the copy
(R336, R348). -/
structure CLine where
  line : Nat
  st : Mesi
  err : List Nat := []
deriving DecidableEq, Repr, Inhabited

/-- A BTB entry (R191): its tag, with LEVEL and KEY in TAGGED mode and none in SCRAMBLED mode, and the level of the slot
that wrote it (R33). -/
structure BtbEntry where
  scrambled : Bool
  tag : BitVec 38
  level : BitVec 3
  key : BitVec 8
  writer : BitVec 3
  target : BitVec 48
deriving DecidableEq, Repr, Inhabited

/-- A Ledger Engine without its banks and slots. Caches and the BTB hold their sets most recently used first (R336,
R189). -/
structure Engine where
  wait : Wait
  sb : List SbEntry
  posts : List Post
  /-- Engine stopped for good until ENGINE_RESET (R290). -/
  checkstop : Bool
  micro : Option MicroRun
  t : Vector Word 32
  dtlb : Tbl (Option TlbEntry)
  itlb : Tbl (Option TlbEntry)
  lfsr : BitVec 16
  dcache : Tbl (List CLine)
  icache : Tbl (List Nat)
  lineBuf : List Nat
  /-- The moment, on `clock`, at which the line fetched ahead arrives (R99). -/
  lineDue : Nat
  /-- Failing bits of lines held by the instruction cache or the line buffer (R348). -/
  icErr : Tbl (List Nat)
  /-- The model's own field: cycles that the engine has spent, from which waits in progress are measured (R99, R222). -/
  clock : Nat
  /-- The moment, on `clock`, from which a home may start its next operation for this engine (R222). -/
  homeFree : Tbl Nat
  btb : Tbl (List BtbEntry)
  /-- A machine check of a poisoned post not yet taken (R536). -/
  postCheck : Option Post
  /-- The Control Store, its customer generation, and a window that CSTORE_RELOAD has still to write (R294, R296). -/
  cs : CStore
  csGen : Byte
  csDue : Bool
  /-- The running level has stopped at a commit point, and nothing has been entered since (R282). -/
  intact : Bool
  mcCode : BitVec 16
  mcLevel : BitVec 3
  mcStopped : Bool
  ria : BitVec 48
deriving DecidableEq, Repr, Inhabited

/-! ### Domains, queues, host interface (02, 13) -/

/-- The state of a domain (R29). -/
inductive DomState where
  | absent | active | quiescing | quiesced | destroying
deriving DecidableEq, Repr, Inhabited

/-- A Ledger Domain: HIF.DSTAT (R30), the root table's entry (R234) and the error queue (R387, R530). -/
structure Domain where
  state : DomState
  flrq : Bool
  scrambled : Bool
  ftmpol : BitVec 2
  faultlvl : BitVec 3
  refused : BitVec 16
  ovf : Bool
  root : Option (BitVec 46)
  eqbase : BitVec 46
  eqlogn : BitVec 4
  eqpi : BitVec 16
  eqpph : Bool
  records : BitVec 32
  dberr : BitVec 16
  dbovf : Bool
deriving DecidableEq, Repr, Inhabited

/-- A read request of an SQ copy (R379): its first entry and its number of entries, the entries that have landed, the bytes
that have come of the next, and the Chronometer at its issue (R390). -/
structure SqRead where
  index : BitVec 16
  count : Nat
  done : Nat
  part : List Byte
  since : Word
deriving DecidableEq, Repr, Inhabited

/-- How far an OQ entry has come (R438 to R440): not sent, sent and not yet ended, or ended behind entries that have
not. -/
inductive OqSt where
  | waiting | flying | ended
deriving DecidableEq, Repr, Inhabited

/-- An OQ entry from CI on: its index, when Queue Manager advanced XI over it (R440), and how far it has come. -/
structure OqEntry where
  index : BitVec 16
  since : Word
  st : OqSt
deriving DecidableEq, Repr, Inhabited

/-- A queue context (R364 to R366), the copy of an SQ in progress, and the entries of an OQ that NLK has to send. -/
structure Queue where
  cfg : Word
  idx : Word
  dbase : Word
  xbase : Word
  reads : List SqRead
  oq : List OqEntry
deriving DecidableEq, Repr, Inhabited

/-- A PCIe function's configuration (R381, R391) and MSI-X state (R385). Table entries: address, data in bits [95:64],
mask in bit 96. -/
structure PcieFn where
  /-- The AER capability: corrected and uncorrected error status, and the header logged (R381, R391). -/
  aerCor : BitVec 32
  aerUncor : BitVec 32
  aerHeader : BitVec 128
  busMaster : Bool
  d3hot : Bool
  msixEn : Bool
  msixMask : Bool
  maxPayload : Nat
  maxRead : Nat
  msix : Vector (BitVec 128) 8
  pba : BitVec 8
deriving DecidableEq, Repr, Inhabited

/-- A function as PCIe resets it: no requests allowed, D0, every MSI-X vector masked (R391, R392). -/
def PcieFn.reset : PcieFn :=
  { aerCor := 0, aerUncor := 0, aerHeader := 0, busMaster := false, d3hot := false, msixEn := false, msixMask := false, maxPayload := 128, maxRead := 512,
    msix := Vector.replicate 8 (BitVec.ofNat 128 (2 ^ 96)), pba := 0 }

/-! ### The plan and the images (01, 08, 10, 14, 15, 16) -/

/-- An entry of a ring slot table (R410). -/
structure SlotEntry where
  start : BitVec 16
  len : BitVec 16
  owner : Byte
  dirB : Bool
  anyClass : Bool
  cls : BitVec 4
  peer : Byte
deriving DecidableEq, Repr, Inhabited

/-- A station of a station directory (R455). -/
structure DirStation where
  cmask : BitVec 16
  expected : Bool
deriving DecidableEq, Repr, Inhabited

/-- The slot table and the station directory of one ring (R410, R455). -/
structure RingPlan where
  msofs : BitVec 16
  slots : List SlotEntry
  retry : Nat
  tmo : List (BitVec 16)
  stations : List DirStation
deriving DecidableEq, Repr, Inhabited

/-- An entry of the station-class queue map (R456). -/
structure QMapEntry where
  station : BitVec 8
  cls : BitVec 4
  inn : Bool
  out : Bool
  iq : BitVec 16
  oq : BitVec 16
deriving DecidableEq, Repr, Inhabited

/-- An entry of the event map (R270). -/
structure EventEntry where
  source : BitVec 20
  slot : BitVec 8
  vector : BitVec 6
deriving DecidableEq, Repr, Inhabited

/-- An entry of the posting-region map (R213). -/
structure Region where
  base : Nat
  frames : Nat
  unit : Byte
deriving DecidableEq, Repr, Inhabited

/-- A plan image's sections, read (R19, R485). -/
structure Plan where
  rings : List (RingId × RingPlan)
  qmap : List QMapEntry
  events : List EventEntry
  owners : List Byte
  regions : List Region
  modes : List (BitVec 8)
deriving DecidableEq, Repr, Inhabited

/-- An image that Keeper has accepted (R479): its header, its body, where it came from (R472) and whether FORCE loaded
it. -/
structure Image where
  header : List Byte
  body : List Byte
  source : Byte
  forced : Bool
deriving DecidableEq, Repr, Inhabited

/-! ### Rings (14, 15) -/

/-- A character of the line (R396): a data byte D or a control character K. -/
inductive LineChar where
  | d (b : Byte)
  | k (b : Byte)
deriving DecidableEq, Repr, Inhabited

/-- The receiver and the transmitter of one port, east or west (R394): the running disparity of each (R396), positive
when true; the bytes in the receiver's elastic buffer (R414); the transmitter's remaining busy time in eighths of a BT,
its transit buffer, and the own slot that waits for it (R415). -/
structure Port where
  rxRd : Bool
  txRd : Bool
  fill : Nat
  busy : Nat
  transit : List (List LineChar)
  slot : Option (Nat × Word)
deriving DecidableEq, Repr, Inhabited

/-- A frame sent and not yet acknowledged (R433, R437). -/
structure OutFrame where
  seq : BitVec 12
  cls : BitVec 4
  typ : BitVec 4
  xid : BitVec 16
  payload : List Byte
  /-- Transmissions made, and the Chronometer at the first SOF. -/
  sent : Nat
  sof : BitVec 32
  /-- A retransmission is due. -/
  due : Bool
  rsyn : Bool
  oq : BitVec 16
  oqIndex : BitVec 16
deriving DecidableEq, Repr, Inhabited

/-- A load of a table extract into a station (R450): the table, the loads made, the byte offset sent so far, and whether
TBLEND has been sent. -/
structure TableLoad where
  tnum : Bool
  tries : Nat
  ofs : Nat
  ended : Bool
deriving DecidableEq, Repr, Inhabited

/-- The holder's record of a station (R433, R451, R458). `st`: 0 ABSENT, 1 JOINING, 2 JOINED, 3 refused. -/
structure Station where
  st : BitVec 2
  vmin : Byte
  vmax : Byte
  txseq : BitVec 12
  rxexp : BitVec 12
  tsync : Bool
  rxuns : Bool
  out : List OutFrame
  /-- An acknowledgement is owed, since the frame whose EOF came at this Chronometer value (R436). -/
  owed : Bool
  owedAt : Word
  nak : Bool
  /-- The cycle in which the last NAK was sent (R436). -/
  nakAt : Option (BitVec 32)
  loads : List TableLoad
deriving DecidableEq, Repr, Inhabited

/-- The transaction state of a (station, class) pair (R441, R443). `openOut`: XID, acknowledged, OQ index. -/
structure Pair where
  xid : BitVec 16
  openOut : Option (BitVec 16 × Bool × BitVec 16)
  openIn : Option (BitVec 16)
deriving DecidableEq, Repr, Inhabited

/-- The state of a ring (R427): OFF, TRAINED, INSERTING, INSERTED. -/
inductive RingState where
  | off | trained | inserting | inserted
deriving DecidableEq, Repr, Inhabited

/-- The steps of a handover by RING_BYPASS (R419): none, asked for, HANDOFF sent in cycle C, and cycle C + 1. -/
inductive Handoff where
  | none | asked | sent | given
deriving DecidableEq, Repr, Inhabited

/-- One ring block (R427, R458). Its counters are in `State.csr`. `rt8` is the ring time in eighths of a byte time. -/
structure Ring where
  state : RingState
  /-- The part holds the beacon: ROLE. -/
  holder : Bool
  /-- The part's own address is 63, and its role at insertion is holder (RING_START). -/
  addr63 : Bool
  asHolder : Bool
  hold : Bool
  sync : Bool
  wrapE : Bool
  wrapW : Bool
  tsel : Bool
  /-- The cycle of the announced schedule switch (R424, R425). -/
  swcyc : Option (BitVec 32)
  limx : Bool
  ver : Byte
  loop : BitVec 16
  sdly : BitVec 16
  cycle : BitVec 32
  rt8 : Nat
  /-- The holder's beacon of this cycle has left. -/
  bcnSent : Bool
  /-- The LOOP measured in this cycle, and whether a wrap forbids a measurement in it (R399). -/
  measuring : Option (BitVec 16)
  spoiled : Bool
  dp : BitVec 16
  dq : BitVec 16
  ds : BitVec 16
  /-- RT and fields of the holder's beacons received in this cycle on P and on Q (R400). -/
  seenP : Option (BitVec 15 × Beacon)
  seenQ : Option (BitVec 15 × Beacon)
  miss : Nat
  followed : Nat
  lastWrp : Bool
  /-- The standby takes the beacon at its next cycle boundary (R419, R422). -/
  takeNext : Bool
  handoff : Handoff
  failE : Option SideCause
  failW : Option SideCause
  /-- The two ports (R394). -/
  east : Port
  west : Port
  table0 : Option RingPlan
  table1 : Option RingPlan
  qmap0 : List QMapEntry
  qmap1 : List QMapEntry
  /-- Minislots sent and not yet returned, oldest first (R408). -/
  minislots : List (Fin 10)
  stations : Tbl Station
  /-- Stations whose TBLOK for the table not in force has arrived (NLK.TBLOK). -/
  confirmed : Word
  /-- A load of PLAN_SWITCH has failed (R454). -/
  loadFailed : Bool
  /-- The load of the new table into the standby (R424). -/
  standbyLoad : Option TableLoad
  /-- The table and the bytes of it that a standby has received from the holder (R424, R450). -/
  incoming : Option (Bool × List Byte)
deriving DecidableEq, Repr, Inhabited

/-! ### Keeper (16) -/

/-- A command packet as Keeper copies it (R459). -/
structure Packet where
  opcode : BitVec 16
  flags : Byte
  fmt : Byte
  tag : BitVec 32
  plen : BitVec 32
  hcrc : BitVec 32
  data : List Byte
deriving DecidableEq, Repr, Inhabited

/-- A command in progress (R464): its packet, its transport, and the status and data its reply will carry. -/
structure Running where
  pkt : Packet
  smbus : Bool
  status : BitVec 16
  reply : List Byte
  /-- The plan's announcement has been made (PLAN_SWITCH step 2, R424). -/
  announced : Bool
  /-- The op journal has been opened for it (R462, R491). -/
  opened : Bool
deriving DecidableEq, Repr, Inhabited

/-- The part state (R494). -/
inductive PState where
  | boot | held | watch | active | recovery | dormant
deriving DecidableEq, Repr, Inhabited

/-- Keeper: mailbox, SMBus buffers, command in progress, images, fuses burned by command (R463 to R492). Images stand in
the order kind 1 to 4. -/
structure Keeper where
  cmdBuf : Tbl Byte
  replyBuf : Tbl Byte
  asm : List Byte
  asmOver : Bool
  smbReply : List Byte
  smbPos : Nat
  smbBusyReply : Bool
  busy : Bool
  done : Bool
  src : Bool
  opcode : BitVec 16
  submitted : Option Packet
  running : Option Running
  inForce : Vector (Option Image) 4
  heldImg : Vector (Option Image) 4
  /-- The customer generation, and the window that CSTORE_RELOAD writes (R296). -/
  generation : Byte
  reload : Option CStore
  bootAlt : BitVec 4
  needInit : Bool
  journal : Option Word
  bootStep : BitVec 4
  wasWake : Bool
  /-- The configuration block as boot read it (R489). -/
  smbOff : Bool
  uartOff : Bool
  ddrMax : Byte
deriving DecidableEq, Repr, Inhabited

/-- What the board and the fuses hold beyond every reset: the flash (default 0xFF, R486), the fuses that KEY_ENROLL
burns (R478), and the fixed fuses. -/
structure NonVolatile where
  flash : Tbl Byte
  custHash : BitVec 384
  enrolled : Bool
  fuses : FuseSet
deriving DecidableEq, Repr, Inhabited

/-! ### Power, clocks, Sextant (17) -/

/-- The state of a cluster (R497). -/
inductive CState where
  | gated | idle | run
deriving DecidableEq, Repr, Inhabited

/-- A cluster: its state and the target of its transition in progress (R498). -/
structure Cluster where
  st : CState
  target : Option CState
deriving DecidableEq, Repr, Inhabited

/-- An arm (R503). -/
structure Arm where
  evclass : Byte
  evarg : BitVec 32
  part : Byte
  clusters : List Byte
deriving DecidableEq, Repr, Inhabited

/-- PCM: what the always-on domain holds (R505, R510, R527). -/
structure Pcm where
  chrono : Word
  frac : BitVec 7
  dormCnt : BitVec 16
  rclkOk : Bool
  refclkOk : Bool
  xtalOk : Bool
  cpll : BitVec 4
  fpll : Bool
  dpll : Bool
  kpll : Bool
  ddrRate : BitVec 2
  arms : Vector (Option Arm) 8
  fired : BitVec 8
  noEffect : BitVec 8
  /-- Arms whose timer, source or temperature event has occurred (R503). -/
  due : BitVec 8
  /-- Arms that have fired and wait to be applied, in order (R504). -/
  firing : List (Fin 8 × Arm)
  wakeArm : BitVec 3
  wakeValid : Bool
  wakeClass : Byte
  tjmax : BitVec 16
  hot : Bool
  hotCnt : BitVec 16
  hotOvf : Bool
  triplog : Word
  opj : Word
  tmrCmp : Tbl Word
  tmrCtl : Tbl Word
deriving DecidableEq, Repr, Inhabited

/-- Power control: the part state, the clusters, and the power-ups that wait for their turn (R500). -/
structure Power where
  part : PState
  clusters : Vector Cluster 4
  ups : List (Fin 4 × CState)
  modes : Vector (BitVec 8) 4
  modesSet : Bool
  /-- POWER_SET to DORMANT has been accepted and its reply precedes the entry (R500). -/
  dormantDue : Bool
  /-- The part is stopped by a fatal error or a THERMTRIP (R526, R538). -/
  fatal : Bool
  tripped : Bool
  resetting : Bool
  /-- The reset in progress, or the last one, is a power-on reset (R540). -/
  powerOn : Bool
deriving DecidableEq, Repr, Inhabited

/-- Sextant (R512 to R524). `selector` and `inForce`: 0 Anchor, 1 slot A, 2 slot B. -/
structure Sextant where
  slotA : List Byte
  slotB : List Byte
  selector : BitVec 2
  inForce : BitVec 2
  frozen : Bool
  disagree : Bool
  discnt : BitVec 16
  lastPlan : Word
  vtarget : BitVec 16
  vmeas : BitVec 16
  /-- Least slack of this hour by monitor, and the same of the hours before, latest last (R513, R515). -/
  least : Tbl (Option (BitVec 16))
  history : List (Tbl (Option (BitVec 16)))
  /-- The projection of each block: cluster 0 to 3, fabric, PCIe, ring 0 to 3. -/
  hours : Vector (BitVec 32) 10
  /-- Delay registers that have had a fault since the last plan application (R524). -/
  dlyFaults : List (Fin 4 × Fin 32)
  temps : Vector (BitVec 16) 5
  /-- Delay registers as loaded, and the SerDes targets that wait for their moment and in force (R520). -/
  delays : List Byte
  serdes : List Byte
  serdesDue : List Byte
deriving DecidableEq, Repr, Inhabited

/-! ### Memory (12) -/

/-- A fill tracker (R357): its granule, the next line of its background fill, and the lines marked ahead of it. -/
structure Tracker where
  gran : Nat
  pos : Nat
  marked : List Nat
deriving DecidableEq, Repr, Inhabited

/-- The failing bits that the next reads of a line find, one list for each read (R346, R347), and for a DRAM line where it
lies: rank and subchannel (R362). -/
structure LineErr where
  rank : Bool
  subchannel : Bool
  reads : List (List Nat)
deriving DecidableEq, Repr, Inhabited

/-- A DRAM controller (R344, R351, R354, R495). `scrubPos` counts the lines of the pass in progress. -/
structure Dmc where
  module : Option Module
  /-- The module whose content the model's memory holds: the last one enabled (R345, R541). -/
  kept : Option Module
  enabled : Bool
  rate : BitVec 2
  selfRefresh : Bool
  /-- Granules that `touched` does not list are TOUCHED, as MEM_INIT leaves them (R360). -/
  full : Bool
  touched : Tbl Bool
  trackers : List Tracker
  period : Byte
  scrubActive : Bool
  passes : BitVec 16
  scrubPos : Nat
  /-- The directory: lines that clusters hold, in the order of allocation (R341). -/
  dir : List Nat
deriving DecidableEq, Repr, Inhabited

/-- A DRAM controller right after reset: no module known, PERIOD 24 (R351, R361). -/
def Dmc.reset : Dmc :=
  { module := none, kept := none, enabled := false, rate := 0, selfRefresh := false, full := false, touched := [],
    trackers := [], period := 24, scrubActive := false, passes := 0, scrubPos := 0, dir := [] }

/-- A frame's storage key (R245, R358). -/
structure Key where
  lock : BitVec 8
  share : BitVec 2
deriving DecidableEq, Repr, Inhabited

/-- Physical memory (R10): bytes by address, storage keys by frame, poisoned lines by line number (R349), key-array lines
and on-chip key-store entries that cannot be read (R248, R589), errors that reads will find, and for each DRAM line held
dirty in a cache what the DRAM itself still holds (R541). Key-array lines have numbers of their own from 2^40 up, and
entries of the on-chip key store from 2^41 up. -/
structure Memory where
  bytes : Tbl Byte
  keys : Tbl Key
  poison : Tbl Bool
  keyPoison : Tbl Bool
  errs : Tbl (Option LineErr)
  stale : Tbl (Option (List Byte))
deriving DecidableEq, Repr, Inhabited

/-! ### Errors (18), pins and test (20), and what leaves the part -/

/-- An error record (R530). -/
structure Rec where
  seq : BitVec 32
  sev : Byte
  kind : Byte
  dom : Byte
  origin : Byte
  time : Word
  detail : List Byte
  count : BitVec 32
  flags : Byte
deriving DecidableEq, Repr, Inhabited

/-- The corrected errors of one origin (R529): when its last record was written, and those pending. -/
structure Corrected where
  last : Option Word
  pending : BitVec 32
  time : Word
  detail : List Byte
deriving DecidableEq, Repr, Inhabited

/-- Keeper's log (R534) and the corrected-error limiter (R529). -/
structure Log where
  recs : List Rec
  next : BitVec 32
  corrected : Tbl Corrected
deriving DecidableEq, Repr, Inhabited

/-- The pins (R545, R571, R572): true means the pin is low. -/
structure Pins where
  ringIns : Vector Bool 4
  errN : Bool
  thermtripN : Bool
  wakeN : Bool
  clkreqN : Bool
  smbAlertN : Bool
  resetN : Bool
  perstN : Bool
  pwrOkLow : Bool
  gpioIn : BitVec 16
deriving DecidableEq, Repr, Inhabited

/-- The test access port (R582 to R586): the instruction, the update stage of the boundary register, and what the last
shifts through the instruction and the data register delivered. -/
structure Tap where
  ir : BitVec 8
  boundary : List Bool
  tdo : List Bool
  /-- A vendor-private instruction has enabled the trace port (R573). -/
  trace : Bool
deriving DecidableEq, Repr, Inhabited

/-- What the part has sent to the outside world, in order (the model's own record of its outputs). -/
inductive Sent where
  | hostRead (fn : BitVec 8) (bus : Word) (len : Nat)
  | hostWrite (fn : BitVec 8) (bus : Word) (bytes : List Byte)
  | msix (fn : BitVec 8) (vec : Fin 8) (addr : Word) (data : BitVec 32)
  | errFatal
  | flrDone (fn : BitVec 8)
  /-- Code groups on a transmitter of a ring, in order; bit 0 of each is sent first (R396). -/
  | line (r : RingId) (side : Side) (groups : List (BitVec 10))
  /-- From now on a transmitter carries WRP only, or IDLE only (R418, R420). -/
  | sideTx (r : RingId) (side : Side) (wrp : Bool)
  /-- A read of a cage's module identification on an I2C bus, through a channel of its multiplexer (R394, R395). -/
  | sfpRead (bus : Nat) (channel : Nat)
  | smbus (bytes : List Byte)
  | avs (mv : BitVec 16)
  | refresh (m : Fin 2)
deriving DecidableEq, Repr, Inhabited

/-! ### The whole part -/

/-- The part-wide state of HIF (R30, R389 to R391). -/
structure Hif where
  vfEnable : Bool
  numVfs : BitVec 16
  ctv : BitVec 4
  hwhi : BitVec 21
  linkUp : Bool
  fns : Tbl PcieFn
deriving DecidableEq, Repr, Inhabited

/-- The state of the CX-3256. -/
structure State where
  banks : Tbl Bank
  slots : Tbl Slot
  vectors : Tbl Word
  engines : Tbl Engine
  /-- Posts queued at each posting unit, in arrival order, by issuing engine (R210). -/
  homes : Tbl (List Eng)
  /-- L2 sets, keyed cluster × 8192 + set (R340). -/
  l2 : Tbl (List CLine)
  mem : Memory
  dmcs : Vector Dmc 2
  domains : Tbl Domain
  queues : Tbl Queue
  hif : Hif
  rings : Vector Ring 4
  pairs : Tbl Pair
  plan : Option Plan
  /-- The event map and slot owners that Compass has adopted (R21). -/
  events : List EventEntry
  owners : Tbl Byte
  /-- A plan switch that Compass adopts at the next cycle boundary of a ring (R21). -/
  planDue : Bool
  keeper : Keeper
  nv : NonVolatile
  power : Power
  pcm : Pcm
  sextant : Sextant
  log : Log
  pins : Pins
  tap : Tap
  csr : Tbl Word
  sent : List Sent
  /-- The model's own field: draws of free values made so far (TRNG and LFSR). -/
  draws : Nat
  /-- The commands that wait, first in first out. -/
  pending : List Instr
deriving DecidableEq, Repr

/-- Every field at its reset value: the end of power-on reset, in BOOT (R8, R490, R494, R540). -/
def State.reset : State :=
  { banks := [], slots := [], vectors := [], engines := [], homes := [], l2 := [], mem := default,
    dmcs := Vector.replicate 2 Dmc.reset, domains := [], queues := [],
    hif := default, rings := Vector.replicate 4 default, pairs := [], plan := none, events := [], owners := [],
    planDue := false, keeper := { (default : Keeper) with busy := true },
    nv := { flash := [], custHash := 0, enrolled := false, fuses := Config.fuses },
    power := { (default : Power) with powerOn := true },
    pcm := { (default : Pcm) with rclkOk := false },
    sextant := { (default : Sextant) with
      vtarget := 750, vmeas := 750, hours := Vector.replicate 10 0xFFFFFFFF#32,
      delays := Config.fuses.anchorBody.take 128, serdes := Config.fuses.anchorBody.drop 128,
      serdesDue := Config.fuses.anchorBody.drop 128 },
    log := default, pins := { (default : Pins) with clkreqN := true },
    tap := { ir := 0x01, boundary := List.replicate 1118 false, tdo := [], trace := false },
    csr := [], sent := [], draws := 0, pending := [] }

end Sys2Proof.Machine
end

