-- ==== Sys2Proof/Machine/Table.lean ====
section
/-! DEFINITION. Sparse tables, byte lists, and the accessors of State: every read and write of a register bank, a slot,
an engine, a domain, a queue or a plain CSR goes through the definitions of this file. -/

namespace Sys2Proof.Machine

/-! ### Sparse tables -/

/-- The entry of key `k`, or the default `d` of the table. -/
def tget {α : Type} (d : α) : Tbl α → Nat → α
  | [], _ => d
  | (k', v) :: r, k => if k' = k then v else tget d r k

/-- The table without key `k`. -/
def tdel {α : Type} (t : Tbl α) (k : Nat) : Tbl α := t.filter (fun p => p.1 != k)

/-- The table with `v` at key `k`, keys kept rising. -/
def tput {α : Type} : Tbl α → Nat → α → Tbl α
  | [], k, v => [(k, v)]
  | (k', v') :: r, k, v =>
    if k < k' then (k, v) :: (k', v') :: r
    else if k = k' then (k, v) :: r
    else (k', v') :: tput r k v

/-- The table with `v` at key `k`; an entry equal to the default is not kept. -/
def tset {α : Type} [DecidableEq α] (d : α) (t : Tbl α) (k : Nat) (v : α) : Tbl α :=
  if v = d then tdel t k else tput t k v

/-- Keys strictly rising and no entry equal to the default. -/
def twf {α : Type} [DecidableEq α] (d : α) : Tbl α → Bool
  | [] => true
  | [(_, v)] => v != d
  | (k, v) :: (k', v') :: r => k < k' && v != d && twf d ((k', v') :: r)

/-- The canonical form of physical memory: every table has its keys strictly rising and lists no default. -/
def Memory.wf (m : Memory) : Bool :=
  twf 0 m.bytes && twf default m.keys && twf false m.poison && twf false m.keyPoison && twf none m.errs && twf none m.stale

/-- The table without the keys for which `f` holds. -/
def tdrop {α : Type} (t : Tbl α) (f : Nat → Bool) : Tbl α := t.filter (fun p => !f p.1)

/-! ### Bytes and numbers -/

/-- The number that a byte list spells, least significant byte first (R79). -/
def leNat : List Byte → Nat
  | [] => 0
  | b :: r => b.toNat + 256 * leNat r

/-- The `n` low bytes of a number, least significant first. -/
def natLE : Nat → Nat → List Byte
  | 0, _ => []
  | n + 1, v => BitVec.ofNat 8 v :: natLE n (v / 256)

/-- A field of a byte structure: `size` bytes from `off`, little-endian (R7). -/
def fieldLE (l : List Byte) (off size : Nat) : Nat := leNat ((l.drop off).take size)

/-- The number that a byte list spells, most significant byte first. -/
def beNat (l : List Byte) : Nat := l.foldl (fun a b => a * 256 + b.toNat) 0

/-- The `n` low bytes of a number, most significant first. -/
def natBE (n v : Nat) : List Byte := (natLE n v).reverse

/-- A Bool as a number. -/
def b2n (b : Bool) : Nat := if b then 1 else 0

/-- A bit vector with the field of `w` bits at `lo` replaced. -/
def setField {n : Nat} (x : BitVec n) (lo w : Nat) (v : Nat) : BitVec n :=
  let m := (BitVec.ofNat n (2 ^ w - 1)) <<< lo
  (x &&& ~~~m) ||| ((BitVec.ofNat n v <<< lo) &&& m)

/-- A number from fields: (position, value) pairs. -/
def packBits (fs : List (Nat × Nat)) : Nat := fs.foldl (fun a f => a + f.2 * 2 ^ f.1) 0

/-- The sign extension of the `w` low bits of `v` to 64 bits. -/
def sext (w : Nat) (v : Nat) : Word := BitVec.signExtend 64 (BitVec.ofNat w v)

/-- A counter of `w` bits plus `n`: saturated value (R555). -/
def satAdd {w : Nat} (x : BitVec w) (n : Nat) : BitVec w :=
  BitVec.ofNat w (min (2 ^ w - 1) (x.toNat + n))

/-- A list element, or a default. -/
def lget {α : Type} (d : α) (l : List α) (i : Nat) : α := l.getD i d

/-- The numbers from `a` up, `n` of them. -/
def upFrom (a : Nat) : Nat → List Nat
  | 0 => []
  | n + 1 => a :: upFrom (a + 1) n

/-! ### Slots and banks -/

/-- The slot of level `n` of engine `e` (R264). -/
def slotOf (e : Eng) (n : Nat) : Nat := 8 * e.val + n

/-- The cluster of an engine (R9). -/
def clusterOf (e : Eng) : Fin 4 := Fin.ofNat 4 (e.val / 8)

/-- Slot `s` of Compass. -/
def State.slot (s : State) (i : Nat) : Slot := tget default s.slots i

/-- The state with slot `i` changed by `f`. -/
def State.modSlot (s : State) (i : Nat) (f : Slot → Slot) : State :=
  { s with slots := tset default s.slots i (f (s.slot i)) }

/-- The register bank of slot `i` (R44). -/
def State.bank (s : State) (i : Nat) : Bank := tget default s.banks i

/-- The state with the bank of slot `i` changed by `f`. -/
def State.modBank (s : State) (i : Nat) (f : Bank → Bank) : State :=
  { s with banks := tset default s.banks i (f (s.bank i)) }

/-- Entry `v` of the vector table of slot `i` (R267). -/
def State.vector (s : State) (i v : Nat) : Word := tget 0 s.vectors (64 * i + v)

/-- An engine that has never run. -/
def Engine.reset : Engine :=
  { wait := .none, sb := [], posts := [], checkstop := false, micro := none, t := Vector.replicate 32 0, dtlb := [],
    itlb := [], lfsr := 0, dcache := [], icache := [], lineBuf := [], lineDue := 0, icErr := [], clock := 0, homeFree := [], btb := [],
    postCheck := none, cs := default, csGen := 0, csDue := false, intact := false, mcCode := 0, mcLevel := 0, mcStopped := false, ria := 0 }

/-- Engine `e`. -/
def State.eng (s : State) (e : Eng) : Engine := tget Engine.reset s.engines e.val

/-- The state with engine `e` changed by `f`. -/
def State.modEng (s : State) (e : Eng) (f : Engine → Engine) : State :=
  { s with engines := tset Engine.reset s.engines e.val (f (s.eng e)) }

/-- The state with every engine changed by `f`. -/
def State.modEngines (s : State) (f : Engine → Engine) : State :=
  (List.finRange 32).foldl (fun s e => s.modEng e f) s

/-! ### Domains, queues, functions -/

/-- An absent domain (R29). -/
def Domain.absent : Domain :=
  { state := .absent, flrq := false, scrambled := false, ftmpol := 0, faultlvl := 0, refused := 0, ovf := false,
    root := none, eqbase := 0, eqlogn := 0, eqpi := 0, eqpph := false, records := 0, dberr := 0, dbovf := false }

/-- LD0, which is always ACTIVE under the ALLOWED policy and has fault level 0 (R25, R28, R287). -/
def Domain.system : Domain := { Domain.absent with state := .active, ftmpol := 1 }

/-- The value of domain `d` in an untouched table. -/
def Domain.initial (d : Nat) : Domain := if d = 0 then Domain.system else Domain.absent

/-- Domain `d`. -/
def State.dom (s : State) (d : Nat) : Domain := tget (Domain.initial d) s.domains d

/-- The state with domain `d` changed by `f`. -/
def State.modDom (s : State) (d : Nat) (f : Domain → Domain) : State :=
  { s with domains := tset (Domain.initial d) s.domains d (f (s.dom d)) }

/-- A disabled queue with every field 0 (R365). -/
def Queue.reset : Queue := { cfg := 0, idx := 0, dbase := 0, xbase := 0, reads := [], oq := [] }

/-- The context of queue `q` (R364). -/
def State.queue (s : State) (q : Nat) : Queue := tget Queue.reset s.queues q

/-- The state with queue `q` changed by `f`. -/
def State.modQueue (s : State) (q : Nat) (f : Queue → Queue) : State :=
  { s with queues := tset Queue.reset s.queues q (f (s.queue q)) }

/-- Ring block `r`. -/
def State.ring (s : State) (r : RingId) : Ring := s.rings[r]

/-- The state with ring block `r` changed by `f`. -/
def State.modRing (s : State) (r : RingId) (f : Ring → Ring) : State :=
  { s with rings := s.rings.set r (f (s.ring r)) }

/-- The holder's record of station `a` (R458). -/
def Ring.station (r : Ring) (a : Nat) : Station := tget default r.stations a

/-- The ring with the record of station `a` changed by `f`. -/
def Ring.modStation (r : Ring) (a : Nat) (f : Station → Station) : Ring :=
  { r with stations := tset default r.stations a (f (r.station a)) }

/-- A schedule switch is announced: the switch cycle is known and 1 to 16 cycles ahead (R424). -/
def Ring.swp (r : Ring) : Bool :=
  match r.swcyc with
  | none => false
  | some c => decide (1 ≤ (c - r.cycle).toNat) && decide ((c - r.cycle).toNat ≤ 16)

/-- The pair of global station `g` and class `c` (R441). -/
def State.pair (s : State) (g c : Nat) : Pair := tget default s.pairs (16 * g + c)

/-- The state with a pair changed by `f`. -/
def State.modPair (s : State) (g c : Nat) (f : Pair → Pair) : State :=
  { s with pairs := tset default s.pairs (16 * g + c) (f (s.pair g c)) }

/-- PCIe function `d`: PF0 for 0, VFd above (R22). -/
def State.fn (s : State) (d : Nat) : PcieFn := tget PcieFn.reset s.hif.fns d

/-- The state with function `d` changed by `f`. -/
def State.modFn (s : State) (d : Nat) (f : PcieFn → PcieFn) : State :=
  { s with hif := { s.hif with fns := tset PcieFn.reset s.hif.fns d (f (s.fn d)) } }

/-- A function after a function-level reset: as PCIe requires, the AER status and header stay (R38, R391). -/
def PcieFn.flr (f : PcieFn) : PcieFn :=
  { PcieFn.reset with aerCor := f.aerCor, aerUncor := f.aerUncor, aerHeader := f.aerHeader }

/-- The owner of slot `i` under the assignment in force (R23, R271): level 0 always belongs to LD0. -/
def State.owner (s : State) (i : Nat) : Nat := if i % 8 = 0 then 0 else (tget 0 s.owners i).toNat

/-! ### Plain registers and counters of the register map (R557) -/

/-- The plain register at CSR offset `o`. -/
def State.reg (s : State) (o : Nat) : Word := tget 0 s.csr o

/-- The state with the plain register at `o` set. -/
def State.setReg (s : State) (o : Nat) (v : Word) : State := { s with csr := tset 0 s.csr o v }

/-- The state with `n` added to a 64-bit performance counter outside ENG and TUM (R555). -/
def State.count (s : State) (o n : Nat) : State := s.setReg o (s.reg o + BitVec.ofNat 64 n)

/-- The state with `n` added to an error counter of layout E: COUNT [31:0] saturates and sets OVF [32] (R557). -/
def State.countErr (s : State) (o n : Nat) : State :=
  let v := s.reg o
  let c := (field v 0 32).toNat + n
  let full := decide (2 ^ 32 - 1 ≤ c)
  s.setReg o (BitVec.ofNat 64 (min (2 ^ 32 - 1) c + 2 ^ 32 * b2n (full || bit v 32)))

/-- The state with one more message sent to the outside world. -/
def State.send (s : State) (m : Sent) : State := { s with sent := s.sent ++ [m] }

/-- A draw of 64 bits from the TRNG. -/
def State.draw (s : State) : Word × State := (Config.trng s.draws, { s with draws := s.draws + 1 })

/-! ### Fields of the PSW (R56) -/

/-- PSW.IA. -/
def pswIA (p : BitVec 128) : Nat := (field p 0 48).toNat
/-- PSW.KEY. -/
def pswKEY (p : BitVec 128) : Nat := (field p 48 8).toNat
/-- PSW.LEVEL. -/
def pswLEVEL (p : BitVec 128) : Nat := (field p 56 3).toNat
/-- PSW.PRIV. -/
def pswPRIV (p : BitVec 128) : Bool := bit p 59
/-- PSW.FTM. -/
def pswFTM (p : BitVec 128) : Bool := bit p 60
/-- PSW.DOE. -/
def pswDOE (p : BitVec 128) : Bool := bit p 61
/-- PSW.IPR. -/
def pswIPR (p : BitVec 128) : Bool := bit p 64
/-- PSW.IPS. -/
def pswIPS (p : BitVec 128) : BitVec 7 := field p 65 7

/-- A PSW from its fields, every reserved bit 0. -/
def mkPsw (ia key level : Nat) (priv ftm doe ipr : Bool) (ips : Nat) : BitVec 128 :=
  BitVec.ofNat 128 (packBits [(0, ia % 2 ^ 48), (48, key % 256), (56, level % 8), (59, b2n priv), (60, b2n ftm),
    (61, b2n doe), (64, b2n ipr), (65, ips % 128)])

end Sys2Proof.Machine
end

