-- ==== Sys2Proof/Machine/Signal.lean ====
section
/-! DEFINITION. The register map's block offsets, the engine counters, the routing of event sources by Compass and the
MSI-X messages of HIF: what every other unit uses to tell software that something happened. -/

namespace Sys2Proof.Machine

/-! ### Block offsets (R549) -/

/-- ENG block of engine `e`. -/
def engBase (e : Nat) : Nat := e * 0x10000
/-- TUM block. -/
def tumBase : Nat := 0x0240000
/-- DMC block of DMC `m`. -/
def dmcBase (m : Nat) : Nat := 0x0340000 + m * 0x20000
/-- QMG globals. -/
def qmgBase : Nat := 0x0380000
/-- NLK block of ring `r`. -/
def nlkBase (r : Nat) : Nat := 0x0C00000 + r * 0x10000
/-- HIF block. -/
def hifBase : Nat := 0x0C40000
/-- KPR block. -/
def kprBase : Nat := 0x0C80000

/-! ### Routing (R269 to R276) -/

/-- The event-map entry of a source in the map that Compass has adopted. -/
def State.eventEntry (s : State) (src : Nat) : Option EventEntry := s.events.find? (fun x => x.source.toNat == src)

/-- A dropped event counts against the slot: DISC saturates and sets OVF (R276, R278). -/
def State.dropEvent (s : State) (slot : Nat) : State :=
  s.modSlot slot fun x => { x with disc := satAdd x.disc 1, ovf := x.ovf || decide (0xFFFE ≤ x.disc.toNat) }

/-- An event for a vector of a slot: dropped for an absent or destroyed owner, an exception vector or an entry with
VALID = 0 (R276); otherwise the vector is set pending, and the wake latch with it (R274, R275). -/
def State.pendVector (s : State) (slot v : Nat) : State :=
  match (s.dom (s.owner slot)).state with
  | .absent | .destroying => s.dropEvent slot
  | _ =>
    if v < 16 || !bit (s.vector slot v) 0 then s.dropEvent slot
    else s.modSlot slot fun x => { x with pend := x.pend ||| BitVec.ofNat 64 (2 ^ v), wake := true }

/-- The arms that pass a test become due: their event has occurred (R503). -/
def Pcm.meet (p : Pcm) (f : Arm → Bool) : Pcm :=
  let hit (i : Fin 8) : Nat × Nat := (i.val, b2n (p.arms[i].any f))
  { p with due := p.due ||| BitVec.ofNat 8 (packBits ((List.finRange 8).map hit)) }

/-- A source reaches the arms of class SOURCE that name it, and 0x1_1513 those of class OVERTEMP, in WATCH and ACTIVE
(R503). -/
def State.armSource (s : State) (src : Nat) : State :=
  if s.power.part = .watch ∨ s.power.part = .active then
    { s with pcm := s.pcm.meet fun a => (a.evclass == 4 && a.evarg.toNat == src) || (a.evclass == 5 && src == 0x11513) }
  else s

/-- A source fires: it reaches the arms, and Compass routes it through the event map; a source with no entry is dropped
uncounted (R274, R276, R503). -/
def State.fire (s : State) (src : Nat) : State :=
  let s := s.armSource src
  match s.eventEntry src with
  | none => s
  | some x => s.pendVector x.slot.toNat x.vector.toNat

/-! ### Engine counters (R559) and TUM counters (R263) -/

/-- Engine counter `k` of engine `e` grows by `n`. A wrap sets ENG.WRAPST bit k and raises source 0x1_1100 + e (R555). -/
def State.tick (s : State) (e : Eng) (k n : Nat) : State :=
  if n = 0 then s else
  let o := engBase e.val + 0x100 + 8 * k
  let v := (s.reg o).toNat + n
  let s := s.setReg o (BitVec.ofNat 64 v)
  if v < 2 ^ 64 then s
  else
    let w := engBase e.val + 0x20
    (s.setReg w (s.reg w ||| BitVec.ofNat 64 (2 ^ k))).fire (0x11100 + e.val)

/-- A 32-bit field of TUM.MISS or TUM.TRAP grows by 1: `hi` names the upper half (R263). -/
def State.tumCount (s : State) (e : Eng) (trap hi : Bool) : State :=
  let o := tumBase + (if trap then 0x100 else 0) + 8 * e.val
  let v := s.reg o
  let lo := if hi then 32 else 0
  let f := (field v lo 32).toNat + 1
  let s := s.setReg o (setField v lo 32 (f % 2 ^ 32))
  if f < 2 ^ 32 then s else s.fire (0x11100 + e.val)

/-- The running level: the most urgent level that is ACTIVE with QSTOP = 0 (R265). -/
def State.running (s : State) (e : Eng) : Option (Fin 8) :=
  (List.finRange 8).find? fun n =>
    let x := s.slot (slotOf e n.val)
    x.state == .active && !x.qstop

/-- The engine's clock goes on by `n` cycles. -/
def State.pass (s : State) (e : Eng) (n : Nat) : State :=
  if n = 0 then s else s.modEng e fun x => { x with clock := x.clock + n }

/-- The engine counts `n` cycles of a bank: CYC, and FTCYC while FTM = 1 (R559). -/
def State.cycles (s : State) (e : Eng) (ftm : Bool) (n : Nat) : State :=
  let s := (s.pass e n).tick e 0 n
  if ftm then s.tick e 10 n else s

/-- A wait term: `n` cycles that engine `e` spends in R101's terms, counted in MEMWAIT, and as cycles of the running level
(R103, R559). -/
def State.waitTerm (s : State) (e : Eng) (n : Nat) : State :=
  let s := s.tick e 16 n
  match s.running e with
  | none => s.pass e n
  | some l => s.cycles e (pswFTM (s.bank (slotOf e l.val)).psw) n

/-! ### MSI-X (R385, R388, R391) -/

/-- Whether function `d` may issue requests (R391). -/
def State.mayIssue (s : State) (d : Nat) : Bool :=
  let f := s.fn d
  (d == 0 || (s.hif.vfEnable && decide (d ≤ s.hif.numVfs.toNat))) && f.busMaster && !f.d3hot

/-- Whether vector `v` of function `d` may be sent now. -/
def State.msixOpen (s : State) (d : Nat) (v : Fin 8) : Bool :=
  let f := s.fn d
  s.mayIssue d && f.msixEn && !f.msixMask && !bit f.msix[v] 96

/-- The MSI-X message of vector `v` leaves (R381). -/
def State.msixSend (s : State) (d : Nat) (v : Fin 8) : State :=
  let t := (s.fn d).msix[v]
  (s.count (hifBase + 0x4008 + 80) 1).send (.msix (BitVec.ofNat 8 d) v (field t 0 64) (field t 64 32))

/-- An MSI-X message is raised: sent, or its pending bit set while it may not be sent (R380, R391). -/
def State.msix (s : State) (d : Nat) (v : Fin 8) : State :=
  if s.msixOpen d v then s.msixSend d v
  else s.modFn d fun f => { f with pba := f.pba ||| BitVec.ofNat 8 (2 ^ v.val) }

/-! ### Fixed-time policy (R28) -/

/-- PSW.FTM at an entry into a slot of domain `d` whose vector-table entry holds `f` (R28, R268). -/
def ftmAtEntry (d : Domain) (f : Bool) : Bool :=
  if d.ftmpol = 0 then false else if d.ftmpol = 1 then f else true

/-- PSW.FTM after SPSW or ERET asks for `want` while it reads `now` (R28). -/
def ftmAfterWrite (d : Domain) (now want : Bool) : Bool :=
  if d.ftmpol = 0 then now && want else if d.ftmpol = 1 then want else now || want

end Sys2Proof.Machine
end

