-- ==== Sys2Proof/Machine/Levels.lean ====
section
/-! DEFINITION. Levels of an engine (10): the running level, the entry that is due, and what the PSW of an entry is. -/

namespace Sys2Proof.Machine

/-- XEXC: an exception of the level is held for delivery (R278, R289). -/
def Slot.xexc (x : Slot) : Bool := x.heldExc.isSome || !x.deferred.isEmpty

/-- The engine is at an interruption point between commands: at an instruction boundary, in a wait that is one, or at a
commit point of a customer routine (R69, R319, R322). -/
def Engine.atPoint (x : Engine) : Bool :=
  match x.wait, x.micro with
  | .none, none => true
  | .none, some r => r.atCommit
  | .wfe _, _ | .wuntil _, _ => true
  | .waitev, some r | .waittb _, some r => r.atCommit
  | _, _ => false

/-- Engine `e` may run: its cluster is in RUN, in a part that is neither stopped nor in reset (R279, R538). In a cluster
that leaves RUN, an engine runs on only to its next interruption point (R498). -/
def State.clusterRuns (s : State) (e : Eng) : Bool :=
  let p := s.power
  let c := p.clusters[clusterOf e]
  c.st == .run && (c.target.isNone || !(s.eng e).atPoint) && !p.fatal && !p.tripped && !p.resetting

/-- A level that Compass may enter: IDLE, not stopped, with a held exception or a pending vector (R279). -/
def Slot.wantsEntry (x : Slot) : Bool := x.state == .idle && !x.qstop && (x.xexc || x.pend != 0)

/-- The level into which an entry is due now (R279). -/
def State.dueLevel (s : State) (e : Eng) : Option (Fin 8) :=
  if !s.clusterRuns e || (s.eng e).checkstop then none else
  match (List.finRange 8).find? fun n => (s.slot (slotOf e n.val)).wantsEntry with
  | none => none
  | some n =>
    match s.running e with
    | none => some n
    | some r => if n < r then some n else none

/-- The PSW that an entry into level `n` of engine `e` through vector `v` installs (R268). -/
def State.entryPsw (s : State) (e : Eng) (n v : Nat) : BitVec 128 :=
  let i := slotOf e n
  let x := s.vector i v
  let d := s.owner i
  mkPsw ((field x 1 47).toNat * 2) d n (bit x 48) (ftmAtEntry (s.dom d) (bit x 49)) (bit x 50) false 0

end Sys2Proof.Machine
end

