-- ==== Sys2Proof/Machine/Flags.lean ====
section
/-! DEFINITION. The condition code and the checks on decimal operands: CC of a binary result (R175), the nibble check
and the value of a decimal source (R74, R106, R114), and the result rule (R108). Everything here is a function of
numbers. -/

namespace Sys2Proof.Machine

/-! ### Binary results (R175) -/

/-- CC "from result": 0 for zero, 1 when bit 63 is 1, 2 otherwise. -/
def ccResult (v : Word) : Nat := if v = 0 then 0 else if bit v 63 then 1 else 2

/-- CC "from result", with 3 when the signed exact result `r` is not the value of the word written. -/
def ccSigned (r : Int) : Nat :=
  let v := BitVec.ofInt 64 r
  if v.toInt = r then ccResult v else 3

/-- CC of a comparison of two numbers: 0 equal, 1 less, 2 greater. -/
def ccCompare (a b : Int) : Nat := if a = b then 0 else if a < b then 1 else 2

/-! ### Digits -/

/-- The `n` low nibbles of a number, least significant first. -/
def nibbles : Nat → Nat → List Nat
  | 0, _ => []
  | n + 1, x => x % 16 :: nibbles n (x / 16)

/-- The number that decimal digits spell, least significant first. -/
def digitsVal : List Nat → Nat
  | [] => 0
  | d :: r => d + 10 * digitsVal r

/-- The `n` low decimal digits of a number as nibbles of a number: packed digits without a sign. -/
def bcd : Nat → Nat → Nat
  | 0, _ => 0
  | n + 1, v => v % 10 + 16 * bcd n (v / 10)

/-- The `n` low decimal digits of a number, least significant first. -/
def decDigits : Nat → Nat → List Nat
  | 0, _ => []
  | n + 1, v => v % 10 :: decDigits n (v / 10)

/-- The number of decimal digits of a magnitude, at least 1 and at most `fuel`. -/
def decLength : Nat → Nat → Nat
  | 0, _ => 0
  | fuel + 1, v => if v < 10 then 1 else 1 + decLength fuel (v / 10)

/-- A sign nibble is valid (R73). -/
def signOk (n : Nat) : Bool := decide (10 ≤ n)

/-- A sign nibble reads as minus (R73). -/
def signMinus (n : Nat) : Bool := n == 0xB || n == 0xD

/-- A signed integer from a sign and a magnitude. -/
def signed (minus : Bool) (m : Nat) : Int := if minus then -(m : Int) else m

/-- The position of the first nibble that is no digit, counted from `pos`. -/
def firstBad : List Nat → Nat → Option Nat
  | [], _ => none
  | d :: r, pos => if 10 ≤ d then some pos else firstBad r (pos + 1)

/-- A decimal source with its sign nibble and its digits: KIND and POSITION of the first invalid nibble, or the value
(R74, R114). -/
def checkDigits (sign : Nat) (ds : List Nat) : Except (Nat × Nat) Int :=
  if !signOk sign then .error (2, 0)
  else match firstBad ds 1 with
    | some p => .error (1, p)
    | none => .ok (signed (signMinus sign) (digitsVal ds))

/-- The value of a packed image of `n` digits: sign in the low nibble, the digits above it (R49, R72). -/
def checkPacked (n : Nat) (x : Nat) : Except (Nat × Nat) Int := checkDigits (x % 16) (nibbles n (x / 16))

/-- The value of a decimal pair (R51): 63 digits and the sign in the odd register, 63 digits in the even one. -/
def checkPair (even odd : Nat) : Except (Nat × Nat) Int :=
  checkDigits (odd % 16) (nibbles 63 (odd / 16) ++ nibbles 63 (even / 16))

/-- DTS of a packed image of `n` digits (R124). -/
def testPacked (n : Nat) (x : Nat) : Nat :=
  b2n (!signOk (x % 16)) + 2 * b2n (firstBad (nibbles n (x / 16)) 1).isSome

/-- DETAIL of a data exception (R114). -/
def dataDetail (kind operand position : Nat) : Nat := packBits [(12, kind), (8, operand), (0, position)]

/-! ### The result rule (R108) -/

/-- What the result rule writes: the magnitude, its sign nibble, and CC. -/
structure Finished where
  mag : Nat
  sign : Nat
  cc : Nat
deriving DecidableEq, Repr

/-- The sign nibble of a result (R75, R108). -/
def resultSign (neg : Bool) (u : Bool) : Nat := if neg then 0xD else if u then 0xF else 0xC

/-- The result rule for the exact result `r`, limit `n` and bit U. An overflow under DOE answers the DETAIL of the
decimal-overflow exception (R108, R114). -/
def finish (doe : Bool) (r : Int) (n : Nat) (u : Bool) : Except Nat Finished :=
  let m := r.natAbs
  let neg := decide (r < 0)
  if 10 ^ n ≤ m then
    if doe then .error (packBits [(0, n), (8, decLength 127 m)])
    else
      let t := m % 10 ^ n
      .ok { mag := t, sign := resultSign (neg && t != 0) u, cc := 3 }
  else .ok { mag := m, sign := resultSign neg u, cc := if r = 0 then 0 else if neg then 1 else 2 }

/-- The packed image of a finished result with `n` digits. -/
def Finished.image (f : Finished) (n : Nat) : Nat := f.sign + 16 * bcd n f.mag

/-- CC of a loaded value: 0 zero, 1 negative, 2 positive (R127). -/
def ccValue (v : Int) : Nat := ccCompare v 0

end Sys2Proof.Machine
end

