-- ==== Sys2Proof/Machine/Ecc.lean ====
section
/-! DEFINITION. Error protection (R336, R340, R346, R347): what failing bits of a line, an entry or a word decode to. -/

namespace Sys2Proof.Machine

/-- What protected bits decode to: clean, corrected (with the failing device under SDDC), or found uncorrectable. -/
inductive Ecc where
  | clean
  | corrected (device : Option Nat)
  | uncorrectable
deriving DecidableEq, Repr, Inhabited

/-- The number of failing bits that share the codeword of `b`, codewords being `w` bits long. -/
def inCodeword (w b : Nat) (bits : List Nat) : Nat := (bits.filter fun x => x / w == b / w).length

/-- A pattern beyond what the protection promises. -/
def beyond (bits : List Nat) : Ecc := if Config.eccBeyond bits then .uncorrectable else .corrected none

/-- SECDED over codewords of `w` bits: one failing bit in each is corrected, two are detected (R346). -/
def secded (w : Nat) (bits : List Nat) : Ecc :=
  if bits = [] then .clean
  else if bits.all (fun b => decide (inCodeword w b bits ≤ 1)) then .corrected none
  else if bits.all (fun b => decide (inCodeword w b bits ≤ 2)) then .uncorrectable
  else beyond bits

/-- SECDED per 8 bytes: data cache, local store, store buffer, cluster SRAM and L2 (R336, R340). -/
def secded8 (bits : List Nat) : Ecc := secded 72 bits

/-- The ×4 device of a failing bit: 40 bits a beat on a subchannel, 4 bits a device (R346). -/
def deviceOf (b : Nat) : Nat := b % 40 / 4

/-- SDDC: errors confined to one device of the line are corrected, errors in two devices are detected (R346). -/
def sddc (bits : List Nat) : Ecc :=
  match (bits.map deviceOf).eraseDups with
  | [] => .clean
  | [d] => .corrected (some d)
  | [_, _] => .uncorrectable
  | _ => beyond bits

/-- Parity per 8 bytes: instruction cache and line buffer (R336). An odd number of failing bits in 8 bytes is found. -/
def parityFails (bits : List Nat) : Bool := bits.any fun b => inCodeword 65 b bits % 2 == 1

/-- The error correction of a DRAM channel: SDDC for ×4 devices, SECDED of one beat for ×8 (R344, R346). -/
def Dmc.decode (d : Dmc) (bits : List Nat) : Ecc :=
  match d.module with
  | some m => if m.width = 4 then sddc bits else secded 40 bits
  | none => secded 40 bits

/-- What a read and its re-reads come to (R347): how the last read decoded, how many re-reads were made, and what the
reads after them find. `left` is the number of re-reads still allowed. -/
def readOut (decode : List Nat → Ecc) : Nat → Nat → List (List Nat) → Ecc × Nat × List (List Nat)
  | _, k, [] => (.clean, k, [])
  | 0, k, b :: r => (decode b, k, r)
  | left + 1, k, b :: r => if decode b = .uncorrectable then readOut decode left (k + 1) r else (decode b, k, r)

end Sys2Proof.Machine
end

