-- ==== Sys2Proof/Machine/Phys.lean ====
section
/-! DEFINITION. The physical address space, storage keys, posting regions, poison, the first-touch map and the cache
hierarchy: what an access finds behind a physical address, and what it costs on an unloaded part (01, 08, 09, 12). -/

namespace Sys2Proof.Machine

/-! ### DRAM layout (R11, R245, R354) -/

/-- The module of an enabled channel, in bytes. -/
def Dmc.capacity (d : Dmc) : Nat :=
  if d.enabled then match d.module with | some m => m.gib * 2 ^ 30 | none => 0 else 0

/-- DMC `m`. -/
def State.dmc (s : State) (m : Fin 2) : Dmc := s.dmcs[m]

/-- What remains of a channel below its key array, the top 1/2,048 of the module (R245). -/
def Dmc.usable (d : Dmc) : Nat := d.capacity - d.capacity / 2048

/-- The installed capacity (R11, R245). -/
def State.installed (s : State) : Nat := (s.dmc 0).usable + (s.dmc 1).usable

/-- Both channels are fitted with equal capacity, so frames alternate between them (R11). -/
def State.interleaved (s : State) : Bool := (s.dmc 0).capacity == (s.dmc 1).capacity && (s.dmc 0).capacity != 0

/-- The channel that holds a DRAM address, and the offset within the channel (R11). -/
def State.channelOf (s : State) (pa : Nat) : Fin 2 × Nat :=
  if s.interleaved then
    (if pa / 4096 % 2 = 0 then 0 else 1, pa / 8192 * 4096 + pa % 4096)
  else if pa < (s.dmc 0).usable then (0, pa)
  else (1, pa - (s.dmc 0).usable)

/-- The physical address of offset `o` of channel `m`: the inverse of `State.channelOf`. -/
def State.channelAddr (s : State) (m : Fin 2) (o : Nat) : Nat :=
  if s.interleaved then (o / 4096 * 2 + m.val) * 4096 + o % 4096
  else if m = 0 then o else (s.dmc 0).usable + o

/-! ### Classes of physical addresses (R10, R12, R13) -/

/-- What lies at a physical address. -/
inductive PaClass where
  | dram
  /-- Addressable SRAM of cluster `c`. -/
  | sram (c : Fin 4)
  /-- Local store of engine `e`. -/
  | local (e : Eng)
  /-- CSR space: the offset. -/
  | csr (off : Nat)
  /-- Host window: the offset. -/
  | host (off : Nat)
  | reserved
deriving DecidableEq, Repr

/-- SRAM bytes of a cluster that are addressable in its mode: 0 ADDRESSED, 1 SPLIT, 2 CACHE (R13). -/
def sramBytes (mode : BitVec 8) : Nat := if mode = 0 then 0x800000 else if mode = 1 then 0x400000 else 0

/-- The class of a physical address (R10 to R13). -/
def State.paClass (s : State) (pa : Nat) : PaClass :=
  if pa < 0x4000000000 then (if pa < s.installed then .dram else .reserved)
  else if pa < 0x200000000000 then .reserved
  else if pa < 0x200004000000 then
    let c : Fin 4 := Fin.ofNat 4 ((pa - 0x200000000000) / 0x1000000)
    if (pa - 0x200000000000) % 0x1000000 < sramBytes s.power.modes[c] then .sram c else .reserved
  else if pa < 0x210000000000 then .reserved
  else if pa < 0x210000800000 then .local (Fin.ofNat 32 ((pa - 0x210000000000) / 0x40000))
  else if pa < 0x300000000000 then .reserved
  else if pa < 0x300004000000 then .csr (pa - 0x300000000000)
  else if pa < 0x380000000000 then .reserved
  else if pa < 0x400000000000 then .host (pa - 0x380000000000)
  else .reserved

/-- Device memory (R10, R14). -/
def PaClass.isDevice : PaClass → Bool
  | .csr _ | .host _ => true
  | _ => false

/-- Memory of normal type: DRAM, addressable SRAM, local store (R10). -/
def PaClass.isNormal : PaClass → Bool
  | .dram | .sram _ | .local _ => true
  | _ => false

/-! ### Storage keys (R16, R245, R246) -/

/-- The key of a CSR frame, fixed by hardware (R16). -/
def csrKey (off : Nat) : Key :=
  if 0x0400000 ≤ off ∧ off < 0x0C00000 then { lock := BitVec.ofNat 8 ((off - 0x0400000) / 0x8000), share := 0 }
  else { lock := 0, share := 0 }

/-- The key of the frame at a physical address; host-window frames carry none and read as LOCK 0, OPEN (R247, R251). -/
def State.keyOf (s : State) (pa : Nat) : Key :=
  match s.paClass pa with
  | .csr o => csrKey o
  | .host _ => { lock := 0, share := 2 }
  | _ => tget default s.mem.keys (pa / 4096)

/-- The three kinds of access that R246 tells apart. -/
inductive KeyUse where
  | read | fetch | write
deriving DecidableEq, Repr

/-- The storage-key rule (R246). -/
def keyAllows (k : Nat) (f : Key) (u : KeyUse) : Bool :=
  k == 0 || k == f.lock.toNat || (f.share == 2 && u != .write) || (f.share == 1 && u == .read)

/-- The frame belongs to a domain in DESTROYING, so every access to it is denied (R41). -/
def State.erasing (s : State) (pa : Nat) : Bool :=
  let l := (s.keyOf pa).lock.toNat
  l != 0 && (s.dom l).state == .destroying

/-- Where the key of a frame is read: for a DRAM frame the line of the key array that holds it, 32 keys a line (R358),
numbered from 2^40 up; for an on-chip frame its entry of the key store (R245), numbered from 2^41 up. -/
def State.keyLine (s : State) (pa : Nat) : Nat :=
  match s.paClass pa with
  | .dram =>
    let (m, o) := s.channelOf pa
    2 ^ 40 + m.val * 2 ^ 32 + o / 4096 / 32
  | _ => 2 ^ 41 + pa / 4096

/-- The key of the frame cannot be read: its key-array line is poisoned (R589), or its entry of the on-chip key store is
uncorrectable (R248). -/
def State.keyUnreadable (s : State) (pa : Nat) : Bool := tget false s.mem.keyPoison (s.keyLine pa)

/-- The state with the key of a frame set. -/
def State.setKey (s : State) (frame : Nat) (k : Key) : State :=
  { s with mem := { s.mem with keys := tset default s.mem.keys frame k } }

/-! ### Posting regions (R209, R213, R214) -/

/-- The posting region that holds a physical address. -/
def State.regionOf (s : State) (pa : Nat) : Option Region :=
  match s.plan with
  | none => none
  | some p => p.regions.find? (fun r => r.base ≤ pa && pa < r.base + r.frames * 4096)

/-- The home of the 32-byte block at a physical address of a posting region (R209, R214). -/
def State.homeOf (s : State) (pa : Nat) : Option (Fin 40) :=
  match s.regionOf pa with
  | none => none
  | some r =>
    match s.paClass pa with
    | .sram c => some (Fin.ofNat 40 (8 * c.val + pa / 64 % 8))
    | .dram =>
      let m := (s.channelOf pa).1
      some (Fin.ofNat 40 (32 + 4 * m.val + (if r.unit = 4 then pa / 64 % 4 else r.unit.toNat % 4)))
    | _ => none

/-! ### Bytes -/

/-- The byte at a physical address; an address that nothing has written reads 0 (R343, R354). -/
def State.byteAt (s : State) (pa : Nat) : Byte := tget 0 s.mem.bytes pa

/-- `n` bytes from a physical address. -/
def State.bytesAt (s : State) (pa n : Nat) : List Byte := (upFrom pa n).map s.byteAt

/-- The table of bytes with a list of bytes written from `pa` up. -/
def putBytes (t : Tbl Byte) (pa : Nat) : List Byte → Tbl Byte
  | [] => t
  | b :: r => putBytes (tset 0 t pa b) (pa + 1) r

/-- Bytes written to physical memory; nothing else changes. -/
def State.putMem (s : State) (pa : Nat) (l : List Byte) : State :=
  { s with mem := { s.mem with bytes := putBytes s.mem.bytes pa l } }

/-- The line of a physical address is poisoned (R348). -/
def State.poisoned (s : State) (pa : Nat) : Bool := tget false s.mem.poison (pa / 64)

/-- A line poisoned or cleared of poison (R349). -/
def State.setPoison (s : State) (line : Nat) (p : Bool) : State :=
  { s with mem := { s.mem with poison := tset false s.mem.poison line p } }

/-! ### The first-touch map (R354 to R357) -/

/-- Granule states (R354). -/
inductive GranState where
  | untouched | filling | touched
deriving DecidableEq, Repr

/-- The state of granule `g` of a channel; key-array granules are numbered above the data granules. -/
def Dmc.granule (d : Dmc) (g : Nat) : GranState :=
  if tget d.full d.touched g then .touched
  else if d.trackers.any (fun t => t.gran == g) then .filling
  else .untouched

/-- The tracker has filled or marked line `l` of its granule (R356, R357). -/
def Tracker.has (t : Tracker) (l : Nat) : Bool := decide (l < t.pos) || t.marked.contains l

/-- A read of line `l` of granule `g` returns zero without a DRAM access (R354, R355). -/
def Dmc.zeroRead (d : Dmc) (g l : Nat) : Bool :=
  match d.granule g with
  | .touched => false
  | .untouched => true
  | .filling => !(d.trackers.any fun t => t.gran == g && t.has l)

/-- The channel of a key-array line. -/
def keyLineChannel (line : Nat) : Fin 2 := if line < 2 ^ 40 + 2 ^ 32 then 0 else 1

/-- The channel, granule and line within the granule of a line number: DRAM lines and key-array lines (R354). -/
def State.granOfLine (s : State) (line : Nat) : Fin 2 × Nat × Nat :=
  if line < 2 ^ 40 then
    let (m, o) := s.channelOf (line * 64)
    (m, o / 2 ^ 20, o % 2 ^ 20 / 64)
  else
    let o := (s.dmc (keyLineChannel line)).usable + line % 2 ^ 32 * 64
    (keyLineChannel line, o / 2 ^ 20, o % 2 ^ 20 / 64)

/-- The line's home is a DMC: a DRAM line or a key-array line. -/
def State.dramLine (s : State) (line : Nat) : Bool :=
  if line < 2 ^ 40 then s.paClass (line * 64) == .dram else decide (line < 2 ^ 41)

/-- The state with DMC `m` changed. -/
def State.modDmc (s : State) (m : Fin 2) (f : Dmc → Dmc) : State :=
  { s with dmcs := s.dmcs.set m.val (f (s.dmc m)) m.isLt }

/-- A tracker ends: its granule is TOUCHED and the tracker is free (R357). -/
def Dmc.endTracker (d : Dmc) (g : Nat) : Dmc :=
  { d with touched := tset d.full d.touched g true, trackers := d.trackers.filter (fun t => t.gran != g) }

/-- Errors that reads of DRAM lines would have found, forgotten where the lines are written. -/
def State.dropErrs (s : State) (f : Nat → Bool) : State :=
  { s with mem := { s.mem with errs := tdrop s.mem.errs f } }

/-- The fill of granule `g` of channel `m` ends: the lines that its tracker had not yet filled are zeros with valid check
bits (R357). -/
def State.endFill (s : State) (m : Fin 2) (g : Nat) : State :=
  let unfilled (line : Nat) : Bool :=
    let (m', g', l) := s.granOfLine line
    s.dramLine line && m' == m && g' == g && (s.dmc m).zeroRead g l
  (s.dropErrs unfilled).modDmc m fun d => d.endTracker g

/-- A write intent to a line (R356): whether it is a first touch of the line, and the state after it. With all 16
trackers busy the write waits for one to be free; the oldest fill ends in that wait (R357). -/
def State.writeIntent (s : State) (line : Nat) : Bool × State :=
  let (m, g, l) := s.granOfLine line
  let d := (s.dmc m)
  match d.granule g with
  | .touched => (false, s)
  | .filling =>
    if d.zeroRead g l then
      let s := (s.dropErrs (· == line)).count (dmcBase m.val + 0x120 + 8 * 13) 1
      (true, s.modDmc m fun d => { d with trackers := d.trackers.map fun t =>
        if t.gran = g then { t with marked := t.marked ++ [l] } else t })
    else (false, s)
  | .untouched =>
    let s := if d.trackers.length < 16 then s else
      match d.trackers with
      | t :: _ => s.endFill m t.gran
      | [] => s
    let s := ((s.dropErrs (· == line)).count (dmcBase m.val + 0x120 + 8 * 6) 1).count (dmcBase m.val + 0x120 + 8 * 13) 1
    (true, s.modDmc m fun d => { d with trackers := d.trackers ++ [{ gran := g, pos := 0, marked := [l] }] })

/-- Cycles of an engine that a write intent may at most wait for the oldest tracker: 16 fcy, which are 32 cy, for each line
that it has not filled (R357). Nothing while a tracker is free. -/
def State.fillBound (s : State) (line : Nat) : Nat :=
  let (m, g, _) := s.granOfLine line
  let d := s.dmc m
  if d.granule g = .untouched && 16 ≤ d.trackers.length then
    match d.trackers with
    | t :: _ => 32 * ((List.range 16384).filter fun l => !t.has l).length
    | [] => 0
  else 0

/-- Engine `e` waits for a fill tracker: a wait term of the time until one is free (R357). -/
def State.waitTracker (s : State) (e : Eng) (line : Nat) : State :=
  let n := s.fillBound line
  if n = 0 then s
  else ({ s with draws := s.draws + 1 }).waitTerm e (Config.fillWait s.draws % (n + 1))

/-! ### Caches (R336 to R342) -/

/-- The lines that a list of engines' caches and L2s hold are found by line number. -/
def findLine (l : List CLine) (line : Nat) : Option Mesi := (l.find? (fun c => c.line == line)).map (·.st)

/-- Data-cache set of a line: 128 sets, physically indexed (R336). -/
def dcSet (line : Nat) : Nat := line % 128

/-- What engine `e`'s data cache holds of a line. -/
def State.dcHolds (s : State) (e : Eng) (line : Nat) : Option Mesi :=
  findLine (tget [] (s.eng e).dcache (dcSet line)) line

/-- L2 sets of a cluster: none ADDRESSED, 4,096 SPLIT, 8,192 CACHE (R340). -/
def State.l2Sets (s : State) (c : Fin 4) : Nat :=
  if s.power.modes[c] = 1 then 4096 else if s.power.modes[c] = 2 then 8192 else 0

/-- The key of the L2 set of a line in `State.l2`. -/
def State.l2Key (s : State) (c : Fin 4) (line : Nat) : Nat := c.val * 8192 + line % s.l2Sets c

/-- What the L2 of cluster `c` holds of a line. -/
def State.l2Holds (s : State) (c : Fin 4) (line : Nat) : Option Mesi :=
  if s.l2Sets c = 0 then none else findLine (tget [] s.l2 (s.l2Key c line)) line

/-- Some cache holds the line in M. -/
def State.heldDirty (s : State) (line : Nat) : Bool :=
  (List.finRange 32).any (fun e => s.dcHolds e line == some .m) || (List.finRange 4).any (fun c => s.l2Holds c line == some .m)

/-- The DRAM copy of a line has been written: what it held before is forgotten (R541), and with it the errors that its
reads would have found (R352). -/
def State.wroteBack (s : State) (line : Nat) : State :=
  { s with mem := { s.mem with stale := tset none s.mem.stale line none, errs := tset none s.mem.errs line none } }

/-- Changes the set of a line in the data cache of engine `e`. -/
def State.modDcSet (s : State) (e : Eng) (line : Nat) (f : List CLine → List CLine) : State :=
  s.modEng e fun x => { x with dcache := tset [] x.dcache (dcSet line) (f (tget [] x.dcache (dcSet line))) }

/-- Changes the set of a line in the L2 of cluster `c`. -/
def State.modL2Set (s : State) (c : Fin 4) (line : Nat) (f : List CLine → List CLine) : State :=
  { s with l2 := tset [] s.l2 (s.l2Key c line) (f (tget [] s.l2 (s.l2Key c line))) }

/-- Removes a line from the data cache of engine `e`. -/
def State.dcDrop (s : State) (line : Nat) (e : Eng) : State :=
  if (s.dcHolds e line).isSome then
    s.modDcSet e line fun l => l.filter (fun c => c.line != line)
  else s

/-- Lowers a line of the data cache of engine `e` to S. -/
def State.dcShare (s : State) (line : Nat) (e : Eng) : State :=
  if (s.dcHolds e line).isSome then
    s.modDcSet e line fun l => l.map (fun c => if c.line = line then { c with st := .s } else c)
  else s

/-- Removes a line from the L2 of cluster `c`. -/
def State.l2Drop (s : State) (line : Nat) (c : Fin 4) : State :=
  if (s.l2Holds c line).isSome then
    s.modL2Set c line fun l => l.filter (fun x => x.line != line)
  else s

/-- Lowers a line of the L2 of cluster `c` to S. -/
def State.l2Share (s : State) (line : Nat) (c : Fin 4) : State :=
  if (s.l2Holds c line).isSome then
    s.modL2Set c line fun l => l.map (fun x => if x.line = line then { x with st := .s } else x)
  else s

/-- Engines of a cluster. -/
def clusterEngines (c : Fin 4) : List Eng := (List.finRange 8).map fun k => Fin.ofNat 32 (8 * c.val + k.val)

/-- Removes a line from the instruction cache of engine `e` (R71). The line buffer keeps what it holds. -/
def State.icDrop (s : State) (line : Nat) (e : Eng) : State :=
  if (tget [] (s.eng e).icache (line % 256)).contains line then
    s.modEng e fun x =>
      { x with icache := tset [] x.icache (line % 256) ((tget [] x.icache (line % 256)).filter (· != line)),
               icErr := if x.lineBuf.contains line then x.icErr else tset [] x.icErr line [] }
  else s

/-- Every copy of a line that a cache of the part holds is dropped; dirty data reaches the home (R71, R341). -/
def State.dropCopies (s : State) (line : Nat) : State :=
  let s := if s.heldDirty line then s.wroteBack line else s
  (List.finRange 4).foldl (State.l2Drop · line ·)
    ((List.finRange 32).foldl (State.icDrop · line ·) ((List.finRange 32).foldl (State.dcDrop · line ·) s))

/-- Every copy of a line in a data cache or an L2 is lowered to S; dirty data reaches the home. -/
def State.shareCopies (s : State) (line : Nat) : State :=
  let s := if s.heldDirty line then s.wroteBack line else s
  (List.finRange 4).foldl (State.l2Share · line ·) ((List.finRange 32).foldl (State.dcShare · line ·) s)

/-- A line of the L2 of cluster `c` takes another state. -/
def State.l2Set (s : State) (line : Nat) (c : Fin 4) (st : Mesi) : State :=
  if (s.l2Holds c line).isSome then
    s.modL2Set c line fun l => l.map (fun x => if x.line = line then { x with st := st } else x)
  else s

/-- A data cache of cluster `c` holds the line in M. -/
def State.clusterDirty (s : State) (c : Fin 4) (line : Nat) : Bool :=
  (clusterEngines c).any fun e => s.dcHolds e line == some .m

/-- No data cache, no L2 and no instruction cache holds the line. -/
def State.unheld (s : State) (line : Nat) : Bool :=
  (List.finRange 32).all (fun x => (s.dcHolds x line).isNone && !(tget [] (s.eng x).icache (line % 256)).contains line)
    && (List.finRange 4).all (fun x => (s.l2Holds x line).isNone)

/-- The oldest line of a full set leaves: the part of the list that stays, and the line evicted. -/
def evict (ways : Nat) (l : List CLine) : List CLine × Option CLine :=
  if ways ≤ l.length then (l.dropLast, l.getLast?) else (l, none)

/-- The line terms of R101. -/
inductive LineTerm where
  | hit | same | other | dram | first
deriving DecidableEq, Repr

/-- Cycles of a line term (R101). -/
def LineTerm.cycles : LineTerm → Nat
  | .hit => 0 | .same => 40 | .other => 64 | .dram => 150 | .first => 190

/-- The counter of R559 that a line term adds to. -/
def State.countTerm (s : State) (e : Eng) : LineTerm → State
  | .hit => s
  | .same => s.tick e 28 1
  | .other => s.tick e 29 1
  | .dram => s.tick e 30 1
  | .first => s.tick e 31 1

/-- The term of a line of cluster `c` reached from engine `e`. -/
def termTo (e : Eng) (c : Fin 4) : LineTerm := if clusterOf e = c then .same else .other

/-- The lines that `n` bytes from `pa` touch. -/
def linesOf (pa n : Nat) : List Nat := if n = 0 then [] else upFrom (pa / 64) ((pa + n - 1) / 64 + 1 - pa / 64)

/-- The frames whose keys a key-array line holds (R245, R358). -/
def State.keyFrames (s : State) (line : Nat) : List Nat :=
  (upFrom (line % 2 ^ 32 * 32) 32).map fun k => s.channelAddr (if line < 2 ^ 40 + 2 ^ 32 then 0 else 1) (k * 4096) / 4096

/-- The 64 bytes of a line: memory, or 32 keys of 2 bytes (R245). -/
def State.lineImage (s : State) (line : Nat) : List Byte :=
  if line < 2 ^ 40 then s.bytesAt (line * 64) 64
  else (s.keyFrames line).flatMap fun f =>
    let k := tget default s.mem.keys f
    [k.lock, k.share.setWidth 8]

/-- Before a cached DRAM line changes in a cache, what the DRAM still holds is noted (R541). -/
def State.noteStale (s : State) (line : Nat) : State :=
  if s.dramLine line && (tget none s.mem.stale line).isNone then
    { s with mem := { s.mem with stale := tset none s.mem.stale line (some (s.lineImage line)) } }
  else s

/-- An access takes the channel of a DRAM line out of self-refresh (R495). -/
def State.dramAwake (s : State) (line : Nat) : State :=
  let m := (s.granOfLine line).1
  if (s.dmc m).selfRefresh then s.modDmc m fun d => { d with selfRefresh := false } else s

/-- The bytes of a write that lie in one line reach the home once no cache holds the line: the write takes its intent
(R356), and a write of the whole line clears its poison and the errors of its DRAM copy (R349). -/
def State.lineWrite (s : State) (pa : Nat) (l : List Byte) : State :=
  let line := pa / 64
  let s := s.dropCopies line
  let s := if s.paClass pa = .dram then ((s.dramAwake line).writeIntent line).2 else s
  let s := if l.length = 64 then (s.setPoison line false).wroteBack line else s
  s.putMem pa l

/-- Some line of a range is poisoned. -/
def State.anyPoison (s : State) (pa n : Nat) : Bool := (linesOf pa n).any (fun l => tget false s.mem.poison l)

/-- A line number's DRAM unit (0 or 1). -/
def State.dmcOf (s : State) (line : Nat) : Fin 2 := (s.granOfLine line).1

end Sys2Proof.Machine
end

