-- ==== Sys2Proof/Machine/Records.lean ====
section
/-! DEFINITION. Error records, domain error queues, Keeper's log with its limit on corrected records, and the fatal stop
(R528 to R538). -/

namespace Sys2Proof.Machine

/-- A record as 64 bytes (R530). -/
def Rec.bytes (r : Rec) : List Byte :=
  natLE 4 r.seq.toNat ++ [r.sev, r.kind, r.dom, r.origin] ++ natLE 8 r.time.toNat
    ++ (r.detail ++ List.replicate 40 0).take 40 ++ natLE 4 r.count.toNat ++ [0, 0, 0, r.flags]

/-- A record whose DETAIL bytes 36 to 39 hold a domain's record number (R533). -/
def redirected (detail : List Byte) (n : Nat) : List Byte :=
  (detail ++ List.replicate 36 0).take 36 ++ natLE 4 n

/-- Keeper's log takes a record: the next number, the oldest dropped above 256, source 0x1_1511, and MSI-X vector 1 of
PF0 for SEV 1 to 3 (R534). -/
def State.logRec (s : State) (r : Rec) : State :=
  let recs := s.log.recs ++ [{ r with seq := s.log.next }]
  let recs := if 256 < recs.length then recs.drop (recs.length - 256) else recs
  let s := { s with log := { s.log with recs := recs, next := s.log.next + 1 } }
  let s := s.fire 0x11511
  if 1 ≤ r.sev.toNat ∧ r.sev.toNat ≤ 3 then s.msix 0 1 else s

/-- The slot of domain `d`'s error queue that takes the next record (R532). -/
def Domain.eqSlot (d : Domain) : Nat := d.eqbase.toNat + 64 * (d.eqpi.toNat % 2 ^ d.eqlogn.toNat)

/-- Whether a record can be written at `pa` as domain `d`: the address is memory, the key lets `d` write, and no line is
poisoned (R533). -/
def State.recordWritable (s : State) (d pa : Nat) : Bool :=
  (s.paClass pa).isNormal && !s.keyUnreadable pa && keyAllows d (s.keyOf pa) .write && !s.erasing pa && !s.poisoned pa

/-- A record of SEV 1 or 2 for domain `d` (R528, R532, R533): into the error queue of a tenant that has one, and into
Keeper's log. LD0 has no queue. -/
def State.record (s : State) (d : Nat) (sev kind origin : Byte) (detail : List Byte) : State :=
  let t := s.pcm.chrono
  let base : Rec := { seq := 0, sev := sev, kind := kind, dom := BitVec.ofNat 8 d, origin := origin, time := t,
                      detail := detail, count := 1, flags := 0 }
  if d = 0 then s.logRec base
  else
    let x := s.dom d
    if x.state = .absent ∨ x.state = .destroying then s.logRec { base with flags := 2 }
    else
      let n := x.records
      let s := s.modDom d fun x => { x with records := x.records + 1 }
      let pa := x.eqSlot
      if s.recordWritable d pa then
        let ph : Byte := if x.eqpph then 0 else 0x80
        let s := s.lineWrite pa ({ base with seq := n, flags := 1 ||| ph }).bytes
        let s := s.modDom d fun x =>
          { x with eqpi := x.eqpi + 1,
                   eqpph := if (x.eqpi.toNat + 1) % 2 ^ x.eqlogn.toNat = 0 then !x.eqpph else x.eqpph }
        let s := (s.count (qmgBase + 8 * 11) 1).fire (0x11400 + d)
        s.logRec { base with flags := 1 }
      else s.logRec { base with flags := 2, detail := redirected detail n.toNat }

/-- The KIND of an origin's corrected records: SEXTANT for Sextant, INTERNAL for the queue-context SRAM of Queue Manager,
MEMORY for every other (R531). -/
def correctedKind (origin : Byte) : Byte := if origin = 0x39 then 5 else if origin = 0x30 then 8 else 1

/-- A corrected error of an origin (R529): logged at once when no corrected record of the origin was written in the last
second, otherwise added to the pending count. -/
def State.corrected (s : State) (origin : Byte) (d : Nat) (detail : List Byte) : State :=
  let c := tget default s.log.corrected origin.toNat
  let now := s.pcm.chrono
  let open' := match c.last with
    | none => true
    | some t => decide (t.toNat + 100000000 ≤ now.toNat)
  if open' then
    let s := { s with log := { s.log with corrected := tset default s.log.corrected origin.toNat
                                            { c with last := some now, pending := 0 } } }
    s.logRec { seq := 0, sev := 0, kind := correctedKind origin, dom := BitVec.ofNat 8 d, origin := origin, time := now,
               detail := detail, count := satAdd c.pending 1, flags := 0 }
  else
    { s with log := { s.log with corrected := tset default s.log.corrected origin.toNat
                                   { c with pending := satAdd c.pending 1, time := now, detail := detail } } }

/-- The detail of a memory record (R362). `loc` and `device` tell where a DRAM error lies; a device that is not known reads
0xFF. -/
def memDetail (paddr source typ finder retries loc : Nat) (device : Option Nat) (lock : Nat) : List Byte :=
  natLE 8 paddr ++ [BitVec.ofNat 8 source, BitVec.ofNat 8 typ, BitVec.ofNat 8 finder, BitVec.ofNat 8 retries,
    BitVec.ofNat 8 loc, BitVec.ofNat 8 (device.getD 0xFF), BitVec.ofNat 8 lock, 0]

/-- The SOURCE code of the memory that holds a line (R362). -/
def State.memSource (s : State) (line : Nat) : Nat :=
  if 2 ^ 40 ≤ line then 0x62 + (s.dmcOf line).val
  else match s.paClass (line * 64) with
    | .sram c => 8 * c.val + line % 8
    | .local e => 0x20 + e.val
    | _ => 0x60 + (s.dmcOf line).val

/-- The ORIGIN code of the unit that a SOURCE code names (R362, R530). -/
def sourceOrigin (source : Nat) : Byte :=
  BitVec.ofNat 8 (if source < 0x20 then 0x28 + source / 8 else if source < 0x60 then source % 32
    else 0x20 + source % 2)

/-- PADDR of a memory record: the line's address, or its byte offset within the key array (R362). -/
def recPaddr (line : Nat) : Nat := if line < 2 ^ 40 then line * 64 else line % 2 ^ 32 * 64

/-- The LOCK of a line's frame, 0 for a key-array line (R362). -/
def State.lineLock (s : State) (line : Nat) : Nat :=
  if line < 2 ^ 40 then (s.keyOf (line * 64)).lock.toNat else 0

/-- A DMC's corrected-error counter grows by 1: CE [23:0], CEOVF [24] (R361); DMC.CEADDR takes the line (R558). -/
def State.dmcCe (s : State) (m line : Nat) : State :=
  let o := dmcBase m + 0x108
  let v := s.reg o
  let c := (field v 0 24).toNat + 1
  let s := s.setReg o (setField (setField v 0 24 (min c 0xFFFFFF)) 24 1 (b2n (bit v 24 || decide (0xFFFFFF ≤ c))))
  s.setReg (dmcBase m + 0x10) (BitVec.ofNat 64 (recPaddr line))

/-- A DMC's count of uncorrectable lines grows by 1: UE [47:32], UEOVF [48] (R361); DMC.UEADDR takes the line (R558). -/
def State.dmcUe (s : State) (m line : Nat) : State :=
  let o := dmcBase m + 0x108
  let v := s.reg o
  let c := (field v 32 16).toNat + 1
  let s := s.setReg o (setField (setField v 32 16 (min c 0xFFFF)) 48 1 (b2n (bit v 48 || decide (0xFFFF ≤ c))))
  s.setReg (dmcBase m + 0x18) (BitVec.ofNat 64 (recPaddr line))

/-- A line becomes poisoned (R348, R353): its mark is set, and a read that failed in DRAM is counted by its DMC; the loss is
recorded with TYPE 0x02. An entry of the on-chip key store only becomes unreadable (R248). -/
def State.poisonLine (s : State) (line source finder retries loc : Nat) : State :=
  if 2 ^ 41 ≤ line then { s with mem := { s.mem with keyPoison := tset false s.mem.keyPoison line true } }
  else
  let s := if line < 2 ^ 40 then s.setPoison line true
    else { s with mem := { s.mem with keyPoison := tset false s.mem.keyPoison line true } }
  let s := s.dropErrs (· == line)
  let s := if s.dramLine line then
      let m := (s.dmcOf line).val
      (if source = s.memSource line then s.dmcUe m line else s).countErr (dmcBase m + 0x120 + 8 * 12) 1
    else s
  s.record (s.lineLock line) 1 1 (sourceOrigin source)
    (memDetail (recPaddr line) source 2 finder retries loc none (s.lineLock line))

/-- What a memory's own read of a line finds (R346, R347): how it decodes after its re-reads, their number, LOC, and the
state in which those reads have been made. On-chip memories are not re-read. -/
def State.arrayRead (s : State) (line : Nat) : Ecc × Nat × Nat × State :=
  match tget none s.mem.errs line with
  | none => (.clean, 0, 0, s)
  | some x =>
    let dram := s.dramLine line
    let m := s.dmcOf line
    let (r, k, rest) := readOut (if dram then (s.dmc m).decode else secded8) (if dram then 2 else 0) 0 x.reads
    let left := if rest = [] then none else some { x with reads := rest }
    let s := { s with mem := { s.mem with errs := tset none s.mem.errs line left } }
    (r, k, if dram then b2n x.rank + 2 * b2n x.subchannel else 0,
      if k = 0 then s else s.countErr (dmcBase m.val + 0x120 + 8 * 7) k)

/-- A corrected error of a line in the memory or cache `source` (R347, R361, R558): counted where it lies, and logged with
TYPE 0x01, or 0x05 when a re-read corrected it. -/
def State.correctedLine (s : State) (line source finder retries loc : Nat) (device : Option Nat) : State :=
  if 2 ^ 41 ≤ line then s else
  let m := (s.dmcOf line).val
  let s := if 0x60 ≤ source then
      let s := s.dmcCe m line
      match device with
      | some d => s.countErr (dmcBase m + 0x400 + 8 * (20 * (loc % 2) + 10 * (loc / 2) + d)) 1
      | none => s
    else if 0x20 ≤ source then s.countErr (engBase (source % 32) + 0x200) 1
    else s
  s.corrected (sourceOrigin source) (s.lineLock line)
    (memDetail (recPaddr line) source (if retries = 0 then 1 else 5) finder retries loc device (s.lineLock line))

/-- A read of a line from the memory that holds it, with what it finds counted, logged or poisoned (R346 to R348). -/
def State.demandRead (s : State) (line finder : Nat) : State :=
  match s.arrayRead line with
  | (.clean, k, loc, s') => if k = 0 then s' else s'.correctedLine line (s'.memSource line) finder k loc none
  | (.corrected d, k, loc, s') => s'.correctedLine line (s'.memSource line) finder k loc d
  | (.uncorrectable, k, loc, s') => s'.poisonLine line (s'.memSource line) finder k loc

/-- A fatal error (R538): engines and Queue Manager stop, the ring pins are released, ERR_N goes low, a record of SEV 3
is logged, and HIF, while its clocks run, sends ERR_FATAL. -/
def State.fatalError (s : State) (kind : Byte) (detail : List Byte) (hifRuns : Bool) : State :=
  let s := { s with power := { s.power with fatal := true },
                    pins := { s.pins with ringIns := Vector.replicate 4 false, errN := true } }
  let s := s.logRec { seq := 0, sev := 3, kind := kind, dom := 0, origin := 0x3A, time := s.pcm.chrono,
                      detail := detail, count := 1, flags := 0 }
  if hifRuns then s.send .errFatal else s

end Sys2Proof.Machine
end

