-- ==== Sys2Proof/Machine/Post.lean ====
section
/-! DEFINITION. Posts at their homes (08): the indivisible operation of each post, its reply to the engine, and what an
access to a posting region waits for. -/

namespace Sys2Proof.Machine

/-! ### The operation at the home (R217 to R220) -/

/-- The failure of a post at its home: for a post that waits, the precise exception; for an unwaited PST, the deferred
posting exception (R114, R223, R224). -/
def postFailure (p : Post) (kind detail : Nat) (operand position : Nat) : PostResult :=
  if p.waited then
    if kind = 5 then .failed { cause := 0x32, detail := BitVec.ofNat 16 detail, eaddr := 0, ilen := p.ilen }
    else .failed { cause := 0x30, detail := BitVec.ofNat 16 (dataDetail kind operand position), eaddr := 0,
                   ilen := p.ilen }
  else
    let pos := if kind = 5 then detail / 256 % 128 else position
    .failed { cause := 0x39, detail := BitVec.ofNat 16 (dataDetail kind 2 pos), eaddr := p.va, ilen := 0 }

/-- What the home of a post does with its total: the result, and the bytes it writes (R217 to R220). -/
def postEffect (p : Post) (total : List Byte) : PostResult × Option (List Byte) :=
  let n := 2 * p.len - 1
  let image := beNat total
  match p.kind with
  | .pbn =>
    let old := BitVec.ofNat 64 (leNat total)
    let add := field p.val 0 64
    (.done (some (BitVec.ofNat 2 (ccSigned (old.toInt + add.toInt)))) none (some old),
      some (natLE 8 (old + add).toNat))
  | .prd =>
    match checkPacked n image with
    | .error (k, pos) => (postFailure p k 0 1 pos, none)
    | .ok v => (.done (some (BitVec.ofNat 2 (ccValue v))) (some (BitVec.ofNat 256 image)) none, none)
  | .pst =>
    match checkPacked n image, checkPacked 63 p.val.toNat with
    | .error (k, pos), _ => (postFailure p k 0 2 pos, none)
    | .ok _, .error (k, pos) => (postFailure p k 0 1 pos, none)
    | .ok t, .ok v =>
      match finish p.doe (t + v) n p.u with
      | .error d => (postFailure p 5 d 2 0, none)
      | .ok f => (.done (some (BitVec.ofNat 2 f.cc)) none none, some (natBE p.len (f.image n)))
  | .psx =>
    match checkPacked n image, checkPacked 63 p.val.toNat, checkPacked 63 p.val2.toNat with
    | .error (k, pos), _, _ => (postFailure p k 0 3 pos, none)
    | .ok _, .error (k, pos), _ => (postFailure p k 0 1 pos, none)
    | .ok _, _, .error (k, pos) => (postFailure p k 0 2 pos, none)
    | .ok t, .ok v, .ok w =>
      if t = v then
        match finish p.doe w n p.u with
        | .error d => (postFailure p 5 d 2 0, none)
        | .ok f =>
          (.done (some (if f.cc = 3 then 3 else 0)) none none, some (natBE p.len (f.image n)))
      else (.done (some 1) (some (BitVec.ofNat 256 image)) none, none)

/-- Cycles from one operation of a home to the start of its next, 2 cy a fabric cycle (R210). -/
def PostKind.interval : PostKind → Nat
  | .pst => 12
  | .psx => 16
  | .prd | .pbn => 4

/-- Cycles of the reply's way from home `u` to engine `e` (R222). -/
def postBack (e : Eng) (u : Fin 40) : Nat := if u.val < 32 ∧ clusterOf e = Fin.ofNat 4 (u.val / 8) then 12 else 24

/-- The oldest unperformed post of a list for home `u` marked with its result and the moment of its reply. -/
def markPerformed (u : Fin 40) (r : PostResult) (reply : Nat) : List Post → List Post
  | [] => []
  | p :: rest =>
    if p.home = u ∧ p.result = none then { p with result := some r, reply := reply } :: rest
    else p :: markPerformed u r reply rest

/-- The oldest unperformed post of an engine for home `u`. -/
def Engine.nextPost (x : Engine) (u : Fin 40) : Option Post := x.posts.find? fun p => p.home == u && p.result.isNone

/-- The engine with the post that home `u` performs: at the earliest when it arrives and the home is free, later by the
first touch of its line; the reply takes its way back (R222). -/
def Engine.performed (x : Engine) (e : Eng) (u : Fin 40) (p : Post) (first : Bool) (r : PostResult) : Engine :=
  let at' := max p.arrive (tget 0 x.homeFree u.val) + if first then 40 else 0
  { x with posts := markPerformed u r (at' + postBack e u) x.posts,
           homeFree := tset 0 x.homeFree u.val (at' + p.kind.interval) }

/-- A posting unit reads the line of a block: zero, counted, where nothing has touched it; otherwise what its memory holds,
with the errors found there (R347, R355). -/
def State.unitRead (s : State) (line : Nat) : State :=
  if s.dramLine line then
    let (m, g, l) := s.granOfLine line
    if (s.dmc m).zeroRead g l then s.count (dmcBase m.val + 0x100) 1 else s.demandRead line 4
  else s.demandRead line 4

/-- PSTCNT of a DRAM posting unit grows by 1 (R558). -/
def State.countPost (s : State) (u : Fin 40) : State :=
  if u.val < 32 then s else s.count (dmcBase ((u.val - 32) / 4) + 0x200 + 8 * (u.val % 4)) 1

/-- Home `u` performs the post at the front of its queue (R210): it reads the block, and poison leaves the block unchanged;
a post that writes takes its write intent first (R356). -/
def State.performAt (s : State) (u : Fin 40) : State :=
  match tget [] s.homes u.val with
  | [] => s
  | e :: rest =>
    let s := { s with homes := tset [] s.homes u.val rest }
    match (s.eng e).nextPost u with
    | none => s
    | some p =>
      let line := p.pa / 64
      let s := (s.unitRead line).countPost u
      let mark (s : State) (first : Bool) (r : PostResult) : State := s.modEng e fun x => x.performed e u p first r
      if s.poisoned p.pa then mark s false .poisoned
      else
        let (r, w) := postEffect p (s.bytesAt p.pa p.len)
        match w with
        | none => mark s false r
        | some l =>
          let (first, s) := if s.paClass p.pa = .dram then s.writeIntent line else (false, s)
          mark ((if first then s.tick e 31 1 else s).putMem p.pa l) first r

/-- Home `u` performs every post that has arrived there. -/
def State.performQueue (s : State) (u : Fin 40) : State :=
  (tget [] s.homes u.val).foldl (fun s _ => s.performAt u) s

/-- Every post that arrived before an ordinary access at the homes of its bytes is performed first (R210, R212). -/
def State.performBefore (s : State) (pa n : Nat) : State :=
  (linesOf pa n).foldl (fun s line =>
    match s.homeOf (max pa (line * 64)) with
    | none => s
    | some u => s.performQueue u) s

/-! ### Replies (R221, R223, R536) -/

/-- The wait term of a post whose home is `u` (R222). -/
def postTerm (e : Eng) (u : Fin 40) : LineTerm :=
  if u.val < 32 then termTo e (Fin.ofNat 4 (u.val / 8)) else .dram

/-- The reply of an unwaited post: a failure becomes a deferred posting exception of the slot that issued it, and a
poisoned block a machine check of the engine. -/
def State.unwaitedReply (s : State) (e : Eng) (p : Post) (r : PostResult) : State :=
  match r with
  | .done _ _ _ => s
  | .failed x => (s.tick e 20 1).modSlot p.slot.toNat fun y => { y with deferred := y.deferred ++ [x] }
  | .poisoned => s.modEng e fun x => { x with postCheck := some p }

/-- Engine `e` waits until moment `m` of its clock: a post wait, and a wait term (R222). -/
def State.waitPost (s : State) (e : Eng) (m : Nat) : State :=
  let n := m - (s.eng e).clock
  (s.tick e 19 n).waitTerm e n

/-- The engine waits for the replies of its outstanding posts, all of them unwaited: each is performed in its turn at its
home and its reply taken (R221); what remains of its time is a wait term (R222). -/
def State.awaitPosts (s : State) (e : Eng) : State :=
  (s.eng e).posts.foldl (fun s p =>
    let s := if p.result.isSome then s else s.performQueue p.home
    match (s.eng e).posts with
    | [] => s
    | q :: rest =>
      let s := (s.modEng e fun x => { x with posts := rest }).waitPost e q.reply
      match q.result with
      | some r => (s.countTerm e (postTerm e q.home)).unwaitedReply e q r
      | none => s) s

end Sys2Proof.Machine
end

