-- ==== Sys2Proof/Machine/Caches.lean ====
section
/-! DEFINITION. The data caches, the L2s, the instruction caches and the DMC directories (R336 to R342): what an access to
a line finds, what the other caches lose by it, the errors that are found on the way (R347, R348), and its wait term on an
unloaded part (R101). -/

namespace Sys2Proof.Machine

/-! ### Errors of cached copies (R348) -/

/-- The copy of a line in the data cache of engine `e`. -/
def State.dcCopy (s : State) (e : Eng) (line : Nat) : Option CLine :=
  (tget [] (s.eng e).dcache (dcSet line)).find? (·.line == line)

/-- The copy of a line in the L2 of cluster `c`. -/
def State.l2Copy (s : State) (c : Fin 4) (line : Nat) : Option CLine :=
  if s.l2Sets c = 0 then none else (tget [] s.l2 (s.l2Key c line)).find? (·.line == line)

/-- A cached copy without failing bits. -/
def CLine.mend (x : CLine) (line : Nat) : CLine := if x.line = line then { x with err := [] } else x

/-- A copy in a data cache is read: a corrected error is counted and logged; an uncorrectable one loses the copy, and the
line is poisoned when the copy was dirty (R348). -/
def State.dcCheck (s : State) (e : Eng) (line finder : Nat) : State :=
  match s.dcCopy e line with
  | none => s
  | some x =>
    match secded8 x.err with
    | .clean => s
    | .corrected _ =>
      (s.modDcSet e line (·.map (·.mend line))).correctedLine line (0x40 + e.val) finder 0 0 none
    | .uncorrectable =>
      if x.st = .m then ((s.wroteBack line).dcDrop line e).poisonLine line (0x40 + e.val) finder 0 0
      else s.dcDrop line e

/-- A copy in an L2 is read: a corrected error is logged, an uncorrectable one poisons the line (R348). The slice of the
cluster is the line's number modulo 8 (R340). -/
def State.l2Check (s : State) (c : Fin 4) (line finder : Nat) : State :=
  match s.l2Copy c line with
  | none => s
  | some x =>
    let mend (s : State) : State := s.modL2Set c line (·.map (·.mend line))
    match secded8 x.err with
    | .clean => s
    | .corrected _ => (mend s).correctedLine line (8 * c.val + line % 8) finder 0 0 none
    | .uncorrectable => (mend s).poisonLine line (8 * c.val + line % 8) finder 0 0

/-- The dirty copies of a line are read before they are written back. -/
def State.dirtyCheck (s : State) (line finder : Nat) : State :=
  let s := (List.finRange 32).foldl (fun s e => if s.dcHolds e line = some .m then s.dcCheck e line finder else s) s
  (List.finRange 4).foldl (fun s c => if s.l2Holds c line = some .m then s.l2Check c line finder else s) s

/-! ### Recalls and the directory (R341) -/

/-- A recall by the home of a DRAM line that some cache holds is counted (R558). -/
def State.countRecall (s : State) (line : Nat) : State :=
  if s.dramLine line && !s.unheld line then s.count (dmcBase (s.dmcOf line).val + 0x120 + 8 * 8) 1 else s

/-- Every cached copy of a line is recalled and dropped; dirty data reaches the home (R341, R348). -/
def State.recall (s : State) (line : Nat) : State := ((s.countRecall line).dirtyCheck line 3).dropCopies line

/-- Every cached copy of a line is lowered to S; dirty data reaches the home. -/
def State.share (s : State) (line : Nat) : State := ((s.countRecall line).dirtyCheck line 3).shareCopies line

/-- Two lines lie in the same of the 32,768 sets of a directory. -/
def sameDirSet (a b : Nat) : Bool := Config.dirSet a % 32768 == Config.dirSet b % 32768

/-- The home's directory takes a line that a cluster is about to hold (R341): entries whose line no cluster holds any more
are free; in a full set of 16 the least recently allocated entry leaves, and its line is recalled. -/
def State.dirAlloc (s : State) (line : Nat) : State :=
  if !s.dramLine line then s else
  let m := s.dmcOf line
  let live := (s.dmc m).dir.filter fun l => l == line || !s.unheld l
  if live.contains line then s.modDmc m fun d => { d with dir := live }
  else
    let mates := if live.length < 16 then [] else live.filter (sameDirSet line)
    match decide (mates.length < 16), mates with
    | false, v :: _ =>
      ((s.recall v).count (dmcBase m.val + 0x120 + 8 * 9) 1).modDmc m fun d => { d with dir := live.filter (· != v) ++ [line] }
    | _, _ => s.modDmc m fun d => { d with dir := live ++ [line] }

/-! ### Fills (R336, R340) -/

/-- A cluster gives up its copies of line `v`: dirty ones are written back (R340). -/
def State.l2Evict (s : State) (c : Fin 4) (v : CLine) : State :=
  let s := (clusterEngines c).foldl (fun s e => if s.dcHolds e v.line = some .m then s.dcCheck e v.line 3 else s) s
  let s := if v.st = .m || s.clusterDirty c v.line then s.wroteBack v.line else s
  let s := (clusterEngines c).foldl (State.dcDrop · v.line ·) s
  if v.st = .m && secded8 v.err = .uncorrectable then s.poisonLine v.line (8 * c.val + v.line % 8) 3 0 0 else s

/-- The L2 of cluster `c` takes a line in state `st`, evicting the least recently used line of the set, which is first
recalled from the data caches of the cluster (R340). -/
def State.l2Fill (s : State) (c : Fin 4) (line : Nat) (st : Mesi) : State :=
  if s.l2Sets c = 0 then s else
  let k := s.l2Key c line
  let set := (tget [] s.l2 k).filter (fun x => x.line != line)
  let (keep, out) := evict 16 set
  let s := { s with l2 := tset [] s.l2 k ({ line := line, st := st } :: keep) }
  match out with
  | none => s
  | some v => s.l2Evict c v

/-- Engine `e`'s data cache takes a line in state `st` as most recently used (R336). A line evicted in M leaves to the L2 of
its cluster, which then holds it in M, or to its home. -/
def State.dcFill (s : State) (e : Eng) (line : Nat) (st : Mesi) : State :=
  let k := dcSet line
  let set := (tget [] (s.eng e).dcache k).filter (fun x => x.line != line)
  let (keep, out) := evict 8 set
  let s := s.modEng e fun x => { x with dcache := tset [] x.dcache k ({ line := line, st := st } :: keep) }
  match out with
  | none => s
  | some v =>
    if v.st = .m then
      let s := if (s.l2Holds (clusterOf e) v.line).isSome then s.l2Set v.line (clusterOf e) .m else s.wroteBack v.line
      if secded8 v.err = .uncorrectable then s.poisonLine v.line (0x40 + e.val) 3 0 0 else s
    else s

/-! ### Reads of a line through a cluster (R340 to R342, R355) -/

/-- A DRAM line is read at its home: as zero where nothing has touched it, without a DRAM read; otherwise from DRAM, with
the errors found there (R347, R355). -/
def State.homeRead (s : State) (line : Nat) : State :=
  let s := s.dramAwake line
  let (m, g, l) := s.granOfLine line
  if (s.dmc m).zeroRead g l then s.count (dmcBase m.val + 0x100) 1
  else (s.count (dmcBase m.val + 0x120) 1).demandRead line 0

/-- A read of the line is served as zero (R355). -/
def State.readsZero (s : State) (line : Nat) : Bool :=
  let (m, g, l) := s.granOfLine line
  (s.dmc m).zeroRead g l

/-- No data cache and no instruction cache of cluster `c` holds the line. -/
def State.clusterUnheld (s : State) (c : Fin 4) (line : Nat) : Bool :=
  (clusterEngines c).all fun x => (s.dcHolds x line).isNone && !(tget [] (s.eng x).icache (line % 256)).contains line

/-- Dirty data of cluster `c`'s data caches goes to its L2, and their copies are lowered to S. -/
def State.clusterShare (s : State) (c : Fin 4) (line : Nat) : State :=
  let s := (clusterEngines c).foldl (fun s e => if s.dcHolds e line = some .m then s.dcCheck e line 3 else s) s
  let s := if s.clusterDirty c line then s.l2Set line c .m else s
  (clusterEngines c).foldl (State.dcShare · line ·) s

/-- A DRAM or key-array line read by engine `e` through its cluster: the line term, whether the engine may hold the line in
E, and the state after it, in which the cluster's L2, if it has one, holds the line. -/
def State.clusterRead (s : State) (e : Eng) (line : Nat) : LineTerm × Bool × State :=
  let c := clusterOf e
  match s.l2Holds c line with
  | some st =>
    let alone := s.clusterUnheld c line && st != .s
    let s := (s.l2Check c line 0).clusterShare c line
    (.same, alone, s.l2Fill c line ((s.l2Holds c line).getD st))
  | none =>
    let alone := s.unheld line
    let s := if alone then s else s.share line
    let excl := alone && !s.readsZero line
    (.dram, excl, ((s.homeRead line).dirAlloc line).l2Fill c line (if excl then .e else .s))

/-- A line that no cache may hold, read where it lies (R15, R211, R355). -/
def State.uncachedRead (s : State) (e : Eng) (line : Nat) : LineTerm × State :=
  match s.paClass (line * 64) with
  | .local o => (if o = e then .hit else termTo e (clusterOf o), s.demandRead line 0)
  | .sram c => (termTo e c, s.demandRead line 0)
  | .dram => (.dram, s.homeRead line)
  | _ => (.hit, s)

/-- Lines of posting regions and of local stores are in no cache; device memory neither (R14, R15, R211). -/
def State.cacheable (s : State) (line : Nat) : Bool :=
  if line < 2 ^ 40 then
    (s.regionOf (line * 64)).isNone && match s.paClass (line * 64) with
      | .dram | .sram _ => true
      | _ => false
  else true

/-- Engine `e` asks for ownership of a DRAM or key-array line (R342): from its cluster when the L2 holds it in M or E, else
from the home, where the first touch of the line is caught (R356, R357). The home reads the line unless the engine has
it. -/
def State.clusterOwn (s : State) (e : Eng) (line : Nat) : LineTerm × State :=
  let c := clusterOf e
  let has := (s.dcHolds e line).isSome
  if s.l2Holds c line == some .m || s.l2Holds c line == some .e then
    let s := (s.l2Check c line 0).clusterShare c line
    let s := (clusterEngines c).foldl (State.icDrop · line ·) ((clusterEngines c).foldl (State.dcDrop · line ·) s)
    (.same, s.l2Fill c line .m)
  else
    let (first, s) := ((s.recall line).waitTracker e line).writeIntent line
    let s := if first || has then s else s.homeRead line
    (if first then .first else .dram, (s.dirAlloc line).l2Fill c line .m)

/-- A write to a line that no cache may hold: its term, and the first touch of a DRAM line (R211, R356). -/
def State.uncachedWrite (s : State) (e : Eng) (line : Nat) : LineTerm × State :=
  match s.paClass (line * 64) with
  | .local o => (if o = e then .hit else termTo e (clusterOf o), s)
  | .sram c => (termTo e c, s)
  | .dram =>
    let (first, s) := (s.waitTracker e line).writeIntent line
    (if first then .first else .dram, s)
  | _ => (.hit, s)

/-- A data access of engine `e` to one line: its term, and the state after it (R336 to R342, R355, R356). -/
def State.cacheAccess (s : State) (e : Eng) (line : Nat) (write : Bool) : LineTerm × State :=
  if !s.cacheable line then (if write then s.uncachedWrite e line else s.uncachedRead e line)
  else
    let s := s.dcCheck e line 0
    let held := s.dcHolds e line
    if held.isSome && (!write || held != some .s) then
      (.hit, s.dcFill e line (if write then .m else held.getD .s))
    else
      let s := if held.isSome then s else s.tick e 12 1
      match decide (line < 2 ^ 40), s.paClass (line * 64) with
      | true, .sram h =>
        let alone := s.unheld line
        let s := if write then s.recall line else if alone then s else s.share line
        let s := if held.isSome then s else s.demandRead line 0
        (termTo e h, s.dcFill e line (if write then .m else if alone then .e else .s))
      | _, _ =>
        if write then
          let (t, s) := s.clusterOwn e line
          (t, s.dcFill e line .m)
        else
          let (t, excl, s) := s.clusterRead e line
          (t, s.dcFill e line (if excl then .e else .s))

/-- A data access to a list of lines: every line is requested, each miss counts its term, and the wait is the largest
term plus 1 cy when two lines are spanned (R101). DESIGN CHOICE: an access of more than two lines, for which R101 gives no
rule, waits the largest term plus 1 cy for each further line. `crossed` says that an earlier access of the instruction to
the same operand has paid the line-crossing term (R133). -/
def State.linesAccess (s : State) (e : Eng) (ls : List Nat) (write crossed : Bool) : State :=
  let r := ls.foldl (fun (a : Nat × State) line =>
    let (t, s) := a.2.cacheAccess e line write
    (max a.1 t.cycles, s.countTerm e t)) (0, s)
  let crossings := if crossed then 0 else ls.length - 1
  ((r.2.tick e 27 crossings).waitTerm e (r.1 + crossings))

/-- A store of engine `e` is performed at its line (R226): in a data cache, the line is dirty until it is written back;
a line that was lost in between is owned again first (R342). -/
def State.performStore (s : State) (e : Eng) (pa : Nat) (l : List Byte) : State :=
  let line := pa / 64
  let s := if s.cacheable line then
      (if s.dcHolds e line = some .m then s else (s.cacheAccess e line true).2).noteStale line
    else s
  s.putMem pa l

/-! ### The store buffer drains (R102, R337) -/

/-- Address `pa` lies in a byte stored in the entry. -/
def SbEntry.holds (y : SbEntry) (pa : Nat) : Bool := y.block == pa / 16 && bit y.mask (pa % 16)

/-- The byte that the entry holds for address `pa`. -/
def SbEntry.byte (y : SbEntry) (pa : Nat) : Byte := field y.data (8 * (pa % 16)) 8

/-- The bytes of an entry written to physical memory. -/
def putEntry (t : Tbl Byte) (y : SbEntry) : Tbl Byte :=
  (List.range 16).foldl (fun t i => if bit y.mask i then tset 0 t (16 * y.block + i) (y.byte i) else t) t

/-- Failing bits of an entry that drains: corrected, or the line is poisoned (R336, R348). -/
def State.entryCheck (s : State) (e : Eng) (y : SbEntry) : State :=
  match secded8 y.err with
  | .clean => s
  | .corrected _ => s.correctedLine (y.block / 4) (0x40 + e.val) 3 0 0 none
  | .uncorrectable => s.poisonLine (y.block / 4) (0x40 + e.val) 3 0 0

/-- An entry is performed: at its line's cache or home, after every post that arrived there before it (R210, R226). A frame
that is being erased takes no new data (R41). -/
def State.performEntry (s : State) (e : Eng) (y : SbEntry) : State :=
  if s.erasing (16 * y.block) then s else
  let s := (s.performBefore (16 * y.block) 16).performStore e (16 * y.block) []
  { s with mem := { s.mem with bytes := putEntry s.mem.bytes y } }.entryCheck e y

/-- The oldest entry of engine `e` drains (R102). -/
def State.drainOne (s : State) (e : Eng) : State :=
  match (s.eng e).sb with
  | [] => s
  | y :: r => (s.modEng e fun x => { x with sb := r }).performEntry e y

/-- The `n` oldest entries drain. -/
def State.drain (s : State) (e : Eng) : Nat → State
  | 0 => s
  | n + 1 => (s.drainOne e).drain e n

/-- The whole store buffer drains, 4 cy an entry, as a wait term (R102). -/
def State.drainAll (s : State) (e : Eng) : State :=
  let n := (s.eng e).sb.length
  (s.drain e n).waitTerm e (4 * n)

/-! ### Instruction lines (R71, R99, R336) -/

/-- The instruction cache or the line buffer reads its copy of a line: a parity error loses the copy, and is counted
(R348, R558). -/
def State.icCheck (s : State) (e : Eng) (line : Nat) : State :=
  if parityFails (tget [] (s.eng e).icErr line) then
    (s.modEng e fun x =>
      { x with icache := tset [] x.icache (line % 256) ((tget [] x.icache (line % 256)).filter (· != line)),
               lineBuf := x.lineBuf.filter (· != line), icErr := tset [] x.icErr line [] }).countErr
      (engBase e.val + 0x208) 1
  else s

/-- A line for the line buffer: from the own local store, the instruction cache, or its home, through the cluster's L2
(R14, R99). Its term, and the state after it, in which the instruction cache holds a line that may be cached. -/
def State.fetchAccess (s : State) (e : Eng) (line : Nat) : LineTerm × State :=
  if !s.cacheable line then
    let (t, s) := s.uncachedRead e line
    (t, s.countTerm e t)
  else
    let k := line % 256
    let hit := (tget [] (s.eng e).icache k).contains line
    let s := s.modEng e fun y =>
      { y with icache := tset [] y.icache k ((line :: (tget [] y.icache k).filter (· != line)).take 4) }
    if hit then (.hit, s)
    else
      let (t, s) := match s.paClass (line * 64) with
        | .sram c => (termTo e c, (s.share line).demandRead line 0)
        | _ => let (t, _, s) := s.clusterRead e line; (t, s)
      (t, (s.countTerm e t).tick e 13 1)

/-- Engine `e` waits `n` cycles for instruction bytes (R99). -/
def State.fetchWait (s : State) (e : Eng) (n : Nat) : State := (s.tick e 14 n).waitTerm e n

/-- One line of an instruction: in the line buffer, where a line that was fetched ahead may still be on its way, or
fetched now (R99). -/
def State.fetchLine (s : State) (e : Eng) (line : Nat) : State :=
  let s := s.icCheck e line
  match (s.eng e).lineBuf with
  | [a, b] =>
    if line = a then s
    else if line = b then s.fetchWait e ((s.eng e).lineDue - (s.eng e).clock)
    else let (t, s) := s.fetchAccess e line; s.fetchWait e t.cycles
  | l =>
    if l.contains line then s
    else let (t, s) := s.fetchAccess e line; s.fetchWait e t.cycles

/-- The line buffer holds the last line of an instruction and, when one may be fetched ahead, the next (R99): it is
requested at once, and arrives when its term has passed. -/
def State.fetchAhead (s : State) (e : Eng) (cur : Nat) (next : Option Nat) : State :=
  match next with
  | none => s.modEng e fun x => { x with lineBuf := [cur] }
  | some n =>
    if (s.eng e).lineBuf = [cur, n] then s
    else if (s.eng e).lineBuf.contains n then s.modEng e fun x => { x with lineBuf := [cur, n] }
    else
      let (t, s) := (s.icCheck e n).fetchAccess e n
      s.modEng e fun x => { x with lineBuf := [cur, n], lineDue := x.clock + t.cycles }

/-! ### Queue Manager, HIF and Keeper -/

/-- A write by Queue Manager, HIF or Keeper to bytes of one line: after the posts that have arrived at its home (R210),
and with cached copies recalled first (R356). -/
def State.agentWriteLine (s : State) (pa : Nat) (l : List Byte) : State :=
  let s := s.performBefore pa l.length
  (if l.length = 64 then s else s.recall (pa / 64)).lineWrite pa l

/-- A write of bytes by Queue Manager, HIF or Keeper, line by line. -/
def State.agentWrite (s : State) (pa : Nat) (l : List Byte) : State :=
  (linesOf pa l.length).foldl (fun s line =>
    let lo := max pa (line * 64)
    let hi := min (pa + l.length) (line * 64 + 64)
    s.agentWriteLine lo ((l.drop (lo - pa)).take (hi - lo))) s

/-- A line is read by Queue Manager, HIF or Keeper at its home, where dirty data arrives first. -/
def State.agentReadLine (s : State) (line : Nat) : State :=
  let s := s.share line
  if s.dramLine line then s.homeRead line else s.demandRead line 0

/-- A read of bytes by Queue Manager, HIF or Keeper: the posts that have arrived at the home come first (R210), cached
copies are shared, a zero read is counted (R355), and errors are found (R347). -/
def State.agentRead (s : State) (pa n : Nat) : List Byte × State :=
  let s := (linesOf pa n).foldl State.agentReadLine (s.performBefore pa n)
  (s.bytesAt pa n, s)

/-- The key of a frame is read by Queue Manager, HIF or Keeper, or found in a TLB entry's frame: errors of its key-array line
or key-store entry are found (R248, R589). A line that a cache holds is not read in DRAM. -/
def State.keyRead (s : State) (pa : Nat) : State :=
  let l := s.keyLine pa
  if s.dramLine l && (!s.unheld l || s.readsZero l) then s.dirtyCheck l 0 else s.demandRead l 0

end Sys2Proof.Machine
end

