-- ==== Sys2Proof/Machine/Queue.lean ====
section
/-! DEFINITION. Queue Manager (13): contexts, indexes, doorbells, enabling, host-ring copies and queue errors. -/

namespace Sys2Proof.Machine

/-! ### Context fields (R365, R366) -/

/-- QCFG.EN. -/
def Queue.en (q : Queue) : Bool := bit q.cfg 0
/-- QCFG.KIND: 0 EQ, 1 SQ, 2 CQ, 3 IQ, 4 OQ (R363). -/
def Queue.kind (q : Queue) : Nat := (field q.cfg 1 3).toNat
/-- QCFG.LOGN. -/
def Queue.logn (q : Queue) : Nat := (field q.cfg 4 5).toNat
/-- Entry size in bytes. -/
def Queue.esize (q : Queue) : Nat := 16 * 2 ^ (field q.cfg 9 2).toNat
/-- Message slot size in bytes. -/
def Queue.bsize (q : Queue) : Nat := 64 * 2 ^ (field q.cfg 11 2).toNat
/-- QCFG.EVEN. -/
def Queue.even (q : Queue) : Bool := bit q.cfg 13
/-- QCFG.IEN. -/
def Queue.ien (q : Queue) : Bool := bit q.cfg 14
/-- QCFG.VEC. -/
def Queue.vec (q : Queue) : Fin 8 := Fin.ofNat 8 (field q.cfg 15 3).toNat
/-- QCFG.ERR. -/
def Queue.err (q : Queue) : Nat := (field q.cfg 24 3).toNat
/-- Producer index. -/
def Queue.pi (q : Queue) : Nat := (field q.idx 0 16).toNat
/-- Transfer index. -/
def Queue.xi (q : Queue) : Nat := (field q.idx 16 16).toNat
/-- Consumer index. -/
def Queue.ci (q : Queue) : Nat := (field q.idx 32 16).toNat
/-- Pass parity of PI. -/
def Queue.pph (q : Queue) : Bool := bit q.idx 48
/-- Pass parity of XI. -/
def Queue.xph (q : Queue) : Bool := bit q.idx 49
/-- Pass parity of CI. -/
def Queue.cph (q : Queue) : Bool := bit q.idx 50
/-- Physical address of the device ring. -/
def Queue.base (q : Queue) : Nat := (field q.dbase 0 46).toNat
/-- The slot of an index (R368). -/
def Queue.slot (q : Queue) (x : Nat) : Nat := x % 2 ^ q.logn

/-- The domain of a queue (R363). -/
def queueDomain (qid : Nat) : Nat := qid / 256

/-- Entries between index `a`, ahead, and index `b` (R368). -/
def occ (n a : Nat) (pa : Bool) (b : Nat) (pb : Bool) : Nat :=
  let k := (a + 2 ^ 16 - b) % 2 ^ n
  if k = 0 ∧ pa ≠ pb then 2 ^ n else k

/-- Entries between PI and CI. -/
def Queue.held (q : Queue) : Nat := occ q.logn q.pi q.pph q.ci q.cph
/-- The producer's free slots (R368). -/
def Queue.free (q : Queue) : Nat := 2 ^ q.logn - q.held
/-- The consumer's available entries (R368). -/
def Queue.avail (q : Queue) : Nat := occ q.logn q.xi q.xph q.ci q.cph
/-- Entries that wait to be copied between the rings. -/
def Queue.due (q : Queue) : Nat := occ q.logn q.pi q.pph q.xi q.xph

/-- An index advanced by `a`, and its pass parity after the wraps of the advance (R368, R370). -/
def advance (n x : Nat) (p : Bool) (a : Nat) : Nat × Bool :=
  ((x + a) % 2 ^ 16, p ^^ ((x % 2 ^ n + a) / 2 ^ n % 2 == 1))

/-- PI advanced by `a`; XI follows in EQ, IQ and OQ (R367). -/
def Queue.addPi (q : Queue) (a : Nat) : Queue :=
  let (x, p) := advance q.logn q.pi q.pph a
  let i := setField (setField q.idx 0 16 x) 48 1 (b2n p)
  if q.kind = 1 ∨ q.kind = 2 then { q with idx := i }
  else { q with idx := setField (setField i 16 16 x) 49 1 (b2n p) }

/-- XI advanced by `a`. -/
def Queue.addXi (q : Queue) (a : Nat) : Queue :=
  let (x, p) := advance q.logn q.xi q.xph a
  { q with idx := setField (setField q.idx 16 16 x) 49 1 (b2n p) }

/-- CI advanced by `a`. -/
def Queue.addCi (q : Queue) (a : Nat) : Queue :=
  let (x, p) := advance q.logn q.ci q.cph a
  { q with idx := setField (setField q.idx 32 16 x) 50 1 (b2n p) }

/-- An entry with its PHASE bit set for the pass parity of the index at which it lands (R369). -/
def withPhase (entry : List Byte) (parity : Bool) : List Byte :=
  match entry.reverse with
  | [] => []
  | b :: r => (((b &&& 0x7F) ||| (if parity then 0 else 0x80)) :: r).reverse

/-- The pass parity of the index `k` entries after XI. -/
def Queue.xParity (q : Queue) (k : Nat) : Bool := (advance q.logn q.xi q.xph k).2

/-! ### Events and errors (R374, R375) -/

/-- The queue raises its event, unless EVEN = 0, EN = 0 or ERR is set (R375). -/
def State.queueEvent (s : State) (qid : Nat) : State :=
  let q := s.queue qid
  if q.en && q.even && q.err == 0 then (s.count (qmgBase + 16) 1).fire qid else s

/-- The error counter of QMG for an ERR code (R558): OVERRUN, ACCFLT, HOSTERR, CFGERR, POISON at k = 5 to 9. -/
def errCounter (err : Nat) : Nat := qmgBase + 8 * (4 + err)

/-- A queue error: the move stops, ERR is set, EN clears and a record goes to the domain (R374). -/
def State.queueError (s : State) (qid err index addr : Nat) : State :=
  let s := s.modQueue qid fun q => { q with cfg := setField (setField q.cfg 0 1 0) 24 3 err, reads := [], oq := [] }
  (s.countErr (errCounter err) 1).record (queueDomain qid) 2 3 0x30
    (natLE 2 qid ++ [BitVec.ofNat 8 err, 0] ++ natLE 2 index ++ [0, 0] ++ natLE 8 addr)

/-- A record of a failed outbound request (R391, R531). -/
def State.hostRecord (s : State) (d outcome req qid addr : Nat) : State :=
  s.record d 2 4 0x31 ([BitVec.ofNat 8 outcome, BitVec.ofNat 8 req] ++ natLE 2 qid ++ [0, 0, 0, 0] ++ natLE 8 addr)

/-- Counters of a move of `n` entries and `bytes` bytes (R558): MOVES, BYTES, CLMOVE and the watches. -/
def State.countMove (s : State) (qid n bytes : Nat) : State :=
  let s := (s.count qmgBase 1).count (qmgBase + 8) bytes
  let s := match s.paClass (s.queue qid).base with
    | .sram c => s.count (qmgBase + 0x160 + 8 * c.val) 1
    | .local e => s.count (qmgBase + 0x160 + 8 * (clusterOf e).val) 1
    | _ => s
  (List.range 32).foldl (fun s w =>
    let v := s.reg (qmgBase + 0x200 + 8 * w)
    if bit v 16 && (field v 0 16).toNat == qid then s.count (qmgBase + 0x300 + 8 * w) n else s) s

/-- Whether every frame of a range is memory that key `d` may use so, and its key can be read: the ERR code of the first
failure, or none (R374, R589). -/
def State.moveFault (s : State) (d pa n : Nat) (u : KeyUse) : Option Nat :=
  if n = 0 then none else
  (upFrom (pa / 4096) ((pa + n - 1) / 4096 + 1 - pa / 4096)).findSome? fun f =>
    let a := f * 4096
    if !(s.paClass a).isNormal then some 2
    else if s.keyUnreadable a then some 5
    else if s.erasing a || !keyAllows d (s.keyOf a) u then some 2
    else none

/-- The keys of the frames of a range are read (R374, R589). -/
def State.moveKeys (s : State) (pa n : Nat) : State :=
  if n = 0 then s else
  (upFrom (pa / 4096) ((pa + n - 1) / 4096 + 1 - pa / 4096)).foldl (fun s f =>
    if (s.paClass (f * 4096)).isNormal then s.keyRead (f * 4096) else s) s

/-- A write by Queue Manager as domain `d`: the ERR code that stops it, if any, and the state after it (R374). -/
def State.moveWrite (s : State) (d pa : Nat) (l : List Byte) : Option Nat × State :=
  let s := s.moveKeys pa l.length
  match s.moveFault d pa l.length .write with
  | some x => (some x, s)
  | none => (none, s.agentWrite pa l)

/-- A read by Queue Manager as domain `d`: the bytes, or the ERR code that stops it, and the state after it, in which an
error that it found stands (R347, R374, R536). -/
def State.moveRead (s : State) (d pa n : Nat) : Except Nat (List Byte) × State :=
  let s := s.moveKeys pa n
  match s.moveFault d pa n .read with
  | some x => (.error x, s)
  | none =>
    let (l, s) := s.agentRead pa n
    (if s.anyPoison pa n then .error 5 else .ok l, s)

/-- Two writes by Queue Manager, the second only when the first is made. -/
def State.moveWrites (s : State) (d pa : Nat) (l : List Byte) (pa' : Nat) (l' : List Byte) : Option Nat × State :=
  match s.moveWrite d pa l with
  | (some x, s) => (some x, s)
  | (none, s) => s.moveWrite d pa' l'

/-! ### Starting moves (R372, R379) -/

/-- Queue Manager may start a move of the queue: enabled, no error, domain ACTIVE, requests allowed for a host ring, and
no fatal stop (R31, R373, R391, R538). -/
def State.mayMove (s : State) (qid : Nat) : Bool :=
  let q := s.queue qid
  q.en && q.err == 0 && (s.dom (queueDomain qid)).state == .active && !s.power.fatal

/-- The read requests for `n` entries from index `x` of an SQ, issued at time `now`: split at the ring's end, at the maximum
read request size and at each 4 KiB boundary of host address (R379). -/
def Queue.requests (q : Queue) (maxRead : Nat) (now : Word) : Nat → Nat → Nat → List SqRead
  | 0, _, _ => []
  | fuel + 1, x, n =>
    if n = 0 then [] else
    let a := (q.xbase.toNat + q.esize * q.slot x) % 4096
    let k := min n (min (2 ^ q.logn - q.slot x) (min (max q.esize maxRead / q.esize) (max 1 ((4096 - a) / q.esize))))
    { index := BitVec.ofNat 16 x, count := k, done := 0, part := [], since := now } ::
      q.requests maxRead now fuel ((x + k) % 2 ^ 16) (n - k)

/-- The bus address of the host-ring entry at index `x`. -/
def Queue.hostAddr (q : Queue) (x : Nat) : Word := q.xbase + BitVec.ofNat 64 (q.esize * q.slot x)

/-- The read still waits for data. -/
def SqRead.open' (r : SqRead) : Bool := decide (r.done < r.count)

/-- Outstanding non-posted requests of the part. -/
def State.outstanding (s : State) : Nat :=
  (s.queues.map fun p => (p.2.reads.filter SqRead.open').length).sum
    + (s.engines.filter fun p => match p.2.wait with | .host h => h.issued | _ => false).length

/-- Queue Manager issues the reads of an SQ that its indexes make due and that are not yet issued (R379), while the part
has fewer than 256 non-posted requests outstanding (R381). -/
def State.startCopy (s : State) (qid : Nat) : State :=
  let q := s.queue qid
  let d := queueDomain qid
  let issued := (q.reads.map (·.count)).sum
  if q.kind = 1 ∧ s.mayMove qid = true ∧ s.mayIssue d = true ∧ issued < q.due then
    let rs := (q.requests (s.fn d).maxRead s.pcm.chrono (q.due - issued) ((q.xi + issued) % 2 ^ 16) (q.due - issued)).take
      (256 - s.outstanding)
    let s := s.modQueue qid fun q => { q with reads := q.reads ++ rs }
    rs.foldl (fun s r => (s.count (hifBase + 0x4008 + 56) 1).send
      (.hostRead (BitVec.ofNat 8 d) (q.hostAddr r.index.toNat) (r.count * q.esize))) s
  else s

/-- The copies that are due in every queue of a domain start (R391, R392). -/
def State.startCopies (s : State) (d : Nat) : State :=
  s.queues.foldl (fun s p => if queueDomain p.1 = d then s.startCopy p.1 else s) s

/-! ### Enabling (R372, R373) -/

/-- A ring or its slots lie wholly in normal memory, outside posting regions, in frames locked to `d` (R372). -/
def State.placed (s : State) (d base size : Nat) : Bool :=
  (upFrom (base / 4096) ((base + size - 1) / 4096 + 1 - base / 4096)).all fun f =>
    let a := f * 4096
    (s.paClass a).isNormal && (s.regionOf a).isNone && !s.keyUnreadable a && (d == 0 || (s.keyOf a).lock.toNat == d)

/-- The checks of an enable (R372). -/
def State.enableOk (s : State) (qid : Nat) (q : Queue) : Bool :=
  let d := queueDomain qid
  let n := q.logn
  let size := q.esize * 2 ^ n
  let par (x : Nat) (p : Bool) : Bool := decide (n = 16) || (x / 2 ^ n % 2 == 1) == p
  decide (q.kind ≤ 4) && decide (4 ≤ n) && decide (n ≤ 16) && field q.cfg 9 2 != 3
    && par q.pi q.pph && par q.xi q.xph && par q.ci q.cph
    && decide (q.due + q.avail ≤ 2 ^ n)
    && decide (q.base % min size 4096 = 0) && s.placed d q.base size
    && match q.kind with
      | 0 => q.xbase == 0
      | 1 | 2 => decide (q.xbase.toNat % min size 4096 = 0)
      | _ => decide (q.xbase.toNat % min (q.bsize * 2 ^ n) 4096 = 0) && s.placed d q.xbase.toNat (q.bsize * 2 ^ n)

/-- The bits of QCFG that software writes while EN = 0: EN, KIND, LOGN, ESZ, BSZ, EVEN, IEN, VEC. -/
def qcfgWritable : Word := 0x3FFFF

/-- The bits of QCFG that software writes while EN = 1: EN, EVEN, IEN, VEC (R373). -/
def qcfgLive : Word := 0x3E001

/-- `n` OQ entries from index `x` on, available at time `t`. -/
def oqFrom (t : Word) (x n : Nat) : List OqEntry :=
  (upFrom x n).map fun i => { index := BitVec.ofNat 16 i, since := t, st := .waiting }

/-- A write of QMG.QCFG (R372, R373). -/
def State.writeQcfg (s : State) (qid : Nat) (v : Word) : State :=
  let q := s.queue qid
  let m := if q.en then qcfgLive else qcfgWritable
  let q' := { q with cfg := (q.cfg &&& ~~~m) ||| (v &&& m) }
  if !bit v 0 then s.modQueue qid fun _ => { q' with cfg := setField q'.cfg 24 3 0 }
  else if q.en then s.modQueue qid fun _ => q'
  else if s.enableOk qid q' then
    let oq := if q'.kind = 4 then oqFrom s.pcm.chrono q'.ci q'.avail else []
    (s.modQueue qid fun _ => { q' with cfg := setField q'.cfg 24 3 0, oq := oq }).startCopy qid
  else (s.countErr (errCounter 4) 1).modQueue qid fun _ => { q' with cfg := setField (setField q'.cfg 0 1 0) 24 3 4 }

/-! ### Doorbells (R370) -/

/-- A rejected doorbell adds 1 to HIF.DBERR of its domain (R370, R387). -/
def State.rejectDoorbell (s : State) (d : Nat) : State :=
  (s.countErr (qmgBase + 32) 1).modDom d fun x =>
    { x with dberr := satAdd x.dberr 1, dbovf := x.dbovf || decide (0xFFFE ≤ x.dberr.toNat) }

/-- A doorbell refused because the domain is not ACTIVE (R31, R30). -/
def State.refuseDoorbell (s : State) (d : Nat) : State :=
  s.modDom d fun x => { x with refused := satAdd x.refused 1, ovf := x.ovf || decide (0xFFFE ≤ x.refused.toNat) }

/-- The write comes from an engine. -/
def byEngine : Writer → Bool
  | .engine _ => true
  | .host => false

/-- Who may write a doorbell of a queue (R363, R370 step 1). -/
def mayRing (kind : Nat) (producer : Bool) (w : Writer) : Bool :=
  match kind, producer, byEngine w with
  | 0, _, true => true
  | 1, true, false => true
  | 1, false, true => true
  | 2, true, true => true
  | 2, false, false => true
  | 3, false, true => true
  | 4, true, true => true
  | _, _, _ => false

/-- A doorbell naming index `v` of queue `qid` (R370). `through` is false when the write used a register that its writer
may not use. -/
def State.doorbell (s : State) (qid : Nat) (producer : Bool) (w : Writer) (through : Bool) (v : BitVec 32) : State :=
  let d := queueDomain qid
  let q := s.queue qid
  if (s.dom d).state ≠ .active then s.refuseDoorbell d
  else if !through || !mayRing q.kind producer w || !q.en || field v 16 16 != 0 then s.rejectDoorbell d
  else
    let s := s.count (qmgBase + 24) 1
    let cur := if producer then q.pi else q.ci
    let a := ((field v 0 16).toNat + 2 ^ 16 - cur) % 2 ^ 16
    if a = 0 then s
    else if (if producer then q.free else q.avail) < a then s.queueError qid 1 cur 0
    else if producer then
      let oq := if q.kind = 4 then q.oq ++ oqFrom s.pcm.chrono cur a else q.oq
      let s := s.modQueue qid fun q => { q.addPi a with oq := oq }
      if q.kind = 0 then s.queueEvent qid else s.startCopy qid
    else
      let s := s.modQueue qid (·.addCi a)
      if q.kind = 2 ∨ q.kind = 4 then s.queueEvent qid else s

/-! ### The rows -/

/-- QCFG (R372). -/
def execQcfg (qid : BitVec 16) (value : Word) (s : State) : Host.Outcome State Fault Refusal :=
  .next (s.writeQcfg qid.toNat value)

/-- The order of an engine's doorbell: its outstanding posts and its store buffer come first (R221, R371). -/
def State.writerOrder (s : State) (w : Writer) : State :=
  match w with
  | .engine e => (s.awaitPosts e).drainAll e
  | .host => s

/-- QDBP: only an engine may ring it (R370). -/
def execQdbp (qid : BitVec 16) (w : Writer) (value : BitVec 32) (s : State) : Host.Outcome State Fault Refusal :=
  .next ((s.writerOrder w).doorbell qid.toNat true w (byEngine w) value)

/-- QDBC: only an engine may ring it (R370). -/
def execQdbc (qid : BitVec 16) (w : Writer) (value : BitVec 32) (s : State) : Host.Outcome State Fault Refusal :=
  .next ((s.writerOrder w).doorbell qid.toNat false w (byEngine w) value)

/-- HDBP: only the host may ring it (R370). -/
def execHdbp (fn : BitVec 8) (i : BitVec 8) (w : Writer) (value : BitVec 32) (s : State) :
    Host.Outcome State Fault Refusal :=
  .next (s.doorbell (256 * fn.toNat + i.toNat) true w (!byEngine w) value)

/-- HDBC: only the host may ring it (R370). -/
def execHdbc (fn : BitVec 8) (i : BitVec 8) (w : Writer) (value : BitVec 32) (s : State) :
    Host.Outcome State Fault Refusal :=
  .next (s.doorbell (256 * fn.toNat + i.toNat) false w (!byEngine w) value)

/-- Entries that have come go into the device ring, one by one, from index offset `k` after XI (R379): the failure that ends
them, if any, and the state after them. -/
def State.landEntries (s : State) (qid : Nat) (q : Queue) : Nat → List Byte → Nat → Option (Nat × Nat) × State
  | 0, _, _ => (none, s)
  | n + 1, l, k =>
    let x := (q.xi + k) % 2 ^ 16
    match s.moveWrite (queueDomain qid) (q.base + q.esize * q.slot x) (withPhase (l.take q.esize) (q.xParity k)) with
    | (some err, s) => (some (err, x), s)
    | (none, s) => s.landEntries qid q n (l.drop q.esize) (k + 1)

/-- The entries that have landed in order, and the reads that remain: the first of them may have landed in part. -/
def landedRun : List SqRead → Nat × List SqRead
  | [] => (0, [])
  | r :: rs =>
    if r.open' then (r.done, { r with index := r.index + BitVec.ofNat 16 r.done, count := r.count - r.done, done := 0 } :: rs)
    else
      let (n, rest) := landedRun rs
      (r.count + n, rest)

/-- The list with element `k` changed by `f`. -/
def modifyNth {α : Type} (f : α → α) : Nat → List α → List α
  | _, [] => []
  | 0, x :: r => f x :: r
  | k + 1, x :: r => x :: modifyNth f k r

/-- The entries of a CQ burst, in order from XI: those read, and the failure that ends the burst, if any (R380). -/
def State.burstEntries (s : State) (qid : Nat) (q : Queue) : Nat → Nat →
    List (List Byte) × Option (Nat × Nat) × State
  | 0, _ => ([], none, s)
  | n + 1, k =>
    let x := (q.xi + k) % 2 ^ 16
    match s.moveRead (queueDomain qid) (q.base + q.esize * q.slot x) q.esize with
    | (.error err, s) => ([], some (err, x), s)
    | (.ok l, s) =>
      let (rest, bad, s) := s.burstEntries qid q n (k + 1)
      (withPhase l (q.xParity k) :: rest, bad, s)

/-- The posted writes of a burst: split at the ring's end, at the maximum payload size and at 4 KiB of host address. -/
def State.sendBurst (s : State) (qid : Nat) (maxPayload : Nat) : Nat → List (List Byte) → State
  | 0, _ => s
  | fuel + 1, es =>
    if es = [] then s else
    let q := s.queue qid
    let a := (q.xbase.toNat + q.esize * q.slot q.xi) % 4096
    let k := min es.length (min (2 ^ q.logn - q.slot q.xi)
      (min (max q.esize maxPayload / q.esize) (max 1 ((4096 - a) / q.esize))))
    let s := (s.count (hifBase + 0x4008 + 56) 1).send
      (.hostWrite (BitVec.ofNat 8 (queueDomain qid)) (q.hostAddr q.xi) (es.take k).flatten)
    (s.modQueue qid (·.addXi k)).sendBurst qid maxPayload fuel (es.drop k)

/-- CQ_BURST: up to 64 entries leave for the host ring as posted writes, then the MSI-X message (R380). Turned away when
no burst is due or requests are not allowed. -/
def execCqBurst (qid : BitVec 16) (s : State) : Host.Outcome State Fault Refusal :=
  let id := qid.toNat
  let q := s.queue id
  let d := queueDomain id
  if q.kind ≠ 2 ∨ q.due = 0 ∨ s.mayMove id = false ∨ s.mayIssue d = false then .next s
  else
    let (es, bad, s) := s.burstEntries id q (min 64 q.due) 0
    let s := if es = [] then s else (s.sendBurst id (s.fn d).maxPayload 64 es).countMove id es.length (es.flatten).length
    let s := match bad with
      | some (err, x) => s.queueError id err x (q.base + q.esize * q.slot x)
      | none => s
    .next (if es ≠ [] ∧ q.ien = true then s.msix d q.vec else s)

end Sys2Proof.Machine
end

