-- ==== Sys2Proof/Machine/Csr.lean ====
section
/-! DEFINITION. The register map (19): what a read of a CSR offset or of a function page returns, and what a write does.
Registers that the model holds in structures are composed here; plain registers and counters live in `State.csr`. -/

namespace Sys2Proof.Machine

/-! ### Composed registers -/

/-- DRAM(m) of IDENTIFY, which is also DMC.CFG (R470, R558). -/
def Dmc.code (d : Dmc) : Nat :=
  match d.module with
  | none => 0
  | some m => packBits [(0, b2n d.enabled), (1, b2n (m.typ == .rdimm)), (2, b2n (m.ranks == 2)), (3, b2n (m.width == 4)), (4, d.rate.toNat),
      (16, m.gib)]

/-- ENG.STAT (R560). -/
def State.engStat (s : State) (e : Eng) : Nat :=
  let x := s.eng e
  let w := match x.wait with
    | .wfe _ | .wuntil _ | .waitev | .waittb _ => true
    | _ => false
  match s.running e with
  | none => packBits [(4, b2n x.checkstop), (5, b2n w), (6, b2n x.micro.isSome)]
  | some n => packBits [(0, n.val), (3, 1), (4, b2n x.checkstop), (5, b2n w), (6, b2n x.micro.isSome),
      (8, pswKEY (s.bank (slotOf e n.val)).psw)]

/-- Codes of a slot state (R265). -/
def SlotState.code : SlotState → Nat
  | .idle => 0 | .active => 1 | .held => 2

/-- CMP.SLOT (R278). -/
def State.slotReg (s : State) (i : Nat) : Nat :=
  let x := s.slot i
  packBits [(0, x.state.code), (2, b2n x.qstop), (3, b2n x.nest), (4, x.xlvl.toNat), (7, b2n x.xexc),
    (8, x.lastvec.toNat), (16, s.owner i), (32, x.disc.toNat), (48, b2n x.ovf)]

/-- Codes of a domain state (R29). -/
def DomState.code : DomState → Nat
  | .absent => 0 | .active => 1 | .quiescing => 2 | .quiesced => 3 | .destroying => 4

/-- HIF.DSTAT of domain `d` (R30). -/
def State.dstat (s : State) (d : Nat) : Nat :=
  let x := s.dom d
  packBits [(0, x.state.code), (3, b2n x.flrq), (4, b2n x.scrambled), (6, x.ftmpol.toNat), (8, x.faultlvl.toNat),
    (16, d), (32, x.refused.toNat), (48, b2n x.ovf)]

/-- HIF.EQCFG of domain `d` (R387). -/
def State.eqcfg (s : State) (d : Nat) : Nat :=
  let x := s.dom d
  packBits [(0, x.eqlogn.toNat), (16, x.eqpi.toNat), (32, b2n x.eqpph)]

/-- HIF.HQSTAT of a queue (R386). -/
def Queue.hqstat (q : Queue) : Nat :=
  packBits [(0, q.pi), (16, q.xi), (32, q.ci), (48, b2n q.en), (49, q.err)]

/-- QMG.QCFG as it reads: ACT while a move is in progress (R365, R373). -/
def Queue.qcfgRead (q : Queue) : Nat := (setField q.cfg 18 1 (b2n (!q.reads.isEmpty || q.oq.any fun x => x.st == .flying))).toNat

/-- Codes of the part state (R463, R494). -/
def PState.code : PState → Nat
  | .boot => 0 | .held => 1 | .watch => 2 | .active => 3 | .recovery => 4 | .dormant => 0

/-- Codes of a cluster state (R471). -/
def CState.code : CState → Nat
  | .gated => 0 | .idle => 1 | .run => 2

/-- CSTATE of PCM.PSTAT: 0b11 while the cluster changes (R527). -/
def Cluster.code (c : Cluster) : Nat := if c.target.isSome then 3 else c.st.code

/-- A transition of a cluster is in progress or waits for its turn. -/
def Power.busy (p : Power) : Bool := p.clusters.toList.any (fun c => c.target.isSome) || !p.ups.isEmpty || p.dormantDue

/-- PCM.PSTAT (R527). -/
def State.pstat (s : State) : Nat :=
  let p := s.power
  packBits [(0, p.part.code), (3, b2n p.busy), (8, p.clusters[0].code), (10, p.clusters[1].code),
    (12, p.clusters[2].code), (14, p.clusters[3].code), (32, s.pcm.dormCnt.toNat)]

/-- PCM.CLKSTAT (R527). -/
def Pcm.clkstat (p : Pcm) : Nat :=
  packBits [(0, b2n p.rclkOk), (1, b2n p.refclkOk), (2, b2n p.xtalOk), (3, p.cpll.toNat), (7, b2n p.fpll),
    (8, b2n p.dpll), (9, b2n p.kpll), (10, p.ddrRate.toNat)]

/-- The bits of the arms that are armed (R471, R527). -/
def Pcm.armed (p : Pcm) : Nat := packBits ((List.finRange 8).map fun i => (i.val, b2n p.arms[i].isSome))

/-- PCM.ARMSTAT (R527). -/
def Pcm.armstat (p : Pcm) : Nat := packBits [(0, p.armed), (8, p.fired.toNat), (16, p.noEffect.toNat)]

/-- PCM.WAKECAUSE (R527). -/
def Pcm.wakecause (p : Pcm) : Nat :=
  packBits [(0, p.wakeArm.toNat), (3, b2n p.wakeValid), (8, p.wakeClass.toNat)]

/-- PCM.THERM (R527). -/
def Pcm.therm (p : Pcm) : Nat :=
  packBits [(0, p.tjmax.toNat), (16, b2n p.hot), (32, p.hotCnt.toNat), (48, b2n p.hotOvf)]

/-- LOC and TYPE of a Sextant monitor (R513, R514). -/
def monPlace (i : Nat) : Nat × Nat :=
  if i < 80 then (i / 20, if i % 20 < 16 then 0 else 1)
  else if i < 88 then (4, 0)
  else if i = 88 then (5, 2)
  else if i < 93 then (6 + (i - 89), 2)
  else (10, 1)

/-- SXT block. -/
def sxtBase : Nat := 0x0CC0000
/-- PCM block. -/
def pcmBase : Nat := 0x0CE0000

/-- An image's field: VERSION, EPOCH or the whole header (R479). -/
def Image.version (i : Image) : Nat := fieldLE i.header 8 4
/-- EPOCH of an image (R479). -/
def Image.epoch (i : Image) : Nat := fieldLE i.header 12 2

/-- KPR.VER_KFW or KPR.VER_PLAN: VERSION, EPOCH and SRC of an image in force (R463). -/
def verReg (i : Option Image) : Nat :=
  match i with
  | none => 0
  | some x => packBits [(0, x.version), (32, x.epoch), (48, x.source.toNat)]

/-- KPR.VER_CST: vendor and customer part in force (R463). -/
def State.verCst (s : State) : Nat :=
  let v (i : Option Image) : Nat := match i with | some x => x.version | none => 0
  packBits [(0, v s.keeper.inForce[1]), (32, v s.keeper.inForce[2])]

/-- KPR.VER_PLAN (R463). -/
def State.verPlan (s : State) : Nat := verReg s.keeper.inForce[3]

/-- KPR.VER_KFW (R463): 0 with SRC 3 in RECOVERY. -/
def State.verKfw (s : State) : Nat := if s.power.part = .recovery then 3 * 2 ^ 48 else verReg s.keeper.inForce[0]

/-- KPR.STATUS (R463). -/
def State.kprStatus (s : State) : Nat :=
  let k := s.keeper
  packBits [(0, b2n k.busy), (1, b2n k.done), (2, b2n k.src), (3, s.power.part.code), (16, k.opcode.toNat)]

/-- KPR.GPIOIN: the levels of the pins, those that the part drives included (R560, R526, R538). In BOOT the register holds
its reset value, 0. -/
def State.gpioIn (s : State) : Nat :=
  if s.power.part = .boot then 0 else
  let oe := s.reg (kprBase + 0x80)
  let out := s.reg (kprBase + 0x78)
  let low := (field ((s.pins.gpioIn.setWidth 64 &&& ~~~oe) ||| (out &&& oe)) 0 14).toNat
  low + 2 ^ 14 * b2n (!s.pins.errN) + 2 ^ 15 * b2n (!s.pins.thermtripN)

/-- Codes of a ring state (R427). -/
def RingState.code : RingState → Nat
  | .off => 0 | .trained => 1 | .inserting => 2 | .inserted => 3

/-- NLK.RSTAT (R427). -/
def Ring.rstat (r : Ring) : Nat :=
  packBits [(0, r.state.code), (2, b2n r.holder), (3, b2n r.hold), (4, b2n r.sync), (5, b2n r.wrapE), (6, b2n r.wrapW),
    (7, b2n r.tsel), (8, b2n r.swp), (9, b2n r.limx), (16, r.ver.toNat), (32, r.loop.toNat)]

/-- NLK.LINK(a) (R458). -/
def Ring.linkReg (r : Ring) (a : Nat) : Nat :=
  if a = 0 ∨ a = 63 then 0 else
  let x := r.station a
  packBits [(0, x.txseq.toNat), (12, x.rxexp.toNat), (24, x.st.toNat), (26, b2n x.tsync), (27, b2n x.rxuns),
    (32, x.vmin.toNat), (40, x.vmax.toNat), (48, x.out.length)]

/-- NLK.STNP: the stations that are JOINED (R458). -/
def Ring.joined (r : Ring) : Nat :=
  packBits ((upFrom 1 62).map fun a => (a, b2n ((r.station a).st == 2)))

/-- DMC.SCRUB (R361). -/
def Dmc.scrubReg (d : Dmc) (gran : Nat) : Nat :=
  packBits [(0, d.period.toNat), (8, b2n d.scrubActive), (16, d.passes.toNat), (32, gran)]

/-- The granules of a channel's module in state TOUCHED (R361). -/
def Dmc.touchedCount (d : Dmc) : Nat :=
  if d.full then d.capacity / 2 ^ 20 - d.touched.length else d.touched.length

/-- DMC.FTSTAT (R361). -/
def Dmc.ftstat (d : Dmc) : Nat := packBits [(0, d.trackers.length), (8, d.touchedCount)]

/-- The granule that the line number of a pass lies in. -/
def Dmc.scrubGran (d : Dmc) : Nat := d.scrubPos / 16384

/-- The B registers of QMG.DERR: bit i of register g is 1 while a queue of domain 64 g + i has ERR ≠ 0 (R558). -/
def State.derr (s : State) (g : Nat) : Nat :=
  (s.queues.filter fun p => p.2.err != 0 && p.1 / 256 / 64 == g).foldl
    (fun a p => if a / 2 ^ (p.1 / 256 % 64) % 2 = 1 then a else a + 2 ^ (p.1 / 256 % 64)) 0

/-- The bits of HIF.VFREQ: functions 64 g + i that may issue requests (R558). -/
def State.vfreq (s : State) (g : Nat) : Nat :=
  packBits ((List.range 64).map fun i => (i, b2n (s.mayIssue (64 * g + i))))

/-- A micro-word of an engine's Control Store: customer words from 0x3000, vendor words below (R294). -/
def State.microWord (s : State) (e : Eng) (a : Nat) : BitVec 32 :=
  if 0x3000 ≤ a then lget 0 (s.eng e).cs.micro (a - 0x3000)
  else if s.keeper.inForce[1].isSome then Config.vendorMicro a else 0

/-- A nano-word of an engine's Control Store (R294). -/
def State.nanoWord (s : State) (e : Eng) (a : Nat) : BitVec 256 :=
  if 0x380 ≤ a then lget 0 (s.eng e).cs.nano (a - 0x380)
  else if s.keeper.inForce[1].isSome then Config.vendorNano a else 0

/-- Eight bytes of the read-only view of the Control Store at an 8-byte aligned offset of CST (R298). -/
def State.cstView (s : State) (o : Nat) : Nat :=
  if o < 0x10000 then (s.microWord 0 (o / 4)).toNat + 2 ^ 32 * (s.microWord 0 (o / 4 + 1)).toNat
  else if o < 0x18000 then (field (s.nanoWord 0 ((o - 0x10000) / 32)) (o % 32 * 8) 64).toNat
  else 0

/-! ### Function pages (R384 to R387) -/

/-- The 16 bytes of MSI-X table entry `v` as a number (R385). -/
def PcieFn.entry (f : PcieFn) (v : Fin 8) : Nat := f.msix[v].toNat

/-- The 8-byte register at an 8-byte aligned offset of the function page of domain `d` (R385). -/
def State.pageRead (s : State) (d o : Nat) : Nat :=
  if o < 0x1000 then (if o % 16 = 8 then (s.queue (256 * d + o / 16)).hqstat else 0)
  else if o = 0x1000 then s.dstat d
  else if o = 0x1008 then (s.dom d).eqbase.toNat
  else if o = 0x1010 then s.eqcfg d
  else if o = 0x1018 then (s.dom d).dberr.toNat + 2 ^ 16 * b2n (s.dom d).dbovf
  else if 0x2000 ≤ o ∧ o < 0x2080 then (s.fn d).entry (Fin.ofNat 8 (o / 16)) / 2 ^ (8 * (o % 16)) % 2 ^ 64
  else if o = 0x3000 then (s.fn d).pba.toNat
  else 0

/-- A masked write of the 8-byte word at offset `o` of a function page: OVF bits and the MSI-X table (R30, R385, R387). -/
def State.pageWrite (s : State) (d o : Nat) (v m : Word) : State :=
  if o = 0x1000 then (if bit (v &&& m) 48 then s.modDom d fun x => { x with ovf := false } else s)
  else if o = 0x1018 then (if bit (v &&& m) 16 then s.modDom d fun x => { x with dbovf := false } else s)
  else if 0x2000 ≤ o ∧ o < 0x2080 then
    s.modFn d fun f =>
      let i : Fin 8 := Fin.ofNat 8 (o / 16)
      let lo := 8 * (o % 16)
      let old := field f.msix[i] lo 64
      { f with msix := f.msix.set i.val (setField f.msix[i] lo 64 ((old &&& ~~~m) ||| (v &&& m)).toNat) }
  else s

/-! ### Reads -/

/-- A register of the ENG blocks (R558). -/
def State.engRead (s : State) (o : Nat) : Nat :=
  let e : Eng := Fin.ofNat 32 (o / 0x10000)
  let x := s.eng e
  match o % 0x10000 with
  | 0x00 => s.engStat e
  | 0x08 => packBits [(0, x.mcCode.toNat), (16, x.mcLevel.toNat), (19, b2n x.mcStopped)]
  | 0x10 => x.csGen.toNat
  | 0x18 => x.ria.toNat
  | _ => (s.reg o).toNat

/-- A register of a DMC block (R361, R558). -/
def State.dmcRead (s : State) (m : Fin 2) (o : Nat) : Nat :=
  let d := s.dmc m
  let r := o % 0x20000
  if r = 0 then d.code
  else if r = 8 then (if d.enabled then (Config.measured o).toNat % 2 ^ 16 else 0)
  else if r = 0x110 then d.scrubReg d.scrubGran
  else if r = 0x118 then d.ftstat
  else if 0x300 ≤ r ∧ r < 0x3A0 then (if d.enabled then (Config.measured o).toNat % 2 ^ 32 else 0)
  else (s.reg o).toNat

/-- A register of the NLK blocks (R427, R458). -/
def State.nlkRead (s : State) (o : Nat) : Nat :=
  let r := s.rings[(Fin.ofNat 4 ((o - 0x0C00000) / 0x10000)).val]
  let k := o % 0x10000
  if k = 0 then r.rstat
  else if k = 8 then packBits [(0, r.cycle.toNat), (32, r.rt8 / 8)]
  else if k = 0x10 then packBits [(0, r.dp.toNat), (16, r.dq.toNat), (32, r.ds.toNat)]
  else if k = 0x28 then (setField (s.reg o) 0 8 (min 255 r.miss)).toNat
  else if k = 0x58 then r.joined
  else if k = 0x68 then r.confirmed.toNat
  else if 0x100 ≤ k ∧ k < 0x300 then r.linkReg ((k - 0x100) / 8)
  else (s.reg o).toNat

/-- A register of the HIF block (R550, R558). -/
def State.hifRead (s : State) (o : Nat) : Nat :=
  let k := o - hifBase
  if k < 0x4000 then s.pageRead 0 k
  else if k = 0x4000 then s.hif.hwhi.toNat * 2 ^ 43
  else if k = 0x4008 then (if s.hif.linkUp then Config.pcieLink.toNat + 256 else 0)
  else if 0x4100 ≤ k ∧ k < 0x4120 then s.vfreq ((k - 0x4100) / 8)
  else if 0x4200 ≤ k ∧ k < 0x4280 then
    (if s.outstanding = 0 then 0 else (Config.tagState s.outstanding ((k - 0x4200) / 8)).toNat)
  else if 0x4340 ≤ k ∧ k < 0x4380 then (if s.hif.linkUp then (Config.measured o).toNat % 256 else 0)
  else if 0x4380 ≤ k ∧ k < 0x43C0 then (if s.hif.linkUp then (Config.measured o).toNat % 2 ^ 32 else 0)
  else (s.reg o).toNat

/-- A register of the KPR block (R463, R535, R558). -/
def State.kprRead (s : State) (o : Nat) : Nat :=
  match o - kprBase with
  | 0x00 => 0
  | 0x08 => s.kprStatus
  | 0x18 => 0x3256 + 2 ^ 16 * 0xA1
  | 0x20 => s.verKfw
  | 0x28 => s.verCst
  | 0x30 => s.verPlan
  | 0x40 => packBits [(0, s.log.next.toNat), (32, s.log.recs.length)]
  | 0x50 => s.nv.fuses.uid.toNat
  | 0x58 => packBits [(0, s.keeper.bootStep.toNat), (4, b2n s.keeper.wasWake)]
  | 0x70 => s.gpioIn
  | _ => (s.reg o).toNat

/-- A register of the PCM block (R527, R491). -/
def State.pcmRead (s : State) (o : Nat) : Nat :=
  let p := s.pcm
  let k := o - pcmBase
  match k with
  | 0x00 => s.pstat
  | 0x08 => p.chrono.toNat
  | 0x10 => p.clkstat
  | 0x18 => p.armstat
  | 0x20 => p.wakecause
  | 0x28 => p.therm
  | 0x30 => p.triplog.toNat
  | 0x100 => p.opj.toNat
  | _ =>
    if 0x1000 ≤ k ∧ k < 0x1200 then
      (if k % 16 = 0 then tget 0 p.tmrCmp ((k - 0x1000) / 16) else tget 0 p.tmrCtl ((k - 0x1000) / 16)).toNat
    else 0

/-- The 8-byte register at an 8-byte aligned CSR offset; offsets that hold nothing read 0 (R12, R549). -/
def State.csrRead8 (s : State) (o : Nat) : Nat :=
  if o < 0x0200000 then s.engRead o
  else if o < 0x0240000 then s.cstView (o - 0x0200000)
  else if o < 0x0280000 then (s.reg o).toNat
  else if o < 0x0280800 then (s.slot ((o - 0x0280000) / 8)).pend.toNat
  else if o < 0x0281000 then s.slotReg ((o - 0x0280800) / 8)
  else if o < 0x02A0000 then 0
  else if o < 0x02C0000 then (tget 0 s.vectors ((o - 0x02A0000) / 8)).toNat
  else if o < 0x0340000 then 0
  else if o < 0x0360000 then s.dmcRead 0 o
  else if o < 0x0380000 then s.dmcRead 1 o
  else if 0x0380180 ≤ o ∧ o < 0x03801A0 then s.derr ((o - 0x0380180) / 8)
  else if o < 0x0400000 then (s.reg o).toNat
  else if o < 0x0C00000 then
    let q := s.queue ((o - 0x0400000) / 128)
    match o % 128 with
    | 0x00 => q.qcfgRead
    | 0x08 => q.idx.toNat
    | 0x10 => q.dbase.toNat
    | 0x18 => q.xbase.toNat
    | _ => 0
  else if o < 0x0C40000 then s.nlkRead o
  else if o < 0x0C80000 then s.hifRead o
  else if o < 0x0CC0000 then s.kprRead o
  else if o < 0x0CC0300 then
    let i := (o - sxtBase) / 8
    (s.reg o).toNat + 2 ^ 24 * (monPlace i).1 + 2 ^ 28 * (monPlace i).2
  else if o < 0x0CE0000 then 0
  else if o < 0x0D00000 then s.pcmRead o
  else 0

/-- The byte buffers of the CSR space accept any naturally aligned access (R551): the command and reply buffers, and
LD0's MSI-X table. -/
def inBuffer (o : Nat) : Bool :=
  (decide (kprBase + 0x1000 ≤ o) && decide (o < kprBase + 0x3000))
    || (decide (hifBase + 0x2000 ≤ o) && decide (o < hifBase + 0x2080))

/-- A byte of the command or reply buffer. -/
def State.bufByte (s : State) (o : Nat) : Byte :=
  if o < kprBase + 0x2000 then tget 0 s.keeper.cmdBuf (o - (kprBase + 0x1000))
  else tget 0 s.keeper.replyBuf (o - (kprBase + 0x2000))

/-- A read of `n` bytes at a CSR offset (R551): an aligned 8- or 4-byte access to a register, or any aligned access to a
buffer; anything else reads as zero. HQSTAT of a function page takes 8-byte reads only (R386). -/
def State.csrRead (s : State) (o n : Nat) : Nat :=
  if o % n ≠ 0 ∨ 8 < n then 0
  else if hifBase ≤ o ∧ o < hifBase + 0x1000 ∧ n ≠ 8 then 0
  else if kprBase + 0x1000 ≤ o ∧ o < kprBase + 0x3000 then leNat ((upFrom o n).map s.bufByte)
  else if n = 8 ∨ n = 4 ∨ inBuffer o then s.csrRead8 (o / 8 * 8) / 2 ^ (8 * (o % 8)) % 2 ^ (8 * n)
  else 0

/-- A read of `n` bytes by the host at an offset of VFd's BAR0 (R31): zeros while the domain is ABSENT or DESTROYING. -/
def State.vfRead (s : State) (d o n : Nat) : Nat :=
  match (s.dom d).state with
  | .absent | .destroying => 0
  | _ =>
    if o % n ≠ 0 ∨ 8 < n ∨ (o < 0x1000 ∧ n ≠ 8) then 0
    else if n = 8 ∨ n = 4 ∨ (0x2000 ≤ o ∧ o < 0x2080) then s.pageRead d (o / 8 * 8) / 2 ^ (8 * (o % 8)) % 2 ^ (8 * n)
    else 0

/-! ### Writes -/

/-- The RW and W1C bits of a plain register (R558): (RW mask, W1C mask). -/
def plainMasks (o : Nat) : Nat × Nat :=
  let all := 2 ^ 64 - 1
  let e := (2 ^ 32 - 1, 2 ^ 32)
  let c := (all, 0)
  if o < 0x0200000 then
    let r := o % 0x10000
    if r = 0x20 then (0, 2 ^ 32 - 1)
    else if 0x100 ≤ r ∧ r < 0x200 then c
    else if 0x200 ≤ r ∧ r < 0x218 then e
    else (0, 0)
  else if 0x0240000 ≤ o ∧ o < 0x0240200 then c
  else if 0x0340000 ≤ o ∧ o < 0x0380000 then
    let r := o % 0x20000
    if r = 0x100 then c
    else if r = 0x108 then (0xFFFF00FFFFFF, 0x1000001000000)
    else if 0x120 ≤ r ∧ r < 0x198 then (if (r - 0x120) / 8 = 7 ∨ (r - 0x120) / 8 = 12 then e else c)
    else if 0x200 ≤ r ∧ r < 0x268 then c
    else if 0x400 ≤ r ∧ r < 0x540 then e
    else (0, 0)
  else if 0x0380000 ≤ o ∧ o < 0x0400000 then
    let r := o - 0x0380000
    if r < 0x60 then (if r / 8 ≤ 3 ∨ r / 8 = 11 then c else e)
    else if 0x100 ≤ r ∧ r < 0x180 then c
    else if 0x200 ≤ r ∧ r < 0x300 then (0x1FFFF, 0)
    else if 0x300 ≤ r ∧ r < 0x400 then c
    else (0, 0)
  else if 0x0C00000 ≤ o ∧ o < 0x0C40000 then
    match o % 0x10000 with
    | 0x18 => (0xFFFFFFFFFFFF, 2 ^ 48)
    | 0x20 => (0xFFFFFFFFFFFFFF, 2 ^ 56)
    | 0x28 => (0xFFFFFF0000, 2 ^ 40)
    | 0x30 => c
    | 0x38 => (0xFFFFFFFFFFFF, 2 ^ 48)
    | 0x40 => (2 ^ 60 - 1, 2 ^ 60)
    | 0x48 => (2 ^ 56 - 1, 2 ^ 56)
    | 0x50 => (2 ^ 48 - 1, 2 ^ 48)
    | 0x60 => (0, 2 ^ 63 - 2)
    | _ => (0, 0)
  else if 0x0C44000 ≤ o ∧ o < 0x0C45000 then
    let r := o - 0x0C44000
    if 0x10 ≤ r ∧ r < 0x60 then (if r = 0x40 ∨ r = 0x48 ∨ r = 0x58 then c else e)
    else if 0x300 ≤ r ∧ r < 0x340 then e
    else if 0x400 ≤ r ∧ r < 0x5A0 then c
    else (0, 0)
  else if 0x0C80000 ≤ o ∧ o < 0x0C81000 then
    let r := o - 0x0C80000
    if r = 0x10 ∨ r = 0x48 ∨ r = 0x60 then e
    else if r = 0x68 then c
    else if r = 0x78 ∨ r = 0x80 then (0x3FFF, 0)
    else if 0x100 ≤ r ∧ r < 0x280 then c
    else (0, 0)
  else if 0x0CC0000 ≤ o ∧ o < 0x0CC0300 then (0, 0x10000)
  else (0, 0)

/-- A masked write of a plain register: RW bits take the value, W1C bits written as 1 clear (R7, R553). -/
def State.plainWrite (s : State) (o : Nat) (v m : Word) : State :=
  let (rw, w1c) := plainMasks o
  let rw := BitVec.ofNat 64 rw &&& m
  let old := s.reg o
  s.setReg o (((old &&& ~~~rw) ||| (v &&& rw)) &&& ~~~(v &&& m &&& BitVec.ofNat 64 w1c))

/-- The packet that bytes hold (R459); bytes that are not there read 0. -/
def readPacket (l : List Byte) : Packet :=
  { opcode := BitVec.ofNat 16 (fieldLE l 0 2), flags := lget 0 l 2, fmt := lget 0 l 3,
    tag := BitVec.ofNat 32 (fieldLE l 4 4), plen := BitVec.ofNat 32 (fieldLE l 8 4),
    hcrc := BitVec.ofNat 32 (fieldLE l 12 4), data := l.drop 16 }

/-- The packet in the command buffer, which Keeper copies as it accepts it (R464). -/
def State.packetIn (s : State) : Packet := readPacket ((upFrom 0 4096).map (tget 0 s.keeper.cmdBuf))

/-- A GO write (R464, R466): accepted while the port is idle, otherwise ignored and counted in KPR.REFUSED. Command
packets are not served after a fatal error (R538). -/
def State.goWrite (s : State) : State :=
  if s.keeper.busy then s.countErr (kprBase + 0x10) 1
  else if s.power.fatal then s
  else
    let p := s.packetIn
    { s with keeper := { s.keeper with busy := true, src := false, done := false, opcode := p.opcode,
                                       submitted := some p } }

/-- A masked write to a stored word of a queue context (R373): dropped while EN = 1. -/
def State.contextWrite (s : State) (qid k : Nat) (v m : Word) : State :=
  let q := s.queue qid
  if q.en then s else
  let put (old : Word) (rw : Nat) : Word :=
    let mm := m &&& BitVec.ofNat 64 rw
    (old &&& ~~~mm) ||| (v &&& mm)
  match k with
  | 0x08 => s.modQueue qid fun q => { q with idx := put q.idx (2 ^ 51 - 1) }
  | 0x10 => s.modQueue qid fun q => { q with dbase := put q.dbase (2 ^ 46 - 1) }
  | 0x18 => s.modQueue qid fun q => { q with xbase := put q.xbase (2 ^ 64 - 1) }
  | _ => s

/-- A masked write to PCM (R527). -/
def State.pcmWrite (s : State) (o : Nat) (v m : Word) : State :=
  let k := o - pcmBase
  let w := v &&& m
  if k = 0x18 then
    { s with pcm := { s.pcm with fired := s.pcm.fired &&& ~~~(field w 8 8),
                                 noEffect := s.pcm.noEffect &&& ~~~(field w 16 8) } }
  else if k = 0x28 then
    let c := (s.pcm.hotCnt &&& ~~~(field m 32 16)) ||| field w 32 16
    { s with pcm := { s.pcm with hotCnt := c, hotOvf := s.pcm.hotOvf && !bit w 48 } }
  else if 0x1000 ≤ k ∧ k < 0x1200 then
    let t := (k - 0x1000) / 16
    if k % 16 = 0 then
      { s with pcm := { s.pcm with tmrCmp := tset 0 s.pcm.tmrCmp t ((tget 0 s.pcm.tmrCmp t &&& ~~~m) ||| w) } }
    else
      let rw := m &&& 0xFFFFFFFFFFFF0001
      let old := tget 0 s.pcm.tmrCtl t
      { s with pcm := { s.pcm with
          tmrCtl := tset 0 s.pcm.tmrCtl t (((old &&& ~~~rw) ||| (v &&& rw)) &&& ~~~(w &&& 2)) } }
  else s

/-- A masked write of the 8-byte word at an 8-byte aligned CSR offset by an engine or the host. `m` has the bits of the
bytes written (R551, R553). -/
def State.csrWrite8 (s : State) (w : Writer) (o : Nat) (v m : Word) : State :=
  if o < 0x0200000 then
    (if (s.power.clusters[(Fin.ofNat 4 (o / 0x80000)).val]).st = .gated then s else s.plainWrite o v m)
  else if o < 0x0280000 then s.plainWrite o v m
  else if o < 0x0280800 then s.modSlot ((o - 0x0280000) / 8) fun x => { x with pend := x.pend &&& ~~~(v &&& m) }
  else if o < 0x0281000 then
    s.modSlot ((o - 0x0280800) / 8) fun x =>
      { x with disc := (x.disc &&& ~~~(field m 32 16)) ||| field (v &&& m) 32 16, ovf := x.ovf && !bit (v &&& m) 48 }
  else if o < 0x02A0000 then s
  else if o < 0x02C0000 then
    let mm := m &&& 0x7FFFFFFFFFFFF
    let i := (o - 0x02A0000) / 8
    { s with vectors := tset 0 s.vectors i ((tget 0 s.vectors i &&& ~~~mm) ||| (v &&& mm)) }
  else if o < 0x0400000 then s.plainWrite o v m
  else if o < 0x0C00000 then
    let qid := (o - 0x0400000) / 128
    match o % 128 with
    | 0x00 => s.writeQcfg qid ((s.queue qid).cfg &&& ~~~m ||| (v &&& m))
    | 0x20 =>
      let s := if bit m 0 then s.doorbell qid true w (byEngine w) (field v 0 32) else s
      if bit m 32 then s.doorbell qid false w (byEngine w) (field v 32 32) else s
    | k => s.contextWrite qid k v m
  else if o < 0x0C40000 then s.plainWrite o v m
  else if o < 0x0C44000 then s.pageWrite 0 (o - hifBase) v m
  else if o = 0x0C44000 then
    let h := BitVec.ofNat 64 (s.hif.hwhi.toNat * 2 ^ 43)
    { s with hif := { s.hif with hwhi := field ((h &&& ~~~m) ||| (v &&& m)) 43 21 } }
  else if o < 0x0C80000 then s.plainWrite o v m
  else if o = 0x0C80000 then (if bit (v &&& m) 0 then s.goWrite else s)
  else if o = 0x0C80008 then
    (if bit (v &&& m) 1 then { s with keeper := { s.keeper with done := false } } else s)
  else if o < 0x0CE0000 then s.plainWrite o v m
  else if o < 0x0D00000 then s.pcmWrite o v m
  else s

/-- The mask of `n` bytes at byte `k` of an 8-byte word. -/
def byteMask (k n : Nat) : Word := BitVec.ofNat 64 ((2 ^ (8 * n) - 1) * 2 ^ (8 * k))

/-- Bytes written into the command buffer; the reply buffer is Keeper's (R464). -/
def State.bufWrite (s : State) (o : Nat) (l : List Byte) : State :=
  if o < kprBase + 0x2000 then
    { s with keeper := { s.keeper with cmdBuf := putBytes s.keeper.cmdBuf (o - (kprBase + 0x1000)) l } }
  else s

/-- The page offset of a doorbell pair that a 4-byte access reaches (R386): queue index, and producer or consumer. -/
def pageDoorbell (o : Nat) : Option (Nat × Bool) :=
  if o < 0x1000 ∧ o % 16 = 0 then some (o / 16, true)
  else if o < 0x1000 ∧ o % 16 = 4 then some (o / 16, false)
  else none

/-- A write of `n` bytes at a CSR offset (R551). Doorbells take 4 bytes; anything but an aligned 8- or 4-byte access to a
register, or an aligned access to a buffer, writes nothing. -/
def State.csrWrite (s : State) (w : Writer) (o n : Nat) (v : Word) : State :=
  if n = 0 ∨ 8 < n ∨ o % n ≠ 0 then s
  else if kprBase + 0x1000 ≤ o ∧ o < kprBase + 0x3000 then s.bufWrite o (natLE n v.toNat)
  else if hifBase ≤ o ∧ o < hifBase + 0x1000 then
    match pageDoorbell (o - hifBase), n with
    | some (i, p), 4 => s.doorbell i p w (!byEngine w) (field v 0 32)
    | _, _ => s
  else if 0x0400000 ≤ o ∧ o < 0x0C00000 ∧ o % 128 = 0x20 ∧ n = 8 then s
  else if n = 8 ∨ n = 4 ∨ inBuffer o then
    s.csrWrite8 w (o / 8 * 8) (BitVec.ofNat 64 (v.toNat * 2 ^ (8 * (o % 8)))) (byteMask (o % 8) n)
  else s

/-- A host access to the function page of VFd (R31): dropped unless the domain is served; doorbells by the doorbell
rules. -/
def State.vfWrite (s : State) (d o n : Nat) (v : Word) : State :=
  if n = 0 ∨ o % n ≠ 0 then s
  else match pageDoorbell o, n with
    | some (i, p), 4 => s.doorbell (256 * d + i) p .host true (field v 0 32)
    | _, _ =>
      if (s.dom d).state ≠ .active then s
      else if n = 8 ∨ n = 4 ∨ (0x2000 ≤ o ∧ o < 0x2080) then
        s.pageWrite d (o / 8 * 8) (BitVec.ofNat 64 (v.toNat * 2 ^ (8 * (o % 8)))) (byteMask (o % 8) n)
      else s

/-- CSR_WRITE: a write through PF0 BAR0 or the BAR of VFd (R551 to R553, R31, R384). A host write is answered with
Completer Abort after a fatal error, and not served in BOOT (R538, R546). -/
def execCsrWrite (page : CsrPage) (off : BitVec 26) (size : Nat) (value : Word) (s : State) :
    Host.Outcome State Fault Refusal :=
  if s.power.fatal ∨ s.power.part = .boot ∨ s.power.part = .dormant ∨ s.power.tripped ∨ s.power.resetting
      ∨ 8 < size then .next s
  else
    let s := s.count (hifBase + 0x4008 + 64) 1
    match page with
    | .csr => .next (s.csrWrite .host off.toNat size value)
    | .vf d => .next (if d = 0 then s else s.vfWrite d.toNat off.toNat size value)

/-- PEND: pending vectors withdrawn from a slot (R277). -/
def execPend (slot : BitVec 8) (value : Word) (s : State) : Host.Outcome State Fault Refusal :=
  .next (s.csrWrite8 .host (0x0280000 + 8 * slot.toNat) value (~~~0))

end Sys2Proof.Machine
end

