-- ==== Sys2Proof/Machine/Xlate.lean ====
section
/-! DEFINITION. Tumbler (09): the walk, the TLBs, and the checks of R260 on one page of an access. -/

namespace Sys2Proof.Machine

/-- What ends an instruction before it completes: an exception with its CAUSE, DETAIL and EADDR (R286), or a machine
check with its DETAIL code, the virtual address of the access, and the physical address of the line concerned (R290). -/
inductive Trap where
  | exc (cause : Nat) (detail : Nat) (eaddr : Nat)
  | mcheck (code : Nat) (eaddr : Nat) (pa : Nat)
deriving DecidableEq, Repr

/-- A computation of an engine: it changes the state and may end in a trap; what it changed before the trap stays. -/
abbrev M (α : Type) := ExceptT Trap (StateM State) α

/-- The result of a computation and the state it leaves. -/
def M.exec {α : Type} (m : M α) (s : State) : Except Trap α × State := StateT.run (ExceptT.run m) s

/-- The part of the state that `f` reads. -/
def ask {α : Type} (f : State → α) : M α := do return f (← get)

/-- Specification exception with a DETAIL code (R286). -/
def specification {α : Type} (detail : Nat := 0) : M α := throw (.exc 0x21 detail 0)

/-- Privileged-operation exception (R286). -/
def privileged {α : Type} : M α := throw (.exc 0x22 0 0)

/-- Raises specification when `c` does not hold. -/
def require (c : Bool) (detail : Nat := 0) : M Unit := if c then pure () else specification detail

/-- The kinds of access as ACC codes them (R261). -/
inductive Acc where
  | read | write | fetch | kget
deriving DecidableEq, Repr

/-- ACC of ESTAT.DETAIL (R261). -/
def Acc.code : Acc → Nat
  | .read => 0 | .write => 1 | .fetch => 2 | .kget => 3

/-- What the storage-key rule sees of an access (R246, R251). -/
def Acc.use : Acc → KeyUse
  | .read | .kget => .read
  | .write => .write
  | .fetch => .fetch

/-- CAUSE of an access exception by its REASON (R262, R286). -/
def reasonCause (r : Nat) : Nat :=
  match r with
  | 1 | 2 | 3 => 0x27
  | 4 | 5 | 6 => 0x28
  | 7 | 14 => 0x29
  | 8 | 9 => 0x2A
  | 10 => 0x2B
  | 11 => 0x2C
  | 12 => 0x2D
  | 13 => 0x25
  | _ => 0x26

/-- An access exception: REASON, ACC, LEVEL and WALK in DETAIL, the address in EADDR (R261). `level` 0 means that it did
not arise in a walk. -/
def accessFault {α : Type} (reason : Nat) (acc : Acc) (level va : Nat) : M α :=
  throw (.exc (reasonCause reason) (packBits [(0, reason), (4, acc.code), (6, level), (9, if level = 0 then 0 else 1)]) va)

/-- The rights and the frame that a translation yields (R242); `a` is the leaf's accessed mark. -/
structure Leaf where
  frame : Nat
  w : Bool
  x : Bool
  p : Bool
  a : Bool
  d : Bool
  pki : Nat
  key : Key
deriving DecidableEq, Repr

/-! ### The walk (R238 to R241) -/

/-- The cost of one walk read: 3 cy when the line hits, else its line term (R101, R241). -/
def walkCost : LineTerm → Nat
  | .hit => 3
  | t => t.cycles

/-- Cycles of a translation term: they are spent, whether or not the walk goes on to a fault (R101, R241). -/
def State.walkTerm (s : State) (e : Eng) (n : Nat) : State := (s.tick e 26 n).waitTerm e n

/-- A line read by a walk of engine `e`, and its part of the translation term. -/
def walkLine (e : Eng) (line : Nat) : M Unit := do
  let (t, s) := (← get).cacheAccess e line false
  set ((s.countTerm e t).walkTerm e (walkCost t))

/-- The key read of a frame: the line of the key array for a DRAM frame, which counts as a read of the walk, or the
on-chip key store (R241). A key that cannot be read is a machine check (R248, R589). -/
def walkKey (e : Eng) (pa va : Nat) : M Unit := do
  let s ← get
  match s.paClass pa with
  | .dram => walkLine e (s.keyLine pa)
  | .sram _ | .local _ => set (s.keyRead pa)
  | _ => pure ()
  if ← ask (·.keyUnreadable pa) then throw (.mcheck 3 va pa)

/-- Checks before a table read, then the read itself (R239, R240), after the posts that have arrived at its home (R210). -/
def walkRead (e : Eng) (key : Nat) (acc : Acc) (va ea level : Nat) : M Nat := do
  let s ← get
  let cls := s.paClass ea
  if cls = .reserved then accessFault 13 acc level va
  if cls.isDevice then accessFault 12 acc level va
  walkKey e ea va
  if (← get).erasing ea then accessFault 14 acc level va
  if !keyAllows key ((← get).keyOf ea) .fetch then accessFault 7 acc level va
  modify (·.performBefore ea 8)
  walkLine e (ea / 64)
  if (← get).poisoned ea then throw (.mcheck 0x12 va (ea / 64 * 64))
  return leNat ((← get).bytesAt ea 8)

/-- Index of a virtual address in the table of a level (R232). -/
def vaIndex (va level : Nat) : Nat := va / 2 ^ (48 - 9 * level) % 512

/-- The walk from `level` on, `fuel` levels left (R238). -/
def walkFrom (e : Eng) (key : Nat) (acc : Acc) (va : Nat) : Nat → Nat → M Leaf
  | 0, _ => accessFault 2 acc 4 va
  | fuel + 1, table => do
    let level := 4 - fuel
    let v ← walkRead e key acc va (table + 8 * vaIndex va level) level
    let x := BitVec.ofNat 64 v
    if !bit x 0 then accessFault 1 acc level va
    let leaf := bit x 1
    if bit x 11 || field x 46 18 != 0 || (!leaf && field x 2 9 != 0) then accessFault 2 acc level va
    let pfn := (field x 12 34).toNat
    if leaf then
      let frames := 2 ^ (9 * (4 - level))
      if pfn % frames ≠ 0 then accessFault 3 acc level va
      let frame := pfn + va / 4096 % frames
      walkKey e (frame * 4096) va
      let key := (← get).keyOf (frame * 4096)
      return { frame := frame, w := bit x 2, x := bit x 3, p := bit x 4, a := bit x 5, d := bit x 6,
               pki := (field x 7 4).toNat, key := key }
    else walkFrom e key acc va fuel (pfn * 4096)

/-! ### TLBs (R242 to R244) -/

/-- One step of the TLB's LFSR, x^16 + x^14 + x^13 + x^11 + 1 (R243). -/
def lfsrStep (x : BitVec 16) : BitVec 16 :=
  (x >>> 1) ||| ((x ^^^ (x >>> 2) ^^^ (x >>> 3) ^^^ (x >>> 5)) <<< 15)

/-- The LFSR after `n` cycles. -/
def lfsrAfter : Nat → BitVec 16 → BitVec 16
  | 0, x => x
  | n + 1, x => lfsrAfter n (lfsrStep x)

/-- The entries of a TLB that match a page of a domain. -/
def tlbHits (t : Tbl (Option TlbEntry)) (va key : Nat) : List TlbEntry :=
  t.filterMap fun p => match p.2 with
    | some x => if x.vpn.toNat = va / 4096 ∧ x.dom.toNat = key then some x else none
    | none => none

/-- The engine with the entries of its TLBs for which `f` holds removed. -/
def Engine.tlbDrop (x : Engine) (f : TlbEntry → Bool) : Engine :=
  let keep (p : Nat × Option TlbEntry) : Bool := match p.2 with | some t => !f t | none => true
  { x with dtlb := x.dtlb.filter keep, itlb := x.itlb.filter keep }

/-- The state with matching entries removed from the TLBs of all 32 engines (R252). -/
def State.tlbDrop (s : State) (f : TlbEntry → Bool) : State := s.modEngines (·.tlbDrop f)

/-- The lowest-numbered invalid entry of a TLB of `n` entries. -/
def freeEntry (t : Tbl (Option TlbEntry)) (n : Nat) : Option Nat :=
  (List.range n).find? fun i => (tget none t i).isNone

/-- A walk's entry goes into the TLB: same tags invalidated first, then the lowest-numbered invalid entry, else the
entry that the LFSR names (R243). -/
def tlbInsert (e : Eng) (fetch : Bool) (x : TlbEntry) : M Unit := do
  let s ← get
  let eng := s.eng e
  let same (p : Nat × Option TlbEntry) : Bool := match p.2 with
    | some t => !(t.vpn == x.vpn && t.dom == x.dom)
    | none => true
  let t := (if fetch then eng.itlb else eng.dtlb).filter same
  let n := if fetch then 32 else 128
  let (i, s) := match freeEntry t n with
    | some i => (i, s)
    | none =>
      let l := lfsrAfter (Config.lfsrSteps s.draws) eng.lfsr
      let s := { s with draws := s.draws + 1 }
      (if fetch then (field l 8 5).toNat else (field l 0 7).toNat, s.modEng e fun y => { y with lfsr := l })
  let t := tset none t i (some x)
  set (s.modEng e fun y => if fetch then { y with itlb := t } else { y with dtlb := t })

/-! ### The checks of one page (R260) -/

/-- The REASON of the first of checks 4 to 9 that fails: the target, the page's rights, the storage key and the protection
key. -/
def State.leafReason (s : State) (acc : Acc) (key : Nat) (priv : Bool) (krr : BitVec 32) (l : Leaf) : Option Nat :=
  let cls := s.paClass (l.frame * 4096)
  let isHost := match cls with | .host _ => true | _ => false
  if cls = .reserved then some 13
  else if cls.isDevice && acc == .fetch then some 15
  else if l.p && !priv then some 6
  else if acc = .write ∧ l.w = false then some 4
  else if acc = .fetch ∧ l.x = false then some 5
  else if !isHost && l.key.lock ≠ 0 && (s.dom l.key.lock.toNat).state == .destroying then some 14
  else if !isHost && !keyAllows key l.key acc.use then some 7
  else if key ≠ 0 ∧ (acc = .read ∨ acc = .write) ∧ bit krr (2 * l.pki) = true then some 8
  else if key ≠ 0 ∧ acc = .write ∧ bit krr (2 * l.pki + 1) = true then some 9
  else none

/-- Checks 4 to 9. -/
def checkLeaf (acc : Acc) (va key : Nat) (priv : Bool) (krr : BitVec 32) (l : Leaf) : M Unit := do
  match (← get).leafReason acc key priv krr l with
  | some r => accessFault r acc 0 va
  | none => pure ()

/-- The leaf of a page under identity translation (R233). -/
def identityLeaf (s : State) (va : Nat) : Leaf :=
  { frame := va / 4096, w := true, x := true, p := false, a := true, d := true, pki := 0, key := s.keyOf va }

/-- The leaf that a page of an access translates to: from the TLB, or by a walk that inserts it (R243, R260 steps 2 and
3). Under key 0 it is the identity, which needs an address below 2^46 (R233). -/
def lookup (e : Eng) (key : Nat) (acc : Acc) (va : Nat) : M Leaf := do
  let s ← get
  if key = 0 then
    if 2 ^ 46 ≤ va then accessFault 13 acc 0 va
    set (s.keyRead va)
    if ← ask (·.keyUnreadable va) then throw (.mcheck 3 va va)
    return identityLeaf (← get) va
  let fetch := acc == .fetch
  match tlbHits (if fetch then (s.eng e).itlb else (s.eng e).dtlb) va key with
  | _ :: _ :: _ => throw (.mcheck 2 va 0)
  | [t] =>
    if s.keyUnreadable (t.frame.toNat * 4096) then throw (.mcheck 3 va (t.frame.toNat * 4096))
    return { frame := t.frame.toNat, w := t.w, x := t.x, p := t.p, a := true, d := t.d, pki := t.pki.toNat,
             key := { lock := t.lock, share := t.share } }
  | [] =>
    set ((s.tumCount e false fetch).walkTerm e 4)
    match (s.dom key).root with
    | none => accessFault 1 acc 1 va
    | some root =>
      let l ← walkFrom e key acc va 4 root.toNat
      let cls := (← get).paClass (l.frame * 4096)
      if l.a && cls != .reserved then
        tlbInsert e fetch
          { vpn := BitVec.ofNat 36 (va / 4096), dom := BitVec.ofNat 8 key, frame := BitVec.ofNat 34 l.frame, w := l.w,
            x := l.x, p := l.p, d := l.d, pki := BitVec.ofNat 4 l.pki, lock := l.key.lock, share := l.key.share,
            device := cls.isDevice }
      return l

/-- The translation of one page of an access in the bank of `slot`, with every check of R260 from step 2 on. `va` is the
lowest address of the page that the access needs. Its physical address and leaf are answered. -/
def translate (e : Eng) (slot : Nat) (acc : Acc) (va : Nat) : M (Nat × Leaf) := do
  let b ← ask (·.bank slot)
  let key := pswKEY b.psw
  let l ← lookup e key acc va
  checkLeaf acc va key (pswPRIV b.psw) b.krr l
  if !l.a && acc != .kget then
    modify (·.tumCount e true false)
    accessFault 10 acc 0 va
  if acc = .write ∧ l.d = false then
    modify fun s => (s.tumCount e true true).modEng e fun x => { x with dtlb := x.dtlb.filter fun p =>
      match p.2 with | some t => !(t.vpn.toNat == va / 4096 && t.dom.toNat == key) | none => true }
    accessFault 11 acc 0 va
  return (l.frame * 4096 + va % 4096, l)

/-- The pieces of `n` bytes from `va` that lie in one page each: the first page's, then the rest. -/
def pagePieces (va n : Nat) : List (Nat × Nat) :=
  let rec go : Nat → Nat → Nat → List (Nat × Nat)
    | 0, _, _ => []
    | fuel + 1, va, n =>
      if n = 0 then [] else
      let k := min n (4096 - va % 4096)
      (va, k) :: go fuel (va + k) (n - k)
  go (n / 4096 + 2) va n

/-- Every page of an access translated and checked, the lower page first: pieces of physical memory (R82, R260). -/
def translateAll (e : Eng) (slot : Nat) (acc : Acc) : List (Nat × Nat) → M (List (Nat × Nat))
  | [] => return []
  | (va, n) :: r => do
    let (pa, _) ← translate e slot acc va
    let rest ← translateAll e slot acc r
    return (pa, n) :: rest

/-- Address range of an operand: no byte lies above 2^48 - 1 (R92). -/
def addressRange (ea n : Nat) : M Unit :=
  if n ≠ 0 ∧ 2 ^ 48 < ea + n then throw (.exc 0x23 0 ea) else pure ()

/-- The physical pieces of an operand of `n` bytes at `ea` (R82, R92, R260). -/
def pieces (e : Eng) (slot : Nat) (acc : Acc) (ea n : Nat) : M (List (Nat × Nat)) := do
  addressRange ea n
  translateAll e slot acc (pagePieces ea n)

end Sys2Proof.Machine
end

