-- ==== Sys2Proof/Machine/Ops.lean ====
section
/-! DEFINITION. Taking an exception and returning from one (R285 to R290, R536, R537), the beginning and the end of every
macro instruction (R65 to R69, R85 to R88, R96, R97), and registers of the current bank. -/

namespace Sys2Proof.Machine

/-! ### Delivery -/

/-- The exception vector of a CAUSE (R286). -/
def causeVector (c : Nat) : Nat :=
  match c with
  | 0x20 => 1 | 0x21 => 2 | 0x22 => 3
  | 0x23 | 0x24 | 0x25 | 0x26 => 4
  | 0x27 => 5 | 0x28 => 6
  | 0x29 | 0x2A => 7
  | 0x2B | 0x2C => 8
  | 0x2D => 9
  | 0x30 | 0x31 | 0x32 => 10
  | 0x33 | 0x34 => 11
  | 0x38 => 12 | 0x39 => 13 | 0x3A => 14
  | _ => 0

/-- ESTAT from its fields (R64). -/
def mkEstat (cause ilen detail srclvl vec : Nat) : Word :=
  BitVec.ofNat 64 (packBits [(0, cause % 256), (8, ilen % 16), (16, detail % 2 ^ 16), (32, srclvl % 8), (48, vec % 64)])

/-- The vector-table entry of vector `v` at level `t` of engine `e` is VALID. -/
def State.validAt (s : State) (e : Eng) (t v : Nat) : Bool := bit (s.vector (slotOf e t) v) 0

/-- The target of an exception raised in level `n`: level and vector by the first row of R287 that holds, or none for
machine check 0x0001. -/
def State.excTarget (s : State) (e : Eng) (n : Fin 8) (cause : Nat) : Option (Fin 8 × Nat) :=
  let i := slotOf e n.val
  let lf : Fin 8 := Fin.ofNat 8 (s.dom (s.owner i)).faultlvl.toNat
  let free (t : Fin 8) (v : Nat) : Option (Fin 8 × Nat) :=
    if (s.slot (slotOf e t.val)).state = .idle ∧ s.validAt e t.val v = true then some (t, v) else none
  let zero := if 0 < n.val then free 0 15 else none
  if cause = 0x3A then
    if lf < n then (free lf 14).orElse fun _ => zero
    else zero
  else if !(s.slot i).nest && s.validAt e n.val (causeVector cause) then some (n, causeVector cause)
  else if lf < n then (free lf 15).orElse fun _ => zero
  else zero

/-- Level `n` of engine `e` loses the engine at an interruption point: where the quiesce sequence of its domain runs, QSTOP
is set there (R34 step 3, R292). -/
def State.displace (s : State) (e : Eng) (n : Fin 8) : State :=
  let i := slotOf e n.val
  if (s.dom (s.owner i)).state = .quiescing then s.modSlot i fun x => { x with qstop := true } else s

/-- An entry into level `t` of engine `e` through vector `v` for the context of level `n` (R288): the entry registers,
NEST and XLVL, the PSW of R268, and level `n` HELD when it is another one. With no level interrupted, EPSW receives the
installed PSW and NEST stays 0 (R537). -/
def State.enterExc (s : State) (e : Eng) (t : Fin 8) (v : Nat) (n : Option (Fin 8)) (x : Exc) : State :=
  let ti := slotOf e t.val
  let psw := s.entryPsw e t.val v
  let src := n.getD 0
  let from' := s.bank (slotOf e src.val)
  let estat := mkEstat x.cause.toNat x.ilen.toNat x.detail.toNat src.val v
  let s := s.modBank ti fun b =>
    { b with epsw := if n.isSome then from'.psw else psw, estat := estat, eaddr := x.eaddr, psw := psw,
             ecommit := if n = some t then b.commit else b.ecommit }
  let s := match n with
    | some m => if m = t then s else (s.displace e m).modSlot (slotOf e m.val) fun y => { y with state := .held }
    | none => s
  let s := s.modSlot ti fun y =>
    { y with state := .active, nest := n.isSome, xlvl := BitVec.ofNat 3 src.val }
  ((s.tick e 5 1).cycles e (pswFTM psw) 12).modEng e fun y => { y with lineBuf := [], intact := false }

/-- The record of a machine check (R290, R531, R536). -/
def State.mcRecord (s : State) (e : Eng) (code : Nat) (n : Option (Fin 8)) (stopped : Bool) (ia pa key : Nat) : State :=
  s.record key 2 2 (BitVec.ofNat 8 e.val)
    (natLE 2 code ++ [BitVec.ofNat 8 (n.getD 0).val, if stopped then 1 else 0, 0, 0, 0, 0] ++ natLE 8 ia ++ natLE 8 pa)

/-- A machine check on engine `e` (R290): into level 0 at vector 0 when that level is IDLE and the entry VALID, otherwise
a checkstop. `n` is the level interrupted, `key` the PSW.KEY at the access. A wait of the level interrupted is abandoned, and
a customer routine goes on from its commit record (R69, R291). An engine that is checkstopped takes none. -/
def State.machineCheck (s : State) (e : Eng) (code eaddr pa : Nat) (n : Option (Fin 8)) (ilen : BitVec 4) (key : Nat) :
    State :=
  if (s.eng e).checkstop then s else
  let s := s.modEng e fun x => { x with wait := .none, micro := none }
  let stops := !((s.slot (slotOf e 0)).state == .idle && s.validAt e 0 0)
  let ia := match n with | some m => pswIA (s.bank (slotOf e m.val)).psw | none => 0
  let s := s.mcRecord e code n stops ia pa key
  let s := s.modEng e fun x =>
    { x with mcCode := BitVec.ofNat 16 code, mcLevel := BitVec.ofNat 3 (n.getD 0).val, mcStopped := stops }
  if stops then (s.modEng e fun x => { x with checkstop := true }).fire (0x11200 + e.val)
  else s.enterExc e 0 0 n { cause := 0x3F, detail := BitVec.ofNat 16 code, eaddr := BitVec.ofNat 64 eaddr, ilen := ilen }

/-- An exception of level `n` is delivered by the chain of R287. -/
def State.deliver (s : State) (e : Eng) (n : Fin 8) (x : Exc) : State :=
  match s.excTarget e n x.cause.toNat with
  | some (t, v) => s.enterExc e t v (some n) x
  | none => s.machineCheck e 1 0 0 (some n) x.ilen (pswKEY (s.bank (slotOf e n.val)).psw)

/-- An exception raised at an interruption point of level `n`: held while a more urgent entry is due there, or while the
quiesce sequence stops the slot; otherwise delivered (R289, R292). -/
def State.raise (s : State) (e : Eng) (n : Fin 8) (x : Exc) : State :=
  let i := slotOf e n.val
  if (s.dueLevel e).isSome || (s.dom (s.owner i)).state == .quiescing then
    s.modSlot i fun y => { y with heldExc := some x }
  else s.deliver e n x

/-- What ended an instruction early becomes an exception of its level, or a machine check (R287, R290). -/
def State.trapped (s : State) (e : Eng) (n : Fin 8) (ilen : Nat) : Trap → State
  | .exc cause detail eaddr =>
    s.raise e n { cause := BitVec.ofNat 8 cause, detail := BitVec.ofNat 16 detail, eaddr := BitVec.ofNat 64 eaddr,
                  ilen := BitVec.ofNat 4 ilen }
  | .mcheck code eaddr pa =>
    s.machineCheck e code eaddr pa (some n) (BitVec.ofNat 4 ilen) (pswKEY (s.bank (slotOf e n.val)).psw)

/-! ### The context of an instruction -/

/-- The engine and level that an instruction runs on, and its length. -/
structure Cx where
  e : Eng
  n : Fin 8
  len : Nat
deriving DecidableEq, Repr

/-- The slot of the context. -/
def Cx.slot (c : Cx) : Nat := slotOf c.e c.n.val

/-- The bank of the context. -/
def getBank (c : Cx) : M Bank := ask (·.bank c.slot)

/-- Changes the bank of the context. -/
def modBank (c : Cx) (f : Bank → Bank) : M Unit := modify (·.modBank c.slot f)

/-- A register field as an index. -/
def ix (r : BitVec 4) : Fin 16 := r.toFin

/-- G(r). -/
def getG (c : Cx) (r : BitVec 4) : M Word := return (← getBank c).g[ix r]

/-- G(r) := v. -/
def setG (c : Cx) (r : BitVec 4) (v : Word) : M Unit := modBank c fun b => { b with g := b.g.set (ix r).val v }

/-- A D register field as an index: R90 has checked that it is at most 7. -/
def ix8 (r : BitVec 4) : Fin 8 := Fin.ofNat 8 r.toNat

/-- D(r). -/
def getD' (c : Cx) (r : BitVec 4) : M (BitVec 256) := return (← getBank c).d[ix8 r]

/-- D(r) := v. -/
def setD (c : Cx) (r : BitVec 4) (v : BitVec 256) : M Unit := modBank c fun b => { b with d := b.d.set (ix8 r).val v }

/-- F(r). -/
def getF (c : Cx) (r : BitVec 4) : M (BitVec 128) := return (← getBank c).f[ix r]

/-- F(r) := v. -/
def setF (c : Cx) (r : BitVec 4) (v : BitVec 128) : M Unit := modBank c fun b => { b with f := b.f.set (ix r).val v }

/-- CC := v. -/
def setCC (c : Cx) (v : Nat) : M Unit := modBank c fun b => { b with cc := BitVec.ofNat 2 v }

/-- P(p): P0 reads as 1 (R54). -/
def Bank.pred (b : Bank) (p : Nat) : Bool := p == 0 || bit b.p p

/-- P(p) := v: a write to P0 is discarded (R54). -/
def Bank.setPred (b : Bank) (p : Nat) (v : Bool) : Bank :=
  if p = 0 then b else { b with p := setField b.p p 1 (b2n v) }

/-- The PSW of the context. -/
def getPsw (c : Cx) : M (BitVec 128) := return (← getBank c).psw

/-- PSW.IA replaced. -/
def withIA (p : BitVec 128) (ia : Nat) : BitVec 128 := setField p 0 48 ia

/-- PSW.IPR and PSW.IPS replaced (R56). -/
def withIP (p : BitVec 128) (ipr : Bool) (ips : Nat) : BitVec 128 := setField (setField p 64 1 (b2n ipr)) 65 7 ips

/-! ### Fetch (R85, R96 step 1) -/

/-- The lines of an instruction are read, each after the posts that have arrived at its home (R210): a line found
uncorrectable or poisoned is a machine check (R350, R537). -/
def fetchLines (e : Eng) (ia : Nat) : List Nat → M Unit
  | [] => pure ()
  | l :: r => do
    modify fun s => (s.performBefore (l * 64) 64).fetchLine e l
    if ← ask (tget false ·.mem.poison l) then throw (.mcheck 0x11 ia (l * 64))
    fetchLines e ia r

/-- The line after the last line of an instruction, where it may be fetched ahead (R99): in the same page, or in a page that
hits the instruction TLB or, under key 0, needs none. Only memory of normal type is read ahead (R14). `va` is the address
of the last byte of the instruction and `pa` its physical address. -/
def State.aheadLine (s : State) (e : Eng) (slot va pa : Nat) : Option Nat :=
  let key := pswKEY (s.bank slot).psw
  let next := va / 64 * 64 + 64
  let line :=
    if next % 4096 ≠ 0 then some (pa / 64 + 1)
    else if key = 0 then some (next / 64)
    else match tlbHits (s.eng e).itlb next key with
      | [t] => some (t.frame.toNat * 64)
      | _ => none
  line.filter fun l => (s.paClass (l * 64)).isNormal

/-- The page of an instruction's first four bytes is translated and checked (R85). -/
def fetchFirst (e : Eng) (slot ia : Nat) : M (List (Nat × Nat)) := do
  if 2 ^ 48 < ia + 4 then throw (.exc 0x23 0 ia)
  translateAll e slot .fetch (pagePieces ia 4)

/-- The page of the rest is translated and checked, and the lines are read (R85); `ps` are the pieces of the first four
bytes. -/
def fetchRest (e : Eng) (slot ia len : Nat) (ps : List (Nat × Nat)) : M Unit := do
  if 2 ^ 48 < ia + len then throw (.exc 0x23 0 ia)
  let qs ← if (ia + len - 1) / 4096 = (ia + 3) / 4096 then pure []
    else translateAll e slot .fetch [((ia + len - 1) / 4096 * 4096, 1)]
  let first := match ps with | (pa, _) :: _ => pa | [] => 0
  let firstLen := min len (4096 - ia % 4096)
  let second := match qs, ps with
    | (pa, _) :: _, _ => some pa
    | [], [_, (pa, _)] => some pa
    | _, _ => none
  fetchLines e ia (linesOf first firstLen ++ (match second with | some pa => linesOf pa (len - firstLen) | none => []))
  let last := match second with | some pa => pa + (len - firstLen) - 1 | none => first + len - 1
  modify fun s => s.fetchAhead e (last / 64) (s.aheadLine e slot (ia + len - 1) last)

/-- The bytes of an instruction are fetched: every page that holds them is translated and checked first, the page of
the first four bytes before the rest (R85). The flag says that LC could be read when the fetch failed. -/
def fetch (e : Eng) (slot ia len : Nat) (s : State) : Except (Bool × Trap) Unit × State :=
  match (fetchFirst e slot ia).exec s with
  | (.error t, s') => (.error (false, t), s')
  | (.ok ps, s') =>
    match (fetchRest e slot ia len ps).exec s' with
    | (.error t, s'') => (.error (true, t), s'')
    | (.ok _, s'') => (.ok (), s'')

/-! ### The beginning of an instruction -/

/-- An engine is at an interruption point from which it may start an instruction of its running level: nothing more
urgent is due, no exception is held, no wait or customer routine is in progress (R65, R66, R289, R292). -/
def State.ready (s : State) (e : Eng) : Option (Fin 8) :=
  let x := s.eng e
  if !s.clusterRuns e || x.checkstop || x.wait != .none || x.micro.isSome || x.postCheck.isSome then none
  else match s.running e with
    | none => none
    | some n =>
      let i := slotOf e n.val
      if (s.slot i).xexc || (s.dueLevel e).isSome || (s.dom (s.owner i)).state == .quiescing then none else some n

/-- The level that runs gives up the engine at an interruption point: a wait is abandoned, and a routine lives on in its
commit record (R69, R291, R322). -/
def State.leave (s : State) (e : Eng) : State :=
  s.modEng e fun x => if x.atPoint then { x with wait := .none, micro := none, intact := false } else x

/-- The predicate PRED of an instruction in a bank (R86). -/
def predicate (b : Bank) (pred : BitVec 4) : Bool :=
  let v := b.pred (field pred 0 3).toNat
  if bit pred 3 then !v else v

/-- How an instruction leaves IA: at the next instruction, at a branch target, at itself because it was interrupted at a
commit point, or at itself because it waits for something outside the engine. -/
inductive Done where
  | seq
  | goto (ia : Nat)
  | paused
  | waits
  /-- The instruction completes and then raises an exception with IA at the next instruction (R67, R203). -/
  | raises (cause detail : Nat)
  /-- The instruction completes and has set the PSW itself: ERET. -/
  | left
deriving DecidableEq, Repr

/-- What an instruction is, apart from its fields: whether it may resume with IPR = 1 (R68), its documented count in the
state it starts in, its count when predicated off under FTM, and its work. -/
structure Macro where
  interruptible : Bool := false
  /-- The work counts its own cycles, segment by segment (R174). -/
  selfTimed : Bool := false
  /-- A branch-group instruction: predicated off under FTM it takes 5 cy (R100). -/
  branch : Bool := false
  /-- Documented count in cy, in the context and state at its start. -/
  count : Cx → State → Nat
  /-- Checks of R96 steps 3 to 6 and the work. -/
  body : Cx → M Done

/-- Every open store-buffer entry closes when the instruction that made it completes, reaches a commit point or is
interrupted; stores still held for a commit point are discarded by an exception and released otherwise (R102, R142). -/
def State.seal (s : State) (e : Eng) (discard : Bool) : State :=
  s.modEng e fun x =>
    let keep := if discard then x.sb.filter (fun y => !y.held) else x.sb
    { x with sb := keep.map fun y => { y with opened := false, held := false } }

/-- The end of an instruction that completed: IA, IPR and IPS, and the counters INST and CYC (R85, R97, R559). -/
def State.complete (s : State) (c : Cx) (count : Nat) (d : Done) : State :=
  let ftm := pswFTM (s.bank c.slot).psw
  let advance (s : State) (ia : Nat) : State :=
    ((s.modBank c.slot fun b => { b with psw := withIP (withIA b.psw ia) false 0 }).tick c.e 1 1).cycles c.e ftm count
  match d with
  | .seq => advance s (pswIA (s.bank c.slot).psw + c.len)
  | .goto ia => (advance s ia).modEng c.e fun x => { x with lineBuf := [] }
  | .left => (s.tick c.e 1 1).modEng c.e fun x => { x with lineBuf := [] }
  | .paused => (s.cycles c.e ftm count).modEng c.e fun x => { x with intact := true }
  | .waits => s.cycles c.e ftm count
  | .raises _ _ => advance s (pswIA (s.bank c.slot).psw + c.len)

/-- A predicated-off instruction: IA advances, INST and POFF count, and it takes 1 cy, or its documented count under FTM
(R85, R87, R104, R559). DEDUCED: it completes, since IA passes it. DESIGN CHOICE: a branch-group instruction takes the 5 cy
of R100 flat; the terms for the mask of CALL, CALLR and RET, of which R104 says nothing here, are not added. -/
def State.skip (s : State) (c : Cx) (m : Macro) : State :=
  let ftm := pswFTM (s.bank c.slot).psw
  let n := if !ftm then 1 else if m.branch then 5 else m.count c s
  ((s.modBank c.slot fun b => { b with psw := withIA b.psw (pswIA b.psw + c.len) }).tick c.e 1 1 |>.tick c.e 2 1).cycles c.e ftm n

/-- A machine check of a poisoned post that the engine has not yet taken is taken now (R536, R537). -/
def State.takePostCheck (s : State) (e : Eng) : State :=
  match (s.eng e).postCheck with
  | none => s
  | some p =>
    (s.modEng e fun x => { x with postCheck := none }).machineCheck e 0x13 p.va.toNat (p.pa / 64 * 64) (s.running e) 0
      (pswKEY (s.bank p.slot.toNat).psw)

/-- Keeper, which holds the engine at its interruption point or finds it stopped, writes its customer window; a routine held
at a commit point lives on in its commit record (R296, R322, R326). -/
def State.takeWindow (s : State) (e : Eng) : State :=
  match s.keeper.reload with
  | none => s
  | some cs =>
    if (s.eng e).csDue && ((s.eng e).atPoint || (s.eng e).checkstop) then
      s.modEng e fun x =>
        { x with cs := cs, csGen := s.keeper.generation, csDue := false, micro := none,
                 wait := if x.micro.isSome then .none else x.wait }
    else s

/-- What ended an instruction or a routine at an interruption point, with a machine check of a post that waits there: the
machine check goes first, and a synchronous exception is held meanwhile (R289). -/
def State.trappedPoint (s : State) (e : Eng) (n : Fin 8) (ilen : Nat) (t : Trap) : State :=
  match (s.eng e).postCheck, t with
  | some _, .exc cause detail eaddr =>
    (s.modSlot (slotOf e n.val) fun y =>
      { y with heldExc := some { cause := BitVec.ofNat 8 cause, detail := BitVec.ofNat 16 detail,
                                 eaddr := BitVec.ofNat 64 eaddr, ilen := BitVec.ofNat 4 ilen } }).takePostCheck e
  | _, _ => (s.trapped e n ilen t).takePostCheck e

/-- The state after what ended an instruction's work. DESIGN CHOICE: an instruction that ends in a specification, access,
operation or address-range exception with no cost of its own in the spec is charged its full documented count, a decimal
one among them; one that times itself is charged what it has spent (R97, R115). -/
def State.finishWork (s : State) (c : Cx) (count : Nat) (r : Except Trap Done × State) : State :=
  match r with
  | (.ok .waits, s') =>
    let s' := s'.complete c count .waits
    if (s'.eng c.e).atPoint then s'.takePostCheck c.e else s'
  | (.ok (.raises cause detail), s') =>
    ((s'.seal c.e false).complete c count (.raises cause detail)).trappedPoint c.e c.n c.len
      (.exc cause detail 0)
  | (.ok d, s') => ((s'.seal c.e false).complete c count d).takePostCheck c.e
  | (.error t, s') =>
    ((s'.seal c.e true).cycles c.e (pswFTM (s.bank c.slot).psw) count).trappedPoint c.e c.n c.len t

/-- The state after an instruction's work, whatever ended it. -/
def State.work (s : State) (c : Cx) (m : Macro) : State :=
  s.finishWork c (if m.selfTimed then 0 else m.count c s) ((m.body c).exec s)

/-- One macro instruction on engine `e` (R96): turned away when the engine is not at a point where it may start; then
fetch, predicate (not evaluated again on a resume, R88), and its own checks and work. A resume with IPR = 1 of an
instruction that is not interruptible raises a specification exception (R59). One that was stopped at a commit point for an
entry that was then abandoned goes on without the resume term (R282). -/
def State.runMacro (s : State) (e : Eng) (pred : BitVec 4) (len : Nat) (m : Macro) : State :=
  match s.ready e with
  | none => s
  | some n =>
    let c : Cx := { e := e, n := n, len := len }
    let p := (s.bank c.slot).psw
    let s := s.modEng e fun x => { x with ria := field p 0 48 }
    match fetch e c.slot (pswIA p) len s with
    | (.error (lcRead, t), s') => s'.trapped e n (if lcRead then len else 0) t
    | (.ok (), s') =>
      if pswIPR p then
        if m.interruptible then
          (if (s.eng e).intact then s'.modEng e fun x => { x with intact := false }
            else (s'.tick e 25 1).cycles e (pswFTM p) 3).work c m
        else s'.trapped e n len (.exc 0x21 0 0)
      else if predicate (s'.bank c.slot) pred then s'.work c m
      else s'.skip c m

/-- The outcome of a macro instruction: every path is a next state. -/
def macroNext (e : Eng) (pred : BitVec 4) (len : Len) (m : Macro) (s : State) : Host.Outcome State Fault Refusal :=
  .next (s.runMacro e pred len.bytes m)

/-! ### Return (R285) -/

/-- A PSW restored into a slot: FTM follows the policy of the slot's owner (R28). DESIGN CHOICE: a LEVEL that SETE has edited
in EPSW is restored as it stands, since R285 restores EPSW and R204 checks no LEVEL, although R56 has LEVEL equal to the
bank's number. -/
def State.restorePsw (s : State) (i : Nat) (p : BitVec 128) : BitVec 128 :=
  let d := s.dom (s.owner i)
  let f := if d.ftmpol = 0 then false else if d.ftmpol = 1 then pswFTM p else true
  setField p 60 1 (b2n f)

/-- The return from level `n` (R285): the context that NEST and XLVL name is restored, or the level is parked; the
commit record kept beside EPSW comes back when the level returns to itself (R324). -/
def State.eret (s : State) (e : Eng) (n : Fin 8) : State :=
  let i := slotOf e n.val
  let x := s.slot i
  let b := s.bank i
  if x.nest then
    let m := x.xlvl.toNat
    let j := slotOf e m
    let s := s.modBank j fun y => { y with psw := s.restorePsw j b.epsw }
    let s := s.modSlot i fun y => { y with nest := false }
    if m = n.val then s.modBank i fun y => { y with commit := y.ecommit }
    else (s.modSlot i fun y => { y with state := .idle }).modSlot j fun y => { y with state := .active }
  else
    let s := s.modBank i fun y => { y with psw := s.restorePsw i b.epsw }
    s.modSlot i fun y => { y with state := .idle }

end Sys2Proof.Machine
end

