-- ==== Sys2Proof/Machine/Domains.lean ====
section
/-! DEFINITION. The life of a domain (02): the quiesce sequence, the function-level reset of a VF, and the erase sequence
(R33 to R43), as operations that Keeper's commands, HIF and the events that end a quiesce share. -/

namespace Sys2Proof.Machine

/-! ### Slots of a domain -/

/-- The slots that a domain owns (R23). -/
def State.slotsOf (s : State) (d : Nat) : List Nat := (List.range 256).filter fun i => s.owner i == d

/-- The engine and the level of a slot. -/
def slotEng (i : Nat) : Eng := Fin.ofNat 32 (i / 8)

/-- The engine of the slot executes in it: the slot is the running level of an engine that is neither checkstopped nor
stopped with its cluster (R34 step 3). -/
def State.executes (s : State) (i : Nat) : Bool :=
  let e := slotEng i
  s.clusterRuns e && !(s.eng e).checkstop && (match s.running e with | some n => n.val == i % 8 | none => false)

/-- The domain state changes, and LD0's domain-state event is raised (R467). -/
def State.setDomState (s : State) (d : Nat) (x : DomState) : State :=
  if (s.dom d).state = x then s else (s.modDom d fun y => { y with state := x }).fire (0x11300 + d)

/-! ### The quiesce sequence (R34) -/

/-- QSTOP on a slot; where the slot is the running level of an engine that executes nothing, that level gives up the
engine, with the wait or the routine it stands in (R292). -/
def State.stopSlot (s : State) (i : Nat) : State :=
  let e := slotEng i
  let s := if (match s.running e with | some n => n.val == i % 8 | none => false) then s.leave e else s
  s.modSlot i fun x => { x with qstop := true }

/-- Steps 1 and 2: QUIESCING, and QSTOP at once on every slot that its engine does not execute in. -/
def State.startQuiesce (s : State) (d : Nat) : State :=
  (s.slotsOf d).foldl (fun s i => if s.executes i then s else s.stopSlot i) (s.setDomState d .quiescing)

/-- FLRACT bit of function `d`: HIF.FLRACT register and bit (R558). -/
def flrAct (d : Nat) : Nat × Nat := (hifBase + 0x4120 + 8 * (d / 64), d % 64)

/-- A function-level reset of VFd is in progress. -/
def State.flrActive (s : State) (d : Nat) : Bool := bit (s.reg (flrAct d).1) (flrAct d).2

/-- FLRACT of function `d` set or cleared. -/
def State.setFlrActive (s : State) (d : Nat) (b : Bool) : State :=
  s.setReg (flrAct d).1 (setField (s.reg (flrAct d).1) (flrAct d).2 1 (b2n b))

/-- Step 3 done: no engine executes in a slot of the domain. -/
def State.slotsStopped (s : State) (d : Nat) : Bool := (s.slotsOf d).all fun i => (s.slot i).qstop

/-- Step 4 done: no read of a copy for the domain's queues is outstanding. -/
def State.movesDone (s : State) (d : Nat) : Bool :=
  s.queues.all fun p => queueDomain p.1 != d || p.2.reads.all fun r => !r.open'

/-- Step 7 done: no engine waits for a host-window read issued by the domain. -/
def State.readsDone (s : State) (d : Nat) : Bool :=
  s.engines.all fun p => match p.2.wait with | .host h => h.fn.toNat != d | _ => true

/-- Step 6: the posts that the domain's slots have issued are performed at their homes. -/
def State.performPosts (s : State) (d : Nat) : State :=
  (List.finRange 32).foldl (fun s e =>
    (s.eng e).posts.foldl (fun s p => if s.owner p.slot.toNat = d then s.performQueue p.home else s) s) s

/-- What a function-level reset does once the domain is QUIESCED (R38, R39, R392): queues disabled, the function reset,
FLRQ, and LD0's event. -/
def State.finishFlr (s : State) (d : Nat) : State :=
  let off (p : Nat × Queue) : Nat × Queue :=
    if queueDomain p.1 = d then (p.1, { p.2 with cfg := setField p.2.cfg 0 1 0, reads := [], oq := [] }) else p
  let s := { s with queues := (s.queues.map off).filter fun p => p.2 ≠ Queue.reset }
  let s := (s.modFn d PcieFn.flr).modDom d fun x => { x with flrq := true }
  ((s.setFlrActive d false).fire (0x11300 + d)).send (.flrDone (BitVec.ofNat 8 d))

/-! ### The erase sequence (R40) -/

/-- Step 1: pending vectors discarded, banks zeroed, slots IDLE, wake latches cleared (R196). DESIGN CHOICE: LASTVEC and XLVL
keep their values, since R33 and R40 name neither. -/
def State.eraseSlots (s : State) (d : Nat) : State :=
  (s.slotsOf d).foldl (fun s i =>
    (s.modBank i fun _ => default).modSlot i fun x =>
      { x with pend := 0, state := .idle, qstop := false, nest := false, heldExc := none, deferred := [], wake := false }) s

/-- The BTB entries that a slot wrote are cleared (R33). -/
def State.clearBtb (s : State) (i : Nat) : State :=
  let keep (p : Nat × List BtbEntry) : Option (Nat × List BtbEntry) :=
    let l := p.2.filter fun y => y.writer.toNat != i % 8
    if l = [] then none else some (p.1, l)
  s.modEng (slotEng i) fun x => { x with btb := x.btb.filterMap keep }

/-- A new scrambling secret for a slot (R33, R40). -/
def State.newSecret (s : State) (i : Nat) : State :=
  let (v, s) := s.draw
  s.modSlot i fun x => { x with secret := v }

/-- Step 2: BTB entries, secrets and TLB entries of the domain. -/
def State.erasePredictions (s : State) (d : Nat) : State :=
  ((s.slotsOf d).foldl (fun s i => (s.clearBtb i).newSecret i) s).tlbDrop fun t => t.dom.toNat == d

/-- Every queue of a domain disabled, with its fields 0. -/
def State.dropQueues (s : State) (d : Nat) : State := { s with queues := s.queues.filter fun p => queueDomain p.1 != d }

/-- Step 3: queue contexts zeroed, root entry cleared. -/
def State.eraseQueues (s : State) (d : Nat) : State :=
  (s.dropQueues d).modDom d fun x => { x with root := none }

/-- The frames locked to a domain whose key can be read (R40, R589). -/
def State.framesOf (s : State) (d : Nat) : List Nat :=
  (s.mem.keys.filter fun p => p.2.lock.toNat == d && !s.keyUnreadable (p.1 * 4096)).map (·.1)

/-- A list without repeats, first occurrences kept. -/
def withoutRepeats {α : Type} [DecidableEq α] : List α → List α
  | [] => []
  | x :: r => x :: (withoutRepeats r).filter (· ≠ x)

/-- The erase reads the key of every frame, and finds the errors of the key array and of the key store (R248, R589). -/
def State.readKeys (s : State) : State :=
  (s.mem.errs.filter fun p => decide (2 ^ 40 ≤ p.1)).foldl (fun s p => s.demandRead p.1 0) s

/-- The key-array lines that cannot be read (R589). -/
def State.lostKeyLines (s : State) : List Nat := (s.mem.keyPoison.filter fun p => p.2 && decide (p.1 < 2 ^ 41)).map (·.1)

/-- A granule of a channel and a DRAM frame's place in it. -/
def State.granOfFrame (s : State) (f : Nat) : Fin 2 × Nat :=
  let (m, o) := s.channelOf (f * 4096)
  (m, o / 2 ^ 20)

/-- Every one of the 256 frames of the granule of `f` is among `fs` (R40 step 4). -/
def State.wholeGranule (s : State) (fs : List Nat) (f : Nat) : Bool :=
  let same (x : Nat) : Bool := s.paClass (x * 4096) == .dram && s.granOfFrame x == s.granOfFrame f
  same f && (fs.filter same).length == 256

/-- Memory in which frame `f` holds zeros and no poison; pending read errors of its lines are gone with the write. -/
def Memory.zeroFrame (m : Memory) (f : Nat) : Memory :=
  { m with bytes := tdrop m.bytes fun a => a / 4096 == f, poison := tdrop m.poison fun l => l / 64 == f,
           stale := tdrop m.stale fun l => l / 64 == f, errs := tdrop m.errs fun l => l / 64 == f }

/-- One frame zeroed: cached copies are dropped; a frame outside whole granules is written line by line (R356). -/
def State.zeroFrame (s : State) (whole : Bool) (f : Nat) : State :=
  let lines := upFrom (f * 64) 64
  let s := lines.foldl State.dropCopies s
  let s := if whole || s.paClass (f * 4096) != .dram then s else lines.foldl (fun s l => (s.writeIntent l).2) s
  { s with mem := s.mem.zeroFrame f }

/-- A granule returns to UNTOUCHED. -/
def State.untouch (s : State) (m : Fin 2) (g : Nat) : State :=
  s.modDmc m fun d => { d with touched := tset d.full d.touched g false, trackers := d.trackers.filter fun t => t.gran != g }

/-- Steps 4 and 5: the frames zeroed, their keys LOCK 0 PRIVATE, their TLB entries removed; a record for each key line
that cannot be read (R40, R589). The keys have been read (`State.readKeys`). -/
def State.eraseFrames (s : State) (d : Nat) : State :=
  let fs := s.framesOf d
  let lost := s.lostKeyLines
  let whole := fs.filter fun f => s.wholeGranule fs f
  let s := fs.foldl (fun s f => s.zeroFrame (whole.contains f) f) s
  let s := whole.foldl (fun s f => let (m, g) := s.granOfFrame f; s.untouch m g) s
  let s := fs.foldl (fun s f => s.setKey f default) s
  let s := s.tlbDrop fun t => fs.contains t.frame.toNat
  lost.foldl (fun s l => s.logRec
    { seq := 0, sev := 1, kind := 1, dom := 0, origin := sourceOrigin (s.memSource l), time := s.pcm.chrono,
      detail := memDetail (recPaddr l) (s.memSource l) 4 0 0 0 none 0, count := 1, flags := 0 }) s

/-- The domain that the running DOMAIN_DESTROY names, if that is the command in progress. -/
def State.destroying (s : State) : Option Nat :=
  match s.keeper.running with
  | some r => if r.pkt.opcode = 0x0302 ∧ r.status = 0 then some (fieldLE r.pkt.data 0 1) else none
  | none => none

/-- The op journal's STEP, with PROG 0 (R491). -/
def State.journalStep (s : State) (step : Nat) : State :=
  { s with pcm := { s.pcm with opj := setField (setField s.pcm.opj 16 8 step) 32 32 0 } }

/-- Stores and posts that were checked before the erase begins are performed before it: every store buffer drains, and every
home performs the posts that have arrived there (R41). -/
def State.settleWrites (s : State) : State :=
  let s := (List.finRange 32).foldl (fun s e =>
    if (s.eng e).sb.any (fun y => y.opened || y.held) then s else s.drain e (s.eng e).sb.length) s
  (List.finRange 40).foldl State.performQueue s

/-- DESTROYING, and steps 1 to 3 of the erase sequence (R40, R41). -/
def State.beginErase (s : State) (d : Nat) : State :=
  ((((s.settleWrites.setDomState d .destroying).eraseSlots d).erasePredictions d).eraseQueues d).journalStep 4

/-- The quiesce sequence of domain `d` ends when nothing of it is in progress any more: QUIESCED, then what waits for it,
a function-level reset or a destruction (R34, R38, R40). -/
def State.settle (s : State) (d : Nat) : State :=
  if (s.dom d).state = .quiescing ∧ s.slotsStopped d = true ∧ s.movesDone d = true ∧ s.readsDone d = true then
    let s := (s.performPosts d).setDomState d .quiesced
    let s := if s.flrActive d then s.finishFlr d else s
    if s.destroying = some d then s.beginErase d else s
  else s

/-- Every domain's quiesce sequence that can end now ends. -/
def State.settleAll (s : State) : State := (upFrom 1 255).foldl State.settle s

end Sys2Proof.Machine
end

