-- ==== Sys2Proof/Machine/Compass.lean ====
section
/-! DEFINITION. Compass (10): routing, event entries with late arrival, held and deferred exceptions, and QSTOP (R274 to
R292). -/

namespace Sys2Proof.Machine

/-- The vector entered next: the first pending one after LASTVEC, round-robin (R280). -/
def Slot.nextVector (x : Slot) : Option Nat :=
  let last := x.lastvec.toNat
  (upFrom (last + 1) (63 - last) ++ upFrom 16 (last - 15)).find? fun v => bit x.pend v

/-- The exception that a slot holds for delivery: the one latched at an interruption point, else the oldest deferred
posting exception; and the slot without it (R223, R289). -/
def Slot.takeExc (x : Slot) : Option (Exc × Slot) :=
  match x.heldExc, x.deferred with
  | some y, _ => some (y, { x with heldExc := none })
  | none, y :: r => some (y, { x with deferred := r })
  | none, [] => none

/-- The exception held for level `n` is delivered under R287; the running level gives up the engine (R279, R289). -/
def State.deliverHeld (s : State) (e : Eng) (n : Fin 8) : State :=
  let i := slotOf e n.val
  match (s.slot i).takeExc with
  | none => s
  | some (x, y) =>
    let s := match s.running e with | some m => if m = n then s.leave e else (s.leave e).displace e m | none => s.leave e
    (s.modSlot i fun _ => y).deliver e n x

/-- An entry into level `n` through vector `v` commits (R281, R283). -/
def State.enterEvent (s : State) (e : Eng) (n : Fin 8) (v : Nat) : State :=
  let i := slotOf e n.val
  let psw := s.entryPsw e n.val v
  let src := (s.running e).getD n
  let s := match s.running e with | some m => (s.leave e).displace e m | none => s.leave e
  let s := s.modSlot i fun x =>
    { x with pend := x.pend &&& ~~~(BitVec.ofNat 64 (2 ^ v)), lastvec := BitVec.ofNat 6 v, state := .active, nest := false }
  let s := s.modBank i fun b => { b with psw := psw, epsw := psw, estat := mkEstat 1 0 0 src.val v, eaddr := 0 }
  ((s.tick e 4 1).cycles e (pswFTM psw) 12).modEng e fun x => { x with lineBuf := [] }

/-- The entry into level `n` that is due: a held exception first; else the vector named, abandoned when its vector-table
entry is not VALID (R279, R282). -/
def State.enterLevel (s : State) (e : Eng) (n : Fin 8) : State :=
  let i := slotOf e n.val
  let x := s.slot i
  if x.xexc then s.deliverHeld e n
  else match x.nextVector with
    | none => s
    | some v =>
      if s.validAt e n.val v then s.enterEvent e n v
      else (s.modSlot i fun x => { x with pend := x.pend &&& ~~~(BitVec.ofNat 64 (2 ^ v)) }).dropEvent i

/-- A vector becomes pending in a slot of the engine while an entry is in progress (R284). -/
def State.lateArrival (s : State) (late : Option (BitVec 8 × BitVec 6)) : State :=
  match late with
  | none => s
  | some (slot, v) => s.pendVector slot.toNat v.toNat

/-- EVENT_ENTRY (R279 to R284): at an interruption point, the entry that is due; a more urgent vector that arrives
meanwhile abandons an event entry, and is entered instead. -/
def execEventEntry (e : Eng) (late : Option (BitVec 8 × BitVec 6)) (s : State) : Host.Outcome State Fault Refusal :=
  match s.dueLevel e with
  | none => .next s
  | some n =>
    if !(s.eng e).atPoint || (s.eng e).postCheck.isSome then .next s
    else if (s.slot (slotOf e n.val)).xexc then .next (s.enterLevel e n)
    else
      let s' := s.lateArrival late
      match s'.dueLevel e with
      | none => .next s'
      | some m => .next ((if m < n then s'.tick e 6 1 else s').enterLevel e m)

/-- EVENT_ROUTED: a source fires, and Compass routes it (R274 to R276). -/
def execEventRouted (source : BitVec 20) (s : State) : Host.Outcome State Fault Refusal := .next (s.fire source.toNat)

/-- The level whose held or deferred exception may be delivered now: the running one, at an interruption point at which
nothing more urgent is due and the quiesce sequence does not stop it (R289, R292). -/
def State.deliverable (s : State) (e : Eng) : Option (Fin 8) :=
  let x := s.eng e
  match s.running e with
  | none => none
  | some n =>
    let i := slotOf e n.val
    if s.clusterRuns e && !x.checkstop && x.atPoint && x.postCheck.isNone && (s.dueLevel e).isNone && (s.slot i).xexc
        && (s.dom (s.owner i)).state != .quiescing then some n else none

/-- HELD_EXCEPTION_DELIVERY: the held exception of the level that runs is delivered before any instruction of it (R289). -/
def execHeldExceptionDelivery (e : Eng) (s : State) : Host.Outcome State Fault Refusal :=
  match s.deliverable e with
  | none => .next s
  | some n => .next (s.deliverHeld e n)

/-- DEFERRED_POSTING_EXCEPTION: the oldest failed unwaited post of the running slot raises its exception at this boundary
(R223); an exception held there goes first. -/
def execDeferredPostingException (e : Eng) (s : State) : Host.Outcome State Fault Refusal :=
  match s.deliverable e with
  | none => .next s
  | some n =>
    let x := s.slot (slotOf e n.val)
    .next (if x.heldExc.isSome || x.deferred.isEmpty then s else s.deliverHeld e n)

/-- QSTOP_SET: the quiesce sequence stops the running level of a QUIESCING domain at its interruption point (R34,
R292). Sequences whose last slot an entry or a machine check has stopped go on. -/
def execQstopSet (e : Eng) (s : State) : Host.Outcome State Fault Refusal :=
  match s.running e with
  | none => .next s.settleAll
  | some n =>
    let i := slotOf e n.val
    if (s.dom (s.owner i)).state = .quiescing ∧ (s.eng e).atPoint = true then
      .next (((s.leave e).modSlot i fun x => { x with qstop := true }).settle (s.owner i))
    else .next s.settleAll

end Sys2Proof.Machine
end

