-- ==== Sys2Proof/Machine/Operands.lean ====
section
/-! DEFINITION. Operand forms of the macro instructions: effective addresses (R91), loads and stores of normal memory
through the store buffer (R102, R226 to R228, R337), device accesses (R230, R389, R551), and operands in registers. -/

namespace Sys2Proof.Machine

/-! ### Effective addresses (R91) -/

/-- G[bs] plus a displacement of `w` bits, as a 64-bit number. -/
def baseDisp (b : Bank) (bs : BitVec 4) (w : Nat) (disp : BitVec 32) : Word := b.g[ix bs] + sext w disp.toNat

/-- DISP has 32 bits in 12 bytes and 20 otherwise (R89). -/
def dispWidth (l : Len) : Nat := if l = .l12 then 32 else 20

end Sys2Proof.Machine

namespace Sys2Proof

open Sys2Proof.Machine

/-- EA of a format-B operand (R91). -/
def FmtB.ea (x : FmtB) (b : Bank) : Nat :=
  let a := baseDisp b x.bs (dispWidth x.len) x.disp
  (if x.ix = 0 then a else a + b.g[Machine.ix x.ix]).toNat

/-- EA of a format-D operand (R91). -/
def FmtD.ea (x : FmtD) (b : Bank) : Nat :=
  let a := baseDisp b x.bs (dispWidth x.len) x.disp
  (if x.ix = 0 then a else a + b.g[Machine.ix x.ix]).toNat

/-- EA of a format-X-B operand (R91). -/
def FmtXB.ea (x : FmtXB) (b : Bank) : Nat := (baseDisp b x.bs (dispWidth x.len) x.disp).toNat

/-- EA1 of a format-C instruction (R91). -/
def FmtC.ea1 (x : FmtC) (b : Bank) : Nat := (baseDisp b x.b1 32 x.dp1).toNat

/-- EA2 of a format-C instruction (R91). -/
def FmtC.ea2 (x : FmtC) (b : Bank) : Nat := (baseDisp b x.b2 32 x.dp2).toNat

/-- The size code of LD, ST, FLD and FST: MOD[5:4] in 6 bytes, MOD[1:0] otherwise (R175). -/
def FmtB.sizeCode (x : FmtB) : Nat := if x.len = .l6 then (field x.mod 4 2).toNat else (field x.mod 0 2).toNat

/-- Every modifier bit beyond the size code is 0 (R175). -/
def FmtB.sizeOnly (x : FmtB) : Bool :=
  if x.len = .l6 then true else field x.mod 2 4 == 0 && x.mod2 == 0

end Sys2Proof

namespace Sys2Proof.Machine

/-! ### The store buffer (R102, R337) -/

/-- The index of the youngest entry that holds one of the addresses, among `sb` numbered from `i`. -/
def youngest (addrs : List Nat) : List SbEntry → Nat → Option (Nat × SbEntry)
  | [], _ => none
  | y :: r, i =>
    match youngest addrs r (i + 1) with
    | some z => some z
    | none => if addrs.any y.holds then some (i, y) else none

/-- A store finds all 16 entries occupied: the oldest drains, and the store waits up to 4 cy (R101, R102). -/
def State.makeRoom (s : State) (e : Eng) : State :=
  let n := Config.storeBufferWait s.draws % 5
  let s := ({ s with draws := s.draws + 1 }.drainOne e).tick e 15 n
  s.waitTerm e n

/-- Bytes stored by engine `e` in one 16-byte block: they join the open entry of the block, or take a new entry, for which
the oldest drains when all 16 are occupied. -/
def State.enterBlock (s : State) (e : Eng) (pa : Nat) (l : List Byte) (held : Bool) : State :=
  let blk := pa / 16
  let put (y : SbEntry) : SbEntry :=
    (List.range l.length).foldl (fun y i =>
      let k := pa % 16 + i
      { y with data := setField y.data (8 * k) 8 (lget 0 l i).toNat, mask := setField y.mask k 1 1 }) y
  let sb := (s.eng e).sb
  match sb.getLast? with
  | some y =>
    if y.opened && y.block == blk then s.modEng e fun x => { x with sb := sb.dropLast ++ [put y] }
    else
      let s := s.modEng e fun x => { x with sb := x.sb.map fun y => { y with opened := false } }
      let s := if sb.length < 16 then s else s.makeRoom e
      s.modEng e fun x =>
        { x with sb := x.sb ++ [put { block := blk, data := 0, mask := 0, opened := true, held := held }] }
  | none => s.modEng e fun x =>
      { x with sb := [put { block := blk, data := 0, mask := 0, opened := true, held := held }] }

/-- Bytes stored from `pa` up enter the store buffer, block by block. -/
def State.enterStore (s : State) (e : Eng) (held : Bool) : Nat → Nat → List Byte → State
  | 0, _, _ => s
  | fuel + 1, pa, l =>
    if l = [] then s else
    let k := 16 - pa % 16
    (s.enterBlock e pa (l.take k) held).enterStore e held fuel (pa + k) (l.drop k)

/-! ### Normal memory -/

/-- The lines of an operand's physical pieces. -/
def linesOfPieces (ps : List (Nat × Nat)) : List Nat := ps.flatMap fun p => linesOf p.1 p.2

/-- The addresses of an operand's physical pieces. -/
def addrsOf (ps : List (Nat × Nat)) : List Nat := ps.flatMap fun p => upFrom p.1 p.2

/-- Some piece lies in device memory. -/
def State.anyDevice (s : State) (ps : List (Nat × Nat)) : Bool := ps.any fun p => (s.paClass p.1).isDevice

/-- A read of normal memory by engine `e` at pieces that have passed their checks: forwarded from the store buffer, or
read from the data cache or the home once overlapping entries have drained (R102, R210, R226). Poison is consumed
(R350). -/
def readPieces (e : Eng) (ea : Nat) (ps : List (Nat × Nat)) : M (List Byte) := do
  let addrs := addrsOf ps
  match youngest addrs ((← get).eng e).sb 0 with
  | some (i, y) =>
    if addrs.all y.holds && secded8 y.err != .uncorrectable then return addrs.map y.byte
    modify fun s => (((s.drain e (i + 1)).tick e 17 (4 * (i + 1))).waitTerm e (4 * (i + 1)))
  | none => pure ()
  modify fun s => ps.foldl (fun s p => s.performBefore p.1 p.2) s
  modify (·.linesAccess e (linesOfPieces ps) false false)
  match ← ask (fun s => (linesOfPieces ps).find? fun l => tget false s.mem.poison l) with
  | some l => throw (.mcheck 0x10 ea (l * 64))
  | none => pure ()
  ask fun s => addrs.map s.byteAt

/-- A write of normal memory by engine `e` at pieces that have passed their checks: it pays its line term and enters the
store buffer (R102). -/
def writePieces (e : Eng) (ps : List (Nat × Nat)) (l : List Byte) (held crossed : Bool) : M Unit := do
  modify (·.linesAccess e (linesOfPieces ps) true crossed)
  modify fun s => (ps.foldl (fun (a : State × List Byte) p =>
    (a.1.enterStore e held (p.2 / 16 + 2) p.1 (a.2.take p.2), a.2.drop p.2)) (s, l)).1

/-! ### Device memory (R230, R389, R551) -/

/-- The domain whose requests an engine issues: PSW.KEY (R383). -/
def engineFn (c : Cx) : M Nat := return pswKEY (← getPsw c)

/-- The host bus address of an offset of the host window (R389). -/
def State.busAddr (s : State) (off : Nat) : Word := BitVec.ofNat 64 (s.hif.hwhi.toNat * 2 ^ 43 + off)

/-- A device access waits for the store buffer, and is counted (R101, R230, R559). -/
def deviceOrder (e : Eng) : M Unit := modify fun s => (s.drainAll e).tick e 21 1

/-- The first `n` bytes of a host-window access that one read may carry: at most 16, in one 4 KiB host page (R389). -/
def readSize (bus : Word) (n : Nat) : Nat := min n (min 16 (4096 - bus.toNat % 4096))

/-- The read in progress of engine `e`'s host-window load leaves, while the part has fewer than 256 non-posted requests
outstanding (R381); otherwise it waits. -/
def State.issueLoad (s : State) (e : Eng) : State :=
  match (s.eng e).wait with
  | .host h =>
    if h.issued || 256 ≤ s.outstanding then s
    else ((s.count (hifBase + 0x4008 + 56) 1).send (.hostRead h.fn h.bus h.size)).modEng e fun x =>
      { x with wait := .host { h with issued := true, since := s.pcm.chrono } }
  | _ => s

/-- A load of `n` bytes at a device address: the bytes, or nothing when the engine now waits for the host's completion,
whose data goes to `dest` (R389, R391). -/
def deviceLoad (c : Cx) (ea pa n : Nat) (dest : LoadDest) : M (Option (List Byte)) := do
  deviceOrder c.e
  match (← get).paClass pa with
  | .csr off =>
    modify (·.waitTerm c.e 96)
    return some (natLE n ((← get).csrRead off n))
  | .host off =>
    modify (·.tick c.e 22 1)
    let fn ← engineFn c
    let bus := (← get).busAddr off
    if (← get).mayIssue fn then
      let k := readSize bus n
      modify fun s => (s.modEng c.e fun x =>
        { x with wait := .host { bus := bus, size := k, issued := false, got := [], left := n - k, start := s.pcm.chrono,
                                 fn := BitVec.ofNat 8 fn, dest := dest, ilen := BitVec.ofNat 4 c.len,
                                 va := BitVec.ofNat 64 ea, since := s.pcm.chrono } }).issueLoad c.e
      return none
    else
      modify fun s => (s.hostRecord fn 5 0 0 bus.toNat).waitTerm c.e 96
      return some (List.replicate n 0xFF)
  | _ => return some (List.replicate n 0)

/-- A store of bytes at a device address (R230, R389, R391). -/
def deviceStore (c : Cx) (pa : Nat) (l : List Byte) : M Unit := do
  deviceOrder c.e
  match (← get).paClass pa with
  | .csr off => modify fun s => (s.waitTerm c.e 96).csrWrite (.engine c.e) off l.length (BitVec.ofNat 64 (leNat l))
  | .host off =>
    modify (·.tick c.e 22 1)
    let fn ← engineFn c
    let bus := (← get).busAddr off
    if (← get).mayIssue fn then
      modify fun s => (s.count (hifBase + 0x4008 + 56) 1).send (.hostWrite (BitVec.ofNat 8 fn) bus l)
    else modify (·.hostRecord fn 5 1 0 bus.toNat)
  | _ => pure ()

/-! ### Loads and stores of whole operands -/

/-- How an operand may lie in device memory (R81): not at all, or naturally aligned to a number of bytes. -/
inductive DeviceRule where
  | never
  | aligned (n : Nat)
deriving DecidableEq, Repr

/-- The pieces of an operand after every check of R81, R92 and R260. -/
def checkedPieces (c : Cx) (acc : Acc) (ea n : Nat) (rule : DeviceRule) : M (List (Nat × Nat)) := do
  let ps ← pieces c.e c.slot acc ea n
  if (← get).anyDevice ps then
    match rule with
    | .never => specification
    | .aligned k => if ea % k ≠ 0 then throw (.exc 0x24 0 ea)
  return ps

/-- A load of `n` bytes at `ea`: the bytes, or nothing when the engine waits for the host (R389). -/
def load (c : Cx) (ea n : Nat) (rule : DeviceRule) (dest : LoadDest) : M (Option (List Byte)) := do
  modify (·.awaitPosts c.e)
  let ps ← checkedPieces c .read ea n rule
  match ps, (← get).anyDevice ps with
  | (pa, _) :: _, true => deviceLoad c ea pa n dest
  | _, _ => return some (← readPieces c.e ea ps)

/-- A load of an operand that may not lie in device memory. -/
def loadNormal (c : Cx) (ea n : Nat) : M (List Byte) := do
  modify (·.awaitPosts c.e)
  let ps ← checkedPieces c .read ea n .never
  readPieces c.e ea ps

/-- A store of bytes at `ea`. -/
def store (c : Cx) (ea : Nat) (l : List Byte) (rule : DeviceRule) : M Unit := do
  modify (·.awaitPosts c.e)
  let ps ← checkedPieces c .write ea l.length rule
  match ps, (← get).anyDevice ps with
  | (pa, _) :: _, true => deviceStore c pa l
  | _, _ => writePieces c.e ps l false false

/-! ### Field checks (R90, R96) -/

/-- The length of an instruction is one that its opcode permits. -/
def lengthIn (l : Len) (ls : List Len) : M Unit := require (ls.contains l)

/-- A register field names a D or P register: 0 to 7 (R90). -/
def lowReg (r : BitVec 4) : M Unit := require (decide (r.toNat ≤ 7))

/-- A field marked zero is zero (R90). -/
def zeroField {n : Nat} (x : BitVec n) : M Unit := require (x == 0)

/-- The field names an even register (R52, R177, R202). -/
def evenReg (r : BitVec 4) : M Unit := require (!bit r 0)

/-- The second source of a two-source integer operation: G(RC), or IMM16 in 6 bytes with RC zero (R175). -/
def src2 (c : Cx) (x : FmtA) (signExtend : Bool) : M Word := do
  if x.len = .l6 then
    return if signExtend then sext 16 x.imm.toNat else x.imm.setWidth 64
  else getG c x.rc

/-- The checks of a two-source operation: 4 or 6 bytes, MOD zero, RC zero in 6 bytes (R175). -/
def twoSource (x : FmtA) : M Unit := do
  lengthIn x.len [.l4, .l6]
  zeroField x.mod
  if x.len = .l6 then zeroField x.rc

/-- A bit of the privileged state is required (R60). -/
def needPriv (c : Cx) : M Unit := do
  if !pswPRIV (← getPsw c) then privileged

end Sys2Proof.Machine
end

