-- ==== Sys2Proof/Machine/Strings.lean ====
section
/-! DEFINITION. Segments and commit points of the interruptible instructions, and the string instructions MVS, MVP, CLS,
CLP, TRN, TRT, SCN and CRC (06, R134 to R158, R172 to R174). -/

namespace Sys2Proof.Machine

/-! ### Segments and commit points (R68, R136, R137, R174) -/

/-- What a segment leaves: the work complete, a commit point with the resume state IPS and the
number of bytes read past a result, or a wait for the host. -/
inductive SegEnd where
  | done
  | more (ips : Nat) (past : Nat := 0)
  | waits
deriving DecidableEq, Repr

/-- The engine spends `n` cycles of the instruction's own time. -/
def spend (c : Cx) (n : Nat) : M Unit := do
  let p ← getPsw c
  modify (·.cycles c.e (pswFTM p) n)

/-- A commit point before the last: IPR and IPS, the stores of the segment released, 4 cy (R68, R136). `past` is the number
of bytes read past a result, which the record holds (R156, R327). -/
def commitPoint (c : Cx) (ips past : Nat) : M Unit := do
  modBank c fun b =>
    { b with psw := withIP b.psw true ips, commit := { b.commit with readPast := BitVec.ofNat 32 past } }
  modify fun s => (s.seal c.e false).tick c.e 3 1
  spend c 4

/-- Segments until the work is complete, it waits, or the `stop`-th commit point, at which an interruption pauses the
instruction; 0 stands for no interruption. -/
def segments (c : Cx) (stop : Nat) (seg : M SegEnd) : Nat → Nat → M Done
  | 0, _ => return .paused
  | fuel + 1, k => do
    match ← seg with
    | .done =>
      modify (·.tick c.e 3 1)
      return .seq
    | .waits => return .waits
    | .more ips past =>
      commitPoint c ips past
      if k + 1 = stop then return .paused
      segments c stop seg fuel (k + 1)

/-- PSW.IPR: the instruction resumes. -/
def resuming (c : Cx) : M Bool := return pswIPR (← getPsw c)

/-- PSW.IPS as a number, 0 on a fresh start. -/
def resumeState (c : Cx) : M Nat := do
  let p ← getPsw c
  return if pswIPR p then (pswIPS p).toNat else 0

/-- The fixed term of a count, before any access of a fresh start (R174). -/
def fixedTerm (c : Cx) (n : Nat) : M Unit := do
  if !(← resuming c) then spend c n

/-- Units of a segment, `u` of them in each cycle: `f i k` makes the accesses of the `k` units from unit `i` on, which fall
in one cycle (R174). DEDUCED: the units of one cycle are accessed together, so an access may span two lines or two frames
(R101, R140). -/
def perCycle (c : Cx) (u : Nat) (f : Nat → Nat → M Unit) : Nat → Nat → Nat → M Unit
  | 0, _, _ => pure ()
  | fuel + 1, i, n => do
    if n = 0 then return ()
    let k := min u n
    spend c 1
    f i k
    perCycle c u f fuel (i + k) (n - k)

/-- C(k) of R173. -/
def commitTerm (k : Nat) : Nat := 4 * ((k + 63) / 64 - 1)

/-- ⌈k/u⌉. -/
def unitsTerm (k u : Nat) : Nat := (k + u - 1) / u

/-! ### Registers and checks (R48, R135, R139, R144) -/

/-- A length register: bits [31:0] of G(r) (R48). -/
def lenG (c : Cx) (r : BitVec 4) : M Nat := return (field (← getG c r) 0 32).toNat

/-- The length register of a bank. -/
def Bank.len (b : Bank) (r : BitVec 4) : Nat := (field b.g[ix r] 0 32).toNat

/-- G(r) := n, for a length or an address. -/
def putG (c : Cx) (r : BitVec 4) (n : Nat) : M Unit := setG c r (BitVec.ofNat 64 n)

/-- An address register as a number. -/
def addrG (c : Cx) (r : BitVec 4) : M Nat := return (← getG c r).toNat

/-- All registers differ from one another (R135). -/
def distinct : List (BitVec 4) → Bool
  | [] => true
  | r :: rs => !rs.contains r && distinct rs

/-- The registers of a string instruction, with RC a pair or not, checked under R135. -/
def stringRegs (x : FmtA) (pair : Bool) (extra : List (BitVec 4)) : M Unit := do
  if pair then evenReg x.rc
  require (distinct ([x.ra, x.rb, x.rc] ++ (if pair then [x.rc + 1] else []) ++ extra))

/-- IPS holds a value that the instruction allows on resume (R138, R139). -/
def allowedState (c : Cx) (ok : List Nat) : M Unit := do require (ok.contains (← resumeState c))

/-- Two ranges share a byte. -/
def overlap (a n b m : Nat) : Bool := n != 0 && m != 0 && decide (a < b + m) && decide (b < a + n)

/-! ### Accesses (R140, R141) -/

/-- The pieces of a string access, frame by frame; a device frame raises the specification exception with the address
that the access needed in it. -/
def stringPieces (c : Cx) (acc : Acc) : List (Nat × Nat) → M (List (Nat × Nat))
  | [] => return []
  | (va, n) :: r => do
    let (pa, _) ← translate c.e c.slot acc va
    if ((← get).paClass pa).isDevice then throw (.exc 0x21 0 va)
    let rest ← stringPieces c acc r
    return (pa, n) :: rest

/-- A read of a string instruction. -/
def stringRead (c : Cx) (va n : Nat) : M (List Byte) := do
  modify (·.awaitPosts c.e)
  let ps ← stringPieces c .read (pagePieces va n)
  readPieces c.e va ps

/-- One byte of an operand or of a table. -/
def stringByte (c : Cx) (va : Nat) : M Byte := return lget 0 (← stringRead c va 1) 0

/-- A store of a string instruction, held for the commit point or not (R142). -/
def stringWrite (c : Cx) (va : Nat) (l : List Byte) (held : Bool) : M Unit := do
  modify (·.awaitPosts c.e)
  let ps ← stringPieces c .write (pagePieces va l.length)
  writePieces c.e ps l held false

/-- The table bytes that a list of bytes selects, read one by one (R154). -/
def tableBytes (c : Cx) (table : Nat) : List Byte → M (List Byte)
  | [] => return []
  | b :: r => do
    let v ← stringByte c (table + b.toNat)
    return v :: (← tableBytes c table r)

/-! ### MVS (R147 to R149) -/

/-- The move runs in descending order (R148). -/
def mvsDescends (c : Cx) (ra rb rc : BitVec 4) : M Bool := do
  if ← resuming c then return (← resumeState c) % 2 == 1
  let (d, a, n) := (← addrG c ra, ← addrG c rb, ← lenG c rc)
  return overlap d n a n && decide (a < d)

/-- The registers of MVS after `k` bytes (R148). -/
def mvsAdvance (c : Cx) (ra rb rc : BitVec 4) (desc : Bool) (k : Nat) : M Unit := do
  let n ← lenG c rc
  if !desc then
    putG c ra ((← addrG c ra) + k)
    putG c rb ((← addrG c rb) + k)
  putG c rc (n - k)

/-- What follows the commit of a segment of MVS. -/
def mvsEnd (c : Cx) (rc : BitVec 4) (desc : Bool) : M SegEnd := do
  return if (← lenG c rc) = 0 then .done else .more (b2n desc)

/-- The accesses of one cycle of MVS with BYTE = 0: `k` bytes from byte `i` of the segment on, or from its end (R148). -/
def mvsCycle (c : Cx) (d a n : Nat) (desc held : Bool) (i k : Nat) : M Unit := do
  let o := if desc then n - i - k else i
  stringWrite c (d + o) (← stringRead c (a + o) k) held

/-- A segment of MVS with BYTE = 0. -/
def mvsSegment (c : Cx) (x : FmtA) (desc held : Bool) : M SegEnd := do
  let (d, a, n) := (← addrG c x.ra, ← addrG c x.rb, ← lenG c x.rc)
  let k := min 64 n
  perCycle c 8 (mvsCycle c d a n desc held) 8 0 k
  mvsAdvance c x.ra x.rb x.rc desc k
  mvsEnd c x.rc desc

/-- The byte of MVS with BYTE = 1 at its destination, and the commit of its segment (R149). -/
def mvsByteStore (c : Cx) (ra rb rc : BitVec 4) (desc : Bool) (pa : Nat) (b : Byte) : M SegEnd := do
  if ((← get).paClass pa).isDevice then deviceStore c pa [b]
  else do
    modify (·.awaitPosts c.e)
    writePieces c.e [(pa, 1)] [b] false false
  mvsAdvance c ra rb rc desc 1
  mvsEnd c rc desc

/-- The source and destination of the next byte of MVS with BYTE = 1, both frames checked (R149). -/
def mvsByteFrames (c : Cx) (ra rb rc : BitVec 4) (desc : Bool) : M (Nat × Nat × Nat) := do
  let (d, a, n) := (← addrG c ra, ← addrG c rb, ← lenG c rc)
  let o := if desc then n - 1 else 0
  let (pa, _) ← translate c.e c.slot .read (a + o)
  let (pd, _) ← translate c.e c.slot .write (d + o)
  return (a + o, pa, pd)

/-- A segment of MVS with BYTE = 1: one byte. -/
def mvsByteSegment (c : Cx) (ra rb rc : BitVec 4) (desc : Bool) : M SegEnd := do
  if (← lenG c rc) = 0 then
    mvsAdvance c ra rb rc desc 0
    return .done
  spend c 1
  modify (·.awaitPosts c.e)
  let (va, pa, pd) ← mvsByteFrames c ra rb rc desc
  if ((← get).paClass pa).isDevice then
    match ← deviceLoad c va pa 1 (.mvs ra rb rc pd) with
    | none => return .waits
    | some l => mvsByteStore c ra rb rc desc pd (lget 0 l 0)
  else
    let l ← readPieces c.e va [(pa, 1)]
    mvsByteStore c ra rb rc desc pd (lget 0 l 0)

/-- MVS (R147 to R149). -/
def execMvs (e : Eng) (x : FmtA) (stop : Nat) (s : State) : Host.Outcome State Fault Refusal :=
  macroNext e x.pred x.len
    { interruptible := true
      selfTimed := true
      count := fun c s =>
        let k := (s.bank c.slot).len x.rc
        if bit x.mod 0 then 5 + k + 4 * (k - 1) else 5 + unitsTerm k 8 + commitTerm k
      body := fun c => do
        lengthIn x.len [.l4]
        zeroField (field x.mod 1 5)
        stringRegs x false []
        allowedState c [0, 1]
        let n ← lenG c x.rc
        addressRange (← addrG c x.ra) n
        addressRange (← addrG c x.rb) n
        fixedTerm c 5
        let desc ← mvsDescends c x.ra x.rb x.rc
        if bit x.mod 0 then segments c stop (mvsByteSegment c x.ra x.rb x.rc desc) (n + 1) 0
        else
          let held := overlap (← addrG c x.ra) n (← addrG c x.rb) n
          segments c stop (mvsSegment c x desc held) (n / 64 + 2) 0 } s

/-- MVS with BYTE = 1 goes on once the host has answered with a byte: it is stored, committed, and the move continues
(R149, R389). The destination frame is the one translated and checked before the read (R255). -/
def mvsResume (c : Cx) (ra rb rc : BitVec 4) (pd : Nat) (b : Byte) : M Done := do
  let n ← lenG c rc
  let desc ← mvsDescends c ra rb rc
  match ← mvsByteStore c ra rb rc desc pd b with
  | .done =>
    modify (·.tick c.e 3 1)
    return .seq
  | .waits => return .waits
  | .more ips past =>
    commitPoint c ips past
    segments c 0 (mvsByteSegment c ra rb rc desc) (n + 1) 0

/-! ### MVP (R150) -/

/-- The accesses of one cycle of MVP: source bytes while any are left, then the pad byte. -/
def mvpCycle (c : Cx) (d a m : Nat) (pad : Byte) (i k : Nat) : M Unit := do
  let l ← stringRead c (a + i) (min k (m - i))
  stringWrite c (d + i) (l ++ List.replicate (k - l.length) pad) false

/-- A segment of MVP. -/
def mvpSegment (c : Cx) (x : FmtA) : M SegEnd := do
  let (d, a) := (← addrG c x.ra, ← addrG c x.rb)
  let (n, m) := (← lenG c x.rc, ← lenG c (x.rc + 1))
  let k := min 64 n
  perCycle c 8 (mvpCycle c d a m (field x.imm 0 8)) 8 0 k
  let used := min k m
  putG c x.ra (d + k); putG c x.rc (n - k)
  putG c x.rb (a + used); putG c (x.rc + 1) (m - used)
  return if n - k = 0 then .done else .more 0

/-- MVP (R150). -/
def execMvp (e : Eng) (x : FmtA) (stop : Nat) (s : State) : Host.Outcome State Fault Refusal :=
  macroNext e x.pred x.len
    { interruptible := true
      selfTimed := true
      count := fun c s =>
        let k := (s.bank c.slot).len x.rc
        6 + unitsTerm k 8 + commitTerm k
      body := fun c => do
        lengthIn x.len [.l6]
        zeroField x.mod
        zeroField (field x.imm 8 8)
        stringRegs x true []
        allowedState c [0]
        let (d, a) := (← addrG c x.ra, ← addrG c x.rb)
        let (n, m) := (← lenG c x.rc, ← lenG c (x.rc + 1))
        addressRange d n
        addressRange a m
        require (!overlap d n a m)
        fixedTerm c 6
        let cc := if n = m then 0 else if n < m then 1 else 2
        let r ← segments c stop (mvpSegment c x) (n / 64 + 2) 0
        if r = .seq then setCC c cc
        return r } s

/-! ### CLS, SCN and TRT (R151, R153, R155, R156) -/

/-- What a scan finds at one position: CC of the result, and the function byte that TRT writes. -/
structure Hit where
  cc : Nat
  val : Nat
deriving DecidableEq, Repr

/-- An access of `n` bytes at each of the addresses. -/
def readOperands (c : Cx) (n : Nat) : List Nat → M (List (List Byte))
  | [] => return []
  | a :: r => do
    let l ← stringRead c a n
    return l :: (← readOperands c n r)

/-- The positions of one access, from `i` up, examined in order: the first hit, and the position reached. Without
fixed-time mode the scan stops at the hit. -/
def scanBytes (ftm : Bool) (test : List Byte → M (Option Hit)) (data : List (List Byte)) :
    Nat → Nat → Nat → Option (Nat × Hit) → M (Option (Nat × Hit) × Nat)
  | 0, _, i, found => return (found, i)
  | n + 1, j, i, found => do
    let h ← test (data.map fun l => lget 0 l j)
    let found := match found, h with
      | none, some h => some (i, h)
      | f, _ => f
    if found.isSome && !ftm then return (found, i + 1)
    scanBytes ftm test data n (j + 1) (i + 1) found

/-- The bytes of one cycle that are read at once: without fixed-time mode the access ends at a frame boundary, since no
frame beyond the result is reached (R156). -/
def scanTake (ftm : Bool) (addrs : List Nat) (i n : Nat) : Nat :=
  if ftm then n else addrs.foldl (fun t a => min t (4096 - (a + i) % 4096)) n

/-- The accesses of one cycle of a scan: `n` positions from `i` up. -/
def scanCycle (c : Cx) (ftm : Bool) (addrs : List Nat) (test : List Byte → M (Option Hit)) :
    Nat → Nat → Nat → Option (Nat × Hit) → M (Option (Nat × Hit) × Nat)
  | 0, i, _, found => return (found, i)
  | fuel + 1, i, n, found => do
    if n = 0 then return (found, i)
    let k := scanTake ftm addrs i n
    let data ← readOperands c k (addrs.map (· + i))
    let (found, j) ← scanBytes ftm test data k 0 i found
    if found.isSome && !ftm then return (found, j)
    scanCycle c ftm addrs test fuel (i + k) (n - k) found

/-- The cycles of one segment of a scan over `n` positions from `i` up, `u` in each cycle: the first hit, and the number of
positions read (R174). -/
def scanUnits (c : Cx) (ftm : Bool) (u : Nat) (addrs : List Nat) (test : List Byte → M (Option Hit)) :
    Nat → Nat → Nat → Option (Nat × Hit) → M (Option (Nat × Hit) × Nat)
  | 0, i, _, found => return (found, i)
  | fuel + 1, i, n, found => do
    if n = 0 then return (found, i)
    let k := min u n
    spend c 1
    let (found, j) ← scanCycle c ftm addrs test k i k found
    if found.isSome && !ftm then return (found, j)
    scanUnits c ftm u addrs test fuel (i + k) (n - k) found

/-- The addresses that registers hold. -/
def addrsG (c : Cx) : List (BitVec 4) → M (List Nat)
  | [] => return []
  | r :: rs => do
    let a ← addrG c r
    return a :: (← addrsG c rs)

/-- A segment of CLS, SCN or TRT (R136, R156). `rs` are the address registers that advance, `rc` the length register,
`test` examines the bytes of one position, and `pair` says that TRT's function byte goes to G(RC+1). -/
def scanSegment (c : Cx) (rs : List (BitVec 4)) (rc : BitVec 4) (pair : Bool) (u : Nat)
    (test : List Byte → M (Option Hit)) : M SegEnd := do
  let ftm := pswFTM (← getPsw c)
  let addrs ← addrsG c rs
  let ips ← resumeState c
  let n ← lenG c rc
  if ips % 2 = 1 then
    let past := (← getBank c).commit.readPast.toNat
    let k := min 64 (n - past)
    if !ftm || k = 0 then
      setCC c (ips / 2)
      return .done
    let _ ← scanUnits c true u (addrs.map (· + past)) test k 0 k none
    if past + k = n then
      setCC c (ips / 2)
      return .done
    return .more ips (past + k)
  let k := min 64 n
  let (found, read) ← scanUnits c ftm u addrs test k 0 k none
  let at' := match found with | some (i, _) => i | none => k
  rs.forM fun r => do putG c r ((← addrG c r) + at')
  putG c rc (n - at')
  match found with
  | some (i, h) =>
    if pair then putG c (rc + 1) h.val
    if !ftm || read = n then
      setCC c h.cc
      return .done
    return .more (1 + 2 * h.cc) (read - i)
  | none =>
    if k = n then
      if pair then putG c (rc + 1) 0
      setCC c 0
      return .done
    return .more 0

/-- The work of a scan after its checks. -/
def scanWork (c : Cx) (stop fixed : Nat) (rc : BitVec 4) (seg : M SegEnd) : M Done := do
  fixedTerm c fixed
  segments c stop seg ((← lenG c rc) / 64 + 2) 0

/-- The count of CLS and SCN, or of TRT, over the full length (R173). -/
def scanCount (b : Bank) (rc : BitVec 4) (fixed u : Nat) : Nat := fixed + unitsTerm (b.len rc) u + commitTerm (b.len rc)

/-- What CLS finds at a position: two bytes that differ (R151). -/
def clsTest (l : List Byte) : M (Option Hit) := do
  let (a, b) := (lget 0 l 0, lget 0 l 1)
  return if a = b then none else some { cc := if a.toNat < b.toNat then 1 else 2, val := 0 }

/-- What SCN finds: the byte, or with INV = 1 another byte (R153). -/
def scnTest (v : Byte) (inv : Bool) (l : List Byte) : M (Option Hit) := do
  return if (lget 0 l 0 == v) != inv then some { cc := 1, val := 0 } else none

/-- What TRT finds: a byte whose function byte is not 0 (R155). -/
def trtTest (c : Cx) (table : Nat) (l : List Byte) : M (Option Hit) := do
  let f ← stringByte c (table + (lget 0 l 0).toNat)
  return if f = 0 then none else some { cc := if f.toNat < 0x80 then 1 else 2, val := f.toNat }

/-- CLS (R151). -/
def execCls (e : Eng) (x : FmtA) (stop : Nat) (s : State) : Host.Outcome State Fault Refusal :=
  macroNext e x.pred x.len
    { interruptible := true
      selfTimed := true
      count := fun c s => scanCount (s.bank c.slot) x.rc 5 8
      body := fun c => do
        lengthIn x.len [.l4]
        zeroField x.mod
        stringRegs x false []
        allowedState c [0, 3, 5]
        let n ← lenG c x.rc
        addressRange (← addrG c x.ra) n
        addressRange (← addrG c x.rb) n
        scanWork c stop 5 x.rc (scanSegment c [x.ra, x.rb] x.rc false 8 clsTest) } s

/-- SCN (R153). -/
def execScn (e : Eng) (x : FmtA) (stop : Nat) (s : State) : Host.Outcome State Fault Refusal :=
  macroNext e x.pred x.len
    { interruptible := true
      selfTimed := true
      count := fun c s => scanCount (s.bank c.slot) x.rc 5 8
      body := fun c => do
        lengthIn x.len [.l4]
        zeroField (field x.mod 1 5)
        stringRegs x false []
        allowedState c [0, 3, 5]
        addressRange (← addrG c x.ra) (← lenG c x.rc)
        let v : Byte := field (← getG c x.rb) 0 8
        scanWork c stop 5 x.rc (scanSegment c [x.ra] x.rc false 8 (scnTest v (bit x.mod 0))) } s

/-- TRT (R155). -/
def execTrt (e : Eng) (x : FmtA) (stop : Nat) (s : State) : Host.Outcome State Fault Refusal :=
  macroNext e x.pred x.len
    { interruptible := true
      selfTimed := true
      count := fun c s => scanCount (s.bank c.slot) x.rc 8 2
      body := fun c => do
        lengthIn x.len [.l4]
        zeroField x.mod
        stringRegs x true []
        allowedState c [0, 3, 5]
        let n ← lenG c x.rc
        let table ← addrG c x.rb
        addressRange (← addrG c x.ra) n
        if n ≠ 0 then addressRange table 256
        scanWork c stop 8 x.rc (scanSegment c [x.ra] x.rc true 2 (trtTest c table)) } s

/-! ### CLP (R152) -/

/-- The result of CLP after more positions: 0 while every one was equal. -/
def clpResult (res : Nat) : List (Byte × Byte) → Nat
  | [] => res
  | (x, y) :: r => clpResult (if res = 0 ∧ x ≠ y then (if x.toNat < y.toNat then 1 else 2) else res) r

/-- The cycles of a segment of CLP, eight positions each: the result so far. -/
def clpUnits (c : Cx) (a b n m : Nat) (pad : Byte) : Nat → Nat → Nat → Nat → M Nat
  | 0, _, _, res => return res
  | fuel + 1, i, left, res => do
    if left = 0 then return res
    let k := min 8 left
    spend c 1
    let x ← stringRead c (a + i) (min k (n - i))
    let y ← stringRead c (b + i) (min k (m - i))
    let fill (l : List Byte) : List Byte := l ++ List.replicate (k - l.length) pad
    clpUnits c a b n m pad fuel (i + k) (left - k) (clpResult res ((fill x).zip (fill y)))

/-- A segment of CLP. -/
def clpSegment (c : Cx) (x : FmtA) : M SegEnd := do
  let (a, b) := (← addrG c x.ra, ← addrG c x.rb)
  let (n, m) := (← lenG c x.rc, ← lenG c (x.rc + 1))
  let k := min 64 (max n m)
  let res ← clpUnits c a b n m (field x.imm 0 8) 8 0 k (← resumeState c)
  putG c x.ra (a + min k n); putG c x.rc (n - k)
  putG c x.rb (b + min k m); putG c (x.rc + 1) (m - k)
  if max n m ≤ k then
    setCC c res
    return .done
  return .more res

/-- CLP (R152). -/
def execClp (e : Eng) (x : FmtA) (stop : Nat) (s : State) : Host.Outcome State Fault Refusal :=
  macroNext e x.pred x.len
    { interruptible := true
      selfTimed := true
      count := fun c s =>
        let b := s.bank c.slot
        let k := max (b.len x.rc) (b.len (x.rc + 1))
        6 + unitsTerm k 8 + commitTerm k
      body := fun c => do
        lengthIn x.len [.l6]
        zeroField x.mod
        zeroField (field x.imm 8 8)
        stringRegs x true []
        allowedState c [0, 1, 2]
        let (n, m) := (← lenG c x.rc, ← lenG c (x.rc + 1))
        addressRange (← addrG c x.ra) n
        addressRange (← addrG c x.rb) m
        fixedTerm c 6
        segments c stop (clpSegment c x) (max n m / 64 + 2) 0 } s

/-! ### TRN (R154) -/

/-- The accesses of one cycle of TRN. -/
def trnCycle (c : Cx) (a table i k : Nat) : M Unit := do
  let l ← stringRead c (a + i) k
  stringWrite c (a + i) (← tableBytes c table l) true

/-- A segment of TRN: every store is held for the commit point (R142). -/
def trnSegment (c : Cx) (x : FmtA) (table : Nat) : M SegEnd := do
  let (a, n) := (← addrG c x.ra, ← lenG c x.rc)
  let k := min 64 n
  perCycle c 2 (trnCycle c a table) 32 0 k
  putG c x.ra (a + k); putG c x.rc (n - k)
  return if n - k = 0 then .done else .more 0

/-- TRN (R154). -/
def execTrn (e : Eng) (x : FmtA) (stop : Nat) (s : State) : Host.Outcome State Fault Refusal :=
  macroNext e x.pred x.len
    { interruptible := true
      selfTimed := true
      count := fun c s =>
        let k := (s.bank c.slot).len x.rc
        8 + unitsTerm k 2 + commitTerm k
      body := fun c => do
        lengthIn x.len [.l4]
        zeroField x.mod
        stringRegs x false []
        allowedState c [0]
        let (a, n, t) := (← addrG c x.ra, ← lenG c x.rc, ← addrG c x.rb)
        addressRange a n
        if n ≠ 0 then addressRange t 256
        require (!overlap a n t 256)
        fixedTerm c 8
        segments c stop (trnSegment c x t) (n / 64 + 2) 0 } s

/-! ### CRC (R172) -/

/-- One bit of a reflected CRC step. -/
def crcBit (p : BitVec 32) (c : BitVec 32) : BitVec 32 := if bit c 0 then (c >>> 1) ^^^ p else c >>> 1

/-- The CRC register after one byte (R172). -/
def crcByte (p : BitVec 32) (c : BitVec 32) (b : Byte) : BitVec 32 :=
  (List.range 8).foldl (fun c _ => crcBit p c) (c ^^^ b.setWidth 32)

/-- The reflected polynomials of CRC-32C and CRC-32 (R172). -/
def crcPoly (poly : Bool) : BitVec 32 := if poly then 0xEDB88320 else 0x82F63B78

/-- The cycles of a segment of CRC, eight bytes each. -/
def crcUnits (c : Cx) (p : BitVec 32) (a : Nat) : Nat → Nat → Nat → BitVec 32 → M (BitVec 32)
  | 0, _, _, v => return v
  | fuel + 1, i, n, v => do
    if n = 0 then return v
    let k := min 8 n
    spend c 1
    let l ← stringRead c (a + i) k
    crcUnits c p a fuel (i + k) (n - k) (l.foldl (crcByte p) v)

/-- A segment of CRC. -/
def crcSegment (c : Cx) (x : FmtA) : M SegEnd := do
  let (a, n) := (← addrG c x.rb, ← lenG c x.rc)
  let k := min 64 n
  let v ← crcUnits c (crcPoly (bit x.mod 0)) a 8 0 k (field (← getG c x.ra) 0 32)
  putG c x.ra v.toNat
  putG c x.rb (a + k); putG c x.rc (n - k)
  if n - k = 0 then
    setCC c (if v = 0 then 0 else 2)
    return .done
  return .more 0

/-- CRC (R172). -/
def execCrc (e : Eng) (x : FmtA) (stop : Nat) (s : State) : Host.Outcome State Fault Refusal :=
  macroNext e x.pred x.len
    { interruptible := true
      selfTimed := true
      count := fun c s =>
        let k := (s.bank c.slot).len x.rc
        4 + unitsTerm k 8 + commitTerm k
      body := fun c => do
        lengthIn x.len [.l4]
        zeroField (field x.mod 1 5)
        stringRegs x false []
        allowedState c [0]
        let n ← lenG c x.rc
        addressRange (← addrG c x.rb) n
        fixedTerm c 4
        segments c stop (crcSegment c x) (n / 64 + 2) 0 } s

end Sys2Proof.Machine
end

