-- ==== Sys2Proof/Machine/Crypto.lean ====
section
/-! DEFINITION. The cryptographic and CRC instructions on registers and blocks (R205 to R208): AES, GCM's product, SHA-256
and SHA-384 compression, and triple DES, as functions of numbers, and the instructions. -/

namespace Sys2Proof.Machine

/-! ### AES (R205; FIPS 197). A state is a list of 16 bytes in block order. -/

/-- Multiplication by x in GF(2^8). -/
def xtime (a : Nat) : Nat := if a < 128 then 2 * a else Nat.xor (2 * a - 256) 0x1B

/-- Multiplication in GF(2^8). -/
def gmul8 : Nat → Nat → Nat → Nat
  | 0, _, _ => 0
  | n + 1, a, b => Nat.xor (if b % 2 = 1 then a else 0) (gmul8 n (xtime a) (b / 2))

/-- Product of two elements of GF(2^8). -/
def gf8 (a b : Nat) : Nat := gmul8 8 a b

/-- The inverse in GF(2^8): a^254, and 0 for 0. -/
def gfInv (a : Nat) : Nat :=
  let a2 := gf8 a a
  let a3 := gf8 a2 a
  let a6 := gf8 a3 a3
  let a12 := gf8 a6 a6
  let a14 := gf8 a12 a2
  let a15 := gf8 a12 a3
  let a30 := gf8 a15 a15
  let a60 := gf8 a30 a30
  let a120 := gf8 a60 a60
  let a240 := gf8 a120 a120
  gf8 a240 a14

/-- A byte rotated left. -/
def rotl8 (a n : Nat) : Nat := (a * 2 ^ n + a / 2 ^ (8 - n)) % 256

/-- The S-box: the inverse and the affine map. -/
def sbox (a : Nat) : Nat :=
  let b := gfInv a
  Nat.xor (Nat.xor (Nat.xor b (rotl8 b 1)) (Nat.xor (rotl8 b 2) (rotl8 b 3))) (Nat.xor (rotl8 b 4) 0x63)

/-- The inverse S-box: the inverse affine map and the inverse. -/
def invSbox (a : Nat) : Nat := gfInv (Nat.xor (Nat.xor (Nat.xor (rotl8 a 1) (rotl8 a 3)) (rotl8 a 6)) 0x05)

/-- A block as a list of byte values, byte 0 first. -/
def blockBytes (x : BitVec 128) : List Nat := (natLE 16 x.toNat).map (·.toNat)

/-- The F register image of a block. -/
def blockOf (l : List Nat) : BitVec 128 := BitVec.ofNat 128 (leNat (l.map (BitVec.ofNat 8)))

/-- ShiftRows: byte 4c + r comes from column c + r. -/
def shiftRows (l : List Nat) : List Nat := (List.range 16).map fun i => l.getD ((i + 4 * (i % 4)) % 16) 0

/-- InvShiftRows. -/
def invShiftRows (l : List Nat) : List Nat := (List.range 16).map fun i => l.getD ((i + 16 - 4 * (i % 4)) % 16) 0

/-- One column times the circulant matrix whose first row is given. -/
def mixColumn (m : List Nat) (col : List Nat) : List Nat :=
  (List.range 4).map fun r =>
    (List.range 4).foldl (fun a k => Nat.xor a (gf8 (m.getD ((k + 4 - r) % 4) 0) (col.getD k 0))) 0

/-- MixColumns or its inverse, by the matrix row. -/
def mixColumns (m : List Nat) (l : List Nat) : List Nat :=
  (List.range 4).flatMap fun c => mixColumn m ((l.drop (4 * c)).take 4)

/-- The first row of the MixColumns matrix. -/
def mixRow : List Nat := [2, 3, 1, 1]
/-- The first row of the InvMixColumns matrix. -/
def invMixRow : List Nat := [14, 11, 13, 9]

/-- AddRoundKey. -/
def addKey (l k : List Nat) : List Nat := List.zipWith Nat.xor l k

/-- AESE: SubBytes, ShiftRows, MixColumns unless it is the last round, AddRoundKey (R205). -/
def aesRound (last : Bool) (st k : List Nat) : List Nat :=
  let t := shiftRows (st.map sbox)
  addKey (if last then t else mixColumns mixRow t) k

/-- AESD: InvShiftRows, InvSubBytes, AddRoundKey, then InvMixColumns unless it is the last round (R205). -/
def aesInvRound (last : Bool) (st k : List Nat) : List Nat :=
  let t := addKey ((invShiftRows st).map invSbox) k
  if last then t else mixColumns invMixRow t

/-- Rounds with a list of round keys, the last one without the column mix. -/
def aesRounds (f : Bool → List Nat → List Nat → List Nat) : List Nat → List (List Nat) → List Nat
  | st, [] => st
  | st, [k] => f true st k
  | st, k :: r => aesRounds f (f false st k) r

/-- The round keys of an expanded key, 16 bytes each. -/
def roundKeys : Nat → List Nat → List (List Nat)
  | 0, _ => []
  | n + 1, l => l.take 16 :: roundKeys n (l.drop 16)

/-- The AES cipher, or the inverse cipher, with round keys in encryption order (R205). -/
def aesBlock (inverse : Bool) (st : List Nat) (keys : List (List Nat)) : List Nat :=
  match (if inverse then keys.reverse else keys) with
  | [] => st
  | k :: r => aesRounds (if inverse then aesInvRound else aesRound) (addKey st k) r

/-- The round constant of index `i` ≥ 1. -/
def rcon : Nat → Nat
  | 0 => 0
  | 1 => 1
  | i + 2 => xtime (rcon (i + 1))

/-- A word of four bytes rotated by one byte. -/
def rotWord (w : List Nat) : List Nat := w.drop 1 ++ w.take 1

/-- The next four words of a key schedule: `base` is the key they are combined with, `t` the transformed word. -/
def keyWords (base : List Nat) (t : List Nat) : List Nat :=
  let w (i : Nat) : List Nat := (base.drop (4 * i)).take 4
  let k0 := addKey (w 0) t
  let k1 := addKey (w 1) k0
  let k2 := addKey (w 2) k1
  let k3 := addKey (w 3) k2
  k0 ++ k1 ++ k2 ++ k3

/-- AESK: `prev` is the key before, `base` the key combined with, and `rc` the round constant index, 0 for the AES-256
step that applies none (R205). -/
def nextKey (prev base : List Nat) (rc : Nat) : List Nat :=
  let last := prev.drop 12
  if rc = 0 then keyWords base (last.map sbox)
  else keyWords base (addKey ((rotWord last).map sbox) [rcon rc, 0, 0, 0])

/-! ### GF(2^128) with the bit order and polynomial of GCM (R205) -/

/-- The bits of a block in GCM's order: bit 0 is the most significant bit of byte 0. -/
def gcmNumber (x : BitVec 128) : Nat := beNat (natLE 16 x.toNat)

/-- The product of two elements: `z` accumulates, `v` runs through y · x^i, the bits of `x` come from the top. -/
def gcmMul (x : Nat) : Nat → Nat → Nat → Nat
  | 0, z, _ => z
  | n + 1, z, v =>
    let z := if x / 2 ^ n % 2 = 1 then Nat.xor z v else z
    let v := if v % 2 = 1 then Nat.xor (v / 2) (0xE1 * 2 ^ 120) else v / 2
    gcmMul x n z v

/-- X • Y. -/
def ghash (x y : BitVec 128) : BitVec 128 :=
  BitVec.ofNat 128 (leNat (natBE 16 (gcmMul (gcmNumber x) 128 0 (gcmNumber y))))

/-! ### SHA-256 and SHA-384 compression (R205, R206; FIPS 180-4) -/

/-- The integer part of the root of `n`, `k` = 2 or 3, by its bits. -/
def rootBits (k x : Nat) : Nat → Nat → Nat
  | 0, r => r
  | n + 1, r => if (r + 2 ^ n) ^ k ≤ x then rootBits k x n (r + 2 ^ n) else rootBits k x n r

/-- The first `w` bits of the fractional part of the cube root of a prime: a round constant. -/
def cubeFraction (w p : Nat) : Nat := rootBits 3 (p * 2 ^ (3 * w)) (w + 4) 0 % 2 ^ w

/-- The first `n` primes from `c` on. -/
def primesFrom : Nat → Nat → Nat → List Nat
  | 0, _, _ => []
  | _, 0, _ => []
  | fuel + 1, n + 1, c =>
    if (List.range c).all fun d => d < 2 || c % d != 0 then c :: primesFrom fuel n (c + 1)
    else primesFrom fuel (n + 1) (c + 1)

/-- The round constants of SHA-256 and of SHA-512, which SHA-384 uses. -/
def shaK (w rounds : Nat) : List Nat := (primesFrom 500 rounds 2).map (cubeFraction w)

/-- A word rotated right. -/
def rotr (w x n : Nat) : Nat := (x / 2 ^ n + x * 2 ^ (w - n)) % 2 ^ w

/-- The shift amounts of the functions Σ0, Σ1, σ0 and σ1: two or three rotations, and a shift in σ. -/
structure ShaParams where
  w : Nat
  rounds : Nat
  big0 : Nat × Nat × Nat
  big1 : Nat × Nat × Nat
  small0 : Nat × Nat × Nat
  small1 : Nat × Nat × Nat
deriving DecidableEq, Repr

/-- SHA-256. -/
def sha256P : ShaParams :=
  { w := 32, rounds := 64, big0 := (2, 13, 22), big1 := (6, 11, 25), small0 := (7, 18, 3), small1 := (17, 19, 10) }

/-- SHA-512 and SHA-384. -/
def sha512P : ShaParams :=
  { w := 64, rounds := 80, big0 := (28, 34, 39), big1 := (14, 18, 41), small0 := (1, 8, 7), small1 := (19, 61, 6) }

/-- Σ: three rotations. -/
def shaBig (w : Nat) (r : Nat × Nat × Nat) (x : Nat) : Nat :=
  Nat.xor (Nat.xor (rotr w x r.1) (rotr w x r.2.1)) (rotr w x r.2.2)

/-- σ: two rotations and a shift. -/
def shaSmall (w : Nat) (r : Nat × Nat × Nat) (x : Nat) : Nat :=
  Nat.xor (Nat.xor (rotr w x r.1) (rotr w x r.2.1)) (x / 2 ^ r.2.2)

/-- The message schedule, newest word first: `n` more words. -/
def shaSchedule (p : ShaParams) : Nat → List Nat → List Nat
  | 0, l => l
  | n + 1, l =>
    let v := (shaSmall p.w p.small1 (l.getD 1 0) + l.getD 6 0 + shaSmall p.w p.small0 (l.getD 14 0) + l.getD 15 0)
      % 2 ^ p.w
    shaSchedule p n (v :: l)

/-- The rounds on the eight working variables. -/
def shaRounds (p : ShaParams) : List Nat → List Nat → List Nat → List Nat
  | k :: ks, m :: ms, [a, b, c, d, e, f, g, h] =>
    let ch := Nat.xor (Nat.land e f) (Nat.land (2 ^ p.w - 1 - e) g)
    let maj := Nat.xor (Nat.xor (Nat.land a b) (Nat.land a c)) (Nat.land b c)
    let t1 := h + shaBig p.w p.big1 e + ch + k + m
    let t2 := shaBig p.w p.big0 a + maj
    shaRounds p ks ms [(t1 + t2) % 2 ^ p.w, a, b, c, (d + t1) % 2 ^ p.w, e, f, g]
  | _, _, v => v

/-- Words of `n` bytes, most significant byte first. -/
def beWords (n : Nat) : Nat → List Byte → List Nat
  | 0, _ => []
  | k + 1, l => beNat (l.take n) :: beWords n k (l.drop n)

/-- The compression function on a state of eight words and one block. -/
def shaCompress (p : ShaParams) (h : List Nat) (block : List Byte) : List Nat :=
  let m := (beWords (p.w / 8) 16 block).reverse
  let sched := (shaSchedule p (p.rounds - 16) m).reverse
  List.zipWith (fun a b => (a + b) % 2 ^ p.w) h (shaRounds p (shaK p.w p.rounds) sched h)

/-- The words H_j of a state held in registers, low bits first (R206). -/
def stateWords (w : Nat) : Nat → Nat → List Nat
  | 0, _ => []
  | n + 1, x => x % 2 ^ w :: stateWords w n (x / 2 ^ w)

/-- The number that state words spell, low bits first. -/
def wordsNumber (w : Nat) : List Nat → Nat
  | [] => 0
  | h :: r => h + 2 ^ w * wordsNumber w r

/-! ### Triple DES (R205; FIPS 46-3). Numbers of `n` bits, bit 1 of the standard the most significant. -/

/-- A permutation: output bit i is input bit `t[i]`, bits numbered from 1 at the top of an `n`-bit number. -/
def permute (n : Nat) (t : List Nat) (x : Nat) : Nat := t.foldl (fun a i => 2 * a + x / 2 ^ (n - i) % 2) 0

/-- The initial permutation. -/
def desIP : List Nat :=
  [58, 60, 62, 64, 57, 59, 61, 63].flatMap fun a => (List.range 8).map fun k => a - 8 * k

/-- The final permutation, inverse of the initial one. -/
def desFP : List Nat :=
  (List.range 8).flatMap fun r => [40, 8, 48, 16, 56, 24, 64, 32].map fun a => a - r

/-- The expansion. -/
def desE : List Nat := (List.range 8).flatMap fun k => (List.range 6).map fun j => (4 * k + j + 31) % 32 + 1

/-- The permutation P. -/
def desP : List Nat :=
  [16, 7, 20, 21, 29, 12, 28, 17, 1, 15, 23, 26, 5, 18, 31, 10, 2, 8, 24, 14, 32, 27, 3, 9, 19, 13, 30, 6, 22, 11, 4, 25]

/-- Permuted choice 1. -/
def desPC1 : List Nat :=
  [57, 49, 41, 33, 25, 17, 9, 1, 58, 50, 42, 34, 26, 18, 10, 2, 59, 51, 43, 35, 27, 19, 11, 3, 60, 52, 44, 36]
    ++ [63, 55, 47, 39, 31, 23, 15, 7, 62, 54, 46, 38, 30, 22, 14, 6, 61, 53, 45, 37, 29, 21, 13, 5, 28, 20, 12, 4]

/-- Permuted choice 2. -/
def desPC2 : List Nat :=
  [14, 17, 11, 24, 1, 5, 3, 28, 15, 6, 21, 10, 23, 19, 12, 4, 26, 8, 16, 7, 27, 20, 13, 2]
    ++ [41, 52, 31, 37, 47, 55, 30, 40, 51, 45, 33, 48, 44, 49, 39, 56, 34, 53, 46, 42, 50, 36, 29, 32]

/-- The S-boxes, rows one after the other, as hexadecimal digits of a number, first digit at the top. -/
def desS : List Nat :=
  [0xE4D12FB83A6C59070F74E2D1A6CB953841E8D62BFC973A50FC8249175B3EA06D,
   0xF18E6B34972DC05A3D47F28EC01A69B50E7BA4D158C6932FD8A13F42B67C05E9,
   0xA09E63F51DC7B428D709346A285ECBF1D6498F30B12C5AE71AD069874FE3B52C,
   0x7DE3069A1285BC4FD8B56F03472C1AE9A690CB7DF13E52843F06A1D8945BC72E,
   0x2C417AB6853FD0E9EB2C47D150FA3986421BAD78F9C5630EB8C71E2D6F09A453,
   0xC1AF92680D34E75BAF427C9561DE0B389EF528C3704A1DB6432C95FABE17608D,
   0x4B2EF08D3C975A61D0B7491AE35C2F8614BDC37EAF6805926BD814A7950FE23C,
   0xD2846FB1A93E50C71FD8A374C56B0E927B419CE206ADF35821E74A8DFC90356B]

/-- S-box `i` of a six-bit number. -/
def desBox (i b : Nat) : Nat :=
  let row := b / 32 * 2 + b % 2
  let col := b / 2 % 16
  desS.getD i 0 / 16 ^ (63 - (16 * row + col)) % 16

/-- The cipher function f. -/
def desF (r k : Nat) : Nat :=
  let x := Nat.xor (permute 32 desE r) k
  permute 32 desP ((List.range 8).foldl (fun a i => 16 * a + desBox i (x / 2 ^ (42 - 6 * i) % 64)) 0)

/-- Left rotations of the key halves, round by round. -/
def desShifts : List Nat := [1, 1, 2, 2, 2, 2, 2, 2, 1, 2, 2, 2, 2, 2, 2, 1]

/-- A 28-bit half rotated left. -/
def rotl28 (x n : Nat) : Nat := (x * 2 ^ n + x / 2 ^ (28 - n)) % 2 ^ 28

/-- The round keys from the two halves. -/
def desKeysFrom : List Nat → Nat → Nat → List Nat
  | [], _, _ => []
  | n :: r, c, d =>
    let c := rotl28 c n
    let d := rotl28 d n
    permute 56 desPC2 (c * 2 ^ 28 + d) :: desKeysFrom r c d

/-- The 16 round keys of a 64-bit key; parity bits are ignored. -/
def desKeys (k : Nat) : List Nat :=
  let x := permute 64 desPC1 k
  desKeysFrom desShifts (x / 2 ^ 28) (x % 2 ^ 28)

/-- The rounds of DES. -/
def desRounds : List Nat → Nat → Nat → Nat
  | [], l, r => r * 2 ^ 32 + l
  | k :: ks, l, r => desRounds ks r (Nat.xor l (desF r k))

/-- DES of a block with round keys in order of use. -/
def desBlock (keys : List Nat) (x : Nat) : Nat :=
  let y := permute 64 desIP x
  permute 64 desFP (desRounds keys (y / 2 ^ 32) (y % 2 ^ 32))

/-- TDES: EDE encryption, or DED decryption (R205). -/
def tdes (decrypt : Bool) (k1 k2 k3 x : Nat) : Nat :=
  let enc (k x : Nat) : Nat := desBlock (desKeys k) x
  let dec (k x : Nat) : Nat := desBlock (desKeys k).reverse x
  if decrypt then dec k1 (enc k2 (dec k3 x)) else enc k3 (dec k2 (enc k1 x))

/-! ### Register instructions (R205) -/

/-- A 4-byte operation of F(RA) and F(RB); MOD[1] zero. -/
def aesOp (x : FmtXA) (f : Bool → List Nat → List Nat → List Nat) : Macro where
  count := fun _ _ => 2
  body := fun c => do
    lengthIn x.len [.l4]
    zeroField (field x.mod 1 1)
    let st ← getF c x.ra
    let k ← getF c x.rb
    setF c x.ra (blockOf (f (bit x.mod 0) (blockBytes st) (blockBytes k)))
    return .seq

/-- AESE (R205). -/
def execAese (e : Eng) (x : FmtXA) (s : State) : Host.Outcome State Fault Refusal :=
  macroNext e x.pred x.len (aesOp x aesRound) s

/-- AESD (R205). -/
def execAesd (e : Eng) (x : FmtXA) (s : State) : Host.Outcome State Fault Refusal :=
  macroNext e x.pred x.len (aesOp x aesInvRound) s

/-- AESK (R205). -/
def execAesk (e : Eng) (x : FmtXA) (s : State) : Host.Outcome State Fault Refusal :=
  macroNext e x.pred x.len
    { count := fun _ _ => 2
      body := fun c => do
        lengthIn x.len [.l6]
        zeroField (field x.mod 1 1)
        zeroField (field x.mod2 4 8)
        let rc := (field x.mod2 0 4).toNat
        let long := bit x.mod 0
        require (if long then decide (rc ≤ 7) else decide (1 ≤ rc) && decide (rc ≤ 10))
        let base := blockBytes (← getF c x.rb)
        let prev ← if long then do pure (blockBytes (← getF c x.rc)) else pure base
        setF c x.ra (blockOf (nextKey prev base rc))
        return .seq } s

/-- GHMUL (R205). -/
def execGhmul (e : Eng) (x : FmtXA) (s : State) : Host.Outcome State Fault Refusal :=
  macroNext e x.pred x.len
    { count := fun _ _ => 4
      body := fun c => do
        lengthIn x.len [.l6]
        zeroField x.mod; zeroField x.mod2
        setF c x.ra (ghash (← getF c x.rb) (← getF c x.rc))
        return .seq } s

/-- CRCG and CRCGN: a CRC step over the low 2^MOD bytes of G(RB) (R172, R205). -/
def crcOp (x : FmtXA) (poly : Bool) : Macro where
  count := fun _ _ => 2
  body := fun c => do
    lengthIn x.len [.l4]
    let bytes := natLE (2 ^ x.mod.toNat) (← getG c x.rb).toNat
    let v := bytes.foldl (crcByte (crcPoly poly)) (field (← getG c x.ra) 0 32)
    setG c x.ra (v.setWidth 64)
    return .seq

/-- CRCG (R205). -/
def execCrcg (e : Eng) (x : FmtXA) (s : State) : Host.Outcome State Fault Refusal :=
  macroNext e x.pred x.len (crcOp x false) s

/-- CRCGN (R205). -/
def execCrcgn (e : Eng) (x : FmtXA) (s : State) : Host.Outcome State Fault Refusal :=
  macroNext e x.pred x.len (crcOp x true) s

/-! ### Block instructions with a memory operand (R205, R206, R208) -/

/-- The memory operand of a block instruction, in bytes. -/
def blockSize (xop : Nat) (mode : Nat) : Nat :=
  match xop with
  | 0x80 => if mode / 2 % 2 = 1 then 240 else 176
  | 0x81 => 16
  | 0x82 => if mode % 2 = 1 then 128 else 64
  | _ => 24

/-- The result of a block instruction on its operand's bytes; `mode` holds MOD[0] and, above it, MOD2[0]. -/
def blockFinish (c : Cx) (xop : Nat) (ra : BitVec 4) (mode : Nat) (l : List Byte) : M Unit := do
  let bytes := l.map (·.toNat)
  match xop with
  | 0x80 =>
    let keys := roundKeys (l.length / 16) bytes
    setF c ra (blockOf (aesBlock (mode % 2 == 1) (blockBytes (← getF c ra)) keys))
  | 0x81 =>
    let h ← getF c (ra + 1)
    setF c ra (ghash ((← getF c ra) ^^^ BitVec.ofNat 128 (leNat l)) h)
  | 0x82 =>
    if mode % 2 = 0 then
      let st := (← getF c ra).toNat + 2 ^ 128 * (← getF c (ra + 1)).toNat
      let n := wordsNumber 32 (shaCompress sha256P (stateWords 32 8 st) l)
      setF c ra (BitVec.ofNat 128 n)
      setF c (ra + 1) (BitVec.ofNat 128 (n / 2 ^ 128))
    else
      let f (k : BitVec 4) : M Nat := do return (← getF c (ra + k)).toNat
      let st := (← f 0) + 2 ^ 128 * (← f 1) + 2 ^ 256 * (← f 2) + 2 ^ 384 * (← f 3)
      let n := wordsNumber 64 (shaCompress sha512P (stateWords 64 8 st) l)
      setF c ra (BitVec.ofNat 128 n)
      setF c (ra + 1) (BitVec.ofNat 128 (n / 2 ^ 128))
      setF c (ra + 2) (BitVec.ofNat 128 (n / 2 ^ 256))
      setF c (ra + 3) (BitVec.ofNat 128 (n / 2 ^ 384))
  | _ =>
    let k (i : Nat) : Nat := beNat ((l.drop (8 * i)).take 8)
    let x := beNat (natLE 8 (field (← getF c ra) 0 64).toNat)
    setF c ra (BitVec.ofNat 128 (leNat (natBE 8 (tdes (mode % 2 == 1) (k 0) (k 1) (k 2) x))))

/-- A block instruction: `ok` checks its register, and MOD2 is allowed only the bits of `mod2Bits`. DESIGN CHOICE: its operand
may lie in device memory when it is aligned to 16 bytes, that of TDB to 8, since R81 has no row for it. -/
def blockOp (xop : Nat) (x : FmtXB) (mod0 mod2Bits : Bool) (ok : Bool) (count : Nat) : Macro where
  count := fun _ _ => count
  body := fun c => do
    lengthIn x.len [.l8, .l12]
    zeroField (field x.mod 1 1)
    if !mod0 then zeroField x.mod
    if mod2Bits then zeroField (field x.mod2 1 31) else zeroField x.mod2
    require ok
    let mode := x.mod.toNat % 2 + 2 * (x.mod2.toNat % 2)
    let n := blockSize xop mode
    let unit := if xop = 0x83 then 8 else 16
    match ← load c (x.ea (← getBank c)) n (.aligned unit) (.block xop x.ra mode) with
    | none => return .waits
    | some l =>
      blockFinish c xop x.ra mode l
      return .seq

/-- AESB (R205). -/
def execAesb (e : Eng) (x : FmtXB) (s : State) : Host.Outcome State Fault Refusal :=
  macroNext e x.pred x.len (blockOp 0x80 x true true true (if bit x.mod2 0 then 34 else 26)) s

/-- GHB (R205). -/
def execGhb (e : Eng) (x : FmtXB) (s : State) : Host.Outcome State Fault Refusal :=
  macroNext e x.pred x.len (blockOp 0x81 x false false (!bit x.ra 0) 6) s

/-- SHB (R205, R206). -/
def execShb (e : Eng) (x : FmtXB) (s : State) : Host.Outcome State Fault Refusal :=
  macroNext e x.pred x.len
    (blockOp 0x82 x true false (if bit x.mod 0 then field x.ra 0 2 == 0 else !bit x.ra 0)
      (if bit x.mod 0 then 88 else 72)) s

/-- TDB (R205, R206). -/
def execTdb (e : Eng) (x : FmtXB) (s : State) : Host.Outcome State Fault Refusal :=
  macroNext e x.pred x.len (blockOp 0x83 x true false true 54) s

end Sys2Proof.Machine
end

