-- ==== Sys2Proof/Machine/Link.lean ====
section
/-! DEFINITION. What the ring rows share: the counters of a ring block, the tables in force, and the ends of OQ entries,
links and stations (14, 15). -/

namespace Sys2Proof.Machine

/-! ### Counters and tables of a ring block -/

/-- Offset of a register of ring block `r` (R427). -/
def nlk (r : RingId) (o : Nat) : Nat := nlkBase r.val + o

/-- A saturating field of a ring register grows by `n`, with the register's OVF bit (R427, R458). -/
def State.nlkSat (s : State) (r : RingId) (o lo w ovf n : Nat) : State :=
  let v := s.reg (nlk r o)
  let c := (field v lo w).toNat + n
  let full := decide (2 ^ w - 1 ≤ c)
  s.setReg (nlk r o) (setField (setField v lo w (min (2 ^ w - 1) c)) ovf 1 (b2n (full || bit v ovf)))

/-- A 32-bit field of a ring register grows by 1, modulo 2^32 (R427, R458). -/
def State.nlkWrap (s : State) (r : RingId) (o lo : Nat) : State :=
  let v := s.reg (nlk r o)
  s.setReg (nlk r o) (setField v lo 32 (((field v lo 32).toNat + 1) % 2 ^ 32))

/-- Source 0x1_1500 + r: a status change of ring `r` (R269). -/
def State.ringStatus (s : State) (r : RingId) : State := s.fire (0x11500 + r.val)

/-- The ring takes part in the loop: INSERTED, and the pins not released by a fatal error (R416, R538). -/
def State.ringUp (s : State) (r : RingId) : Bool := (s.ring r).state == .inserted && !s.power.fatal

/-- Schedule table `t` of a ring with its station directory (R424). -/
def Ring.planOf (x : Ring) (t : Bool) : Option RingPlan := if t then x.table1 else x.table0

/-- The schedule table in force. -/
def Ring.table (x : Ring) : Option RingPlan := x.planOf x.tsel

/-- The station-class queue map in force on the ring (R21). -/
def Ring.qmap (x : Ring) : List QMapEntry := if x.tsel then x.qmap1 else x.qmap0

/-- The global number of station `a` of ring `r` (R408). -/
def globalStation (r : RingId) (a : Nat) : Nat := 64 * r.val + a

/-- The map's entry of a pair (R456). -/
def State.pairEntry (s : State) (r : RingId) (a c : Nat) : Option QMapEntry :=
  (s.ring r).qmap.find? fun m => m.station.toNat == globalStation r a && m.cls.toNat == c

/-- The directory's record of station `a` (R455). -/
def RingPlan.station (p : RingPlan) (a : Nat) : DirStation := lget default p.stations (a - 1)

/-- RETRY of the directory in force, 0 when the ring has none (R437, R455). -/
def Ring.retry (x : Ring) : Nat := (x.table.map (·.retry)).getD 0

/-! ### The end of an OQ entry (R378) -/

/-- The entries ended in a row from CI, and the rest. -/
def endedRun : List OqEntry → Nat × List OqEntry
  | [] => (0, [])
  | x :: r => if x.st = .ended then let (n, rest) := endedRun r; (n + 1, rest) else (0, x :: r)

/-- The list with the entry of an index marked. -/
def markOq (index : BitVec 16) (st : OqSt) (l : List OqEntry) : List OqEntry :=
  l.map fun x => if x.index = index then { x with st := st } else x

/-- CI passes the ended entries, one event for each (R375, R378). -/
def State.passEnded (s : State) (qid : Nat) : State :=
  let (n, rest) := endedRun (s.queue qid).oq
  let s := s.modQueue qid fun q => { q.addCi n with oq := rest }
  (List.range n).foldl (fun s _ => s.queueEvent qid) s

/-- An OQ entry ends: STATUS and TSTAMP are written back, then CI advances over the entries ended in order (R378). -/
def State.endEntry (s : State) (qid : Nat) (index : BitVec 16) (status : Nat) (stamp : BitVec 32) : State :=
  let q := s.queue qid
  if !q.oq.any (fun x => x.index == index && x.st != .ended) then s else
  let d := queueDomain qid
  let pa := q.base + q.esize * q.slot index.toNat
  match s.moveWrites d (pa + 3) [BitVec.ofNat 8 status] (pa + 8) (natLE 4 stamp.toNat) with
  | (some err, s) => s.queueError qid err index.toNat pa
  | (none, s) => (s.modQueue qid fun q => { q with oq := markOq index .ended q.oq }).passEnded qid

/-! ### Links and stations (R433, R437, R451 to R453) -/

/-- The open outbound request of a pair ends when it is the one with `xid` (R441). -/
def State.endRequest (s : State) (g c : Nat) (xid : BitVec 16) : State :=
  match (s.pair g c).openOut with
  | some (x, _, _) => if x = xid then s.modPair g c fun p => { p with openOut := none } else s
  | none => s

/-- A frame ends without an acknowledgement: its OQ entry takes `status`, and a request ends with it. -/
def State.endFrame (s : State) (r : RingId) (a : Nat) (f : OutFrame) (status : Nat) : State :=
  let s := s.endEntry f.oq.toNat f.oqIndex status f.sof
  if f.typ = 1 then s.endRequest (globalStation r a) f.cls.toNat f.xid else s

/-- A link failure: every unacknowledged frame ends with STATUS 0x10 and counts, and the next consuming frame carries
RSYN (R437). -/
def State.failLink (s : State) (r : RingId) (a : Nat) : State :=
  let out := ((s.ring r).station a).out
  let s := s.modRing r fun x => x.modStation a fun t => { t with out := [], tsync := true }
  out.foldl (fun s f => (s.endFrame r a f 0x10).nlkSat r 0x48 48 8 56 1) s

/-- Both links of a station are reset (R433): the frames left unacknowledged end in link failure (R451). -/
def State.resetLinks (s : State) (r : RingId) (a : Nat) : State :=
  (s.failLink r a).modRing r fun x => x.modStation a fun t =>
    { t with txseq := 0, rxexp := 0, tsync := true, rxuns := true, owed := false, nak := false, nakAt := none }

/-- A station leaves JOINED or JOINING for state `st`: the waiting entries of its OQs end with STATUS 0x31, and leaving
JOINED raises the ring's source (R451, R453). Frames already sent keep their acknowledgement waits (R437, R439), and an
open request its timer (R442). A station that leaves while the table of PLAN_SWITCH is being loaded into it fails to
confirm (R424). -/
def State.dropStation (s : State) (r : RingId) (a : Nat) (st : BitVec 2) : State :=
  let x := s.ring r
  let t := x.station a
  let s := (x.qmap.filter fun m => m.out && m.station.toNat == globalStation r a).foldl (fun s m =>
    (s.queue m.oq.toNat).oq.foldl (fun s e => if e.st = .waiting then s.endEntry m.oq.toNat e.index 0x31 0 else s) s) s
  let lost := t.st == 2 && t.loads.any fun l => l.tnum != x.tsel
  let s := s.modRing r fun x =>
    { x.modStation a fun t => { t with st := st, loads := [] } with loadFailed := x.loadFailed || lost }
  if t.st = 2 then s.ringStatus r else s

/-- What remains of a station's record once the part no longer holds the beacon (R458). -/
def Station.left (y : Station) : Station := { (default : Station) with vmin := y.vmin, vmax := y.vmax }

/-- The part no longer holds the beacon: the frames on its links end in link failure, and of its stations it keeps only
the versions of their last JOIN (R433, R438, R458). -/
def State.leaveStations (s : State) (r : RingId) : State :=
  let any := (s.ring r).stations.any fun p => p.2.st == 2
  let s := (s.ring r).stations.foldl (fun s p => s.failLink r p.1) s
  let s := s.modRing r fun x =>
    { x with stations := x.stations.foldl (fun t p => tset default t p.1 p.2.left) [],
             minislots := [], confirmed := 0, standbyLoad := none }
  if any then s.ringStatus r else s

/-- The ring version: the least VMAX of the part and the JOINED stations (R452). -/
def Ring.version (x : Ring) : Byte :=
  x.stations.foldl (fun v p => if p.2.st = 2 ∧ p.2.vmax.toNat < v.toNat then p.2.vmax else v) 2

end Sys2Proof.Machine
end

