-- ==== Sys2Proof/Machine/Line.lean ====
section
/-! DEFINITION. The line of a ring: the 8b/10b code, the ordered sets, trains of code groups, the elastic buffer and the
transmitters (R394 to R398, R403, R413 to R415, R420, R421, R430, R588). -/

namespace Sys2Proof.Machine

/-! ### Check codes (R430, R588) -/

/-- One byte of the CRC-8 of R588, most significant bit first. -/
def crc8Byte (c b : Byte) : Byte :=
  (List.range 8).foldl (fun c _ => if bit c 7 then (c <<< 1) ^^^ 0x07 else c <<< 1) (c ^^^ b)

/-- The CRC-8 of R588. -/
def crc8 (l : List Byte) : Byte := l.foldl crc8Byte 0

/-- CRC-32C over bytes, started from all ones and inverted at the end (R430). -/
def crc32c (l : List Byte) : BitVec 32 := ~~~(l.foldl (crcByte (crcPoly false)) 0xFFFFFFFF)

/-! ### The 8b/10b code (R396)

PRESUMED: the code's tables are those of IEEE 802.3 Clause 36, which R396 names. Bit 0 of a code group is its bit a. -/

/-- The 6-bit groups abcdei of D0 to D31 at negative running disparity. -/
def sixCodes : List (BitVec 6) :=
  [0x39, 0x2E, 0x2D, 0x23, 0x2B, 0x25, 0x26, 0x07, 0x27, 0x29, 0x2A, 0x0B, 0x2C, 0x0D, 0x0E, 0x3A,
   0x36, 0x31, 0x32, 0x13, 0x34, 0x15, 0x16, 0x17, 0x33, 0x19, 0x1A, 0x1B, 0x1C, 0x1D, 0x1E, 0x35]

/-- The 4-bit groups fghj of a data character's high three bits at negative running disparity; 7 in its primary form. -/
def fourCodes : List (BitVec 4) := [0xD, 0x9, 0xA, 0x3, 0xB, 0x5, 0x6, 0x7]

/-- The 4-bit groups of K28 at negative running disparity. -/
def fourCodesK : List (BitVec 4) := [0x2, 0x9, 0xA, 0xC, 0x4, 0x5, 0x6, 0x1]

/-- The number of ones. -/
def ones {n : Nat} (v : BitVec n) : Nat := (List.range n).foldl (fun c i => c + b2n (bit v i)) 0

/-- The 6-bit group of a data character's low five bits. -/
def sixOf (rd : Bool) (x : Nat) : BitVec 6 :=
  let v := lget 0 sixCodes x
  if rd && (ones v != 3 || x == 7) then ~~~v else v

/-- The 4-bit group of a data character, after its 6-bit group. -/
def fourOf (rd : Bool) (x y : Nat) : BitVec 4 :=
  if y = 7 then
    let alt := if rd then x == 11 || x == 13 || x == 14 else x == 17 || x == 18 || x == 20
    let v : BitVec 4 := if alt then 0xE else 0x7
    if rd then ~~~v else v
  else
    let v := lget 0 fourCodes y
    if rd && !(y == 1 || y == 2 || y == 5 || y == 6) then ~~~v else v

/-- The running disparity after a group of `n` bits: it changes with an unbalanced group. -/
def disparityAfter {n : Nat} (rd : Bool) (v : BitVec n) : Bool := if 2 * ones v = n then rd else !rd

/-- The characters that have a code group: every data character, and twelve control characters. -/
def LineChar.coded : LineChar → Bool
  | .d _ => true
  | .k b => b.toNat % 32 == 28 || (decide (224 ≤ b.toNat) && [23, 27, 29, 30].contains (b.toNat % 32))

/-- The code group of a character at a running disparity, positive when `rd`. -/
def encodeChar (rd : Bool) : LineChar → BitVec 10
  | .d b =>
    let six := sixOf rd (b.toNat % 32)
    fourOf (disparityAfter rd six) (b.toNat % 32) (b.toNat / 32) ++ six
  | .k b =>
    let v : BitVec 10 :=
      if b.toNat % 32 = 28 then lget 0 fourCodesK (b.toNat / 32) ++ (0x3C#6) else (0x1#4) ++ lget 0 sixCodes (b.toNat % 32)
    if rd then ~~~v else v

/-- The code groups of characters, and the running disparity after them. -/
def encodeChars (rd : Bool) : List LineChar → List (BitVec 10) × Bool
  | [] => ([], rd)
  | c :: r =>
    let g := encodeChar rd c
    let (l, rd) := encodeChars (disparityAfter rd g) r
    (g :: l, rd)

/-- The characters whose 6-bit group may be the low six bits of a code group. -/
def charsOf (g : BitVec 10) : List LineChar :=
  let six := g.setWidth 6
  let xs := (List.range 32).filter fun x => sixOf false x == six || sixOf true x == six || (x == 28 && (six == 0x3C || six == 0x03))
  (xs.map fun x => (List.range 8).flatMap fun y =>
    let b := BitVec.ofNat 8 (x + 32 * y)
    [LineChar.d b] ++ (if (LineChar.k b).coded then [LineChar.k b] else [])).flatten

/-- The character of a code group, in either disparity form; none when the group is invalid (R396, R398). -/
def decodeChar (g : BitVec 10) : Option LineChar :=
  (charsOf g).find? fun c => encodeChar false c == g || encodeChar true c == g

/-- The running disparity after a received group: by each of its two parts, positive with more ones, or with 000111 or
0011, negative with more zeros, or with 111000 or 1100, else unchanged. -/
def disparityOf (rd : Bool) (g : BitVec 10) : Bool :=
  let part {n : Nat} (rd : Bool) (v balanced : BitVec n) : Bool :=
    if n < 2 * ones v then true else if 2 * ones v < n then false
    else if v = balanced then false else if v = ~~~balanced then true else rd
  part (part rd (g.extractLsb' 0 6) 0x07) (g.extractLsb' 6 4) 0x3

/-- Received groups as characters, the code errors among them (an invalid group or a disparity error each, R398), and
the running disparity after them. -/
def readGroups (rd : Bool) : List (BitVec 10) → List (Option LineChar × BitVec 10) × Nat × Bool
  | [] => ([], 0, rd)
  | g :: r =>
    let c := decodeChar g
    let wrong := match c with
      | none => true
      | some c => encodeChar rd c != g
    let (l, n, rd) := readGroups (disparityOf rd g) r
    ((c, g) :: l, n + b2n wrong, rd)

/-- Whether a stream of bits, first bit first, holds the comma of K28.1 and K28.5, 0011111 or its complement: a receiver
that sees one aligns on it (R396). -/
def aligns : List Bool → Bool
  | [] => false
  | b :: r => [[false, false, true, true, true, true, true], [true, true, false, false, false, false, false]].contains
      ((b :: r).take 7) || aligns r

/-! ### Ordered sets (R397) -/

/-- The ordered sets. -/
inductive OrderedSet where
  | idle | wrp | bcnA | bcnB | mss | mse | sof | eof | eofa
deriving DecidableEq, Repr, Inhabited

/-- The two characters of an ordered set: K28.5 is K 0xBC, D16.2 is D 0x50, and so on. -/
def OrderedSet.chars : OrderedSet → List LineChar
  | .idle => [.k 0xBC, .d 0x50]
  | .wrp => [.k 0xBC, .d 0x95]
  | .bcnA => [.k 0x3C, .d 0xB5]
  | .bcnB => [.k 0x3C, .d 0x4A]
  | .mss => [.k 0x5C, .d 0xB5]
  | .mse => [.k 0x5C, .d 0x4A]
  | .sof => [.k 0xFB, .d 0xB5]
  | .eof => [.k 0xFD, .d 0xB5]
  | .eofa => [.k 0xFD, .d 0x4A]

/-- The ordered set of two characters; none for any other pair, which is invalid when it begins with a K (R397). -/
def readSet (l : List LineChar) : Option OrderedSet :=
  [OrderedSet.idle, .wrp, .bcnA, .bcnB, .mss, .mse, .sof, .eof, .eofa].find? fun o => o.chars == l

/-! ### Trains: a beacon, a minislot or a frame with its ordered sets -/

/-- A train as characters: its first ordered set, its bytes, and the ordered set that ends a minislot or a frame. -/
def train (first : OrderedSet) (bytes : List Byte) (last : Option OrderedSet) : List LineChar :=
  first.chars ++ bytes.map .d ++ match last with
    | some o => o.chars
    | none => []

/-- A received train. `bad`: it holds a code error. -/
structure Received where
  idles : Nat
  first : Option OrderedSet
  bytes : List Byte
  last : Option OrderedSet
  bad : Bool
deriving DecidableEq, Repr, Inhabited

/-- The IDLE sets at the start, and the rest. -/
def leadIdles : Nat → List (Option LineChar × BitVec 10) → Nat × List (Option LineChar × BitVec 10)
  | fuel + 1, (some a, g) :: (some b, h) :: r =>
    if [a, b] = OrderedSet.idle.chars then let (n, l) := leadIdles fuel r; (n + 1, l) else (0, (some a, g) :: (some b, h) :: r)
  | _, l => (0, l)

/-- The byte that a character stands for inside a train. -/
def byteOf : Option LineChar × BitVec 10 → Byte
  | (some (.d b), _) => b
  | (some (.k b), _) => b
  | (none, g) => Config.badGroup g

/-- Whether a character is a control character. -/
def isK : Option LineChar × BitVec 10 → Bool
  | (some (.k _), _) => true
  | _ => false

/-- A train from its characters: IDLE, the first set, data up to the next K character, and the set that ends it; and the
code errors in it beside those of single groups, which are its invalid ordered sets (R397, R398). -/
def readTrain (l : List (Option LineChar × BitVec 10)) (bad : Bool) : Received × Nat :=
  let (idles, l) := leadIdles l.length l
  let set (l : List (Option LineChar × BitVec 10)) : Option OrderedSet := readSet (l.filterMap (·.1))
  let first := set (l.take 2)
  let body := (l.drop 2).takeWhile fun c => !isK c
  let tail := ((l.drop 2).dropWhile fun c => !isK c).take 2
  let invalid := b2n (!l.isEmpty && first.isNone) + b2n (!tail.isEmpty && (set tail).isNone)
  ({ idles := idles, first := first, bytes := body.map byteOf, last := set tail, bad := bad || decide (0 < invalid) }, invalid)

/-! ### The ports of a ring block (R394, R413 to R415) -/

/-- The receiver of a direction: the west port receives A, the east port B (R394). -/
def rxSide : Dir → Side
  | .a => .west
  | .b => .east

/-- The transmitter of a direction. -/
def txSide : Dir → Side
  | .a => .east
  | .b => .west

/-- The other side. -/
def Side.other : Side → Side
  | .east => .west
  | .west => .east

/-- The port on a side. -/
def Ring.port (x : Ring) : Side → Port
  | .east => x.east
  | .west => x.west

/-- The ring with the port on a side changed. -/
def Ring.modPort (x : Ring) (side : Side) (f : Port → Port) : Ring :=
  match side with
  | .east => { x with east := f x.east }
  | .west => { x with west := f x.west }

/-- A port whose receiver has just aligned: a half full elastic buffer, an idle transmitter. -/
def Port.aligned : Port := { rxRd := false, txRd := false, fill := 8, busy := 0, transit := [], slot := none }

/-- Why a side is failed, if it is. -/
def Ring.failed (x : Ring) (side : Side) : Option SideCause := match side with | .east => x.failE | .west => x.failW

/-- Whether one side is wrapped. -/
def Ring.sideWrapped (x : Ring) (side : Side) : Bool := match side with | .east => x.wrapE | .west => x.wrapW

/-- The transmitter on which the stream of a direction leaves: its own, or the other one while its own side is wrapped
(R421). -/
def Ring.outSide (x : Ring) (dir : Dir) : Side :=
  if x.sideWrapped (txSide dir) then Side.other (txSide dir) else txSide dir

/-- The transmitter carries WRP or IDLE only: its side is failed or wrapped (R420, R421). -/
def Ring.closed (x : Ring) (side : Side) : Bool := (x.failed side).isSome || x.sideWrapped side

/-- INSERTING or INSERTED, and the pins not released by a fatal error: the part is in the loop (R416, R418, R538). -/
def State.ringLive (s : State) (r : RingId) : Bool :=
  ((s.ring r).state == .inserting || (s.ring r).state == .inserted) && !s.power.fatal

/-- Steps of the elastic buffer in one gap: an IDLE is deleted while the buffer runs full and inserted while it runs
empty, 2 BT each (R414). DESIGN CHOICE: it acts outside 7 to 9 bytes. -/
def elastic : Nat → Nat → Nat → Nat × Nat
  | 0, fill, idles => (fill, idles)
  | n + 1, fill, idles =>
    if 10 ≤ fill ∧ 1 ≤ idles then elastic n (fill - 2) (idles - 1)
    else if fill ≤ 6 then elastic n (fill + 2) (idles + 1)
    else (fill, idles)

/-- Code groups arrive at a receiver: what they spell, with the gap before them as the elastic buffer leaves it. The
code errors are counted (R398, R414, R427). -/
def State.receive (s : State) (r : RingId) (side : Side) (groups : List (BitVec 10)) : State × Received :=
  let p := (s.ring r).port side
  let (l, errors, rd) := readGroups p.rxRd groups
  let (t, more) := readTrain l (decide (0 < errors))
  let (fill, idles) := elastic 8 (min 16 (p.fill + Config.lineDrift s.draws % 13 - 6)) t.idles
  let s := { s with draws := s.draws + 1 }.modRing r fun x => x.modPort side fun p => { p with rxRd := rd, fill := fill }
  (if errors + more = 0 then s else s.nlkSat r 0x18 0 16 48 (errors + more), { t with idles := idles })

/-- A transmitter that is idle starts a train: its characters are coded, and it is busy for their byte times. -/
def State.drive (s : State) (r : RingId) (side : Side) (l : List LineChar) : State :=
  let (groups, rd) := encodeChars ((s.ring r).port side).txRd l
  (s.modRing r fun x => x.modPort side fun p => { p with txRd := rd, busy := 8 * l.length }).send (.line r side groups)

/-- The transmitter may start a train of the part: it is idle and its transit buffer empty (R415). -/
def Port.free (p : Port) : Bool := p.busy == 0 && p.transit.isEmpty

/-- A train of a direction's stream leaves, or is held in the transit buffer behind what its transmitter sends (R413,
R415, R421). Nothing leaves on a transmitter that carries WRP or IDLE only. DESIGN CHOICE: a train that the 1,024 bytes
of the transit buffer cannot hold is lost. -/
def State.emit (s : State) (r : RingId) (dir : Dir) (l : List LineChar) : State :=
  let x := s.ring r
  let side := x.outSide dir
  let p := x.port side
  if x.closed side then s
  else if p.free then s.drive r side l
  else if (p.transit.map (·.length)).sum + l.length ≤ 1024 then
    s.modRing r fun x => x.modPort side fun p => { p with transit := p.transit ++ [l] }
  else s

/-- A received train is forwarded on its direction: the gap before it, then the train; a frame with a code error is
ended with EOFA (R398, R413). -/
def State.forward (s : State) (r : RingId) (dir : Dir) (t : Received) : State :=
  match t.first with
  | none => s
  | some f =>
    let last := if f = .sof ∧ t.bad = true then some OrderedSet.eofa else t.last
    s.emit r dir ((List.replicate t.idles OrderedSet.idle.chars).flatten ++ train f t.bytes last)

/-- One tick at a transmitter: 25 eighths of a BT pass, and the oldest held train follows one that has ended (R415). -/
def State.tickPort (s : State) (r : RingId) (side : Side) : State :=
  let p := (s.ring r).port side
  let s := s.modRing r fun x => x.modPort side fun p => { p with busy := p.busy - 25 }
  match p.transit with
  | l :: rest =>
    if p.busy ≤ 25 then
      (s.modRing r fun x => x.modPort side fun p => { p with transit := rest }).drive r side l
    else s
  | [] => s

/-! ### The beacon's body (R403) -/

/-- The 20 bytes of a beacon's body. -/
def beaconBytes (b : Beacon) : List Byte :=
  let flags := b2n b.tsel + 2 * b2n b.wrp + 4 * b2n b.handoff + 8 * b2n b.swp + 16 * b2n b.hold
  let l := natLE 4 b.cycle.toNat ++ natLE 2 b.loop.toNat ++ natLE 2 b.sdly.toNat ++ [BitVec.ofNat 8 flags, b.ver]
    ++ natLE 4 b.swcyc.toNat ++ [0, 0]
  l ++ natLE 4 (crc32c l).toNat

/-- The beacon in a body of 20 bytes with a correct BCRC (R403, R404). -/
def readBeacon (l : List Byte) : Option Beacon :=
  if l.length = 20 ∧ crc32c (l.take 16) = BitVec.ofNat 32 (fieldLE l 16 4) then
    let f : Byte := lget 0 l 8
    some { cycle := BitVec.ofNat 32 (fieldLE l 0 4), loop := BitVec.ofNat 16 (fieldLE l 4 2),
           sdly := BitVec.ofNat 16 (fieldLE l 6 2), tsel := bit f 0, wrp := bit f 1, handoff := bit f 2, swp := bit f 3,
           hold := bit f 4, ver := lget 0 l 9, swcyc := BitVec.ofNat 32 (fieldLE l 10 4) }
  else none

/-- The ordered set that starts a beacon of a direction. -/
def beaconStart : Dir → OrderedSet
  | .a => .bcnA
  | .b => .bcnB

end Sys2Proof.Machine
end

