-- ==== Sys2Proof/Machine/Ring.lean ====
section
/-! DEFINITION. The line, the cycle and the bypass of a ring (14): ring time, beacons, holder changes, failed and wrapped
sides, and the schedule switch. -/

namespace Sys2Proof.Machine

/-! ### Leaving and taking the beacon (R416, R419, R422, R423) -/

/-- The pin of ring `r` driven low or released (R416). -/
def State.ringPin (s : State) (r : RingId) (low : Bool) : State :=
  { s with pins := { s.pins with ringIns := s.pins.ringIns.set r low } }

/-- A schedule switch that a completed PLAN_SWITCH has announced is made at once when the ring leaves the loop before
SWCYC: the plan in force is then the new one (R21, R424). -/
def Ring.leavePlan (x : Ring) (under : Bool) : Ring := if x.swcyc.isSome && !under then { x with tsel := !x.tsel } else x

/-- PLAN_SWITCH is in progress. -/
def State.planUnder (s : State) : Bool := s.keeper.running.any fun r => r.pkt.opcode == 0x0505

/-- The ring block of a part that is out of the loop, in state `st`: the pin is released, and the line state ends
(R416, R427). -/
def State.leaveRing (s : State) (r : RingId) (st : RingState) : State :=
  ((s.leaveStations r).ringPin r false).modRing r fun x =>
    { x.leavePlan s.planUnder with
        state := st, holder := false, sync := false, wrapE := false, wrapW := false, swcyc := none, miss := 0,
        followed := 0, lastWrp := false, takeNext := false, handoff := .none, failE := none, failW := none,
        bcnSent := false, measuring := none, spoiled := false, seenP := none, seenQ := none, sdly := 0,
        east := Port.aligned, west := Port.aligned, incoming := none }

/-- A holder change: NLK.BCN.FAILOV grows and the ring's source fires (R423). -/
def State.holderChange (s : State) (r : RingId) : State := (s.nlkSat r 0x28 32 8 40 1).ringStatus r

/-- The standby takes the beacon: LOOP 0 until measured, the cycle count kept (R422). -/
def State.takeBeacon (s : State) (r : RingId) : State :=
  (s.modRing r fun x =>
    { x with holder := true, hold := x.addr63, sync := true, takeNext := false, loop := 0, miss := 0, measuring := none,
             spoiled := false, sdly := 0, limx := false, incoming := none }).holderChange r

/-- The part follows the other controller as standby (R419, R423). -/
def State.yieldBeacon (s : State) (r : RingId) : State :=
  ((s.leaveStations r).modRing r fun x =>
    { x with holder := false, hold := !x.addr63, followed := 0, miss := 0, seenP := none, seenQ := none,
             measuring := none, spoiled := false, swcyc := none }).holderChange r

/-! ### Cycle boundaries (R399, R421, R424) -/

/-- Compass adopts the plan's event map and slot owners (R21). -/
def State.adoptPlan (s : State) : State :=
  match s.plan with
  | none => s
  | some p => { s with events := p.events, planDue := false,
                       owners := (p.owners.zipIdx).foldl (fun t o => tset 0 t o.2 o.1) [] }

/-- What a cycle boundary does to the ring block itself: the count advances, a measured LOOP becomes valid, a holder
computes the ring version, and the schedule switches at SWCYC (R399, R425, R426, R452). -/
def Ring.nextCycle (x : Ring) : Ring :=
  let x := { x with cycle := x.cycle + 1, rt8 := 0, bcnSent := false }
  let x := match x.measuring, x.spoiled with
    | some m, false => { x with loop := m, limx := decide (8140 < m.toNat) }
    | _, _ => x
  let x := { x with measuring := none, spoiled := x.wrapE || x.wrapW }
  let x := if x.holder then { x with ver := x.version } else x
  if x.swcyc = some x.cycle then { x with tsel := !x.tsel, swcyc := none } else x

/-- The steps of a handover at a cycle boundary (R419): in cycle C + 1 the other controller holds the beacon, and at its
end the pin is released. -/
def State.handoffStep (s : State) (r : RingId) : State :=
  match (s.ring r).handoff with
  | .sent => (s.yieldBeacon r).modRing r fun x => { x with handoff := .given }
  | .given => s.leaveRing r .trained
  | _ => s

/-! ### PLAN_SWITCH under way (R424, R454) -/

/-- The PLAN_SWITCH in progress, while its announcement has not been made and nothing has failed. -/
def State.switching (s : State) : Option Running :=
  s.keeper.running.filter fun r => r.pkt.opcode == 0x0505 && r.status == 0 && !r.announced

/-- A running ring that the part holds. -/
def Ring.isHeld (x : Ring) : Bool := x.state == .inserted && x.holder

/-- Every JOINED station has confirmed the table not in force, and a standby has been sent it. -/
def Ring.loaded (x : Ring) : Bool :=
  x.standbyLoad.isNone && x.stations.all fun p => p.2.st != 2 || p.2.loads.all fun l => l.tnum == x.tsel

/-- PLAN_SWITCH returns HW_FAULT: a station has not confirmed (R424, R454). -/
def Running.unconfirmed (r : Running) : Running :=
  { r with status := 0x0040, reply := natLE 2 0x0505 ++ natLE 2 0 ++ natLE 4 0xFFFFFFFF }

/-- Step 2 of PLAN_SWITCH once every station has confirmed: C is the current CYCLE + 20 (R424). A load that has failed
ends the command. -/
def State.planAnnounce (s : State) : State :=
  match s.switching with
  | none => s
  | some r =>
    let set (s : State) (r : Running) : State := { s with keeper := { s.keeper with running := some r } }
    if s.rings.toList.any fun x => x.isHeld && x.loadFailed then set s r.unconfirmed
    else if s.rings.toList.all fun x => !x.isHeld || x.loaded then
      let s := set s { r with announced := true }
      let go (x : Ring) : Ring := if x.isHeld then { x with swcyc := some (x.cycle + 20) } else x
      { s with rings := s.rings.map go, pcm := { s.pcm with opj := setField s.pcm.opj 16 8 2 } }
    else s

/-- The SerDes margin targets of link `k` (0 PCIe, 1 to 4 rings) that wait for their moment take effect (R520). -/
def Sextant.linkTargets (x : Sextant) (k : Nat) : Sextant :=
  let o := 8 * k
  { x with serdes := x.serdes.take o ++ (x.serdesDue.drop o).take 8 ++ x.serdes.drop (o + 8) }

/-- A cycle boundary of ring `r`: SerDes targets in the beacon window, the ring block's own work, a takeover or a handover
that is due, a plan switch that can be announced, and the adoption of a switched plan by Compass (R21, R424, R520). -/
def State.cycleStart (s : State) (r : RingId) : State :=
  let s := { s with sextant := s.sextant.linkTargets (r.val + 1) }.modRing r Ring.nextCycle
  let s := (if (s.ring r).takeNext then s.takeBeacon r else s.handoffStep r).planAnnounce
  if s.planDue then s.adoptPlan else s

/-! ### Sending the beacon (R399, R403) -/

/-- Whether a side is wrapped. -/
def Ring.wrapped (x : Ring) : Bool := x.wrapE || x.wrapW

/-- The beacon that the holder sends in the current cycle (R403). -/
def Ring.beacon (x : Ring) : Beacon :=
  { cycle := x.cycle, loop := x.loop, sdly := 0, tsel := x.tsel, wrp := x.wrapped, handoff := x.handoff == .asked,
    swp := x.swp, hold := x.addr63, ver := x.ver, swcyc := if x.swp then x.swcyc.getD 0 else 0 }

/-- The directions in the order in which their trains of one moment leave: the stream of a wrapped side comes after the
stream of the transmitter that carries it (R421). -/
def Ring.dirs (x : Ring) : List Dir := if x.wrapE then [.b, .a] else [.a, .b]

/-- The beacon of the current cycle leaves on both directions. `measured` is the time that its first code group takes back to
the A receiver, if it comes back (R399). -/
def State.sendBeacon (s : State) (r : RingId) (measured : Option (BitVec 16)) : State :=
  let x := s.ring r
  let s := s.modRing r fun x =>
    { x with bcnSent := true, rt8 := 0, spoiled := x.wrapped, measuring := measured,
             handoff := if x.handoff = .asked then .sent else x.handoff }
  x.dirs.foldl (fun s d => s.emit r d (train (beaconStart d) (beaconBytes x.beacon) none)) s

/-- BEACON_SEND: the start of a cycle at the holder, or at a standby that takes the beacon (R399, R422). Turned away when
the part is neither. -/
def execBeaconSend (r : RingId) (measured : Option (BitVec 16)) (s : State) : Host.Outcome State Fault Refusal :=
  let x := s.ring r
  if !s.ringLive r || !(x.holder || x.takeNext) then .next s
  else
    let s := if x.bcnSent || x.takeNext then s.cycleStart r else s
    .next (if (s.ring r).holder then s.sendBeacon r measured else s)

/-! ### Receiving a beacon (R400, R404, R423) -/

/-- The WRP flag of a received beacon: a change raises the ring's source (R421), and a set flag spoils the measurement of
LOOP (R399). -/
def State.noteWrp (s : State) (r : RingId) (wrp : Bool) : State :=
  let x := s.ring r
  let s := s.modRing r fun x => { x with lastWrp := wrp, spoiled := x.spoiled || wrp }
  if x.lastWrp = wrp then s else s.ringStatus r

/-- Direction P of the holder that the part follows (R400). -/
def Ring.dirP (x : Ring) : Dir := if x.hold then .b else .a

/-- dP from LOOP and the arrival times of the two beacons, rounded to the nearest BT (R400). -/
def delayP (loop tP tQ : Nat) : Nat := (((loop : Int) + tP - tQ + 1) / 2).toNat

/-- The delays when both beacons of this cycle have arrived, unwrapped and with LOOP known; and the delay from the standby
in every cycle (R400). -/
def Ring.measureDelays (x : Ring) : Ring :=
  let x := match x.seenP, x.seenQ with
    | some (tP, p), some (tQ, q) =>
      if p.cycle = q.cycle ∧ p.wrp = false ∧ q.wrp = false ∧ p.loop ≠ 0 then
        let d := delayP p.loop.toNat tP.toNat tQ.toNat
        { x with dp := BitVec.ofNat 16 d, dq := p.loop - BitVec.ofNat 16 d }
      else x
    | _, _ => x
  match x.seenQ with
  | some (_, q) => { x with ds := x.dq - q.sdly }
  | none => x

/-- A beacon that arrives at own ring time `rt` is within 16 BT of its expected time `d` (R401). -/
def nearTime (rt d : Nat) : Bool :=
  let k := (rt + 31250 - d % 31250) % 31250
  decide (k ≤ 16) || decide (31250 - 16 ≤ k)

/-- A beacon of the followed holder sets ring time, delays and the fields that every node takes from it; within its window
it ends a run of missing beacons (R400, R401, R403, R425, R452). -/
def Ring.follow (x : Ring) (dir : Dir) (b : Beacon) (rt : BitVec 15) : Ring :=
  let isP := dir == x.dirP
  let first := !((x.seenP.any fun p => p.2.cycle == b.cycle) || (x.seenQ.any fun p => p.2.cycle == b.cycle))
  let hadP := x.seenP.any fun p => p.2.cycle == b.cycle
  let onTime := !x.sync || nearTime rt.toNat (if isP then x.dp else x.dq).toNat
  let x := if isP then { x with seenP := some (rt, b) } else { x with seenQ := some (rt, b) }
  let x := x.measureDelays
  let t := if isP then some x.dp else if hadP then none else some x.dq
  let x := match t with
    | some d => { x with rt8 := 8 * (d.toNat % 31250) }
    | none => x
  let due := match x.swcyc with
    | some c => decide ((b.cycle - c).toNat < 2 ^ 31)
    | none => false
  { x with cycle := b.cycle, loop := b.loop, tsel := b.tsel, ver := b.ver, sync := true, takeNext := b.handoff,
           miss := if onTime then 0 else x.miss, followed := if first && onTime then x.followed + 1 else x.followed,
           sdly := b.sdly, swcyc := if b.swp then some b.swcyc else if due then none else x.swcyc }

/-- The beacon as the standby forwards it: SDLY is its own dQ + 30, and WRP is set while it is wrapped (R403, R421). -/
def Ring.forwarded (x : Ring) (b : Beacon) : Beacon := { b with sdly := x.dq + 30, wrp := b.wrp || x.wrapped }

/-- The standby follows a beacon with identity `id` that arrives on the receiver of `dir`, and forwards it. DEDUCED: a
beacon that a wrap has brought to the other receiver sets no times, for R400 takes each on the receiver of its own
direction; its WRP flag is seen, and it is forwarded. -/
def State.followBeacon (s : State) (r : RingId) (dir : Dir) (id : OrderedSet) (b : Beacon) (rt : BitVec 15) : State :=
  let s := (if id = beaconStart dir then s.modRing r fun x => x.follow dir b rt else s).noteWrp r b.wrp
  s.emit r dir (train id (beaconBytes ((s.ring r).forwarded b)) none)

/-- A beacon whose BCRC fails, or from a holder that the node does not follow, is discarded and counted (R404). -/
def State.duel (s : State) (r : RingId) : State := s.nlkSat r 0x28 16 16 40 1

/-- A beacon of the other controller: a holder at address 63 stops and follows it, holder 0 keeps the beacon, and a
standby follows (R404, R423). -/
def State.otherBeacon (s : State) (r : RingId) (dir : Dir) (id : OrderedSet) (b : Beacon) (rt : BitVec 15) : State :=
  let x := s.ring r
  if !x.holder then s.followBeacon r dir id b rt
  else if x.addr63 then (s.yieldBeacon r).followBeacon r dir id b rt
  else s.duel r

/-- The holder's own beacon comes back: SDLY tells whether a standby is there, and the WRP flag is seen. -/
def State.ownBeacon (s : State) (r : RingId) (b : Beacon) : State :=
  let s := s.noteWrp r b.wrp
  s.modRing r fun x =>
    { x with sdly := b.sdly, standbyLoad := if b.sdly = 0 then none else x.standbyLoad }

/-- A beacon of identity `id` has arrived on the receiver of `dir` at own ring time `rt` (R399, R400, R404, R423). -/
def State.takeArrival (s : State) (r : RingId) (dir : Dir) (id : OrderedSet) (body : Option Beacon) (rt : BitVec 15) :
    State :=
  let x := s.ring r
  match body with
  | none => s.duel r
  | some b =>
    if b.hold = x.addr63 then (if x.holder then s.ownBeacon r b else s.duel r)
    else
      let s := if !x.holder && x.cycle != b.cycle then s.cycleStart r else s
      if s.ringLive r then s.otherBeacon r dir id b rt else s

/-- BEACON_RECEIVE: code groups that spell a beacon arrive on the receiver of `dir` at own ring time `rt`. Turned away
when the part is out of the loop or the train is no beacon. -/
def execBeaconReceive (r : RingId) (dir : Dir) (groups : List (BitVec 10)) (rt : BitVec 15) (s : State) :
    Host.Outcome State Fault Refusal :=
  let (s', t) := s.receive r (rxSide dir) groups
  match s.ringLive r, t.first with
  | true, some .bcnA => .next (s'.takeArrival r dir .bcnA (readBeacon t.bytes) rt)
  | true, some .bcnB => .next (s'.takeArrival r dir .bcnB (readBeacon t.bytes) rt)
  | _, _ => .next s

/-- BEACON_MISSING (R401, R422): the held schedule runs on; after the third missing beacon the allegiance ends, and a
standby that has followed for 10 consecutive cycles takes the beacon at its next cycle boundary. -/
def execBeaconMissing (r : RingId) (s : State) : Host.Outcome State Fault Refusal :=
  let x := s.ring r
  if !s.ringLive r || x.holder || !(x.sync || decide (0 < x.miss)) then .next s
  else
    let miss := x.miss + 1
    .next (s.modRing r fun x =>
      { x with miss := miss, followed := if x.followed < 10 then 0 else x.followed,
               sync := x.sync && decide (miss < 3), takeNext := x.takeNext || decide (miss = 3 ∧ 10 ≤ x.followed) })

/-! ### Sides (R420, R421) -/

/-- The ring with the failure of a side set or cleared. -/
def Ring.setFailed (x : Ring) (side : Side) (c : Option SideCause) : Ring :=
  match side with | .east => { x with failE := c } | .west => { x with failW := c }

/-- The ring with a side wrapped or not. -/
def Ring.setWrapped (x : Ring) (side : Side) (w : Bool) : Ring :=
  match side with | .east => { x with wrapE := w } | .west => { x with wrapW := w }

/-- SIDE_FAILURE (R420): the side is failed; its transmitter carries WRP after a loss of signal or alignment, and IDLE
otherwise. The losses and the code errors are counted (R427). -/
def execSideFailure (r : RingId) (side : Side) (cause : SideCause) (s : State) : Host.Outcome State Fault Refusal :=
  let x := s.ring r
  if x.state = .off ∨ x.failed side = some cause then .next s
  else
    let s := (s.modRing r fun x => x.setFailed side (some cause)).send (.sideTx r side (cause == .signal))
    .next (match cause with
      | .signal => s.nlkSat r 0x18 16 8 48 1
      | .codeErrors => s.nlkSat r 0x18 0 16 48 17
      | .wrp => s)

/-- SIDE_RECOVERY (R420): the side is no longer failed; while it stays wrapped its transmitter carries IDLE. -/
def execSideRecovery (r : RingId) (side : Side) (s : State) : Host.Outcome State Fault Refusal :=
  if ((s.ring r).failed side).isNone then .next s
  else .next ((s.modRing r fun x => x.setFailed side none).send (.sideTx r side false))

/-- WRAP (R421): a side failed for 100 µs is wrapped at a cycle boundary; the wrap is counted and raises the source. -/
def execWrap (r : RingId) (side : Side) (s : State) : Host.Outcome State Fault Refusal :=
  let x := s.ring r
  if !s.ringLive r || (x.failed side).isNone || x.sideWrapped side then .next s
  else
    .next (((s.modRing r fun x => { x.setWrapped side true with spoiled := true }).nlkSat r 0x18 24 8 48 1).ringStatus r)

/-- UNWRAP (R421): a side not failed for 2 complete cycles is unwrapped at a cycle boundary. -/
def execUnwrap (r : RingId) (side : Side) (s : State) : Host.Outcome State Fault Refusal :=
  let x := s.ring r
  if !s.ringLive r || (x.failed side).isSome || !x.sideWrapped side then .next s
  else .next ((s.modRing r fun x => x.setWrapped side false).ringStatus r)

/-- SCHEDULE_SWITCH (R424, R425): the start of cycle SWCYC. Turned away when the next cycle is not the announced one. -/
def execScheduleSwitch (r : RingId) (s : State) : Host.Outcome State Fault Refusal :=
  let x := s.ring r
  if s.ringLive r ∧ x.swcyc = some (x.cycle + 1) then .next (s.cycleStart r) else .next s

end Sys2Proof.Machine
end

