-- ==== Sys2Proof/Machine/Message.lean ====
section
/-! DEFINITION. Frames, transactions, urgent records and stations of a ring (14, 15): what travels in the minislots and
the data slots while the part holds the beacon. -/

namespace Sys2Proof.Machine

/-! ### Classes and types (R431, R447) -/

/-- Whether a class is in use: 0x0 and 0xB to 0xD carry no message. -/
def classUsed (c : Nat) : Bool := c != 0 && !(decide (0xB ≤ c) && decide (c ≤ 0xD))

/-- Whether a class carries streams. -/
def classStreams (c : Nat) : Bool := c == 3 || c == 5 || c == 6 || c == 9 || c == 0xA || c == 0xF

/-- Whether a consuming type, REQ to STE, is permitted for a class. -/
def typePermitted (c t : Nat) : Bool :=
  classUsed c && (decide (1 ≤ t) && decide (t ≤ 3) || (t == 4 || t == 5) && classStreams c)

/-! ### Delivery to an IQ (R376, R377) -/

/-- The IQ descriptor (R376), without PHASE. -/
def iqDescriptor (len g c typ : Nat) (stamp : Word) : List Byte :=
  natLE 2 len ++ natLE 2 g ++ [BitVec.ofNat 8 c, BitVec.ofNat 8 typ, 0, 0] ++ natLE 4 (stamp.toNat % 2 ^ 32) ++ [0, 0, 0, 0]

/-- Whether an IQ can take a message of `len` bytes; if not, the field of NLK.DROP that counts it, by its lowest bit
(R377, R456, R458). -/
def State.iqDrop (s : State) (qid len : Nat) : Option Nat :=
  let q := s.queue qid
  if (s.dom (queueDomain qid)).state ≠ .active then some 24
  else if !q.en || q.kind != 3 || q.err != 0 || s.power.fatal || q.free == 0 then some 36
  else if q.bsize < len then some 48
  else none

/-- The writes of a delivery: payload, descriptor, and the PHASE bit in the entry's last byte (R369, R377). -/
def State.iqWrite (s : State) (qid : Nat) (desc payload : List Byte) : Option Nat × State :=
  let q := s.queue qid
  let d := queueDomain qid
  let pa := q.base + q.esize * q.slot q.pi
  match s.moveWrite d (q.xbase.toNat + q.bsize * q.slot q.pi) payload with
  | (some err, s) => (some err, s)
  | (none, s) =>
    if q.esize = 16 then s.moveWrite d pa (withPhase desc q.pph)
    else
      match s.moveRead d (pa + q.esize - 1) 1 with
      | (.error err, s) => (some err, s)
      | (.ok last, s) => s.moveWrites d pa desc (pa + q.esize - 1) (withPhase last q.pph)

/-- A message goes to the IQ of its pair: dropped and counted, or written, with PI advanced and the event raised. Also
answers whether it was delivered (R377). -/
def State.deliverIq (s : State) (r : RingId) (qid g c typ : Nat) (payload : List Byte) : State × Bool :=
  match s.iqDrop qid payload.length with
  | some lo => (s.nlkSat r 0x40 lo 12 60 1, false)
  | none =>
    let q := s.queue qid
    match s.iqWrite qid (iqDescriptor payload.length g c typ s.pcm.chrono) payload with
    | (some err, s) => (s.queueError qid err q.pi (q.base + q.esize * q.slot q.pi), false)
    | (none, s) =>
      let s := (s.modQueue qid fun q => q.addPi 1).queueEvent qid
      let s := (s.count (qmgBase + 0x100 + 8 * r.val) 1).count (qmgBase + 0x140 + 8 * r.val) payload.length
      (s.countMove qid 1 payload.length, true)

/-! ### Loading schedule tables (R450, R451, R454) -/

/-- An entry of a slot table as bytes (R410). -/
def SlotEntry.bytes (e : SlotEntry) : List Byte :=
  natLE 2 e.start.toNat ++ natLE 2 e.len.toNat
    ++ [e.owner, BitVec.ofNat 8 (b2n e.dirB + 2 * b2n e.anyClass + 16 * e.cls.toNat), e.peer, 0]

/-- Entry `i` of a slot table. -/
def readSlot (l : List Byte) (i : Nat) : SlotEntry :=
  let o := 16 + 8 * i
  let f : Byte := lget 0 l (o + 5)
  { start := BitVec.ofNat 16 (fieldLE l o 2), len := BitVec.ofNat 16 (fieldLE l (o + 2) 2), owner := lget 0 l (o + 4),
    dirB := bit f 0, anyClass := bit f 1, cls := field f 4 4, peer := lget 0 l (o + 6) }

/-- The entries of a slot table. -/
def readSlots (l : List Byte) : List SlotEntry := (List.range (fieldLE l 4 2)).map (readSlot l)

/-- The slot table of a ring plan as bytes, with some of its entries (R410). -/
def RingPlan.tableBytes (p : RingPlan) (r : RingId) (own : List SlotEntry) : List Byte :=
  natLE 2 1 ++ [BitVec.ofNat 8 r.val, 0] ++ natLE 2 own.length ++ natLE 2 p.msofs.toNat ++ List.replicate 8 0
    ++ (own.map SlotEntry.bytes).flatten

/-- The table extract of station `a` (R450). -/
def RingPlan.extract (p : RingPlan) (r : RingId) (a : Nat) : List Byte :=
  p.tableBytes r (p.slots.filter fun e => e.owner.toNat == a)

/-- The extract that a load sends, empty while the ring does not hold the table. -/
def Ring.extractOf (x : Ring) (r : RingId) (a : Nat) (t : Bool) : List Byte :=
  ((x.planOf t).map fun p => p.extract r a).getD []

/-- The slot table that the standby is sent, whole (R424). -/
def Ring.standbyTable (x : Ring) (r : RingId) (t : Bool) : List Byte :=
  ((x.planOf t).map fun p => p.tableBytes r p.slots).getD []

/-- A first load of table `t`. -/
def TableLoad.first (t : Bool) : TableLoad := { tnum := t, tries := 1, ofs := 0, ended := false }

/-- A load of table `t` into a JOINED station starts (R454). -/
def Ring.startLoad (x : Ring) (a : Nat) (t : Bool) : Ring :=
  x.modStation a fun y => { y with loads := y.loads.filter (fun l => l.tnum != t) ++ [TableLoad.first t] }

/-- A load of table `t` ends without TBLOK: the extract is sent again, up to three times; then the load has failed, and
a joining station returns to ABSENT (R450, R451, R454). -/
def State.reload (s : State) (r : RingId) (a : Nat) (t : Bool) : State :=
  let y := (s.ring r).station a
  match y.loads.find? fun l => l.tnum == t with
  | none => s
  | some l =>
    if l.tries < 3 then
      s.modRing r fun x => x.modStation a fun y =>
        { y with loads := y.loads.map fun m =>
            if m.tnum == t then { m with tries := m.tries + 1, ofs := 0, ended := false } else m }
    else if y.st = 1 then s.dropStation r a 0
    else s.modRing r fun x =>
      { x.modStation a fun y => { y with loads := y.loads.filter fun m => m.tnum != t } with loadFailed := true }

/-! ### Station management (R449, R451, R453) -/

/-- Whether a station may join with these versions (R451, R452). -/
def Ring.mayJoin (x : Ring) (a : Nat) (vmin vmax : Byte) : Bool :=
  (x.table.map fun p => (p.station a).expected).getD false && decide (vmin.toNat ≤ 2) && decide (1 ≤ vmax.toNat)
    && x.stations.all fun p => p.1 == a || p.2.st != 2 ||
      (decide (vmin.toNat ≤ p.2.vmax.toNat) && decide (p.2.vmin.toNat ≤ vmax.toNat))

/-- JOIN of station `a` (R451). A station that joins while PLAN_SWITCH is in progress, or a switch announced, is given the
other table too (R454). -/
def State.join (s : State) (r : RingId) (a : Nat) (vmin vmax : Byte) : State :=
  let x := s.ring r
  let was := (x.station a).st
  if x.mayJoin a vmin vmax then
    let s := s.resetLinks r a
    let s := s.modRing r fun x => x.modStation a fun y =>
      { y with st := 1, vmin := vmin, vmax := vmax,
               loads := TableLoad.first x.tsel :: (if x.swp || s.switching.isSome then [TableLoad.first (!x.tsel)] else []) }
    if was = 2 then s.ringStatus r else s
  else
    let s := s.dropStation r a 3
    let s := s.modRing r fun x => x.modStation a fun y => { y with vmin := vmin, vmax := vmax }
    s.setReg (nlk r 0x60) (s.reg (nlk r 0x60) ||| BitVec.ofNat 64 (2 ^ a))

/-- TBLOK of station `a` for table `t` (R450, R451, R454): taken when a finished load of that table has this CRC. -/
def State.tblok (s : State) (r : RingId) (a : Nat) (t : Bool) (crc : BitVec 16) : State :=
  let x := s.ring r
  let y := x.station a
  if !(y.loads.any fun l => l.tnum == t && l.ended) || (crc32c (x.extractOf r a t)).setWidth 16 != crc then s
  else
    let rest := y.loads.filter fun l => l.tnum != t
    let joins := y.st == 1 && rest.isEmpty
    let s := s.modRing r fun x =>
      { x.modStation a fun y => { y with loads := rest, st := if joins then 2 else y.st } with
        confirmed := if t = x.tsel then x.confirmed else x.confirmed ||| BitVec.ofNat 64 (2 ^ a) }
    if joins then s.ringStatus r else s

/-- A management record of station `a`: operations 0x01 to 0x04 (R449). Other operations below 0x80 do nothing. -/
def State.manage (s : State) (r : RingId) (a : Nat) (l : List Byte) : State :=
  let at' (i : Nat) : Byte := lget 0 l i
  match (at' 0).toNat with
  | 1 => s.join r a (at' 1) (at' 2)
  | 2 => s.tblok r a (at' 1 == 1) (BitVec.ofNat 16 ((at' 2).toNat + 256 * (at' 3).toNat))
  | 3 => s.reload r a (at' 1 == 1)
  | 4 => s.dropStation r a 0
  | _ => s

/-! ### Urgent minislots (R405 to R408) -/

/-- A minislot between MSS and MSE, as it leaves the holder: MSX, FILL, CYC, HCRC and 8 empty positions (R405, R406). -/
def emptyMinislot (k : Fin 10) (hold : Bool) (cycle : BitVec 32) : List Byte :=
  let h : List Byte := [BitVec.ofNat 8 (k.val + 128 * b2n hold), 0, cycle.setWidth 8]
  h ++ [crc8 h] ++ List.replicate 64 0

/-- MINISLOT_SEND: minislot `k` leaves on direction P (R402). Turned away unless the part holds the beacon. -/
def execMinislotSend (r : RingId) (k : Fin 10) (s : State) : Host.Outcome State Fault Refusal :=
  let x := s.ring r
  match s.ringLive r && x.holder, x.table with
  | true, some p =>
    let s := s.modRing r fun x =>
      { x with minislots := x.minislots ++ [k], rt8 := 8 * (p.msofs.toNat + 3125 * k.val) }
    .next (s.emit r x.dirP (train .mss (emptyMinislot k x.addr63 x.cycle) (some .mse)))
  | _, _ => .next s

/-- A discarded minislot (R408). -/
def State.loseMinislot (s : State) (r : RingId) : State :=
  (s.modRing r fun x => { x with minislots := x.minislots.drop 1 }).nlkSat r 0x20 48 8 56 1

/-- One urgent record (R408, R449): discarded and counted, or its source is raised, and it is handled by the ring block
or delivered to the IQ of its pair. -/
def State.urgent (s : State) (r : RingId) (l : List Byte) : State :=
  let src := lget 0 l 0
  let a := src.toNat % 64
  let c := (lget 0 l 1).toNat % 16
  let data := (l.drop 2).take 5
  if !bit src 7 || crc8 (l.take 7) != lget 0 l 7 || a = 0 || a = 63 then s.nlkSat r 0x20 32 16 56 1
  else
    let g := globalStation r a
    let s := (s.fire (0x10000 + 16 * g + c)).nlkWrap r 0x20 0
    if c = 0xE ∧ (lget 0 data 0).toNat < 0x80 then s.manage r a data
    else
      match s.pairEntry r a c with
      | some m => if m.inn then (s.deliverIq r m.iq.toNat g c 8 data).1 else s
      | none => s

/-- The 68 bytes of a minislot that has come back to the holder (R408). -/
def State.takeMinislot (s : State) (r : RingId) (bytes : List Byte) : State :=
  if crc8 (bytes.take 3) ≠ lget 0 bytes 3 then s.loseMinislot r
  else
    let k := (lget 0 bytes 0).toNat % 16
    let s := s.modRing r fun x => { x with minislots := x.minislots.filter fun i => i.val != k }
    let fill := min 8 (lget 0 bytes 1).toNat
    (List.range fill).foldl (fun s j => s.urgent r ((bytes.drop (4 + 8 * j)).take 8)) s

/-- MINISLOT_RETURN: code groups that spell a minislot of 68 bytes between MSS and MSE arrive on the receiver of direction
P (R405). The holder takes it (R408); a standby forwards it unchanged (R413). Turned away when the part is out of the
loop, when it holds the beacon and no minislot is out, and when the train is no minislot. -/
def execMinislotReturn (r : RingId) (groups : List (BitVec 10)) (s : State) : Host.Outcome State Fault Refusal :=
  let x := s.ring r
  let (s', t) := s.receive r (rxSide x.dirP) groups
  if !s.ringLive r || t.first != some .mss || t.last != some .mse || t.bytes.length != 68 then .next s
  else if !x.holder then .next (s'.forward r x.dirP t)
  else if x.minislots.isEmpty then .next s
  else .next (s'.takeMinislot r t.bytes)

/-- MINISLOT_LOST: the oldest minislot has not returned within LOOP + 256 BT (R408). -/
def execMinislotLost (r : RingId) (s : State) : Host.Outcome State Fault Refusal :=
  if !s.ringLive r || !(s.ring r).holder || (s.ring r).minislots.isEmpty then .next s else .next (s.loseMinislot r)

/-- TABLE_EXTRACT_RESEND: no TBLOK within 20 cycles of a TBLEND (R450). -/
def execTableExtractResend (r : RingId) (a : BitVec 6) (s : State) : Host.Outcome State Fault Refusal :=
  match s.ringUp r && (s.ring r).holder, ((s.ring r).station a.toNat).loads.find? fun l => l.ended with
  | true, some l => .next (s.reload r a.toNat l.tnum)
  | _, _ => .next s

/-- STATION_LOST: nothing valid from a JOINED station for 500 cycles (R453). -/
def execStationLost (r : RingId) (a : BitVec 6) (s : State) : Host.Outcome State Fault Refusal :=
  if s.ringUp r && (s.ring r).holder && ((s.ring r).station a.toNat).st == 2 then .next (s.dropStation r a.toNat 0)
  else .next s

/-! ### Receiving a frame (R432) -/

/-- The header of a frame (R429). -/
structure Header where
  dst : Nat
  src : Nat
  cls : Nat
  typ : Nat
  rsyn : Bool
  av : Bool
  nak : Bool
  seq : BitVec 12
  rtx : Bool
  len : Nat
  aseq : BitVec 12
  xid : BitVec 16
  /-- Some bit that R429 marks zero is 1. -/
  reserved : Bool

/-- The header in the first 12 bytes of a frame. -/
def readHeader (l : List Byte) : Header :=
  let at' (i : Nat) : Byte := lget 0 l i
  let w (i : Nat) : Nat := fieldLE l i 2
  { dst := (at' 0).toNat % 64, src := (at' 1).toNat % 64, cls := (at' 2).toNat % 16, typ := (at' 3).toNat % 16,
    rsyn := bit (at' 3) 4, av := bit (at' 3) 5, nak := bit (at' 3) 6, seq := BitVec.ofNat 12 (w 4),
    rtx := w 4 / 4096 % 2 == 1, len := w 6 % 1024, aseq := BitVec.ofNat 12 (w 8), xid := BitVec.ofNat 16 (w 10),
    reserved := 64 ≤ (at' 0).toNat || 64 ≤ (at' 1).toNat || 16 ≤ (at' 2).toNat || 128 ≤ (at' 3).toNat
      || 2 ^ 13 ≤ w 4 || 2 ^ 10 ≤ w 6 || 2 ^ 12 ≤ w 8 }

/-- A frame is discarded at a step of R432: the header and the reason are recorded (R458). -/
def State.recordHeader (s : State) (r : RingId) (l : List Byte) (why : BitVec 8) : State :=
  (s.setReg (nlk r 0x70) (BitVec.ofNat 64 (fieldLE l 0 8))).setReg (nlk r 0x78)
    (BitVec.ofNat 64 (fieldLE l 8 4 + 2 ^ 32 * why.toNat))

/-- The checks of a frame's header against the directory (R432 step 4, R431, R447): the reason of the first failure. -/
def Ring.headerFault (x : Ring) (h : Header) : Option Nat :=
  let mask : BitVec 16 := (x.table.map fun p => (p.station h.src).cmask).getD 0
  if h.reserved || h.src == 0 || h.src == 63 then some 2
  else if h.typ = 0 then
    if h.cls = 0 ∧ h.len = 0 ∧ h.av = true ∧ h.seq = 0 ∧ h.rtx = false then none else some 2
  else if !classUsed h.cls || !bit mask h.cls || !typePermitted h.cls h.typ then some 3
  else none

/-- Frame `f` is acknowledged by ASEQ `a` (R435). -/
def OutFrame.ackedBy (f : OutFrame) (a : BitVec 12) : Bool :=
  decide (1 ≤ (a - f.seq).toNat) && decide ((a - f.seq).toNat ≤ 2048)

/-- The acknowledgement fields of a frame are applied (R435): acknowledged frames end with STATUS 0x00, and a NAK makes
the unacknowledged frames from `a` on due again, while their number of transmissions allows (R437). -/
def State.applyAck (s : State) (r : RingId) (a : Nat) (h : Header) : State :=
  let x := s.ring r
  let y := x.station a
  if !h.av || (x.ver.toNat ≤ 1 && h.typ != 0) || decide (2048 ≤ (y.txseq - h.aseq).toNat) then s
  else
    let acked := y.out.filter (·.ackedBy h.aseq)
    let left := y.out.filter fun f => !f.ackedBy h.aseq
    let left := if h.nak then left.map fun f => { f with due := f.due || decide (f.sent ≤ x.retry) } else left
    let s := s.modRing r fun x => x.modStation a fun y => { y with out := left }
    acked.foldl (fun s f =>
      let s := s.endEntry f.oq.toNat f.oqIndex 0 f.sof
      if f.typ = 1 then
        s.modPair (globalStation r a) f.cls.toNat fun p =>
          { p with openOut := p.openOut.map fun o => if o.1 = f.xid then (o.1, true, o.2.2) else o }
      else s) s

/-- What the sequence rule says of a consuming frame (R434). -/
inductive SeqVerdict where
  | accept | discard | duplicate | ahead
deriving DecidableEq, Repr

/-- The sequence rule (R434). -/
def Station.sequence (y : Station) (seq : BitVec 12) (rsyn : Bool) : SeqVerdict :=
  if y.rxuns then (if rsyn then .accept else .discard)
  else if seq = y.rxexp then .accept
  else if 1 ≤ (y.rxexp - seq).toNat ∧ (y.rxexp - seq).toNat ≤ 2048 then .duplicate
  else if rsyn then .accept
  else .ahead

/-- A message of a pair that no IQ takes (R432 step 8). -/
def State.noMap (s : State) (r : RingId) (l : List Byte) : State := (s.nlkSat r 0x40 12 12 60 1).recordHeader r l 5

/-- An accepted frame is delivered (R432 step 8, R441, R443, R449). The XID of a REQ becomes the pair's open inbound
request, delivered or not (R443). -/
def State.deliverFrame (s : State) (r : RingId) (h : Header) (l payload : List Byte) : State :=
  let a := h.src
  let g := globalStation r a
  let s := if h.typ = 1 then s.modPair g h.cls fun p => { p with openIn := some h.xid } else s
  if h.cls = 0xE ∧ payload ≠ [] ∧ (lget 0 payload 0).toNat < 0x80 then s
  else
    match s.pairEntry r a h.cls with
    | none => s.noMap r l
    | some m =>
      if !m.inn then s.noMap r l
      else if h.typ = 2 then
        match (s.pair g h.cls).openOut with
        | some (x, _, _) =>
          if x = h.xid then
            let (s, ok) := s.deliverIq r m.iq.toNat g h.cls 2 payload
            if ok then s.endRequest g h.cls x else s
          else s.nlkSat r 0x50 32 16 48 1
        | none => s.nlkSat r 0x50 32 16 48 1
      else (s.deliverIq r m.iq.toNat g h.cls h.typ payload).1

/-- Steps 7 and 8 of R432 for a consuming frame (R434, R436). -/
def State.takeConsuming (s : State) (r : RingId) (h : Header) (l payload : List Byte) : State :=
  let y := (s.ring r).station h.src
  let mod (f : Station → Station) (s : State) : State := s.modRing r fun x => x.modStation h.src f
  let owe (y : Station) : Station := { y with owed := true, owedAt := if y.owed then y.owedAt else s.pcm.chrono }
  match y.sequence h.seq h.rsyn with
  | .accept =>
    ((mod (fun y => { owe y with rxexp := h.seq + 1, rxuns := false }) s).nlkWrap r 0x30 0).deliverFrame r h l
      payload
  | .discard => s
  | .duplicate => (mod owe s).nlkWrap r 0x30 32
  | .ahead => (mod (fun y => { y with nak := true }) s).nlkSat r 0x38 32 16 48 1

/-- The handling of a consumed frame in the order of R432. `codeError`: it ended in EOFA or held a code error. -/
def State.takeFrame (s : State) (r : RingId) (l : List Byte) (codeError : Bool) : State :=
  let h := readHeader l
  let x := s.ring r
  let n := l.length - 16
  let why := Config.frameReason s.draws
  let crcFault (s : State) : State :=
    ({ s with draws := s.draws + 1 }.nlkSat r 0x38 0 16 48 1).recordHeader r l why
  if codeError then crcFault s
  else if h.len ≠ n ∨ 512 < h.len ∨ l.length < 16 then (s.nlkSat r 0x38 16 16 48 1).recordHeader r l 1
  else if crc32c (l.take (12 + n)) ≠ BitVec.ofNat 32 (fieldLE l (12 + n) 4) then crcFault s
  else
    match x.headerFault h with
    | some k => (s.nlkSat r 0x38 16 16 48 1).recordHeader r l (BitVec.ofNat 8 k)
    | none =>
      if (x.station h.src).st ≠ 2 then (s.nlkSat r 0x40 0 12 60 1).recordHeader r l 4
      else
        let s := s.applyAck r h.src h
        if h.typ = 0 then s else s.takeConsuming r h l ((l.drop 12).take n)

/-- A slot table that the standby has received whole replaces the slots of table `t`; the directory stays that of the
table it replaces, or of the one in force (R424). -/
def Ring.installTable (x : Ring) (t : Bool) (l : List Byte) : Ring :=
  let old : Option RingPlan := if (x.planOf t).isSome then x.planOf t else x.table
  let p : RingPlan := { old.getD default with msofs := BitVec.ofNat 16 (fieldLE l 6 2), slots := readSlots l }
  if t then { x with table1 := some p } else { x with table0 := some p }

/-- A table datagram reaches the standby (R424, R450): TBLDATA that continues what has come is kept, and TBLEND with the
right length and CRC-32C installs the table. -/
def Ring.takeDatagram (x : Ring) (l : List Byte) : Ring :=
  let t := lget 0 l 1 == 1
  let ofs := fieldLE l 4 2
  let have' : List Byte := match x.incoming with
    | some (u, k) => if u = t ∧ ofs ≠ 0 then k else []
    | none => []
  if lget 0 l 0 = 0x10 then
    { x with incoming := if have'.length = ofs then some (t, have' ++ l.drop 8) else none }
  else if lget 0 l 0 = 0x11 then
    let x := if have'.length = ofs ∧ crc32c have' = BitVec.ofNat 32 (fieldLE l 8 4) then x.installTable t have' else x
    { x with incoming := none }
  else x

/-- A frame that the followed holder sends to the standby (R413, R424): checked as a lane station checks one, and only a
management datagram says anything to it. -/
def State.standbyFrame (s : State) (r : RingId) (l : List Byte) (codeError : Bool) : State :=
  let h := readHeader l
  let n := l.length - 16
  if codeError || h.len != n || decide (512 < h.len) || decide (l.length < 16) || h.reserved || h.typ != 6 || h.cls != 0xE
      || crc32c (l.take (12 + n)) != BitVec.ofNat 32 (fieldLE l (12 + n) 4) then s
  else s.modRing r fun x => x.takeDatagram ((l.drop 12).take n)

/-- A controller address: 63 or 0. -/
def ctrlAddr (b : Bool) : Nat := if b then 63 else 0

/-- A frame that has arrived on the receiver of `dir` (R413): the holder consumes one to a controller address, the standby
one from the holder to itself; one from the own address is discarded; any other is forwarded. -/
def State.takeArrived (s : State) (r : RingId) (dir : Dir) (t : Received) : State :=
  let x := s.ring r
  let dst := (lget 0 t.bytes 0).toNat % 64
  let src := (lget 0 t.bytes 1).toNat % 64
  let bad := t.bad || t.last != some .eof
  if x.holder && s.ringUp r && (dst == 0 || dst == 63) then s.takeFrame r t.bytes bad
  else if src = ctrlAddr x.addr63 then s
  else if !x.holder && dst == ctrlAddr x.addr63 && src == ctrlAddr (!x.addr63) then s.standbyFrame r t.bytes bad
  else s.forward r dir t

/-- FRAME_RECEIVE: code groups that spell a frame from its SOF arrive on the receiver of `dir` (R413, R432). Turned away
when the part is out of the loop or the train is no frame. DESIGN CHOICE (R21): a frame is handled whole when its end has
arrived, so a frame that straddles a cycle boundary is routed by the queue map in force at its EOF. -/
def execFrameReceive (r : RingId) (dir : Dir) (groups : List (BitVec 10)) (s : State) : Host.Outcome State Fault Refusal :=
  let (s', t) := s.receive r (rxSide dir) groups
  if !s.ringLive r || t.first != some .sof then .next s else .next (s'.takeArrived r dir t)

/-! ### Sending a frame (R436 to R439) -/

/-- A frame between SOF and EOF (R428 to R430). -/
def frameBytes (dst src cls typ : Nat) (rsyn av nak : Bool) (seq : Nat) (rtx : Bool) (aseq xid : Nat)
    (payload : List Byte) : List Byte :=
  let l := natLE 1 dst ++ natLE 1 src ++ natLE 1 cls ++ natLE 1 (typ + 16 * b2n rsyn + 32 * b2n av + 64 * b2n nak)
    ++ natLE 2 (seq + 4096 * b2n rtx) ++ natLE 2 payload.length ++ natLE 2 aseq ++ natLE 2 xid ++ payload
  l ++ natLE 4 (crc32c l).toNat

/-- Whether a NAK may go to the station in this cycle (R436). -/
def Station.nakOpen (y : Station) (cycle : BitVec 32) : Bool := y.nak && y.nakAt != some cycle

/-- A holder slot in use: its entry, the Chronometer at its START, and the byte times that a frame may take so that it
ends at least 48 BT before the next beacon or minislot (R415). -/
structure SlotUse where
  e : SlotEntry
  start : Word
  room : Nat

/-- A payload of `n` bytes fits the slot (R428). -/
def SlotUse.fits (u : SlotUse) (n : Nat) : Bool := decide (n + 20 ≤ u.e.len.toNat)

/-- The slot stays unused because the frame would not end in time (R415). -/
def State.skipSlot (s : State) (r : RingId) : State := s.nlkSat r 0x18 32 16 48 1

/-- An acknowledgement is due in a slot that starts at `start`: 64 BT, which are 20.48 ticks, after the EOF (R436). -/
def Station.ackDue (y : Station) (start : Word) : Bool := y.owed && decide (21 ≤ (start - y.owedAt).toNat)

/-- A frame leaves toward station `a`, and an IDLE after it (R428); it carries an acknowledgement that is due, at version
1 only in an ACK frame (R436). -/
def State.sendFrame (s : State) (r : RingId) (u : SlotUse) (a cls typ : Nat) (rsyn : Bool) (seq : Nat) (rtx : Bool)
    (xid : Nat) (payload : List Byte) : State :=
  let x := s.ring r
  let y := x.station a
  let nak := y.nakOpen x.cycle
  let av := (y.ackDue u.start || nak) && (typ == 0 || decide (2 ≤ x.ver.toNat))
  let aseq := if av then y.rxexp.toNat else 0
  let f := frameBytes a (ctrlAddr x.addr63) cls typ rsyn av (av && nak) seq rtx aseq xid payload
  let s := if av then s.modRing r fun x => x.modStation a fun y =>
      { y with owed := false, nak := y.nak && !nak, nakAt := if nak then some x.cycle else y.nakAt } else s
  s.emit r (if u.e.dirB then .b else .a) (train .sof f (some .eof) ++ OrderedSet.idle.chars)

/-- A retransmission leaves (R437): the same SEQ with RTX. -/
def State.sendAgain (s : State) (r : RingId) (a : Nat) (u : SlotUse) (f : OutFrame) : State :=
  let s := s.modRing r fun x => x.modStation a fun y =>
    { y with out := y.out.map fun g => if g.seq = f.seq then { g with sent := g.sent + 1, due := false } else g }
  (s.sendFrame r u a f.cls.toNat f.typ.toNat f.rsyn f.seq.toNat true f.xid.toNat f.payload).nlkSat r 0x48 32 16 56 1

/-- The longest holder slot that a pair may use (R439). -/
def RingPlan.longest (p : RingPlan) (a c : Nat) : Nat :=
  (p.slots.filter fun e => e.owner == 0x40 && e.peer.toNat == a && (e.anyClass || e.cls.toNat == c)).foldl
    (fun n e => max n e.len.toNat) 0

/-- The status that refuses an OQ entry, in the order of R439. -/
def State.entryRefused (s : State) (r : RingId) (a c : Nat) (q : Queue) (len typ : Nat) : Option Nat :=
  let x := s.ring r
  if 512 < len ∨ q.bsize < len then some 0xF0
  else if !typePermitted c typ then some 0x33
  else if (x.table.map fun p => p.longest a c).getD 0 < len + 20 then some 0x34
  else if typ = 2 ∧ (s.pair (globalStation r a) c).openIn = none then some 0x32
  else if (x.station a).st ≠ 2 then some 0x31
  else none

/-- An OQ entry that may be sent: queue, class, index, LEN, TYPE and the time since which it waits. -/
structure Ready where
  qid : Nat
  cls : Nat
  index : BitVec 16
  len : Nat
  typ : Nat
  since : Word

/-- The first waiting entry of a pair's OQ that may be sent, after the entries refused ahead of it have ended (R438,
R439). A REQ waits while the pair's request is open (R441). -/
def State.nextEntry (s : State) (r : RingId) (a c qid : Nat) : Nat → State × Option Ready
  | 0 => (s, none)
  | fuel + 1 =>
    let q := s.queue qid
    if !s.mayMove qid || q.kind != 4 then (s, none) else
    match q.oq.find? fun x => x.st == .waiting with
    | none => (s, none)
    | some x =>
      let pa := q.base + q.esize * q.slot x.index.toNat
      match s.moveRead (queueDomain qid) pa 16 with
      | (.error err, s) => (s.queueError qid err x.index.toNat pa, none)
      | (.ok l, s) =>
        let len := fieldLE l 0 2
        let typ := fieldLE l 2 1
        match s.entryRefused r a c q len typ with
        | some st => (s.endEntry qid x.index st 0).nextEntry r a c qid fuel
        | none =>
          if typ = 1 ∧ (s.pair (globalStation r a) c).openOut.isSome then (s, none)
          else (s, some { qid := qid, cls := c, index := x.index, len := len, typ := typ, since := x.since })

/-- The candidates of all classes that a slot may carry, in class order. -/
def State.candidates (s : State) (r : RingId) (a : Nat) (e : SlotEntry) : State × List Ready :=
  let ms := (s.ring r).qmap.filter fun m =>
    m.out && m.station.toNat == globalStation r a && (e.anyClass || m.cls == e.cls)
  ms.foldl (fun p m =>
    let (s, x) := p.1.nextEntry r a m.cls.toNat m.oq.toNat (2 ^ 16)
    (s, p.2 ++ x.toList)) (s, [])

/-- The oldest of the candidates. -/
def oldest : List Ready → Option Ready
  | [] => none
  | x :: r => match oldest r with
    | none => some x
    | some y => if y.since.toNat < x.since.toNat then some y else some x

/-- A first transmission of a consuming frame (R433, R441, R443): it takes the next sequence number, RSYN when the link
must synchronise, and its XID; an entry whose payload cannot be read ends its queue instead (R374). -/
def State.sendEntry (s : State) (r : RingId) (a : Nat) (u : SlotUse) (x : Ready) : State :=
  let q := s.queue x.qid
  let g := globalStation r a
  let y := (s.ring r).station a
  let p := s.pair g x.cls
  let pa := q.xbase.toNat + q.bsize * q.slot x.index.toNat
  match s.moveRead (queueDomain x.qid) pa x.len with
  | (.error err, s) => s.queueError x.qid err x.index.toNat pa
  | (.ok l, s) =>
    let xid : BitVec 16 := if x.typ = 1 then p.xid else if x.typ = 2 then p.openIn.getD 0 else 0
    let f : OutFrame := { seq := y.txseq, cls := BitVec.ofNat 4 x.cls, typ := BitVec.ofNat 4 x.typ, xid := xid,
                          payload := l, sent := 1, sof := s.pcm.chrono.setWidth 32, due := false, rsyn := y.tsync,
                          oq := BitVec.ofNat 16 x.qid, oqIndex := x.index }
    let s := s.modRing r fun t => t.modStation a fun y =>
      { y with txseq := y.txseq + 1, tsync := false, out := y.out ++ [f] }
    let s := s.modQueue x.qid fun q => { q with oq := markOq x.index .flying q.oq }
    let s := s.modPair g x.cls fun p =>
      if x.typ = 1 then { p with xid := p.xid + 1, openOut := some (xid, false, x.index) }
      else if x.typ = 2 then { p with openIn := none } else p
    let s := (s.count (qmgBase + 0x120 + 8 * r.val) 1).countMove x.qid 1 x.len
    (s.sendFrame r u a x.cls x.typ f.rsyn f.seq.toNat false xid.toNat l).nlkWrap r 0x48 0

/-- The next datagram of a table load that fits a slot, and the load after it (R450). -/
def loadDatagram (ext : List Byte) (room : Nat) (l : TableLoad) : Option (List Byte × TableLoad) :=
  let head (op ofs : Nat) : List Byte := [BitVec.ofNat 8 op, BitVec.ofNat 8 (b2n l.tnum), 0, 0] ++ natLE 2 ofs ++ [0, 0]
  if l.ended then none
  else if l.ofs < ext.length then
    let n := min (min room 512 - 8) (ext.length - l.ofs)
    if n = 0 then none else some (head 0x10 l.ofs ++ (ext.drop l.ofs).take n, { l with ofs := l.ofs + n })
  else if room < 12 then none
  else some (head 0x11 ext.length ++ natLE 4 (crc32c ext).toNat, { l with ended := true })

/-- The list with the first load that has a datagram moved on, and that datagram. -/
def pickDatagram (ext : Bool → List Byte) (room : Nat) : List TableLoad → Option (List Byte × List TableLoad)
  | [] => none
  | l :: r =>
    match loadDatagram (ext l.tnum) room l with
    | some (d, l') => some (d, l' :: r)
    | none => (pickDatagram ext room r).map fun p => (p.1, l :: p.2)

/-- A frame of `n` payload bytes leaves by `go`, or its slot is skipped when it would not end in time (R415). -/
def State.inTime (s : State) (r : RingId) (u : SlotUse) (n : Nat) (go : State → State) : State :=
  if n + 20 ≤ u.room then go s else s.skipSlot r

/-- The new table goes on to the standby in a slot that would stay idle. DESIGN CHOICE: R424 has the table loaded at the
standby by station management, and no slot is toward it; its datagrams take the slots that nothing else uses, and no
record confirms them. -/
def State.sendStandby (s : State) (r : RingId) (u : SlotUse) : State :=
  let x := s.ring r
  match x.standbyLoad.bind fun l => loadDatagram (x.standbyTable r l.tnum) (u.e.len.toNat - 20) l with
  | some (d, l) => s.inTime r u d.length fun s =>
    let s := s.modRing r fun x => { x with standbyLoad := if l.ended then none else some l }
    s.sendFrame r u (ctrlAddr (!x.addr63)) 0xE 6 false 0 false 0 d
  | none => s

/-- Items 3 and 4 of R438: a datagram, or an acknowledgement that is due; else a slot free for the standby's table. -/
def State.sendOther (s : State) (r : RingId) (a : Nat) (u : SlotUse) : State :=
  let x := s.ring r
  let y := x.station a
  match pickDatagram (x.extractOf r a) (u.e.len.toNat - 20) y.loads with
  | some (d, loads) => s.inTime r u d.length fun s =>
    (s.modRing r fun x => x.modStation a fun y => { y with loads := loads }).sendFrame r u a 0xE 6 false 0 false 0 d
  | none =>
    if y.ackDue u.start || y.nakOpen x.cycle then s.inTime r u 0 fun s => s.sendFrame r u a 0 0 false 0 false 0 []
    else s.sendStandby r u

/-- What the holder sends in a slot toward station `a` (R438). -/
def State.useSlot (s : State) (r : RingId) (a : Nat) (u : SlotUse) : State :=
  let y := (s.ring r).station a
  let again := (y.out.find? fun f => f.due).filter fun f =>
    (u.e.anyClass || f.cls == u.e.cls) && u.fits f.payload.length
  match again with
  | some f => s.inTime r u f.payload.length fun s => s.sendAgain r a u f
  | none =>
    let (s, l) := s.candidates r a u.e
    match (oldest l).filter fun x => u.fits x.len && decide (y.out.length < 16) with
    | some x => s.inTime r u x.len fun s => s.sendEntry r a u x
    | none => s.sendOther r a u

/-- Ring time of the next beacon or minislot on the transmitter that a direction uses: the minislots go on direction P,
and on either one while a side is wrapped (R402, R415, R421). -/
def Ring.nextTrain (x : Ring) (dir : Dir) : Nat :=
  let minis (p : RingPlan) : List Nat :=
    ((List.range 10).map fun k => p.msofs.toNat + 3125 * k).filter fun t => decide (x.rt8 / 8 < t)
  ((if dir == x.dirP || x.wrapped then (x.table.map minis).getD [] else []).foldl min 31250)

/-- The direction of a slot. -/
def SlotEntry.dir (e : SlotEntry) : Dir := if e.dirB then .b else .a

/-- An own slot begins on a free transmitter (R415, R438). -/
def State.startSlot (s : State) (r : RingId) (e : SlotEntry) (start : Word) : State :=
  let x := s.ring r
  s.useSlot r e.peer.toNat { e := e, start := start, room := x.nextTrain e.dir - x.rt8 / 8 - 48 }

/-- DATA_SLOT: entry `slot` of the slot table in force reaches its START (R402, R415, R438): it is used at once, or waits
while its transmitter is busy; a slot that still waits there is left unused. Nothing is sent on a transmitter that carries
WRP or IDLE only (R420). Turned away unless it is a holder slot of a ring whose beacon the part holds. -/
def execDataSlot (r : RingId) (slot : Nat) (s : State) : Host.Outcome State Fault Refusal :=
  let x := s.ring r
  match s.ringUp r && x.holder, x.table.bind fun p => p.slots[slot]? with
  | true, some e =>
    let side := x.outSide e.dir
    let s' := s.modRing r fun x => { x with rt8 := 8 * e.start.toNat }
    if e.owner ≠ 0x40 then .next s
    else if x.closed side then .next s'
    else if (x.port side).free then .next (s'.startSlot r e s.pcm.chrono)
    else
      let s' := if (x.port side).slot.isSome then s'.skipSlot r else s'
      .next (s'.modRing r fun x => x.modPort side fun p => { p with slot := some (slot, s.pcm.chrono) })
  | _, _ => .next s

/-- A slot that waits for its transmitter begins once that is free (R415). -/
def State.tickSlot (s : State) (r : RingId) (side : Side) : State :=
  let x := s.ring r
  let p := x.port side
  match p.slot, p.free && s.ringUp r && x.holder with
  | some (n, start), true =>
    let s := s.modRing r fun x => x.modPort side fun p => { p with slot := none }
    match x.table.bind fun t => t.slots[n]? with
    | some e => s.startSlot r e start
    | none => s
  | _, _ => s

/-! ### Timers (R437, R442, R446) -/

/-- ACKNOWLEDGEMENT_WAIT_EXPIRY: the wait of the oldest frame that is not already due has ended (R437): the
unacknowledged frames are retransmitted, or the link fails after the last transmission. -/
def execAcknowledgementWaitExpiry (r : RingId) (a : BitVec 6) (s : State) : Host.Outcome State Fault Refusal :=
  let x := s.ring r
  match (x.station a.toNat).out.find? fun f => !f.due with
  | none => .next s
  | some f =>
    if x.retry < f.sent then .next (s.failLink r a.toNat)
    else .next (s.modRing r fun x => x.modStation a.toNat fun y =>
      { y with out := y.out.map fun g => { g with due := g.due || decide (g.sent ≤ x.retry) } })

/-- The frames after an abandoned one: all due again, the first with RSYN (R446). -/
def resyncFirst (retry : Nat) : List OutFrame → List OutFrame
  | [] => []
  | f :: r => { f with rsyn := true, due := f.due || decide (f.sent ≤ retry) }
      :: r.map fun g => { g with due := g.due || decide (g.sent ≤ retry) }

/-- The frame of an entry is abandoned (R446). -/
def Ring.abandon (x : Ring) (a : Nat) (f : OutFrame) : Ring :=
  x.modStation a fun y =>
    let before := y.out.takeWhile fun g => g.seq != f.seq
    let after := (y.out.dropWhile fun g => g.seq != f.seq).drop 1
    { y with out := before ++ resyncFirst x.retry after, tsync := y.tsync || after.isEmpty }

/-- The queue map of a ring: the one in force there, or that of the plan in force on a ring not yet started, where OQ
entries wait and their timers run (R438, R456). -/
def State.mapOf (s : State) (r : RingId) : List QMapEntry :=
  if (s.ring r).state = .off then (s.plan.map (·.qmap)).getD [] else (s.ring r).qmap

/-- The ring, the station and the class that an OQ serves (R456). -/
def State.oqPair (s : State) (oq : BitVec 16) : Option (RingId × Nat × Nat) :=
  (List.finRange 4).findSome? fun r =>
    ((s.mapOf r).find? fun m => m.out && m.oq == oq && m.station.toNat / 64 == r.val).map fun m =>
      (r, m.station.toNat % 64, m.cls.toNat)

/-- The transaction of a sent frame has not ended: that of a request ends with the delivery of its response (R440). -/
def State.stillOpen (s : State) (r : RingId) (a : Nat) (f : OutFrame) : Bool :=
  f.typ != 1 || (s.pair (globalStation r a) f.cls.toNat).openOut.any fun o => o.1 == f.xid

/-- The timer of an OQ entry whose link exchange has not ended (R446). -/
def State.entryTimeout (s : State) (r : RingId) (a : Nat) (oq index : BitVec 16) : State :=
  match ((s.ring r).station a).out.find? fun f => f.oq == oq && f.oqIndex == index with
  | none => (s.endEntry oq.toNat index 0x20 0).nlkSat r 0x50 0 16 48 1
  | some f =>
    if !s.stillOpen r a f then s else
    let s := s.modRing r fun x => x.abandon a f
    if f.sent = 1 then (s.endFrame r a f 0x20).nlkSat r 0x50 0 16 48 1
    else (s.endFrame r a f 0x21).nlkSat r 0x50 16 16 48 1

/-- The timer of an acknowledged request (R442): the notice goes to the pair's IQ, or is dropped and counted. -/
def State.requestTimeout (s : State) (r : RingId) (a c : Nat) : State :=
  let s := s.modPair (globalStation r a) c fun p => { p with openOut := none }
  match (s.pairEntry r a c).filter (·.inn) with
  | none => s.nlkSat r 0x40 12 12 60 1
  | some m =>
    let (s, ok) := s.deliverIq r m.iq.toNat (globalStation r a) c 9 []
    if ok then s.nlkSat r 0x50 0 16 48 1 else s

/-- TRANSACTION_TIMEOUT: a transaction timer expires (R440, R442, R446). Turned away when it no longer runs. -/
def execTransactionTimeout (t : TimerOf) (s : State) : Host.Outcome State Fault Refusal :=
  match t with
  | .entry oq index =>
    match s.oqPair oq with
    | some (r, a, _) =>
      if (s.queue oq.toNat).oq.any fun x => x.index == index && x.st != .ended then .next (s.entryTimeout r a oq index)
      else .next s
    | none => .next s
  | .request g c =>
    match (s.pair g.toNat c.toNat).openOut with
    | some (_, true, _) => .next (s.requestTimeout (Fin.ofNat 4 (g.toNat / 64)) (g.toNat % 64) c.toNat)
    | _ => .next s

end Sys2Proof.Machine
end

