-- ==== Sys2Proof/Machine/Images.lean ====
section
/-! DEFINITION. The images that Keeper loads (16): headers, signatures, compatibility, and the checks of a plan body and
of a Control Store customer part (R19, R20, R213 to R215, R270 to R272, R332, R333, R410, R411, R455 to R457, R479 to
R485). -/

namespace Sys2Proof.Machine

/-! ### SHA-384 and ECDSA on P-384 (R479; FIPS 180-4, FIPS 186-4) -/

/-- The initial hash value of SHA-384: the fractions of the square roots of the ninth to sixteenth primes. -/
def sha384Start : List Nat :=
  [0xCBBB9D5DC1059ED8, 0x629A292A367CD507, 0x9159015A3070DD17, 0x152FECD8F70E5939, 0x67332667FFC00B31,
   0x8EB44A8768581511, 0xDB0C2E0D64F98FA7, 0x47B5481DBEFA4FA4]

/-- The chaining value after `n` blocks of 128 bytes. -/
def sha384Blocks : Nat → List Nat → List Byte → List Nat
  | 0, h, _ => h
  | n + 1, h, l => sha384Blocks n (shaCompress sha512P h (l.take 128)) (l.drop 128)

/-- SHA-384 of a byte string, as 48 bytes. -/
def sha384 (l : List Byte) : List Byte :=
  let n := (l.length + 17 + 127) / 128
  let padded := l ++ [0x80] ++ List.replicate (n * 128 - l.length - 17) 0 ++ natBE 16 (8 * l.length)
  ((sha384Blocks n sha384Start padded).flatMap (natBE 8)).take 48

/-- The prime of the curve P-384. -/
def p384P : Nat := 2 ^ 384 - 2 ^ 128 - 2 ^ 96 + 2 ^ 32 - 1
/-- The coefficient b of the curve. -/
def p384B : Nat :=
  0xB3312FA7E23EE7E4988E056BE3F82D19181D9C6EFE8141120314088F5013875AC656398D8A2ED19D2A85C8EDD3EC2AEF
/-- The order of the base point. -/
def p384N : Nat :=
  0xFFFFFFFFFFFFFFFFFFFFFFFFFFFFFFFFFFFFFFFFFFFFFFFFC7634D81F4372DDF581A0DB248B0A77AECEC196ACCC52973
/-- The base point. -/
def p384G : Nat × Nat :=
  (0xAA87CA22BE8B05378EB1C71EF320AD746E1D3B628BA79B9859F741E082542A385502F25DBF55296C3A545E3872760AB7,
   0x3617DE4A96262C6F5D9E98BF9292DC29F8F41DBD289A147CE9DA3113B5F0B8C00A60B1CE1D7E819D7A431D7C90EA0E5F)

/-- `b` to the power `e` modulo `m`, over the `n` low bits of `e`. -/
def powMod (m : Nat) : Nat → Nat → Nat → Nat
  | 0, _, _ => 1 % m
  | n + 1, b, e =>
    let r := powMod m n (b * b % m) (e / 2)
    if e % 2 = 1 then r * b % m else r

/-- The inverse modulo a prime of 384 bits. -/
def invMod (m x : Nat) : Nat := powMod m 384 (x % m) (m - 2)

/-- A point of the curve as X, Y, Z: its coordinates are X/Z² and Y/Z³, and Z = 0 is the point at infinity. -/
abbrev CurvePoint := Nat × Nat × Nat

/-- Twice a point of the curve. -/
def curveDouble (p : CurvePoint) : CurvePoint :=
  let (x, y, z) := p
  let zz := z * z % p384P
  let g := y * y % p384P
  let s := 4 * x * g % p384P
  let m := 3 * (x + p384P - zz) * (x + zz) % p384P
  let u := (m * m + 2 * (p384P - s)) % p384P
  (u, (m * (s + p384P - u) + 8 * (p384P - g * g % p384P)) % p384P, 2 * y * z % p384P)

/-- The sum of two points of the curve. -/
def curveAdd (p q : CurvePoint) : CurvePoint :=
  let (x, y, z) := p
  let (u, v, w) := q
  if z = 0 then q else if w = 0 then p else
  let zz := z * z % p384P
  let ww := w * w % p384P
  let a := x * ww % p384P
  let b := y * w * ww % p384P
  let h := (u * zz + p384P - a) % p384P
  let r := (v * z * zz + p384P - b) % p384P
  if h = 0 then (if r = 0 then curveDouble p else (1, 1, 0))
  else
    let hh := h * h % p384P
    let hhh := h * hh % p384P
    let t := a * hh % p384P
    let s := (r * r + (p384P - hhh) + 2 * (p384P - t)) % p384P
    (s, (r * (t + p384P - s) + b * (p384P - hhh)) % p384P, h * z * w % p384P)

/-- A multiple of a point, over the `n` low bits of `k`. -/
def curveMul : Nat → Nat → CurvePoint → CurvePoint
  | 0, _, _ => (1, 1, 0)
  | n + 1, k, p =>
    let r := curveMul n (k / 2) (curveDouble p)
    if k % 2 = 1 then curveAdd r p else r

/-- The first coordinate of a point; none at infinity. -/
def curveX (p : CurvePoint) : Option Nat :=
  if p.2.2 = 0 then none
  else
    let i := invMod p384P p.2.2
    some (p.1 * (i * i % p384P) % p384P)

/-- The point that 96 bytes of a public key name, if it lies on the curve (R478, R479). -/
def keyPoint (l : List Byte) : Option (Nat × Nat) :=
  let x := beNat (l.take 48)
  let y := beNat ((l.drop 48).take 48)
  if x < p384P ∧ y < p384P ∧ y * y % p384P = (x * x * x + (p384P - 3) * x + p384B) % p384P then some (x, y) else none

/-- An ECDSA signature over a hash verifies under a public key (R479). -/
def signatureOk (key hash sig : List Byte) : Bool :=
  let r := beNat (sig.take 48)
  let t := beNat ((sig.drop 48).take 48)
  match keyPoint key with
  | none => false
  | some (x, y) =>
    if 0 < r ∧ r < p384N ∧ 0 < t ∧ t < p384N then
      let w := invMod p384N t
      let g := curveMul 384 (beNat hash * w % p384N) (p384G.1, p384G.2, 1)
      match curveX (curveAdd g (curveMul 384 (r * w % p384N) (x, y, 1))) with
      | none => false
      | some v => v % p384N == r
    else false

/-! ### Headers (R479 to R481) -/

/-- A failed command (R460): its status, REASON and WHERE. -/
structure Failure where
  code : Nat
  reason : Nat
  pos : Nat
deriving DecidableEq, Repr

/-- A failure without a position. -/
def fail (code : Nat) : Failure := { code := code, reason := 0, pos := 0xFFFFFFFF }

/-- A failure at a position. -/
def failAt (code pos : Nat) : Failure := { code := code, reason := 0, pos := pos }

/-- BAD_PARAM. -/
def badParam : Nat := 0x0013
/-- WRONG_STATE. -/
def wrongState : Nat := 0x0020
/-- HW_FAULT. -/
def hwFault : Nat := 0x0040

/-- The first check of a list that fails, by its position. -/
def firstWrong (l : List (Bool × Nat)) : Option Nat := (l.find? fun c => !c.1).map (·.2)

/-- The bytes of a range are all zero. -/
def zeros (l : List Byte) (off n : Nat) : Bool := ((l.drop off).take n).all (· == 0)

/-- The size of the flash slot of an image kind (R486). -/
def slotSize (kind : Nat) : Nat :=
  match kind with | 1 => 0x100000 | 2 => 0x40000 | 3 => 0x10000 | _ => 0x400000

/-- KIND of an image. -/
def Image.kind (i : Image) : Nat := fieldLE i.header 4 1

/-- The epoch range of kind `k` that an image accepts (R479). -/
def Image.accepts (i : Image) (k : Nat) : Nat × Nat := (fieldLE i.header (12 + 4 * k) 2, fieldLE i.header (14 + 4 * k) 2)

/-- Image `x` refuses image `y` by its ACCEPT range (R481). -/
def Image.refuses (x y : Image) : Bool :=
  let (lo, hi) := x.accepts y.kind
  !(decide (lo ≤ y.epoch) && decide (y.epoch ≤ hi))

/-- Step 1 of R480: the position of the first header field that fails. -/
def headerBad (kind : Nat) (l : List Byte) : Option Nat :=
  let accept (k : Nat) : Bool :=
    let lo := fieldLE l (12 + 4 * k) 2
    let hi := fieldLE l (14 + 4 * k) 2
    if k = kind then lo == 0 && hi == 0 else decide (lo ≤ hi)
  let n := 288 + fieldLE l 32 4
  firstWrong [(decide (288 ≤ l.length), 0), (fieldLE l 0 4 == 0x4D495843, 0), (fieldLE l 4 1 == kind, 4),
    (fieldLE l 6 2 == 1, 6), (fieldLE l 8 4 != 0, 8), (zeros l 14 2, 14), (accept 1, 16), (accept 2, 20), (accept 3, 24),
    (accept 4, 28), (decide (n ≤ slotSize kind) && decide (n ≤ l.length), 32), (zeros l 36 4, 36), (zeros l 88 8, 88)]

/-- The stages at which an image can fail, by the RESULT of IMAGE_VERIFY (R469): 2 header, 3 signature or key, 4 body
hash, 5 compatibility, 6 content. -/
structure ImageFault where
  stage : Nat
  f : Failure
deriving DecidableEq, Repr

/-- The 48 bytes of a fused hash, most significant first. -/
def hashBytes (h : BitVec 384) : List Byte := natBE 48 h.toNat

/-- Steps 2 and 3 of R480: the signer, the fused hash of its key, the signature and the body hash. -/
def signatureFault (nv : NonVolatile) (kind : Nat) (l : List Byte) : Option ImageFault :=
  let customer := decide (3 ≤ kind) && nv.enrolled
  let fused := if customer then nv.custHash else nv.fuses.vendorHash
  let key := (l.drop 96).take 96
  if fieldLE l 5 1 ≠ b2n customer then some { stage := 3, f := failAt 0x0030 5 }
  else if sha384 key ≠ hashBytes fused then some { stage := 3, f := failAt 0x0030 96 }
  else if !signatureOk key (sha384 (l.take 192)) ((l.drop 192).take 96) then some { stage := 3, f := failAt 0x0030 192 }
  else if sha384 ((l.drop 288).take (fieldLE l 32 4)) ≠ (l.drop 40).take 48 then
    some { stage := 4, f := failAt 0x0030 40 }
  else none

/-- Step 4 of R480: the first image of another kind that refuses the new one or that it refuses (R481). -/
def compatFault (i : Image) (others : List Image) : Option ImageFault :=
  others.findSome? fun o =>
    if o.refuses i then some { stage := 5, f := { code := 0x0031, reason := o.kind + 256, pos := 12 } }
    else if i.refuses o then some { stage := 5, f := { code := 0x0031, reason := o.kind, pos := 12 + 4 * o.kind } }
    else none

/-! ### The plan body (R485) -/

/-- A section of the directory: STYPE, INDEX, OFFSET, LENGTH, and the position of its directory entry. -/
structure Section where
  styp : Nat
  idx : Nat
  off : Nat
  len : Nat
  at' : Nat
deriving DecidableEq, Repr

/-- The directory of a plan body. -/
def planSections (l : List Byte) : List Section :=
  (List.range (fieldLE l 2 2)).map fun i =>
    let o := 8 + 16 * i
    { styp := fieldLE l o 2, idx := fieldLE l (o + 2) 2, off := fieldLE l (o + 4) 4, len := fieldLE l (o + 8) 4, at' := o }

/-- The bytes of a section. -/
def Section.bytes (x : Section) (l : List Byte) : List Byte := (l.drop x.off).take x.len

/-- The section of a type and index, empty when the plan has none. -/
def sectionOf (l : List Byte) (styp idx : Nat) : Option Section :=
  (planSections l).find? fun x => x.styp == styp && x.idx == idx

/-- Two sections overlap. -/
def Section.overlaps (x y : Section) : Bool := decide (x.off < y.off + y.len) && decide (y.off < x.off + x.len)

/-- Pairs of a list, each element with those after it. -/
def laterPairs {α : Type} : List α → List (α × α)
  | [] => []
  | x :: r => r.map (fun y => (x, y)) ++ laterPairs r

/-- The conditions on the directory (R485). -/
def directoryBad (l : List Byte) : Option Nat :=
  let ss := planSections l
  let stop := 8 + 16 * fieldLE l 2 2
  let count (t : Nat) : Nat := (ss.filter fun x => x.styp == t).length
  let one (x : Section) : Bool × Nat :=
    (decide (1 ≤ x.styp) && decide (x.styp ≤ 7) && (if x.styp ≤ 2 then decide (x.idx ≤ 3) else x.idx == 0)
      && x.off % 8 == 0 && decide (stop ≤ x.off) && decide (x.off + x.len ≤ l.length) && zeros l (x.at' + 12) 4, x.at')
  let mate (x : Section) : Bool × Nat :=
    (if x.styp ≤ 2 then (ss.filter fun y => y.styp == 3 - x.styp && y.idx == x.idx).length == 1 else true, x.at')
  let apart (p : Section × Section) : Bool × Nat := (!p.1.overlaps p.2, p.2.at')
  firstWrong ([(fieldLE l 0 2 == 1 && zeros l 4 4, 0), (decide (stop ≤ l.length), 2)] ++ ss.map one
    ++ ([3, 4, 5, 6, 7].map fun t => (count t == 1, 2)) ++ ss.map mate ++ (laterPairs ss).map apart)

/-! ### Ring sections (R410, R411, R455) -/

/-- A slot widened by 48 BT on each side overlaps the ring times from `a` to `b` (R411). -/
def SlotEntry.hits (e : SlotEntry) (a b : Nat) : Bool :=
  decide (e.start.toNat < b + 1 + 48) && decide (a < e.start.toNat + e.len.toNat + 48)

/-- The conditions on one entry of a slot table (R410, R411). -/
def SlotEntry.ok (e : SlotEntry) (msofs : Nat) : Bool :=
  let st (b : Byte) : Bool := decide (1 ≤ b.toNat) && decide (b.toNat ≤ 62)
  decide (20 ≤ e.len.toNat) && decide (e.len.toNat ≤ 532) && decide (e.start.toNat + e.len.toNat ≤ 31250)
    && (if e.owner = 0x40 then st e.peer else st e.owner && e.peer == 0x40)
    && !e.hits 0 31 && (List.range 10).all fun k => !e.hits (msofs + 3125 * k) (msofs + 3125 * k + 95)

/-- The order of two entries of a slot table, and the gap between them when they share a direction (R411). -/
def slotsOrdered (p : SlotEntry × SlotEntry) : Bool :=
  let (x, y) := p
  if x.dirB = y.dirB then decide (x.start.toNat < y.start.toNat) && decide (x.start.toNat + x.len.toNat + 48 ≤ y.start.toNat)
  else !x.dirB

/-- The conditions on a slot table section (R410, R411). -/
def slotTableBad (l : List Byte) (x : Section) : Option Nat :=
  let b := x.bytes l
  let n := fieldLE b 4 2
  let es := readSlots b
  let ms := fieldLE b 6 2
  let entry (i : Nat) : Nat := x.off + 16 + 8 * i
  firstWrong ([(decide (16 ≤ x.len), x.off), (fieldLE b 0 2 == 1, x.off), (fieldLE b 2 1 == x.idx, x.off + 2),
      (zeros b 3 1, x.off + 3), (decide (n ≤ 1024) && x.len == 16 + 8 * n, x.off + 4),
      (decide (32 ≤ ms) && decide (ms ≤ 3029), x.off + 6), (zeros b 8 8, x.off + 8)]
    ++ (es.zipIdx.map fun e =>
        (e.1.ok ms && field (lget 0 b (16 + 8 * e.2 + 5)) 2 2 == 0 && zeros b (16 + 8 * e.2 + 7) 1, entry e.2))
    ++ ((es.zip (es.drop 1)).zipIdx.map fun p => (slotsOrdered p.1, entry (p.2 + 1))))

/-- The records of the stations 1 to 62 of a directory. -/
def readStations (l : List Byte) : List DirStation :=
  (List.range 62).map fun i =>
    { cmask := BitVec.ofNat 16 (fieldLE l (40 + 8 * i) 2), expected := bit (lget (0 : Byte) l (42 + 8 * i)) 0 }

/-- The timeouts of the 16 classes of a directory. -/
def readTmo (l : List Byte) : List (BitVec 16) := (List.range 16).map fun c => BitVec.ofNat 16 (fieldLE l (4 + 2 * c) 2)

/-- The conditions on a station directory section, with the retry budget of R20 (R445, R455). -/
def directorySectionBad (l : List Byte) (x : Section) : Option Nat :=
  let b := x.bytes l
  let sts := readStations b
  let tmo := readTmo b
  let used (c : Nat) : Bool := sts.any fun t => bit t.cmask c
  let tmoOk (c : Nat) : Bool :=
    let t := (lget 0 tmo c).toNat
    if used c then decide (30 ≤ t) else t == 0
  let retry := fieldLE b 3 1
  let least := tmo.foldl (fun m t => if t = 0 then m else min m t.toNat) 65536
  firstWrong ([(x.len == 536, x.off), (fieldLE b 0 2 == 1, x.off), (fieldLE b 2 1 == x.idx, x.off + 2),
      (decide (retry ≤ 7), x.off + 3), (zeros b 36 4, x.off + 36)]
    ++ ((List.range 62).map fun i =>
        (field (lget default sts i).cmask 0 1 == 0 && field (lget default sts i).cmask 11 3 == 0
          && decide (fieldLE b (42 + 8 * i) 1 ≤ 1) && zeros b (43 + 8 * i) 5, x.off + 40 + 8 * i))
    ++ ((List.range 16).map fun c => (tmoOk c, x.off + 4 + 2 * c))
    ++ [(decide (least = 65536) || decide (30 * (retry + 1) ≤ 4 * least), x.off + 3)])

/-- The ring plans of a plan body (R19). -/
def readRings (l : List Byte) : List (RingId × RingPlan) :=
  ((planSections l).filter fun x => x.styp == 1).filterMap fun x =>
    (sectionOf l 2 x.idx).map fun y =>
      let b := x.bytes l
      let d := y.bytes l
      (Fin.ofNat 4 x.idx, { msofs := BitVec.ofNat 16 (fieldLE b 6 2), slots := readSlots b, retry := fieldLE d 3 1,
                            tmo := readTmo d, stations := readStations d })

/-! ### The station-class queue map (R456, R457) -/

/-- The entries of the map. -/
def readQmap (l : List Byte) : List QMapEntry :=
  (List.range (fieldLE l 2 2)).map fun i =>
    let o := 8 + 8 * i
    let d : Byte := lget 0 l (o + 2)
    { station := lget 0 l o, cls := BitVec.ofNat 4 (fieldLE l (o + 1) 1), inn := bit d 0, out := bit d 1,
      iq := BitVec.ofNat 16 (fieldLE l (o + 4) 2), oq := BitVec.ofNat 16 (fieldLE l (o + 6) 2) }

/-- The ring plan of the ring of a global station. -/
def ringPlanOf (rs : List (RingId × RingPlan)) (g : Nat) : Option RingPlan :=
  (rs.find? fun p => p.1.val == g / 64).map (·.2)

/-- The holder has a slot toward station `a`, of class `c` or any class where `c` is given (R457). -/
def RingPlan.holderSlot (p : RingPlan) (a : Nat) (c : Option Nat) : Bool :=
  p.slots.any fun e => e.owner == 0x40 && e.peer.toNat == a &&
    match c with | none => true | some c => e.anyClass || e.cls.toNat == c

/-- The conditions on one entry of the map (R457). -/
def QMapEntry.ok (m : QMapEntry) (rs : List (RingId × RingPlan)) : Bool :=
  let a := m.station.toNat % 64
  let c := m.cls.toNat
  match ringPlanOf rs m.station.toNat with
  | none => false
  | some p =>
    let t := p.station a
    a != 0 && a != 63 && t.expected && bit t.cmask c && classUsed c
      && (m.inn || m.iq == 0) && (m.out || m.oq == 0)
      && (!(m.inn && m.out) || m.iq.toNat / 256 == m.oq.toNat / 256)
      && (c != 0xE || (m.iq.toNat < 256 && m.oq.toNat < 256))
      && (!m.out || p.holderSlot a (some c))

/-- The conditions on the map section (R456, R457). -/
def qmapBad (l : List Byte) (x : Section) : Option Nat :=
  let b := x.bytes l
  let n := fieldLE b 2 2
  let ms := readQmap b
  let rs := readRings l
  let entry (i : Nat) : Nat := x.off + 8 + 8 * i
  let key (m : QMapEntry) : Nat := m.station.toNat * 16 + m.cls.toNat
  let outs := ms.zipIdx.filter fun m => m.1.out
  firstWrong ([(fieldLE b 0 2 == 1, x.off), (decide (n ≤ 4096) && x.len == 8 + 8 * n, x.off + 2), (zeros b 4 4, x.off + 4)]
    ++ (ms.zipIdx.map fun m =>
        (m.1.ok rs && decide (fieldLE b (8 + 8 * m.2 + 1) 1 < 16) && decide (fieldLE b (8 + 8 * m.2 + 2) 1 < 4)
          && zeros b (8 + 8 * m.2 + 3) 1, entry m.2))
    ++ ((ms.zip (ms.drop 1)).zipIdx.map fun p => (decide (key p.1.1 < key p.1.2), entry (p.2 + 1)))
    ++ ((laterPairs outs).map fun p => (p.1.1.oq != p.2.1.oq, entry p.2.2)))

/-- Every EXPECTED station owns a slot and has a holder slot toward it (R457). -/
def ringBad (l : List Byte) (x : Section) : Option Nat :=
  match (readRings l).find? fun p => p.1.val == x.idx with
  | none => none
  | some (_, p) =>
    firstWrong ((upFrom 1 62).map fun a =>
      (!(p.station a).expected || (p.slots.any (fun e => e.owner.toNat == a) && p.holderSlot a none), x.off))

/-! ### Owners, events, regions, modes (R13, R213 to R215, R270 to R272) -/

/-- The owner of a slot under an assignment: level 0 belongs to LD0 (R23). -/
def ownerIn (owners : List Byte) (slot : Nat) : Nat := if slot % 8 = 0 then 0 else (lget 0 owners slot).toNat

/-- Whether the slot of a domain may be the target of a source; none for a reserved source (R269). -/
def sourceAllows (qmap : List QMapEntry) (src d : Nat) : Option Bool :=
  if src < 0x10000 then some (d == 0 || d == src / 256)
  else if src < 0x11000 then
    some (d == 0 || qmap.any fun m =>
      m.inn && m.station.toNat == (src - 0x10000) / 16 && m.cls.toNat == src % 16 && m.iq.toNat / 256 == d)
  else if src < 0x11020 then some true
  else if (0x11100 ≤ src ∧ src < 0x11120) ∨ (0x11200 ≤ src ∧ src < 0x11220) ∨ (0x11300 ≤ src ∧ src < 0x11400)
      ∨ (0x11500 ≤ src ∧ src < 0x11504) ∨ (0x11510 ≤ src ∧ src < 0x11514) then some (d == 0)
  else if 0x11400 ≤ src ∧ src < 0x11500 then some (d == 0 || d == src - 0x11400)
  else none

/-- The entries of an event map. -/
def readEvents (l : List Byte) : List EventEntry :=
  (List.range (fieldLE l 0 4)).map fun i =>
    let o := 8 + 8 * i
    { source := BitVec.ofNat 20 (fieldLE l o 4), slot := lget 0 l (o + 4), vector := BitVec.ofNat 6 (fieldLE l (o + 5) 1) }

/-- The conditions on the event map (R20, R270, R272). -/
def eventsBad (l : List Byte) (x : Section) (owners : List Byte) (qmap : List QMapEntry) : Option Nat :=
  let b := x.bytes l
  let n := fieldLE b 0 4
  let es := readEvents b
  let entry (i : Nat) : Nat := x.off + 8 + 8 * i
  let one (p : EventEntry × Nat) : Bool :=
    let o := 8 + 8 * p.2
    decide (fieldLE b o 4 < 2 ^ 20) && decide (16 ≤ fieldLE b (o + 5) 1) && decide (fieldLE b (o + 5) 1 ≤ 63)
      && zeros b (o + 6) 2 && sourceAllows qmap p.1.source.toNat (ownerIn owners p.1.slot.toNat) == some true
  firstWrong ([(decide (n ≤ 131072) && x.len == 8 + 8 * n, x.off), (zeros b 4 4, x.off + 4)]
    ++ (es.zipIdx.map fun p => (one p, entry p.2))
    ++ ((es.zip (es.drop 1)).zipIdx.map fun p => (decide (p.1.1.source.toNat < p.1.2.source.toNat), entry (p.2 + 1))))

/-- The entries of a posting-region map. -/
def readRegions (l : List Byte) : List Region :=
  (List.range (fieldLE l 0 2)).map fun i =>
    let o := 8 + 16 * i
    { base := fieldLE l o 8, frames := fieldLE l (o + 8) 4, unit := lget 0 l (o + 12) }

/-- The SRAM modes of the four clusters. -/
def readModes (l : List Byte) : List (BitVec 8) := (List.range 4).map fun c => lget 0 l c

/-- A region lies wholly in installed DRAM, or wholly in SRAM that is addressable under the plan's own modes, and its
UNIT fits (R20, R214, R215). -/
def Region.ok (r : Region) (installed : Nat) (modes : List (BitVec 8)) : Bool :=
  let stop := r.base + r.frames * 4096
  r.base % 4096 == 0 && decide (r.base < 2 ^ 46) && decide (1 ≤ r.frames) &&
  if r.base < 0x4000000000 then decide (stop ≤ installed) && decide (r.unit.toNat ≤ 4)
  else
    let c := (r.base - 0x200000000000) / 0x1000000
    let o := (r.base - 0x200000000000) % 0x1000000
    decide (0x200000000000 ≤ r.base) && decide (c < 4) && decide (o + r.frames * 4096 ≤ sramBytes (lget 0 modes c))
      && r.unit == 0xFF

/-- The conditions on the posting-region map (R213 to R215). -/
def regionsBad (l : List Byte) (x : Section) (installed : Nat) (modes : List (BitVec 8)) : Option Nat :=
  let b := x.bytes l
  let n := fieldLE b 0 2
  let rs := readRegions b
  let entry (i : Nat) : Nat := x.off + 8 + 16 * i
  firstWrong ([(decide (1 ≤ n) && decide (n ≤ 64) && x.len == 8 + 16 * n, x.off), (zeros b 2 6, x.off + 2)]
    ++ (rs.zipIdx.map fun p => (p.1.ok installed modes && zeros b (8 + 16 * p.2 + 13) 3, entry p.2))
    ++ ((rs.zip (rs.drop 1)).zipIdx.map fun p => (decide (p.1.1.base + p.1.1.frames * 4096 ≤ p.1.2.base), entry (p.2 + 1))))

/-- The bytes of a section that occurs once. -/
def onceBytes (l : List Byte) (styp : Nat) : List Byte := ((sectionOf l styp 0).map (·.bytes l)).getD []

/-- The plan that a body holds (R19, R485). -/
def readPlan (l : List Byte) : Plan :=
  { rings := readRings l, qmap := readQmap (onceBytes l 3), events := readEvents (onceBytes l 4),
    owners := onceBytes l 5, regions := readRegions (onceBytes l 6), modes := readModes (onceBytes l 7) }

/-- What a new plan must keep of the running part: the regions and the modes of the plan it replaces, or the modes that
were set without a plan (R20, R501). -/
structure PlanBound where
  installed : Nat
  regions : Option (List Region)
  modes : Option (List (BitVec 8))

/-- The conditions on a plan body: the position in the body of the first that fails (R20, R215, R272, R411, R457, R485,
R501). -/
def planBad (w : PlanBound) (l : List Byte) : Option Nat :=
  let p := readPlan l
  let sect (t : Nat) (f : Section → Option Nat) : Option Nat := (sectionOf l t 0).bind f
  let rings (t : Nat) (f : Section → Option Nat) : Option Nat :=
    ((planSections l).filter fun x => x.styp == t).findSome? f
  [directoryBad l, rings 1 (slotTableBad l), rings 2 (directorySectionBad l), rings 1 (ringBad l),
   sect 3 (qmapBad l), sect 5 (fun x => if x.len = 256 then none else some x.off),
   sect 7 (fun x => firstWrong ((x.len == 4, x.off) :: (List.range 4).map fun c =>
     (decide ((lget 0 p.modes c).toNat ≤ 2), x.off + c))),
   sect 6 (fun x => regionsBad l x w.installed p.modes),
   sect 4 (fun x => eventsBad l x p.owners p.qmap),
   sect 6 (fun x => if w.regions.any (· != p.regions) then some x.off else none),
   sect 7 (fun x => if w.modes.any (· != p.modes) then some x.off else none)].findSome? id

/-! ### The Control Store customer part (R332, R333) -/

/-- A micro port that a customer routine may name: whether it may be written (R305 to R307). -/
def customerPort (p : Nat) : Option Bool :=
  if 0x200 ≤ p ∧ p < 0x600 then
    let u := (p - 0x200) / 0x40
    let o := p % 0x40
    let ops := match u with
      | 0 => 11 | 1 => 4 | 2 => 9 | 3 => 1 | 4 => 1 | 5 => 24 | 8 => 13 | 9 => 13 | 12 => 2 | 13 => 1 | 14 => 1 | _ => 0
    if ops = 0 then none
    else if o = 0 ∨ o = 8 ∨ o = 9 then some true
    else if o = 1 ∨ o = 2 ∨ (4 ≤ o ∧ o < 8) ∨ (o = 3 ∧ u = 5) then some false
    else if 0x20 ≤ o ∧ o < 0x20 + ops ∧ !((u = 8 ∨ u = 9) ∧ o = 0x27) then some true
    else none
  else if p = 0 ∨ (0x20 ≤ p ∧ p < 0x40) ∨ (0x100 ≤ p ∧ p < 0x118) ∨ (0x120 ≤ p ∧ p < 0x13A) ∨ p = 0x13D
      ∨ (0x180 ≤ p ∧ p < 0x187) ∨ (0x1C0 ≤ p ∧ p < 0x1D0) ∨ (0x1D6 ≤ p ∧ p < 0x1DA) then some true
  else if (0x13A ≤ p ∧ p < 0x13D) ∨ (0x190 ≤ p ∧ p < 0x195) ∨ (0x1D0 ≤ p ∧ p < 0x1D6) then some false
  else none

/-- The conditions on one move slot of a customer nano-word (R302, R333). -/
def moveOk (m : BitVec 36) : Bool :=
  let src := (field m 16 15).toNat
  let dst := (field m 0 15).toNat
  !bit m 15 && (dst == 0 || (customerPort dst == some true && (bit m 31 || (customerPort src).isSome)))

/-- The conditions on a customer nano-word (R301, R333). -/
def nanoOk (n : BitVec 256) : Bool :=
  ((List.range 6).all fun i => moveOk (field n (36 * i) 36)) && field n 216 3 != 4 && !bit n 219 && field n 228 2 != 3
    && field n 230 26 == 0

/-- The parts of a micro-word (R299). -/
structure MicroWord where
  nano : Nat
  ip : Bool
  seq : Nat
  lit : BitVec 15

/-- A micro-word read from its 32 bits. -/
def readWord (w : BitVec 32) : MicroWord :=
  { nano := (field w 22 10).toNat, ip := bit w 19, seq := (field w 15 4).toNat, lit := field w 0 15 }

/-- The micro-words and nano-words of a customer part, and its entry table (R332). -/
def customerParts (l : List Byte) : CStore :=
  let m := fieldLE l 2 2
  let n := fieldLE l 4 2
  { entries := (List.range 64).map fun i => BitVec.ofNat 32 (fieldLE l (8 + 4 * i) 4),
    micro := (List.range m).map fun i => BitVec.ofNat 32 (fieldLE l (264 + 4 * i) 4),
    nano := (List.range n).map fun i => BitVec.ofNat 256 (fieldLE l (264 + 4 * m + 32 * i) 32), parity := [] }

/-- LIT uses only the bits that R300 gives to the sequencing operation. -/
def litOk (w : MicroWord) (arms : Bool) : Bool :=
  match w.seq with
  | 0 => if arms then !bit w.lit 14 else w.lit == 0
  | 1 | 4 | 6 => !bit w.lit 14
  | 2 | 3 => true
  | 8 => field w.lit 5 10 == 0
  | 10 =>
    let c := (field w.lit 0 8).toNat
    field w.lit 8 7 == 0 && (c == 0x20 || c == 0x21 || (decide (0x30 ≤ c) && decide (c ≤ 0x34)))
  | _ => w.lit == 0

/-- The micro addresses that a word at address `a` can send the sequencer to (R300, R314). -/
def targetsOf (w : MicroWord) (a : Nat) (arms : Bool) : List Int :=
  let lit14 := (field w.lit 0 14).toNat
  match w.seq with
  | 0 => if arms then [lit14] else []
  | 1 | 4 => [lit14]
  | 2 | 3 => [(a : Int) + (field w.lit 0 11).toInt]
  | 6 => [lit14, lit14 + 15]
  | _ => []

/-- Whether the sequencer can come to address `a` other than by passing on from the word before: by an entry, a branch, a
return to the word after a CALL's delay slot, or past the end of a DBR loop that runs no pass (R300, R314, R318, R332). -/
def entered (cs : CStore) (words : List MicroWord) (a : Nat) : Bool :=
  let byWord (p : MicroWord × Nat) : Bool :=
    let (w, i) := p
    let n : BitVec 256 := lget 0 cs.nano (w.nano - 0x380)
    let lit14 := (field w.lit 0 14).toNat
    match w.seq with
    | 0 => field n 216 2 != 0 && bit n 218 && lit14 + 1 == a
    | 4 => lit14 == a || 0x3000 + i + 2 == a
    | 6 => decide (lit14 ≤ a) && decide (a ≤ lit14 + 15)
    | _ => (targetsOf w (0x3000 + i) false).contains (a : Int)
  cs.entries.any (fun e => bit e 15 && (field e 0 14).toNat == a) || words.zipIdx.any byWord

/-- The conditions on the word at index `i` of a customer part (R333). The last word may only end the routine or branch, or
be the delay slot of a JUMP, a RET or a DISP that the sequencer enters in no other way; the return from a CALL before it
would lie outside (R295). -/
def wordOk (cs : CStore) (i : Nat) : Bool :=
  let words := cs.micro.map readWord
  let total := words.length
  let a := 0x3000 + i
  match words[i]? with
  | none => false
  | some w =>
    let n : BitVec 256 := lget 0 cs.nano (w.nano - 0x380)
    let arms := field n 216 2 != 0
    let lit14 := (field w.lit 0 14).toNat
    let branches := decide (1 ≤ w.seq) && decide (w.seq ≤ 6)
    let always (k : Nat) : Bool := k == 1 || k == 5 || k == 6
    decide (0x380 ≤ w.nano) && decide (w.nano < 0x380 + cs.nano.length) && decide (w.seq ≤ 10) && litOk w arms
      && ((targetsOf w a arms).all fun t => decide (0x3000 ≤ t) && decide (t < 0x3000 + (total : Int)))
      && (!arms || (w.seq == 0 && decide (a + (if bit n 218 then 1 else 2) ≤ lit14)))
      && (!branches || (words[i + 1]?.map (·.seq)) == some 0)
      && (decide (i + 1 < total) || !(w.seq == 0 || w.seq == 7 || w.seq == 8)
          || (w.seq == 0 && decide (0 < i) && always ((words[i - 1]?.map (·.seq)).getD 0) && !entered cs words a))
      && (!(w.seq == 7 || w.seq == 8) || w.ip)
      && (w.seq == 4 || field n 220 8 == 0)

/-- The conditions on a customer part's body: the position of the first that fails (R332, R333). -/
def customerBad (l : List Byte) : Option Nat :=
  let m := fieldLE l 2 2
  let n := fieldLE l 4 2
  let cs := customerParts l
  let entryOk (e : BitVec 32) : Bool :=
    let a := (field e 0 14).toNat
    !bit e 14 && (!bit e 15 || (decide (0x3000 ≤ a) && decide (a < 0x3000 + m)))
  firstWrong ([(fieldLE l 0 2 == 1, 0), (decide (1 ≤ m) && decide (m ≤ 4096), 2), (decide (1 ≤ n) && decide (n ≤ 128), 4),
      (zeros l 6 2, 6), (l.length == 264 + 4 * m + 32 * n, 2)]
    ++ ((cs.entries.zipIdx).map fun e => (entryOk e.1, 8 + 4 * e.2))
    ++ ((cs.nano.zipIdx).map fun x => (nanoOk x.1, 264 + 4 * m + 32 * x.2))
    ++ ((List.range m).map fun i => (wordOk cs i, 264 + 4 * i)))

/-! ### The whole check (R480) -/

/-- Step 5 of R480 for an image kind: the position in the body. -/
def contentBad (w : PlanBound) (kind : Nat) (body : List Byte) : Option Nat :=
  match kind with | 3 => customerBad body | 4 => planBad w body | _ => none

/-- An image's bytes checked in the order of R480; with FORCE, step 4 is skipped (R481). -/
def checkImage (nv : NonVolatile) (w : PlanBound) (others : List Image) (forced : Bool) (kind : Nat) (source : Byte)
    (l : List Byte) : Except ImageFault Image :=
  match headerBad kind l with
  | some p => .error { stage := 2, f := failAt badParam p }
  | none =>
    let i : Image := { header := l.take 288, body := (l.drop 288).take (fieldLE l 32 4), source := source, forced := forced }
    match signatureFault nv kind l with
    | some x => .error x
    | none =>
      match if forced then none else compatFault i others with
      | some x => .error x
      | none =>
        match contentBad w kind i.body with
        | some p => .error { stage := 6, f := failAt badParam (288 + p) }
        | none => .ok i

end Sys2Proof.Machine
end

