-- ==== Sys2Proof/Machine/Integer.lean ====
section
/-! DEFINITION. The integer instructions (R175 to R178). -/

namespace Sys2Proof.Machine

/-- A two-source operation that writes G(RA) and, where it names one, CC. `f` answers both from the sources. -/
def aluOp (x : FmtA) (signExtend : Bool) (count : Nat) (f : Word → Word → Word × Option Nat) : Macro where
  count := fun _ _ => count
  body := fun c => do
    twoSource x
    let (r, cc) := f (← getG c x.rb) (← src2 c x signExtend)
    setG c x.ra r
    match cc with
    | some v => setCC c v
    | none => pure ()
    return .seq

/-- The shift count of a second source: its bits [5:0] (R175). -/
def shiftCount (v : Word) : Nat := v.toNat % 64

/-- ADD (R175). -/
def execAdd (e : Eng) (x : FmtA) (s : State) : Host.Outcome State Fault Refusal :=
  macroNext e x.pred x.len (aluOp x true 1 fun a b => (a + b, some (ccSigned (a.toInt + b.toInt)))) s

/-- SUB (R175). -/
def execSub (e : Eng) (x : FmtA) (s : State) : Host.Outcome State Fault Refusal :=
  macroNext e x.pred x.len (aluOp x true 1 fun a b => (a - b, some (ccSigned (a.toInt - b.toInt)))) s

/-- AND (R175). -/
def execAnd (e : Eng) (x : FmtA) (s : State) : Host.Outcome State Fault Refusal :=
  macroNext e x.pred x.len (aluOp x false 1 fun a b => (a &&& b, some (ccResult (a &&& b)))) s

/-- OR (R175). -/
def execOr (e : Eng) (x : FmtA) (s : State) : Host.Outcome State Fault Refusal :=
  macroNext e x.pred x.len (aluOp x false 1 fun a b => (a ||| b, some (ccResult (a ||| b)))) s

/-- XOR (R175). -/
def execXor (e : Eng) (x : FmtA) (s : State) : Host.Outcome State Fault Refusal :=
  macroNext e x.pred x.len (aluOp x false 1 fun a b => (a ^^^ b, some (ccResult (a ^^^ b)))) s

/-- SHL (R175). -/
def execShl (e : Eng) (x : FmtA) (s : State) : Host.Outcome State Fault Refusal :=
  macroNext e x.pred x.len (aluOp x false 1 fun a b => (a <<< shiftCount b, none)) s

/-- SHR (R175). -/
def execShr (e : Eng) (x : FmtA) (s : State) : Host.Outcome State Fault Refusal :=
  macroNext e x.pred x.len (aluOp x false 1 fun a b => (a >>> shiftCount b, none)) s

/-- SAR (R175). -/
def execSar (e : Eng) (x : FmtA) (s : State) : Host.Outcome State Fault Refusal :=
  macroNext e x.pred x.len (aluOp x false 1 fun a b => (a.sshiftRight (shiftCount b), none)) s

/-- ROL (R175). -/
def execRol (e : Eng) (x : FmtA) (s : State) : Host.Outcome State Fault Refusal :=
  macroNext e x.pred x.len (aluOp x false 1 fun a b => (a.rotateLeft (shiftCount b), none)) s

/-- A comparison that writes only CC; RA is zero (R175). -/
def compareOp (x : FmtA) (f : Word → Word → Nat) : Macro where
  count := fun _ _ => 1
  body := fun c => do
    twoSource x
    zeroField x.ra
    setCC c (f (← getG c x.rb) (← src2 c x true))
    return .seq

/-- CMP (R175). -/
def execCmp (e : Eng) (x : FmtA) (s : State) : Host.Outcome State Fault Refusal :=
  macroNext e x.pred x.len (compareOp x fun a b => ccCompare a.toInt b.toInt) s

/-- CMPU (R175). -/
def execCmpu (e : Eng) (x : FmtA) (s : State) : Host.Outcome State Fault Refusal :=
  macroNext e x.pred x.len (compareOp x fun a b => ccCompare a.toNat b.toNat) s

/-- The relation that CMPP's MOD[2:0] names; the codes 6 and 7 name none (R176). -/
def relation (code : Nat) (a b : Word) : Option Bool :=
  match code with
  | 0 => some (a == b)
  | 1 => some (a != b)
  | 2 => some (decide (a.toInt < b.toInt))
  | 3 => some (decide (a.toInt ≤ b.toInt))
  | 4 => some (decide (a.toNat < b.toNat))
  | 5 => some (decide (a.toNat ≤ b.toNat))
  | _ => none

/-- CMPP (R175, R176). -/
def execCmpp (e : Eng) (x : FmtA) (s : State) : Host.Outcome State Fault Refusal :=
  macroNext e x.pred x.len
    { count := fun _ _ => 1
      body := fun c => do
        lengthIn x.len [.l4, .l6]
        zeroField (field x.mod 4 2)
        if x.len = .l6 then zeroField x.rc
        lowReg x.ra
        match relation (field x.mod 0 3).toNat (← getG c x.rb) (← src2 c x true) with
        | none => specification
        | some v =>
          modBank c fun b => b.setPred x.ra.toNat (v ^^ bit x.mod 3)
          return .seq } s

/-- MOV (R175). -/
def execMov (e : Eng) (x : FmtA) (s : State) : Host.Outcome State Fault Refusal :=
  macroNext e x.pred x.len
    { count := fun _ _ => 1
      body := fun c => do
        lengthIn x.len [.l4, .l6]
        zeroField x.mod
        zeroField x.rc
        if x.len = .l6 then
          zeroField x.rb
          setG c x.ra (sext 16 x.imm.toNat)
        else setG c x.ra (← getG c x.rb)
        return .seq } s

/-- MVI (R175). -/
def execMvi (e : Eng) (x : FmtA) (s : State) : Host.Outcome State Fault Refusal :=
  macroNext e x.pred x.len
    { count := fun _ _ => 1
      body := fun c => do
        lengthIn x.len [.l6]
        zeroField (field x.mod 3 3)
        zeroField x.rb
        zeroField x.rc
        let old ← getG c x.ra
        let start := if bit x.mod 2 then 0 else old
        setG c x.ra (setField start (16 * (field x.mod 0 2).toNat) 16 x.imm.toNat)
        return .seq } s

/-- MUL (R175). -/
def execMul (e : Eng) (x : FmtA) (s : State) : Host.Outcome State Fault Refusal :=
  macroNext e x.pred x.len (aluOp x true 3 fun a b => (a * b, some (ccSigned (a.toInt * b.toInt)))) s

/-- A 4-byte register operation of G(RB) and G(RC), MOD zero, that writes G(RA) alone. -/
def highProduct (x : FmtA) (f : Word → Word → Word) : Macro where
  count := fun _ _ => 4
  body := fun c => do
    lengthIn x.len [.l4]
    zeroField x.mod
    setG c x.ra (f (← getG c x.rb) (← getG c x.rc))
    return .seq

/-- MULH (R175). -/
def execMulh (e : Eng) (x : FmtA) (s : State) : Host.Outcome State Fault Refusal :=
  macroNext e x.pred x.len (highProduct x fun a b => BitVec.ofInt 64 ((a.toInt * b.toInt) / 2 ^ 64)) s

/-- MULHU (R175). -/
def execMulhu (e : Eng) (x : FmtA) (s : State) : Host.Outcome State Fault Refusal :=
  macroNext e x.pred x.len (highProduct x fun a b => BitVec.ofNat 64 (a.toNat * b.toNat / 2 ^ 64)) s

/-- A division: quotient to G(RA), remainder to G(RA+1), RA even; a zero divisor raises the integer-divide exception
(R177, R178). -/
def divideOp (x : FmtA) (f : Word → Word → Word × Word × Nat) : Macro where
  count := fun _ _ => 38
  body := fun c => do
    lengthIn x.len [.l4]
    zeroField x.mod
    evenReg x.ra
    let a ← getG c x.rb
    let b ← getG c x.rc
    if b = 0 then throw (.exc 0x33 1 0)
    let (q, r, cc) := f a b
    setG c x.ra q
    setG c (x.ra + 1) r
    setCC c cc
    return .seq

/-- DIV: quotient truncated toward zero, remainder with the sign of the dividend (R177). -/
def execDiv (e : Eng) (x : FmtA) (s : State) : Host.Outcome State Fault Refusal :=
  macroNext e x.pred x.len (divideOp x fun a b =>
    let q := a.toInt.tdiv b.toInt
    (BitVec.ofInt 64 q, BitVec.ofInt 64 (a.toInt.tmod b.toInt), ccSigned q)) s

/-- DIVU (R175, R177). -/
def execDivu (e : Eng) (x : FmtA) (s : State) : Host.Outcome State Fault Refusal :=
  macroNext e x.pred x.len (divideOp x fun a b =>
    let q := a.toNat / b.toNat
    (BitVec.ofNat 64 q, BitVec.ofNat 64 (a.toNat % b.toNat), if q = 0 then 0 else 2)) s

/-- The word that a G load of `bytes` writes (R79). -/
def loadedWord (l : List Byte) (signExtend : Bool) : Word :=
  if signExtend then sext (8 * l.length) (leNat l) else BitVec.ofNat 64 (leNat l)

/-- LD and LDS (R175). -/
def loadOp (x : FmtB) (signExtend : Bool) : Macro where
  count := fun _ _ => 2
  body := fun c => do
    lengthIn x.len [.l6, .l8, .l12]
    require x.sizeOnly
    let n := 2 ^ x.sizeCode
    match ← load c (x.ea (← getBank c)) n (.aligned n) (.g x.ra n signExtend) with
    | none => return .waits
    | some l =>
      setG c x.ra (loadedWord l signExtend)
      return .seq

/-- LD (R175). -/
def execLd (e : Eng) (x : FmtB) (s : State) : Host.Outcome State Fault Refusal :=
  macroNext e x.pred x.len (loadOp x false) s

/-- LDS (R175). -/
def execLds (e : Eng) (x : FmtB) (s : State) : Host.Outcome State Fault Refusal :=
  macroNext e x.pred x.len (loadOp x true) s

/-- ST (R175). -/
def execSt (e : Eng) (x : FmtB) (s : State) : Host.Outcome State Fault Refusal :=
  macroNext e x.pred x.len
    { count := fun _ _ => 2
      body := fun c => do
        lengthIn x.len [.l6, .l8, .l12]
        require x.sizeOnly
        let n := 2 ^ x.sizeCode
        let b ← getBank c
        store c (x.ea b) (natLE n b.g[ix x.ra].toNat) (.aligned n)
        return .seq } s

/-- LEA (R175). -/
def execLea (e : Eng) (x : FmtB) (s : State) : Host.Outcome State Fault Refusal :=
  macroNext e x.pred x.len
    { count := fun _ _ => 1
      body := fun c => do
        lengthIn x.len [.l6, .l8, .l12]
        zeroField x.mod
        zeroField x.mod2
        setG c x.ra (BitVec.ofNat 64 (x.ea (← getBank c)))
        return .seq } s

/-- STI (R175): the sign-extended immediate is stored in SZ bytes. -/
def execSti (e : Eng) (x : FmtD) (s : State) : Host.Outcome State Fault Refusal :=
  macroNext e x.pred x.len
    { count := fun _ _ => 2
      body := fun c => do
        lengthIn x.len [.l8, .l12]
        zeroField x.mod
        let n := 2 ^ x.sz.toNat
        let v := sext (if x.len = .l12 then 32 else 12) x.imm.toNat
        store c (x.ea (← getBank c)) (natLE n v.toNat) (.aligned n)
        return .seq } s

end Sys2Proof.Machine
end

