-- ==== Sys2Proof/Machine/Control.lean ====
section
/-! DEFINITION. Predicates, branches, calls and returns, status control, waits and events, and instructions without an
assigned opcode (07, R187 to R204; R57, R60, R62; R85, R94). -/

namespace Sys2Proof.Machine

/-! ### The branch target buffer (R189 to R191) -/

/-- The set, and the tag with level and key, under which a branch of slot `i` at `ia` is looked up; the mask is what a
stored target is combined with. -/
structure BtbKey where
  scrambled : Bool
  set : Nat
  tag : BitVec 38
  level : BitVec 3
  key : BitVec 8
  mask : BitVec 48
deriving DecidableEq, Repr

/-- V of R191: IA combined with the slot's secret, bits [47:1] rotated left. -/
def scrambledAddress (ia : BitVec 48) (secret : Word) : BitVec 48 :=
  let v := ia ^^^ field secret 0 48
  let r : BitVec 47 := (field v 1 47).rotateLeft (field secret 48 6).toNat
  r ++ field v 0 1

/-- The key of a branch (R191). -/
def State.btbKey (s : State) (i : Nat) (ia : Nat) : BtbKey :=
  let p := (s.bank i).psw
  let a := BitVec.ofNat 48 ia
  if (s.dom (s.owner i)).scrambled then
    let v := scrambledAddress a (s.slot i).secret
    { scrambled := true, set := (field v 1 9).toNat, tag := field v 10 38, level := 0, key := 0, mask := field (s.slot i).secret 0 48 }
  else
    { scrambled := false, set := (field a 1 9).toNat, tag := field a 10 38, level := BitVec.ofNat 3 (pswLEVEL p),
      key := BitVec.ofNat 8 (pswKEY p), mask := 0 }

/-- An entry that a lookup under a key hits. -/
def BtbKey.hits (k : BtbKey) (y : BtbEntry) : Bool :=
  y.scrambled == k.scrambled && y.tag == k.tag && y.level == k.level && y.key == k.key

/-- The entry of a key in a set. -/
def BtbKey.find (k : BtbKey) (set : List BtbEntry) : Option BtbEntry := set.find? k.hits

/-- The set without the entry of a key. -/
def BtbKey.without (k : BtbKey) (set : List BtbEntry) : List BtbEntry := set.filter fun y => !k.hits y

/-- The cost of a branch-group instruction and its effect on the BTB; `target` is where it branches, if it does (R100,
R189). Under fixed-time mode the BTB is neither read nor written (R104). -/
def branchCost (c : Cx) (target : Option Nat) : M Nat := do
  let p ← getPsw c
  if target.isSome then modify (·.tick c.e 8 1)
  if pswFTM p then return 5
  let k ← ask (·.btbKey c.slot (pswIA p))
  let set ← ask fun s => tget [] (s.eng c.e).btb k.set
  let hit := k.find set
  let put (l : List BtbEntry) : M Unit := modify (·.modEng c.e fun x => { x with btb := tset [] x.btb k.set l })
  let cost ← match target, hit with
    | some t, h => do
      let tt := BitVec.ofNat 48 t
      let entry : BtbEntry :=
        { scrambled := k.scrambled, tag := k.tag, level := k.level, key := k.key, writer := BitVec.ofNat 3 c.n.val,
          target := tt ^^^ k.mask }
      put ((entry :: k.without set).take 4)
      pure (match h with
        | some y => if y.target ^^^ k.mask = tt then 2 else 5
        | none => 5)
    | none, some _ => do
      put (k.without set)
      pure 5
    | none, none => pure 2
  if cost = 5 then modify (·.tick c.e 9 1)
  return cost

/-! ### Targets (R93, R188) -/

/-- A target given by an address: bit 0 and range are checked (R188). -/
def registerTarget (v : Nat) : M Nat := do
  if v % 2 = 1 then throw (.exc 0x21 0 v)
  if 2 ^ 48 ≤ v then throw (.exc 0x23 0 v)
  return v

/-- The target of a format-E branch (R93). -/
def branchTarget (c : Cx) (x : FmtE) : M Nat := do
  if x.len = .l12 then
    if x.tgt.toNat % 2 = 1 then specification
    return x.tgt.toNat
  else
    let off : Int := if x.len = .l4 then (BitVec.ofNat 14 x.off.toNat).toInt else x.off.toInt
    let t : Int := (pswIA (← getPsw c) : Int) + 2 * off
    if t < 0 ∨ 2 ^ 48 ≤ t then throw (.exc 0x23 0 (BitVec.ofInt 64 t).toNat)
    return t.toNat

/-- Fields of format E that an opcode marks zero: MASK of a branch that takes none, and W0[13:0] in 12 bytes. -/
def plainBranch (x : FmtE) : M Unit := do
  zeroField x.mask
  if x.len = .l12 then zeroField x.off

/-- The end of a branch: its cost is spent, and IA goes to the target or on. -/
def branchTo (c : Cx) (target : Option Nat) (extra : Nat) : M Done := do
  spendBranch c ((← branchCost c target) + extra)
  match target with
  | some t => return .goto t
  | none => return .seq
where
  /-- The engine spends the cost of the branch. -/
  spendBranch (c : Cx) (n : Nat) : M Unit := do
    let p ← getPsw c
    modify (·.cycles c.e (pswFTM p) n)

/-- A branch-group instruction: its work counts its own cost (R100). -/
def branchMacro (body : Cx → M Done) : Macro where
  branch := true
  selfTimed := true
  count := fun _ _ => 5
  body := body

/-! ### PSET and the branches (R187, R188) -/

/-- Bit (3 − CC) of a CC mask. -/
def maskBit (mask : BitVec 4) (cc : BitVec 2) : Bool := bit mask (3 - cc.toNat)

/-- PSET (R187). -/
def execPset (e : Eng) (x : FmtA) (s : State) : Host.Outcome State Fault Refusal :=
  macroNext e x.pred x.len
    { count := fun _ _ => 1
      body := fun c => do
        lengthIn x.len [.l4]
        lowReg x.ra
        let op := field x.mod 4 2
        let b ← getBank c
        if op = 0 then
          zeroField x.rb; zeroField x.rc
          modBank c fun b => b.setPred x.ra.toNat (maskBit (field x.mod 0 4) b.cc)
        else
          lowReg x.rb; lowReg x.rc
          zeroField (field x.mod 3 1)
          let p := b.pred x.rb.toNat ^^ bit x.mod 0
          let q := b.pred x.rc.toNat ^^ bit x.mod 1
          let r := if op = 1 then p && q else if op = 2 then p || q else p ^^ q
          modBank c fun b => b.setPred x.ra.toNat (r ^^ bit x.mod 2)
        return .seq } s

/-- B (R188). -/
def execB (e : Eng) (x : FmtE) (s : State) : Host.Outcome State Fault Refusal :=
  macroNext e x.pred x.len (branchMacro fun c => do
    lengthIn x.len [.l4, .l6, .l12]
    zeroField x.m
    plainBranch x
    branchTo c (some (← branchTarget c x)) 0) s

/-- BC (R188). -/
def execBc (e : Eng) (x : FmtE) (s : State) : Host.Outcome State Fault Refusal :=
  macroNext e x.pred x.len (branchMacro fun c => do
    lengthIn x.len [.l4, .l6, .l12]
    plainBranch x
    if maskBit x.m (← getBank c).cc then branchTo c (some (← branchTarget c x)) 0
    else branchTo c none 0) s

/-- BR (R188). -/
def execBr (e : Eng) (x : FmtA) (s : State) : Host.Outcome State Fault Refusal :=
  macroNext e x.pred x.len (branchMacro fun c => do
    lengthIn x.len [.l4]
    zeroField x.rb; zeroField x.rc; zeroField x.mod
    branchTo c (some (← registerTarget (← getG c x.ra).toNat)) 0) s

/-- DBNZ (R188). -/
def execDbnz (e : Eng) (x : FmtE) (s : State) : Host.Outcome State Fault Refusal :=
  macroNext e x.pred x.len (branchMacro fun c => do
    lengthIn x.len [.l4, .l6]
    let v := (← getG c x.m) - 1
    if v = 0 then
      setG c x.m v
      branchTo c none 0
    else
      let t ← branchTarget c x
      setG c x.m v
      branchTo c (some t) 0) s

/-! ### Calls and returns (R192 to R195) -/

/-- The registers that a mask selects, in ascending order. -/
def maskRegs (m : BitVec 16) : List (BitVec 4) :=
  (List.range 16).filterMap fun i => if bit m i then some (BitVec.ofNat 4 i) else none

/-- MASK[15] must be 0 (R192, R193). -/
def maskField (x : FmtE) : M Unit := zeroField (field x.mask 15 1)

/-- A stack fault (R194). -/
def stackFault {α : Type} (code eaddr : Nat) : M α := throw (.exc 0x3A code eaddr)

/-- The pieces of a frame: an access of it that would fault raises the stack fault `code` with that CAUSE, but the
accessed and dirty traps and a machine check stay themselves; device memory is CAUSE 0 (R194). -/
def framePieces (c : Cx) (acc : Acc) (code ea n : Nat) : M (List (Nat × Nat)) := do
  let ps ← tryCatch (pieces c.e c.slot acc ea n) fun t => match t with
    | .exc cause _ a => if cause = 0x2B ∨ cause = 0x2C then throw t else stackFault (code + 256 * cause) a
    | .mcheck _ _ _ => throw t
  let s ← get
  match (ps.zip (pagePieces ea n)).find? fun q => (s.paClass q.1.1).isDevice with
  | some q => stackFault code q.2.1
  | none => return ps

/-- CALL and CALLR with a target already checked: the frame is pushed, G14 and G15 written (R192, R194, R195). -/
def callTo (c : Cx) (mask : BitVec 16) (target : Nat) : M Done := do
  let b ← getBank c
  let regs := maskRegs mask
  let size := 8 * (regs.length + 1)
  let sp := b.g[15]
  if sp.toNat % 8 ≠ 0 then stackFault 3 sp.toNat
  modify (·.awaitPosts c.e)
  let new := (sp - BitVec.ofNat 64 size).toNat
  let ret := (pswIA b.psw + c.len) % 2 ^ 48
  let ps ← framePieces c .write 1 new size
  let words := (ret + 2 ^ 48 * mask.toNat) :: regs.map fun r => b.g[ix r].toNat
  writePieces c.e ps (words.flatMap (natLE 8)) false false
  putLink c ret new
  branchTo c (some target) (2 + regs.length)
where
  /-- G14 and G15 after a call. -/
  putLink (c : Cx) (ret new : Nat) : M Unit := do
    setG c 14 (BitVec.ofNat 64 ret)
    setG c 15 (BitVec.ofNat 64 new)

/-- CALL (R192). -/
def execCall (e : Eng) (x : FmtE) (s : State) : Host.Outcome State Fault Refusal :=
  macroNext e x.pred x.len (branchMacro fun c => do
    lengthIn x.len [.l8, .l12]
    zeroField x.m
    if x.len = .l12 then zeroField x.off
    maskField x
    callTo c x.mask (← branchTarget c x)) s

/-- CALLR (R192). -/
def execCallr (e : Eng) (x : FmtE) (s : State) : Host.Outcome State Fault Refusal :=
  macroNext e x.pred x.len (branchMacro fun c => do
    lengthIn x.len [.l8]
    zeroField x.off
    maskField x
    callTo c x.mask (← registerTarget (← getG c x.m).toNat)) s

/-- The registers that RET restores from the words of its frame. -/
def restoreRegs (c : Cx) : List (BitVec 4) → List Byte → M Unit
  | [], _ => pure ()
  | r :: rs, l => do
    setG c r (BitVec.ofNat 64 (fieldLE l 0 8))
    restoreRegs c rs (l.drop 8)

/-- RET (R193 to R195). -/
def execRet (e : Eng) (x : FmtE) (s : State) : Host.Outcome State Fault Refusal :=
  macroNext e x.pred x.len (branchMacro fun c => do
    lengthIn x.len [.l8]
    zeroField x.m; zeroField x.off
    maskField x
    let regs := maskRegs x.mask
    let size := 8 * (regs.length + 1)
    let sp ← getG c 15
    if sp.toNat % 8 ≠ 0 then stackFault 3 sp.toNat
    modify (·.awaitPosts c.e)
    let ps ← framePieces c .read 2 sp.toNat size
    let l ← readPieces c.e sp.toNat ps
    let retw := fieldLE l 0 8
    if retw / 2 ^ 48 ≠ x.mask.toNat then stackFault 4 sp.toNat
    if retw % 2 = 1 then stackFault 5 sp.toNat
    restoreRegs c regs (l.drop 8)
    setG c 15 (sp + BitVec.ofNat 64 size)
    branchTo c (some (retw % 2 ^ 48)) (3 + regs.length)) s

/-! ### Supervisor call and return (R202 to R204) -/

/-- SVC: it completes and raises the supervisor-call exception with IA at the next instruction (R203). -/
def execSvc (e : Eng) (x : FmtA) (s : State) : Host.Outcome State Fault Refusal :=
  macroNext e x.pred x.len
    { count := fun _ _ => 2
      body := fun _ => do
        lengthIn x.len [.l4, .l6]
        zeroField x.ra; zeroField x.rb; zeroField x.rc
        if x.len = .l6 then zeroField x.mod
        return .raises 0x38 (if x.len = .l6 then x.imm.toNat else x.mod.toNat) } s

/-- The fields of an instruction of R202 that names only RA. -/
def onlyRa (x : FmtA) : M Unit := do
  lengthIn x.len [.l4]
  zeroField x.rb; zeroField x.rc; zeroField x.mod

/-- A reserved bit of a PSW image is set: [63:62] or [127:72] (R56). -/
def pswReserved (p : BitVec 128) : Bool := field p 62 2 != 0 || field p 72 56 != 0

/-- ERET (R204, R285). -/
def execEret (e : Eng) (x : FmtA) (s : State) : Host.Outcome State Fault Refusal :=
  macroNext e x.pred x.len
    { selfTimed := true
      count := fun _ _ => 12
      body := fun c => do
        onlyRa x
        zeroField x.ra
        needPriv c
        let b ← getBank c
        require (!pswReserved b.epsw)
        if pswKEY b.psw ≠ 0 ∧ pswKEY b.epsw ≠ pswKEY b.psw then privileged
        require (!bit b.epsw 0)
        modify (·.cycles c.e (pswFTM b.psw) 12)
        modify fun s => (s.eret c.e c.n).tick c.e 7 1
        return .left } s

/-! ### Status control (R57, R62, R202) -/

/-- The PSW that SPSW installs, or none where it raises a privileged-operation exception (R28, R57). -/
def spswResult (d : Domain) (now want : BitVec 128) : Option (BitVec 128) :=
  let priv := pswPRIV now
  let keyBad := pswKEY want != pswKEY now && !(priv && pswKEY now == 0)
  if keyBad || (!priv && pswPRIV want) then none
  else
    let p := setField now 48 8 (pswKEY want)
    let p := setField p 59 1 (b2n (pswPRIV want))
    let p := setField p 60 1 (b2n (ftmAfterWrite d (pswFTM now) (pswFTM want)))
    some (setField p 61 1 (b2n (pswDOE want)))

/-- SPSW (R57): its own 2 cy are spent under the PSW that it replaces (R58). DESIGN CHOICE: a reserved bit set in the operand
raises the specification exception before a KEY or PRIV change that is not allowed raises the privileged-operation one;
R57 gives the two no order. -/
def execSpsw (e : Eng) (x : FmtA) (s : State) : Host.Outcome State Fault Refusal :=
  macroNext e x.pred x.len
    { selfTimed := true
      count := fun _ _ => 2
      body := fun c => do
        modify fun s => s.cycles c.e (pswFTM (s.bank c.slot).psw) 2
        onlyRa x
        evenReg x.ra
        let want : BitVec 128 := (← getG c (x.ra + 1)) ++ (← getG c x.ra)
        require (!pswReserved want)
        let d ← ask fun s => s.dom (s.owner c.slot)
        match spswResult d (← getPsw c) want with
        | none => privileged
        | some p =>
          modBank c fun b => { b with psw := p }
          return .seq } s

/-- GPSW: IA reads the address of the next instruction (R202). -/
def execGpsw (e : Eng) (x : FmtA) (s : State) : Host.Outcome State Fault Refusal :=
  macroNext e x.pred x.len
    { count := fun _ _ => 1
      body := fun c => do
        onlyRa x
        evenReg x.ra
        let p ← getPsw c
        let p := withIA p (pswIA p + c.len)
        setG c x.ra (field p 0 64)
        setG c (x.ra + 1) (field p 64 64)
        return .seq } s

/-- The fields of GETE and SETE: MOD[1:0] selects an entry register; privileged (R60, R202). -/
def entryFields (c : Cx) (x : FmtA) : M Unit := do
  lengthIn x.len [.l4]
  zeroField x.rb; zeroField x.rc
  zeroField (field x.mod 2 4)
  needPriv c

/-- GETE (R202). -/
def execGete (e : Eng) (x : FmtA) (s : State) : Host.Outcome State Fault Refusal :=
  macroNext e x.pred x.len
    { count := fun _ _ => 1
      body := fun c => do
        entryFields c x
        let b ← getBank c
        setG c x.ra (match (field x.mod 0 2).toNat with
          | 0 => field b.epsw 0 64
          | 1 => field b.epsw 64 64
          | 2 => b.estat
          | _ => b.eaddr)
        return .seq } s

/-- The bits of ESTAT that are not reserved (R64). -/
def estatMask : Word := 0x003F0007FFFF0FFF

/-- SETE (R64, R202). -/
def execSete (e : Eng) (x : FmtA) (s : State) : Host.Outcome State Fault Refusal :=
  macroNext e x.pred x.len
    { count := fun _ _ => 1
      body := fun c => do
        entryFields c x
        let v ← getG c x.ra
        modBank c fun b => match (field x.mod 0 2).toNat with
          | 0 => { b with epsw := setField b.epsw 0 64 v.toNat }
          | 1 => { b with epsw := setField b.epsw 64 64 v.toNat }
          | 2 => { b with estat := (b.estat &&& ~~~estatMask) ||| (v &&& estatMask) }
          | _ => { b with eaddr := v }
        return .seq } s

/-- KRS (R63, R202). -/
def execKrs (e : Eng) (x : FmtA) (s : State) : Host.Outcome State Fault Refusal :=
  macroNext e x.pred x.len
    { count := fun _ _ => 1
      body := fun c => do
        onlyRa x
        let v ← getG c x.ra
        modBank c fun b => { b with krr := field v 0 32 }
        return .seq } s

/-- KRG (R202). -/
def execKrg (e : Eng) (x : FmtA) (s : State) : Host.Outcome State Fault Refusal :=
  macroNext e x.pred x.len
    { count := fun _ _ => 1
      body := fun c => do
        onlyRa x
        setG c x.ra ((← getBank c).krr.setWidth 64)
        return .seq } s

/-- A value that FPC can hold (R61, R62). -/
def fpcOk (v : BitVec 32) : Bool :=
  field v 5 3 == 0 && field v 13 3 == 0 && !bit v 19 && !bit v 23
    && decide ((field v 16 3).toNat ≤ 3) && decide ((field v 20 3).toNat ≤ 4)

/-- SFPC (R62). -/
def execSfpc (e : Eng) (x : FmtA) (s : State) : Host.Outcome State Fault Refusal :=
  macroNext e x.pred x.len
    { count := fun _ _ => 1
      body := fun c => do
        onlyRa x
        let v : BitVec 32 := field (← getG c x.ra) 0 32
        require (fpcOk v)
        modBank c fun b => { b with fpc := v }
        return .seq } s

/-- GFPC (R202). -/
def execGfpc (e : Eng) (x : FmtA) (s : State) : Host.Outcome State Fault Refusal :=
  macroNext e x.pred x.len
    { count := fun _ _ => 1
      body := fun c => do
        onlyRa x
        setG c x.ra ((← getBank c).fpc.setWidth 64)
        return .seq } s

/-- TBR (R199). -/
def execTbr (e : Eng) (x : FmtA) (s : State) : Host.Outcome State Fault Refusal :=
  macroNext e x.pred x.len
    { count := fun _ _ => 2
      body := fun c => do
        onlyRa x
        setG c x.ra (← ask (·.pcm.chrono))
        return .seq } s

/-! ### Waits and events (R196 to R201) -/

/-- The end of a WFE that may end now: CC, the latch cleared when it was set (R197). -/
def wfeEnd (c : Cx) (deadline : Option Word) : M (Option Unit) := do
  let s ← get
  if (s.slot c.slot).wake then
    modify (·.modSlot c.slot fun x => { x with wake := false })
    setCC c 0
    return some ()
  match deadline with
  | some t =>
    if t.toNat ≤ s.pcm.chrono.toNat then
      setCC c 2
      return some ()
    else return none
  | none => return none

/-- WFE (R197): it completes in its first cycle, or the engine waits. -/
def execWfe (e : Eng) (x : FmtA) (s : State) : Host.Outcome State Fault Refusal :=
  macroNext e x.pred x.len
    { count := fun _ _ => 2
      body := fun c => do
        lengthIn x.len [.l4]
        zeroField x.rb; zeroField x.rc; zeroField (field x.mod 1 5)
        modify (·.awaitPosts c.e)
        let deadline ← if bit x.mod 0 then do pure (some (← getG c x.ra)) else pure none
        match ← wfeEnd c deadline with
        | some _ => return .seq
        | none =>
          modify (·.modEng c.e fun y => { y with wait := .wfe deadline })
          return .waits } s

/-- WUNTIL (R198): CC 2 at once when the time has come, or the engine waits. -/
def execWuntil (e : Eng) (x : FmtA) (s : State) : Host.Outcome State Fault Refusal :=
  macroNext e x.pred x.len
    { count := fun _ _ => 2
      body := fun c => do
        onlyRa x
        modify (·.awaitPosts c.e)
        let t ← getG c x.ra
        if t.toNat ≤ (← get).pcm.chrono.toNat then
          setCC c 2
          return .seq
        modify (·.modEng c.e fun y => { y with wait := .wuntil t })
        return .waits } s

/-- The state of an engine as `State.ready` sees it once it no longer waits. -/
def State.unwait (s : State) (e : Eng) : State := s.modEng e fun x => { x with wait := .none }

/-- The end of a wait of a 4-byte instruction of the running level, when no entry is due there: `f` finishes it. -/
def State.endWait (s : State) (e : Eng) (f : Cx → M (Option Unit)) : State :=
  match (s.unwait e).ready e with
  | none => s
  | some n =>
    let c : Cx := { e := e, n := n, len := 4 }
    match (f c).exec (s.unwait e) with
    | (.ok (some _), s') => (s'.complete c 0 .seq).takePostCheck e
    | _ => s

/-- WFE_COMPLETE (R197). -/
def execWfeComplete (e : Eng) (s : State) : Host.Outcome State Fault Refusal :=
  match (s.eng e).wait with
  | .wfe deadline => .next (s.endWait e fun c => wfeEnd c deadline)
  | _ => .next s

/-- WUNTIL_COMPLETE (R198). -/
def execWuntilComplete (e : Eng) (s : State) : Host.Outcome State Fault Refusal :=
  match (s.eng e).wait with
  | .wuntil t => .next (s.endWait e fun c => do
      if t.toNat ≤ (← get).pcm.chrono.toNat then
        setCC c 2
        return some ()
      else return none)
  | _ => .next s

/-- SEV: the target is checked, and the store buffer drains (R200). -/
def execSev (e : Eng) (x : FmtA) (s : State) : Host.Outcome State Fault Refusal :=
  macroNext e x.pred x.len
    { count := fun _ _ => 3
      body := fun c => do
        onlyRa x
        let g ← getG c x.ra
        let slot : BitVec 8 := field g 0 8
        let key := pswKEY (← getPsw c)
        let owner ← ask (·.owner slot.toNat)
        if key ≠ 0 ∧ owner ≠ key ∧ owner ≠ 0 then privileged
        modify fun s => (s.drainAll c.e).modEng c.e fun y => { y with wait := .sev slot (field g 8 6) }
        return .waits } s

/-- SEV_SEND: the event goes to Compass, the vector becomes pending with the wake latch, and SEV completes (R200,
R201). -/
def execSevSend (e : Eng) (s : State) : Host.Outcome State Fault Refusal :=
  match (s.eng e).wait, s.running e with
  | .sev slot vec, some n =>
    let c : Cx := { e := e, n := n, len := 4 }
    .next ((((s.unwait e).pendVector slot.toNat vec.toNat).complete c 0 .seq).takePostCheck e)
  | _, _ => .next s

/-! ### Instructions without an assigned opcode (R94, R96) and fetch faults (R85) -/

/-- A primary opcode that the spec assigns to an instruction, or an escape (R94, R118, R134, R175, R185, R188, R202,
R216). -/
def opAssigned (op : Nat) : Bool :=
  (decide (0x01 ≤ op) && decide (op ≤ 0x0E)) || (decide (0x10 ≤ op) && decide (op ≤ 0x14))
    || (decide (0x20 ≤ op) && decide (op ≤ 0x23)) || op == 0x30
    || (decide (0x40 ≤ op) && decide (op ≤ 0x53)) || (decide (0x60 ≤ op) && decide (op ≤ 0x6A))
    || (decide (0x70 ≤ op) && decide (op ≤ 0x73)) || (decide (0x78 ≤ op) && decide (op ≤ 0x7A))
    || (decide (0x80 ≤ op) && decide (op ≤ 0x85)) || (decide (0xA0 ≤ op) && decide (op ≤ 0xA7))
    || (decide (0xC0 ≤ op) && decide (op ≤ 0xD2)) || op == 0xF8

/-- An extended opcode that the spec assigns (R179, R205). -/
def xopAssigned (op xop : Nat) : Bool :=
  if op = 0xFE then decide (xop ≤ 0x0C) || (decide (0x80 ≤ xop) && decide (xop ≤ 0x84))
  else decide (xop ≤ 0x03) || xop == 0x08 || xop == 0x09 || (decide (0x80 ≤ xop) && decide (xop ≤ 0x83))

/-- An instruction whose opcode is unassigned raises the operation exception (R94, R96); a command that names an assigned
opcode is turned away. DESIGN CHOICE: it takes 1 cy, predicated off under FTM too; the spec documents no count for it. -/
def execUnassignedOpcode (e : Eng) (pred : BitVec 4) (len : Len) (op : BitVec 8) (xop : BitVec 8) (s : State) :
    Host.Outcome State Fault Refusal :=
  let assigned := if op = 0xFE ∨ op = 0xFF then xopAssigned op.toNat xop.toNat else opAssigned op.toNat
  if assigned then .next s
  else macroNext e pred len { count := fun _ _ => 1, body := fun _ => throw (.exc 0x20 0 0) } s

/-- A fetch fault on a page that holds one of the first four bytes at IA: ILEN is 0 (R85). Turned away where those bytes
can be fetched. -/
def execInstructionFetchFault (e : Eng) (s : State) : Host.Outcome State Fault Refusal :=
  match s.ready e with
  | none => .next s
  | some n =>
    let i := slotOf e n.val
    match fetch e i (pswIA (s.bank i).psw) 4 s with
    | (.error (false, t), s') => .next (s'.trapped e n 0 t)
    | _ => .next s

end Sys2Proof.Machine
end

