-- ==== Sys2Proof/Machine/Decimal.lean ====
section
/-! DEFINITION. The fixed-decimal instructions (05, R106 to R133). -/

namespace Sys2Proof.Machine

/-! ### Sources and results -/

/-- A checked source, or the data exception with its operand number (R74, R114). -/
def source (operand : Nat) : Except (Nat × Nat) Int → M Int
  | .ok v => return v
  | .error (kind, position) => throw (.exc 0x30 (dataDetail kind operand position) 0)

/-- The value of D(r) as source number `operand`. -/
def sourceD (c : Cx) (operand : Nat) (r : BitVec 4) : M Int := do source operand (checkPacked 63 (← getD' c r).toNat)

/-- The result rule under the current PSW.DOE, or the decimal-overflow exception (R108). -/
def finishM (c : Cx) (r : Int) (n : Nat) (u : Bool) : M Finished := do
  match finish (pswDOE (← getPsw c)) r n u with
  | .ok f => return f
  | .error d => throw (.exc 0x32 d 0)

/-- A finished result goes to D(r) with CC. -/
def putD (c : Cx) (r : BitVec 4) (f : Finished) : M Unit := do
  setD c r (BitVec.ofNat 256 (f.image 63))
  setCC c f.cc

/-- The limit N of the forms with IMM16: 63 in 4 bytes, IMM16[5:0] in 6 bytes, where 0 is refused and the other bits are
zero (R107, R113). -/
def limit63 (x : FmtA) : M Nat := do
  if x.len = .l6 then
    zeroField (field x.imm 6 10)
    let n := (field x.imm 0 6).toNat
    require (n != 0)
    return n
  else return 63

/-- ⌈n/8⌉. -/
def eighths (n : Nat) : Nat := (n + 7) / 8

/-! ### Packed operands in memory -/

/-- The packed length L of DLD and DST: 4, 8, 16 or 32 in 6 bytes, MOD[4:0] + 1 otherwise (R118). -/
def packedLen (x : FmtB) : Nat := if x.len = .l6 then 4 * 2 ^ (field x.mod 4 2).toNat else (field x.mod 0 5).toNat + 1

/-- The value of a packed operand's bytes as source number `operand` (R50, R72). -/
def sourceBytes (operand : Nat) (l : List Byte) : M Int := source operand (checkPacked (2 * l.length - 1) (beNat l))

/-- The bytes of a finished result of `len` bytes (R50). -/
def Finished.packed (f : Finished) (len : Nat) : List Byte := natBE len (f.image (2 * len - 1))

/-! ### Register instructions -/

/-- DAD and DSB: two D sources and one D result (R119). -/
def decimalAdd (x : FmtA) (f : Int → Int → Int) : Macro where
  count := fun _ _ => 4
  body := fun c => do
    lengthIn x.len [.l4, .l6]
    lowReg x.ra; lowReg x.rb; lowReg x.rc
    zeroField (field x.mod 1 5)
    let n ← limit63 x
    let a ← sourceD c 1 x.rb
    let b ← sourceD c 2 x.rc
    putD c x.ra (← finishM c (f a b) n (bit x.mod 0))
    return .seq

/-- DAD (R119). -/
def execDad (e : Eng) (x : FmtA) (s : State) : Host.Outcome State Fault Refusal :=
  macroNext e x.pred x.len (decimalAdd x fun a b => a + b) s

/-- DSB (R119). -/
def execDsb (e : Eng) (x : FmtA) (s : State) : Host.Outcome State Fault Refusal :=
  macroNext e x.pred x.len (decimalAdd x fun a b => a - b) s

/-- DZP (R119). -/
def execDzp (e : Eng) (x : FmtA) (s : State) : Host.Outcome State Fault Refusal :=
  macroNext e x.pred x.len
    { count := fun _ _ => 3
      body := fun c => do
        lengthIn x.len [.l4, .l6]
        lowReg x.ra; lowReg x.rb
        zeroField x.rc
        zeroField (field x.mod 1 5)
        let n ← limit63 x
        let v ← sourceD c 1 x.rb
        putD c x.ra (← finishM c v n (bit x.mod 0))
        return .seq } s

/-- A finished result of 126 digits goes to the pair at `r` (R51). -/
def putPair (c : Cx) (r : BitVec 4) (f : Finished) : M Unit := do
  setD c r (BitVec.ofNat 256 (f.sign + 16 * bcd 63 (f.mag / 10 ^ 63)))
  setD c (r + 1) (BitVec.ofNat 256 (f.sign + 16 * bcd 63 f.mag))
  setCC c f.cc

/-- DMP (R121): the 6-byte form is permitted only with S = 1. -/
def execDmp (e : Eng) (x : FmtA) (s : State) : Host.Outcome State Fault Refusal :=
  macroNext e x.pred x.len
    { count := fun _ _ => 34
      body := fun c => do
        let single := bit x.mod 1
        lengthIn x.len (if single then [.l4, .l6] else [.l4])
        lowReg x.ra; lowReg x.rb; lowReg x.rc
        zeroField (field x.mod 2 4)
        if !single then evenReg x.ra
        let n ← limit63 x
        let a ← sourceD c 1 x.rb
        let b ← sourceD c 2 x.rc
        if single then putD c x.ra (← finishM c (a * b) n (bit x.mod 0))
        else putPair c x.ra (← finishM c (a * b) 126 (bit x.mod 0))
        return .seq } s

/-- DDV (R122). -/
def execDdv (e : Eng) (x : FmtA) (s : State) : Host.Outcome State Fault Refusal :=
  macroNext e x.pred x.len
    { count := fun _ _ => 140
      body := fun c => do
        lengthIn x.len [.l4]
        lowReg x.ra; lowReg x.rb; lowReg x.rc
        evenReg x.ra; evenReg x.rb
        zeroField (field x.mod 1 5)
        let a ← source 1 (checkPair (← getD' c x.rb).toNat (← getD' c (x.rb + 1)).toNat)
        let b ← sourceD c 2 x.rc
        if b = 0 then throw (.exc 0x31 1 0)
        let m := a.tmod b
        let q ← finishM c (a.tdiv b) 63 (bit x.mod 0)
        putD c x.ra q
        let r : Finished := { mag := m.natAbs, sign := resultSign (decide (m < 0)) (bit x.mod 0), cc := q.cc }
        setD c (x.ra + 1) (BitVec.ofNat 256 (r.image 63))
        return .seq } s

/-- DCP (R123). -/
def execDcp (e : Eng) (x : FmtA) (s : State) : Host.Outcome State Fault Refusal :=
  macroNext e x.pred x.len
    { count := fun _ _ => 3
      body := fun c => do
        lengthIn x.len [.l4]
        lowReg x.rb; lowReg x.rc
        zeroField x.ra
        zeroField x.mod
        let a ← sourceD c 1 x.rb
        let b ← sourceD c 2 x.rc
        setCC c (ccCompare a b)
        return .seq } s

/-! ### Shift and round (R116, R117, R125, R126) -/

/-- Whether the kept magnitude `q` is incremented for the discarded part `rest`, `half` being half a unit (R116). -/
def roundUp (mode : Nat) (neg : Bool) (q rest half : Nat) : Bool :=
  match mode with
  | 0 => decide (half ≤ rest)
  | 1 => decide (half < rest) || (rest == half && q % 2 == 1)
  | 2 => decide (half < rest)
  | 4 => rest != 0
  | 5 => rest != 0 && neg
  | 6 => rest != 0 && !neg
  | _ => false

/-- The kept magnitude, in units of 10^p, of `v` rounded at `p` places (R117). -/
def roundKept (v : Int) (p mode : Nat) : Int :=
  if p = 0 then v
  else
    let m := v.natAbs
    let q := m / 10 ^ p
    let up := roundUp mode (decide (v < 0)) q (m % 10 ^ p) (5 * 10 ^ (p - 1))
    signed (decide (v < 0)) (if up then q + 1 else q)

/-- The shift or place count, and the field checks that DSH and DRN share (R118, R125, R126). -/
def placesField (c : Cx) (x : FmtA) : M (BitVec 8) := do
  lengthIn x.len [.l4, .l6]
  lowReg x.ra; lowReg x.rb
  zeroField (field x.mod 4 2)
  require (field x.mod 0 3 != 7)
  if x.len = .l6 then
    zeroField x.rc
    zeroField (field x.imm 8 8)
    return field x.imm 0 8
  else return field (← getG c x.rc) 0 8

/-- DSH (R125). -/
def execDsh (e : Eng) (x : FmtA) (s : State) : Host.Outcome State Fault Refusal :=
  macroNext e x.pred x.len
    { count := fun _ _ => 3
      body := fun c => do
        let k := (← placesField c x).toInt
        require (decide (-63 ≤ k) && decide (k ≤ 63))
        let v ← sourceD c 1 x.rb
        let r := if 0 ≤ k then v * 10 ^ k.toNat else roundKept v (-k).toNat (field x.mod 0 3).toNat
        putD c x.ra (← finishM c r 63 (bit x.mod 3))
        return .seq } s

/-- DRN (R126). -/
def execDrn (e : Eng) (x : FmtA) (s : State) : Host.Outcome State Fault Refusal :=
  macroNext e x.pred x.len
    { count := fun _ _ => 4
      body := fun c => do
        let p := (← placesField c x).toNat
        require (decide (p ≤ 63))
        let v ← sourceD c 1 x.rb
        let r := roundKept v p (field x.mod 0 3).toNat * 10 ^ p
        putD c x.ra (← finishM c r 63 (bit x.mod 3))
        return .seq } s

/-! ### Binary conversion and test (R124, R131, R132) -/

/-- The fields of DTB and BTD: 4 bytes, RC zero, MOD[5:1] zero. -/
def convertFields (x : FmtA) (d : BitVec 4) : M Unit := do
  lengthIn x.len [.l4]
  lowReg d
  zeroField x.rc
  zeroField (field x.mod 1 5)

/-- DTB (R131). -/
def execDtb (e : Eng) (x : FmtA) (s : State) : Host.Outcome State Fault Refusal :=
  macroNext e x.pred x.len
    { count := fun _ _ => 18
      body := fun c => do
        convertFields x x.rb
        let u := bit x.mod 0
        let v ← sourceD c 1 x.rb
        let fits := if u then decide (0 ≤ v) && decide (v < 2 ^ 64) else decide (-2 ^ 63 ≤ v) && decide (v < 2 ^ 63)
        if !fits && pswDOE (← getPsw c) then throw (.exc 0x32 (packBits [(8, decLength 127 v.natAbs)]) 0)
        setG c x.ra (BitVec.ofInt 64 v)
        setCC c (if fits then ccValue v else 3)
        return .seq } s

/-- BTD (R132). -/
def execBtd (e : Eng) (x : FmtA) (s : State) : Host.Outcome State Fault Refusal :=
  macroNext e x.pred x.len
    { count := fun _ _ => 22
      body := fun c => do
        convertFields x x.ra
        let u := bit x.mod 0
        let g ← getG c x.rb
        putD c x.ra (← finishM c (if u then (g.toNat : Int) else g.toInt) 63 u)
        return .seq } s

/-- DTS: register form 0x4E and memory form 0x4F (R118, R124). -/
def execDts (e : Eng) (x : FmtDts) (s : State) : Host.Outcome State Fault Refusal :=
  match x with
  | .reg x => macroNext e x.pred x.len
    { count := fun _ _ => 3
      body := fun c => do
        lengthIn x.len [.l4]
        lowReg x.rb
        zeroField x.ra; zeroField x.rc; zeroField x.mod
        setCC c (testPacked 63 (← getD' c x.rb).toNat)
        return .seq } s
  | .mem x => macroNext e x.pred x.len
    { count := fun _ _ => 3 + eighths ((field x.mod 0 5).toNat + 1)
      body := fun c => do
        lengthIn x.len [.l8, .l12]
        zeroField x.ra; zeroField (field x.mod 5 1); zeroField x.mod2
        let n := (field x.mod 0 5).toNat + 1
        let l ← loadNormal c (x.ea (← getBank c)) n
        setCC c (testPacked (2 * n - 1) (beNat l))
        return .seq } s

/-! ### Loads and stores (R127, R128) -/

/-- DLD (R127). -/
def execDld (e : Eng) (x : FmtB) (s : State) : Host.Outcome State Fault Refusal :=
  macroNext e x.pred x.len
    { count := fun _ _ => 3 + eighths (packedLen x)
      body := fun c => do
        lengthIn x.len [.l6, .l8, .l12]
        lowReg x.ra
        if x.len ≠ .l6 then zeroField (field x.mod 5 1)
        zeroField x.mod2
        let l ← loadNormal c (x.ea (← getBank c)) (packedLen x)
        let v ← sourceBytes 1 l
        setD c x.ra (BitVec.ofNat 256 (beNat l))
        setCC c (ccValue v)
        return .seq } s

/-- DST (R128). -/
def execDst (e : Eng) (x : FmtB) (s : State) : Host.Outcome State Fault Refusal :=
  macroNext e x.pred x.len
    { count := fun _ _ => 3 + eighths (packedLen x)
      body := fun c => do
        lengthIn x.len [.l6, .l8, .l12]
        lowReg x.ra
        zeroField x.mod2
        let n := packedLen x
        modify (·.awaitPosts c.e)
        let ps ← checkedPieces c .write (x.ea (← getBank c)) n .never
        let v ← sourceD c 1 x.ra
        let f ← finishM c v (2 * n - 1) (x.len != .l6 && bit x.mod 5)
        writePieces c.e ps (f.packed n) false false
        setCC c f.cc
        return .seq } s

/-! ### Zoned conversion (R129, R130) -/

/-- Sign forms of a zoned operand (R76, R118). -/
inductive ZonedForm where
  | none | leading | trailing
deriving DecidableEq, Repr

/-- The sign form that MOD2[1:0] names; 0b11 names none (R113). -/
def zonedForm (code : Nat) : Option ZonedForm :=
  match code with
  | 0 => some .none | 1 => some .leading | 2 => some .trailing | _ => Option.none

/-- Bytes of a zoned operand of `n` digits. -/
def zonedBytes (n : Nat) (form : ZonedForm) : Nat := if form = .none then n else n + 1

/-- The position of the first byte that is no ASCII digit, from `pos`. -/
def firstBadZoned : List Byte → Nat → Option Nat
  | [], _ => Option.none
  | b :: r, pos => if b.toNat < 0x30 ∨ 0x39 < b.toNat then some pos else firstBadZoned r (pos + 1)

/-- The value of a zoned operand (R76, R129): the sign byte first, then the digit of weight 10^0 upward. -/
def checkZoned (form : ZonedForm) (l : List Byte) : Except (Nat × Nat) Int :=
  let sign : Option Byte := match form with
    | .none => Option.none
    | .leading => l.head?
    | .trailing => l.getLast?
  let digits := match form with
    | .none => l
    | .leading => l.drop 1
    | .trailing => l.dropLast
  let bad := match sign with
    | some b => !(b == 0x2B || b == 0x20 || b == 0x2D)
    | Option.none => false
  if bad then .error (4, 0)
  else match firstBadZoned digits.reverse 1 with
    | some p => .error (3, p)
    | Option.none => .ok (signed (sign == some 0x2D) (digitsVal (digits.reverse.map fun b => b.toNat - 0x30)))

/-- The fields of DPK and DUP: `n` digits and the sign form (R113, R118). -/
def zonedFields (x : FmtB) : M (Nat × ZonedForm) := do
  lengthIn x.len [.l8, .l12]
  lowReg x.ra
  zeroField (field x.mod2 2 30)
  let n := x.mod.toNat + 1
  require (decide (n ≤ 63))
  match zonedForm (field x.mod2 0 2).toNat with
  | some f => return (n, f)
  | Option.none => specification

/-- The documented count of DPK and DUP (R133). -/
def zonedCount (x : FmtB) : Nat :=
  6 + eighths (x.mod.toNat + 1 + if field x.mod2 0 2 = 0 then 0 else 1)

/-- DPK (R129). -/
def execDpk (e : Eng) (x : FmtB) (s : State) : Host.Outcome State Fault Refusal :=
  macroNext e x.pred x.len
    { count := fun _ _ => zonedCount x
      body := fun c => do
        let (n, form) ← zonedFields x
        let l ← loadNormal c (x.ea (← getBank c)) (zonedBytes n form)
        let v ← source 1 (checkZoned form l)
        putD c x.ra (← finishM c v 63 (form == .none))
        return .seq } s

/-- The bytes of a zoned result (R130). -/
def zonedOut (f : Finished) (n : Nat) (form : ZonedForm) : List Byte :=
  let ds : List Byte := ((decDigits n f.mag).map fun d => BitVec.ofNat 8 (0x30 + d)).reverse
  let sign : Byte := if f.sign = 0xD then 0x2D else 0x2B
  match form with
  | .none => ds
  | .leading => sign :: ds
  | .trailing => ds ++ [sign]

/-- DUP (R130). -/
def execDup (e : Eng) (x : FmtB) (s : State) : Host.Outcome State Fault Refusal :=
  macroNext e x.pred x.len
    { count := fun _ _ => zonedCount x
      body := fun c => do
        let (n, form) ← zonedFields x
        modify (·.awaitPosts c.e)
        let ps ← checkedPieces c .write (x.ea (← getBank c)) (zonedBytes n form) .never
        let v ← sourceD c 1 x.ra
        let f ← finishM c v n false
        writePieces c.e ps (zonedOut f n form) false false
        setCC c f.cc
        return .seq } s

/-! ### Memory to memory (R120, R123) -/

/-- Byte lengths of the two operands of format C (R89). -/
def FmtC.len1 (x : FmtC) : Nat := x.l1.toNat + 1
/-- Byte length of the second operand. -/
def FmtC.len2 (x : FmtC) : Nat := x.l2.toNat + 1

/-- The pieces of both operands after every check of R113 steps 2 and 3; `acc1` is the first access
to op1, and an op1 that is read and written `back` is then checked as a write too (R111). -/
def bothOperands (c : Cx) (x : FmtC) (acc1 : Acc) (back : Bool) : M (Nat × List (Nat × Nat) × Nat × List (Nat × Nat)) := do
  lengthIn x.len [.l12]
  let b ← getBank c
  let (a1, a2) := (x.ea1 b, x.ea2 b)
  addressRange a1 (FmtC.len1 x)
  addressRange a2 (FmtC.len2 x)
  modify (·.awaitPosts c.e)
  let p1 ← checkedPieces c acc1 a1 (FmtC.len1 x) .never
  let p1 ← if back then checkedPieces c .write a1 (FmtC.len1 x) .never else pure p1
  let p2 ← checkedPieces c .read a2 (FmtC.len2 x) .never
  return (a1, p1, a2, p2)

/-- DADM and DSBM (R120). -/
def memoryAdd (x : FmtC) (f : Int → Int → Int) : Macro where
  count := fun _ _ => 6 + eighths (FmtC.len2 x) + 2 * eighths (FmtC.len1 x)
  body := fun c => do
    let (a1, p1, a2, p2) ← bothOperands c x .read true
    let l1 ← readPieces c.e a1 p1
    let l2 ← readPieces c.e a2 p2
    let v1 ← sourceBytes 1 l1
    let v2 ← sourceBytes 2 l2
    let r ← finishM c (f v1 v2) (2 * FmtC.len1 x - 1) false
    writePieces c.e p1 (r.packed (FmtC.len1 x)) false true
    setCC c r.cc
    return .seq

/-- DADM (R120). -/
def execDadm (e : Eng) (x : FmtC) (s : State) : Host.Outcome State Fault Refusal :=
  macroNext e x.pred x.len (memoryAdd x fun a b => a + b) s

/-- DSBM (R120). -/
def execDsbm (e : Eng) (x : FmtC) (s : State) : Host.Outcome State Fault Refusal :=
  macroNext e x.pred x.len (memoryAdd x fun a b => a - b) s

/-- DCPM (R123). -/
def execDcpm (e : Eng) (x : FmtC) (s : State) : Host.Outcome State Fault Refusal :=
  macroNext e x.pred x.len
    { count := fun _ _ => 4 + eighths (FmtC.len1 x) + eighths (FmtC.len2 x)
      body := fun c => do
        let (a1, p1, a2, p2) ← bothOperands c x .read false
        let l1 ← readPieces c.e a1 p1
        let l2 ← readPieces c.e a2 p2
        let v1 ← sourceBytes 1 l1
        let v2 ← sourceBytes 2 l2
        setCC c (ccCompare v1 v2)
        return .seq } s

/-- DZPM (R120): op1 is not examined. -/
def execDzpm (e : Eng) (x : FmtC) (s : State) : Host.Outcome State Fault Refusal :=
  macroNext e x.pred x.len
    { count := fun _ _ => 4 + eighths (FmtC.len1 x) + eighths (FmtC.len2 x)
      body := fun c => do
        let (_, p1, a2, p2) ← bothOperands c x .write false
        let v ← sourceBytes 2 (← readPieces c.e a2 p2)
        let r ← finishM c v (2 * FmtC.len1 x - 1) false
        writePieces c.e p1 (r.packed (FmtC.len1 x)) false false
        setCC c r.cc
        return .seq } s

end Sys2Proof.Machine
end

