-- ==== Sys2Proof/Machine/Ieee.lean ====
section
/-! DEFINITION. IEEE 754-2008 arithmetic on binary32, binary64, decimal64 and decimal128 as functions of numbers (R77,
R78, R180 to R182): decoding, encoding with densely packed decimal, one rounding routine, and each operation exactly
before it rounds. -/

namespace Sys2Proof.Machine

/-! ### Formats and values -/

/-- A format: its radix, precision, least and greatest exponent of an integral coefficient. -/
structure Fmt where
  decimal : Bool
  p : Nat
  qmin : Int
  qmax : Int
deriving DecidableEq, Repr

/-- The format that a code names (R179). -/
def fmtOf (code : Nat) : Fmt :=
  match code with
  | 0 => { decimal := false, p := 24, qmin := -149, qmax := 104 }
  | 1 => { decimal := false, p := 53, qmin := -1074, qmax := 971 }
  | 2 => { decimal := true, p := 16, qmin := -398, qmax := 369 }
  | _ => { decimal := true, p := 34, qmin := -6176, qmax := 6111 }

/-- The radix. -/
def Fmt.radix (f : Fmt) : Nat := if f.decimal then 10 else 2

/-- Bytes of a format in an F register and in memory (R53). -/
def fmtBytes (code : Nat) : Nat := if code = 0 then 4 else if code = 3 then 16 else 8

/-- A datum: a NaN with its sign, kind and payload, an infinity, or coef × radix^exp with a sign. -/
inductive FVal where
  | nan (neg signaling : Bool) (payload : Nat)
  | inf (neg : Bool)
  | fin (neg : Bool) (coef : Nat) (exp : Int)
deriving DecidableEq, Repr

/-- The conditions that an operation signals (R61): the FLAGS bits. -/
structure Conds where
  invalid : Bool := false
  divZero : Bool := false
  overflow : Bool := false
  underflow : Bool := false
  inexact : Bool := false
deriving DecidableEq, Repr

/-- FLAGS bits of the conditions (R61). -/
def Conds.bits (c : Conds) : Nat :=
  packBits [(0, b2n c.invalid), (1, b2n c.divZero), (2, b2n c.overflow), (3, b2n c.underflow), (4, b2n c.inexact)]

/-- The default quiet NaN (R77, R78). -/
def defaultNan : FVal := .nan false false 0

/-! ### Declets (R78) -/

/-- The number, 0 to 999, that a declet stands for; every declet stands for one. -/
def decletVal (d : Nat) : Nat :=
  let b (i : Nat) : Nat := d / 2 ^ i % 2
  let abc := d / 128 % 8
  let def' := d / 16 % 8
  let ghi := d % 8
  let (c, f, i) := (b 7, b 4, b 0)
  let gh := 2 * b 6 + b 5
  let hi := 2 * b 9 + b 8
  let t (x y z : Nat) : Nat := 100 * x + 10 * y + z
  if b 3 = 0 then t abc def' ghi
  else match 2 * b 2 + b 1 with
    | 0 => t abc def' (8 + i)
    | 1 => t abc (8 + f) (2 * gh + i)
    | 2 => t (8 + c) def' (2 * hi + i)
    | _ => match gh with
      | 0 => t (8 + c) (8 + f) (2 * hi + i)
      | 1 => t (8 + c) (2 * hi + f) (8 + i)
      | 2 => t abc (8 + f) (8 + i)
      | _ => t (8 + c) (8 + f) (8 + i)

/-- The canonical declet of a number 0 to 999. -/
def decletOf (v : Nat) : Nat :=
  let (x, y, z) := (v / 100 % 10, v / 10 % 10, v % 10)
  let (c, f, i) := (x % 2, y % 2, z % 2)
  let w (p st u t' : Nat) : Nat := 128 * p + 32 * st + 16 * u + t'
  match decide (8 ≤ x), decide (8 ≤ y), decide (8 ≤ z) with
  | false, false, false => 128 * x + 16 * y + z
  | false, false, true => 128 * x + 16 * y + (8 + i)
  | false, true, false => w x (z / 2) f (0b1010 + i)
  | true, false, false => 256 * (z / 2) + 128 * c + 16 * y + (0b1100 + i)
  | true, true, false => 256 * (z / 2) + 128 * c + 16 * f + (0b1110 + i)
  | true, false, true => 256 * (y / 2) + 128 * c + 32 + 16 * f + (0b1110 + i)
  | false, true, true => 128 * x + 64 + 16 * f + (0b1110 + i)
  | true, true, true => 128 * c + 96 + 16 * f + (0b1110 + i)

/-- The number that `n` declets spell. -/
def decletsVal : Nat → Nat → Nat
  | 0, _ => 0
  | n + 1, x => decletVal (x % 1024) + 1000 * decletsVal n (x / 1024)

/-- `n` canonical declets of a number. -/
def decletsOf : Nat → Nat → Nat
  | 0, _ => 0
  | n + 1, v => decletOf (v % 1000) + 1024 * decletsOf n (v / 1000)

/-! ### Decoding and encoding -/

/-- Binary formats: fraction bits and exponent bits. -/
def binaryLayout (code : Nat) : Nat × Nat := if code = 0 then (23, 8) else (52, 11)

/-- Decimal formats: declets, exponent-continuation bits and exponent bias. -/
def decimalLayout (code : Nat) : Nat × Nat × Nat := if code = 2 then (5, 8, 398) else (11, 12, 6176)

/-- A binary datum from its encoding. -/
def decodeBinary (code : Nat) (x : Nat) : FVal :=
  let (fb, eb) := binaryLayout code
  let frac := x % 2 ^ fb
  let e := x / 2 ^ fb % 2 ^ eb
  let neg := x / 2 ^ (fb + eb) % 2 == 1
  let qmin := (fmtOf code).qmin
  if e = 2 ^ eb - 1 then
    if frac = 0 then .inf neg else .nan neg (frac / 2 ^ (fb - 1) == 0) (frac % 2 ^ (fb - 1))
  else if e = 0 then .fin neg frac qmin
  else .fin neg (2 ^ fb + frac) (qmin + (e - 1 : Nat))

/-- A decimal datum from its encoding. -/
def decodeDecimal (code : Nat) (x : Nat) : FVal :=
  let (n, ec, bias) := decimalLayout code
  let t := x % 2 ^ (10 * n)
  let cont := x / 2 ^ (10 * n) % 2 ^ ec
  let g := x / 2 ^ (10 * n + ec) % 32
  let neg := x / 2 ^ (10 * n + ec + 5) % 2 == 1
  if g = 31 then .nan neg (cont / 2 ^ (ec - 1) == 1) (decletsVal n t)
  else if g = 30 then .inf neg
  else
    let (hi, lead) := if g < 24 then (g / 8, g % 8) else (g / 2 % 4, 8 + g % 2)
    .fin neg (lead * 1000 ^ n + decletsVal n t) ((hi * 2 ^ ec + cont : Nat) - (bias : Int))

/-- A datum from an F register or memory (R53). -/
def decodeF (code : Nat) (x : Nat) : FVal := if code < 2 then decodeBinary code x else decodeDecimal code x

/-- Left shift of a binary coefficient until it has `p` bits or its exponent is the least. -/
def normalize (p : Nat) (qmin : Int) : Nat → Nat → Int → Nat × Int
  | 0, c, q => (c, q)
  | n + 1, c, q => if c < 2 ^ (p - 1) ∧ qmin < q then normalize p qmin n (2 * c) (q - 1) else (c, q)

/-- The encoding of a binary datum. -/
def encodeBinary (code : Nat) (v : FVal) : Nat :=
  let (fb, eb) := binaryLayout code
  let f := fmtOf code
  let top (neg : Bool) : Nat := b2n neg * 2 ^ (fb + eb)
  match v with
  | .nan neg sig pl => top neg + (2 ^ eb - 1) * 2 ^ fb + (if sig then 0 else 2 ^ (fb - 1)) + pl % 2 ^ (fb - 1)
  | .inf neg => top neg + (2 ^ eb - 1) * 2 ^ fb
  | .fin neg c q =>
    let (c, q) := normalize f.p f.qmin 64 c q
    if c < 2 ^ fb then top neg + c
    else top neg + ((q - f.qmin).toNat + 1) * 2 ^ fb + (c - 2 ^ fb)

/-- The encoding of a decimal datum. -/
def encodeDecimal (code : Nat) (v : FVal) : Nat :=
  let (n, ec, bias) := decimalLayout code
  let top (neg : Bool) (g : Nat) : Nat := (b2n neg * 32 + g) * 2 ^ (10 * n + ec)
  match v with
  | .nan neg sig pl => top neg 31 + (if sig then 2 ^ (10 * n + ec - 1) else 0) + decletsOf n pl
  | .inf neg => top neg 30
  | .fin neg c q =>
    let e := (q + bias).toNat
    let lead := c / 1000 ^ n % 10
    let g := if lead < 8 then 8 * (e / 2 ^ ec) + lead else 24 + 2 * (e / 2 ^ ec) + (lead - 8)
    top neg g + e % 2 ^ ec * 2 ^ (10 * n) + decletsOf n c

/-- The F register image of a datum: bits above the format are 0 (R53). -/
def encodeF (code : Nat) (v : FVal) : BitVec 128 :=
  BitVec.ofNat 128 (if code < 2 then encodeBinary code v else encodeDecimal code v)

/-! ### Rounding -/

/-- The number of digits of a number in radix 2 or 10; 0 has none. -/
def digitCount (decimal : Bool) (c : Nat) : Nat :=
  if decimal then (if c = 0 then 0 else count10 (c.log2 + 1) c) else (if c = 0 then 0 else c.log2 + 1)
where
  /-- Decimal digits, by repeated division. -/
  count10 : Nat → Nat → Nat
    | 0, _ => 0
    | n + 1, c => if c = 0 then 0 else 1 + count10 n (c / 10)

/-- Whether a kept coefficient is incremented (R61): `rest` of `unit` is discarded, and `sticky` says that a nonzero part
lies below it. -/
def roundsUp (mode : Nat) (neg : Bool) (kept rest unit : Nat) (sticky : Bool) : Bool :=
  let some' := rest != 0 || sticky
  let twice := 2 * rest
  match mode with
  | 0 => decide (unit < twice) || (twice == unit && (sticky || kept % 2 == 1))
  | 1 => false
  | 2 => some' && !neg
  | 3 => some' && neg
  | _ => decide (unit ≤ twice)

/-- A coefficient shortened by `k` digits, and whether anything was lost. -/
def dropDigits (b mode : Nat) (neg : Bool) (c k : Nat) (sticky : Bool) : Nat × Bool :=
  let unit := b ^ k
  let kept := c / unit
  let rest := c % unit
  (if roundsUp mode neg kept rest unit sticky then kept + 1 else kept, rest != 0 || sticky)

/-- Trailing zeros removed while the exponent is below the preferred one. -/
def stripZeros (pref : Int) : Nat → Nat → Int → Nat × Int
  | 0, c, q => (c, q)
  | n + 1, c, q => if q < pref ∧ c % 10 = 0 ∧ c ≠ 0 then stripZeros pref n (c / 10) (q + 1) else (c, q)

/-- Zeros appended while the exponent is above the preferred one and the precision allows it. -/
def padZeros (p : Nat) (pref : Int) : Nat → Nat → Int → Nat × Int
  | 0, c, q => (c, q)
  | n + 1, c, q => if pref < q ∧ c * 10 < 10 ^ p then padZeros p pref n (c * 10) (q - 1) else (c, q)

/-- An integer kept between two bounds. -/
def clampInt (lo hi x : Int) : Int := max lo (min hi x)

/-- The member of an exact decimal result's cohort whose exponent is closest to the preferred one (R78). -/
def cohort (f : Fmt) (pref : Int) (c : Nat) (q : Int) : Nat × Int :=
  let want := clampInt f.qmin f.qmax pref
  if c = 0 then (0, want)
  else
    let (c, q) := stripZeros want (digitCount true c + 1) c q
    padZeros f.p want (f.p + 1) c q

/-- The greatest finite magnitude of a format. -/
def Fmt.maxFinite (f : Fmt) (neg : Bool) : FVal := .fin neg (f.radix ^ f.p - 1) f.qmax

/-- The result of an overflow (R61). -/
def overflowResult (f : Fmt) (mode : Nat) (neg : Bool) : FVal :=
  let finite := mode == 1 || (mode == 2 && neg) || (mode == 3 && !neg)
  if finite then f.maxFinite neg else .inf neg

/-- The exact result sign × (coef + fraction) × radix^q, where `sticky` says that the fraction is not zero, rounded once
to a format (R180, R182); `pref` is the preferred exponent of a decimal result. With `sticky`, the coefficient has more
digits than the precision. -/
def roundF (f : Fmt) (mode : Nat) (neg : Bool) (c : Nat) (q : Int) (sticky : Bool) (pref : Int) : FVal × Conds :=
  let b := f.radix
  if c = 0 ∧ sticky = false then (.fin neg 0 (if f.decimal then clampInt f.qmin f.qmax pref else f.qmin), {})
  else
    let len := digitCount f.decimal c
    -- the result with an exponent range without bounds decides on tininess (R182)
    let free := (len - f.p : Nat)
    let (cf, _) := dropDigits b mode neg c free sticky
    let tiny := decide (q + free + digitCount f.decimal cf < f.qmin + f.p)
    let k := (max (free : Int) (f.qmin - q)).toNat
    let (ck, lost) := dropDigits b mode neg c k sticky
    let (ck, qk) := if ck = b ^ f.p then (b ^ (f.p - 1), q + k + 1) else (ck, q + k)
    let (ck, qk) := if f.decimal && !lost then cohort f pref ck qk else (ck, qk)
    let tooBig := decide (f.qmax + f.p < qk + digitCount f.decimal ck)
    if tooBig then (overflowResult f mode neg, { overflow := true, inexact := true })
    else
      -- a decimal exponent above the greatest is folded down
      let (ck, qk) := if f.qmax < qk then (ck * b ^ (qk - f.qmax).toNat, f.qmax) else (ck, qk)
      (.fin neg ck qk, { inexact := lost, underflow := tiny && lost })

/-! ### NaN rules (R180) -/

/-- Some operand is a signalling NaN. -/
def anySignaling (l : List FVal) : Bool := l.any fun v => match v with | .nan _ s _ => s | _ => false

/-- The first NaN operand, made quiet. -/
def firstNan : List FVal → Option FVal
  | [] => none
  | .nan neg _ pl :: _ => some (.nan neg false pl)
  | _ :: r => firstNan r

/-- An operation on operands that are listed in the order of R180: a NaN operand is returned quiet, otherwise `f`. -/
def withNans (l : List FVal) (f : FVal × Conds) : FVal × Conds :=
  match firstNan l with
  | some n => (n, { invalid := anySignaling l })
  | none => f

/-- The result of an invalid operation on operands that are no NaN. -/
def invalidOp : FVal × Conds := (defaultNan, { invalid := true })

/-! ### Operations -/

/-- The signed coefficient of a finite datum at exponent `q`, which is not above its own. -/
def scaledTo (b : Nat) (neg : Bool) (c : Nat) (e q : Int) : Int := signed neg (c * b ^ (e - q).toNat)

/-- The sum of two finite data, exact before rounding. A zero sum of two data of opposite sign is −0 only when rounding
toward −∞. -/
def addFinite (f : Fmt) (mode : Nat) (n1 : Bool) (c1 : Nat) (q1 : Int) (n2 : Bool) (c2 : Nat) (q2 : Int) : FVal × Conds :=
  let q := min q1 q2
  let v := scaledTo f.radix n1 c1 q1 q + scaledTo f.radix n2 c2 q2 q
  let neg := if v = 0 then (if n1 = n2 then n1 else mode == 3) else decide (v < 0)
  roundF f mode neg v.natAbs q false q

/-- Addition (R180). -/
def addF (f : Fmt) (mode : Nat) (x y : FVal) : FVal × Conds :=
  withNans [x, y] <| match x, y with
    | .inf a, .inf b => if a = b then (.inf a, {}) else invalidOp
    | .inf a, _ => (.inf a, {})
    | _, .inf b => (.inf b, {})
    | .fin n1 c1 q1, .fin n2 c2 q2 => addFinite f mode n1 c1 q1 n2 c2 q2
    | _, _ => invalidOp

/-- The datum with its sign inverted; a NaN is unchanged. -/
def FVal.negate : FVal → FVal
  | .inf a => .inf !a
  | .fin n c q => .fin (!n) c q
  | v => v

/-- Subtraction (R180). -/
def subF (f : Fmt) (mode : Nat) (x y : FVal) : FVal × Conds := addF f mode x y.negate

/-- Multiplication (R180). -/
def mulF (f : Fmt) (mode : Nat) (x y : FVal) : FVal × Conds :=
  withNans [x, y] <| match x, y with
    | .inf a, .inf b => (.inf (a ^^ b), {})
    | .inf a, .fin n c _ => if c = 0 then invalidOp else (.inf (a ^^ n), {})
    | .fin n c _, .inf b => if c = 0 then invalidOp else (.inf (n ^^ b), {})
    | .fin n1 c1 q1, .fin n2 c2 q2 => roundF f mode (n1 ^^ n2) (c1 * c2) (q1 + q2) false (q1 + q2)
    | _, _ => invalidOp

/-- The quotient of two coefficients with more digits than the precision, its exponent and its sticky flag. -/
def quotient (f : Fmt) (c1 : Nat) (q1 : Int) (c2 : Nat) (q2 : Int) : Nat × Int × Bool :=
  let k := digitCount f.decimal c2 + f.p + 3 - digitCount f.decimal c1
  let n := c1 * f.radix ^ k
  (n / c2, q1 - q2 - k, n % c2 != 0)

/-- Division (R180). A finite datum over an infinity is a zero of the least exponent. -/
def divF (f : Fmt) (mode : Nat) (x y : FVal) : FVal × Conds :=
  withNans [x, y] <| match x, y with
    | .inf _, .inf _ => invalidOp
    | .inf a, .fin n _ _ => (.inf (a ^^ n), {})
    | .fin n _ _, .inf b => (.fin (n ^^ b) 0 f.qmin, {})
    | .fin n1 c1 q1, .fin n2 c2 q2 =>
      if c2 = 0 then
        if c1 = 0 then invalidOp else (.inf (n1 ^^ n2), { divZero := true })
      else
        let (c, q, st) := quotient f c1 q1 c2 q2
        roundF f mode (n1 ^^ n2) c q st (q1 - q2)
    | _, _ => invalidOp

/-- x × y + z rounded once (R179, R180). The sum of an exact product and an addend. -/
def fmaF (f : Fmt) (mode : Nat) (x y z : FVal) : FVal × Conds :=
  let zeroInf := match x, y with
    | .inf _, .fin _ c _ | .fin _ c _, .inf _ => c == 0
    | _, _ => false
  match firstNan [x, y, z] with
  | some n => (n, { invalid := anySignaling [x, y, z] || (zeroInf && Config.fmaZeroInfNan) })
  | none =>
    if zeroInf then invalidOp
    else match x, y, z with
      | .fin n1 c1 q1, .fin n2 c2 q2, .fin n3 c3 q3 =>
        addFinite f mode (n1 ^^ n2) (c1 * c2) (q1 + q2) n3 c3 q3
      | .fin _ _ _, .fin _ _ _, .inf c => (.inf c, {})
      | a, b, .inf c =>
        if (FVal.sign a ^^ FVal.sign b) = c then (.inf c, {}) else invalidOp
      | a, b, _ => (.inf (FVal.sign a ^^ FVal.sign b), {})
where
  /-- The sign bit of a datum. -/
  FVal.sign : FVal → Bool
    | .nan n _ _ => n
    | .inf n => n
    | .fin n _ _ => n

/-- The integer square root by its bits, from bit `n` - 1 down. -/
def isqrt (x : Nat) : Nat → Nat → Nat
  | 0, r => r
  | n + 1, r => if (r + 2 ^ n) * (r + 2 ^ n) ≤ x then isqrt x n (r + 2 ^ n) else isqrt x n r

/-- Square root (R179, R180). -/
def sqrtF (f : Fmt) (mode : Nat) (x : FVal) : FVal × Conds :=
  withNans [x] <| match x with
    | .inf false => (.inf false, {})
    | .fin neg c q =>
      let pref := q.fdiv 2
      if c = 0 then (.fin neg 0 (if f.decimal then clampInt f.qmin f.qmax pref else f.qmin), {})
      else if neg then invalidOp
      else
        let odd := q % 2 != 0
        let c := if odd then c * f.radix else c
        let q := if odd then q - 1 else q
        let k := f.p + 3
        let n := c * f.radix ^ (2 * k)
        let r := isqrt n (n.log2 / 2 + 1) 0
        roundF f mode false r (q / 2 - k) (r * r != n) pref
    | _ => invalidOp

/-- The comparison of two finite data: negative, zero or positive. -/
def compareFinite (b : Nat) (n1 : Bool) (c1 : Nat) (q1 : Int) (n2 : Bool) (c2 : Nat) (q2 : Int) : Int :=
  let q := min q1 q2
  scaledTo b n1 c1 q1 q - scaledTo b n2 c2 q2 q

/-- The relation of two data: 0 equal, 1 less, 2 greater, 3 unordered (R179). -/
def compareF (f : Fmt) (x y : FVal) : Nat :=
  match x, y with
  | .nan _ _ _, _ | _, .nan _ _ _ => 3
  | .inf a, .inf b => if a = b then 0 else if a then 1 else 2
  | .inf a, _ => if a then 1 else 2
  | _, .inf b => if b then 2 else 1
  | .fin n1 c1 q1, .fin n2 c2 q2 => ccCompare (compareFinite f.radix n1 c1 q1 n2 c2 q2) 0

/-- A finite datum rounded to an integer: the magnitude, and whether anything was lost. -/
def integral (b mode : Nat) (neg : Bool) (c : Nat) (q : Int) : Nat × Bool :=
  if 0 ≤ q then (c * b ^ q.toNat, false) else dropDigits b mode neg c (-q).toNat false

/-- Rounding to an integral value in the same format (R179); inexact is signalled when the value changes. -/
def rintF (f : Fmt) (mode : Nat) (x : FVal) : FVal × Conds :=
  withNans [x] <| match x with
    | .fin neg c q =>
      if 0 ≤ q then (.fin neg c q, {})
      else
        let (m, lost) := integral f.radix mode neg c q
        ((roundF f mode neg m 0 false 0).1, { inexact := lost })
    | v => (v, {})

/-- Conversion to a 64-bit integer (R181). -/
def toInteger (f : Fmt) (mode : Nat) (unsigned : Bool) (x : FVal) : Word × Conds :=
  let high : Word := if unsigned then BitVec.ofNat 64 (2 ^ 64 - 1) else BitVec.ofNat 64 (2 ^ 63 - 1)
  let low : Word := if unsigned then 0 else BitVec.ofNat 64 (2 ^ 63)
  match x with
  | .nan _ _ _ => (low, { invalid := true })
  | .inf neg => (if neg then low else high, { invalid := true })
  | .fin neg c q =>
    let (m, lost) := integral f.radix mode neg c q
    let v := signed neg m
    let (lo, hi) : Int × Int := if unsigned then (0, 2 ^ 64) else (-2 ^ 63, 2 ^ 63)
    if v < lo then (low, { invalid := true })
    else if hi ≤ v then (high, { invalid := true })
    else (BitVec.ofInt 64 v, { inexact := lost })

/-- Conversion of an integer (R179): the preferred exponent is 0. -/
def fromInteger (f : Fmt) (mode : Nat) (v : Int) : FVal × Conds := roundF f mode (decide (v < 0)) v.natAbs 0 false 0

/-- Conversion of a finite datum between formats (R180): exact before it rounds in the destination. -/
def convertFinite (src dst : Fmt) (mode : Nat) (neg : Bool) (c : Nat) (q : Int) : FVal × Conds :=
  if src.decimal = dst.decimal then roundF dst mode neg c q false q
  else if src.decimal then
    if 0 ≤ q then roundF dst mode neg (c * 10 ^ q.toNat) 0 false 0
    else
      let (n, e, st) := quotient dst c 0 (10 ^ (-q).toNat) 0
      roundF dst mode neg n e st 0
  else if 0 ≤ q then roundF dst mode neg (c * 2 ^ q.toNat) 0 false 0
  else roundF dst mode neg (c * 5 ^ (-q).toNat) q false 0

/-- FCVT (R179, R180): a NaN converted to another format becomes the default quiet NaN. -/
def convertF (src dst : Nat) (mode : Nat) (x : FVal) : FVal × Conds :=
  match x with
  | .nan neg s pl => (if src = dst then .nan neg false pl else defaultNan, { invalid := s })
  | .inf neg => (.inf neg, {})
  | .fin neg c q => convertFinite (fmtOf src) (fmtOf dst) mode neg c q

/-- FQUANT (R179, R180): the first operand at the exponent of the second. -/
def quantizeF (f : Fmt) (mode : Nat) (x y : FVal) : FVal × Conds :=
  withNans [x, y] <| match x, y with
    | .inf a, .inf _ => (.inf a, {})
    | .fin neg c q, .fin _ _ e =>
      let (m, lost) := if e ≤ q then
          (if c = 0 then (0, false)
           else if (f.p : Int) < (q - e) + digitCount true c then (10 ^ f.p, false) else (c * 10 ^ (q - e).toNat, false))
        else dropDigits 10 mode neg c (e - q).toNat false
      if 10 ^ f.p ≤ m then invalidOp else (.fin neg m e, { inexact := lost })
    | _, _ => invalidOp

end Sys2Proof.Machine
end

