-- ==== Sys2Proof/Machine/Float.lean ====
section
/-! DEFINITION. The floating-point instructions (R179 to R184), and moves and conversions between F, G and D registers
and memory (R185, R186). -/

namespace Sys2Proof.Machine

/-! ### Conditions, rounding modes and traps (R61, R183) -/

/-- The rounding mode of a format: BRM for binary, DRM for decimal (R61, R180). -/
def fpMode (fpc : BitVec 32) (code : Nat) : Nat :=
  if code < 2 then (field fpc 16 3).toNat else (field fpc 20 3).toNat

/-- The rounding mode of a format in the context. -/
def modeOf (c : Cx) (code : Nat) : M Nat := return fpMode (← getBank c).fpc code

/-- The code of the enabled condition with the highest priority (R183). -/
def firstEnabled (conds enables : Nat) : Option Nat :=
  ((List.range 5).find? fun i => conds / 2 ^ i % 2 == 1 && enables / 2 ^ i % 2 == 1).map (· + 1)

/-- The conditions that an operation in format `code` signals: they set FLAGS, or, when one of them is enabled, raise the
floating-point exception before anything is written (R183). -/
def signal (c : Cx) (code : Nat) (k : Conds) : M Unit := do
  let fpc := (← getBank c).fpc
  match firstEnabled k.bits (field fpc 8 5).toNat with
  | some n =>
    let fxc := 16 * code + n
    modBank c fun b => { b with fpc := setField b.fpc 24 8 fxc }
    throw (.exc 0x34 fxc 0)
  | none => modBank c fun b => { b with fpc := b.fpc ||| BitVec.ofNat 32 k.bits }

/-- F(r) in a format. -/
def getFV (c : Cx) (code : Nat) (r : BitVec 4) : M FVal := return decodeF code ((← getF c r).toNat % 2 ^ (8 * fmtBytes code))

/-- A result goes to F(r) once its conditions have been signalled. -/
def putF (c : Cx) (code : Nat) (r : BitVec 4) (v : FVal × Conds) : M Unit := do
  signal c code v.2
  setF c r (encodeF code v.1)

/-! ### Counts (R184) -/

/-- The row of R184 for a format code. -/
def fpRow (a b d e : Nat) (code : Nat) : Nat :=
  match code with | 0 => a | 1 => b | 2 => d | _ => e

/-- The documented count of FADD to FMA, 0 to 4 (R184). -/
def arithCount (op code : Nat) : Nat :=
  match op with
  | 0 | 1 => fpRow 3 3 5 7 code
  | 2 => fpRow 4 5 9 16 code
  | 3 => fpRow 12 20 36 64 code
  | _ => fpRow 5 6 12 20 code

/-! ### FADD to FMA (R179) -/

/-- Operation `op` on its sources. -/
def arith (op : Nat) (f : Fmt) (mode : Nat) (x y z : FVal) : FVal × Conds :=
  match op with
  | 0 => addF f mode x y
  | 1 => subF f mode x y
  | 2 => mulF f mode x y
  | 3 => divF f mode x y
  | _ => fmaF f mode x y z

/-- The register form of an operation of three registers. -/
def arithReg (op : Nat) (x : FmtXA) : Macro where
  count := fun _ _ => arithCount op x.mod.toNat
  body := fun c => do
    lengthIn x.len [.l6]
    zeroField x.mod2
    let k := x.mod.toNat
    putF c k x.ra (arith op (fmtOf k) (← modeOf c k) (← getFV c k x.rb) (← getFV c k x.rc) (← getFV c k x.ra))
    return .seq

/-- The result of a memory form (R179, R180): where NaNs meet, the memory operand's comes before that of F(RA). -/
def arithMemory (op : Nat) (f : Fmt) (mode : Nat) (a m : FVal) : FVal × Conds :=
  let r := arith op f mode a m a
  match firstNan [m, a] with
  | some n => (n, r.2)
  | none => r

/-- The operation of a memory form, its second source given as bytes (R179). -/
def arithFinish (c : Cx) (op : Nat) (ra : BitVec 4) (k : Nat) (l : List Byte) : M Unit := do
  let a ← getFV c k ra
  putF c k ra (arithMemory op (fmtOf k) (← modeOf c k) a (decodeF k (leNat l)))

/-- The memory form of an operation. -/
def arithMem (op : Nat) (x : FmtXB) : Macro where
  count := fun _ _ => arithCount op x.mod.toNat + 2
  body := fun c => do
    lengthIn x.len [.l8, .l12]
    zeroField x.mod2
    let k := x.mod.toNat
    match ← load c (x.ea (← getBank c)) (fmtBytes k) (.aligned (fmtBytes k)) (.fop op x.ra k) with
    | none => return .waits
    | some l =>
      arithFinish c op x.ra k l
      return .seq

/-- Either form of operation `op`. -/
def arithNext (op : Nat) (e : Eng) (x : FmtX) (s : State) : Host.Outcome State Fault Refusal :=
  match x with
  | .reg x => macroNext e x.pred x.len (arithReg op x) s
  | .mem x => macroNext e x.pred x.len (arithMem op x) s

/-- FADD (R179). -/
def execFadd (e : Eng) (x : FmtX) (s : State) : Host.Outcome State Fault Refusal := arithNext 0 e x s

/-- FSUB (R179). -/
def execFsub (e : Eng) (x : FmtX) (s : State) : Host.Outcome State Fault Refusal := arithNext 1 e x s

/-- FMUL (R179). -/
def execFmul (e : Eng) (x : FmtX) (s : State) : Host.Outcome State Fault Refusal := arithNext 2 e x s

/-- FDIV (R179). -/
def execFdiv (e : Eng) (x : FmtX) (s : State) : Host.Outcome State Fault Refusal := arithNext 3 e x s

/-- FMA (R179). -/
def execFma (e : Eng) (x : FmtX) (s : State) : Host.Outcome State Fault Refusal := arithNext 4 e x s

/-! ### One-source operations, comparisons and conversions (R179 to R181) -/

/-- FSQRT (R179). -/
def execFsqrt (e : Eng) (x : FmtXA) (s : State) : Host.Outcome State Fault Refusal :=
  macroNext e x.pred x.len
    { count := fun _ _ => fpRow 14 24 40 72 x.mod.toNat
      body := fun c => do
        lengthIn x.len [.l4]
        let k := x.mod.toNat
        putF c k x.ra (sqrtF (fmtOf k) (← modeOf c k) (← getFV c k x.rb))
        return .seq } s

/-- FCMP (R179, R180). -/
def execFcmp (e : Eng) (x : FmtXA) (s : State) : Host.Outcome State Fault Refusal :=
  macroNext e x.pred x.len
    { count := fun _ _ => fpRow 2 2 3 4 x.mod.toNat
      body := fun c => do
        lengthIn x.len [.l4]
        let k := x.mod.toNat
        let (a, b) := (← getFV c k x.ra, ← getFV c k x.rb)
        signal c k { invalid := anySignaling [a, b] }
        setCC c (compareF (fmtOf k) a b)
        return .seq } s

/-- The relation of FCMPP on a comparison's outcome; the codes above 3 name none (R179). -/
def fpRelation (code cmp : Nat) : Option Bool :=
  match code with
  | 0 => some (cmp == 0)
  | 1 => some (cmp == 1)
  | 2 => some (cmp == 0 || cmp == 1)
  | 3 => some (cmp == 3)
  | _ => none

/-- FCMPP (R179, R180): the less relations signal invalid for any NaN. -/
def execFcmpp (e : Eng) (x : FmtXA) (s : State) : Host.Outcome State Fault Refusal :=
  macroNext e x.pred x.len
    { count := fun _ _ => fpRow 2 2 3 4 x.mod.toNat
      body := fun c => do
        lengthIn x.len [.l6]
        zeroField (field x.mod2 4 8)
        lowReg x.ra
        let k := x.mod.toNat
        let code := (field x.mod2 0 3).toNat
        let (a, b) := (← getFV c k x.rb, ← getFV c k x.rc)
        let cmp := compareF (fmtOf k) a b
        match fpRelation code cmp with
        | none => specification
        | some v =>
          signal c k { invalid := anySignaling [a, b] || (cmp == 3 && (code == 1 || code == 2)) }
          modBank c fun b => b.setPred x.ra.toNat (v ^^ bit x.mod2 3)
          return .seq } s

/-- The count of FCVT (R184): that of the wider format, or 24 between radixes. -/
def fcvtCount (dst src : Nat) : Nat :=
  if decide (dst < 2) != decide (src < 2) then 24 else fpRow 3 3 4 5 (max dst src)

/-- FCVT (R179, R180). -/
def execFcvt (e : Eng) (x : FmtXA) (s : State) : Host.Outcome State Fault Refusal :=
  macroNext e x.pred x.len
    { count := fun _ _ => fcvtCount x.mod.toNat (field x.mod2 0 2).toNat
      body := fun c => do
        lengthIn x.len [.l6]
        zeroField x.rc
        zeroField (field x.mod2 2 10)
        let (dst, src) := (x.mod.toNat, (field x.mod2 0 2).toNat)
        putF c dst x.ra (convertF src dst (← modeOf c dst) (← getFV c src x.rb))
        return .seq } s

/-- FRND (R179). -/
def execFrnd (e : Eng) (x : FmtXA) (s : State) : Host.Outcome State Fault Refusal :=
  macroNext e x.pred x.len
    { count := fun _ _ => fpRow 3 3 4 5 x.mod.toNat
      body := fun c => do
        lengthIn x.len [.l4]
        let k := x.mod.toNat
        putF c k x.ra (rintF (fmtOf k) (← modeOf c k) (← getFV c k x.rb))
        return .seq } s

/-- The fields of FTOG and GTOF: 6 bytes, RC zero, MOD2[11:1] zero. -/
def integerFields (x : FmtXA) : M Unit := do
  lengthIn x.len [.l6]
  zeroField x.rc
  zeroField (field x.mod2 1 11)

/-- FTOG (R179, R181). -/
def execFtog (e : Eng) (x : FmtXA) (s : State) : Host.Outcome State Fault Refusal :=
  macroNext e x.pred x.len
    { count := fun _ _ => fpRow 4 4 8 10 x.mod.toNat
      body := fun c => do
        integerFields x
        let k := x.mod.toNat
        let (v, conds) := toInteger (fmtOf k) (← modeOf c k) (bit x.mod2 0) (← getFV c k x.rb)
        signal c k conds
        setG c x.ra v
        return .seq } s

/-- GTOF (R179). -/
def execGtof (e : Eng) (x : FmtXA) (s : State) : Host.Outcome State Fault Refusal :=
  macroNext e x.pred x.len
    { count := fun _ _ => fpRow 4 4 8 10 x.mod.toNat
      body := fun c => do
        integerFields x
        let k := x.mod.toNat
        let g ← getG c x.rb
        putF c k x.ra (fromInteger (fmtOf k) (← modeOf c k) (if bit x.mod2 0 then (g.toNat : Int) else g.toInt))
        return .seq } s

/-- FQUANT, for decimal formats only (R179). -/
def execFquant (e : Eng) (x : FmtXA) (s : State) : Host.Outcome State Fault Refusal :=
  macroNext e x.pred x.len
    { count := fun _ _ => fpRow 5 5 5 7 x.mod.toNat
      body := fun c => do
        lengthIn x.len [.l6]
        zeroField x.mod2
        let k := x.mod.toNat
        require (decide (2 ≤ k))
        putF c k x.ra (quantizeF (fmtOf k) (← modeOf c k) (← getFV c k x.rb) (← getFV c k x.rc))
        return .seq } s

/-! ### Moves and conversions (R185, R186) -/

/-- The fields and the size of FLD and FST: 4, 8 or 16 bytes (R185). -/
def fSize (x : FmtB) : M Nat := do
  lengthIn x.len [.l6, .l8, .l12]
  require (x.sizeOnly && x.sizeCode != 3)
  return 4 * 2 ^ x.sizeCode

/-- FLD (R185). -/
def execFld (e : Eng) (x : FmtB) (s : State) : Host.Outcome State Fault Refusal :=
  macroNext e x.pred x.len
    { count := fun _ _ => 2
      body := fun c => do
        let n ← fSize x
        match ← load c (x.ea (← getBank c)) n (.aligned n) (.f x.ra n) with
        | none => return .waits
        | some l =>
          setF c x.ra (BitVec.ofNat 128 (leNat l))
          return .seq } s

/-- FST (R185). -/
def execFst (e : Eng) (x : FmtB) (s : State) : Host.Outcome State Fault Refusal :=
  macroNext e x.pred x.len
    { count := fun _ _ => 2
      body := fun c => do
        let n ← fSize x
        store c (x.ea (← getBank c)) (natLE n (← getF c x.ra).toNat) (.aligned n)
        return .seq } s

/-- The fields of FMVG and GMVF: 4 bytes, RC zero, MOD[5:1] zero. -/
def halfFields (x : FmtA) : M Unit := do
  lengthIn x.len [.l4]
  zeroField x.rc
  zeroField (field x.mod 1 5)

/-- FMVG (R185). -/
def execFmvg (e : Eng) (x : FmtA) (s : State) : Host.Outcome State Fault Refusal :=
  macroNext e x.pred x.len
    { count := fun _ _ => 1
      body := fun c => do
        halfFields x
        setG c x.ra (field (← getF c x.rb) (if bit x.mod 0 then 64 else 0) 64)
        return .seq } s

/-- GMVF (R185): the other half is unchanged. -/
def execGmvf (e : Eng) (x : FmtA) (s : State) : Host.Outcome State Fault Refusal :=
  macroNext e x.pred x.len
    { count := fun _ _ => 1
      body := fun c => do
        halfFields x
        let g ← getG c x.rb
        setF c x.ra (setField (← getF c x.ra) (if bit x.mod 0 then 64 else 0) 64 g.toNat)
        return .seq } s

/-- DTF (R185, R186). -/
def execDtf (e : Eng) (x : FmtA) (s : State) : Host.Outcome State Fault Refusal :=
  macroNext e x.pred x.len
    { count := fun _ _ => 16
      body := fun c => do
        lengthIn x.len [.l4]
        lowReg x.rb
        zeroField x.mod
        let v ← sourceD c 1 x.rb
        let q := (field (← getG c x.rc) 0 16).toInt
        putF c 3 x.ra (roundF (fmtOf 3) (← modeOf c 3) (decide (v < 0)) v.natAbs q false q)
        return .seq } s

/-- FTD (R185, R186). -/
def execFtd (e : Eng) (x : FmtA) (s : State) : Host.Outcome State Fault Refusal :=
  macroNext e x.pred x.len
    { count := fun _ _ => 12
      body := fun c => do
        lengthIn x.len [.l4]
        lowReg x.rb
        zeroField x.mod
        match ← getFV c 3 x.ra with
        | .fin neg coef q =>
          setD c x.rb (BitVec.ofNat 256 ((if neg then 0xD else 0xC) + 16 * bcd 63 coef))
          setG c x.rc (BitVec.ofInt 64 q)
        | _ =>
          signal c 3 { invalid := true }
          setD c x.rb 0xC
          setG c x.rc (BitVec.ofNat 64 (2 ^ 63))
        return .seq } s

end Sys2Proof.Machine
end

