-- ==== Sys2Proof/Machine/Units.lean ====
section
/-! DEFINITION. The units of the micro level (R307, R308): the result, the second result, the condition bits and the
latency of every operation open to a customer routine, as functions of the unit's ports. -/

namespace Sys2Proof.Machine

/-- What an operation leaves in its unit: .Y, .Y2, the conditions +0x04 to +0x07 as bits 0 to 3, and its latency. -/
structure UnitOut where
  y : BitVec 256
  y2 : BitVec 256
  cond : BitVec 4
  latency : Nat
deriving DecidableEq, Repr

/-- Four condition bits. -/
def conds (a b c d : Bool) : BitVec 4 := BitVec.ofNat 4 (b2n a + 2 * b2n b + 4 * b2n c + 8 * b2n d)

/-- A word as a port value. -/
def wide (v : Word) : BitVec 256 := v.setWidth 256

/-- The low 64 bits of a port value. -/
def low64 (v : BitVec 256) : Word := field v 0 64

/-- A bit of the open conditions of an operation. -/
def openBit (free : Nat → BitVec 256) (i : Nat) : Bool := bit (free 2) i

/-- The minimum or maximum of two words by an order. -/
def pickWord (first : Bool) (a t : Word) : Word := if first then a else t

/-- ALU operation `k` (R307). -/
def unitAlu (k : Nat) (a t : Word) (free : Nat → BitVec 256) : UnitOut :=
  let y : Word := match k with
    | 0 => a + t
    | 1 => a - t
    | 2 => a &&& t
    | 3 => a ||| t
    | 4 => a ^^^ t
    | 5 => a &&& ~~~t
    | 6 => pickWord (decide (a.toNat ≤ t.toNat)) a t
    | 7 => pickWord (decide (t.toNat ≤ a.toNat)) a t
    | 8 => pickWord (decide (a.toInt ≤ t.toInt)) a t
    | 9 => pickWord (decide (t.toInt ≤ a.toInt)) a t
    | _ => t
  let carry := match k with
    | 0 => decide (2 ^ 64 ≤ a.toNat + t.toNat)
    | 1 => decide (a.toNat < t.toNat)
    | _ => openBit free 3
  { y := wide y, y2 := free 1, cond := conds (y == 0) (y != 0) (bit y 63) carry, latency := 1 }

/-- SHF operation `k` (R307). -/
def shfOp (k : Nat) (a t : Word) (free : Nat → BitVec 256) : UnitOut :=
  let n := (field t 0 6).toNat
  let y : Word := match k with
    | 0 => a <<< n
    | 1 => a >>> n
    | 2 => a.sshiftRight n
    | _ => a.rotateLeft n
  { y := wide y, y2 := free 1, cond := conds (y == 0) (y != 0) (bit y 63) (openBit free 3), latency := 1 }

/-- A DEC result with no value: only what the operation states is fixed. -/
def decInvalid (kind position operand : Nat) (latency : Nat) (free : Nat → BitVec 256) : UnitOut :=
  { y := free 0, y2 := BitVec.ofNat 256 (dataDetail kind operand position),
    cond := conds (openBit free 0) (openBit free 1) (openBit free 2) true, latency := latency }

/-- A DEC result: an exact value under limit `n` and bit U, truncated with V (R108, R308). -/
def decResult (r : Int) (n : Nat) (u : Bool) (latency : Nat) (free : Nat → BitVec 256) : UnitOut :=
  match finish false r n u with
  | .ok f =>
    { y := BitVec.ofNat 256 (f.image 63), y2 := free 1,
      cond := conds (f.mag == 0) (f.sign == 0xD) (f.cc == 3) false, latency := latency }
  | .error _ => { y := free 0, y2 := free 1, cond := 0, latency := latency }

/-- A DEC operation whose operand values the spec gives no result for. -/
def decOpen (free : Nat → BitVec 256) : UnitOut :=
  { y := free 0, y2 := free 1, cond := field (free 2) 0 4, latency := 1 }

/-- DEC operation `k` on .A, .T and the mode .M (R307, R308). One-source operations take .A. Under U the binary numbers of
TOBIN and FROMBIN are unsigned (R131, R132). -/
def decOp (k : Nat) (a t : BitVec 256) (m : BitVec 16) (free : Nat → BitVec 256) : UnitOut :=
  let mode := (field m 0 3).toNat
  let u := bit m 3
  let n := let l := (field m 4 6).toNat; if l = 0 then 63 else l
  let va := checkPacked 63 a.toNat
  let two (f : Int → Int → UnitOut) : UnitOut :=
    match va, checkPacked 63 t.toNat with
    | .error (kind, p), _ => decInvalid kind p 1 1 free
    | _, .error (kind, p) => decInvalid kind p 2 1 free
    | .ok x, .ok y => f x y
  let one (latency : Nat) (f : Int → UnitOut) : UnitOut :=
    match va with
    | .error (kind, p) => decInvalid kind p 1 latency free
    | .ok x => f x
  match k with
  | 0 => two fun x y => decResult (x + y) n u 1 free
  | 1 => two fun x y => decResult (x - y) n u 1 free
  | 2 => two fun x y =>
    { y := free 0, y2 := free 1, cond := conds (x == y) (decide (x < y)) false false, latency := 1 }
  | 3 =>
    let c := (field t 0 8).toInt
    if c < -63 ∨ 63 < c ∨ mode = 7 then decOpen free
    else one 1 fun x => decResult (if 0 ≤ c then x * 10 ^ c.toNat else roundKept x (-c).toNat mode) n u 1 free
  | 4 =>
    let p := (field t 0 8).toNat
    if 63 < p ∨ mode = 7 then decOpen free
    else one 1 fun x => decResult (roundKept x p mode * 10 ^ p) n u 1 free
  | 5 => one 1 fun x => decResult x n u 1 free
  | 6 =>
    match va with
    | .error (kind, p) => decInvalid kind p 1 1 free
    | .ok _ =>
      { y := free 0, y2 := free 1, cond := conds (openBit free 0) (openBit free 1) (openBit free 2) false, latency := 1 }
  | 7 => one 14 fun x =>
    let fits := if u then decide (0 ≤ x) && decide (x < 2 ^ 64) else decide (-2 ^ 63 ≤ x) && decide (x < 2 ^ 63)
    { y := wide (BitVec.ofInt 64 x), y2 := free 1, cond := conds (x == 0) (decide (x < 0)) (!fits) false, latency := 14 }
  | _ => decResult (if u then ((low64 a).toNat : Int) else (low64 a).toInt) n u 18 free

/-- DMUL: the product as a decimal pair (R51, R307). -/
def dmulOp (a t : BitVec 256) (free : Nat → BitVec 256) : UnitOut :=
  match checkPacked 63 a.toNat, checkPacked 63 t.toNat with
  | .ok x, .ok y =>
    let r := x * y
    let m := r.natAbs
    let sign := resultSign (decide (r < 0)) false
    { y := BitVec.ofNat 256 (sign + 16 * bcd 63 m), y2 := BitVec.ofNat 256 (sign + 16 * bcd 63 (m / 10 ^ 63)),
      cond := conds (r == 0) (decide (r < 0)) (openBit free 2) false, latency := 30 }
  | _, _ =>
    { y := free 0, y2 := free 1, cond := conds (openBit free 0) (openBit free 1) (openBit free 2) true, latency := 30 }

/-- DDIV: the pair .D:.A divided by .T as DDV (R122, R307). -/
def ddivOp (d a t : BitVec 256) (free : Nat → BitVec 256) : UnitOut :=
  match checkPair d.toNat a.toNat, checkPacked 63 t.toNat with
  | .ok x, .ok y =>
    if y = 0 then
      { y := free 0, y2 := free 1, cond := conds (openBit free 0) (openBit free 1) (openBit free 2) true,
        latency := 134 }
    else
      let q := decResult (x.tdiv y) 63 false 134 free
      let m := x.tmod y
      let r : Finished := { mag := m.natAbs, sign := resultSign (decide (m < 0)) false, cc := 0 }
      { q with y2 := BitVec.ofNat 256 (r.image 63) }
  | _, _ =>
    { y := free 0, y2 := free 1, cond := conds (openBit free 0) (openBit free 1) (openBit free 2) true, latency := 134 }

/-- The R184 count of the operation of XOP `k` in a format, less 1. -/
def fpLatency (k f : Nat) : Nat :=
  (match k with
  | 5 => fpRow 14 24 40 72 f
  | 6 => fpRow 2 2 3 4 f
  | 8 => fpRow 3 3 4 5 f
  | 9 => fpRow 3 3 4 5 f
  | 10 | 11 => fpRow 4 4 8 10 f
  | 12 => fpRow 5 5 5 7 f
  | _ => arithCount k f) - 1

/-- BFP or DFP operation `k` (R307, R308): the operation of XOP `k` on .A, .T and .D under the rounding mode of `fpc`.
FTOG and GTOF are signed. A format of the other radix, FCVT, whose source format no port names, and a binary FQUANT
leave everything open. -/
def fpOp (decimal : Bool) (k : Nat) (m : BitVec 16) (a t d : BitVec 256) (fpc : BitVec 32) (free : Nat → BitVec 256) :
    UnitOut :=
  let f := (field m 0 2).toNat
  let mode := fpMode fpc f
  let val (x : BitVec 256) : FVal := decodeF f (x.toNat % 2 ^ (8 * fmtBytes f))
  let out (y : BitVec 256) (c : Conds) : UnitOut :=
    { y := y, y2 := BitVec.ofNat 256 c.bits, cond := field (free 2) 0 4, latency := fpLatency k f }
  let put (r : FVal × Conds) : UnitOut := out ((encodeF f r.1).setWidth 256) r.2
  if (decimal != decide (2 ≤ f)) || k == 8 || (k == 12 && !decimal) then
    { y := free 0, y2 := free 1, cond := field (free 2) 0 4, latency := fpLatency k f }
  else match k with
    | 5 => put (sqrtF (fmtOf f) mode (val a))
    | 6 =>
      let c := compareF (fmtOf f) (val a) (val t)
      { out (free 0) { invalid := anySignaling [val a, val t] } with
        cond := conds (c == 0) (c == 1) (c == 2) (c == 3) }
    | 9 => put (rintF (fmtOf f) mode (val a))
    | 10 =>
      let (v, c) := toInteger (fmtOf f) mode false (val a)
      out (wide v) c
    | 11 => put (fromInteger (fmtOf f) mode (low64 a).toInt)
    | 12 => put (quantizeF (fmtOf f) mode (val a) (val t))
    | _ => put (arith k (fmtOf f) mode (val a) (val t) (val d))

/-- CRC operation `k` (R172, R307): 0 CRC-32C, 1 CRC-32. -/
def crcUnit (k : Nat) (m : BitVec 16) (a t : BitVec 256) (free : Nat → BitVec 256) : UnitOut :=
  let bytes := natLE (2 ^ (field m 0 2).toNat) (low64 t).toNat
  let v := bytes.foldl (crcByte (crcPoly (k == 1))) (field a 0 32)
  { y := v.setWidth 256, y2 := free 1, cond := conds (v == 0) (v != 0) (openBit free 2) (openBit free 3), latency := 1 }

/-- Operation `k` of unit `u` on its ports and the second operand `t`: none for LSU, EVT and units that a customer routine
cannot reach. -/
def unitOp (u k : Nat) (p : UnitPorts) (t : BitVec 256) (fpc : BitVec 32) (now : Word) (free : Nat → BitVec 256) :
    Option UnitOut :=
  match u with
  | 0 => some (unitAlu k (low64 p.a) (low64 t) free)
  | 1 => some (shfOp k (low64 p.a) (low64 t) free)
  | 2 => some (decOp k p.a t p.m free)
  | 3 => some (dmulOp p.a t free)
  | 4 => some (ddivOp p.d p.a t free)
  | 8 => some (fpOp false k p.m p.a t p.d fpc free)
  | 9 => some (fpOp true k p.m p.a t p.d fpc free)
  | 12 => some (crcUnit k p.m p.a t free)
  | 13 => some { y := wide now, y2 := free 1, cond := field (free 2) 0 4, latency := 1 }
  | _ => none

end Sys2Proof.Machine
end

