-- ==== Sys2Proof/Machine/Micro.lean ====
section
/-! DEFINITION. The micro level (11): MCALL, micro-words and their moves, loops, commit points and resume (R294 to
R335). -/

namespace Sys2Proof.Machine

/-! ### Words (R299, R301, R302) -/

/-- A move slot (R302). -/
structure Move where
  guard : Fin 16
  imm : Bool
  src : BitVec 15
  dst : Nat
deriving DecidableEq, Repr

/-- Move slot `i` of a nano-word (R301). -/
def moveOf (nano : BitVec 256) (i : Nat) : Move :=
  let m : BitVec 36 := field nano (36 * i) 36
  { guard := (field m 32 4).toFin, imm := bit m 31, src := field m 16 15, dst := (field m 0 15).toNat }

/-- The unit and the offset of a unit port (R305, R306). -/
def unitPort (p : Nat) : Option (Nat × Nat) :=
  if 0x200 ≤ p ∧ p < 0x600 then some ((p - 0x200) / 0x40, p % 0x40) else none

/-- A unit that nothing has used since its ports were cleared. -/
def UnitPorts.zero : UnitPorts := { a := 0, d := 0, m := 0, y := 0, y2 := 0, cond := 0, ready := 0 }

/-- Unit `u` of a routine. -/
def MicroRun.unit (r : MicroRun) (u : Nat) : UnitPorts := tget UnitPorts.zero r.units u

/-- The routine with unit `u` changed. -/
def MicroRun.modUnit (r : MicroRun) (u : Nat) (f : UnitPorts → UnitPorts) : MicroRun :=
  { r with units := tput r.units u (f (r.unit u)) }

/-- Micro flag `f`: flag 0 reads 1. -/
def MicroRun.flag (r : MicroRun) (f : Fin 16) : Bool := f == 0 || bit r.mf f.val

/-- The register that a G port names: 0x0100 + i, or GRA, GRB, GRC, GRC1. -/
def gPort (x : FmtA) (p : Nat) : Option (BitVec 4) :=
  if 0x100 ≤ p ∧ p < 0x110 then some (BitVec.ofNat 4 p)
  else match p with
    | 0x180 => some x.ra | 0x181 => some x.rb | 0x182 => some x.rc | 0x183 => some (x.rc + 1) | _ => none

/-- The register that a D port names: 0x0110 + i, or DRA, DRB, DRC. -/
def dPort (x : FmtA) (p : Nat) : Option (BitVec 4) :=
  if 0x110 ≤ p ∧ p < 0x118 then some (BitVec.ofNat 4 (p - 0x110))
  else match p with | 0x184 => some x.ra | 0x185 => some x.rb | 0x186 => some x.rc | _ => none

/-- The port names a D register above 7 (R305). -/
def badPort (x : FmtA) (p : Nat) : Bool := match dPort x p with | some r => decide (7 < r.toNat) | none => false

/-- Loop register set `n`. -/
def MicroRun.loop (r : MicroRun) (n : Nat) : LoopReg := r.loops[(Fin.ofNat 3 n).val]

/-- A bit as a port value. -/
def bitPort (b : Bool) : BitVec 256 := if b then 1 else 0

/-- What a source port reads (R305, R306). Register ports read the pending value (R321). -/
def MicroRun.read (r : MicroRun) (t : Vector Word 32) (b : Bank) (p : Nat) : BitVec 256 :=
  match gPort r.x p, dPort r.x p, unitPort p with
  | some g, _, _ => wide r.shadow.g[ix g]
  | _, some d, _ => r.shadow.d[ix8 d]
  | _, _, some (u, o) =>
    let x := r.unit u
    if o = 0 ∨ o = 3 then x.a
    else if o = 1 then x.y
    else if o = 2 then x.y2
    else if 4 ≤ o ∧ o < 8 then bitPort (bit x.cond (o - 4))
    else if o = 8 then x.m.setWidth 256
    else if o = 9 then x.d
    else 0
  | none, none, none =>
    if 0x20 ≤ p ∧ p < 0x40 then wide t[(Fin.ofNat 32 (p - 0x20)).val]
    else if 0x120 ≤ p ∧ p < 0x130 then (r.shadow.f[(Fin.ofNat 16 (p - 0x120)).val]).setWidth 256
    else if 0x130 ≤ p ∧ p < 0x138 then bitPort (r.shadow.pred (p - 0x130))
    else if 0x1C0 ≤ p ∧ p < 0x1D0 then bitPort (r.flag (Fin.ofNat 16 (p - 0x1C0)))
    else if 0x1D0 ≤ p ∧ p < 0x1D3 then (r.loop (p - 0x1D0)).start.setWidth 256
    else if 0x1D3 ≤ p ∧ p < 0x1D6 then (r.loop (p - 0x1D3)).stop.setWidth 256
    else if 0x1D6 ≤ p ∧ p < 0x1D9 then (r.loop (p - 0x1D6)).count.setWidth 256
    else match p with
      | 0x138 => r.shadow.cc.setWidth 256
      | 0x139 => r.shadow.fpc.setWidth 256
      | 0x13A => b.krr.setWidth 256
      | 0x13B => (field b.psw 0 64).setWidth 256
      | 0x13C => (field b.psw 64 64).setWidth 256
      | 0x13D => r.rsm.setWidth 256
      | 0x190 => r.x.ra.setWidth 256
      | 0x191 => r.x.rb.setWidth 256
      | 0x192 => r.x.rc.setWidth 256
      | 0x193 => r.x.mod.setWidth 256
      | 0x194 => r.x.imm.setWidth 256
      | 0x1D9 => r.mbk.setWidth 256
      | 0x1E0 => r.mode.setWidth 256
      | 0x1E1 => r.bank.setWidth 256
      | _ => 0

/-- A destination written at the end of a word: registers, flags, loop counts, MBK, RSM (R303 step 5); the T registers
beside them. -/
def writePort (st : MicroRun × Vector Word 32) (w : Nat × BitVec 256) : MicroRun × Vector Word 32 :=
  let (r, t) := st
  let (p, v) := w
  let shadow (f : Bank → Bank) : MicroRun × Vector Word 32 := ({ r with shadow := f r.shadow }, t)
  match gPort r.x p, dPort r.x p with
  | some g, _ => shadow fun b => { b with g := b.g.set (ix g).val (low64 v) }
  | _, some d => shadow fun b => { b with d := b.d.set (ix8 d).val v }
  | none, none =>
    if 0x20 ≤ p ∧ p < 0x40 then (r, t.set (Fin.ofNat 32 (p - 0x20)).val (low64 v))
    else if 0x120 ≤ p ∧ p < 0x130 then
      shadow fun b => { b with f := b.f.set (Fin.ofNat 16 (p - 0x120)).val (field v 0 128) }
    else if 0x130 ≤ p ∧ p < 0x138 then shadow fun b => b.setPred (p - 0x130) (bit v 0)
    else if 0x1C1 ≤ p ∧ p < 0x1D0 then ({ r with mf := setField r.mf (p - 0x1C0) 1 (b2n (bit v 0)) }, t)
    else if 0x1D6 ≤ p ∧ p < 0x1D9 then
      let n := (Fin.ofNat 3 (p - 0x1D6)).val
      ({ r with loops := r.loops.set n { r.loop n with count := field v 0 16 } (Fin.ofNat 3 (p - 0x1D6)).isLt }, t)
    else match p with
      | 0x138 => shadow fun b => { b with cc := field v 0 2 }
      | 0x139 => shadow fun b => { b with fpc := field v 0 32 }
      | 0x13D => ({ r with rsm := field v 0 7 }, t)
      | 0x1D9 => ({ r with mbk := field v 0 8 }, t)
      | 0x1E0 => ({ r with modeDue := some (field v 0 16, 2) }, t)
      | 0x1E1 => ({ r with bankDue := some (field v 0 3, 2) }, t)
      | _ => (r, t)

/-! ### MODE and BANK (R301, R305, R330) -/

/-- The start of a word: a value written to MODE or BANK holds from the third word after the write, once the two words of
its shadow have passed (R330). -/
def MicroRun.wordStarts (r : MicroRun) : MicroRun :=
  let (m, md) := match r.modeDue with
    | some (v, 0) => (v, none)
    | some (v, k + 1) => (r.mode, some (v, k))
    | none => (r.mode, none)
  let (b, bd) := match r.bankDue with
    | some (v, 0) => (v, none)
    | some (v, k + 1) => (r.bank, some (v, k))
    | none => (r.bank, none)
  { r with mode := m, modeDue := md, bank := b, bankDue := bd }

/-- The level whose bank the register ports of a word address (R301). -/
def MicroRun.level (r : MicroRun) (c : Cx) (nano : BitVec 256) : Nat := if bit nano 219 then r.bank.toNat else c.n.val

/-- The shadow of the bank that the register ports address; another level's starts from its bank (R301, R321). -/
def MicroRun.view (r : MicroRun) (c : Cx) (level : Nat) (b : Bank) : Bank :=
  if level = c.n.val then r.shadow else ((r.far.find? fun p => p.1 == level).map (·.2)).getD b

/-- The routine with the shadow of the addressed bank put back beside its own. -/
def MicroRun.keep (r : MicroRun) (c : Cx) (level : Nat) (own : Bank) : MicroRun :=
  if level = c.n.val then r else { r with shadow := own, far := tput r.far level r.shadow }

/-- The PSW with the KEY, PRIV and FTM of MODE. DESIGN CHOICE: they lie in bits [7:0], [8] and [9], for which the spec gives no
layout. -/
def modePsw (m : BitVec 16) (p : BitVec 128) : BitVec 128 :=
  setField (setField (setField p 48 8 (m.toNat % 256)) 59 1 (b2n (bit m 8))) 60 1 (b2n (bit m 9))

/-- LSU checks of a vendor word under MODE, of a customer word under the PSW (R309). -/
def underMode {α : Type} (c : Cx) (r : MicroRun) (act : M α) : M α :=
  if 0x3000 ≤ r.pc.toNat then act
  else fun s =>
    let p := (s.bank c.slot).psw
    let (x, s) := (act.run) (s.modBank c.slot fun b => { b with psw := modePsw r.mode b.psw })
    (x, s.modBank c.slot fun b => { b with psw := p })

/-! ### LSU and EVT (R307, R309, R317) -/

/-- The pieces of a banked access: a physical address, checked against the storage key of its frames (R317). -/
def bankedPieces (c : Cx) (acc : Acc) (mbk : Byte) (a : BitVec 16) (n : Nat) : M (Nat × List (Nat × Nat)) := do
  let s ← get
  let off := (field mbk 0 7).toNat * 2 ^ 16 + a.toNat
  let pa := if bit mbk 7 then 0x200000000000 + (clusterOf c.e).val * 0x1000000 + off
    else 0x210000000000 + c.e.val * 0x40000 + off
  let inside (p : Nat) : Bool := match bit mbk 7, s.paClass p with
    | true, .sram k => k == clusterOf c.e
    | false, .local o => o == c.e
    | _, _ => false
  if !(inside pa && inside (pa + n - 1)) then accessFault 13 acc 0 pa
  let key := pswKEY (← getPsw c)
  let frames := if pa / 4096 = (pa + n - 1) / 4096 then [pa] else [pa, (pa + n - 1) / 4096 * 4096]
  match frames.find? fun p => s.erasing p || !keyAllows key (s.keyOf p) acc.use with
  | some p => accessFault (if s.erasing p then 14 else 7) acc 0 p
  | none => return (pa, [(pa, n)])

/-- LSU operation `k` with second operand `t`: the unit after it, and its latency. A load that waits for the host leaves
the unit's result to the completion. -/
def lsuOp (c : Cx) (k : Nat) (mbk : Byte) (p : UnitPorts) (t : BitVec 256) : M UnitPorts := do
  let n := 2 ^ (k % 4)
  let a := low64 p.a
  let ea := (a + low64 t).toNat
  let after : UnitPorts := if k / 4 = 1 ∨ k / 4 = 3 then { p with a := wide (a + BitVec.ofNat 64 n) } else p
  match k / 4 with
  | 0 | 1 =>
    match ← load c ea n (.aligned n) .lsu with
    | none => return after
    | some l => return { after with y := BitVec.ofNat 256 (leNat l) }
  | 2 | 3 =>
    store c ea (natLE n (low64 p.d).toNat) (.aligned n)
    return after
  | 4 =>
    modify (·.awaitPosts c.e)
    let (pa, ps) ← bankedPieces c .read mbk (field t 0 16) n
    return { after with y := BitVec.ofNat 256 (leNat (← readPieces c.e pa ps)) }
  | _ =>
    modify (·.awaitPosts c.e)
    let (_, ps) ← bankedPieces c .write mbk (field t 0 16) n
    writePieces c.e ps (natLE n (low64 p.d).toNat) false false
    return after

/-- EVT SEND names a slot that the context may signal (R200, R309). -/
def sendCheck (c : Cx) (v : Word) : M Unit := do
  let key := pswKEY (← getPsw c)
  let owner ← ask (·.owner (field v 0 8).toNat)
  if key ≠ 0 ∧ owner ≠ key ∧ owner ≠ 0 then privileged

/-! ### One word's moves (R303) -/

/-- Of the moves that take place, in slot order, those that no later move to the same port replaces (R303). -/
def lastMoves : List (Nat × BitVec 256) → List (Nat × BitVec 256)
  | [] => []
  | w :: r => if r.any (fun x => x.1 == w.1) then lastMoves r else w :: lastMoves r

/-- The trigger that a port is: unit and operation. -/
def triggerOf (p : Nat) : Option (Nat × Nat) :=
  match unitPort p with
  | some (u, o) => if 0x20 ≤ o then some (u, o - 0x20) else none
  | none => none

/-- A source port whose unit must have finished (R310). -/
def waitsFor (m : Move) : Option Nat :=
  if m.imm then none else
  match unitPort m.src.toNat with
  | some (u, o) => if o = 1 ∨ o = 2 ∨ (4 ≤ o ∧ o < 8) then some u else none
  | none => none

/-- Operand ports of units (R303 step 3). -/
def operandPort (r : MicroRun) (w : Nat × BitVec 256) : MicroRun :=
  match unitPort w.1 with
  | some (u, o) =>
    if o = 0 then r.modUnit u fun x => { x with a := w.2 }
    else if o = 8 then r.modUnit u fun x => { x with m := field w.2 0 16 }
    else if o = 9 then r.modUnit u fun x => { x with d := w.2 }
    else r
  | none => r

/-- What a move does wrong by itself: a D port above 7, a value FPC cannot hold, or an event that may not be sent (R305,
R309). -/
def moveFault (c : Cx) (x : FmtA) (w : Nat × BitVec 256) : M Unit := do
  if badPort x w.1 then specification
  if w.1 = 0x139 ∧ fpcOk (field w.2 0 32) = false then specification
  match triggerOf w.1 with
  | some (14, _) => sendCheck c (low64 w.2)
  | _ => pure ()

/-- The triggers of a word start their units at clock `start` (R303 step 4); `mbk` is MBK at the start of the word. -/
def startUnits (c : Cx) (mbk : Byte) (start : Nat) : List (Nat × BitVec 256) → MicroRun → M MicroRun
  | [], r => return r
  | w :: ws, r => do
    match triggerOf w.1 with
    | none => startUnits c mbk start ws r
    | some (5, k) =>
      let p ← underMode c r (lsuOp c k mbk (r.unit 5) w.2)
      startUnits c mbk start ws (r.modUnit 5 fun _ => { p with ready := start + 2 })
    | some (14, _) =>
      modify fun s => (s.drainAll c.e).pendVector (field w.2 0 8).toNat (field w.2 8 6).toNat
      startUnits c mbk start ws (r.modUnit 14 fun x => { x with ready := start + 1 })
    | some (u, k) =>
      let s ← get
      match unitOp u k (r.unit u) w.2 r.shadow.fpc s.pcm.chrono (Config.unitOpen s.draws) with
      | none => startUnits c mbk start ws r
      | some o =>
        set { s with draws := s.draws + 1 }
        startUnits c mbk start ws (r.modUnit u fun x =>
          { x with y := o.y, y2 := o.y2, cond := o.cond, ready := start + o.latency })

/-- The moves of a word that take place (R303 step 1). -/
def MicroRun.live (r : MicroRun) (nano : BitVec 256) : List Move :=
  ((List.range 6).map (moveOf nano)).filter fun m => m.dst != 0 && r.flag m.guard

/-- What they write, by destination port (R303 step 2, R304). -/
def MicroRun.writes (r : MicroRun) (t : Vector Word 32) (b : Bank) (nano : BitVec 256) : List (Nat × BitVec 256) :=
  lastMoves ((r.live nano).map fun m => (m.dst, if m.imm then wide (sext 15 m.src.toNat) else r.read t b m.src.toNat))

/-- The clock at which a word starts, after its stalls (R310). -/
def MicroRun.startsAt (r : MicroRun) (nano : BitVec 256) : Nat :=
  let triggers := (r.live nano).filterMap fun m => (triggerOf m.dst).map (·.1)
  ((r.live nano).filterMap waitsFor ++ triggers).foldl (fun n u => max n (r.unit u).ready) r.clock

/-- Every move that takes effect is checked, in slot order. -/
def checkMoves (c : Cx) (x : FmtA) : List (Nat × BitVec 256) → M Unit
  | [] => pure ()
  | w :: ws => do
    moveFault c x w
    checkMoves c x ws

/-- The moves of a word that starts at clock `start` (R303): the routine after them. LSU goes first among the triggers, so
that a word that faults has started no other unit. -/
def runMoves (c : Cx) (r : MicroRun) (nano : BitVec 256) (start : Nat) : M MicroRun := do
  let t ← ask fun s => (s.eng c.e).t
  let level := r.level c nano
  let b ← ask (·.bank (slotOf c.e level))
  let r0 := { r with shadow := r.view c level b }
  match (r.live nano).find? fun m => !m.imm && badPort r.x m.src.toNat with
  | some _ => specification
  | none => pure ()
  let ws := r0.writes t b nano
  checkMoves c r.x ws
  let r1 := ws.foldl operandPort r0
  let isLsu (w : Nat × BitVec 256) : Bool := match triggerOf w.1 with | some (5, _) => true | _ => false
  let r2 ← startUnits c r.mbk start (ws.filter isLsu ++ ws.filter fun w => !isLsu w) r1
  let (r3, t3) := ws.foldl writePort (r2, t)
  modify (·.modEng c.e fun x => { x with t := t3 })
  return r3.keep c level r.shadow

/-! ### Loops (R314 to R316) -/

/-- Loop register set `n` changed. -/
def MicroRun.modLoop (r : MicroRun) (n : Fin 3) (f : LoopReg → LoopReg) : MicroRun :=
  { r with loops := r.loops.set n.val (f r.loops[n]) n.isLt }

/-- An arming word at address `a` (R314, R315): the routine, and the next word with a bubble when a DBR loop runs zero
times. -/
def MicroRun.arm (r : MicroRun) (a : BitVec 14) (lp : BitVec 3) (lit : BitVec 14) : MicroRun × Option (BitVec 14) :=
  let k := (field lp 0 2).toNat
  if k = 0 then (r, none)
  else
    let n : Fin 3 := Fin.ofNat 3 (k - 1)
    let dbr := bit lp 2
    let zero := dbr && r.loops[n].count == 0
    let r := r.modLoop n fun l => { l with start := a + 1, stop := lit, active := !zero, dbr := dbr }
    let r := { r with order := n :: r.order.filter (· != n) }
    (r, if zero then some (lit + 1) else none)

/-- The active loops that end at address `a`, most recently armed first, until one redirects (R315): the next word and
its bubble. -/
def MicroRun.loopEnd (r : MicroRun) (a : BitVec 14) : List (Fin 3) → MicroRun × Option (BitVec 14 × Nat)
  | [] => (r, none)
  | n :: ns =>
    let l := r.loops[n]
    if !l.active || l.stop != a then r.loopEnd a ns
    else if l.dbr then
      let k := l.count - 1
      if k = 0 then (r.modLoop n fun l => { l with count := k, active := false }).loopEnd a ns
      else (r.modLoop n fun l => { l with count := k }, some (l.start, 1))
    else if l.count.toNat ≤ 1 then (r.modLoop n fun l => { l with count := 0, active := false }).loopEnd a ns
    else (r.modLoop n fun l => { l with count := l.count - 1 }, some (l.start, 0))

/-- A word at address `a` that completes in sequence or as a delay slot: where the routine goes on, and its bubble (R312,
R314, R315). -/
def MicroRun.onward (r : MicroRun) (a : BitVec 14) (nano : BitVec 256) (lit : BitVec 15) : MicroRun × Nat :=
  let (r, skip) := r.arm a (field nano 216 3) (field lit 0 14)
  if r.delay then ({ r with pc := r.target.getD (a + 1), target := none, delay := false }, 0)
  else
    match r.loopEnd a r.order, skip with
    | (r, some (p, n)), _ => ({ r with pc := p }, n)
    | (r, none), some p => ({ r with pc := p }, 1)
    | (r, none), none => ({ r with pc := a + 1 }, 0)

/-- A taken branch at address `a`: its delay slot is next (R312). -/
def MicroRun.branch (r : MicroRun) (a target : BitVec 14) : MicroRun :=
  { r with pc := a + 1, target := some target, delay := true }

/-! ### Commit points and the end of words (R310, R321 to R325) -/

/-- Pending writes reach the bank (R321). -/
def Bank.takePending (b p : Bank) : Bank := { b with g := p.g, d := p.d, f := p.f, p := p.p, cc := p.cc, fpc := p.fpc }

/-- Pending writes reach the banks (R321). -/
def State.applyPending (s : State) (c : Cx) (r : MicroRun) : State :=
  let s := s.modBank c.slot fun b => b.takePending r.shadow
  r.far.foldl (fun s p => s.modBank (slotOf c.e p.1) fun b => b.takePending p.2) s

/-- A commit point of a routine: pending writes, IPR and IPS, the commit record, and a fresh runaway count (R322). -/
def State.microCommit (s : State) (c : Cx) (r : MicroRun) (resume : BitVec 14) : State :=
  let gen := (s.eng c.e).csGen
  let rec' : CommitRec :=
    { valid := true, readPast := 0, resume := resume, target := r.target, loops := r.loops, order := r.order,
      flags := setField r.mf 0 1 0, mbk := r.mbk, n := r.n, gen := gen }
  let s := (s.applyPending c r).modBank c.slot fun b => { b with psw := withIP b.psw true r.rsm.toNat, commit := rec' }
  ((s.seal c.e false).tick c.e 3 1).modEng c.e fun x =>
    { x with micro := some { r with count := 0, atCommit := true, far := [], due := .none } }

/-- Clocks of a routine: CYC, FTCYC and MCYC (R559). -/
def State.microTime (s : State) (c : Cx) (n : Nat) : State :=
  (s.cycles c.e (pswFTM (s.bank c.slot).psw) n).tick c.e 24 n

/-- A routine ends by an exception or a machine check: pending writes are discarded, and a machine check of a post goes
first (R289, R321, R328). -/
def State.microTrap (s : State) (c : Cx) (t : Trap) : State :=
  (((s.modEng c.e fun x => { x with micro := none, wait := .none }).seal c.e true).trappedPoint c.e c.n c.len t).takeWindow
    c.e

/-- The engine stands at an interruption point after a commit or an END: a machine check of a post is taken, and a window
that CSTORE_RELOAD writes there (R290, R296). -/
def State.atMicroPoint (s : State) (c : Cx) : State := (s.takePostCheck c.e).takeWindow c.e

/-- END: pending writes reach the bank, and the macro instruction completes (R323). -/
def State.endRoutine (s : State) (c : Cx) (r : MicroRun) : State :=
  let s := ((s.applyPending c r).modEng c.e fun x => { x with micro := none }).seal c.e false
  (s.complete c 0 .seq).atMicroPoint c

/-- The wait of a WAITEV or WAITTB word begins; outside a micro call each of its clocks is a commit point that resumes at the
word itself (R319). -/
def State.beginWait (s : State) (c : Cx) (r : MicroRun) (w : Wait) : State :=
  let wait (s : State) : State := s.modEng c.e fun x => { x with wait := if x.micro.isSome then w else x.wait }
  if r.stack.isEmpty then wait ((s.microCommit c r r.pc).atMicroPoint c)
  else wait (s.modEng c.e fun x => { x with micro := some { r with due := .none } })

/-- What a word still has to do is done once its units are idle: a host-window load of its LSU delays it (R310). -/
def State.closeWord (s : State) (c : Cx) (r : MicroRun) : State :=
  if (s.eng c.e).wait ≠ .none then s.modEng c.e fun x => { x with micro := some r }
  else match r.due with
    | .none => s.modEng c.e fun x => { x with micro := some r }
    | .commit => (s.microCommit c r r.pc).atMicroPoint c
    | .finish => s.endRoutine c r
    | .wait w => s.beginWait c r w

/-- The word that an engine's routine executes next: the context, the routine, the word and its nano-word; none where
the routine may not go on (R65, R265, R279, R325, R333). -/
def State.nextWord (s : State) (e : Eng) : Option (Cx × MicroRun × BitVec 32 × BitVec 256) :=
  let x := s.eng e
  match x.micro, s.running e with
  | some r, some n =>
    let i := slotOf e n.val
    let held := r.atCommit && ((s.slot i).xexc || (s.dueLevel e).isSome || (s.dom (s.owner i)).state == .quiescing
      || x.postCheck.isSome)
    if !s.clusterRuns e || x.checkstop || x.wait != .none || held || 4096 ≤ r.count || r.pc.toNat < 0x3000 then none
    else
      let w := s.microWord e r.pc.toNat
      some ({ e := e, n := n, len := r.x.len.bytes }, r.wordStarts, w, s.nanoWord e (field w 22 10).toNat)
  | _, _ => none

/-- A word that parity finds bad: the word is rewritten, and a machine check follows (R297). -/
def State.parityCheck (s : State) (c : Cx) (r : MicroRun) (w : BitVec 32) : Option State :=
  let bad := [r.pc.toNat, 0x10000 + (field w 22 10).toNat].filter (s.eng c.e).cs.parity.contains
  if bad = [] then none
  else
    let s := s.modEng c.e fun x => { x with cs := { x.cs with parity := x.cs.parity.filter fun a => !bad.contains a } }
    some (s.microTrap c (.mcheck 0x16 0 0))

/-- The clocks of a word that starts at `start`: its stalls, and STRETCH + 1 (R299, R310). -/
def wordClocks (r : MicroRun) (w : BitVec 32) (start : Nat) : Nat := start - r.clock + (field w 20 2).toNat + 1

/-- EVOP at the end of a word (R301, R320). -/
def State.evop (s : State) (c : Cx) (r : MicroRun) (nano : BitVec 256) : State × MicroRun :=
  match (field nano 228 2).toNat with
  | 1 => (s.modSlot c.slot fun x => { x with wake := false }, r)
  | 2 => (s, { r with mf := setField r.mf 14 1 (b2n (s.dueLevel c.e).isSome) })
  | _ => (s, r)

/-- The clock at which every unit of a routine is idle, `done` or later. -/
def MicroRun.idleAt (r : MicroRun) (done : Nat) : Nat := (r.units.map fun p => p.2.ready).foldl max done

/-- The end of a word: EVOP, the clock, and the commit point when the word is one; `from'` is the routine as the word
started, `bubble` what a loop adds. -/
def State.endOfWord (s : State) (c : Cx) (from' r : MicroRun) (w : BitVec 32) (nano : BitVec 256) (start bubble : Nat) :
    State :=
  let (s, r) := s.evop c r nano
  let commits := bit w 19 && !from'.delay && from'.stack.isEmpty
  let done := from'.clock + wordClocks from' w start + bubble
  let done := if commits then r.idleAt done else done
  (s.microTime c (done - from'.clock)).closeWord c
    { r with clock := done, count := from'.count + 1, atCommit := false, due := if commits then .commit else .none }

/-- How a word goes on: the routine, a bubble, and the T registers. -/
structure Onward where
  run : MicroRun
  bubble : Nat
  t : Vector Word 32

/-- One word whose SEQ is `seq`: parity, the moves, then `close` from the routine at the word's start, the routine and the
state after its moves, the word, the nano-word and the clock at which the word started. A word that faults counts its
clocks (R334). -/
def State.microStep (s : State) (e : Eng) (seq : BitVec 4)
    (close : Cx → MicroRun → MicroRun → State → BitVec 32 → BitVec 256 → Nat → State) : State :=
  match s.nextWord e with
  | none => s
  | some (c, r, w, nano) =>
    if field w 15 4 ≠ seq then s else
    match s.parityCheck c r w with
    | some s' => s'
    | none =>
      let start := r.startsAt nano
      match (runMoves c r nano start).exec s with
      | (.error t, s') => (s'.microTime c (wordClocks r w start)).microTrap c t
      | (.ok r', s') => close c r r' s' w nano start

/-- One word whose SEQ is `seq`: its moves, then `after`, which answers how the routine goes on from the routine and the
T registers as the moves leave them, or a trap. -/
def State.microRow (s : State) (e : Eng) (seq : BitVec 4)
    (after : MicroRun → MicroRun → Vector Word 32 → BitVec 15 → BitVec 256 → Except Trap Onward) : State :=
  s.microStep e seq fun c r r' s' w nano start =>
    match after r r' (s'.eng e).t (field w 0 15) nano with
    | .error t => (s'.microTime c (wordClocks r w start)).microTrap c t
    | .ok o => (s'.modEng e fun x => { x with t := o.t }).endOfWord c r o.run w nano start o.bubble

/-! ### The rows (R300) -/

/-- The micro-runaway machine check (R318, R325, R333). -/
def runaway : Trap := .mcheck 4 0 0

/-- A word that completes in sequence, or as a delay slot. -/
def inSequence (r r' : MicroRun) (t : Vector Word 32) (lit : BitVec 15) (nano : BitVec 256) : Onward :=
  let (run, bubble) := r'.onward r.pc nano lit
  { run := run, bubble := bubble, t := t }

/-- A taken branch. -/
def taken (r r' : MicroRun) (target : BitVec 14) (t : Vector Word 32) : Onward :=
  { run := r'.branch r.pc target, bubble := 0, t := t }

/-- NEXT. -/
def execNext (e : Eng) (s : State) : Host.Outcome State Fault Refusal :=
  .next (s.microRow e 0 fun r r' t lit nano => .ok (inSequence r r' t lit nano))

/-- JUMP. -/
def execJump (e : Eng) (s : State) : Host.Outcome State Fault Refusal :=
  .next (s.microRow e 1 fun r r' t lit _ => .ok (taken r r' (field lit 0 14) t))

/-- BT and BF: taken when the flag, as it stood at the start of the word, is `want` (R300). -/
def branchOnFlag (want : Bool) (r r' : MicroRun) (t : Vector Word 32) (lit : BitVec 15) (nano : BitVec 256) : Onward :=
  if r.flag (field lit 11 4).toFin == want then taken r r' (r.pc + (field lit 0 11).signExtend 14) t
  else inSequence r r' t 0 nano

/-- BT. -/
def execBt (e : Eng) (s : State) : Host.Outcome State Fault Refusal :=
  .next (s.microRow e 2 fun r r' t lit nano => .ok (branchOnFlag true r r' t lit nano))

/-- BF. -/
def execBf (e : Eng) (s : State) : Host.Outcome State Fault Refusal :=
  .next (s.microRow e 3 fun r r' t lit nano => .ok (branchOnFlag false r r' t lit nano))

/-- The T registers that CMASK saves (R301). -/
def savedGroups (mask : BitVec 8) (t : Vector Word 32) : List (Nat × Word) :=
  (List.finRange 32).filterMap fun i => if bit mask (i.val / 4) then some (i.val, t[i]) else none

/-- CALL: the frame is pushed with the T registers as the word leaves them; a fifth frame is a micro-runaway (R318). -/
def execMicroCall (e : Eng) (s : State) : Host.Outcome State Fault Refusal :=
  .next (s.microRow e 4 fun r r' t lit nano =>
    if 4 ≤ r.stack.length then .error runaway
    else
      let frame : MicroFrame := { ret := r.pc + 2, saved := savedGroups (field nano 220 8) t }
      .ok (taken r { r' with stack := frame :: r'.stack } (field lit 0 14) t))

/-- RET: the frame is popped and its groups restored before the delay slot; with no frame it is a micro-runaway (R318). -/
def execMicroRet (e : Eng) (s : State) : Host.Outcome State Fault Refusal :=
  .next (s.microRow e 5 fun r r' t _ _ =>
    match r.stack with
    | [] => .error runaway
    | f :: fs =>
      .ok (taken r { r' with stack := fs } f.ret (f.saved.foldl (fun t p => t.set (Fin.ofNat 32 p.1).val p.2) t)))

/-- DISP: the target is base + T0[3:0], T0 as the word finds it (R300). -/
def execDisp (e : Eng) (s : State) : Host.Outcome State Fault Refusal :=
  let t0 : BitVec 14 := (field (s.eng e).t[0] 0 4).setWidth 14
  .next (s.microRow e 6 fun r r' t lit _ => .ok (taken r r' (field lit 0 14 + t0) t))

/-- A waiting word executes its moves and then waits, once its units are idle (R319). -/
def State.microWait (s : State) (e : Eng) (seq : BitVec 4) (wait : State → BitVec 15 → Wait) : State :=
  s.microStep e seq fun c r r' s' w _ start =>
    let done := r'.idleAt (r.clock + wordClocks r w start)
    (s'.microTime c (done - r.clock)).closeWord c
      { r' with pc := r.pc, clock := done, count := r.count + 1, atCommit := false, due := .wait (wait s' (field w 0 15)) }

/-- WAITEV (R319). -/
def execWaitev (e : Eng) (s : State) : Host.Outcome State Fault Refusal :=
  .next (s.microWait e 7 fun _ _ => .waitev)

/-- WAITTB: waits for the Chronometer to reach T(LIT[4:0]) (R319). -/
def execWaittb (e : Eng) (s : State) : Host.Outcome State Fault Refusal :=
  .next (s.microWait e 8 fun s lit => .waittb (s.eng e).t[(field lit 0 5).toFin])

/-- The end of a micro wait, when nothing more urgent is due: one clock later the word ends, with its EVOP, completes in
sequence, and is a commit point (R319, R320, R322). -/
def State.endMicroWait (s : State) (e : Eng) : State :=
  match (s.unwait e).nextWord e, (s.eng e).micro with
  | some (c, _, w, nano), some r =>
    let (r', bubble) := { r with atCommit := false }.onward r.pc nano 0
    (s.unwait e).endOfWord c { r with count := r.count - 1 } r' (setField w 20 2 0) nano r.clock bubble
  | _, _ => s

/-- WAITEV_END: the wake latch is found set, and clears (R319). -/
def execWaitevEnd (e : Eng) (s : State) : Host.Outcome State Fault Refusal :=
  match (s.eng e).wait, s.running e with
  | .waitev, some n =>
    let i := slotOf e n.val
    .next (if (s.slot i).wake && ((s.unwait e).nextWord e).isSome then
        (s.endMicroWait e).modSlot i fun x => { x with wake := false }
      else s)
  | _, _ => .next s

/-- WAITTB_END: the Chronometer has reached the time (R319). -/
def execWaittbEnd (e : Eng) (s : State) : Host.Outcome State Fault Refusal :=
  match (s.eng e).wait with
  | .waittb t => .next (if t.toNat ≤ s.pcm.chrono.toNat then s.endMicroWait e else s)
  | _ => .next s

/-- END, once its units are idle (R323). -/
def execEndWord (e : Eng) (s : State) : Host.Outcome State Fault Refusal :=
  .next (s.microStep e 9 fun c r r' s' w nano start =>
    let (s', r') := s'.evop c r' nano
    let done := r'.idleAt (r.clock + wordClocks r w start)
    (s'.microTime c (done - r.clock)).closeWord c { r' with clock := done, due := .finish })

/-- EXC: the exception that CAUSE names, with DETAIL from T30 and EADDR from T31, as a fault of its word (R300, R328). -/
def execExc (e : Eng) (s : State) : Host.Outcome State Fault Refusal :=
  match s.nextWord e with
  | none => .next s
  | some (c, r, w, nano) =>
    if field w 15 4 ≠ 0xA then .next s else
    match s.parityCheck c r w with
    | some s' => .next s'
    | none =>
      let t := (s.eng e).t
      let cause := (field w 0 8).toNat
      .next ((s.microTime c (wordClocks r w (r.startsAt nano))).microTrap c
        (.exc cause (field t[30] 0 16).toNat t[31].toNat))

/-- MICRO_RUNAWAY: a routine that has run 4,096 words without a commit point, or whose next address lies outside the
window (R325, R333). -/
def execMicroRunaway (e : Eng) (s : State) : Host.Outcome State Fault Refusal :=
  match (s.eng e).micro, s.running e with
  | some r, some n =>
    let c : Cx := { e := e, n := n, len := r.x.len.bytes }
    .next (if (4096 ≤ r.count ∨ r.pc.toNat < 0x3000) ∧ (s.eng e).wait = .none ∧ (s.eng e).checkstop = false
        ∧ s.clusterRuns e = true then
      s.microTrap c runaway else s)
  | _, _ => .next s

/-! ### MCALL (R95, R326, R334) -/

/-- Entry `n` of the customer part in an engine's window (R332). -/
def State.mcallEntry (s : State) (e : Eng) (n : BitVec 6) : BitVec 32 := lget 0 (s.eng e).cs.entries n.toNat

/-- A routine that starts afresh: its ports, flags, loop counts, MBK and RSM hold what they hold (R305). -/
def freshRun (x : FmtA) (pc : BitVec 14) (b : Bank) (v : Nat → BitVec 256) : MicroRun :=
  let loop (n : Nat) : LoopReg :=
    { start := field (v (0x1D0 + n)) 0 14, stop := field (v (0x1D3 + n)) 0 14, count := field (v (0x1D6 + n)) 0 16,
      active := false, dbr := false }
  let unit (u : Nat) : UnitPorts :=
    let p := 0x200 + 0x40 * u
    { a := v p, d := v (p + 9), m := field (v (p + 8)) 0 16, y := v (p + 1), y2 := v (p + 2),
      cond := field (v (p + 4)) 0 4, ready := 0 }
  { pc := pc, target := none, delay := false, n := x.mod, x := x, mf := field (v 0x1C0) 0 16,
    loops := #v[loop 0, loop 1, loop 2], order := [], mbk := field (v 0x1D9) 0 8, rsm := field (v 0x13D) 0 7,
    stack := [], units := (List.range 16).map fun u => (u, unit u), shadow := b, count := 0, clock := 0,
    atCommit := false, mode := field (v 0x1E0) 0 16, bank := field (v 0x1E1) 0 3, modeDue := none, bankDue := none,
    far := [], due := .none }

/-- A routine that resumes from its commit record (R326). -/
def resumedRun (x : FmtA) (b : Bank) : MicroRun :=
  let k := b.commit
  { pc := k.resume, target := k.target, delay := k.target.isSome, n := k.n, x := x, mf := k.flags, loops := k.loops,
    order := k.order, mbk := k.mbk, rsm := pswIPS b.psw, stack := [], units := [], shadow := b, count := 0, clock := 0,
    atCommit := false, mode := 0, bank := 0, modeDue := none, bankDue := none, far := [], due := .none }

/-- The T registers of an engine when a routine starts afresh: the spec names no value (R305). -/
def freshT (v : Nat → BitVec 256) : Vector Word 32 := Vector.ofFn fun i => low64 (v (0x20 + i.val))

/-- MCALL (R95, R326, R334): dispatch in 4 cy, or resume from the commit record. -/
def execMcall (e : Eng) (x : FmtA) (s : State) : Host.Outcome State Fault Refusal :=
  macroNext e x.pred x.len
    { interruptible := true
      selfTimed := true
      count := fun c s => (field (s.mcallEntry c.e x.mod) 16 16).toNat
      body := fun c => do
        let entry ← ask (·.mcallEntry c.e x.mod)
        if !bit entry 15 then throw (.exc 0x20 0 0)
        lengthIn x.len [.l4, .l6]
        let b ← getBank c
        if pswIPR b.psw then
          let gen ← ask fun s => (s.eng c.e).csGen
          require (b.commit.valid && b.commit.n == x.mod && b.commit.gen == gen)
          modify (·.modEng c.e fun y => { y with micro := some (resumedRun x b), t := Vector.replicate 32 0 })
          return .waits
        else
          modify fun s =>
            let v := Config.microStart s.draws
            let s := { s with draws := s.draws + 1 }
            ((s.tick c.e 23 1).cycles c.e (pswFTM b.psw) 4).modEng c.e fun y =>
              { y with micro := some (freshRun x (field entry 0 14) b v), t := freshT v }
          return .waits } s

end Sys2Proof.Machine
end

