-- ==== Sys2Proof/Machine/HostIf.lean ====
section
/-! DEFINITION. The host interface (13, 02): completions of host-window loads and queue copies, timeouts, MSI-X, function
resets and configuration writes (R38, R379, R389 to R392). -/

namespace Sys2Proof.Machine

/-! ### Requests that end -/

/-- Offset of HIF counter `k` (R558): 3 CPLTO, 4 URCNT, 5 CACNT, 6 POISRX, 9 FLRCNT. -/
def hifCounter (k : Nat) : Nat := hifBase + 0x4008 + 8 * k

/-- An uncorrectable error logged in the AER capability of function `fn` (R391): its status bit and the header; and the
last one of any function in HIF.AERHDR, with the function, the error's bit and the time (R558). -/
def State.aerLog (s : State) (fn error : Nat) : State :=
  let o := hifBase + 0x4140
  let lo := Config.tlpHeader 0 s.draws
  let hi := Config.tlpHeader 1 s.draws
  let s := s.modFn fn fun f =>
    { f with aerUncor := f.aerUncor ||| BitVec.ofNat 32 (2 ^ error), aerHeader := hi ++ lo }
  let s := (s.setReg o lo).setReg (o + 8) hi
  let s := (s.setReg (o + 16) (BitVec.ofNat 64 (fn + error * 2 ^ 16))).setReg (o + 24) s.pcm.chrono
  { s with draws := s.draws + 1 }

/-- The completion timeout in ticks, by the Completion Timeout Value of PF0 (R390). -/
def completionTimeout (ctv : BitVec 4) : Nat :=
  match ctv.toNat with
  | 1 => 10000 | 2 => 100000 | 5 => 2000000 | 6 => 6500000 | _ => 5000000

/-- A request issued at `since` has waited as long as the completion timeout (R390). -/
def State.requestOverdue (s : State) (since : Word) : Bool :=
  decide (completionTimeout s.hif.ctv ≤ (s.pcm.chrono - since).toNat)

/-- A completion has freed a request: loads and copies that wait for one go out (R381). -/
def State.issueMore (s : State) : State :=
  let s := (List.finRange 32).foldl State.issueLoad s
  s.queues.foldl (fun s p => s.startCopy p.1) s

/-- The counters and the log of a request that ends without data: 1 UR, 2 CA, 3 timeout, 4 poisoned (R391, R558). -/
def State.requestFailed (s : State) (fn outcome : Nat) : State :=
  match outcome with
  | 1 => s.countErr (hifCounter 4) 1
  | 2 => s.countErr (hifCounter 5) 1
  | 3 => (s.countErr (hifCounter 3) 1).aerLog fn 14
  | _ => (s.countErr (hifCounter 6) 1).aerLog fn 12

/-! ### Engine loads (R389, R391) -/

/-- The work that the data of a host-window load completes. -/
def finishLoad (c : Cx) (d : LoadDest) (l : List Byte) : M Done := do
  match d with
  | .g ra _ signed =>
    setG c ra (loadedWord l signed)
    return .seq
  | .f ra _ =>
    setF c ra (BitVec.ofNat 128 (leNat l))
    return .seq
  | .mvs ra rb rc pd => mvsResume c ra rb rc pd (lget 0 l 0)
  | .fop op ra fmt =>
    arithFinish c op ra fmt l
    return .seq
  | .block xop ra mode =>
    blockFinish c xop ra mode l
    return .seq
  | .lsu => return .seq

/-- The data of an LSU load reaches .Y, and the routine goes on: what its word still had to do is done (R310). -/
def State.finishLsu (s : State) (e : Eng) (n : Fin 8) (l : List Byte) : State :=
  match (s.eng e).micro with
  | none => s.unwait e
  | some r =>
    let r := r.modUnit 5 fun u => { u with y := BitVec.ofNat 256 (leNat l) }
    (s.unwait e).closeWord { e := e, n := n, len := r.x.len.bytes } r

/-- The wait term of a host-window load: the engine's cycles since it began, 15 in each tick of 10 ns at 1.5 GHz (R101,
R103). -/
def State.hostWait (s : State) (e : Eng) (h : HostLoad) : State := s.waitTerm e (15 * (s.pcm.chrono - h.start).toNat)

/-- A host-window load ends with data, or with bytes 0xFF in its place. -/
def State.loadEnds (s : State) (e : Eng) (n : Fin 8) (h : HostLoad) (l : List Byte) : State :=
  let s := s.hostWait e h
  match h.dest with
  | .lsu => (s.tick e 24 (15 * (s.pcm.chrono - h.start).toNat)).finishLsu e n l
  | d =>
    let c : Cx := { e := e, n := n, len := h.ilen.toNat }
    let s := s.unwait e
    (s.finishWork c 0 ((finishLoad c d l).exec s)).takeWindow e

/-- The data of the read in progress: the load ends, or its next read follows (R389). -/
def State.loadData (s : State) (e : Eng) (n : Fin 8) (h : HostLoad) (l : List Byte) : State :=
  if h.left = 0 then s.loadEnds e n h (h.got ++ l)
  else
    let bus := h.bus + BitVec.ofNat 64 h.size
    let k := readSize bus h.left
    (s.modEng e fun x =>
      { x with wait := .host { h with bus := bus, size := k, issued := false, got := h.got ++ l, left := h.left - k } }).issueLoad e

/-- A poisoned completion: the load consumes the poison, with machine check 0x17 (R391, R537). -/
def State.loadPoisoned (s : State) (e : Eng) (n : Fin 8) (h : HostLoad) : State :=
  let c : Cx := { e := e, n := n, len := h.ilen.toNat }
  let pa := 0x380000000000 + (field h.bus 0 43).toNat
  (s.hostWait e h).microTrap c (.mcheck 0x17 h.va.toNat (pa / 64 * 64))

/-- A host-window load ends as R391 states: `outcome` 1 UR, 2 CA, 3 completion timeout. -/
def State.loadFails (s : State) (e : Eng) (n : Fin 8) (h : HostLoad) (outcome : Nat) : State :=
  let fn := h.fn.toNat
  ((s.requestFailed fn outcome).hostRecord fn outcome 0 0 h.bus.toNat).loadEnds e n h
    (List.replicate (h.got.length + h.size + h.left) 0xFF)

/-- PCIE_COMPLETION: the completion of the read that engine `e`'s host-window load has issued (R391). A command that fits
no such read is turned away. -/
def execPcieCompletion (e : Eng) (result : Completion) (s : State) : Host.Outcome State Fault Refusal :=
  match (s.eng e).wait, s.running e with
  | .host h, some n =>
    let d := h.fn.toNat
    if !h.issued then .next s else
    match result with
    | .data l => .next (if l.length = h.size then ((s.loadData e n h l).settle d).issueMore else s)
    | .ur => .next (((s.loadFails e n h 1).settle d).issueMore)
    | .ca => .next (((s.loadFails e n h 2).settle d).issueMore)
    | .poisoned =>
      .next (((((s.requestFailed d 4).hostRecord d 4 0 0 h.bus.toNat).loadPoisoned e n h).settle d).issueMore)
  | _, _ => .next s

/-! ### Queue copies (R379) -/

/-- The end of a read request of an SQ copy without data: ERR 3 for UR, CA or a timeout, ERR 5 for a poisoned completion
(R374, R391). -/
def State.copyFailed (s : State) (qid : Nat) (r : SqRead) (outcome : Nat) : State :=
  let a := ((s.queue qid).hostAddr r.index.toNat).toNat
  let d := queueDomain qid
  ((s.requestFailed d outcome).hostRecord d outcome 2 qid a).queueError qid (if outcome = 4 then 5 else 3) r.index.toNat a

/-- Data of read `k` of a copy comes (R379): its whole entries go into the device ring, and XI advances over the longest run
of whole entries that have landed in order, with the event of R375. -/
def State.copyLands (s : State) (id k : Nat) (r : SqRead) (l : List Byte) : State :=
  let q := s.queue id
  let ahead := ((q.reads.take k).map (·.count)).sum + r.done
  let l := r.part ++ l
  let n := l.length / q.esize
  match s.landEntries id q n l ahead with
  | (some (err, x), s) => s.queueError id err x (q.base + q.esize * q.slot x)
  | (none, s) =>
    let s := if n = 0 then s else s.countMove id n (n * q.esize)
    let (m, rest) := landedRun (modifyNth (fun r => { r with done := r.done + n, part := l.drop (n * q.esize) }) k q.reads)
    let s := s.modQueue id fun q => { q.addXi m with reads := rest }
    if m = 0 then s else s.queueEvent id

/-- The bytes that read `r` of a queue still waits for. -/
def SqRead.missing (r : SqRead) (q : Queue) : Nat := (r.count - r.done) * q.esize - r.part.length

/-- SQ_COPY_COMPLETION: a completion for read `k` of the copy (R379, R391). A command that fits no request, or carries more
data than the request still waits for, is turned away. -/
def execSqCopyCompletion (qid : BitVec 16) (k : Nat) (result : Completion) (s : State) :
    Host.Outcome State Fault Refusal :=
  let id := qid.toNat
  let q := s.queue id
  let d := queueDomain id
  match q.reads[k]? with
  | none => .next s
  | some r =>
    if !r.open' then .next s else
    match result with
    | .ur => .next (((s.copyFailed id r 1).settle d).issueMore)
    | .ca => .next (((s.copyFailed id r 2).settle d).issueMore)
    | .poisoned => .next (((s.copyFailed id r 4).settle d).issueMore)
    | .data l =>
      .next (if l ≠ [] ∧ l.length ≤ r.missing q then ((s.copyLands id k r l).settle d).issueMore else s)

/-- HIF_COMPLETION_TIMEOUT: a request without a completion ends (R390, R391). Turned away before its time. -/
def execHifCompletionTimeout (r : HostReq) (s : State) : Host.Outcome State Fault Refusal :=
  match r with
  | .load e =>
    match (s.eng e).wait, s.running e with
    | .host h, some n =>
      .next (if h.issued && s.requestOverdue h.since then ((s.loadFails e n h 3).settle h.fn.toNat).issueMore else s)
    | _, _ => .next s
  | .copy qid k =>
    match (s.queue qid.toNat).reads[k]? with
    | some x =>
      .next (if x.open' && s.requestOverdue x.since then
          ((s.copyFailed qid.toNat x 3).settle (queueDomain qid.toNat)).issueMore else s)
    | none => .next s

/-! ### MSI-X, function resets, configuration (R38, R391, R392) -/

/-- MSIX_PENDING_SEND: a pending message leaves once it may (R391). -/
def execMsixPendingSend (fn : BitVec 8) (vec : Fin 8) (s : State) : Host.Outcome State Fault Refusal :=
  let d := fn.toNat
  if bit (s.fn d).pba vec.val && s.msixOpen d vec then
    .next ((s.modFn d fun f => { f with pba := f.pba &&& ~~~(BitVec.ofNat 8 (2 ^ vec.val)) }).msixSend d vec)
  else .next s

/-- FUNCTION_LEVEL_RESET of VFd (R38, R39): from ACTIVE it runs the quiesce sequence first; while ABSENT or DESTROYING it
resets only the function. PF0 has none, and is turned away. -/
def execFunctionLevelReset (fn : BitVec 8) (s : State) : Host.Outcome State Fault Refusal :=
  let d := fn.toNat
  if d = 0 ∨ s.power.part = .boot ∨ s.power.part = .dormant then .next s
  else
    let s := s.countErr (hifCounter 9) 1
    match (s.dom d).state with
    | .absent | .destroying =>
      .next (((s.modFn d PcieFn.flr).fire (0x11300 + d)).send (.flrDone fn))
    | .active => .next (((s.setFlrActive d true).startQuiesce d).settle d)
    | .quiescing => .next (s.setFlrActive d true)
    | .quiesced => .next (s.finishFlr d)

/-- A payload or request size that PCIe codes: a power of two from 128 up (R381). -/
def sizeCoded (n most : Nat) : Bool := [128, 256, 512, 1024, 2048, 4096].contains n && decide (n ≤ most)

/-- The settings that a configuration write leaves (R381, R390, R391). -/
def State.configure (s : State) (w : CfgWrite) : State :=
  match w with
  | .vfEnable on n => { s with hif := { s.hif with vfEnable := on, numVfs := n } }
  | .busMaster fn on => s.modFn fn.toNat fun f => { f with busMaster := on }
  | .dState fn d3 => s.modFn fn.toNat fun f => { f with d3hot := d3 }
  | .completionTimeout v => { s with hif := { s.hif with ctv := v } }
  | .msix fn en mask => s.modFn fn.toNat fun f => { f with msixEn := en, msixMask := mask }
  | .sizes fn p r =>
    if sizeCoded p 512 && sizeCoded r 4096 then s.modFn fn.toNat fun f => { f with maxPayload := p, maxRead := r } else s

/-- PCIE_CONFIGURATION_WRITE: the settings take effect, and copies that waited for permission start (R391). During BOOT
the request is answered with a retry status and changes nothing (R546). -/
def execPcieConfigurationWrite (w : CfgWrite) (s : State) : Host.Outcome State Fault Refusal :=
  if s.power.part = .boot ∨ s.power.part = .dormant ∨ s.power.resetting = true then .next s
  else
    let s := s.configure w
    .next ((upFrom 0 256).foldl State.startCopies s)

end Sys2Proof.Machine
end

