-- ==== Sys2Proof/Machine/Keeper.lean ====
section
/-! DEFINITION. Keeper's command port (16): packets and their checks, the two transports, the acceptance of a command, and
the reply that ends it (R459 to R468, R491). The commands themselves stand in the files after this one. -/

namespace Sys2Proof.Machine

/-! ### The opcode table (R468) -/

/-- The part states that accept a command: All; All, with kind 1 only in RECOVERY; HELD, WATCH and ACTIVE; WATCH and
ACTIVE; HELD and WATCH; HELD (R468). -/
inductive Accept where
  | all | image | run | work | rest | held
deriving DecidableEq, Repr

/-- A row of the opcode table: the parameter length (none for DOMAIN_KEYS), the states, and class L (R468). -/
structure OpRow where
  plen : Option Nat
  accept : Accept
  long : Bool
deriving DecidableEq, Repr

/-- The opcode table (R468). -/
def opRow (o : Nat) : Option OpRow :=
  let row (n : Nat) (a : Accept) (long : Bool) : Option OpRow := some { plen := some n, accept := a, long := long }
  match o with
  | 0x0001 => row 0 .all false
  | 0x0002 => row 0 .all false
  | 0x0003 => row 0 .all false
  | 0x0004 => row 8 .run false
  | 0x0101 => row 8 .run false
  | 0x0102 => row 16 .work false
  | 0x0103 => row 1 .run false
  | 0x0201 => row 16 .image true
  | 0x0202 => row 2 .image true
  | 0x0203 => row 2 .image true
  | 0x0204 => row 0 .work true
  | 0x0301 => row 32 .work false
  | 0x0302 => row 1 .work true
  | 0x0303 => row 2 .work true
  | 0x0304 => some { plen := none, accept := .run, long := true }
  | 0x0401 => row 0 .run true
  | 0x0402 => row 1 .run false
  | 0x0403 => row 4 .run true
  | 0x0501 => row 3 .work true
  | 0x0502 => row 1 .work false
  | 0x0503 => row 1 .work true
  | 0x0504 => row 1 .work true
  | 0x0505 => row 0 .work true
  | 0x0601 => row 0 .run false
  | 0x0602 => row 8 .run true
  | 0x0603 => row 1 .run true
  | 0x0701 => row 4 .all false
  | 0x0702 => row 1 .work false
  | 0x0703 => row 4 .rest true
  | 0x0801 => row 0 .all false
  | 0x0802 => row 100 .held true
  | _ => none

/-- Step 6 of R462: the part state accepts the command. -/
def Accept.holds (a : Accept) (p : PState) (params : List Byte) : Bool :=
  match a, p with
  | _, .boot | _, .dormant => false
  | .all, _ => true
  | .image, .recovery => lget 0 params 0 == 1
  | .image, _ => true
  | _, .recovery => false
  | .run, _ => true
  | .work, q => q == .watch || q == .active
  | .rest, q => q == .held || q == .watch
  | .held, q => q == .held

/-! ### Packets (R459 to R462) -/

/-- The parameters of a packet. -/
def Packet.params (p : Packet) : List Byte := p.data.take p.plen.toNat

/-- The first 12 bytes of a packet. -/
def packetHead (opcode flags fmt tag plen : Nat) : List Byte :=
  natLE 2 opcode ++ natLE 1 flags ++ natLE 1 fmt ++ natLE 4 tag ++ natLE 4 plen

/-- HCRC of a packet (R459). -/
def packetCrc (head data : List Byte) : BitVec 32 := crc32c (head ++ [0, 0, 0, 0] ++ data)

/-- HCRC of a received packet matches. -/
def Packet.crcOk (p : Packet) : Bool :=
  packetCrc (packetHead p.opcode.toNat p.flags.toNat p.fmt.toNat p.tag.toNat p.plen.toNat) p.params == p.hcrc

/-- The parameter length that the opcode requires (R468, R474). -/
def OpRow.need (r : OpRow) (params : List Byte) : Nat := r.plen.getD (8 + 16 * fieldLE params 0 2)

/-- Steps 1 to 5 of R462: the status of the first check that fails. `lost` says that an assembly buffer has lost bytes
(R465), `short` that it holds fewer bytes than the packet. -/
def Packet.fault (p : Packet) (lost short : Bool) : Option Nat :=
  if lost || decide (4080 < p.plen.toNat) then some 0x11
  else if short || !p.crcOk then some 0x12
  else if p.fmt ≠ 1 ∨ bit p.flags 0 = true ∨ 4 ≤ p.flags.toNat ∨ (bit p.flags 1 = true ∧ p.opcode ≠ 0x0201) then
    some badParam
  else match opRow p.opcode.toNat with
    | none => some 0x10
    | some r => if p.plen.toNat = r.need p.params then none else some 0x11

/-- The reply packet of a command (R460). -/
def Running.packet (r : Running) : List Byte :=
  let head := packetHead r.status.toNat (1 + 2 * b2n (bit r.pkt.flags 1)) 1 r.pkt.tag.toNat r.reply.length
  head ++ natLE 4 (packetCrc head r.reply).toNat ++ r.reply

/-- The data of a reply that is not OK (R460). -/
def Failure.data (f : Failure) (opcode : BitVec 16) : List Byte :=
  natLE 2 opcode.toNat ++ natLE 2 f.reason ++ natLE 4 f.pos

/-! ### Acceptance (R463 to R466) -/

/-- A command that Keeper has accepted: its packet, its transport, and what R462 steps 1 to 5 find. -/
structure Submitted where
  pkt : Packet
  smbus : Bool
  fault : Option Nat
deriving DecidableEq, Repr

/-- Keeper serves command packets: no boot, DORMANT, reset, trip or fatal error (R466, R468, R538). -/
def State.keeperServes (s : State) : Bool :=
  s.power.part != .boot && s.power.part != .dormant && !s.power.resetting && !s.power.fatal && !s.power.tripped

/-- A GO write's packet, which Keeper has copied, is taken up. -/
def State.takeUp (s : State) : Option (State × Submitted) :=
  match s.keeper.submitted with
  | none => none
  | some p => some ({ s with keeper := { s.keeper with submitted := none } },
      { pkt := p, smbus := false, fault := p.fault false false })

/-- EXEC on the SMBus (R465): the assembled packet is submitted and the assembly buffer emptied. -/
def State.smbusExec (s : State) : State × Submitted :=
  let l := s.keeper.asm
  let p := readPacket l
  let k := { s.keeper with asm := [], asmOver := false, busy := true, src := true, opcode := p.opcode }
  ({ s with keeper := k }.count (kprBase + 0x68) 1,
    { pkt := p, smbus := true, fault := p.fault s.keeper.asmOver (decide (l.length < 16 + p.plen.toNat)) })

/-- A submission that Keeper accepts, if it does (R464 to R466). -/
def State.accept (s : State) (via : Via) : Option (State × Submitted) :=
  if !s.keeperServes || s.keeper.running.isSome then none
  else match via with
    | .accepted => s.takeUp
    | .mailbox => if s.keeper.busy then none else s.goWrite.takeUp
    | .smbus => if s.keeper.busy || s.keeper.smbOff then none else some s.smbusExec

/-! ### The work of a command -/

/-- A command's work: it goes on, or ends with a failure. -/
abbrev K := ExceptT Failure (StateM State)

/-- What the state says. -/
def look {α : Type} (f : State → α) : K α := do return f (← get)

/-- The state changes. -/
def alter (f : State → State) : K Unit := modify f

/-- A check: the first that fails ends the command. -/
def check (ok : Bool) (f : Failure) : K Unit := if ok then pure () else throw f

/-- BAD_PARAM at an offset of the parameters. -/
def demand (ok : Bool) (pos : Nat) : K Unit := check ok (failAt badParam pos)

/-- WRONG_STATE. -/
def permit (ok : Bool) : K Unit := check ok (fail wrongState)

/-- The op journal's STEP and PROG (R491). -/
def journal (step prog : Nat) : K Unit :=
  alter fun s =>
    let o := setField (setField s.pcm.opj 16 8 step) 32 32 prog
    { s with pcm := { s.pcm with opj := o } }

/-- ARG of the op journal: the domain, ring or image kind that a class L command names (R491). -/
def journalArg (opcode : Nat) (params : List Byte) : Nat :=
  if [0x0201, 0x0202, 0x0203, 0x0302, 0x0303, 0x0501, 0x0503, 0x0504].contains opcode then fieldLE params 0 1 else 0

/-- The op journal at the start of a class L command (R491). -/
def State.openJournal (s : State) (opcode : Nat) (params : List Byte) : State :=
  { s with pcm := { s.pcm with opj := BitVec.ofNat 64 (packBits [(0, opcode), (24, journalArg opcode params)]) } }

/-- The command is in progress, with the reply it will give (R466). -/
def State.runs (s : State) (x : Submitted) (opened : Bool) (status : Nat) (reply : List Byte) : State :=
  let r : Running := { pkt := x.pkt, smbus := x.smbus, status := BitVec.ofNat 16 status, reply := reply, announced := false,
                       opened := opened }
  { s with keeper := { s.keeper with running := some r } }

/-- The command is refused, with no other effect (R462). -/
def State.failsWith (s : State) (x : Submitted) (f : Failure) : State := s.runs x false f.code (f.data x.pkt.opcode)

/-- The op journal as it stands in another state. -/
def State.journalOf (s old : State) : State := { s with pcm := { s.pcm with opj := old.pcm.opj } }

/-- Steps 6 and 7 of R462: the part state, then the command's own checks and work. The op journal of a class L command is
open from its start, and a command that its checks refuse leaves it alone; one that fails in the hardware has started. -/
def State.serve (s : State) (x : Submitted) (work : List Byte → K (Nat × List Byte)) : State :=
  let p := x.pkt.params
  match opRow x.pkt.opcode.toNat with
  | none => s.failsWith x (fail 0x10)
  | some row =>
    if !row.accept.holds s.power.part p then s.failsWith x (fail wrongState)
    else
      let s0 := if row.long then s.openJournal x.pkt.opcode.toNat p else s
      match ((work p).run).run s0 with
      | (.ok (st, l), s') => s'.runs x row.long st l
      | (.error f, s') =>
        if f.code = hwFault then s'.runs x row.long f.code (f.data x.pkt.opcode) else (s'.journalOf s).failsWith x f

/-- A command row: turned away unless the transport brings a well-formed packet of its opcode while the port is idle. -/
def State.keeperRow (s : State) (via : Via) (opcode : Nat) (mine : List Byte → Bool)
    (work : List Byte → K (Nat × List Byte)) : State :=
  match s.accept via with
  | none => s
  | some (s', x) =>
    if x.fault.isSome || x.pkt.opcode.toNat != opcode || !mine x.pkt.params then s else s'.serve x work

/-- A command row whose work ends with OK. -/
def keeperNext (via : Via) (opcode : Nat) (work : List Byte → K (List Byte)) (s : State) :
    Host.Outcome State Fault Refusal :=
  .next (s.keeperRow via opcode (fun _ => true) fun p => do return (0, ← work p))

/-! ### Memory as Keeper reads it (R536) -/

/-- The MEMORY record of a key line or a line that Keeper cannot read: TYPE 0x04 (R362, R536, R589). -/
def State.keeperRecord (s : State) (line : Nat) : State :=
  s.record (s.lineLock line) 2 1 (sourceOrigin (s.memSource line))
    (memDetail (recPaddr line) (s.memSource line) 4 0 0 0 none (s.lineLock line))

/-- The key of the frame at `pa`; an unreadable one ends the command with HW_FAULT at `pos` (R536, R589). -/
def readKey (pa pos : Nat) : K Key := do
  alter fun s => s.keyRead pa
  if ← look (·.keyUnreadable pa) then
    alter fun s => s.keeperRecord (s.keyLine pa)
    throw (failAt hwFault pos)
  look (·.keyOf pa)

/-! ### Rows of the port -/

/-- MALFORMED_COMMAND: a submitted packet that steps 1 to 5 of R462 refuse gets an error reply. -/
def execMalformedCommand (via : Via) (s : State) : Host.Outcome State Fault Refusal :=
  match s.accept via with
  | none => .next s
  | some (s', x) =>
    match x.fault with
    | none => .next s
    | some code => .next (s'.failsWith x (fail code))

/-- SUBMISSION_WHILE_BUSY (R466): ignored, or NACKed with the assembly buffer kept, and counted. Turned away while the
port is idle. -/
def execSubmissionWhileBusy (via : Via) (s : State) : Host.Outcome State Fault Refusal :=
  let off := s.power.part == .dormant || s.power.resetting || s.power.tripped || (via == .smbus && s.keeper.smbOff)
  if s.keeper.busy && !off then .next (s.countErr (kprBase + 0x10) 1) else .next s

/-- The SMBus transport answers at its address (R465, R466). -/
def State.smbusAnswers (s : State) : Bool := s.keeperServes && !s.keeper.busy && !s.keeper.smbOff

/-- An SMBus transaction: discarded and counted when its PEC fails, otherwise counted and carried out (R465, R558). -/
def State.smbusTransaction (s : State) (pecOk : Bool) (f : State → State) : State :=
  if !s.smbusAnswers then s
  else if pecOk then f (s.count (kprBase + 0x68) 1)
  else s.countErr (kprBase + 0x60) 1

/-- SMB_ALERT_N driven low or released. -/
def State.smbAlert (s : State) (low : Bool) : State := { s with pins := { s.pins with smbAlertN := low } }

/-- SMBUS_BLOCK_WRITE (R465): the bytes are appended; those beyond 4,096 are dropped, which the next EXEC reports. -/
def execSmbusBlockWrite (bytes : List Byte) (pecOk : Bool) (s : State) : Host.Outcome State Fault Refusal :=
  .next (s.smbusTransaction pecOk fun s =>
    let l := s.keeper.asm ++ bytes
    { s with keeper := { s.keeper with asm := l.take 4096, asmOver := s.keeper.asmOver || decide (4096 < l.length) } })

/-- SMBUS_BLOCK_READ (R465): the next bytes of the reply buffer, none past its end; the alert pin is released. -/
def execSmbusBlockRead (count : Nat) (pecOk : Bool) (s : State) : Host.Outcome State Fault Refusal :=
  .next (s.smbusTransaction pecOk fun s =>
    let l := (s.keeper.smbReply.drop s.keeper.smbPos).take count
    (({ s with keeper := { s.keeper with smbPos := s.keeper.smbPos + l.length } }.smbAlert false).send (.smbus l)))

/-- SMBUS_BUFFER_RESET (R465): the assembly buffer is emptied and the read position rewound. -/
def execSmbusBufferReset (pecOk : Bool) (s : State) : Host.Outcome State Fault Refusal :=
  .next (s.smbusTransaction pecOk fun s => { s with keeper := { s.keeper with asm := [], asmOver := false, smbPos := 0 } })

/-- SMBUS_ALERT_RESPONSE (R465): the alert pin is released. -/
def execSmbusAlertResponse (s : State) : Host.Outcome State Fault Refusal := .next (s.smbAlert false)

/-! ### The reply (R464, R465, R467, R491) -/

/-- The reply reaches its transport. -/
def State.deliverReply (s : State) (r : Running) : State :=
  let l := r.packet
  if r.smbus then { s with keeper := { s.keeper with smbReply := l, smbPos := 0 } }.smbAlert true
  else { s with keeper := { s.keeper with replyBuf := putBytes s.keeper.replyBuf 0 l, done := true } }.msix 0 0

/-- The port is idle again: BUSY clears, the op journal of a class L command clears, and so does the journal that STATUS
has reported (R464, R491, R492). -/
def State.closePort (s : State) (r : Running) : State :=
  let told := r.status == 0x50
  let k := { s.keeper with busy := false, running := none, journal := if told then none else s.keeper.journal }
  { s with keeper := k, pcm := { s.pcm with opj := if told || r.opened then 0 else s.pcm.opj } }

/-- The end of a command: the reply, the port idle, and source 0x1_1510 (R464, R467). -/
def State.endCommand (s : State) (r : Running) : State := ((s.closePort r).deliverReply r).fire 0x11510

end Sys2Proof.Machine
end

