-- ==== Sys2Proof/Machine/KeeperInfo.lean ====
section
/-! DEFINITION. Keeper's reports, the scrubber's period and the customer key (16, R351, R469 to R472, R477, R478, R534). -/

namespace Sys2Proof.Machine

/-! ### IDENTIFY, STATUS, VERSIONS (R470 to R472) -/

/-- GRADE (R470): 0x49 industrial, 0x43 commercial. -/
def fuseGrade (f : FuseSet) : Byte := if f.industrial then 0x49 else 0x43

/-- The reply data of IDENTIFY (R470). CAGES is what Keeper finds at the call. -/
def State.identity (s : State) : List Byte :=
  natLE 2 0x3256 ++ [0xA1, fuseGrade s.nv.fuses] ++ natLE 8 s.nv.fuses.uid.toNat ++ natLE 4 (s.dmc 0).code
    ++ natLE 4 (s.dmc 1).code ++ natLE 8 s.installed ++ [Config.pcieLink, Config.cages s.draws &&& 0x0F, 0, 0]

/-- IDENTIFY. -/
def execIdentify (via : Via) (s : State) : Host.Outcome State Fault Refusal :=
  keeperNext via 0x0001 (fun _ => do
    let l ← look (·.identity)
    alter fun s => { s with draws := s.draws + 1 }
    return l) s

/-- FLAGS of STATUS (R471). -/
def State.statusFlags (s : State) : Nat :=
  let k := s.keeper
  packBits [(0, b2n k.needInit), (1, b2n k.heldImg[3].isSome), (2, b2n k.heldImg[2].isSome),
    (3, b2n k.heldImg[0].isSome), (4, b2n s.nv.fuses.development), (5, b2n s.nv.enrolled)]

/-- The journal fields of STATUS (R471, R491): JOP, JSTEP, JARG and JPROG. -/
def journalFields (j : Word) : List Byte :=
  natLE 2 (field j 0 16).toNat ++ [field j 16 8, field j 24 8] ++ natLE 8 (field j 32 32).toNat

/-- The reply data of STATUS (R471). -/
def State.statusData (s : State) : List Byte :=
  let cl := packBits ((List.finRange 4).map fun c => (2 * c.val, (s.power.clusters[c]).st.code))
  [BitVec.ofNat 8 s.power.part.code, BitVec.ofNat 8 cl, BitVec.ofNat 8 s.statusFlags, s.keeper.bootAlt.setWidth 8]
    ++ journalFields (s.keeper.journal.getD 0) ++ natLE 4 (s.reg (kprBase + 0x10)).toNat
    ++ [BitVec.ofNat 8 s.pcm.armed] ++ List.replicate 11 0

/-- STATUS: INTERRUPTED with the journal fields once after a reset that ended a long operation, otherwise OK (R471,
R492). -/
def execStatus (via : Via) (s : State) : Host.Outcome State Fault Refusal :=
  .next (s.keeperRow via 0x0002 (fun _ => true) fun _ => do
    let told ← look (·.keeper.journal.isSome)
    return (if told then 0x50 else 0, ← look (·.statusData)))

/-- A record of VERSIONS (R472). In RECOVERY the Keeper firmware in force is the boot ROM. -/
def versionRecord (kind wher : Nat) (rom : Bool) (i : Option Image) : List Byte :=
  let head : List Byte := [BitVec.ofNat 8 kind, BitVec.ofNat 8 wher]
  match i with
  | none => head ++ [if rom then 3 else 0xFF, 0] ++ List.replicate 28 0
  | some x => head ++ [x.source, if x.forced then 1 else 0] ++ natLE 4 x.version ++ natLE 2 x.epoch ++ List.replicate 6 0
      ++ (x.header.drop 16).take 16

/-- The reply data of VERSIONS (R472). -/
def State.versionData (s : State) : List Byte :=
  let rom (i : Fin 4) : Bool := s.power.part == .recovery && i == 0
  ((List.finRange 4).map fun i => versionRecord (i.val + 1) 0 (rom i) s.keeper.inForce[i]).flatten
    ++ ((List.finRange 4).map fun i => versionRecord (i.val + 1) 1 false s.keeper.heldImg[i]).flatten

/-- VERSIONS. -/
def execVersions (via : Via) (s : State) : Host.Outcome State Fault Refusal :=
  keeperNext via 0x0003 (fun _ => look (·.versionData)) s

/-! ### LOG_READ (R469, R534) -/

/-- The records from the later of `first` and the oldest held, at most `count`, and NEXT (R534). -/
def Log.readFrom (g : Log) (first : BitVec 32) (count : Nat) : BitVec 32 × List Rec :=
  if (first - g.next).toNat < 2 ^ 31 then (g.next, [])
  else
    let from' := g.recs.length - (g.next - first).toNat
    let l := (g.recs.drop from').take count
    (g.next - BitVec.ofNat 32 g.recs.length + BitVec.ofNat 32 (min from' g.recs.length + l.length), l)

/-- LOG_READ. -/
def execLogRead (via : Via) (s : State) : Host.Outcome State Fault Refusal :=
  keeperNext via 0x0004 (fun p => do
    let n := fieldLE p 4 2
    demand (decide (1 ≤ n) && decide (n ≤ 63)) 4
    demand (zeros p 6 2) 6
    let (next, l) ← look fun s => s.log.readFrom (BitVec.ofNat 32 (fieldLE p 0 4)) n
    return natLE 4 next.toNat ++ natLE 2 l.length ++ [0, 0] ++ (l.map Rec.bytes).flatten) s

/-! ### SCRUB_SET (R351) -/

/-- SCRUB_SET: PERIOD of both scrubbers; with 0 no pass is in progress. -/
def execScrubSet (via : Via) (s : State) : Host.Outcome State Fault Refusal :=
  keeperNext via 0x0402 (fun p => do
    let n : Byte := lget 0 p 0
    demand (decide (n.toNat ≤ 168)) 0
    alter fun s => (List.finRange 2).foldl (fun s m => s.modDmc m fun d =>
      { d with period := n, scrubActive := d.scrubActive && n != 0 }) s
    return []) s

/-! ### FUSE_READ and KEY_ENROLL (R477, R478, R517) -/

/-- The Anchor plan as 192 bytes (R517). -/
def anchorPlan (f : FuseSet) : List Byte :=
  let l := natLE 2 1 ++ natLE 2 192 ++ natLE 4 0 ++ natLE 2 f.anchorVcore.toNat ++ List.replicate 6 0
    ++ (f.anchorBody ++ List.replicate 168 0).take 168 ++ List.replicate 4 0
  l ++ natLE 4 (crc32c l).toNat

/-- FUSE_READ (R477). -/
def execFuseRead (via : Via) (s : State) : Host.Outcome State Fault Refusal :=
  keeperNext via 0x0801 (fun _ => look fun s =>
    hashBytes s.nv.fuses.vendorHash ++ hashBytes (if s.nv.enrolled then s.nv.custHash else 0)
      ++ [BitVec.ofNat 8 (b2n s.nv.fuses.development + 2 * b2n s.nv.enrolled), fuseGrade s.nv.fuses] ++ natLE 2 192
      ++ anchorPlan s.nv.fuses) s

/-- KEY_ENROLL (R478): the hash fuses are burned here, the ENROLLED fuse at the command's completion. -/
def execKeyEnroll (via : Via) (s : State) : Host.Outcome State Fault Refusal :=
  keeperNext via 0x0802 (fun p => do
    demand (fieldLE p 96 4 == 0x454E524C) 96
    permit (← look fun s => !s.nv.enrolled)
    demand (keyPoint (p.take 96)).isSome 0
    let h := BitVec.ofNat 384 (beNat (sha384 (p.take 96)))
    let old ← look (·.nv.custHash)
    check (old == 0 || old == h) (fail hwFault)
    alter fun s => { s with nv := { s.nv with custHash := h } }
    return []) s

end Sys2Proof.Machine
end

