-- ==== Sys2Proof/Machine/KeeperImages.lean ====
section
/-! DEFINITION. The flash and the image commands of Keeper (R296, R480 to R489). -/

namespace Sys2Proof.Machine

/-! ### The flash (R486, R487, R489) -/

/-- The byte offset of a slot of an image kind: slot A, or slot B behind it (R486). -/
def slotBase (kind : Nat) (slotB : Bool) : Nat :=
  (match kind with | 1 => 0x10000 | 2 => 0x210000 | 3 => 0x290000 | _ => 0x2B0000) + (if slotB then slotSize kind else 0)

/-- Bytes of the flash; an erased byte reads 0xFF. -/
def NonVolatile.flashBytes (v : NonVolatile) (off n : Nat) : List Byte := (upFrom off n).map (tget 0xFF v.flash)

/-- A range of the flash erased. -/
def NonVolatile.eraseFlash (v : NonVolatile) (off n : Nat) : NonVolatile :=
  { v with flash := tdrop v.flash fun a => decide (off ≤ a) && decide (a < off + n) }

/-- A table of flash bytes with a list programmed from `off` up. -/
def putFlash (t : Tbl Byte) (off : Nat) : List Byte → Tbl Byte
  | [] => t
  | b :: r => putFlash (tset 0xFF t off b) (off + 1) r

/-- A range erased and programmed. -/
def NonVolatile.program (v : NonVolatile) (off size : Nat) (l : List Byte) : NonVolatile :=
  let v := v.eraseFlash off size
  { v with flash := putFlash v.flash off l }

/-- The image in a slot: none when the first word reads as erased flash. -/
def NonVolatile.slotImage (v : NonVolatile) (kind : Nat) (slotB : Bool) : Option (List Byte) :=
  let o := slotBase kind slotB
  let head := v.flashBytes o 288
  if fieldLE head 0 4 = 0xFFFFFFFF then none
  else some (head ++ v.flashBytes (o + 288) (min (fieldLE head 32 4) (slotSize kind - 288)))

/-- SEQ and SEL of a boot-header copy, when it is valid (R487). -/
def NonVolatile.bootCopy (v : NonVolatile) (second : Bool) : Option (Nat × Byte) :=
  let l := v.flashBytes (if second then 0x1000 else 0) 20
  if fieldLE l 0 4 = 0x48425843 ∧ zeros l 9 7 = true ∧ crc32c (l.take 16) = BitVec.ofNat 32 (fieldLE l 16 4) then
    some (fieldLE l 4 4, lget 0 l 8)
  else none

/-- The boot-header copy in force: the valid one with the higher SEQ, the first when they are equal (R487). -/
def NonVolatile.bootInForce (v : NonVolatile) : Option (Bool × Nat × Byte) :=
  match v.bootCopy false, v.bootCopy true with
  | none, none => none
  | some (n, s), none => some (false, n, s)
  | none, some (n, s) => some (true, n, s)
  | some (n, s), some (m, t) => if n < m then some (true, m, t) else some (false, n, s)

/-- The slot selected for a kind: true is slot B (R487). -/
def NonVolatile.selected (v : NonVolatile) (kind : Nat) : Bool :=
  match v.bootInForce with | none => false | some (_, _, sel) => bit sel (kind - 1)

/-- Step 4 of R488: the copy not in force takes SEQ one higher and the other slot of `kind`. -/
def NonVolatile.selectOther (v : NonVolatile) (kind : Nat) : NonVolatile :=
  let (second, seq, sel) := v.bootInForce.getD (true, 0, 0)
  let sel := sel ^^^ BitVec.ofNat 8 (2 ^ (kind - 1))
  let l := natLE 4 0x48425843 ++ natLE 4 (seq + 1) ++ [sel] ++ List.replicate 7 0
  v.program (if second then 0 else 0x1000) 0x1000 (l ++ natLE 4 (crc32c l).toNat)

/-- FLAGS and DDRMAX of the configuration block; all defaults when its CRC or FORMAT is bad (R489). -/
def NonVolatile.configBlock (v : NonVolatile) : Byte × Byte :=
  let l := v.flashBytes 0x2000 12
  if fieldLE l 0 2 = 1 ∧ crc32c (l.take 8) = BitVec.ofNat 32 (fieldLE l 8 4) then (lget 0 l 2, lget 0 l 3) else (0, 0)

/-! ### Checking an image (R480, R481) -/

/-- The image kind as an index of Keeper's image tables. -/
def kindIndex (kind : Nat) : Fin 4 := Fin.ofNat 4 (kind + 3)

/-- The images of other kinds in force (R481). -/
def State.companions (s : State) (kind : Nat) : List Image :=
  (List.finRange 4).filterMap fun i => if i = kindIndex kind then none else s.keeper.inForce[i]

/-- What a plan must keep of the running part (R20, R501): nothing in HELD or at boot. -/
def State.planBound (s : State) : PlanBound :=
  if s.power.part = .watch ∨ s.power.part = .active then
    match s.plan with
    | some p => { installed := s.installed, regions := some p.regions, modes := some p.modes }
    | none => { installed := s.installed, regions := none, modes := some s.power.modes.toList }
  else { installed := s.installed, regions := none, modes := none }

/-! ### Images taking effect (R483) -/

/-- A customer part fills the window of every engine (R295, R332, R483). -/
def State.loadCustomer (s : State) (i : Image) : State := s.modEngines fun x => { x with cs := customerParts i.body }

/-- A plan comes into force: its sections reach their blocks (R19, R21). -/
def State.loadPlan (s : State) (i : Image) : State := { s with plan := some (readPlan i.body) }.adoptPlan

/-- An image in force. -/
def State.putInForce (s : State) (kind : Nat) (i : Image) : State :=
  let s := { s with keeper := { s.keeper with inForce := s.keeper.inForce.set (kindIndex kind) (some i) } }
  if kind = 3 then s.loadCustomer i else if kind = 4 then s.loadPlan i else s

/-- An image held. -/
def State.putHeld (s : State) (kind : Nat) (i : Option Image) : State :=
  { s with keeper := { s.keeper with heldImg := s.keeper.heldImg.set (kindIndex kind) i } }

/-! ### IMAGE_LOAD (R482, R483) -/

/-- The pieces of a host read: split at the maximum read request size and at each 4 KiB of bus address (R381). -/
def hostPieces (maxRead : Nat) : Nat → Nat → Nat → List (Nat × Nat)
  | 0, _, _ => []
  | fuel + 1, a, n =>
    if n = 0 then [] else
    let k := min n (min (max 1 maxRead) (4096 - a % 4096))
    (a, k) :: hostPieces maxRead fuel (a + k) (n - k)

/-- Keeper's reads of host memory leave as PF0 (R482). -/
def State.keeperReads (s : State) (addr n : Nat) : State :=
  (hostPieces (s.fn 0).maxRead n addr n).foldl (fun s p =>
    (s.count (hifCounter 7) 1).send (.hostRead 0 (BitVec.ofNat 64 p.1) p.2)) s

/-- The image's bytes from host memory; an unsuccessful completion is counted, recorded, and ends the command with
HW_FAULT (R391, R482). -/
def hostImage (addr n : Nat) (host : KeeperRead) : K (List Byte) := do
  let failed (outcome : Nat) : K (List Byte) := do
    alter fun s => (if outcome = 5 then s else s.requestFailed 0 outcome).hostRecord 0 outcome 3 0 addr
    throw (fail hwFault)
  if !(← look (·.mayIssue 0)) then failed 5
  else
    alter (·.keeperReads addr n)
    match host with
    | .data l => return l
    | .ur => failed 1
    | .ca => failed 2
    | .timeout => failed 3
    | .poisoned => failed 4

/-- The table of R483: the part state lets the image take effect or be held. -/
def State.loadPermitted (s : State) (kind : Nat) : Bool :=
  if kind = 2 then s.power.part == .held
  else if kind = 3 ∧ s.power.part = .held then s.keeper.inForce[1].isSome
  else true

/-- The image that a load checks: from host memory, or from a slot of the flash, where an empty slot is read as its first
288 bytes. -/
def imageBytes (kind source addr n : Nat) (host : KeeperRead) : K (List Byte) :=
  if source = 0 then hostImage addr n host
  else look fun s =>
    (s.nv.slotImage kind (source == 2)).getD (s.nv.flashBytes (slotBase kind (source == 2)) 288)

/-- IMAGE_LOAD. A row whose host bytes are not of LENGTH is turned away. -/
def execImageLoad (via : Via) (host : KeeperRead) (s : State) : Host.Outcome State Fault Refusal :=
  let fits (p : List Byte) : Bool := fieldLE p 1 1 != 0 ||
    match host with | .data l => l.length == fieldLE p 4 4 | _ => true
  let forced : Bool := match s.accept via with | some (_, x) => bit x.pkt.flags 1 | none => false
  .next (s.keeperRow via 0x0201 fits fun p => do
    let kind := fieldLE p 0 1
    let source := fieldLE p 1 1
    let n := fieldLE p 4 4
    demand (decide (1 ≤ kind) && decide (kind ≤ 4)) 0
    demand (decide (source ≤ 2)) 1
    demand (zeros p 2 2) 2
    demand ((n == 0) == (source != 0)) 4
    demand (source == 0 || fieldLE p 8 8 == 0) 8
    check (!forced || (← look (·.nv.fuses.development))) (fail badParam)
    permit (← look (·.loadPermitted kind))
    let l ← imageBytes kind source (fieldLE p 8 8) n host
    let from' : Byte := if source = 0 then 2 else BitVec.ofNat 8 (source - 1)
    match ← look fun s => checkImage s.nv s.planBound (s.companions kind) forced kind from' l with
    | .error x => throw x.f
    | .ok i =>
      let held := kind == 1 || (← look fun s => s.power.part != .held)
      alter fun s => if held then s.putHeld kind (some i) else s.putInForce kind i
      return (0, natLE 4 i.version ++ natLE 2 i.epoch ++ [if held then 1 else 0, 0]))

/-! ### IMAGE_VERIFY and IMAGE_COMMIT (R469, R484, R488) -/

/-- The image that WHICH names: 0 in force, 1 held, 2 slot A, 3 slot B (R469). -/
def State.imageOf (s : State) (kind which : Nat) : Option (List Byte) :=
  let bytes (i : Option Image) : Option (List Byte) := i.map fun x => x.header ++ x.body
  match which with
  | 0 => bytes s.keeper.inForce[kindIndex kind]
  | 1 => bytes s.keeper.heldImg[kindIndex kind]
  | 2 => s.nv.slotImage kind false
  | _ => s.nv.slotImage kind true

/-- RESULT of IMAGE_VERIFY (R469). -/
def State.verifyResult (s : State) (kind : Nat) (l : List Byte) : Nat :=
  let w : PlanBound := { installed := s.installed, regions := none, modes := none }
  match checkImage s.nv w (s.companions kind) false kind 0 l with
  | .ok _ => 0
  | .error x => x.stage

/-- IMAGE_VERIFY. -/
def execImageVerify (via : Via) (s : State) : Host.Outcome State Fault Refusal :=
  keeperNext via 0x0202 (fun p => do
    let kind := fieldLE p 0 1
    demand (decide (1 ≤ kind) && decide (kind ≤ 4)) 0
    demand (decide (fieldLE p 1 1 ≤ 3)) 1
    look fun s => match s.imageOf kind (fieldLE p 1 1) with
      | none => [0, 0, 0, 0, 0, 0, 1, 0]
      | some l => natLE 4 (fieldLE l 8 4) ++ natLE 2 (fieldLE l 12 2) ++ natLE 1 (s.verifyResult kind l) ++ [0]) s

/-- The slot of a kind erased and programmed: with the image, or with what a failed programming leaves (R488). -/
def State.programSlot (s : State) (kind : Nat) (l : List Byte) (ok : Bool) : State :=
  let o := slotBase kind (!s.nv.selected kind)
  if ok then { s with nv := s.nv.program o (slotSize kind) l }
  else
    let left := (Config.flashLeft s.draws).take (slotSize kind)
    { s with nv := s.nv.program o (slotSize kind) left, draws := s.draws + 1 }

/-- IMAGE_COMMIT (R488): steps 1 to 3 here; the boot header is written at the command's completion. `programmed` says
that the read-back finds the image. -/
def execImageCommit (via : Via) (programmed : Bool) (s : State) : Host.Outcome State Fault Refusal :=
  keeperNext via 0x0203 (fun p => do
    let kind := fieldLE p 0 1
    demand (decide (1 ≤ kind) && decide (kind ≤ 4)) 0
    demand (decide (fieldLE p 1 1 ≤ 1)) 1
    match ← look (·.imageOf kind (fieldLE p 1 1)) with
    | none => throw (fail wrongState)
    | some l =>
      alter (·.programSlot kind l programmed)
      journal 3 0
      check (programmed && (headerBad kind l).isNone && (← look fun s => (signatureFault s.nv kind l).isNone)) (fail hwFault)
      return []) s

/-! ### CSTORE_RELOAD (R296, R484) -/

/-- The generation advances, and each engine's window is written: at once where the cluster is not in RUN, the engine is
stopped or stands at an interruption point, and at its next interruption point elsewhere (R296). -/
def State.startReload (s : State) (cs : CStore) : State :=
  let s := { s with keeper := { s.keeper with generation := s.keeper.generation + 1, reload := some cs } }
  let one (s : State) (e : Eng) : State :=
    let now := (s.power.clusters[clusterOf e]).st != .run || (s.eng e).checkstop
    let s := s.modEng e fun x => { x with csDue := true, micro := if now then none else x.micro,
                                          wait := if now && x.micro.isSome then .none else x.wait }
    s.takeWindow e
  (List.finRange 32).foldl one s

/-- Every window is written: the held customer part is the one in force (R296, R484). -/
def State.endReload (s : State) : State :=
  match s.keeper.heldImg[2] with
  | none => s
  | some i =>
    let s := { s with keeper := { s.keeper with inForce := s.keeper.inForce.set 2 (some i), reload := none } }
    s.putHeld 3 none

/-- CSTORE_RELOAD. DEDUCED: it is refused while no vendor part is in force, since a customer part is loaded only beside one
(R463). -/
def execCstoreReload (via : Via) (s : State) : Host.Outcome State Fault Refusal :=
  keeperNext via 0x0204 (fun _ => do
    match ← look (·.keeper.heldImg[2]) with
    | none => throw (fail wrongState)
    | some i =>
      permit (← look (·.keeper.inForce[1].isSome))
      alter (·.startReload (customerParts i.body))
      return [← look (·.keeper.generation), 0, 0, 0]) s

end Sys2Proof.Machine
end

