-- ==== Sys2Proof/Machine/KeeperDomains.lean ====
section
/-! DEFINITION. Keeper's commands on domains, keys and memory (R32 to R43, R249, R250, R360, R473, R474, R493, R590). -/

namespace Sys2Proof.Machine

/-! ### DOMAIN_CREATE (R32, R33, R473, R590) -/

/-- The parameters of DOMAIN_CREATE (R473). -/
structure CreateArgs where
  dom : Nat
  btb : Nat
  ftm : Nat
  level : Nat
  root : Nat
  eqbase : Nat
  eqlogn : Nat
deriving DecidableEq, Repr

/-- The parameters read. -/
def readCreate (p : List Byte) : CreateArgs :=
  { dom := fieldLE p 0 1, btb := fieldLE p 1 1, ftm := fieldLE p 2 1, level := fieldLE p 3 1, root := fieldLE p 8 8,
    eqbase := fieldLE p 16 8, eqlogn := fieldLE p 24 1 }

/-- Step 1 of R590: the offset of the first field outside its range. -/
def createFieldBad (p : List Byte) : Option Nat :=
  let a := readCreate p
  let zero (o : Nat) : Bool × Nat := (zeros p o 1, o)
  firstWrong ([(decide (1 ≤ a.dom), 0), (decide (a.btb ≤ 1), 1), (decide (a.ftm ≤ 2), 2),
      (decide (1 ≤ a.level) && decide (a.level ≤ 7), 3)] ++ [4, 5, 6, 7].map zero
    ++ [(decide (4 ≤ a.eqlogn) && decide (a.eqlogn ≤ 12), 24)] ++ [25, 26, 27, 28, 29, 30, 31].map zero)

/-- The fault-level condition of R32: on every engine where `d` owns slots, its most urgent one is level `l`. -/
def State.faultLevelOk (s : State) (d l : Nat) : Bool :=
  (List.finRange 32).all fun e =>
    let own := (List.range 8).filter fun n => s.owner (slotOf e n) == d
    own.isEmpty || own.head? == some l

/-- Step 8 of R590 for one frame: normal memory locked to `d`. DESIGN CHOICE: a frame whose key cannot be read answers
HW_FAULT, as R589 has it for DOMAIN_KEYS; R590 gives this case no status. -/
def queueFrame (d f : Nat) : K Unit := do
  demand (← look fun s => (s.paClass (f * 4096)).isNormal) 16
  let k ← readKey (f * 4096) 16
  demand (k.lock.toNat == d) 16

/-- Steps 1 to 7 of R33, and the wake latches cleared (R196). DESIGN CHOICE: LASTVEC and XLVL keep their values, since R33
names neither. -/
def State.createDomain (s : State) (a : CreateArgs) : State :=
  let d := a.dom
  let s := (s.modDom d fun x => { x with root := some (BitVec.ofNat 46 a.root) }).tlbDrop fun t => t.dom.toNat == d
  let s := (s.slotsOf d).foldl (fun s i => let s := s.clearBtb i; if a.btb = 1 then s.newSecret i else s) s
  let s := (s.slotsOf d).foldl (fun s i => (s.modBank i fun _ => default).modSlot i fun x =>
    { x with state := .idle, qstop := false, nest := false, heldExc := none, deferred := [], wake := false }) s
  let s := (s.dropQueues d).modDom d fun x =>
    { x with eqbase := BitVec.ofNat 46 a.eqbase, eqlogn := BitVec.ofNat 4 a.eqlogn, eqpi := 0, eqpph := false, records := 0,
             flrq := false, scrambled := a.btb == 1, ftmpol := BitVec.ofNat 2 a.ftm, faultlvl := BitVec.ofNat 3 a.level }
  s.setDomState d .active

/-- DOMAIN_CREATE. -/
def execDomainCreate (via : Via) (s : State) : Host.Outcome State Fault Refusal :=
  keeperNext via 0x0301 (fun p => do
    match createFieldBad p with
    | some o => throw (failAt badParam o)
    | none =>
      let a := readCreate p
      permit (← look fun s => (s.dom a.dom).state == .absent)
      permit (← look fun s => s.verPlan != 0)
      permit (← look fun s => !s.keeper.needInit)
      demand (← look fun s => !(s.slotsOf a.dom).isEmpty) 0
      demand (← look fun s => s.faultLevelOk a.dom a.level) 3
      demand (← look fun s => a.root % 4096 == 0 && (s.paClass a.root).isNormal) 8
      let last := a.eqbase + 64 * 2 ^ a.eqlogn - 1
      (upFrom (a.eqbase / 4096) (last / 4096 + 1 - a.eqbase / 4096)).forM (queueFrame a.dom)
      alter (·.createDomain a)
      return []) s

/-! ### DOMAIN_QUIESCE, DOMAIN_RESUME, DOMAIN_DESTROY (R34 to R41) -/

/-- A domain number in the parameters: 1 to 255 (R25). -/
def tenant (p : List Byte) : K Nat := do
  demand (lget 0 p 0 != 0) 0
  return fieldLE p 0 1

/-- The quiesce sequence runs, unless the domain is past it. -/
def State.quiesceDomain (s : State) (d : Nat) : State :=
  if (s.dom d).state = .active then s.startQuiesce d else s

/-- What a command row leaves, with the domain of its packet settled when the row was taken up: a quiesce sequence that
has nothing in progress ends at once. -/
def State.settleAfter (s s' : State) : State :=
  match s.keeper.running, s'.keeper.running with
  | none, some r => s'.settle (fieldLE r.pkt.data 0 1)
  | _, _ => s'

/-- DOMAIN_QUIESCE without RESUME (R37). -/
def execDomainQuiesce (via : Via) (s : State) : Host.Outcome State Fault Refusal :=
  .next (s.settleAfter (s.keeperRow via 0x0303 (fun p => !bit (lget (0 : Byte) p 1) 0) fun p => do
    let d ← tenant p
    demand (decide ((lget (0 : Byte) p 1).toNat < 2)) 1
    permit (← look fun s => (s.dom d).state != .absent && (s.dom d).state != .destroying)
    alter (·.quiesceDomain d)
    return (0, [])))

/-- A QUIESCED domain is ACTIVE again: FLRQ and QSTOP clear, and the copies that are due start (R36, R392). -/
def State.resumeDomain (s : State) (d : Nat) : State :=
  let s := (s.slotsOf d).foldl (fun s i => s.modSlot i fun x => { x with qstop := false }) s
  ((s.modDom d fun x => { x with flrq := false }).setDomState d .active).startCopies d

/-- DOMAIN_RESUME: DOMAIN_QUIESCE with RESUME (R36). -/
def execDomainResume (via : Via) (s : State) : Host.Outcome State Fault Refusal :=
  .next (s.keeperRow via 0x0303 (fun p => bit (lget (0 : Byte) p 1) 0) fun p => do
    let d ← tenant p
    demand (decide ((lget (0 : Byte) p 1).toNat < 2)) 1
    permit (← look fun s => (s.dom d).state == .quiesced)
    alter (·.resumeDomain d)
    return (0, []))

/-- DOMAIN_DESTROY (R40): the quiesce sequence, then steps 1 to 3 of the erase; steps 4 to 6 end with the command. -/
def execDomainDestroy (via : Via) (s : State) : Host.Outcome State Fault Refusal :=
  .next (s.settleAfter (s.keeperRow via 0x0302 (fun _ => true) fun p => do
    let d ← tenant p
    permit (← look fun s => (s.dom d).state != .absent && (s.dom d).state != .destroying)
    alter fun s => if (s.dom d).state = .quiesced then s.beginErase d else s.quiesceDomain d
    return (0, [])))

/-! ### DOMAIN_KEYS (R250, R474) -/

/-- A range entry of DOMAIN_KEYS (R474). -/
structure KeyRange where
  base : Nat
  frames : Nat
  key : Key
deriving DecidableEq, Repr

/-- The entry at an offset, and whether its fields are well-formed. -/
def readRange (p : List Byte) (o : Nat) : KeyRange × Bool :=
  let flags : Byte := lget 0 p (o + 13)
  let r : KeyRange := { base := fieldLE p o 8, frames := fieldLE p (o + 8) 4,
                        key := { lock := lget 0 p (o + 12), share := field flags 0 2 } }
  (r, r.base % 4096 == 0 && r.frames != 0 && decide (flags.toNat < 3) && zeros p (o + 14) 2)

/-- A frame number lies in the range. -/
def KeyRange.holds (r : KeyRange) (f : Nat) : Bool := decide (r.base / 4096 ≤ f) && decide (f < r.base / 4096 + r.frames)

/-- Every frame of the range is DRAM, or every one is addressable SRAM of one cluster, or local store (R249). -/
def State.rangeInMemory (s : State) (r : KeyRange) : Bool :=
  match s.paClass r.base, s.paClass (r.base + r.frames * 4096 - 1) with
  | .dram, .dram => true
  | .sram c, .sram d => c == d
  | .local _, .local _ => true
  | _, _ => false

/-- The key-array line of the range that cannot be read, if there is one (R589). -/
def State.lostLine (s : State) (r : KeyRange) : Option Nat :=
  (s.mem.keyPoison.find? fun p => p.2 && (s.keyFrames p.1).any r.holds).map (·.1)

/-- Steps 1 to 3 of R249 for the frames of an entry (R474). -/
def rangeCheck (r : KeyRange) (pos : Nat) : K Unit := do
  demand (← look (·.rangeInMemory r)) pos
  check (← look fun s => s.mem.keys.all fun p => !(r.holds p.1 && s.erasing (p.1 * 4096))) (failAt wrongState pos)
  match ← look (·.lostLine r) with
  | none => pure ()
  | some l =>
    alter (·.keeperRecord l)
    throw (failAt hwFault pos)

/-- Keeper writes the key of a frame: a DRAM frame's key line is written at its DMC (R356). -/
def State.keeperKey (s : State) (f : Nat) (k : Key) : State :=
  let s := if s.paClass (f * 4096) = .dram then
      let l := s.keyLine (f * 4096)
      (((s.recall l).dramAwake l).writeIntent l).2
    else s
  s.setKey f k

/-- The keys of a range are set, and the translations of its frames removed (R249 step 6, R250). -/
def State.setRange (s : State) (r : KeyRange) : State :=
  let s := (upFrom (r.base / 4096) r.frames).foldl (fun s f => s.keeperKey f r.key) s
  s.tlbDrop fun t => r.holds t.frame.toNat

/-- DOMAIN_KEYS. -/
def execDomainKeys (via : Via) (s : State) : Host.Outcome State Fault Refusal :=
  keeperNext via 0x0304 (fun p => do
    let n := fieldLE p 0 2
    demand (decide (1 ≤ n) && decide (n ≤ 254)) 0
    demand (zeros p 2 6) 2
    let es := (List.range n).map fun i => 8 + 16 * i
    es.forM fun o => do
      let (r, ok) := readRange p o
      demand ok o
      rangeCheck r o
    let rs := es.map fun o => (readRange p o).1
    let total := (rs.map (·.frames)).sum
    alter fun s => rs.foldl State.setRange s
    journal 1 total
    return natLE 4 total) s

/-! ### MEM_INIT (R360) -/

/-- Every tenant domain is ABSENT and every cluster GATED, or the part is in HELD (R360). -/
def State.mayInit (s : State) : Bool :=
  s.power.part == .held || ((upFrom 1 255).all (fun d => (s.dom d).state == .absent)
    && s.power.clusters.toList.all (fun c => c.st == .gated && c.target.isNone))

/-- The address lies in the range of DRAM (R10). -/
def inDram (pa : Nat) : Bool := decide (pa < 0x4000000000)

/-- Physical memory in which every DRAM byte is zero, no DRAM line is poisoned, and every DRAM key is the default. -/
def Memory.zeroDram (m : Memory) : Memory :=
  { m with bytes := tdrop m.bytes inDram, keys := tdrop m.keys fun f => inDram (f * 4096),
           poison := tdrop m.poison fun l => inDram (l * 64), keyPoison := [], stale := [] }

/-- Steps 1, 2 and 4 of R360 at a channel: the fills and the scrubber's pass stop, every granule is TOUCHED, and the
scrubber starts again. -/
def Dmc.init (d : Dmc) : Dmc :=
  if d.enabled then
    { d with trackers := [], touched := [], full := true, scrubActive := d.period != 0, scrubPos := 0 }
  else d

/-- The lines that the read-back of R360 finds corrected, re-read ones among them, and those it finds uncorrectable. -/
def State.initErrors (s : State) : List Nat × List Nat :=
  let ls := (s.mem.errs.map (·.1)).filter s.dramLine
  let found (l : Nat) : Ecc × Nat := let (e, k, _) := s.arrayRead l; (e, k)
  (ls.filter fun l => (found l).1 != .uncorrectable && found l != (.clean, 0), ls.filter fun l => (found l).1 == .uncorrectable)

/-- Steps 1 to 4 of R360. -/
def State.initMemory (s : State) : State :=
  let (ce, ue) := s.initErrors
  let s := { s with mem := s.mem.zeroDram }
  let s := (ce ++ ue).foldl (fun s l => s.demandRead l 2) s
  (List.finRange 2).foldl (fun s m => (s.modDmc m Dmc.init).setReg (dmcBase m.val + 0x100) 0) s

/-- MEM_INIT: NEEDINIT clears with the command's completion. -/
def execMemInit (via : Via) (s : State) : Host.Outcome State Fault Refusal :=
  keeperNext via 0x0401 (fun _ => do
    permit (← look (·.mayInit))
    let (ce, ue) ← look (·.initErrors)
    alter (·.initMemory)
    journal 4 0
    return natLE 4 ce.length ++ natLE 4 ue.length) s

/-! ### ZEROIZE (R493) -/

/-- Every tenant domain ABSENT, with LD0's event for each change. -/
def State.dropTenants (s : State) : State :=
  (upFrom 1 255).foldl (fun s d => (s.setDomState d .absent).modDom d fun _ => Domain.absent) s

/-- Steps 1 to 4 of R493 beside the domains and the rings: secrets, Control Store, on-chip memory and the first-touch
map. Banks, slots and engines stand as before a first start. -/
def State.eraseChip (s : State) : State :=
  let k := { s.keeper with inForce := ((s.keeper.inForce.set 1 none).set 2 none).set 3 none }
  { s with
    banks := [], slots := [], engines := [], homes := [], l2 := [], queues := [], pairs := [], plan := none, events := [],
    owners := [], planDue := false, keeper := k,
    mem := { s.mem with bytes := [], keys := [], poison := [], keyPoison := [], stale := [] },
    dmcs := s.dmcs.map fun d => { d with touched := [], full := false, trackers := [] } }

/-- Every cluster GATED, with no transition in progress. -/
def Power.gateAll (p : Power) : Power := { p with clusters := Vector.replicate 4 default, ups := [], dormantDue := false }

/-- Every cluster GATED, and every cluster PLL off (R498, R508). -/
def State.gateClusters (s : State) : State := { s with power := s.power.gateAll, pcm := { s.pcm with cpll := 0 } }

/-- ZEROIZE: step 5 leaves nothing to read that the first-touch map does not hide already; the part is in HELD at the
command's completion. -/
def execZeroize (via : Via) (s : State) : Host.Outcome State Fault Refusal :=
  keeperNext via 0x0403 (fun p => do
    demand (fieldLE p 0 4 == 0x5A45524F) 0
    alter fun s =>
      let s := (List.finRange 4).foldl (fun s r => s.leaveRing r .off) s
      s.dropTenants.eraseChip.gateClusters
    journal 5 0
    return []) s

end Sys2Proof.Machine
end

