-- ==== Sys2Proof/Machine/KeeperRings.lean ====
section
/-! DEFINITION. Keeper's commands on rings and the plan switch (R21, R273, R395, R416 to R419, R424, R454, R484, R485). -/

namespace Sys2Proof.Machine

/-- A ring number in the parameters. -/
def ringOf (p : List Byte) : K RingId := do
  demand (decide (fieldLE p 0 1 ≤ 3)) 0
  return Fin.ofNat 4 (fieldLE p 0 1)

/-- The sections of a ring in a plan. -/
def Plan.ring (p : Plan) (r : RingId) : Option RingPlan := (p.rings.find? fun x => x.1 == r).map (·.2)

/-! ### RING_START and RING_STOP (R395, R417, R419) -/

/-- A ring block that has trained: its address and role, and the plan's table in table 0. -/
def Ring.start (x : Ring) (p : RingPlan) (q : List QMapEntry) (addr63 asHolder : Bool) : Ring :=
  { x with state := .trained, addr63 := addr63, asHolder := asHolder, hold := addr63 == asHolder, tsel := false,
           table0 := some p, table1 := none, qmap0 := q, qmap1 := [], ver := 2, loop := 0, limx := false,
           east := Port.aligned, west := Port.aligned }

/-- The I2C bus and the multiplexer channel of a cage's module (R394). -/
def cageBus (r : RingId) (side : Side) : Nat × Nat :=
  (r.val / 2, 2 * (r.val % 2) + match side with | .east => 0 | .west => 1)

/-- A cage's module identification declares support for 3.125 Gbaud (R394, R395). PRESUMED: SFF-8472, which R394 names,
gives the nominal rate in units of 100 MBd in byte 12 of the identification. -/
def declares : Option (List Byte) → Bool
  | some id => decide (31 ≤ (lget 0 id 12).toNat)
  | none => false

/-- Keeper reads the identification of both cages (R394). -/
def State.readCages (s : State) (r : RingId) : State :=
  let one (s : State) (side : Side) : State := s.send (.sfpRead (cageBus r side).1 (cageBus r side).2)
  one (one s .east) .west

/-- RING_START: `modules` are the identifications of the east and the west cage's module, none where a cage is empty, and
`trained` says whether training succeeds; turned down with WRONG_STATE while the bypass is open. -/
def execRingStart (via : Via) (modules : Option (List Byte) × Option (List Byte)) (trained : Bool) (s : State) : Host.Outcome State Fault Refusal :=
  keeperNext via 0x0501 (fun p => do
    let r ← ringOf p
    let addr := fieldLE p 1 1
    demand (addr == 0 || addr == 63) 1
    demand (decide (fieldLE p 2 1 ≤ 1)) 2
    match ← look fun s => s.plan.bind fun q => (q.ring r).map fun x => (x, q.qmap) with
    | none => throw (failAt badParam 0)
    | some (t, q) =>
      permit (← look fun s => (s.ring r).state == .off || (s.ring r).state == .trained)
      alter (·.readCages r)
      check (declares modules.1 && declares modules.2 && trained) (fail hwFault)
      alter fun s => s.modRing r fun x => x.start t q (addr == 63) (lget 0 p 2 == 0)
      return []) s

/-- RING_STOP: the pin is released and the cages powered down. -/
def execRingStop (via : Via) (s : State) : Host.Outcome State Fault Refusal :=
  keeperNext via 0x0502 (fun p => do
    let r ← ringOf p
    alter fun s => s.leaveRing r .off
    return []) s

/-! ### RING_INSERT and RING_BYPASS (R418, R419) -/

/-- Steps 1 to 4 of R418: the pin low, and the role that the part takes: a beacon of the other controller makes it the
standby. -/
def State.insertRing (s : State) (r : RingId) (other : Option Beacon) : State :=
  (s.ringPin r true).modRing r fun x =>
    let holder := x.asHolder && other.isNone
    let followed := match other with | some b => b.hold | none => !x.addr63
    { x with state := .inserting, holder := holder, hold := if holder then x.addr63 else followed, sync := holder, loop := 0,
             miss := 0, followed := 0, measuring := none, spoiled := false, sdly := 0, limx := false,
             east := Port.aligned, west := Port.aligned }

/-- Both transmitters send IDLE (R418 step 1). -/
def State.sendIdle (s : State) (r : RingId) : State := (s.send (.sideTx r .east false)).send (.sideTx r .west false)

/-- RING_INSERT: `aligned` are the bits that the east and the west receiver see while they align at step 3, `other` is a beacon
of the other controller that arrives within 3 cycles. The ring is INSERTED with the command's completion. -/
def execRingInsert (via : Via) (aligned : List Bool × List Bool) (other : Option Beacon) (s : State) : Host.Outcome State Fault Refusal :=
  keeperNext via 0x0503 (fun p => do
    let r ← ringOf p
    permit (← look fun s => (s.ring r).state == .trained)
    check (aligns aligned.1 && aligns aligned.2) (fail hwFault)
    alter fun s => (s.sendIdle r).insertRing r other
    journal 4 0
    return []) s

/-- RING_BYPASS: a holder with a standby first hands the beacon over; otherwise the pin is released at once. -/
def execRingBypass (via : Via) (s : State) : Host.Outcome State Fault Refusal :=
  keeperNext via 0x0504 (fun p => do
    let r ← ringOf p
    permit (← look fun s => (s.ring r).state == .inserted)
    alter fun s =>
      let x := s.ring r
      if x.holder && x.sdly != 0 then s.modRing r fun x => { x with handoff := .asked } else s.leaveRing r .trained
    return []) s

/-! ### PLAN_SWITCH (R21, R273, R424) -/

/-- A slot may pass from its owner to `new` (R273): it is idle, nothing is pending in it, and neither owner is a live
tenant. -/
def State.slotFree (s : State) (i new : Nat) : Bool :=
  let old := s.owner i
  let dead (d : Nat) : Bool := d == 0 || (s.dom d).state == .absent
  old == new || ((s.slot i).state == .idle && (s.slot i).pend == 0 && dead old && dead new)

/-- The held plan keeps the owners that R273 protects. -/
def State.ownersFree (s : State) (p : Plan) : Bool := (List.range 256).all fun i => s.slotFree i (ownerIn p.owners i)

/-- The ring with the new plan's table and map as the ones not in force. -/
def Ring.setOther (x : Ring) (p : Option RingPlan) (q : List QMapEntry) : Ring :=
  if x.tsel then { x with table0 := p, qmap0 := q } else { x with table1 := p, qmap1 := q }

/-- Step 1 of PLAN_SWITCH at one ring: a running ring takes the new table beside the one in force, and a holder starts to
load it into every JOINED station and into the standby, when one is there (R424, R454). DEDUCED: a station that is JOINING
gets it too, since stations not JOINED receive the new table when they join. -/
def Ring.loadPlan (x : Ring) (p : Option RingPlan) (q : List QMapEntry) : Ring :=
  if x.state != .inserted then x
  else
    let x := { x.setOther p q with confirmed := 0, loadFailed := false }
    if x.holder then
      let x := { x with standbyLoad := if x.sdly = 0 then none else some (TableLoad.first (!x.tsel)) }
      (x.stations.filter fun y => y.2.st == 1 || y.2.st == 2).foldl (fun x y => x.startLoad y.1 (!x.tsel)) x
    else x

/-- The plan that is held. -/
def State.heldPlan (s : State) : Option Plan := (s.keeper.heldImg[3]).map fun i => readPlan i.body

/-- PLAN_SWITCH: loading starts; the switch is announced when every station has confirmed, and takes effect with the
command's completion. -/
def execPlanSwitch (via : Via) (s : State) : Host.Outcome State Fault Refusal :=
  let s' := s.keeperRow via 0x0505 (fun _ => true) fun _ => do
    match ← look (·.heldPlan) with
    | none => throw (fail wrongState)
    | some p =>
      permit (← look (·.ownersFree p))
      alter fun s => (List.finRange 4).foldl (fun s r => s.modRing r fun x => x.loadPlan (p.ring r) p.qmap) s
      journal 1 0
      return (0, [])
  .next (if s.keeper.running.isSome then s' else s'.planAnnounce)

/-- The announced cycle of every held ring has come, or its last cycle before (R424 step 3). -/
def State.switchReached (s : State) : Bool :=
  s.rings.toList.all fun x => !x.isHeld || match x.swcyc with | none => true | some c => decide ((c - x.cycle).toNat ≤ 1)

/-- The held plan becomes the plan in force. -/
def State.planInForce (s : State) (i : Image) (p : Plan) : State :=
  let k := { s.keeper with inForce := s.keeper.inForce.set 3 (some i), heldImg := s.keeper.heldImg.set 3 none }
  { s with keeper := k, plan := some p }

/-- A ring that is not running takes its table at once. -/
def Ring.takePlan (x : Ring) (p : Option RingPlan) (q : List QMapEntry) : Ring :=
  if x.state = .trained then { ({ x with tsel := !x.tsel }.setOther p q) with tsel := x.tsel } else x

/-- Compass adopts the plan at the next cycle boundary of a running ring, or now when none runs (R21). -/
def State.planAwaits (s : State) : State :=
  if s.rings.toList.any fun x => x.state == .inserted then { s with planDue := true } else s.adoptPlan

/-- PLAN_SWITCH completes (R21). -/
def State.switchPlan (s : State) : State :=
  match s.keeper.heldImg[3], s.heldPlan with
  | some i, some p =>
    ((List.finRange 4).foldl (fun s r => s.modRing r fun x => x.takePlan (p.ring r) p.qmap) (s.planInForce i p)).planAwaits
  | _, _ => s

/-- RING_INSERT completes (R418 step 5). -/
def State.ringInserted (s : State) (r : RingId) : State :=
  s.modRing r fun x => if x.state = .inserting then { x with state := .inserted } else x

end Sys2Proof.Machine
end

