-- ==== Sys2Proof/Machine/Power.lean ====
section
/-! DEFINITION. Part states, clusters, arms and timers (17): how a target is formed and checked, the cluster transitions,
and what a timer and an arm do (R494 to R504, R511). -/

namespace Sys2Proof.Machine

/-! ### Targets (R499) -/

/-- A target: a part state, coded as POWER_SET codes it, and the state of every cluster. -/
structure Target where
  part : Nat
  clusters : Vector CState 4
deriving DecidableEq, Repr

/-- The cluster state that a CLUSTER field names; none for 0xFF (R469). -/
def fieldState (b : Byte) : Option CState :=
  if b = 0 then some .gated else if b = 1 then some .idle else if b = 2 then some .run else none

/-- Every cluster of a target is GATED. -/
def allGated (v : Vector CState 4) : Bool := v.all (· == .gated)

/-- The cluster states of a target: a field of 0xFF takes the current value. -/
def Power.targetClusters (p : Power) (fields : List Byte) : Vector CState 4 :=
  Vector.ofFn fun c : Fin 4 => (fieldState (lget 0xFF fields c.val)).getD p.clusters[c].st

/-- A target from its fields: PART 0xFF takes WATCH when every target cluster is GATED, and ACTIVE otherwise. -/
def Power.target (p : Power) (part : Byte) (fields : List Byte) : Target :=
  let v := p.targetClusters fields
  { part := if part = 0xFF then (if allGated v then 2 else 3) else part.toNat, clusters := v }

/-- Steps 1 and 2 of R499 for the fields at offset `o` of the parameters: the offset of the first that is wrong. -/
def Power.targetBad (p : Power) (params : List Byte) (partAt clustersAt : Nat) (zerosAt : List Nat) : Option Nat :=
  let part : Byte := lget 0 params partAt
  let fields := (params.drop clustersAt).take 4
  let one (k : Nat) : Bool × Nat :=
    let b : Byte := lget 0 fields k
    (b == 0xFF || decide (b.toNat ≤ 2), clustersAt + k)
  let t := p.target part fields
  let fits := (t.part != 2 || allGated t.clusters) && (t.part != 3 || !allGated t.clusters)
  let partOk := part == 0xFF || (decide (1 ≤ part.toNat) && decide (part.toNat ≤ 3))
  firstWrong ([(partOk, partAt)] ++ zerosAt.map (fun o => (zeros params o 1, o)) ++ (List.range 4).map one
    ++ [(fits, partAt)])

/-! ### Transitions (R498, R500, R501) -/

/-- The part state follows the clusters: WATCH when all are GATED, ACTIVE otherwise (R494). -/
def Power.follow (p : Power) : Power :=
  if p.part = .watch ∨ p.part = .active then
    { p with part := if p.clusters.all (fun c => c.st == .gated) then .watch else .active }
  else p

/-- A channel runs in ACTIVE; it leaves self-refresh as the part becomes ACTIVE (R494, R495). -/
def State.follow (s : State) : State :=
  let s := { s with power := s.power.follow }
  if s.power.part = .active then { s with dmcs := s.dmcs.map fun d => { d with selfRefresh := false } } else s

/-- A cluster begins a transition. -/
def Power.begin (p : Power) (c : Fin 4) (t : CState) : Power :=
  { p with clusters := p.clusters.set c { p.clusters[c] with target := some t } }

/-- A power-up is in progress. -/
def Power.rising (p : Power) : Bool :=
  p.clusters.any fun c => match c.target with | some t => decide (c.st.code < t.code) | none => false

/-- The next power-up begins when none is in progress (R500). -/
def Power.nextUp (p : Power) : Power :=
  if p.rising then p else
  match p.ups with
  | [] => p
  | (c, t) :: rest => { p with ups := rest }.begin c t

/-- Every power-down of a target begins at once, and its power-ups one after another in ascending order (R500). -/
def Power.start (p : Power) (t : Vector CState 4) : Power :=
  let down (p : Power) (c : Fin 4) : Power := if t[c].code < p.clusters[c].st.code then p.begin c t[c] else p
  let p' := (List.finRange 4).foldl down p
  let up := (List.finRange 4).filter fun c => decide (p.clusters[c].st.code < t[c].code)
  { p' with ups := up.map fun c => (c, t[c]) }.nextUp

/-- The cluster SRAM modes that the part takes as it leaves HELD or wakes: those of the plan in force, or ADDRESSED
(R13, R501). -/
def State.setModes (s : State) : State :=
  let l := match s.plan with | some p => p.modes | none => []
  { s with power := { s.power with modes := Vector.ofFn fun c : Fin 4 => lget 0 l c.val, modesSet := true } }

/-- The part leaves HELD (R501). -/
def State.leaveHeld (s : State) : State :=
  if s.power.part = .held then let s := s.setModes; { s with power := { s.power with part := .watch } } else s

/-- A target is applied (R500). -/
def State.applyTarget (s : State) (t : Vector CState 4) : State :=
  let s := s.leaveHeld
  { s with power := s.power.start t }

/-- No transition is in progress or waits. -/
def Power.settled (p : Power) : Bool := !p.clusters.any (fun c => c.target.isSome) && p.ups.isEmpty

/-- A cluster may run: a vendor part and a plan are in force (R490, R499). -/
def State.mayRun (s : State) : Bool := s.verCst != 0 && s.verPlan != 0

/-- The transitions happen: the part is neither in reset nor stopped, and not DORMANT. -/
def State.powered (s : State) : Bool :=
  !s.power.resetting && !s.power.fatal && !s.power.tripped && s.power.part != .dormant && s.power.part != .boot

/-! ### POWER_SET (R499 to R501) -/

/-- An arm can wake the part: class TIMER, GPIO or SMBUS (R499, R503). -/
def Arm.wakes (a : Arm) : Bool := a.evclass == 1 || a.evclass == 2 || a.evclass == 3

/-- Step 4 of R499. -/
def State.mayDorm (s : State) : Bool :=
  s.power.part == .watch && (upFrom 1 255).all (fun d => (s.dom d).state == .absent)
    && s.rings.all (fun x => x.state == .off) && s.pcm.arms.any (fun a => a.any Arm.wakes)

/-- POWER_SET: turned away while a transition is in progress, as it runs after that (R504). A target of DORMANT changes no
cluster; the entry follows the reply. -/
def execPowerSet (via : Via) (s : State) : Host.Outcome State Fault Refusal :=
  if s.power.busy then .next s
  else keeperNext via 0x0101 (fun p => do
    match ← look fun s => s.power.targetBad p 0 4 [1, 2, 3] with
    | some o => throw (failAt badParam o)
    | none =>
      let part : Byte := lget 0 p 0
      let t ← look fun s => s.power.target part ((p.drop 4).take 4)
      permit (← look fun s => s.power.part != .held || (part != 0xFF && part != 1))
      permit (t.part != 1 || (← look (·.mayDorm)))
      permit (!t.clusters.any (· == .run) || (← look (·.mayRun)))
      alter fun s => if t.part = 1 then s else s.applyTarget t.clusters
      return []) s

/-! ### ARM_WAKE and DISARM (R503, R504) -/

/-- EVARG is one that the class defines (R503). -/
def evargOk (cls arg : Nat) : Bool :=
  match cls with
  | 1 => decide (arg < 32)
  | 2 => arg / 8 % 2 == 0 && arg / 16 % 4 != 0 && decide (arg < 64)
  | 4 => decide (arg < 2 ^ 20) && (sourceAllows [] arg 0).isSome
  | _ => arg == 0

/-- An arm set or cleared; its event has not occurred yet. -/
def State.setArm (s : State) (i : Fin 8) (a : Option Arm) : State :=
  { s with pcm := { s.pcm with arms := s.pcm.arms.set i a, due := s.pcm.due &&& ~~~(BitVec.ofNat 8 (2 ^ i.val)) } }

/-- ARM_WAKE. -/
def execArmWake (via : Via) (s : State) : Host.Outcome State Fault Refusal :=
  keeperNext via 0x0102 (fun p => do
    let i := fieldLE p 0 1
    let cls := fieldLE p 1 1
    let arg := fieldLE p 4 4
    let part : Byte := lget 0 p 8
    demand (decide (i ≤ 7)) 0
    demand (decide (1 ≤ cls) && decide (cls ≤ 5)) 1
    demand (zeros p 2 1) 2
    demand (zeros p 3 1) 3
    demand (evargOk cls arg) 4
    match ← look fun s => s.power.targetBad p 8 9 [13, 14, 15] with
    | some o => throw (failAt badParam o)
    | none =>
      demand (part != 1) 8
      let a : Arm := { evclass := lget 0 p 1, evarg := BitVec.ofNat 32 arg, part := part, clusters := (p.drop 9).take 4 }
      alter (·.setArm (Fin.ofNat 8 i) (some a))
      return []) s

/-- DISARM: one arm, or every arm. -/
def execDisarm (via : Via) (s : State) : Host.Outcome State Fault Refusal :=
  keeperNext via 0x0103 (fun p => do
    let i := fieldLE p 0 1
    demand (decide (i ≤ 7) || i == 0xFF) 0
    alter fun s => if i = 0xFF then (List.finRange 8).foldl (fun s k => s.setArm k none) s
      else s.setArm (Fin.ofNat 8 i) none
    return []) s

/-! ### Arms that fire (R504) -/

/-- The firing of an arm in Keeper's log (R528, R531). -/
def State.logArm (s : State) (i : Fin 8) (a : Arm) (idle' : Bool) : State :=
  s.logRec { seq := 0, sev := 4, kind := 0x10, dom := 0, origin := 0x3A, time := s.pcm.chrono,
             detail := [BitVec.ofNat 8 i.val, a.evclass, BitVec.ofNat 8 (b2n idle')], count := 1, flags := 0 }

/-- PCM.ARMSTAT.NOEFFECT of an arm. -/
def State.markNoEffect (s : State) (i : Fin 8) (b : Bool) : State :=
  if b then { s with pcm := { s.pcm with noEffect := s.pcm.noEffect ||| BitVec.ofNat 8 (2 ^ i.val) } } else s

/-- A fired arm's target applied: cluster targets of RUN are left unchanged while no images allow them, and an arm whose
target the part meets already, or that the part cannot take, has no effect. `woke` says that the arm ended DORMANT. -/
def State.applyArm (s : State) (i : Fin 8) (a : Arm) (woke : Bool) : State :=
  let barred (c : Fin 4) : Bool :=
    fieldState (lget 0xFF a.clusters c.val) == some .run && !s.mayRun && s.power.clusters[c].st != .run
  let some' := (List.finRange 4).any barred
  let fields := (List.finRange 4).map fun c => if barred c then (0xFF : Byte) else lget 0xFF a.clusters c.val
  let t := s.power.target a.part fields
  let same := (List.finRange 4).all fun c => t.clusters[c] == s.power.clusters[c].st
  let fits := (t.part != 2 || allGated t.clusters) && (t.part != 3 || !allGated t.clusters)
  let none' := some' || (!woke && (same || !fits))
  let s := (s.markNoEffect i none').logArm i a none'
  if fits || woke then s.applyTarget t.clusters else s

/-- Work that delays an arm: a transition, POWER_SET, MEM_INIT, SELFTEST or ZEROIZE (R504). -/
def State.armsBlocked (s : State) : Bool :=
  !s.power.settled || match s.keeper.running with
    | some r => [0x0101, 0x0401, 0x0703, 0x0403].contains r.pkt.opcode.toNat
    | none => false

/-- The oldest fired arm is applied, when nothing delays it. -/
def State.runArm (s : State) : State :=
  match s.pcm.firing with
  | [] => s
  | (i, a) :: rest =>
    if s.armsBlocked || !(s.power.part == .watch || s.power.part == .active) then s
    else { s with pcm := { s.pcm with firing := rest } }.applyArm i a false

/-- Fired arms are applied, in order, until one of them must wait. -/
def State.runArms (s : State) : State := s.pcm.firing.foldl (fun s _ => s.runArm) s

/-- Fired arms that a reset or a failed wake drops: they have no effect. -/
def State.dropArms (s : State) : State :=
  let s' := s.pcm.firing.foldl (fun s x => (s.markNoEffect x.1 true).logArm x.1 x.2 true) s
  { s' with pcm := { s'.pcm with firing := [] } }

/-- The arm's event can fire it in the present state, and has occurred (R503). -/
def State.armReady (s : State) (i : Fin 8) (a : Arm) : Bool :=
  let happened := bit s.pcm.due i.val
  match s.power.part with
  | .dormant => (a.evclass == 1 && happened) || a.evclass == 2 || a.evclass == 3
  | .watch | .active => a.evclass == 2 || ((a.evclass == 1 || a.evclass == 4 || a.evclass == 5) && happened)
  | _ => false

/-- The GPIO pin of an arm after its edge (R503). -/
def gpioAfter (pins : BitVec 16) (arg : BitVec 32) : BitVec 16 :=
  let k := (field arg 0 3).toNat
  let high := if field arg 4 2 = 1 then true else if field arg 4 2 = 2 then false else !bit pins k
  setField pins k 1 (b2n high)

/-- PCM answers the arm that wakes the part: PCM.WAKECAUSE, WAKE_N and CLKREQ_N (R507 step 1). -/
def State.wakeBy (s : State) (i : Fin 8) (a : Arm) : State :=
  { s with pcm := { s.pcm with wakeArm := BitVec.ofNat 3 i.val, wakeValid := true, wakeClass := a.evclass },
           pins := { s.pins with wakeN := true, clkreqN := true } }

/-- ARM_FIRE: the arm is cleared, its FIRED bit set, and its target applied, or the wake begun. Turned away when the event
cannot fire the arm here. The event of a GPIO or SMBUS arm comes with this command; that of any other has set its due
bit. -/
def execArmFire (i : Fin 8) (s : State) : Host.Outcome State Fault Refusal :=
  match s.pcm.arms[i] with
  | none => .next s
  | some a =>
    if !s.armReady i a || s.power.resetting || s.power.fatal || s.power.tripped then .next s
    else
      let s := if a.evclass = 2 then { s with pins := { s.pins with gpioIn := gpioAfter s.pins.gpioIn a.evarg } } else s
      let first := s.pcm.firing.isEmpty
      let s := s.setArm i none
      let s := { s with pcm := { s.pcm with fired := s.pcm.fired ||| BitVec.ofNat 8 (2 ^ i.val),
                                            firing := s.pcm.firing ++ [(i, a)] } }
      if s.power.part = .dormant then .next (if first then s.wakeBy i a else s) else .next s.runArms

/-! ### Timers (R511) -/

/-- A timer's control and compare registers after it fires at `now`: EN clears without a PERIOD; otherwise the compare
value passes the Chronometer, and MISSED grows by the periods skipped. -/
def timerFired (ctl cmp now : Word) : Word × Word :=
  let ctl := setField ctl 1 1 1
  let period := (field ctl 32 32).toNat
  if period = 0 then (setField ctl 0 1 0, cmp)
  else
    let k := (now.toNat - cmp.toNat) / period + 1
    (setField ctl 16 16 (min 0xFFFF ((field ctl 16 16).toNat + (k - 1))), cmp + BitVec.ofNat 64 (k * period))

/-- A timer reaches the arms of class TIMER that name it (R503). -/
def State.armTimer (s : State) (t : Nat) : State :=
  if s.power.part = .watch ∨ s.power.part = .active ∨ s.power.part = .dormant then
    { s with pcm := s.pcm.meet fun a => a.evclass == 1 && a.evarg.toNat == t }
  else s

/-- TIMER_FIRE: an enabled timer whose compare value the Chronometer has reached; turned away otherwise. An event raised
in DORMANT is discarded, because Compass is off: the event map is empty there. -/
def execTimerFire (t : Fin 32) (s : State) : Host.Outcome State Fault Refusal :=
  let ctl := tget 0 s.pcm.tmrCtl t.val
  let cmp := tget 0 s.pcm.tmrCmp t.val
  if bit ctl 0 && decide (cmp.toNat ≤ s.pcm.chrono.toNat) then
    let (ctl, cmp) := timerFired ctl cmp s.pcm.chrono
    let s := { s with pcm := { s.pcm with tmrCtl := tset 0 s.pcm.tmrCtl t.val ctl, tmrCmp := tset 0 s.pcm.tmrCmp t.val cmp } }
    .next ((s.armTimer t.val).fire (0x11000 + t.val))
  else .next s

/-! ### Cluster transitions (R497, R498) -/

/-- A cluster is ready to stop: each engine is at an interruption point or checkstopped. -/
def State.clusterAtPoint (s : State) (c : Fin 4) : Bool :=
  (clusterEngines c).all fun e => (s.eng e).checkstop || (s.eng e).atPoint

/-- Each engine of the cluster drains its store buffer and waits for its posts. -/
def State.stopEngines (s : State) (c : Fin 4) : State :=
  (clusterEngines c).foldl (fun s e => (s.drainAll e).awaitPosts e) s

/-- Lines held in M by a table of sets. -/
def dirtyLines (t : Tbl (List CLine)) : List Nat := t.flatMap fun p => (p.2.filter fun l => l.st == .m).map (·.line)

/-- The keys of the L2 sets of a cluster. -/
def inCluster (c : Fin 4) (k : Nat) : Bool := k / 8192 == c.val

/-- An engine's caches, translations and predictions emptied; registers are kept (R497). -/
def Engine.gate (x : Engine) : Engine :=
  { x with dcache := [], icache := [], lineBuf := [], dtlb := [], itlb := [], btb := [] }

/-- A cluster is GATED: dirty lines written back, caches, TLBs, BTBs and the L2 part emptied, its PLL off (R497, R498). -/
def State.gateCluster (s : State) (c : Fin 4) : State :=
  let lines := (clusterEngines c).flatMap (fun e => dirtyLines (s.eng e).dcache)
    ++ dirtyLines (s.l2.filter fun p => inCluster c p.1)
  let s := lines.foldl State.wroteBack s
  let s := (clusterEngines c).foldl (fun s e => s.modEng e Engine.gate) s
  { s with l2 := tdrop s.l2 (inCluster c), pcm := { s.pcm with cpll := setField s.pcm.cpll c.val 1 0 } }

/-- The LFSR of an engine is seeded with a nonzero number from the TRNG (R243). -/
def State.seedLfsr (s : State) (e : Eng) : State :=
  let (v, s) := s.draw
  s.modEng e fun x => { x with lfsr := BitVec.ofNat 16 (v.toNat % 65535 + 1) }

/-- A cluster leaves GATED: its PLL locks, and its engines' LFSRs are seeded (R243, R498). -/
def State.ungateCluster (s : State) (c : Fin 4) : State :=
  let s := (clusterEngines c).foldl State.seedLfsr s
  { s with pcm := { s.pcm with cpll := setField s.pcm.cpll c.val 1 1 } }

/-- The cluster reaches its target: the part state follows, the next power-up begins, and arms that waited are applied. -/
def State.clusterReached (s : State) (c : Fin 4) (t : CState) : State :=
  let s := { s with power := { s.power with clusters := s.power.clusters.set c { st := t, target := none } } }.follow
  { s with power := s.power.nextUp }.runArms

/-- CLUSTER_TRANSITION_COMPLETE. Turned away when the cluster changes nothing, or an engine of it has yet to reach an
interruption point. -/
def execClusterTransitionComplete (c : Fin 4) (s : State) : Host.Outcome State Fault Refusal :=
  let x := s.power.clusters[c]
  match x.target with
  | none => .next s
  | some t =>
    if !s.powered || (x.st == .run && !s.clusterAtPoint c) then .next s
    else
      let s := if x.st = .run then s.stopEngines c else s
      let s := if t = .gated then s.gateCluster c else if x.st = .gated then s.ungateCluster c else s
      .next (s.clusterReached c t)

end Sys2Proof.Machine
end

