-- ==== Sys2Proof/Machine/Sextant.lean ====
section
/-! DEFINITION. Sextant and the core rail (17): margin plans and how they are applied, monitors, delay registers, the die
sensors, and Keeper's commands on them (R512 to R525, R476). -/

namespace Sys2Proof.Machine

/-! ### Margin plans (R517, R519) -/

/-- The plan is whole: 192 bytes with a valid CRC (R517). -/
def planValid (l : List Byte) : Bool :=
  l.length == 192 && crc32c (l.take 188) == BitVec.ofNat 32 (fieldLE l 188 4)

/-- The bytes of slot A (1), slot B (2) or the Anchor plan. -/
def State.marginPlan (s : State) (k : BitVec 2) : List Byte :=
  if k = 1 then s.sextant.slotA else if k = 2 then s.sextant.slotB else anchorPlan s.nv.fuses

/-- The slot not in force; slot A while the Anchor plan is in force. -/
def Sextant.otherSlot (x : Sextant) : BitVec 2 := if x.inForce = 1 then 2 else 1

/-- A plan from its SEQ, VCORE and bytes 16 to 183. -/
def planBytes (seq vcore : Nat) (body : List Byte) : List Byte :=
  let l := natLE 2 1 ++ natLE 2 192 ++ natLE 4 seq ++ natLE 2 vcore ++ List.replicate 6 0 ++ body ++ List.replicate 4 0
  l ++ natLE 4 (crc32c l).toNat

/-! ### The core rail (R512) -/

/-- The voltage targets written on the way from `a` to `b`, in steps of at most 10 mV. -/
def railSteps : Nat → Nat → Nat → List Nat
  | 0, _, _ => []
  | fuel + 1, a, b =>
    if a = b then []
    else
      let n := if a < b then min b (a + 10) else max b (a - 10)
      n :: railSteps fuel n b

/-- The core target changes by steps, and the voltage is read back within 10 mV of it. -/
def State.setRail (s : State) (v : Nat) : State :=
  let now := s.sextant.vtarget.toNat
  if now = v then s
  else
    let s := (railSteps 65536 now v).foldl (fun s n => s.send (.avs (BitVec.ofNat 16 n))) s
    let read := v - 10 + Config.coreReading s.draws % 21
    { s with draws := s.draws + 1, sextant := { s.sextant with vtarget := BitVec.ofNat 16 v, vmeas := BitVec.ofNat 16 read } }

/-- The record of an AVSBus failure (R512, R531). -/
def State.railRecord (s : State) : State :=
  s.logRec { seq := 0, sev := 2, kind := 6, dom := 0, origin := 0x3A, time := s.pcm.chrono, detail := [3, 0], count := 1,
             flags := 0 }

/-! ### Applying a plan (R520) -/

/-- A plan is applied: the core target, the delay registers, and the SerDes targets that wait for their moment. -/
def State.applyPlan (s : State) (k : BitVec 2) : State :=
  let l := s.marginPlan k
  let s := s.setRail (fieldLE l 8 2)
  { s with sextant := { s.sextant with delays := (l.drop 16).take 128, serdesDue := (l.drop 144).take 40, inForce := k,
                                       lastPlan := s.pcm.chrono, dlyFaults := [] } }

/-- A command applies a plan. When the AVSBus fails under a change of the core target, the plan in force is applied again
and the command returns HW_FAULT (R512, R521). -/
def applyByCommand (k : BitVec 2) (avsOk : Bool) : K Unit := do
  let now ← look (·.sextant.inForce)
  let before ← look (·.sextant.vtarget.toNat)
  let target ← look fun s => fieldLE (s.marginPlan k) 8 2
  if avsOk || before == target then alter (·.applyPlan k)
  else
    alter fun s => ((s.setRail target).setRail before).railRecord.applyPlan now
    throw (fail hwFault)

/-- Boot step 2 and wake step 2: the selected slot when its CRC is valid, otherwise the Anchor plan (R519). -/
def State.applySelected (s : State) : State :=
  let k := s.sextant.selector
  s.applyPlan (if planValid (s.marginPlan k) then k else 0)

/-! ### Margins and flags (R513 to R516) -/

/-- The monitors of a block: clusters 0 to 3, fabric, PCIe SerDes, ring SerDes 0 to 3. -/
def blockMonitors (b : Nat) : List Nat :=
  if b < 4 then upFrom (20 * b) 20 else if b = 4 then upFrom 80 8 else [83 + b]

/-- SXT.MON(i). -/
def monReg (i : Nat) : Nat := sxtBase + 8 * i

/-- The last voted slack of a monitor, in ps. -/
def State.slack (s : State) (i : Nat) : Int := (field (s.reg (monReg i)) 0 16).toInt

/-- The monitor has been sampled since the reset. -/
def Sextant.sampled (x : Sextant) (i : Nat) : Bool :=
  (tget none x.least i).isSome || x.history.any fun t => (tget none t i).isSome

/-- The monitor of a block with the least slack, the first when several have it. -/
def State.worst (s : State) (b : Nat) : Nat :=
  (blockMonitors b).foldl (fun w i => if s.slack i < s.slack w then i else w) ((blockMonitors b).headD 0)

/-- REPLAN_ADVISED: a margin of a sampled block below 25 ps, or a projection below 720 hours (R515). -/
def State.replanAdvised (s : State) : Bool :=
  (List.range 10).any (fun b => (blockMonitors b).any s.sextant.sampled && decide (s.slack (s.worst b) < 25))
    || s.sextant.hours.any fun h => decide (h.toNat < 720)

/-- FLAGS of SXT_REPORT (R516). -/
def State.sxtFlags (s : State) : Nat :=
  packBits [(0, b2n s.sextant.frozen), (1, b2n s.sextant.disagree), (2, b2n s.replanAdvised), (3, b2n s.pcm.hot)]

/-- Source 0x1_1512 at a change of a flag (R515). -/
def State.flagChange (s s' : State) : State := if s.sxtFlags = s'.sxtFlags then s' else s'.fire 0x11512

/-- The block record of block `b` (R516). -/
def State.blockRecord (s : State) (b tj vmeas : Nat) : List Byte :=
  let w := s.worst b
  (field (s.reg (monReg w)) 0 16 |>.toNat |> natLE 2) ++ natLE 2 w ++ natLE 4 (s.sextant.hours[Fin.ofNat 10 b]).toNat
    ++ natLE 2 tj ++ natLE 2 vmeas ++ [0, 0, 0, 0]

/-- The data of SXT_REPORT (R516). The fabric's temperature is that of the sensor at the centre. -/
def State.sxtData (s : State) : List Byte :=
  let x := s.sextant
  let v := x.vmeas.toNat
  natLE 1 x.inForce.toNat ++ natLE 1 s.sxtFlags ++ natLE 2 15 ++ natLE 4 (fieldLE (s.marginPlan x.inForce) 4 4)
    ++ natLE 2 x.vtarget.toNat ++ natLE 2 v ++ natLE 2 s.pcm.tjmax.toNat ++ natLE 2 x.discnt.toNat
    ++ ((List.range 5).map fun b => s.blockRecord b (x.temps[Fin.ofNat 5 b]).toNat v).flatten
    ++ ((List.range 5).map fun b => s.blockRecord (5 + b) 0 0).flatten
    ++ natLE 8 x.lastPlan.toNat ++ natLE 8 s.pcm.chrono.toNat ++ List.replicate 64 0

/-- SXT_REPORT: DISAGREE clears with the report. -/
def execSxtReport (via : Via) (s : State) : Host.Outcome State Fault Refusal :=
  keeperNext via 0x0601 (fun _ => do
    let l ← look (·.sxtData)
    alter fun s => s.flagChange { s with sextant := { s.sextant with disagree := false } }
    return l) s

/-! ### REPLAN and PLAN_REVERT (R521, R522) -/

/-- A plan that step 2 of REPLAN can find: VCORE within 650 to 850 mV in 5 mV steps, 850 mV unless TMARGIN is reached. -/
def findable (f : PlanFound) : Bool :=
  decide (650 ≤ f.vcore.toNat) && decide (f.vcore.toNat ≤ 850) && f.vcore.toNat % 5 == 0 && f.body.length == 168
    && (f.reached || f.vcore == 850)

/-- A slot of Sextant written. -/
def Sextant.writeSlot (x : Sextant) (k : BitVec 2) (l : List Byte) : Sextant :=
  if k = 1 then { x with slotA := l } else { x with slotB := l }

/-- The reply of REPLAN (R521). -/
def replanReply (slot result seq : Nat) (f : PlanFound) : List Byte :=
  natLE 1 slot ++ natLE 1 result ++ natLE 2 f.vcore.toNat ++ natLE 2 f.minMargin.toNat ++ [0, 0] ++ natLE 4 seq
    ++ List.replicate 4 0

/-- REPLAN: the selector moves with the command's completion. Turned away when no step 2 can find the plan given. -/
def execReplan (via : Via) (found : PlanFound) (avsOk : Bool) (s : State) : Host.Outcome State Fault Refusal :=
  if !findable found then .next s
  else keeperNext via 0x0602 (fun p => do
    demand (decide (fieldLE p 2 1 < 2)) 2
    demand (zeros p 3 5) 3
    permit (← look fun s => !s.sextant.frozen)
    let k ← look (·.sextant.otherSlot)
    let seq ← look fun s => if s.sextant.inForce = 0 then 1 else (fieldLE (s.marginPlan s.sextant.inForce) 4 4 + 1) % 2 ^ 32
    if bit (lget (0 : Byte) p 2) 0 then return replanReply 0 1 seq found
    journal 3 0
    alter fun s => { s with sextant := s.sextant.writeSlot k (planBytes seq found.vcore.toNat found.body) }
    journal 4 0
    applyByCommand k avsOk
    journal 5 0
    return replanReply k.toNat (if found.reached then 0 else 2) seq found) s

/-- PLAN_REVERT. -/
def execPlanRevert (via : Via) (avsOk : Bool) (s : State) : Host.Outcome State Fault Refusal :=
  keeperNext via 0x0603 (fun p => do
    let target := fieldLE p 0 1
    demand (decide (target ≤ 1)) 0
    let k : BitVec 2 ← if target = 0 then pure 0 else look (·.sextant.otherSlot)
    demand (← look fun s => target == 0 || planValid (s.marginPlan k)) 0
    permit (← look fun s => target == 0 || !s.sextant.frozen)
    applyByCommand k avsOk
    alter fun s => { s with sextant := { s.sextant with selector := k } }
    return []) s

/-! ### Monitors (R513, R514, R523) -/

/-- The block of a monitor has power: a cluster that is not GATED, a ring that is not OFF, the rest of the running
part. -/
def State.monitorPowered (s : State) (i : Nat) : Bool :=
  s.powered && (if i < 80 then s.power.clusters[Fin.ofNat 4 (i / 20)].st != .gated
    else if 89 ≤ i ∧ i < 93 then (s.ring (Fin.ofNat 4 (i - 89))).state != .off else true)

/-- The 2-of-3 vote: the majority value, when two comparators agree. -/
def vote (a b c : BitVec 16) : Option (BitVec 16) := if a = b ∨ a = c then some a else if b = c then some b else none

/-- DETAIL of a SEXTANT record (R531). -/
def sxtDetail (fault cluster number : Nat) : List Byte := natLE 1 fault ++ natLE 1 cluster ++ natLE 2 number

/-- A SEXTANT record of SEV 2. -/
def State.sxtRecord (s : State) (detail : List Byte) : State :=
  s.logRec { seq := 0, sev := 2, kind := 5, dom := 0, origin := 0x39, time := s.pcm.chrono, detail := detail, count := 1,
             flags := 0 }

/-- Sextant freezes: FROZEN, and the Anchor plan applied with the selector unchanged (R523). -/
def State.freeze (s : State) : State :=
  if s.sextant.frozen then s
  else { s with sextant := { s.sextant with frozen := true } }.applyPlan 0

/-- The cluster of a monitor in a record; 0 for the monitors of other blocks. -/
def monCluster (i : Nat) : Nat := if i < 80 then i / 20 else 0

/-- A voted sample: SLACK and the least of the hour. -/
def State.takeSample (s : State) (i : Nat) (v : BitVec 16) : State :=
  let least := match tget none s.sextant.least i with
    | none => v
    | some w => if v.toInt < w.toInt then v else w
  let s := s.setReg (monReg i) (setField (s.reg (monReg i)) 0 16 v.toNat)
  { s with sextant := { s.sextant with least := tset none s.sextant.least i (some least) } }

/-- A single disagreement: DIS, DISCNT, DISAGREE, and a corrected error of Sextant. -/
def State.singleDisagreement (s : State) (i : Nat) : State :=
  let s := s.setReg (monReg i) (setField (s.reg (monReg i)) 16 1 1)
  let s := { s with sextant := { s.sextant with discnt := satAdd s.sextant.discnt 1, disagree := true } }
  s.corrected 0x39 0 (sxtDetail 1 (monCluster i) i)

/-- A total disagreement: TOTAL, a record, and the freeze. -/
def State.totalDisagreement (s : State) (i : Nat) : State :=
  let s := s.setReg (monReg i) (setField (s.reg (monReg i)) 17 1 1)
  (s.sxtRecord (sxtDetail 2 (monCluster i) i)).freeze

/-- MONITOR_SAMPLE. Turned away while the monitor's block has no power. -/
def execMonitorSample (i : Fin 96) (c0 c1 c2 : BitVec 16) (s : State) : Host.Outcome State Fault Refusal :=
  if !s.monitorPowered i.val then .next s
  else match vote c0 c1 c2 with
    | none => .next (s.flagChange (s.totalDisagreement i.val))
    | some v =>
      let s' := s.takeSample i.val v
      .next (s.flagChange (if c0 = c1 ∧ c1 = c2 then s' else s'.singleDisagreement i.val))

/-- SEXTANT_HOURLY (R515): the hour's least slacks are recorded, the projections follow, and the source fires. A
projection reads 0xFFFF_FFFF while fewer than 24 hourly samples exist. -/
def execSextantHourly (hours : Vector (BitVec 32) 10) (s : State) : Host.Outcome State Fault Refusal :=
  if !s.powered then .next s
  else
    let h := s.sextant.history ++ [s.sextant.least]
    let hours := if h.length < 24 then Vector.replicate 10 0xFFFFFFFF#32 else hours
    .next ({ s with sextant := { s.sextant with history := h, least := [], hours := hours } }.fire 0x11512)

/-! ### Delay registers (R524) -/

/-- DELAY_REGISTER_FAULT: the register and its shadow are reloaded from the plan in force, which leaves them as loaded; a
second fault since the last plan application freezes Sextant, or under the Anchor plan is a hardware error. -/
def execDelayRegisterFault (c : Fin 4) (j : Fin 32) (s : State) : Host.Outcome State Fault Refusal :=
  if !s.powered then .next s
  else
    let again := s.sextant.dlyFaults.contains (c, j)
    let anchor := s.sextant.inForce == 0
    let s := if again && anchor then s.sxtRecord (sxtDetail 4 c.val j.val)
      else s.corrected 0x39 0 (sxtDetail 3 c.val j.val)
    let s := if again then s else { s with sextant := { s.sextant with dlyFaults := s.sextant.dlyFaults ++ [(c, j)] } }
    let s := if again && !anchor then s.freeze else s
    .next (s.fire 0x11512)

/-! ### Temperature (R525) -/

/-- The level of HOT in 1/16 °C: 95 °C for CX-3256-C, 100 °C for CX-3256-I. -/
def State.hotLevel (s : State) : Int := if s.nv.fuses.industrial then 1600 else 1520

/-- The highest reading. -/
def hottest (v : Vector (BitVec 16) 5) : BitVec 16 := v.toList.foldl (fun a b => if a.toInt < b.toInt then b else a) v[0]

/-- HOT after a reading: set above its level, cleared 3 °C below it. -/
def hotAfter (level : Int) (hot : Bool) (t : BitVec 16) : Bool :=
  if level < t.toInt then true else if t.toInt ≤ level - 48 then false else hot

/-- PCM.THERM.HOTCNT counts a setting of HOT. -/
def Pcm.countHot (p : Pcm) : Pcm :=
  { p with hotCnt := satAdd p.hotCnt 1, hotOvf := p.hotOvf || decide (0xFFFE ≤ p.hotCnt.toNat) }

/-- THERMAL_SAMPLE: the sensors read; the setting of HOT fires its source, is counted and reaches the OVERTEMP arms.
Turned away in DORMANT, unless the part is tripped. -/
def execThermalSample (sensors : Vector (BitVec 16) 5) (s : State) : Host.Outcome State Fault Refusal :=
  if s.power.part = .dormant ∧ s.power.tripped = false then .next s
  else
    let t := hottest sensors
    let hot := hotAfter s.hotLevel s.pcm.hot t
    let rises := hot && !s.pcm.hot
    let s' := { s with sextant := { s.sextant with temps := sensors }, pcm := { s.pcm with tjmax := t, hot := hot } }
    let s' := if rises then { s' with pcm := s'.pcm.countHot }.fire 0x11513 else s'
    .next (s.flagChange s')

/-- LINK_RECOVERY (R520): the PCIe SerDes targets take effect. Turned away while the link is down. -/
def execLinkRecovery (s : State) : Host.Outcome State Fault Refusal :=
  if s.hif.linkUp then .next { s with sextant := s.sextant.linkTargets 0 } else .next s

/-! ### SELFTEST (R476, R523) -/

/-- The base of the addressable SRAM of a cluster (R10). -/
def sramBase (c : Nat) : Nat := 0x200000000000 + c * 0x1000000

/-- Physical memory with the SRAM of a cluster zeroed. -/
def Memory.zeroSram (m : Memory) (c : Nat) : Memory :=
  let lies (pa : Nat) : Bool := decide (sramBase c ≤ pa) && decide (pa < sramBase (c + 1))
  { m with bytes := tdrop m.bytes lies, poison := tdrop m.poison fun l => lies (l * 64),
           errs := tdrop m.errs fun l => lies (l * 64) }

/-- FROZEN clears, and TOTAL with it. -/
def State.thaw (s : State) : State :=
  let s := { s with sextant := { s.sextant with frozen := false } }
  (List.range 96).foldl (fun s i => s.setReg (monReg i) (setField (s.reg (monReg i)) 17 1 0)) s

/-- The clusters whose BIST a mask selects. -/
def bistClusters (mask : Nat) : List (Fin 4) := (List.finRange 4).filter fun c => mask / 2 ^ (3 + c.val) % 2 = 1

/-- SELFTEST: `pass` holds what each test finds. -/
def execSelftest (via : Via) (pass : BitVec 8) (s : State) : Host.Outcome State Fault Refusal :=
  keeperNext via 0x0703 (fun p => do
    let mask := fieldLE p 0 4
    demand (decide (mask < 256)) 0
    permit (← look fun s => (bistClusters mask).all fun c =>
      s.power.clusters[c].st == .gated && s.power.clusters[c].target.isNone)
    let ok := BitVec.ofNat 8 mask &&& pass
    let bad := BitVec.ofNat 8 mask &&& ~~~pass
    alter fun s => (bistClusters mask).foldl (fun s c => { s with mem := s.mem.zeroSram c.val }) s
    alter fun s => if bit bad 2 then s.countErr (kprBase + 0x48) 1 else s
    alter fun s => if bit ok 7 then s.flagChange s.thaw else s
    return natLE 4 ok.toNat ++ natLE 4 bad.toNat) s

end Sys2Proof.Machine
end

