-- ==== Sys2Proof/Machine/Reset.lean ====
section
/-! DEFINITION. Resets, boot, DORMANT and the wake from it, fatal errors and lost clocks (R490 to R492, R505 to R509,
R526, R538 to R548, R569 to R571). -/

namespace Sys2Proof.Machine

/-! ### What a loss of the core leaves (R505, R541) -/

/-- The DRAM's own content in place of a dirty cached line that is lost: its bytes, or the keys of a key-array line. -/
def State.restoreLine (s : State) (p : Nat × Option (List Byte)) : State :=
  match p.2 with
  | none => s
  | some l =>
    if p.1 < 2 ^ 40 then s.putMem (p.1 * 64) l
    else (s.keyFrames p.1).zipIdx.foldl (fun s f =>
      s.setKey f.1 { lock := lget 0 l (2 * f.2), share := (lget (0 : Byte) l (2 * f.2 + 1)).setWidth 2 }) s

/-- Physical memory without what on-chip memory holds. -/
def Memory.dramOnly (m : Memory) : Memory :=
  { bytes := tdrop m.bytes fun a => !inDram a, keys := tdrop m.keys fun f => !inDram (f * 4096),
    poison := tdrop m.poison fun l => !inDram (l * 64), keyPoison := m.keyPoison,
    errs := tdrop m.errs fun l => !(inDram (l * 64) || decide (2 ^ 40 ≤ l)), stale := [] }

/-- The DRAM after a loss of the core: dirty lines and everything on the chip are gone (R505, R541). -/
def State.dramLeft (s : State) : Memory := (s.mem.stale.foldl State.restoreLine s).mem.dramOnly

/-- A DMC after a reset that keeps DRAM, or in DORMANT: its fills complete, its registers take their reset values (R359,
R540, R541). -/
def Dmc.retained (d : Dmc) : Dmc :=
  let d := d.trackers.foldl (fun d t => d.endTracker t.gran) d
  { Dmc.reset with kept := if d.enabled then d.module else d.kept, touched := d.touched, full := d.full }

/-- A DMC that holds nothing: every granule UNTOUCHED. -/
def Dmc.untouched (d : Dmc) : Dmc := { d with touched := [], full := false, trackers := [] }

/-- Every granule UNTOUCHED, so that no byte and no key of DRAM can be read any more (R354, R492, R541). -/
def State.untouchAll (s : State) : State :=
  { s with mem := { s.mem.zeroDram with errs := [] }, dmcs := s.dmcs.map Dmc.untouched }

/-- A fill that its DMC cannot complete, because the DDR PLL has stopped (R541). -/
def State.fillsLost (s : State) : Bool := !s.pcm.dpll && s.dmcs.any fun d => !d.trackers.isEmpty

/-- Sextant after a reset: the plan slots and their selector are kept, the core rail stays, and the delay registers take
the Anchor plan (R519, R541). -/
def Sextant.afterReset (x : Sextant) : Sextant :=
  { State.reset.sextant with slotA := x.slotA, slotB := x.slotB, selector := x.selector, vtarget := x.vtarget,
                             vmeas := x.vmeas, temps := x.temps }

/-- PCM after a reset: kept; every cluster's PLL is off, and events that have fired no arm yet are gone (R527, R540). -/
def Pcm.afterReset (p : Pcm) : Pcm := { p with cpll := 0, due := 0, firing := [] }

/-- The op journal names an operation whose interruption sets NEEDINIT: DOMAIN_DESTROY or MEM_INIT (R471, R492). -/
def Pcm.initNeeded (p : Pcm) : Bool := let o := field p.opj 0 16; o == 0x0302 || o == 0x0401

/-- Keeper after a reset: busy until boot ends; NEEDINIT is kept, and set by an interrupted DOMAIN_DESTROY or
MEM_INIT. -/
def State.keeperLost (s : State) : Keeper :=
  { State.reset.keeper with needInit := s.keeper.needInit || s.pcm.initNeeded }

/-- The pins once the core is lost (R545, R572). -/
def Pins.afterReset (p : Pins) (tripped : Bool) : Pins :=
  { (default : Pins) with clkreqN := true, thermtripN := tripped, resetN := p.resetN, perstN := p.perstN,
                          pwrOkLow := p.pwrOkLow, gpioIn := p.gpioIn }

/-- The part without its core: every register outside PCM, every on-chip memory, every domain, queue, ring and held image
at its reset value; DRAM, PCM, Keeper's log, the plan slots and the TAP are kept (R505, R540, R541). -/
def State.coreLost (s : State) : State :=
  let s := s.dropArms
  let lost := s.fillsLost
  let s' := { State.reset with
    mem := s.dramLeft, dmcs := s.dmcs.map Dmc.retained, keeper := s.keeperLost, nv := s.nv,
    power := { State.reset.power with powerOn := false }, pcm := s.pcm.afterReset, sextant := s.sextant.afterReset,
    log := s.log, pins := s.pins.afterReset s.power.tripped, tap := s.tap, sent := s.sent, draws := s.draws,
    pending := s.pending }
  if lost then s'.untouchAll else s'

/-! ### Resets (R540, R543, R571, R576) -/

/-- A reset other than power-on begins. -/
def State.startReset (s : State) : State :=
  let s := s.coreLost
  { s with power := { s.power with resetting := true } }

/-- POWER_ON_RESET: the whole part; what the flash and the fuses hold is kept, and nothing else. -/
def execPowerOnReset (s : State) : Host.Outcome State Fault Refusal :=
  .next { State.reset with
    nv := s.nv, sextant := { State.reset.sextant with temps := s.sextant.temps },
    power := { State.reset.power with resetting := true },
    pins := { State.reset.pins with pwrOkLow := true, resetN := s.pins.resetN, perstN := s.pins.perstN,
                                    gpioIn := s.pins.gpioIn },
    sent := s.sent, draws := s.draws, pending := s.pending }

/-- Every sensor reads below HOT (R526). -/
def State.cool (s : State) : Bool := s.sextant.temps.all fun t => decide (t.toInt < s.hotLevel)

/-- RESET_N: acts in every state. A reset in progress goes on; a THERMTRIP ends only while every sensor reads below HOT
(R526, R543, R576). -/
def execResetN (s : State) : Host.Outcome State Fault Refusal :=
  let s := { s with pins := { s.pins with resetN := true } }
  if s.power.resetting || (s.power.tripped && !s.cool) then .next s
  else
    let s := { s with power := { s.power with tripped := false } }
    .next s.startReset

/-- PERST_N: as RESET_N, except in DORMANT, where the wake counts until it is complete, and after a THERMTRIP (R526,
R543). -/
def execPerstN (s : State) : Host.Outcome State Fault Refusal :=
  let s := { s with pins := { s.pins with perstN := true } }
  if s.power.resetting || s.power.part == .dormant || s.power.tripped then .next s else .next s.startReset

/-- RESET_PART: the reset begins with the command's completion, after the reply. -/
def execResetPart (via : Via) (s : State) : Host.Outcome State Fault Refusal :=
  keeperNext via 0x0701 (fun p => do
    demand (fieldLE p 0 4 == 0x52534554) 0
    return []) s

/-- RESET_DEASSERTION: the reset ends, the DRAM is in self-refresh, and boot begins (R541, R545). -/
def execResetDeassertion (s : State) : Host.Outcome State Fault Refusal :=
  if !s.power.resetting then .next s
  else
    .next { s with
      power := { s.power with resetting := false }, dmcs := s.dmcs.map fun d => { d with selfRefresh := !s.power.powerOn },
      pins := { s.pins with resetN := false, perstN := false, pwrOkLow := false } }

/-! ### Training (R344, R345, R489) -/

/-- The module lies in the table of R344. -/
def supported (m : Module) : Bool :=
  m.typ != .other && (m.ranks == 1 || m.ranks == 2) && (m.width == 8 || m.width == 4 && m.typ == .rdimm)
    && (m.density == 16 || m.density == 24 || m.density == 32) && decide (4800 ≤ m.rate) && decide (1 ≤ m.gib)
    && decide (m.gib ≤ 128)

/-- The code of the highest listed rate that a module supports: 0 4800, 1 5200, 2 5600 MT/s. -/
def rateCode (m : Module) : Nat := if m.rate < 5200 then 0 else if m.rate < 5600 then 1 else 2

/-- DDRMAX as a cap on the rate code (R489). -/
def rateCap (ddrMax : Byte) : Nat := if ddrMax = 1 then 0 else if ddrMax = 2 then 1 else 2

/-- The channels that stay enabled: fitted, listed and trained; DMC1 is disabled when the modules differ in type or device
width. -/
def enabledChannels (v : BootEnv) : Option Module × Option Module :=
  let ok (m : Option Module) (t : Bool) : Option Module := m.filter fun x => supported x && t
  match ok v.module0 v.train0, ok v.module1 v.train1 with
  | some a, some b => if a.typ == b.typ && a.width == b.width then (some a, some b) else (some a, none)
  | a, b => (a, b)

/-- The rate of both channels: the highest listed one that the fitted modules support, set before any channel is disabled
(R345). DEDUCED: a module that supports no listed rate, which disables its channel, does not bound it. -/
def commonRate (l : List Module) (ddrMax : Byte) : Nat :=
  (l.filter fun m => decide (4800 ≤ m.rate)).foldl (fun r m => min r (rateCode m)) (rateCap ddrMax)

/-- A channel after training. -/
def Dmc.train (d : Dmc) (fitted on : Option Module) (rate : Nat) : Dmc :=
  { d with module := fitted, enabled := on.isSome, rate := if on.isSome then BitVec.ofNat 2 rate else 0,
           selfRefresh := false, kept := on }

/-- Entries of a table under new keys; an entry without one is dropped. -/
def tmapKeys {α : Type} [DecidableEq α] (d : α) (t : Tbl α) (f : Nat → Option Nat) : Tbl α :=
  t.foldl (fun r p => match f p.1 with | none => r | some k => tset d r k p.2) []

/-- The address that DRAM content has after its channels have come back in another layout: content stays in its channel,
and a channel that is disabled shows none. -/
def moved (old new : State) (pa : Nat) : Option Nat :=
  let (m, o) := old.channelOf pa
  if o < (new.dmc m).usable then some (new.channelAddr m o) else none

/-- The memory of `old` as the layout of `new` addresses it. -/
def State.relocate (new old : State) : State :=
  let by' (unit : Nat) (k : Nat) : Option Nat := (moved old new (k * unit)).map (· / unit)
  let line (l : Nat) : Option Nat := if l < 2 ^ 40 then by' 64 l else some l
  let m := new.mem
  { new with mem := { m with
      bytes := tmapKeys 0 m.bytes (by' 1), keys := tmapKeys default m.keys (by' 4096),
      poison := tmapKeys false m.poison (by' 64), errs := tmapKeys none m.errs line } }

/-- The layout in which the memory's content was written: that of the modules enabled last. -/
def Dmc.before (d : Dmc) : Dmc := { d with module := d.kept, enabled := d.kept.isSome }

/-- Boot step 5: both channels are trained, at the highest listed rate that both modules support, and their content
stands as before (R345). -/
def State.trainDram (s : State) (v : BootEnv) : State :=
  let on := enabledChannels v
  let rate := commonRate (v.module0.toList ++ v.module1.toList) s.keeper.ddrMax
  let old := { s with dmcs := s.dmcs.map Dmc.before }
  let new := (s.modDmc 0 fun d => d.train v.module0 on.1 rate).modDmc 1 fun d => d.train v.module1 on.2 rate
  let new := { new with pcm := { new.pcm with dpll := true, ddrRate := BitVec.ofNat 2 rate } }
  let same (m : Fin 2) : Bool := (old.dmc m).usable == (new.dmc m).usable
  if same 0 && same 1 then new else new.relocate old

/-! ### Boot (R490, R492, R519, R545) -/

/-- The image of a slot, when it passes the checks. -/
def State.slotPasses (s : State) (kind : Nat) (b : Bool) : Option Image :=
  match s.nv.slotImage kind b with
  | none => none
  | some l =>
    match checkImage s.nv s.planBound (s.companions kind) false kind (BitVec.ofNat 8 (b2n b)) l with
    | .ok i => some i
    | .error _ => none

/-- A slot's firmware, when it passes steps 1 to 3 of R480. -/
def State.firmwarePasses (s : State) (b : Bool) : Option Image :=
  match s.nv.slotImage 1 b with
  | none => none
  | some l =>
    if (headerBad 1 l).isNone && (signatureFault s.nv 1 l).isNone then
      some { header := l.take 288, body := (l.drop 288).take (fieldLE l 32 4), source := BitVec.ofNat 8 (b2n b),
             forced := false }
    else none

/-- An image from the selected slot, or else from the other, in force; BOOTALT of the kind when it is the other (R471,
R490). -/
def State.bootImage (s : State) (kind : Nat) (pass : Bool → Option Image) : State :=
  let sel := s.nv.selected kind
  match pass sel with
  | some i => s.putInForce kind i
  | none =>
    match pass (!sel) with
    | none => s
    | some i =>
      let s := s.putInForce kind i
      { s with keeper := { s.keeper with bootAlt := s.keeper.bootAlt ||| BitVec.ofNat 4 (2 ^ (kind - 1)) } }

/-- Steps 1 to 3 of boot: the configuration block, the margin plan, the firmware. -/
def State.bootFirmware (s : State) : State :=
  let (flags, ddrMax) := s.nv.configBlock
  let k := { s.keeper with smbOff := bit flags 0, uartOff := bit flags 1, ddrMax := ddrMax }
  let s := { s with keeper := k, pcm := { s.pcm with fpll := true, kpll := true } }.applySelected
  s.bootImage 1 s.firmwarePasses

/-- The journal reports an interrupted operation of this opcode. -/
def State.interrupted (s : State) (o : BitVec 16) : Bool :=
  match s.keeper.journal with | some j => field j 0 16 == o | none => false

/-- Step 4: the op journal is read; with no operation in it, nothing was interrupted (R492). A part that goes to RECOVERY
reads it too, since the first STATUS after the reset reports it (R471). -/
def State.readJournal (s : State) : State :=
  { s with keeper := { s.keeper with journal := if field s.pcm.opj 0 16 = 0 then none else some s.pcm.opj } }

/-- Step 7: vendor part, customer part and plan, unless the journal reports an interrupted IMAGE_LOAD or ZEROIZE. -/
def State.bootImages (s : State) : State :=
  if s.interrupted 0x0201 || s.interrupted 0x0403 then s
  else
    let s := s.bootImage 2 (s.slotPasses 2)
    let s := if s.keeper.inForce[1].isSome then s.bootImage 3 (s.slotPasses 3) else s
    s.bootImage 4 (s.slotPasses 4)

/-- RECOVERY (R490 step 3). -/
def State.recover (s : State) : State :=
  { s with power := { s.power with part := .recovery },
           keeper := { s.keeper with busy := false, bootStep := 3 }, hif := { s.hif with linkUp := s.pcm.refclkOk } }

/-- The part is up: the command port idle, the link trained while REFCLK runs. -/
def State.up (s : State) (part : PState) (step : BitVec 4) : State :=
  { s with power := { s.power with part := part }, keeper := { s.keeper with busy := false, bootStep := step },
           hif := { s.hif with linkUp := s.pcm.refclkOk } }

/-- Clock inputs as the board gives them at power-on (R569 step 6). -/
def Pcm.clocksOn (p : Pcm) : Pcm := { p with rclkOk := true, refclkOk := true, xtalOk := true }

/-- BOOT_COMPLETE: turned away unless the part boots with RCLK present. -/
def execBootComplete (env : BootEnv) (s : State) : Host.Outcome State Fault Refusal :=
  let p := s.power
  if p.part ≠ .boot ∨ p.resetting ∨ p.tripped ∨ p.fatal ∨ (!p.powerOn && !s.pcm.rclkOk) then .next s
  else
    let s := if p.powerOn then { s with pcm := s.pcm.clocksOn } else s
    let s := { s with power := { s.power with powerOn := false } }.bootFirmware
    let s := s.readJournal
    if s.keeper.inForce[0].isNone then .next s.recover
    else
      let s := if s.interrupted 0x0403 then s.untouchAll else s
      .next ((s.trainDram env).bootImages.up .held 8)

/-! ### DORMANT (R500, R505 to R507) -/

/-- DORMANT_ENTRY: after the reply of the POWER_SET that asked for it. -/
def execDormantEntry (s : State) : Host.Outcome State Fault Refusal :=
  if !s.power.dormantDue || s.keeper.running.isSome || !s.powered then .next s
  else
    let s := s.coreLost
    .next { s with
      power := { s.power with part := .dormant },
      pcm := { s.pcm with dormCnt := s.pcm.dormCnt + 1, fpll := false, dpll := false, kpll := false },
      dmcs := s.dmcs.map fun d => { d with selfRefresh := true }, pins := { s.pins with clkreqN := false } }

/-- WAKE_COMPLETE: turned away unless an arm has fired in DORMANT. The arm that ended DORMANT is applied, then those that
fired after it. -/
def execWakeComplete (env : BootEnv) (s : State) : Host.Outcome State Fault Refusal :=
  match s.pcm.firing with
  | [] => .next s
  | (i, a) :: rest =>
    let p := s.power
    if p.part ≠ .dormant ∨ p.resetting ∨ p.tripped ∨ p.fatal ∨ !s.pcm.rclkOk then .next s
    else
      let k := { s.keeper with wasWake := true }
      let s := { s with keeper := k }.bootFirmware.readJournal
      if s.keeper.inForce[0].isNone then .next s.dropArms.recover
      else
        let s := ((s.trainDram env).bootImages.setModes).up .watch 7
        let s := { s with pins := { s.pins with wakeN := !s.pcm.refclkOk },
                          pcm := { s.pcm with firing := rest } }
        .next (s.applyArm i a true).runArms

/-! ### ENGINE_RESET (R475, R544) -/

/-- The slots of an engine. -/
def slotsOfEngine (e : Eng) : List Nat := (List.range 8).map (slotOf e)

/-- Every tenant domain that owns a slot of the engine is QUIESCED or ABSENT (R475). -/
def State.engineFree (s : State) (e : Eng) : Bool :=
  (slotsOfEngine e).all fun i =>
    let d := s.owner i
    d == 0 || (s.dom d).state == .quiesced || (s.dom d).state == .absent

/-- Outstanding posts are performed at their homes, and their replies discarded. -/
def State.discardPosts (s : State) (e : Eng) : State :=
  ((s.eng e).posts.foldl (fun s p => s.performQueue p.home) s).modEng e fun x => { x with posts := [] }

/-- An engine after ENGINE_RESET: its registers are kept. -/
def Engine.afterReset (x : Engine) : Engine :=
  { Engine.reset with cs := x.cs, csGen := x.csGen, csDue := x.csDue, mcCode := x.mcCode, mcLevel := x.mcLevel, mcStopped := x.mcStopped, ria := x.ria }

/-- A slot after ENGINE_RESET: IDLE, with NEST and its held exceptions cleared. -/
def Slot.afterReset (x : Slot) : Slot :=
  { x with state := .idle, nest := false, xlvl := 0, heldExc := none, deferred := [] }

/-- What ENGINE_RESET does to an engine. -/
def State.resetEngine (s : State) (e : Eng) : State :=
  let s := (s.drainAll e).discardPosts e
  let s := (dirtyLines (s.eng e).dcache).foldl State.wroteBack s
  let s := (s.modEng e Engine.afterReset).seedLfsr e
  let s := (slotsOfEngine e).foldl (fun s i => (s.modBank i fun _ => default).modSlot i Slot.afterReset) s
  (slotsOfEngine e).foldl (fun s i => if (s.dom (s.owner i)).scrambled then s.newSecret i else s) s

/-- ENGINE_RESET. -/
def execEngineReset (via : Via) (s : State) : Host.Outcome State Fault Refusal :=
  keeperNext via 0x0702 (fun p => do
    let n := fieldLE p 0 1
    demand (decide (n ≤ 31)) 0
    permit (← look (·.engineFree (Fin.ofNat 32 n)))
    alter (·.resetEngine (Fin.ofNat 32 n))
    return []) s

/-! ### Fatal errors, trips and clocks (R508, R509, R526, R538, R539, R571) -/

/-- Every PLL stops. -/
def Pcm.pllsOff (p : Pcm) : Pcm := { p with cpll := 0, fpll := false, dpll := false, kpll := false }

/-- The PCIe link goes down. -/
def State.linkDown (s : State) : State := { s with hif := { s.hif with linkUp := false } }

/-- PCM.TRIPLOG (R527). -/
def tripLog (sensor : Nat) (now : Word) : Word :=
  BitVec.ofNat 64 (packBits [(0, 1), (1, sensor), (16, now.toNat % 2 ^ 48)])

/-- THERMTRIP: acts in hardware, once. -/
def execThermtrip (sensor : Fin 5) (s : State) : Host.Outcome State Fault Refusal :=
  if s.power.tripped then .next s
  else
    .next { s with
      power := { s.power with tripped := true, fatal := true },
      pcm := { s.pcm.pllsOff with triplog := tripLog sensor.val s.pcm.chrono },
      pins := { s.pins with ringIns := Vector.replicate 4 false, thermtripN := true } }.linkDown

/-- A clock error of the running part (R531, R538). -/
def State.clockError (s : State) (code pll : Nat) : State :=
  let runs := s.pcm.fpll
  let s := s.fatalError 6 (natLE 1 code ++ natLE 1 pll) runs
  if runs then s else s.linkDown

/-- RCLK_LOSS: a fatal error in every state but DORMANT. Turned away while RCLK is absent already. -/
def execRclkLoss (s : State) : Host.Outcome State Fault Refusal :=
  if !s.pcm.rclkOk then .next s
  else
    let s := { s with pcm := { s.pcm with rclkOk := false } }
    if s.power.part = .dormant then .next s else .next ({ s with pcm := s.pcm.pllsOff }.clockError 1 0)

/-- REFCLK_LOSS: affects only the PCIe link. -/
def execRefclkLoss (s : State) : Host.Outcome State Fault Refusal :=
  .next { s with pcm := { s.pcm with refclkOk := false } }.linkDown

/-- XTAL32_LOSS: only clears XTALOK. -/
def execXtal32Loss (s : State) : Host.Outcome State Fault Refusal :=
  .next { s with pcm := { s.pcm with xtalOk := false } }

/-- A PLL, numbered in the order of R508, is locked. -/
def Pcm.locked (p : Pcm) (n : Fin 7) : Bool :=
  if n.val < 4 then bit p.cpll n.val else if n = 4 then p.fpll else if n = 5 then p.dpll else p.kpll

/-- A PLL loses lock. -/
def Pcm.unlock (p : Pcm) (n : Fin 7) : Pcm :=
  if n.val < 4 then { p with cpll := setField p.cpll n.val 1 0 }
  else if n = 4 then { p with fpll := false } else if n = 5 then { p with dpll := false } else { p with kpll := false }

/-- PLL_LOCK_LOSS: a fatal error. Turned away when the PLL is not locked. -/
def execPllLockLoss (pll : Fin 7) (s : State) : Host.Outcome State Fault Refusal :=
  if !s.pcm.locked pll then .next s
  else .next ({ s with pcm := s.pcm.unlock pll }.clockError 2 pll.val)

/-- FABRIC_TIMEOUT: a fatal error. Turned away while no fabric runs. -/
def execFabricTimeout (requester : Byte) (pa : BitVec 46) (s : State) : Host.Outcome State Fault Refusal :=
  if !s.pcm.fpll || s.power.part == .dormant || s.power.resetting || s.power.tripped then .next s
  else .next (s.fatalError 7 ([requester] ++ List.replicate 7 0 ++ natLE 8 pa.toNat) true)

/-- CLOCK_INPUT_RESTORED: CLKSTAT reports the input again; the link trains again with REFCLK, and WAKE_N is released once
it is up (R507, R509). -/
def execClockInputRestored (c : ClockIn) (s : State) : Host.Outcome State Fault Refusal :=
  match c with
  | .rclk => .next { s with pcm := { s.pcm with rclkOk := true } }
  | .xtal32 => .next { s with pcm := { s.pcm with xtalOk := true } }
  | .refclk =>
    let s := { s with pcm := { s.pcm with refclkOk := true } }
    if s.power.resetting || s.power.part == .dormant || s.power.tripped || !s.pcm.fpll then .next s
    else .next { s with hif := { s.hif with linkUp := true }, pins := { s.pins with wakeN := false } }

/-- CORE_RAIL_LOW: the latch releases every ring pin (R571). -/
def execCoreRailLow (rail : RailLow) (s : State) : Host.Outcome State Fault Refusal :=
  match rail with
  | .core | .ao08 => .next { s with pins := { s.pins with ringIns := Vector.replicate 4 false } }

end Sys2Proof.Machine
end

