-- ==== Sys2Proof/Machine/Complete.lean ====
section
/-! DEFINITION. COMMAND_COMPLETE: when Keeper's command in progress is done, what it does last, and its reply (R464, R466,
R467, R500, R504). -/

namespace Sys2Proof.Machine

/-- The domain, ring, kind or part that the first parameter byte names. -/
def Running.first (r : Running) : Nat := fieldLE r.pkt.data 0 1

/-- The command's own work is done, so that it can reply: the sequences it has started have ended. -/
def State.commandDone (s : State) (r : Running) : Bool :=
  r.status != 0 || match r.pkt.opcode.toNat with
    | 0x0101 => s.power.settled
    | 0x0204 => (List.finRange 32).all fun e => !(s.eng e).csDue
    | 0x0302 => (s.dom r.first).state == .destroying
    | 0x0303 => bit (lget (0 : Byte) r.pkt.data 1) 0 || (s.dom r.first).state != .quiescing
    | 0x0504 => (s.ring (Fin.ofNat 4 r.first)).state != .inserted
    | 0x0505 => r.announced && s.switchReached
    | _ => true

/-- Steps 4 to 6 of the erase sequence, and the number of frames zeroed for the reply (R40). DESIGN CHOICE: REFUSED, OVF and
the other fields of the domain's window return to their reset values; R30 and R40 do not say what becomes of them. -/
def State.endDestroy (s : State) (r : Running) : State × Running :=
  let d := r.first
  let s := s.readKeys
  let n := (s.framesOf d).length
  let s := ((s.eraseFrames d).setDomState d .absent).modDom d fun _ => Domain.absent
  (s, { r with reply := natLE 8 n })

/-- The part is in HELD after ZEROIZE (R493). -/
def State.backToHeld (s : State) : State := { s with power := { s.power with part := .held, modesSet := false } }

/-- What a successful command does last. -/
def State.lastWork (s : State) (r : Running) : State × Running :=
  if r.status != 0 then (s, r)
  else match r.pkt.opcode.toNat with
    | 0x0101 => (if r.first = 1 then { s with power := { s.power with dormantDue := true } } else s, r)
    | 0x0203 => ({ s with nv := s.nv.selectOther r.first }, r)
    | 0x0204 => (s.endReload, r)
    | 0x0302 => s.endDestroy r
    | 0x0401 => ({ s with keeper := { s.keeper with needInit := false } }, r)
    | 0x0403 => (s.backToHeld, r)
    | 0x0503 => (s.ringInserted (Fin.ofNat 4 r.first), r)
    | 0x0505 => (s.switchPlan, r)
    | 0x0602 =>
      let k : Byte := lget 0 r.reply 0
      (if k = 0 then s else { s with sextant := { s.sextant with selector := k.setWidth 2 } }, r)
    | 0x0802 => ({ s with nv := { s.nv with enrolled := true } }, r)
    | _ => (s, r)

/-- RESET_PART begins its reset after the reply (R540). -/
def State.resetAfter (s : State) (r : Running) : State :=
  if r.status = 0 ∧ r.pkt.opcode = 0x0701 then s.startReset else s

/-- COMMAND_COMPLETE: turned away while no command runs, or its work goes on. Arms that the command delayed are applied
after it. -/
def execCommandComplete (s : State) : Host.Outcome State Fault Refusal :=
  let s' := s.planAnnounce
  match s'.keeper.running with
  | none => .next s
  | some r =>
    if !s.keeperServes then .next s
    else if !s'.commandDone r then .next s'
    else
      let (s', r) := s'.lastWork r
      .next (((s'.endCommand r).resetAfter r).runArms)

end Sys2Proof.Machine
end

