-- ==== Sys2Proof/Machine/Edit.lean ====
section
/-! DEFINITION. EDT and EDK, editing a decimal value by an edit plan (06, R166 to R171). -/

namespace Sys2Proof.Machine

/-- The header of an edit plan (R166). -/
structure PlanHeader where
  steps : Nat
  fill : Byte
  ovfill : Byte
  digits : Nat
  zfill : Bool
deriving DecidableEq, Repr

/-- The header that eight bytes spell, none when a value is invalid (R166). -/
def planHeader (l : List Byte) : Option PlanHeader :=
  let steps := fieldLE l 2 2
  let digits := fieldLE l 6 1
  let flags := fieldLE l 7 1
  if fieldLE l 0 2 = 1 ∧ 1 ≤ steps ∧ steps ≤ 1024 ∧ 1 ≤ digits ∧ digits ≤ 63 ∧ flags ≤ 1 then
    some { steps := steps, fill := lget 0 l 4, ovfill := lget 0 l 5, digits := digits, zfill := flags == 1 }
  else none

/-- A plan step (R167). -/
structure PlanStep where
  dig : Bool
  weight : Nat
  lit : Byte
  act : Nat
deriving DecidableEq, Repr

/-- Every action nibble is one that R168 defines: OUT is not 0b11 and bit 3 is 0. -/
def actionsOk (act : Nat) : Bool := (nibbles 8 act).all fun a => decide (a < 8) && a % 4 != 3

/-- The step that eight bytes spell, none when a value is invalid (R167, R168). -/
def planStep (h : PlanHeader) (l : List Byte) : Option PlanStep :=
  let src := fieldLE l 0 1
  let dig := src / 64 == 1
  let w := src % 64
  let act := fieldLE l 4 4
  if src < 128 ∧ (dig = true ∨ w = 0) ∧ w < h.digits ∧ fieldLE l 2 2 = 0 ∧ actionsOk act = true then
    some { dig := dig, weight := w, lit := lget 0 l 1, act := act }
  else none

/-- How the value is edited (R169). -/
inductive EditMode where
  | tooLong | zero | edit
deriving DecidableEq, Repr

/-- The mode and CC of a value under a plan (R169). -/
def editMode (h : PlanHeader) (v : Int) : EditMode × Nat :=
  if 10 ^ h.digits ≤ v.natAbs then (.tooLong, 3)
  else if v = 0 ∧ h.zfill = true then (.zero, 0)
  else (.edit, ccValue v)

/-- The edit summary (R170): FSIG, NDIG and NEG. -/
structure Summary where
  fsig : Nat
  ndig : Nat
  neg : Bool
deriving DecidableEq, Repr

/-- The summary as G(RC+1) holds it. -/
def Summary.word (y : Summary) : Nat := packBits [(0, y.fsig % 2 ^ 16), (16, y.ndig % 2 ^ 16), (32, b2n y.neg)]

/-- The summary that G(RC+1) holds. -/
def summaryOf (w : Word) : Summary :=
  { fsig := (field w 0 16).toNat, ndig := (field w 16 16).toNat, neg := bit w 32 }

/-- The byte, the significance and the summary after a step (R168, R169). -/
def editStep (h : PlanHeader) (p : PlanStep) (v : Int) (i : Nat) (sig : Bool) (y : Summary) : Byte × Bool × Summary :=
  let d := if p.dig then v.natAbs / 10 ^ p.weight % 10 else 0
  let j := 4 * b2n sig + 2 * b2n (decide (v < 0)) + b2n (d != 0)
  let a := p.act / 16 ^ j % 16
  let out := a % 4
  let on := a / 4 % 2 == 1
  let b : Byte := if out = 0 then h.fill else if out = 1 then BitVec.ofNat 8 (0x30 + d) else p.lit
  let y := if out = 1 then
      { y with ndig := y.ndig + 1, fsig := if sig = false ∧ on = true then i else y.fsig }
    else y
  (b, sig || on, y)

/-- The steps of a segment: `r` is the output address of step `i0`, `plan` the plan's address. -/
def editUnits (c : Cx) (h : PlanHeader) (mode : EditMode) (v : Int) (r plan i0 : Nat) :
    Nat → Nat → Bool → Summary → M (Bool × Summary)
  | 0, _, sig, y => return (sig, y)
  | n + 1, k, sig, y => do
    spend c 1
    let i := i0 + k
    match mode with
    | .tooLong =>
      stringWrite c (r + k) [h.ovfill] false
      editUnits c h mode v r plan i0 n (k + 1) sig y
    | .zero =>
      stringWrite c (r + k) [h.fill] false
      editUnits c h mode v r plan i0 n (k + 1) sig y
    | .edit =>
      match planStep h (← stringRead c (plan + 8 + 8 * i) 8) with
      | none => specification (0x8000 + i)
      | some p =>
        let (b, sig, y) := editStep h p v i sig y
        stringWrite c (r + k) [b] false
        editUnits c h mode v r plan i0 n (k + 1) sig y

/-- A segment of EDT or EDK (R169). -/
def editSegment (c : Cx) (x : FmtA) (edk : Bool) (h : PlanHeader) (v : Int) : M SegEnd := do
  let (mode, cc) := editMode h v
  let fresh := !(← resuming c)
  let i ← if fresh then pure 0 else lenG c x.rc
  let sig := (← resumeState c) % 2 == 1
  let y ← if !edk || fresh then pure { fsig := h.steps, ndig := 0, neg := decide (v < 0) }
    else do pure (summaryOf (← getG c (x.rc + 1)))
  let r ← addrG c x.ra
  let k := min 64 (h.steps - i)
  let (sig, y) ← editUnits c h mode v r (← addrG c x.rb) i k 0 sig y
  putG c x.ra (r + k); putG c x.rc (i + k)
  if edk then putG c (x.rc + 1) y.word
  if h.steps ≤ i + k then
    setCC c cc
    return .done
  return .more (b2n sig)

/-- EDT and EDK (R144, R169 to R171). -/
def editOp (x : FmtA) (stop : Nat) (edk : Bool) : Macro where
  interruptible := true
  selfTimed := true
  count := fun c s =>
    let k := min 1024 ((s.bank c.slot).len x.rc)
    12 + k + commitTerm k
  body := fun c => do
    lengthIn x.len [.l4]
    zeroField (field x.mod 3 3)
    stringRegs x edk []
    allowedState c [0, 1]
    let plan ← addrG c x.rb
    addressRange plan 8
    let d := (field x.mod 0 3).setWidth 4
    fixedTerm c 12
    let v ← sourceD c 1 d
    match planHeader (← stringRead c plan 8) with
    | none => specification 0xC000
    | some h =>
      let i ← if ← resuming c then lenG c x.rc else pure 0
      require (decide (i ≤ h.steps))
      addressRange plan (8 + 8 * h.steps)
      let r ← addrG c x.ra
      addressRange r (h.steps - i)
      require (!overlap r (h.steps - i) plan (8 + 8 * h.steps))
      segments c stop (editSegment c x edk h v) 18 0

/-- EDT (R169). -/
def execEdt (e : Eng) (x : FmtA) (stop : Nat) (s : State) : Host.Outcome State Fault Refusal :=
  macroNext e x.pred x.len (editOp x stop false) s

/-- EDK (R169, R170). -/
def execEdk (e : Eng) (x : FmtA) (stop : Nat) (s : State) : Host.Outcome State Fault Refusal :=
  macroNext e x.pred x.len (editOp x stop true) s

end Sys2Proof.Machine
end

