-- ==== Sys2Proof/Machine/Posting.lean ====
section
/-! DEFINITION. The posting and fence instructions, and the store buffer's and the posts' own steps (08; R102, R216 to
R229). -/

namespace Sys2Proof.Machine

/-! ### Issue (R216 to R224) -/

/-- The total of a posting instruction: inside one 32-byte aligned block, in normal memory of a posting region; its
physical address and home (R224 steps 1 to 4). -/
def postTarget (c : Cx) (ea len : Nat) (acc : Acc) : M (Nat × Fin 40) := do
  require (decide (ea % 32 + len ≤ 32))
  let ps ← pieces c.e c.slot acc ea len
  if (← get).anyDevice ps then specification
  let pa := match ps with | (pa, _) :: _ => pa | [] => 0
  match (← get).homeOf pa with
  | none => specification 0x20
  | some u => return (pa, u)

/-- Room for one more outstanding post: with 8 outstanding, the oldest is performed and its reply taken first (R221). -/
def State.postRoom (s : State) (e : Eng) : State :=
  match (s.eng e).posts with
  | p :: rest =>
    if rest.length < 7 then s else
    let s := if p.result.isSome then s else s.performQueue p.home
    let r := match (s.eng e).posts with | q :: _ => q.result | [] => none
    let reply := match (s.eng e).posts with | q :: _ => q.reply | [] => 0
    let s := (s.modEng e fun x => { x with posts := x.posts.drop 1 }).waitPost e (reply - postBack e p.home)
    match r with
    | some r => (s.countTerm e (postTerm e p.home)).unwaitedReply e p r
    | none => s
  | [] => s

/-- A post issues after the documented count `n` of its instruction: the store buffer drains, outstanding posts are waited
for unless all of them share its home and it does not wait itself, and it queues at its home (R221, R222). -/
def issue (c : Cx) (n : Nat) (p : Post) : M Done := do
  modify (·.drainAll c.e)
  let out := ((← get).eng c.e).posts
  let alone := p.waited || out.any (fun q => q.home != p.home)
  if alone then modify (·.awaitPosts c.e) else modify (·.postRoom c.e)
  modify fun s =>
    let p := { p with arrive := (s.eng c.e).clock + n + (postTerm c.e p.home).cycles - postBack c.e p.home }
    let s := (s.modEng c.e fun x => { x with posts := x.posts ++ [p], wait := if p.waited then .post else x.wait }).tick
      c.e 18 1
    { s with homes := tset [] s.homes p.home.val (tget [] s.homes p.home.val ++ [c.e]) }
  return if p.waited then .waits else .seq

/-- A post of the context, not yet performed. -/
def mkPost (c : Cx) (kind : PostKind) (ra : BitVec 4) (ea pa len : Nat) (home : Fin 40) : M Post := do
  let doe := pswDOE (← getPsw c)
  return { kind := kind, slot := BitVec.ofNat 8 c.slot, va := BitVec.ofNat 64 ea, pa := pa, len := len, u := false,
           waited := true, doe := doe, home := home, ra := ra, val := 0, val2 := 0, ilen := BitVec.ofNat 4 c.len,
           arrive := 0, reply := 0, result := none }

/-- PST (R216, R217). -/
def execPst (e : Eng) (x : FmtB) (s : State) : Host.Outcome State Fault Refusal :=
  macroNext e x.pred x.len
    { count := fun _ _ => 8
      body := fun c => do
        lengthIn x.len [.l8, .l12]
        lowReg x.ra
        zeroField (field x.mod2 1 31)
        let ea := x.ea (← getBank c)
        let len := (field x.mod 0 5).toNat + 1
        let (pa, u) ← postTarget c ea len .write
        let _ ← sourceD c 1 x.ra
        let v ← getD' c x.ra
        let p ← mkPost c .pst x.ra ea pa len u
        issue c 8 { p with waited := bit x.mod 5, u := bit x.mod2 0, val := v } } s

/-- PSX (R216, R218): a new value that does not fit under DOE is refused before issue. -/
def execPsx (e : Eng) (x : FmtB) (s : State) : Host.Outcome State Fault Refusal :=
  macroNext e x.pred x.len
    { count := fun _ _ => 10
      body := fun c => do
        lengthIn x.len [.l8, .l12]
        lowReg x.ra
        evenReg x.ra
        zeroField (field x.mod 5 1)
        zeroField (field x.mod2 1 31)
        let ea := x.ea (← getBank c)
        let len := (field x.mod 0 5).toNat + 1
        let (pa, u) ← postTarget c ea len .write
        let _ ← sourceD c 1 x.ra
        let w ← sourceD c 2 (x.ra + 1)
        let _ ← finishM c w (2 * len - 1) (bit x.mod2 0)
        let v ← getD' c x.ra
        let v2 ← getD' c (x.ra + 1)
        let p ← mkPost c .psx x.ra ea pa len u
        issue c 10 { p with u := bit x.mod2 0, val := v, val2 := v2 } } s

/-- PRD (R216, R219). -/
def execPrd (e : Eng) (x : FmtB) (s : State) : Host.Outcome State Fault Refusal :=
  macroNext e x.pred x.len
    { count := fun _ _ => 6
      body := fun c => do
        lengthIn x.len [.l8, .l12]
        lowReg x.ra
        zeroField (field x.mod 5 1)
        zeroField x.mod2
        let ea := x.ea (← getBank c)
        let len := (field x.mod 0 5).toNat + 1
        let (pa, u) ← postTarget c ea len .read
        issue c 6 (← mkPost c .prd x.ra ea pa len u) } s

/-- PBN (R216, R220). -/
def execPbn (e : Eng) (x : FmtB) (s : State) : Host.Outcome State Fault Refusal :=
  macroNext e x.pred x.len
    { count := fun _ _ => 6
      body := fun c => do
        lengthIn x.len [.l8, .l12]
        zeroField x.mod
        zeroField x.mod2
        let ea := x.ea (← getBank c)
        require (decide (ea % 8 = 0))
        let (pa, u) ← postTarget c ea 8 .write
        let v ← getG c x.ra
        let p ← mkPost c .pbn x.ra ea pa 8 u
        issue c 6 { p with val := v.setWidth 256 } } s

/-! ### Fences (R229) -/

/-- A fence: every field zero; the store buffer drains and no post is outstanding; `after` is its further effect. -/
def fence (x : FmtA) (count : Nat) (after : Cx → State → State) : Macro where
  count := fun _ _ => count
  body := fun c => do
    lengthIn x.len [.l4]
    zeroField x.ra; zeroField x.rb; zeroField x.rc; zeroField x.mod
    modify fun s => after c ((s.drainAll c.e).awaitPosts c.e)
    return .seq

/-- SYNC (R229). -/
def execSync (e : Eng) (x : FmtA) (s : State) : Host.Outcome State Fault Refusal :=
  macroNext e x.pred x.len (fence x 2 fun _ s => s) s

/-- SYNCW: a CSR write takes effect and a host-window write is sent at the store itself, so none is waited for (R229,
R230). -/
def execSyncw (e : Eng) (x : FmtA) (s : State) : Host.Outcome State Fault Refusal :=
  macroNext e x.pred x.len (fence x 2 fun _ s => s) s

/-- SYNCR: the line buffer is emptied (R229). -/
def execSyncr (e : Eng) (x : FmtA) (s : State) : Host.Outcome State Fault Refusal :=
  macroNext e x.pred x.len (fence x 3 fun c s => s.modEng c.e fun y => { y with lineBuf := [] }) s

/-! ### Steps of the store buffer, the homes and the replies -/

/-- STORE_BUFFER_DRAIN: the oldest entry drains, unless the buffer is empty or the entry still open (R102). -/
def execStoreBufferDrain (e : Eng) (s : State) : Host.Outcome State Fault Refusal :=
  match (s.eng e).sb with
  | y :: _ => .next (if y.opened || y.held then s else s.drainOne e)
  | [] => .next s

/-- POST_PERFORM: home `unit` performs the oldest post in its queue (R210, R222). -/
def execPostPerform (unit : Fin 40) (s : State) : Host.Outcome State Fault Refusal := .next (s.performAt unit)

/-- What the reply of a post writes: CC and the D or G register (R217 to R220). -/
def postWrites (c : Cx) (p : Post) (cc : Option (BitVec 2)) (d : Option (BitVec 256)) (g : Option Word) : M Done := do
  match cc with
  | some v => setCC c v.toNat
  | none => pure ()
  match d with
  | some v => setD c p.ra v
  | none => pure ()
  match g with
  | some v => setG c p.ra v
  | none => pure ()
  return .seq

/-- The work that a waiting post's reply completes: its registers, its precise exception, or machine check 0x13 (R217,
R224, R536). -/
def waitedReply (c : Cx) (p : Post) : PostResult → M Done
  | .done cc d g => postWrites c p cc d g
  | .failed x => throw (.exc x.cause.toNat x.detail.toNat x.eaddr.toNat)
  | .poisoned => throw (.mcheck 0x13 p.va.toNat (p.pa / 64 * 64))

/-- POST_REPLY: the reply of the oldest outstanding post arrives, if its home has performed it (R221 to R223). The machine
check of an unwaited post is taken at an interruption point, or at once with no running level (R536). -/
def execPostReply (e : Eng) (s : State) : Host.Outcome State Fault Refusal :=
  match (s.eng e).posts with
  | [] => .next s
  | p :: rest =>
    match p.result with
    | none => .next s
    | some r =>
      let s1 := s.modEng e fun x => { x with posts := rest }
      if p.waited then
        let s2 := ((s1.modEng e fun x => { x with wait := .none }).waitPost e p.reply).countTerm e (postTerm e p.home)
        let c : Cx := { e := e, n := Fin.ofNat 8 (p.slot.toNat % 8), len := p.ilen.toNat }
        .next (s2.finishWork c 0 ((waitedReply c p r).exec s2))
      else
        let s2 := s1.unwaitedReply e p r
        .next (if (s2.eng e).atPoint then s2.takePostCheck e else s2)

end Sys2Proof.Machine
end

