-- ==== Sys2Proof/Machine/Tap.lean ====
section
/-! DEFINITION. The test access port (R582 to R586). Each row loads its instruction through Shift-IR and, where it carries
bits, shifts them through the data register of that instruction. -/

namespace Sys2Proof.Machine

/-- The instruction register's capture value 0b0000_0001, least significant bit first (R583). -/
def irCapture : List Bool := [true, false, false, false, false, false, false, false]

/-- The device identification register (R586). -/
def deviceId : BitVec 32 := 0x132564E7

/-- The bits of a shift register after bits are shifted in, and those shifted out. -/
def shiftBits (reg bits : List Bool) : List Bool × List Bool :=
  ((reg ++ bits).drop bits.length, (reg ++ bits).take bits.length)

/-- RESET_N low: the compliance-enable condition (R584). -/
def State.compliance (s : State) : Bool := s.pins.resetN

/-- What drives the balls that the boundary register can drive (R583 to R585). -/
inductive BallDrive where
  | part | boundary | released
deriving DecidableEq, Repr

/-- Who drives the balls under the instruction in force: EXTEST, EXTEST_PULSE, EXTEST_TRAIN and CLAMP hand them to the
boundary register and HIGHZ releases them, all only while RESET_N is low. -/
def State.ballDrive (s : State) : BallDrive :=
  if !s.compliance then .part
  else if [0x00, 0x04, 0x08, 0x09].contains s.tap.ir.toNat then .boundary
  else if s.tap.ir = 0x05 then .released else .part

/-- An instruction loaded, and what its shifts delivered. -/
def State.loadIr (s : State) (ir : BitVec 8) (out : List Bool) : State :=
  { s with tap := { s.tap with ir := ir, tdo := irCapture ++ out } }

/-- The captured boundary register shifted and updated. -/
def State.shiftBoundary (s : State) (ir : BitVec 8) (captured bits : List Bool) : State :=
  let (reg, out) := shiftBits captured bits
  let s := s.loadIr ir out
  { s with tap := { s.tap with boundary := reg } }

/-- Bits through the bypass register, which captures 0. -/
def State.shiftBypass (s : State) (ir : BitVec 8) (bits : List Bool) : State :=
  s.loadIr ir (shiftBits [false] bits).2

/-- What the boundary cells capture from the balls of a part in reset: nothing in the part determines it. -/
def State.captured (s : State) : List Bool := (List.range 1118).map (Config.ballLevel s.draws)

/-- EXTEST and its kin: as the standards define while RESET_N is low, as BYPASS otherwise (R584). -/
def State.externalTest (s : State) (ir : BitVec 8) (bits : List Bool) : State :=
  if s.compliance then { s with draws := s.draws + 1 }.shiftBoundary ir s.captured bits else s.shiftBypass ir bits

/-- TAP_RESET: IDCODE is in force (R582, R583). DESIGN CHOICE: it disables the trace port. -/
def execTapReset (s : State) : Host.Outcome State Fault Refusal :=
  .next { s with tap := { s.tap with ir := 0x01, trace := false } }

/-- The balls TRC_CLK and TRC_D[6:0]: debug data while the development fuse is intact and the trace port enabled, driven
low otherwise (R573). -/
def State.tracePort (s : State) : BitVec 8 :=
  if s.nv.fuses.development && s.tap.trace then Config.traceData s.draws else 0

/-- EXTEST. -/
def execExtest (shift : List Bool) (s : State) : Host.Outcome State Fault Refusal := .next (s.externalTest 0x00 shift)

/-- IDCODE: the 32 bits of the device identification register, least significant bit first. -/
def execIdcode (s : State) : Host.Outcome State Fault Refusal :=
  .next (s.loadIr 0x01 ((List.range 32).map (bit deviceId)))

/-- SAMPLE/PRELOAD: `balls` is what the cells capture. Turned away with another number of cells. -/
def execSamplePreload (balls : List Bool) (shift : List Bool) (s : State) : Host.Outcome State Fault Refusal :=
  if balls.length ≠ 1118 then .next s else .next (s.shiftBoundary 0x02 balls shift)

/-- CLAMP. -/
def execClamp (s : State) : Host.Outcome State Fault Refusal := .next (s.loadIr 0x04 [])

/-- HIGHZ. -/
def execHighz (s : State) : Host.Outcome State Fault Refusal := .next (s.loadIr 0x05 [])

/-- EXTEST_PULSE. -/
def execExtestPulse (shift : List Bool) (s : State) : Host.Outcome State Fault Refusal := .next (s.externalTest 0x08 shift)

/-- EXTEST_TRAIN. -/
def execExtestTrain (shift : List Bool) (s : State) : Host.Outcome State Fault Refusal := .next (s.externalTest 0x09 shift)

/-- The vendor-private instruction that enables the trace port (R573): one of the codes 0x80 to 0x9F (R583). -/
def traceCode : BitVec 8 := 0x80 + Config.traceOffset.setWidth 8

/-- The codes of the other instructions of R583. -/
def listedCodes : List (BitVec 8) := [0x00, 0x01, 0x02, 0x04, 0x05, 0x08, 0x09]

/-- The code that acts as BYPASS in this scan. -/
def bypassCode (k : Nat) : BitVec 8 := if listedCodes.contains (Config.scannedCode k) then 0xFF else Config.scannedCode k

/-- BYPASS: 0xFF or another code that the table of R583 does not list; which is a free value, for the row carries none. A
private code selects a vendor test register while the development fuse is intact, and one of them enables the trace port
(R573). -/
def execBypass (s : State) : Host.Outcome State Fault Refusal :=
  let code := bypassCode s.draws
  let s := { s with draws := s.draws + 1 }.loadIr code []
  let on := s.nv.fuses.development && code == traceCode
  .next { s with tap := { s.tap with trace := s.tap.trace || on } }

end Sys2Proof.Machine
end

