-- ==== Sys2Proof/Machine/Tumbler.lean ====
section
/-! DEFINITION. The instructions of Tumbler (09): KSET, KGET and the TLB invalidations (R249 to R256). -/

namespace Sys2Proof.Machine

/-- The state in which an instruction restricted to key 0 may run (R60). -/
def needKeyZero (c : Cx) : M Unit := do
  let p ← getPsw c
  if !(pswPRIV p && pswKEY p == 0) then privileged

/-- The wait of SYNC (R229, R253). -/
def syncWait (c : Cx) : M Unit := modify fun s => (s.drainAll c.e).awaitPosts c.e

/-- The key array's line of a DRAM frame is written through the data cache (R245, R256). -/
def State.writeKeyLine (s : State) (e : Eng) (line : Nat) : State :=
  let (t, s) := s.cacheAccess e line true
  ((s.countTerm e t).waitTerm e t.cycles).noteStale line

/-- KSET (R249). -/
def execKset (e : Eng) (x : FmtA) (s : State) : Host.Outcome State Fault Refusal :=
  macroNext e x.pred x.len
    { count := fun _ _ => 16
      body := fun c => do
        lengthIn x.len [.l4]
        zeroField x.rc; zeroField x.mod
        needKeyZero c
        let pa := (field (← getG c x.ra) 12 34).toNat * 4096
        let v ← getG c x.rb
        require (field v 8 2 != 3 && field v 10 54 == 0)
        match (← get).paClass pa with
        | .reserved => accessFault 13 .write 0 pa
        | .host _ | .csr _ => specification
        | _ =>
          modify (·.keyRead pa)
          if (← get).keyUnreadable pa then throw (.mcheck 3 pa pa)
        if (← get).erasing pa then accessFault 14 .write 0 pa
        syncWait c
        modify fun s =>
          let s := if s.paClass pa = .dram then s.writeKeyLine c.e (s.keyLine pa) else s
          (s.setKey (pa / 4096) { lock := field v 0 8, share := field v 8 2 }).tlbDrop fun t =>
            t.frame.toNat == pa / 4096
        return .seq } s

/-- KGET (R251). -/
def execKget (e : Eng) (x : FmtA) (s : State) : Host.Outcome State Fault Refusal :=
  macroNext e x.pred x.len
    { count := fun _ _ => 3
      body := fun c => do
        lengthIn x.len [.l4]
        zeroField x.rc; zeroField x.mod
        let va := (← getG c x.rb).toNat
        addressRange va 1
        let (_, l) ← translate c.e c.slot .kget va
        setG c x.ra (BitVec.ofNat 64 (packBits [(0, l.key.lock.toNat), (8, l.key.share.toNat), (10, l.pki), (14, b2n l.w),
          (15, b2n l.x), (16, b2n l.p), (17, b2n l.a), (18, b2n l.d)]))
        return .seq } s

/-- TLBIA (R252, R253). -/
def execTlbia (e : Eng) (x : FmtA) (s : State) : Host.Outcome State Fault Refusal :=
  macroNext e x.pred x.len
    { count := fun _ _ => 12
      body := fun c => do
        lengthIn x.len [.l4]
        zeroField x.rb; zeroField x.rc; zeroField x.mod
        needPriv c
        let page : BitVec 36 := field (← getG c x.ra) 12 36
        let key := pswKEY (← getPsw c)
        syncWait c
        modify (·.tlbDrop fun t => t.dom.toNat == key && t.vpn == page)
        return .seq } s

/-- TLBID: another domain than the current key's needs key 0 (R60, R252, R253). -/
def execTlbid (e : Eng) (x : FmtA) (s : State) : Host.Outcome State Fault Refusal :=
  macroNext e x.pred x.len
    { count := fun _ _ => 12
      body := fun c => do
        lengthIn x.len [.l4]
        zeroField x.rb; zeroField x.rc; zeroField x.mod
        let v ← getG c x.ra
        let key := pswKEY (← getPsw c)
        needPriv c
        if (field v 0 8).toNat ≠ key then needKeyZero c
        zeroField (field v 8 56)
        syncWait c
        modify (·.tlbDrop fun t => t.dom == field v 0 8)
        return .seq } s

/-- TLBIX (R252, R253). -/
def execTlbix (e : Eng) (x : FmtA) (s : State) : Host.Outcome State Fault Refusal :=
  macroNext e x.pred x.len
    { count := fun _ _ => 12
      body := fun c => do
        lengthIn x.len [.l4]
        zeroField x.ra; zeroField x.rb; zeroField x.rc; zeroField x.mod
        needKeyZero c
        syncWait c
        modify (·.tlbDrop fun _ => true)
        return .seq } s

end Sys2Proof.Machine
end

