-- ==== Sys2Proof/Machine/Upkeep.lean ====
section
/-! DEFINITION. What the DRAM controllers do by themselves (R344, R351, R352, R357, R361, R495), and the corrected records
that wait in Keeper's log (R529). -/

namespace Sys2Proof.Machine

/-- A performance counter of a DMC grows by 1: counter `k` of R558. -/
def State.dmcTick (s : State) (m : Fin 2) (k : Nat) : State := s.count (dmcBase m.val + 0x120 + 8 * k) 1

/-- The controller runs: its channel is enabled, its PLL locked, and the part is neither in reset nor DORMANT. -/
def State.dmcRuns (s : State) (m : Fin 2) : Bool :=
  (s.dmc m).enabled && s.pcm.dpll && !s.power.resetting && s.power.part != .dormant

/-- Every fill in progress at a channel is completed (R359). -/
def State.endFills (s : State) (m : Fin 2) : State := (s.dmc m).trackers.foldl (fun s t => s.endFill m t.gran) s

/-- SELF_REFRESH_ENTRY (R359, R495): the fills in progress are completed first. Turned away outside WATCH. -/
def execSelfRefreshEntry (m : Fin 2) (s : State) : Host.Outcome State Fault Refusal :=
  if !s.dmcRuns m || s.power.part != .watch || (s.dmc m).selfRefresh then .next s
  else .next (((s.endFills m).modDmc m fun d => { d with selfRefresh := true }).dmcTick m 4)

/-- DRAM_REFRESH (R344): turned away while the module refreshes itself. -/
def execDramRefresh (m : Fin 2) (s : State) : Host.Outcome State Fault Refusal :=
  if !s.dmcRuns m || (s.dmc m).selfRefresh then .next s else .next ((s.dmcTick m 3).send (.refresh m))

/-! ### Patrol scrubber (R351, R352) -/

/-- Lines of a granule (R354). -/
def granLines : Nat := 16384

/-- The first TOUCHED granule from `g` up. -/
def Dmc.touchedFrom (d : Dmc) : Nat → Nat → Option Nat
  | 0, _ => none
  | fuel + 1, g => if d.granule g = .touched then some g else d.touchedFrom fuel (g + 1)

/-- The next line that the scrubber reads from line `n` of the channel on: UNTOUCHED and FILLING granules are skipped. -/
def Dmc.scrubLine (d : Dmc) (n : Nat) : Option Nat :=
  let g := n / granLines
  match d.touchedFrom (d.capacity / 2 ^ 20 - g) g with
  | none => none
  | some k => some (if k = g then n else k * granLines)

/-- The line number of line `n` of a channel: DRAM below its key array, key-array lines above. -/
def State.channelLine (s : State) (m : Fin 2) (n : Nat) : Nat :=
  let u := (s.dmc m).usable / 64
  if n < u then s.channelAddr m (n * 64) / 64 else 2 ^ 40 + m.val * 2 ^ 32 + (n - u)

/-- Whether a line carries poison already. -/
def State.linePoisoned (s : State) (line : Nat) : Bool :=
  if line < 2 ^ 40 then tget false s.mem.poison line else tget false s.mem.keyPoison line

/-- One line scrubbed (R352): a corrected error is logged, and its line written back unless a cluster holds it in M; an
uncorrectable one is poisoned, or logged with TYPE 0x03 when a cluster holds the line in M. -/
def State.scrub (s : State) (m : Fin 2) (line : Nat) : State :=
  let s := (s.dramAwake line).dmcTick m 14
  let source := s.memSource line
  let lock := s.lineLock line
  let held := s.heldDirty line
  let fixed (s : State) (k loc : Nat) (device : Option Nat) : State :=
    let s := s.correctedLine line source 1 k loc device
    if held then s else s.dropErrs (· == line)
  if s.linePoisoned line then s
  else match s.arrayRead line with
    | (.clean, k, loc, s) => if k = 0 then s else fixed s k loc none
    | (.corrected d, k, loc, s) => fixed s k loc d
    | (.uncorrectable, k, loc, s) =>
      if held then
        (s.dmcUe m.val line).record lock 1 1 (sourceOrigin source) (memDetail (recPaddr line) source 3 1 k loc none lock)
      else s.poisonLine line source 1 k loc

/-- The scrubber's place after line `n`: a pass that has no further line ends. -/
def Dmc.scrubbed (d : Dmc) (n : Nat) : Dmc :=
  match d.scrubLine (n + 1) with
  | some k => { d with scrubPos := k, scrubActive := true }
  | none => { d with scrubPos := 0, scrubActive := false, passes := d.passes + 1 }

/-- PATROL_SCRUB_READ: turned away while PERIOD is 0 or no granule is TOUCHED. A pass whose last granules have been
returned to UNTOUCHED ends. -/
def execPatrolScrubRead (m : Fin 2) (s : State) : Host.Outcome State Fault Refusal :=
  let d := s.dmc m
  if !s.dmcRuns m || d.period == 0 then .next s
  else match d.scrubLine d.scrubPos with
    | some n => .next ((s.scrub m (s.channelLine m n)).modDmc m fun d => d.scrubbed n)
    | none =>
      if d.scrubPos = 0 then .next s
      else .next (s.modDmc m fun d => { d with scrubPos := 0, scrubActive := false, passes := d.passes + 1 })

/-! ### Fill trackers (R357) -/

/-- The first unmarked line from `l` up. -/
def Tracker.unmarked (t : Tracker) : Nat → Nat → Option Nat
  | 0, _ => none
  | fuel + 1, l => if t.marked.contains l then t.unmarked fuel (l + 1) else some l

/-- A fill goes on: the next unmarked line is zero-filled; after the last one the granule is TOUCHED and the tracker free. -/
def Dmc.fillStep (d : Dmc) (t : Tracker) (l : Nat) : Dmc :=
  match t.unmarked (granLines - (l + 1)) (l + 1) with
  | none => d.endTracker t.gran
  | some _ => { d with trackers := d.trackers.map fun x => if x.gran = t.gran then { x with pos := l + 1 } else x }

/-- FILL_TRACKER_STEP: turned away when the controller has no tracker `k` in use. -/
def execFillTrackerStep (m : Fin 2) (k : Nat) (s : State) : Host.Outcome State Fault Refusal :=
  if !s.dmcRuns m then .next s
  else match (s.dmc m).trackers[k]? with
    | none => .next s
    | some t =>
      match t.unmarked (granLines - t.pos) t.pos with
      | none => .next (s.modDmc m fun d => d.endTracker t.gran)
      | some l =>
        let line := s.channelLine m (t.gran * granLines + l)
        .next (((s.dropErrs (· == line)).modDmc m fun d => d.fillStep t l).dmcTick m 13)

/-! ### Corrected records (R529) -/

/-- One second in ticks of the Chronometer. -/
def oneSecond : Nat := 100000000

/-- The pending corrected errors of an origin are written as one record, with the detail and TIME of the latest. The
DOMAIN of a memory record is the LOCK of its detail (R362). -/
def State.flushCorrected (s : State) (origin : Byte) (c : Corrected) : State :=
  let c' := { c with last := some s.pcm.chrono, pending := 0 }
  let s := { s with log := { s.log with corrected := tset default s.log.corrected origin.toNat c' } }
  s.logRec { seq := 0, sev := 0, kind := correctedKind origin, dom := lget 0 c.detail 14, origin := origin, time := c.time,
             detail := c.detail, count := c.pending, flags := 0 }

/-- CORRECTED_RECORD_FLUSH: turned away when nothing is pending, or 1 s has not passed. -/
def execCorrectedRecordFlush (origin : Byte) (s : State) : Host.Outcome State Fault Refusal :=
  let c := tget default s.log.corrected origin.toNat
  match c.last with
  | none => .next s
  | some t =>
    if c.pending = 0 ∨ s.pcm.chrono.toNat < t.toNat + oneSecond ∨ s.power.part = .dormant then .next s
    else .next (s.flushCorrected origin c)

end Sys2Proof.Machine
end

