-- ==== Sys2Proof/Machine/Xcode.lean ====
section
/-! DEFINITION. XCD, transcoding between text encodings (06, R159 to R165). -/

namespace Sys2Proof.Machine

/-- A Unicode scalar value (R80). -/
def isScalar (v : Nat) : Bool := decide (v ≤ 0x10FFFF) && !(decide (0xD800 ≤ v) && decide (v ≤ 0xDFFF))

/-- A source unit at the current byte (R160): valid with its scalar, invalid, or truncated, each with its length. -/
inductive XUnit where
  | valid (scalar len : Nat)
  | invalid (len : Nat)
  | truncated (len : Nat)
deriving DecidableEq, Repr

/-- Bytes of the unit. -/
def XUnit.len : XUnit → Nat
  | .valid _ n | .invalid n | .truncated n => n

/-! ### UTF-8 (R80, R160, R161) -/

/-- An access of the unit in progress whose byte is the `n`-th of it: a fault ends the segment in that byte's cycle, which
counts (R174). -/
def faultAt {α : Type} (c : Cx) (n : Nat) (m : M α) : M α :=
  tryCatch m fun t => do
    spend c n
    throw t

/-- Byte `k` of the unit at `a`, of which the segment has room for `room` bytes. A byte beyond the segment that cannot be
read answers none: the unit is left to the next segment, which reads it again (R136). -/
def unitByte (c : Cx) (a room k : Nat) : M (Option Nat) :=
  if room ≤ k then
    tryCatch (do return some (← stringByte c (a + k)).toNat) fun _ => return none
  else do return some (← faultAt c (k + 1) (stringByte c (a + k))).toNat

/-- The length that a first byte of UTF-8 announces, 0 when no valid sequence begins with it. -/
def utf8Len (b : Nat) : Nat :=
  if b < 0x80 then 1 else if b < 0xC2 then 0 else if b < 0xE0 then 2 else if b < 0xF0 then 3 else if b < 0xF5 then 4 else 0

/-- Byte `k` ≥ 1 may follow in a sequence that begins with `first`. -/
def utf8Follow (first k b : Nat) : Bool :=
  let lo := if k = 1 then (if first = 0xE0 then 0xA0 else if first = 0xF0 then 0x90 else 0x80) else 0x80
  let hi := if k = 1 then (if first = 0xED then 0x9F else if first = 0xF4 then 0x8F else 0xBF) else 0xBF
  decide (lo ≤ b) && decide (b ≤ hi)

/-- The scalar value of a whole sequence: `acc` holds the bits of the bytes before. -/
def utf8Start (first len : Nat) : Nat :=
  match len with
  | 1 => first | 2 => first % 32 | 3 => first % 16 | _ => first % 8

/-- The bytes after the first: `k` read so far, `rem` bytes left in the source, `room` in the segment. -/
def utf8Rest (c : Cx) (a first len rem room : Nat) : Nat → Nat → Nat → M XUnit
  | 0, k, acc => return .valid acc k
  | n + 1, k, acc => do
    if rem ≤ k then return .truncated k
    match ← unitByte c a room k with
    | none => return .truncated (k + 1)
    | some b =>
      if utf8Follow first k b then utf8Rest c a first len rem room n (k + 1) (acc * 64 + b % 64)
      else return .invalid k

/-- The unit of UTF-8 at `a`. -/
def utf8Unit (c : Cx) (a rem room : Nat) : M XUnit := do
  let b := (← faultAt c 1 (stringByte c a)).toNat
  let n := utf8Len b
  if n = 0 then return .invalid 1
  utf8Rest c a b n rem room (n - 1) 1 (utf8Start b n)

/-- A scalar in shortest-form UTF-8. -/
def utf8Out (v : Nat) : List Byte :=
  let t (k : Nat) : Nat := 0x80 + v / 64 ^ k % 64
  (if v < 0x80 then [v]
   else if v < 0x800 then [0xC0 + v / 64, t 0]
   else if v < 0x10000 then [0xE0 + v / 4096, t 1, t 0]
   else [0xF0 + v / 262144, t 2, t 1, t 0]).map (BitVec.ofNat 8)

/-! ### UTF-16LE (R160, R161) -/

/-- A high surrogate. -/
def isHigh (u : Nat) : Bool := decide (0xD800 ≤ u) && decide (u < 0xDC00)
/-- A low surrogate. -/
def isLow (u : Nat) : Bool := decide (0xDC00 ≤ u) && decide (u < 0xE000)

/-- Bytes `k` and `k` + 1 of the unit at `a` as a code unit of UTF-16LE. -/
def unit16 (c : Cx) (a room k : Nat) : M (Option Nat) := do
  match ← unitByte c a room k with
  | none => return none
  | some l =>
    match ← unitByte c a room (k + 1) with
    | none => return none
    | some h => return some (l + 256 * h)

/-- The unit of UTF-16LE at `a`. -/
def utf16Unit (c : Cx) (a rem room : Nat) : M XUnit := do
  if rem = 1 then return .truncated 1
  match ← unit16 c a room 0 with
  | none => return .truncated 2
  | some u =>
    if isLow u then return .invalid 2
    if !isHigh u then return .valid u 2
    if rem = 2 then return .truncated 2
    if rem = 3 then return .invalid 2
    match ← unit16 c a room 2 with
    | none => return .truncated 4
    | some w =>
      if isLow w then return .valid (0x10000 + (u - 0xD800) * 1024 + (w - 0xDC00)) 4
      return .invalid 2

/-- A scalar in UTF-16LE. -/
def utf16Out (v : Nat) : List Byte :=
  if v < 0x10000 then natLE 2 v
  else natLE 2 (0xD800 + (v - 0x10000) / 1024) ++ natLE 2 (0xDC00 + (v - 0x10000) % 1024)

/-! ### Code-page tables (R164, R165) -/

/-- The unit of a table code page at `a`: its DEC entry decides (R160). -/
def tableUnit (c : Cx) (table a : Nat) : M XUnit := do
  let b ← faultAt c 1 (stringByte c a)
  let v := leNat (← faultAt c 1 (stringRead c (table + 8 + 4 * b.toNat) 4))
  return if isScalar v then .valid v 1 else .invalid 1

/-- The code byte of a scalar in a table, or none when it is unmappable (R161, R165). -/
def tableOut (c : Cx) (table nb v : Nat) : M (Option (List Byte)) := do
  if 0xFFFF < v then return none
  let blk := leNat (← stringRead c (table + 1032 + 2 * (v / 256)) 2)
  if nb < blk then specification 0x4001
  if blk = 0 then return none
  let en := leNat (← stringRead c (table + 1544 + 512 * (blk - 1) + 2 * (v % 256)) 2)
  if en / 256 % 128 ≠ 0 then specification 0x4001
  return if en / 32768 = 1 then some [BitVec.ofNat 8 en] else none

/-! ### The instruction (R162) -/

/-- The fields of IMM16 (R134). -/
structure XFields where
  senc : Nat
  denc : Nat
  act : Nat
  rt : BitVec 4
deriving DecidableEq, Repr

/-- The fields of an XCD. -/
def xcdFields (x : FmtA) : XFields where
  senc := (field x.imm 0 3).toNat
  denc := (field x.imm 3 3).toNat
  act := (field x.imm 6 2).toNat
  rt := field x.imm 8 4

/-- A table code page is selected. -/
def XFields.usesTable (f : XFields) : Bool := f.senc == 3 || f.denc == 3

/-- The unit at the source address, with `rem` bytes left in the source and room for `room` in the segment. -/
def readUnit (c : Cx) (f : XFields) (table a rem room : Nat) : M XUnit :=
  match f.senc with
  | 0 => utf8Unit c a rem room
  | 1 => utf16Unit c a rem room
  | 2 => do return .valid (← faultAt c 1 (stringByte c a)).toNat 1
  | _ => tableUnit c table a

/-- The encoding of a scalar in the destination, none when it is unmappable. -/
def encodeUnit (c : Cx) (f : XFields) (table nb v : Nat) : M (Option (List Byte)) :=
  match f.denc with
  | 0 => return some (utf8Out v)
  | 1 => return some (utf16Out v)
  | 2 => return (if v ≤ 0xFF then some [BitVec.ofNat 8 v] else none)
  | _ => tableOut c table nb v

/-- The replacement in the destination encoding (R161). -/
def replacement (denc : Nat) : List Byte :=
  match denc with
  | 0 => [0xEF, 0xBF, 0xBD]
  | 1 => [0xFD, 0xFF]
  | _ => [0x3F]

/-- How a run of units ends: CC at a stop, or the end of the segment; with the destination bytes written and the source
bytes consumed. -/
structure XRun where
  cc : Option Nat
  wrote : Nat
  read : Nat
deriving DecidableEq, Repr

/-- Units of one segment: `d` and `a` are the addresses at the segment's start, `n` and `m` the lengths left there, `wrote`
and `read` the progress within it (R162). A full segment reads no further unit (R136); the cycles of a unit are spent
before the accesses that follow its own bytes (R174). -/
def xcdUnits (c : Cx) (f : XFields) (table nb d a n m : Nat) : Nat → Nat → Nat → M XRun
  | 0, wrote, read => return { cc := none, wrote := wrote, read := read }
  | fuel + 1, wrote, read => do
    let stop (cc : Nat) : XRun := { cc := some cc, wrote := wrote, read := read }
    if m ≤ read then return stop 0
    if 64 ≤ read then return { cc := none, wrote := wrote, read := read }
    let u ← readUnit c f table (a + read) (m - read) (64 - read)
    if 64 < read + u.len then return { cc := none, wrote := wrote, read := read }
    spend c u.len
    let out ← match u with
      | .truncated _ => pure none
      | .invalid _ => pure none
      | .valid v _ => encodeUnit c f table nb v
    match u, out with
    | .truncated _, _ => return stop 2
    | _, none =>
      if f.act = 0 then return stop 3
      let o := if f.act = 1 then replacement f.denc else []
      if n - wrote < o.length then return stop 1
      if o ≠ [] then stringWrite c (d + wrote) o false
      xcdUnits c f table nb d a n m fuel (wrote + o.length) (read + u.len)
    | _, some o =>
      if n - wrote < o.length then return stop 1
      stringWrite c (d + wrote) o false
      xcdUnits c f table nb d a n m fuel (wrote + o.length) (read + u.len)

/-- A segment of XCD. -/
def xcdSegment (c : Cx) (x : FmtA) (f : XFields) (table nb : Nat) : M SegEnd := do
  let (d, a) := (← addrG c x.ra, ← addrG c x.rb)
  let (n, m) := (← lenG c x.rc, ← lenG c (x.rc + 1))
  let r ← xcdUnits c f table nb d a n m 65 0 0
  putG c x.ra (d + r.wrote); putG c x.rc (n - r.wrote)
  putG c x.rb (a + r.read); putG c (x.rc + 1) (m - r.read)
  match r.cc with
  | some cc =>
    setCC c cc
    return .done
  | none => return .more 0

/-- The header of a code-page table: NB (R144 step 4, R164, R165). -/
def tableHeader (c : Cx) (table : Nat) : M Nat := do
  addressRange table 8
  let h ← stringRead c table 8
  require (fieldLE h 0 2 == 1 && fieldLE h 3 5 == 0) 0x4000
  let nb := fieldLE h 2 1
  addressRange table (1544 + 512 * nb)
  return nb

/-- XCD (R159 to R165). A table is read only while source bytes are left (R146). -/
def execXcd (e : Eng) (x : FmtA) (stop : Nat) (s : State) : Host.Outcome State Fault Refusal :=
  macroNext e x.pred x.len
    { interruptible := true
      selfTimed := true
      count := fun c s =>
        let k := (s.bank c.slot).len (x.rc + 1)
        8 + k + commitTerm k
      body := fun c => do
        let f := xcdFields x
        lengthIn x.len [.l6]
        zeroField x.mod
        zeroField (field x.imm 12 4)
        stringRegs x true (if f.usesTable then [f.rt] else [])
        require (f.usesTable || f.rt == 0)
        require (decide (f.senc ≤ 3) && decide (f.denc ≤ 3) && f.act != 3)
        require (!(f.senc == 3 && f.denc == 3))
        allowedState c [0]
        let (d, a) := (← addrG c x.ra, ← addrG c x.rb)
        let (n, m) := (← lenG c x.rc, ← lenG c (x.rc + 1))
        addressRange d n
        addressRange a m
        fixedTerm c 8
        let table ← if f.usesTable then addrG c f.rt else pure 0
        let tabled := f.usesTable && m != 0
        let nb ← if tabled then tableHeader c table else pure 0
        require (!overlap d n a m && !(tabled && overlap d n table (1544 + 512 * nb)))
        segments c stop (xcdSegment c x f table nb) (m + 2) 0 } s

end Sys2Proof.Machine
end

