-- ==== Sys2Proof/Machine/Dispatch.lean ====
section
/-! DEFINITION. The meaning of every command: one arm per constructor of Instr, each a call of its own meaning. -/

namespace Sys2Proof.Machine

def exec (i : Instr) (s : State) : Host.Outcome State Fault Refusal :=
  match i with
  | .add e x => Sys2Proof.Machine.execAdd e x s
  | .sub e x => Sys2Proof.Machine.execSub e x s
  | .and e x => Sys2Proof.Machine.execAnd e x s
  | .or e x => Sys2Proof.Machine.execOr e x s
  | .xor e x => Sys2Proof.Machine.execXor e x s
  | .shl e x => Sys2Proof.Machine.execShl e x s
  | .shr e x => Sys2Proof.Machine.execShr e x s
  | .sar e x => Sys2Proof.Machine.execSar e x s
  | .rol e x => Sys2Proof.Machine.execRol e x s
  | .cmp e x => Sys2Proof.Machine.execCmp e x s
  | .cmpu e x => Sys2Proof.Machine.execCmpu e x s
  | .cmpp e x => Sys2Proof.Machine.execCmpp e x s
  | .mov e x => Sys2Proof.Machine.execMov e x s
  | .mvi e x => Sys2Proof.Machine.execMvi e x s
  | .mul e x => Sys2Proof.Machine.execMul e x s
  | .mulh e x => Sys2Proof.Machine.execMulh e x s
  | .mulhu e x => Sys2Proof.Machine.execMulhu e x s
  | .div e x => Sys2Proof.Machine.execDiv e x s
  | .divu e x => Sys2Proof.Machine.execDivu e x s
  | .ld e x => Sys2Proof.Machine.execLd e x s
  | .lds e x => Sys2Proof.Machine.execLds e x s
  | .st e x => Sys2Proof.Machine.execSt e x s
  | .lea e x => Sys2Proof.Machine.execLea e x s
  | .sti e x => Sys2Proof.Machine.execSti e x s
  | .dad e x => Sys2Proof.Machine.execDad e x s
  | .dsb e x => Sys2Proof.Machine.execDsb e x s
  | .dzp e x => Sys2Proof.Machine.execDzp e x s
  | .dld e x => Sys2Proof.Machine.execDld e x s
  | .dst e x => Sys2Proof.Machine.execDst e x s
  | .dmp e x => Sys2Proof.Machine.execDmp e x s
  | .ddv e x => Sys2Proof.Machine.execDdv e x s
  | .dcp e x => Sys2Proof.Machine.execDcp e x s
  | .dsh e x => Sys2Proof.Machine.execDsh e x s
  | .drn e x => Sys2Proof.Machine.execDrn e x s
  | .dpk e x => Sys2Proof.Machine.execDpk e x s
  | .dup e x => Sys2Proof.Machine.execDup e x s
  | .dtb e x => Sys2Proof.Machine.execDtb e x s
  | .btd e x => Sys2Proof.Machine.execBtd e x s
  | .dts e x => Sys2Proof.Machine.execDts e x s
  | .dadm e x => Sys2Proof.Machine.execDadm e x s
  | .dsbm e x => Sys2Proof.Machine.execDsbm e x s
  | .dcpm e x => Sys2Proof.Machine.execDcpm e x s
  | .dzpm e x => Sys2Proof.Machine.execDzpm e x s
  | .mvs e x stop => Sys2Proof.Machine.execMvs e x stop s
  | .mvp e x stop => Sys2Proof.Machine.execMvp e x stop s
  | .cls e x stop => Sys2Proof.Machine.execCls e x stop s
  | .clp e x stop => Sys2Proof.Machine.execClp e x stop s
  | .trn e x stop => Sys2Proof.Machine.execTrn e x stop s
  | .trt e x stop => Sys2Proof.Machine.execTrt e x stop s
  | .scn e x stop => Sys2Proof.Machine.execScn e x stop s
  | .xcd e x stop => Sys2Proof.Machine.execXcd e x stop s
  | .edt e x stop => Sys2Proof.Machine.execEdt e x stop s
  | .edk e x stop => Sys2Proof.Machine.execEdk e x stop s
  | .crc e x stop => Sys2Proof.Machine.execCrc e x stop s
  | .pst e x => Sys2Proof.Machine.execPst e x s
  | .psx e x => Sys2Proof.Machine.execPsx e x s
  | .prd e x => Sys2Proof.Machine.execPrd e x s
  | .pbn e x => Sys2Proof.Machine.execPbn e x s
  | .sync e x => Sys2Proof.Machine.execSync e x s
  | .syncw e x => Sys2Proof.Machine.execSyncw e x s
  | .syncr e x => Sys2Proof.Machine.execSyncr e x s
  | .fld e x => Sys2Proof.Machine.execFld e x s
  | .fst e x => Sys2Proof.Machine.execFst e x s
  | .fmvg e x => Sys2Proof.Machine.execFmvg e x s
  | .gmvf e x => Sys2Proof.Machine.execGmvf e x s
  | .dtf e x => Sys2Proof.Machine.execDtf e x s
  | .ftd e x => Sys2Proof.Machine.execFtd e x s
  | .fadd e x => Sys2Proof.Machine.execFadd e x s
  | .fsub e x => Sys2Proof.Machine.execFsub e x s
  | .fmul e x => Sys2Proof.Machine.execFmul e x s
  | .fdiv e x => Sys2Proof.Machine.execFdiv e x s
  | .fma e x => Sys2Proof.Machine.execFma e x s
  | .fsqrt e x => Sys2Proof.Machine.execFsqrt e x s
  | .fcmp e x => Sys2Proof.Machine.execFcmp e x s
  | .fcmpp e x => Sys2Proof.Machine.execFcmpp e x s
  | .fcvt e x => Sys2Proof.Machine.execFcvt e x s
  | .frnd e x => Sys2Proof.Machine.execFrnd e x s
  | .ftog e x => Sys2Proof.Machine.execFtog e x s
  | .gtof e x => Sys2Proof.Machine.execGtof e x s
  | .fquant e x => Sys2Proof.Machine.execFquant e x s
  | .pset e x => Sys2Proof.Machine.execPset e x s
  | .b e x => Sys2Proof.Machine.execB e x s
  | .bc e x => Sys2Proof.Machine.execBc e x s
  | .br e x => Sys2Proof.Machine.execBr e x s
  | .call e x => Sys2Proof.Machine.execCall e x s
  | .callr e x => Sys2Proof.Machine.execCallr e x s
  | .ret e x => Sys2Proof.Machine.execRet e x s
  | .dbnz e x => Sys2Proof.Machine.execDbnz e x s
  | .svc e x => Sys2Proof.Machine.execSvc e x s
  | .eret e x => Sys2Proof.Machine.execEret e x s
  | .spsw e x => Sys2Proof.Machine.execSpsw e x s
  | .gpsw e x => Sys2Proof.Machine.execGpsw e x s
  | .gete e x => Sys2Proof.Machine.execGete e x s
  | .sete e x => Sys2Proof.Machine.execSete e x s
  | .krs e x => Sys2Proof.Machine.execKrs e x s
  | .krg e x => Sys2Proof.Machine.execKrg e x s
  | .sfpc e x => Sys2Proof.Machine.execSfpc e x s
  | .gfpc e x => Sys2Proof.Machine.execGfpc e x s
  | .kset e x => Sys2Proof.Machine.execKset e x s
  | .kget e x => Sys2Proof.Machine.execKget e x s
  | .tlbia e x => Sys2Proof.Machine.execTlbia e x s
  | .tlbid e x => Sys2Proof.Machine.execTlbid e x s
  | .tlbix e x => Sys2Proof.Machine.execTlbix e x s
  | .wfe e x => Sys2Proof.Machine.execWfe e x s
  | .wfeComplete e => Sys2Proof.Machine.execWfeComplete e s
  | .wuntil e x => Sys2Proof.Machine.execWuntil e x s
  | .wuntilComplete e => Sys2Proof.Machine.execWuntilComplete e s
  | .sev e x => Sys2Proof.Machine.execSev e x s
  | .sevSend e => Sys2Proof.Machine.execSevSend e s
  | .tbr e x => Sys2Proof.Machine.execTbr e x s
  | .mcall e x => Sys2Proof.Machine.execMcall e x s
  | .aese e x => Sys2Proof.Machine.execAese e x s
  | .aesd e x => Sys2Proof.Machine.execAesd e x s
  | .aesk e x => Sys2Proof.Machine.execAesk e x s
  | .ghmul e x => Sys2Proof.Machine.execGhmul e x s
  | .crcg e x => Sys2Proof.Machine.execCrcg e x s
  | .crcgn e x => Sys2Proof.Machine.execCrcgn e x s
  | .aesb e x => Sys2Proof.Machine.execAesb e x s
  | .ghb e x => Sys2Proof.Machine.execGhb e x s
  | .shb e x => Sys2Proof.Machine.execShb e x s
  | .tdb e x => Sys2Proof.Machine.execTdb e x s
  | .storeBufferDrain e => Sys2Proof.Machine.execStoreBufferDrain e s
  | .postPerform unit => Sys2Proof.Machine.execPostPerform unit s
  | .postReply e => Sys2Proof.Machine.execPostReply e s
  | .deferredPostingException e => Sys2Proof.Machine.execDeferredPostingException e s
  | .next e => Sys2Proof.Machine.execNext e s
  | .jump e => Sys2Proof.Machine.execJump e s
  | .bt e => Sys2Proof.Machine.execBt e s
  | .bf e => Sys2Proof.Machine.execBf e s
  | .microCall e => Sys2Proof.Machine.execMicroCall e s
  | .microRet e => Sys2Proof.Machine.execMicroRet e s
  | .disp e => Sys2Proof.Machine.execDisp e s
  | .waitev e => Sys2Proof.Machine.execWaitev e s
  | .waitevEnd e => Sys2Proof.Machine.execWaitevEnd e s
  | .waittb e => Sys2Proof.Machine.execWaittb e s
  | .waittbEnd e => Sys2Proof.Machine.execWaittbEnd e s
  | .endWord e => Sys2Proof.Machine.execEndWord e s
  | .exc e => Sys2Proof.Machine.execExc e s
  | .microRunaway e => Sys2Proof.Machine.execMicroRunaway e s
  | .eventRouted source => Sys2Proof.Machine.execEventRouted source s
  | .eventEntry e late => Sys2Proof.Machine.execEventEntry e late s
  | .heldExceptionDelivery e => Sys2Proof.Machine.execHeldExceptionDelivery e s
  | .qstopSet e => Sys2Proof.Machine.execQstopSet e s
  | .pend slot value => Sys2Proof.Machine.execPend slot value s
  | .qcfg qid value => Sys2Proof.Machine.execQcfg qid value s
  | .qdbp qid w value => Sys2Proof.Machine.execQdbp qid w value s
  | .qdbc qid w value => Sys2Proof.Machine.execQdbc qid w value s
  | .hdbp fn n w value => Sys2Proof.Machine.execHdbp fn n w value s
  | .hdbc fn n w value => Sys2Proof.Machine.execHdbc fn n w value s
  | .sqCopyCompletion qid k result => Sys2Proof.Machine.execSqCopyCompletion qid k result s
  | .cqBurst qid => Sys2Proof.Machine.execCqBurst qid s
  | .pcieCompletion e result => Sys2Proof.Machine.execPcieCompletion e result s
  | .hifCompletionTimeout r => Sys2Proof.Machine.execHifCompletionTimeout r s
  | .msixPendingSend fn vec => Sys2Proof.Machine.execMsixPendingSend fn vec s
  | .functionLevelReset fn => Sys2Proof.Machine.execFunctionLevelReset fn s
  | .csrWrite page off size value => Sys2Proof.Machine.execCsrWrite page off size value s
  | .beaconSend r measured => Sys2Proof.Machine.execBeaconSend r measured s
  | .beaconReceive r dir groups rt => Sys2Proof.Machine.execBeaconReceive r dir groups rt s
  | .beaconMissing r => Sys2Proof.Machine.execBeaconMissing r s
  | .minislotSend r k => Sys2Proof.Machine.execMinislotSend r k s
  | .minislotReturn r groups => Sys2Proof.Machine.execMinislotReturn r groups s
  | .minislotLost r => Sys2Proof.Machine.execMinislotLost r s
  | .tableExtractResend r a => Sys2Proof.Machine.execTableExtractResend r a s
  | .frameReceive r dir groups => Sys2Proof.Machine.execFrameReceive r dir groups s
  | .dataSlot r slot => Sys2Proof.Machine.execDataSlot r slot s
  | .acknowledgementWaitExpiry r a => Sys2Proof.Machine.execAcknowledgementWaitExpiry r a s
  | .transactionTimeout t => Sys2Proof.Machine.execTransactionTimeout t s
  | .stationLost r a => Sys2Proof.Machine.execStationLost r a s
  | .sideFailure r side cause => Sys2Proof.Machine.execSideFailure r side cause s
  | .wrap r side => Sys2Proof.Machine.execWrap r side s
  | .unwrap r side => Sys2Proof.Machine.execUnwrap r side s
  | .scheduleSwitch r => Sys2Proof.Machine.execScheduleSwitch r s
  | .smbusBlockWrite bytes pecOk => Sys2Proof.Machine.execSmbusBlockWrite bytes pecOk s
  | .smbusBlockRead count pecOk => Sys2Proof.Machine.execSmbusBlockRead count pecOk s
  | .smbusBufferReset pecOk => Sys2Proof.Machine.execSmbusBufferReset pecOk s
  | .smbusAlertResponse => Sys2Proof.Machine.execSmbusAlertResponse s
  | .commandComplete => Sys2Proof.Machine.execCommandComplete s
  | .identify via => Sys2Proof.Machine.execIdentify via s
  | .status via => Sys2Proof.Machine.execStatus via s
  | .versions via => Sys2Proof.Machine.execVersions via s
  | .logRead via => Sys2Proof.Machine.execLogRead via s
  | .powerSet via => Sys2Proof.Machine.execPowerSet via s
  | .armWake via => Sys2Proof.Machine.execArmWake via s
  | .disarm via => Sys2Proof.Machine.execDisarm via s
  | .imageLoad via host => Sys2Proof.Machine.execImageLoad via host s
  | .imageVerify via => Sys2Proof.Machine.execImageVerify via s
  | .imageCommit via programmed => Sys2Proof.Machine.execImageCommit via programmed s
  | .cstoreReload via => Sys2Proof.Machine.execCstoreReload via s
  | .domainCreate via => Sys2Proof.Machine.execDomainCreate via s
  | .domainDestroy via => Sys2Proof.Machine.execDomainDestroy via s
  | .domainQuiesce via => Sys2Proof.Machine.execDomainQuiesce via s
  | .domainResume via => Sys2Proof.Machine.execDomainResume via s
  | .domainKeys via => Sys2Proof.Machine.execDomainKeys via s
  | .memInit via => Sys2Proof.Machine.execMemInit via s
  | .scrubSet via => Sys2Proof.Machine.execScrubSet via s
  | .zeroize via => Sys2Proof.Machine.execZeroize via s
  | .ringStart via modules trained => Sys2Proof.Machine.execRingStart via modules trained s
  | .ringStop via => Sys2Proof.Machine.execRingStop via s
  | .ringInsert via aligned other => Sys2Proof.Machine.execRingInsert via aligned other s
  | .ringBypass via => Sys2Proof.Machine.execRingBypass via s
  | .planSwitch via => Sys2Proof.Machine.execPlanSwitch via s
  | .sxtReport via => Sys2Proof.Machine.execSxtReport via s
  | .replan via found avsOk => Sys2Proof.Machine.execReplan via found avsOk s
  | .planRevert via avsOk => Sys2Proof.Machine.execPlanRevert via avsOk s
  | .resetPart via => Sys2Proof.Machine.execResetPart via s
  | .engineReset via => Sys2Proof.Machine.execEngineReset via s
  | .selftest via pass => Sys2Proof.Machine.execSelftest via pass s
  | .fuseRead via => Sys2Proof.Machine.execFuseRead via s
  | .keyEnroll via => Sys2Proof.Machine.execKeyEnroll via s
  | .timerFire t => Sys2Proof.Machine.execTimerFire t s
  | .armFire n => Sys2Proof.Machine.execArmFire n s
  | .dormantEntry => Sys2Proof.Machine.execDormantEntry s
  | .wakeComplete env => Sys2Proof.Machine.execWakeComplete env s
  | .clusterTransitionComplete c => Sys2Proof.Machine.execClusterTransitionComplete c s
  | .bootComplete env => Sys2Proof.Machine.execBootComplete env s
  | .selfRefreshEntry m => Sys2Proof.Machine.execSelfRefreshEntry m s
  | .dramRefresh m => Sys2Proof.Machine.execDramRefresh m s
  | .patrolScrubRead m => Sys2Proof.Machine.execPatrolScrubRead m s
  | .fillTrackerStep m k => Sys2Proof.Machine.execFillTrackerStep m k s
  | .correctedRecordFlush origin => Sys2Proof.Machine.execCorrectedRecordFlush origin s
  | .monitorSample n c0 c1 c2 => Sys2Proof.Machine.execMonitorSample n c0 c1 c2 s
  | .sextantHourly hours => Sys2Proof.Machine.execSextantHourly hours s
  | .delayRegisterFault c j => Sys2Proof.Machine.execDelayRegisterFault c j s
  | .thermalSample sensors => Sys2Proof.Machine.execThermalSample sensors s
  | .thermtrip sensor => Sys2Proof.Machine.execThermtrip sensor s
  | .rclkLoss => Sys2Proof.Machine.execRclkLoss s
  | .refclkLoss => Sys2Proof.Machine.execRefclkLoss s
  | .xtal32Loss => Sys2Proof.Machine.execXtal32Loss s
  | .pllLockLoss pll => Sys2Proof.Machine.execPllLockLoss pll s
  | .fabricTimeout requester pa => Sys2Proof.Machine.execFabricTimeout requester pa s
  | .coreRailLow rail => Sys2Proof.Machine.execCoreRailLow rail s
  | .powerOnReset => Sys2Proof.Machine.execPowerOnReset s
  | .resetN => Sys2Proof.Machine.execResetN s
  | .perstN => Sys2Proof.Machine.execPerstN s
  | .tapReset => Sys2Proof.Machine.execTapReset s
  | .extest shift => Sys2Proof.Machine.execExtest shift s
  | .idcode => Sys2Proof.Machine.execIdcode s
  | .samplePreload balls shift => Sys2Proof.Machine.execSamplePreload balls shift s
  | .clamp => Sys2Proof.Machine.execClamp s
  | .highz => Sys2Proof.Machine.execHighz s
  | .extestPulse shift => Sys2Proof.Machine.execExtestPulse shift s
  | .extestTrain shift => Sys2Proof.Machine.execExtestTrain shift s
  | .bypass => Sys2Proof.Machine.execBypass s
  | .unassignedOpcode e pred len op xop => Sys2Proof.Machine.execUnassignedOpcode e pred len op xop s
  | .instructionFetchFault e => Sys2Proof.Machine.execInstructionFetchFault e s
  | .sideRecovery r side => Sys2Proof.Machine.execSideRecovery r side s
  | .resetDeassertion => Sys2Proof.Machine.execResetDeassertion s
  | .clockInputRestored c => Sys2Proof.Machine.execClockInputRestored c s
  | .pcieConfigurationWrite w => Sys2Proof.Machine.execPcieConfigurationWrite w s
  | .linkRecovery => Sys2Proof.Machine.execLinkRecovery s
  | .malformedCommand via => Sys2Proof.Machine.execMalformedCommand via s
  | .submissionWhileBusy via => Sys2Proof.Machine.execSubmissionWhileBusy via s

end Sys2Proof.Machine
end

