-- ==== Sys2Proof/Machine/Upset.lean ====
section
/-! DEFINITION. What an upset leaves: failing bits in a memory of the part, which the next use of them finds (R346, R348),
and the errors of structures that carry no poison (R297, R536). When and where bits fail is a free value. -/

namespace Sys2Proof.Machine

/-- A line of memory, of a key array or of the on-chip key store exists. -/
def State.lineExists (s : State) (line : Nat) : Bool :=
  if line < 2 ^ 40 then (s.paClass (line * 64)).isNormal
  else if line < 2 ^ 41 then
    decide (line < 2 ^ 40 + 2 ^ 33) && (s.keyFrames line).any fun f => s.paClass (f * 4096) == .dram
  else
    let c := s.paClass ((line - 2 ^ 41) * 4096)
    c.isNormal && c != .dram

/-- A cached copy of `line` gets failing bits. -/
def CLine.spoil (x : CLine) (line : Nat) (bits : List Nat) : CLine := if x.line = line then { x with err := bits } else x

/-- Entry `i` of a store buffer gets failing bits. -/
def spoilEntry (l : List SbEntry) (i : Nat) (bits : List Nat) : List SbEntry :=
  match l.splitAt i with
  | (a, y :: b) => a ++ { y with err := bits } :: b
  | (a, []) => a

/-- A register bank (structure 4) or a commit record (structure 5) of engine `e` fails: a machine check on the engine, and a
record of KIND INTERNAL (R531, R536, R537). A cluster that is not in RUN executes nothing, and takes none. -/
def State.bankUpset (s : State) (i : Fin 256) (structure' : Nat) : State :=
  let e : Eng := ⟨i.val / 8, by omega⟩
  if !s.clusterRuns e then s else
  let n := s.running e
  let key := match n with | some m => pswKEY (s.bank (slotOf e m.val)).psw | none => s.owner i.val
  (s.machineCheck e (0x10 + structure') 0 0 n 0 key).record key 2 8 (BitVec.ofNat 8 e.val) [BitVec.ofNat 8 structure']

/-- The context of a queue fails beyond correction: the queue is disabled with ERR 5 and its context reads as zero
(R536). -/
def State.contextUpset (s : State) (qid : Nat) : State :=
  let s := s.modQueue qid fun q =>
    { q with cfg := setField 0 24 3 5, idx := 0, dbase := 0, xbase := 0, reads := [], oq := [] }
  (s.countErr (errCounter 5) 1).record (queueDomain qid) 2 8 0x30 [3]

/-- An upset of the part while it is powered. -/
def State.upset (s : State) : Upset → State
  | .line line rank sub reads =>
    if s.lineExists line && reads != [] then
      { s with mem := { s.mem with errs := tset none s.mem.errs line
                                            (some { rank := rank, subchannel := sub, reads := reads }) } }
    else s
  | .l2 c line bits => s.modL2Set c line (·.map (·.spoil line bits))
  | .dcache e line bits => s.modDcSet e line (·.map (·.spoil line bits))
  | .icache e line bits =>
    if (tget [] (s.eng e).icache (line % 256)).contains line || (s.eng e).lineBuf.contains line then
      s.modEng e fun x => { x with icErr := tset [] x.icErr line bits }
    else s
  | .storeBuffer e index bits => s.modEng e fun x => { x with sb := spoilEntry x.sb index bits }
  | .bank i => s.bankUpset i 4
  | .commitRecord i => s.bankUpset i 5
  | .queueContext _ true =>
    (s.countErr (qmgBase + 8 * 10) 1).corrected 0x30 0 [3]
  | .queueContext qid false => s.contextUpset qid.toNat
  | .keeperRam => s.fatalError 8 [1] true
  | .compass => s.fatalError 8 [2] true
  | .pcieLane lane =>
    if !s.hif.linkUp then s
    else ((s.countErr (hifBase + 0x4010) 1).countErr (hifBase + 0x4300 + 8 * lane.val) 1).modFn 0 fun f =>
      { f with aerCor := f.aerCor ||| 1 }
  | .pcieReplay =>
    if !s.hif.linkUp then s
    else (s.countErr (hifBase + 0x4018) 1).modFn 0 fun f => { f with aerCor := f.aerCor ||| 0x1000 }
  | .controlStore e addr => s.modEng e fun x => { x with cs := { x.cs with parity := addr :: x.cs.parity } }

/-- The upset that nature draws for one tick, if any. A part that is stopped, in reset or DORMANT uses none of the
structures; it draws none. -/
def State.drawUpset (s : State) : State :=
  if s.power.part = .dormant || s.power.resetting || s.power.fatal || s.power.tripped then s
  else
    match Config.upset s.draws with
    | none => { s with draws := s.draws + 1 }
    | some u => { s with draws := s.draws + 1 }.upset u

end Sys2Proof.Machine
end

