-- ==== Sys2Proof/Machine/Idle.lean ====
section
/-! DEFINITION. What a step does while no command waits: one tick of 10 ns passes. The Chronometer advances (R510), and
the ring time of every synchronised ring runs on (R399, R402), engines that wait spend their cycles (R559), and bits may fail. -/

namespace Sys2Proof.Machine

/-- 100 µs in eighths of a byte time: a cycle of 31,250 BT (R399). -/
def cycleEighths : Nat := 250000

/-- The ring counts ring time: it follows or sends a beacon, or keeps its held schedule (R399, R401). -/
def Ring.timed (x : Ring) : Bool := (x.state == .inserting || x.state == .inserted) && (x.sync || decide (0 < x.miss))

/-- The transmitters of ring `r` go on (R415). -/
def State.tickPorts (s : State) (r : RingId) : State :=
  if s.ringLive r then
    [Side.east, .west].foldl (fun s side => (s.tickPort r side).tickSlot r side) s
  else s

/-- Ring `r` after 25 eighths of a byte time, which is 10 ns at 3.125 Gbaud: 3.2 ns per BT. -/
def State.tickRing (s : State) (r : RingId) : State :=
  let s := s.tickPorts r
  let x := s.ring r
  if !x.timed then s
  else if x.rt8 + 25 < cycleEighths then s.modRing r fun x => { x with rt8 := x.rt8 + 25 }
  else (s.cycleStart r).modRing r fun y => { y with rt8 := x.rt8 + 25 - cycleEighths }

/-- The Chronometer one tick later; in DORMANT one XTAL32 period later, which is 390,625/128 ticks (R510). -/
def Pcm.tick (p : Pcm) (dormant : Bool) : Pcm :=
  if dormant then
    let n := p.frac.toNat + 390625
    { p with chrono := p.chrono + BitVec.ofNat 64 (n / 128), frac := BitVec.ofNat 7 (n % 128) }
  else { p with chrono := p.chrono + 1 }

/-- An engine in RUN whose running level waits in WFE, WUNTIL, WAITEV or WAITTB spends the 15 cy of a tick there (R266, R319,
R334, R559). -/
def State.tickWait (s : State) (e : Eng) : State :=
  match (s.eng e).wait, s.running e with
  | .none, _ | .post, _ | .sev _ _, _ | .host _, _ | _, none => s
  | .wfe _, some n | .wuntil _, some n | .waitev, some n | .waittb _, some n =>
    if !s.clusterRuns e then s
    else
      let s := (s.cycles e (pswFTM (s.bank (slotOf e n.val)).psw) 15).tick e 11 15
      if (s.eng e).micro.isSome then s.tick e 24 15 else s

/-- The block idles for one tick: time passes everywhere, and bits may fail (R346). -/
def idle (s : State) : State :=
  let s := { s with pcm := s.pcm.tick (s.power.part == .dormant) }
  ((List.finRange 32).foldl State.tickWait ((List.finRange 4).foldl State.tickRing s)).drawUpset

end Sys2Proof.Machine
end

