-- ==== Sys2Proof/Safety.lean ====
section
/-! DEFINITION. What counts as a safe run of the part, and the terms in which the statements speak of a macro instruction:
when one begins, what it leaves alone, and what a run of its meaning does to the registers of its bank. -/

namespace Sys2Proof.Machine

/-- A state of a part that runs: no fatal stop (R538), no thermal trip (R526), no checkstopped engine (R290). -/
def State.alive (s : State) : Bool :=
  !s.power.fatal && !s.power.tripped && (List.finRange 32).all fun e => !(s.eng e).checkstop

/-- A step that answers a next state. -/
def State.steps (s : State) : Bool :=
  match step s with
  | .next _ => true
  | _ => false

/-- A state whose physical memory is in canonical form. -/
def State.sound (s : State) : Prop := s.mem.wf = true

/-! ### When a macro instruction begins (R65, R85, R86, R88) -/

/-- The state in which an engine reads an instruction: the address of the instruction is noted. -/
def State.noted (s : State) (c : Cx) : State := s.modEng c.e fun x => { x with ria := field (s.bank c.slot).psw 0 48 }

/-- In state `s` engine `c.e` begins an instruction of `c.len` bytes in level `c.n` under predicate field `pred`: the engine
is at a point where it may start, the bytes are fetched, which leaves `s1`, nothing is being resumed, the predicate holds,
and no poisoned post waits to be reported. -/
structure Begins (s : State) (c : Cx) (pred : BitVec 4) (s1 : State) : Prop where
  ready : s.ready c.e = some c.n
  fetched : fetch c.e c.slot (pswIA (s.bank c.slot).psw) c.len (s.noted c) = (.ok (), s1)
  fresh : pswIPR (s.bank c.slot).psw = false
  taken : predicate (s1.bank c.slot) pred = true
  clean : (s1.eng c.e).postCheck = none

/-! ### What an instruction leaves alone -/

/-- A slot without what an event may change in it at any time: PEND, the wake latch, DISC and its OVF. -/
def Slot.still (x : Slot) : Slot := { x with pend := 0, wake := false, disc := 0, ovf := false }

/-- The CSR offset of counter `k` of engine `e` (R559). -/
def engCounter (e : Eng) (k : Nat) : Nat := engBase e.val + 0x100 + 8 * k

/-- The CSR offset of ENG.WRAPST of engine `e` (R555). -/
def engWrap (e : Eng) : Nat := engBase e.val + 0x20

/-- From `s` to `t` nothing changed but register banks, engine `e`, plain registers, and what the event of a counter that
wraps sets: no memory, no vector, no domain, queue, ring, image, key, fuse, clock or power state, no pin, nothing sent. -/
structure Aside (s t : State) (e : Eng) : Prop where
  slots : ∀ i, (t.slot i).still = (s.slot i).still
  vectors : t.vectors = s.vectors
  engines : ∀ d, d ≠ e → t.eng d = s.eng d
  homes : t.homes = s.homes
  l2 : t.l2 = s.l2
  mem : t.mem = s.mem
  dmcs : t.dmcs = s.dmcs
  domains : t.domains = s.domains
  queues : t.queues = s.queues
  hif : t.hif = s.hif
  rings : t.rings = s.rings
  pairs : t.pairs = s.pairs
  plan : t.plan = s.plan
  events : t.events = s.events
  owners : t.owners = s.owners
  planDue : t.planDue = s.planDue
  keeper : t.keeper = s.keeper
  nv : t.nv = s.nv
  power : t.power = s.power
  pcm : t.pcm = { s.pcm with due := t.pcm.due }
  sextant : t.sextant = s.sextant
  log : t.log = s.log
  pins : t.pins = s.pins
  tap : t.tap = s.tap
  sent : t.sent = s.sent
  draws : t.draws = s.draws
  pending : t.pending = s.pending

/-- What the completion of an instruction of `n` cycles counts on engine `e` (R97, R559): INST by 1, CYC by `n`, and FTCYC
by `n` under fixed-time mode; no other plain register changes but ENG.WRAPST, which a counter that wraps sets. -/
structure Counted (s t : State) (e : Eng) (ftm : Bool) (n : Nat) : Prop where
  cyc : t.reg (engCounter e 0) = s.reg (engCounter e 0) + BitVec.ofNat 64 n
  inst : t.reg (engCounter e 1) = s.reg (engCounter e 1) + 1
  ftcyc : t.reg (engCounter e 10) = s.reg (engCounter e 10) + if ftm then BitVec.ofNat 64 n else 0
  others : ∀ o, o ≠ engCounter e 0 → o ≠ engCounter e 1 → o ≠ engCounter e 10 → o ≠ engWrap e → t.reg o = s.reg o

/-! ### What a macro instruction does -/

/-- An engine whose store-buffer entries are closed (R102). -/
def Engine.closed (x : Engine) : Engine :=
  { x with sb := x.sb.map fun y => { y with opened := false, held := false } }

/-- An engine `n` cycles later on the model's own clock. -/
def Engine.later (x : Engine) (n : Nat) : Engine := { x with clock := x.clock + n }

/-- A bank at the next instruction: IA moves past `len` bytes, and IPR and IPS are 0 (R85, R97). -/
def Bank.pass (b : Bank) (len : Nat) : Bank := { b with psw := withIP (withIA b.psw (pswIA b.psw + len)) false 0 }

/-- A bank at a branch target (R85, R188). -/
def Bank.jump (b : Bank) (ia : Nat) : Bank := { b with psw := withIP (withIA b.psw ia) false 0 }

/-- The banks of `t` are those of `s`, but for the bank of slot `i`, which is what `f` makes of it. -/
def Rebank (s t : State) (i : Nat) (f : Bank → Bank) : Prop :=
  ∀ j, t.bank j = if j = i then f (s.bank i) else s.bank j

/-- In state `s`, in which it begins and its fetch leaves `s1`, instruction `i` completes in `n` cycles: the bank of its
level becomes what `f` makes of it and goes to the next instruction, its engine's store-buffer entries close and its clock
goes on, it is counted, and nothing else of the part changes. -/
def Completes (i : Instr) (s s1 : State) (c : Cx) (n : Nat) (f : Bank → Bank) : Prop :=
  ∃ t, exec i s = .next t ∧ Rebank s1 t c.slot (fun b => (f b).pass c.len) ∧ t.eng c.e = (s1.eng c.e).closed.later n
    ∧ Counted s1 t c.e (pswFTM (f (s1.bank c.slot)).psw) n ∧ Aside s1 t c.e

/-- Counters of engine `e` grew by what `ks` lists, modulo 2^64; no other plain register changed but ENG.WRAPST, which a
counter that wraps sets (R555, R559). -/
def Tally (s t : State) (e : Eng) (ks : List (Nat × Nat)) : Prop :=
  ∀ o, o ≠ engWrap e → t.reg o = s.reg o + BitVec.ofNat 64 ((ks.map fun k => if o = engCounter e k.1 then k.2 else 0).sum)

/-- Instruction `i`, which begins in state `s` and whose work reached `s1`, completes: the bank of its level becomes what `f`
makes of it and goes to the next instruction, or to `target`; its engine becomes what `g` makes of it with its store-buffer
entries closed, and its clock goes on by the cycles that `ks` lists; INST and the counters that `ks` lists grow; and nothing
else of the part changes. -/
def Goes (i : Instr) (s s1 : State) (c : Cx) (target : Option Nat) (ks : List (Nat × Nat)) (f : Bank → Bank)
    (g : Engine → Engine) : Prop :=
  ∃ t, exec i s = .next t
    ∧ Rebank s1 t c.slot (fun b => match target with | none => (f b).pass c.len | some ia => (f b).jump ia)
    ∧ t.eng c.e = (g (s1.eng c.e).closed).later ((ks.map fun k => if k.1 = 0 then k.2 else 0).sum) ∧ Tally s1 t c.e ((1, 1) :: ks) ∧ Aside s1 t c.e

/-- G(r) := v. -/
def Bank.putG (b : Bank) (r : BitVec 4) (v : Word) : Bank := { b with g := b.g.set (ix r).val v }

/-- D(r) := v; `r` is at most 7. -/
def Bank.putD (b : Bank) (r : BitVec 4) (v : BitVec 256) : Bank := { b with d := b.d.set (ix8 r).val v }

/-- F(r) := v. -/
def Bank.putF (b : Bank) (r : BitVec 4) (v : BitVec 128) : Bank := { b with f := b.f.set (ix r).val v }

/-- CC := v. -/
def Bank.putCC (b : Bank) (v : Nat) : Bank := { b with cc := BitVec.ofNat 2 v }

/-- G(r). -/
def Bank.getG (b : Bank) (r : BitVec 4) : Word := b.g[ix r]

/-- D(r). -/
def Bank.getD (b : Bank) (r : BitVec 4) : BitVec 256 := b.d[ix8 r]

/-- F(r). -/
def Bank.getF (b : Bank) (r : BitVec 4) : BitVec 128 := b.f[ix r]

/-! ### What fetching, translating and caching leave alone -/

/-- No copy that an engine's caches, line buffer or store buffer holds has failing bits. -/
structure Engine.Undamaged (x : Engine) : Prop where
  dcache : ∀ k, ∀ y ∈ tget [] x.dcache k, y.err = []
  icache : ∀ k, tget [] x.icErr k = []
  buffer : ∀ y ∈ x.sb, y.err = []

/-- No copy of a line in a cache of the part has failing bits. -/
structure State.Undamaged (s : State) : Prop where
  engines : ∀ e, (s.eng e).Undamaged
  l2 : ∀ k, ∀ y ∈ tget [] s.l2 k, y.err = []

/-- Nothing waits behind memory: no post is outstanding, no posting unit has a queue, neither a line nor a cached copy of one
holds an error that a read would find, and no domain is being erased (R41). -/
structure Quiet (s : State) : Prop where
  posts : ∀ e, (s.eng e).posts = []
  homes : ∀ u, tget [] s.homes u = []
  errs : ∀ l, tget none s.mem.errs l = none
  undamaged : s.Undamaged
  standing : ∀ d, (s.dom d).state ≠ .destroying

/-- An engine without its store buffer, caches, TLBs and branch target buffer, its clock, and the noted address. -/
def Engine.arch (x : Engine) : Engine :=
  { x with sb := [], dcache := [], icache := [], lineBuf := [], lineDue := 0, icErr := [], itlb := [], dtlb := [], lfsr := 0,
           btb := [], clock := 0, ria := 0 }

/-- A DRAM controller without its first-touch map and directory, and awake. -/
def Dmc.config (d : Dmc) : Dmc := { d with touched := [], trackers := [], dir := [], selfRefresh := false }

/-- A CSR offset in a block that holds counters of engines, of Tumbler or of a DMC (R549). -/
def counterArea (o : Nat) : Prop := o < 0x200000 ∨ tumBase ≤ o ∧ o < tumBase + 0x10000 ∨ dmcBase 0 ≤ o ∧ o < qmgBase

/-- From `s` to `t` nothing changed but caches, TLBs, the first-touch map, directories, self-refresh, counters and what the
event of a counter sets, and no error has come; and, where `own` names an engine, its store buffer and bytes of memory. -/
structure Calm (own : Option Eng) (s t : State) : Prop where
  banks : t.banks = s.banks
  slots : ∀ i, (t.slot i).still = (s.slot i).still
  vectors : t.vectors = s.vectors
  arch : ∀ d, (t.eng d).arch = (s.eng d).arch
  buffers : ∀ d, own ≠ some d → (t.eng d).sb = (s.eng d).sb
  bytes : own = none → t.mem.bytes = s.mem.bytes
  keys : t.mem.keys = s.mem.keys
  poison : t.mem.poison = s.mem.poison
  keyPoison : t.mem.keyPoison = s.mem.keyPoison
  errs : ∀ l, tget none s.mem.errs l = none → tget none t.mem.errs l = none
  undamaged : s.Undamaged → t.Undamaged
  homes : t.homes = s.homes
  dmcs : ∀ m, (t.dmc m).config = (s.dmc m).config
  domains : t.domains = s.domains
  queues : t.queues = s.queues
  hif : t.hif = s.hif
  rings : t.rings = s.rings
  pairs : t.pairs = s.pairs
  plan : t.plan = s.plan
  events : t.events = s.events
  owners : t.owners = s.owners
  planDue : t.planDue = s.planDue
  keeper : t.keeper = s.keeper
  nv : t.nv = s.nv
  power : t.power = s.power
  pcm : t.pcm = { s.pcm with due := t.pcm.due }
  sextant : t.sextant = s.sextant
  log : t.log = s.log
  pins : t.pins = s.pins
  tap : t.tap = s.tap
  regs : ∀ o, ¬ counterArea o → t.reg o = s.reg o
  sent : t.sent = s.sent
  pending : t.pending = s.pending

/-- The byte that an engine's store buffer holds for an address: the youngest that was stored (R102). -/
def Engine.stored (x : Engine) (a : Nat) : Option Byte :=
  x.sb.foldl (fun r y => if y.holds a then some (y.byte a) else r) none

/-- The byte that engine `e` reads at a physical address: from its store buffer, or from memory (R102, R226). -/
def State.seen (s : State) (e : Eng) (a : Nat) : Byte := ((s.eng e).stored a).getD (s.byteAt a)

end Sys2Proof.Machine
end

