-- ==== Sys2Proof/Certificates/Slice0/Obligations.lean ====
section
/-! DEFINITION. The statements for the provers: what the commands do, what the part keeps, and what reset leaves. -/

section

open Sys2Proof Sys2Proof.Machine

namespace Sys2Proof

/-! ### Integer instructions (R175 to R178) -/

/-- CC of an exact signed result: 3 when it does not fit in 64 bits, else 0, 1 or 2 for zero, negative, positive (R175). -/
def ccOf (r : Int) : Nat := if r < -2 ^ 63 ∨ 2 ^ 63 ≤ r then 3 else if r = 0 then 0 else if r < 0 then 1 else 2

/-- CC of a comparison: 0 equal, 1 less, 2 greater (R175). -/
def ccRel (equal less : Bool) : Nat := if equal then 0 else if less then 1 else 2

/-- The fields of a two-source instruction: 4 bytes, or 6 bytes with RC zero; MOD zero (R175). -/
def TwoSource (x : FmtA) : Prop := (x.len = .l4 ∨ x.len = .l6 ∧ x.rc = 0) ∧ x.mod = 0

/-- The second source: G(RC), or IMM16 extended with its sign or with zeros (R175). -/
def secondOf (x : FmtA) (signed : Bool) (b : Bank) : Word :=
  if x.len = .l4 then b.getG x.rc else if signed then BitVec.signExtend 64 x.imm else BitVec.zeroExtend 64 x.imm

end Sys2Proof

/-- The two-source instructions of R175 write G(RA) and CC as the table of R175 says, with their documented cycles, and
nothing else; a shift by the six low bits of its count leaves CC alone. -/
def Obligations.TwoSourceResults : Prop :=
  ∀ (s s1 : State) (c : Cx) (x : FmtA), TwoSource x → c.len = x.len.bytes → Begins s c x.pred s1 →
    let a := (s1.bank c.slot).getG x.rb
    let q := secondOf x true (s1.bank c.slot)
    let u := secondOf x false (s1.bank c.slot)
    let k := u.toNat % 64
    Completes (.add c.e x) s s1 c 1 (fun b => (b.putG x.ra (a + q)).putCC (ccOf (a.toInt + q.toInt)))
    ∧ Completes (.sub c.e x) s s1 c 1 (fun b => (b.putG x.ra (a - q)).putCC (ccOf (a.toInt - q.toInt)))
    ∧ Completes (.mul c.e x) s s1 c 3 (fun b => (b.putG x.ra (a * q)).putCC (ccOf (a.toInt * q.toInt)))
    ∧ Completes (.and c.e x) s s1 c 1 (fun b => (b.putG x.ra (a &&& u)).putCC (ccOf (a &&& u).toInt))
    ∧ Completes (.or c.e x) s s1 c 1 (fun b => (b.putG x.ra (a ||| u)).putCC (ccOf (a ||| u).toInt))
    ∧ Completes (.xor c.e x) s s1 c 1 (fun b => (b.putG x.ra (a ^^^ u)).putCC (ccOf (a ^^^ u).toInt))
    ∧ Completes (.shl c.e x) s s1 c 1 (fun b => b.putG x.ra (BitVec.ofNat 64 (a.toNat * 2 ^ k)))
    ∧ Completes (.shr c.e x) s s1 c 1 (fun b => b.putG x.ra (BitVec.ofNat 64 (a.toNat / 2 ^ k)))
    ∧ Completes (.sar c.e x) s s1 c 1 (fun b => b.putG x.ra (BitVec.ofInt 64 (a.toInt / 2 ^ k)))
    ∧ Completes (.rol c.e x) s s1 c 1 (fun b => b.putG x.ra (a <<< k ||| a >>> (64 - k)))

/-- The comparisons write CC alone, or the predicate that RA names, inverted by MOD[3]; P0 discards a write (R175, R176,
R54). -/
def Obligations.CompareResults : Prop :=
  ∀ (s s1 : State) (c : Cx) (x : FmtA), c.len = x.len.bytes → Begins s c x.pred s1 →
    let a := (s1.bank c.slot).getG x.rb
    let q := secondOf x true (s1.bank c.slot)
    (TwoSource x → x.ra = 0 →
      Completes (.cmp c.e x) s s1 c 1 (fun b => b.putCC (ccRel (a == q) (decide (a.toInt < q.toInt))))
      ∧ Completes (.cmpu c.e x) s s1 c 1 (fun b => b.putCC (ccRel (a == q) (decide (a.toNat < q.toNat)))))
    ∧ ((x.len = .l4 ∨ x.len = .l6 ∧ x.rc = 0) → field x.mod 4 2 = 0 → x.ra.toNat ≤ 7 →
      ∀ (code : Fin 6) (v : Bool), field x.mod 0 3 = BitVec.ofNat 3 code.val →
        v = (match code with
          | 0 => decide (a = q)
          | 1 => decide (a ≠ q)
          | 2 => decide (a.toInt < q.toInt)
          | 3 => decide (a.toInt ≤ q.toInt)
          | 4 => decide (a.toNat < q.toNat)
          | 5 => decide (a.toNat ≤ q.toNat)) →
        Completes (.cmpp c.e x) s s1 c 1 (fun b =>
          if x.ra = 0 then b else { b with p := setField b.p x.ra.toNat 1 (b2n (v != bit x.mod 3)) }))

/-- Moves, immediates, high products and effective addresses write G(RA) alone (R91, R175). -/
def Obligations.MoveResults : Prop :=
  ∀ (s s1 : State) (c : Cx),
    (∀ (x : FmtA), c.len = x.len.bytes → Begins s c x.pred s1 →
      let a := (s1.bank c.slot).getG x.rb
      let q := (s1.bank c.slot).getG x.rc
      (x.mod = 0 → x.rc = 0 →
        (x.len = .l4 → Completes (.mov c.e x) s s1 c 1 (fun b => b.putG x.ra a))
        ∧ (x.len = .l6 → x.rb = 0 → Completes (.mov c.e x) s s1 c 1 (fun b => b.putG x.ra (BitVec.signExtend 64 x.imm))))
      ∧ (x.len = .l6 → field x.mod 3 3 = 0 → x.rb = 0 → x.rc = 0 →
        Completes (.mvi c.e x) s s1 c 1 (fun b =>
          b.putG x.ra (setField (if bit x.mod 2 then 0 else b.getG x.ra) (16 * (field x.mod 0 2).toNat) 16 x.imm.toNat)))
      ∧ (x.len = .l4 → x.mod = 0 →
        Completes (.mulh c.e x) s s1 c 4 (fun b => b.putG x.ra (BitVec.ofInt 64 (a.toInt * q.toInt / 2 ^ 64)))
        ∧ Completes (.mulhu c.e x) s s1 c 4 (fun b => b.putG x.ra (BitVec.ofNat 64 (a.toNat * q.toNat / 2 ^ 64)))))
    ∧ (∀ (x : FmtB), c.len = x.len.bytes → Begins s c x.pred s1 → x.len ≠ .l4 → x.mod = 0 → x.mod2 = 0 →
      let w := if x.len = .l12 then x.disp.signExtend 64 else (x.disp.truncate 20).signExtend 64
      Completes (.lea c.e x) s s1 c 1 (fun b =>
        b.putG x.ra (b.getG x.bs + w + if x.ix = 0 then 0 else b.getG x.ix)))

/-- Division writes the quotient truncated toward zero to G(RA), the remainder to G(RA + 1) and CC; a quotient of 2^63 sets
CC 3 and leaves the remainder 0 (R175, R177). -/
def Obligations.DivideResults : Prop :=
  ∀ (s s1 : State) (c : Cx) (x : FmtA), x.len = .l4 → x.mod = 0 → bit x.ra 0 = false → c.len = 4 → Begins s c x.pred s1 →
    let a := (s1.bank c.slot).getG x.rb
    let q := (s1.bank c.slot).getG x.rc
    q ≠ 0 →
      Completes (.div c.e x) s s1 c 38 (fun b =>
        ((b.putG x.ra (BitVec.ofInt 64 (a.toInt.tdiv q.toInt))).putG (x.ra + 1)
          (BitVec.ofInt 64 (a.toInt - a.toInt.tdiv q.toInt * q.toInt))).putCC (ccOf (a.toInt.tdiv q.toInt)))
      ∧ Completes (.divu c.e x) s s1 c 38 (fun b =>
        ((b.putG x.ra (BitVec.ofNat 64 (a.toNat / q.toNat))).putG (x.ra + 1)
          (BitVec.ofNat 64 (a.toNat % q.toNat))).putCC (if a.toNat < q.toNat then 0 else 2))

namespace Sys2Proof

/-! ### Fixed decimal (R106 to R132) -/

/-- A packed image of `n` digits whose sign nibble and digits are valid and whose value is `v` (R49, R72 to R74). -/
def PackedValue (n x : Nat) (v : Int) : Prop :=
  10 ≤ x % 16 ∧ (∀ i, i < n → x / 16 ^ (i + 1) % 16 < 10) ∧
    v = (if x % 16 = 0xB ∨ x % 16 = 0xD then -1 else 1)
      * (((List.range n).map fun i => x / 16 ^ (i + 1) % 16 * 10 ^ i).sum : Nat)

/-- The image of `n` digits of magnitude `m` under sign nibble `sign` (R49, R72). -/
def imageOf (n m sign : Nat) : Nat := sign + ((List.range n).map fun i => m / 10 ^ i % 10 * 16 ^ (i + 1)).sum

/-- Every decimal source is read as its digits and its sign say, and only valid images are read (R72 to R74, R106). -/
def packedSourcesRules : Prop :=
  ∀ (n x : Nat) (v : Int), checkPacked n x = .ok v ↔ PackedValue n x v

/-- The result rule: a magnitude that fits is written with its sign and CC 0, 1 or 2; one that does not is cut to its low
digits with CC 3, or raises the decimal-overflow exception under DOE; a zero is never negative (R75, R108). -/
def resultRuleRules : Prop :=
  ∀ (doe u : Bool) (r : Int) (n : Nat),
    let plus := if u then 0xF else 0xC
    (r.natAbs < 10 ^ n → ∃ f, finish doe r n u = .ok f
      ∧ f.image n = imageOf n r.natAbs (if r < 0 then 0xD else plus)
      ∧ f.cc = (if r = 0 then 0 else if r < 0 then 1 else 2))
    ∧ (10 ^ n ≤ r.natAbs → doe = false → ∃ f, finish doe r n u = .ok f
      ∧ f.image n = imageOf n (r.natAbs % 10 ^ n) (if r < 0 ∧ r.natAbs % 10 ^ n ≠ 0 then 0xD else plus) ∧ f.cc = 3)
    ∧ (10 ^ n ≤ r.natAbs → doe = true → ∃ d, finish doe r n u = .error d)

/-- D registers of the fields, and the limit N: 63 in 4 bytes, IMM16[5:0] in 6 bytes, not 0 and with no other bit set
(R90, R107, R113). -/
def LimitOf (x : FmtA) (n : Nat) : Prop :=
  x.len = .l4 ∧ n = 63 ∨ x.len = .l6 ∧ x.imm = BitVec.ofNat 16 n ∧ 0 < n ∧ n < 64

/-- The bank with a finished result in D(r) and in CC. -/
def putResult (r : BitVec 4) (f : Finished) (b : Bank) : Bank := (b.putD r (BitVec.ofNat 256 (f.image 63))).putCC f.cc

end Sys2Proof

/-- DAD, DSB, DZP, DMP and BTD write the exact sum, difference, value, product or integer by the result rule, DCP
compares, and DTS tests; nothing else changes (R119, R121, R123, R124, R132). -/
def Obligations.DecimalResults : Prop :=
  ∀ (s s1 : State) (c : Cx) (x : FmtA) (a q : Int) (n : Nat), c.len = x.len.bytes → Begins s c x.pred s1 →
    let k := s1.bank c.slot
    let doe := pswDOE k.psw
    let u := bit x.mod 0
    x.ra.toNat ≤ 7 → x.rb.toNat ≤ 7 → x.rc.toNat ≤ 7 → PackedValue 63 (k.getD x.rb).toNat a →
      (LimitOf x n → field x.mod 1 5 = 0 → PackedValue 63 (k.getD x.rc).toNat q → ∀ f,
        (finish doe (a + q) n u = .ok f → Completes (.dad c.e x) s s1 c 4 (putResult x.ra f))
        ∧ (finish doe (a - q) n u = .ok f → Completes (.dsb c.e x) s s1 c 4 (putResult x.ra f)))
      ∧ (LimitOf x n → field x.mod 1 5 = 0 → x.rc = 0 → ∀ f, finish doe a n u = .ok f →
        Completes (.dzp c.e x) s s1 c 3 (putResult x.ra f))
      ∧ (LimitOf x n → field x.mod 2 4 = 0 → bit x.mod 1 = true → PackedValue 63 (k.getD x.rc).toNat q → ∀ f,
        finish doe (a * q) n u = .ok f → Completes (.dmp c.e x) s s1 c 34 (putResult x.ra f))
      ∧ (x.len = .l4 → field x.mod 1 5 = 0 → bit x.ra 0 = false → PackedValue 63 (k.getD x.rc).toNat q → ∀ f,
        finish doe (a * q) 126 u = .ok f → Completes (.dmp c.e x) s s1 c 34 (fun b =>
          ((b.putD x.ra (BitVec.ofNat 256 (imageOf 63 (f.mag / 10 ^ 63) f.sign))).putD (x.ra + 1)
            (BitVec.ofNat 256 (imageOf 63 f.mag f.sign))).putCC f.cc))
      ∧ (x.len = .l4 → x.mod = 0 → x.ra = 0 → PackedValue 63 (k.getD x.rc).toNat q →
        Completes (.dcp c.e x) s s1 c 3 (fun b => b.putCC (if a = q then 0 else if a < q then 1 else 2)))

namespace Sys2Proof

/-- DDV writes the quotient truncated toward zero and the remainder with the sign of the dividend (R51, R122). -/
def decimalDivideRules : Prop :=
  ∀ (s s1 : State) (c : Cx) (x : FmtA) (hi lo q : Int) (f : Finished), x.len = .l4 → c.len = 4 → Begins s c x.pred s1 →
    let k := s1.bank c.slot
    let even := (k.getD x.rb).toNat
    let odd := (k.getD (x.rb + 1)).toNat
    let u := bit x.mod 0
    let a : Int := (if odd % 16 = 0xB ∨ odd % 16 = 0xD then -1 else 1) * (hi * 10 ^ 63 + lo)
    x.ra.toNat ≤ 7 → x.rb.toNat ≤ 7 → x.rc.toNat ≤ 7 → bit x.ra 0 = false → bit x.rb 0 = false → field x.mod 1 5 = 0 →
    PackedValue 63 (even / 16 * 16 + 0xC) hi → PackedValue 63 (odd / 16 * 16 + 0xC) lo → 10 ≤ odd % 16 →
    PackedValue 63 (k.getD x.rc).toNat q → q ≠ 0 → finish (pswDOE k.psw) (a.tdiv q) 63 u = .ok f →
    Completes (.ddv c.e x) s s1 c 140 (fun b =>
      (putResult x.ra f b).putD (x.ra + 1) (BitVec.ofNat 256
        (imageOf 63 (a.tmod q).natAbs (if a.tmod q < 0 then 0xD else if u then 0xF else 0xC))))

/-- DSH and DRN shift and round a value at a decimal place by the mode of MOD[2:0] (R116, R117, R125, R126). -/
def decimalShiftRules : Prop :=
  ∀ (s s1 : State) (c : Cx) (x : FmtA) (a : Int) (v : BitVec 8) (f : Finished), c.len = x.len.bytes → Begins s c x.pred s1 →
    let k := s1.bank c.slot
    let mode := (field x.mod 0 3).toNat
    x.ra.toNat ≤ 7 → x.rb.toNat ≤ 7 → field x.mod 4 2 = 0 → mode < 7 → PackedValue 63 (k.getD x.rb).toNat a →
    (x.len = .l4 ∧ v = field (k.getG x.rc) 0 8 ∨ x.len = .l6 ∧ x.rc = 0 ∧ x.imm = v.zeroExtend 16) →
      (-63 ≤ v.toInt → v.toInt ≤ 63 →
        finish (pswDOE k.psw) (if 0 ≤ v.toInt then a * 10 ^ v.toInt.toNat else roundKept a (-v.toInt).toNat mode) 63 (bit x.mod 3)
          = .ok f → Completes (.dsh c.e x) s s1 c 3 (putResult x.ra f))
      ∧ (v.toNat ≤ 63 → finish (pswDOE k.psw) (roundKept a v.toNat mode * 10 ^ v.toNat) 63 (bit x.mod 3) = .ok f →
        Completes (.drn c.e x) s s1 c 4 (putResult x.ra f))

end Sys2Proof

/-- Decimal division, shift and rounding. -/
def Obligations.DecimalDivideAndShift : Prop := decimalDivideRules ∧ decimalShiftRules

namespace Sys2Proof

/-- The kept magnitude after `p` places are rounded away, by mode: half away from zero, half to even, half toward zero,
toward zero, away from zero, down, and up (R116, R117). -/
def roundingRules : Prop :=
  ∀ (a : Int) (p : Nat), (∀ mode, roundKept a 0 mode = a) ∧ (0 < p →
    let m := a.natAbs / 10 ^ p
    let rest := a.natAbs % 10 ^ p
    let keep (up : Bool) : Int := (if a < 0 then -1 else 1) * ((if up then m + 1 else m : Nat) : Int)
    roundKept a p 0 = keep (decide (10 ^ p ≤ 2 * rest))
    ∧ roundKept a p 1 = keep (decide (10 ^ p < 2 * rest ∨ 10 ^ p = 2 * rest ∧ m % 2 = 1))
    ∧ roundKept a p 2 = keep (decide (10 ^ p < 2 * rest))
    ∧ roundKept a p 3 = keep false
    ∧ roundKept a p 4 = keep (decide (rest ≠ 0))
    ∧ roundKept a p 5 = keep (decide (rest ≠ 0 ∧ a < 0))
    ∧ roundKept a p 6 = keep (decide (rest ≠ 0 ∧ ¬ a < 0)))

end Sys2Proof

/-- What the decimal instructions rest on: the packed operands that are valid and what they are worth, the rule by which a result is
written, and the seven rounding modes. -/
def Obligations.DecimalRules : Prop := packedSourcesRules ∧ resultRuleRules ∧ roundingRules

/-- DTB, BTD and DTS in its register form: binary conversion and the test of an image (R124, R131, R132). -/
def Obligations.DecimalConversions : Prop :=
  ∀ (s s1 : State) (c : Cx) (x : FmtA), x.len = .l4 → c.len = 4 → Begins s c x.pred s1 → x.rc = 0 →
    let k := s1.bank c.slot
    let doe := pswDOE k.psw
    let u := bit x.mod 0
    (field x.mod 1 5 = 0 → x.rb.toNat ≤ 7 → ∀ v, PackedValue 63 (k.getD x.rb).toNat v →
      ∀ fits : Bool, (fits = true ↔ if u then 0 ≤ v ∧ v < 2 ^ 64 else -2 ^ 63 ≤ v ∧ v < 2 ^ 63) → (fits = true ∨ doe = false) →
      Completes (.dtb c.e x) s s1 c 18 (fun b =>
        (b.putG x.ra (BitVec.ofInt 64 v)).putCC (if fits then (if v = 0 then 0 else if v < 0 then 1 else 2) else 3)))
    ∧ (field x.mod 1 5 = 0 → x.ra.toNat ≤ 7 → ∀ f, finish doe (if u then ((k.getG x.rb).toNat : Int) else (k.getG x.rb).toInt) 63 u = .ok f →
      Completes (.btd c.e x) s s1 c 22 (putResult x.ra f))
    ∧ (x.mod = 0 → x.ra = 0 → x.rb.toNat ≤ 7 → ∀ image, image = (k.getD x.rb).toNat →
      Completes (.dts c.e (.reg x)) s s1 c 3 (fun b =>
        b.putCC ((if image % 16 < 10 then 1 else 0) + (if ∃ i, i < 63 ∧ 10 ≤ image / 16 ^ (i + 1) % 16 then 2 else 0))))

namespace Sys2Proof

/-! ### Memory as an engine sees it (R79, R102, R210, R226, R260) -/

/-- The pieces of an operand of `n` bytes at `ea` are found, every check of the access passes, and they lie in normal memory
(R81, R82, R92, R260). -/
def InMemory (c : Cx) (acc : Acc) (ea n : Nat) (s : State) (ps : List (Nat × Nat)) : Prop :=
  ∃ t, (pieces c.e c.slot acc ea n).exec s = (.ok ps, t) ∧ t.anyDevice ps = false ∧ (addrsOf ps).length = n

end Sys2Proof

/-- While nothing waits behind memory, the fetch of an instruction changes no bank, no memory, no store buffer and no state
but caches, TLBs, counters and what their events set. -/
def Obligations.FetchFrame : Prop :=
  ∀ (s s1 : State) (c : Cx) (pred : BitVec 4), Quiet s → Begins s c pred s1 → Calm none s s1 ∧ ∀ e a, s1.seen e a = s.seen e a

namespace Sys2Proof

/-- A read of normal memory whose lines are not poisoned answers the bytes that the engine sees, those of its own stores
first, and every byte of memory reads as before (R102, R226). -/
def normalReadsRules : Prop :=
  ∀ (s : State) (c : Cx) (ea n : Nat) (ps : List (Nat × Nat)) (rule : DeviceRule) (dest : LoadDest), Quiet s →
    InMemory c .read ea n s ps → (∀ l ∈ linesOfPieces ps, tget false s.mem.poison l = false) →
    (∃ t, (load c ea n rule dest).exec s = (.ok (some ((addrsOf ps).map (s.seen c.e))), t)
      ∧ Calm (some c.e) s t ∧ ∀ a, t.seen c.e a = s.seen c.e a)
    ∧ (∃ t, (loadNormal c ea n).exec s = (.ok ((addrsOf ps).map (s.seen c.e)), t)
      ∧ Calm (some c.e) s t ∧ ∀ a, t.seen c.e a = s.seen c.e a)

/-- A store to normal memory is read back by its engine, byte for byte; every byte outside the operand reads as before; and
nothing else changes but the store buffer, caches, TLBs and counters (R102, R226). -/
def normalWritesRules : Prop :=
  ∀ (s : State) (c : Cx) (ea : Nat) (l : List Byte) (ps : List (Nat × Nat)) (rule : DeviceRule), Quiet s →
    InMemory c .write ea l.length s ps →
    ∃ t, (store c ea l rule).exec s = (.ok (), t) ∧ Calm (some c.e) s t
      ∧ (∀ a, a ∉ addrsOf ps → t.seen c.e a = s.seen c.e a)
      ∧ ((addrsOf ps).Nodup → (addrsOf ps).map (t.seen c.e) = l)

end Sys2Proof

/-- What a read and a write of normal memory do. -/
def Obligations.NormalAccess : Prop := normalReadsRules ∧ normalWritesRules

namespace Sys2Proof

/-- LD, LDS and LEA's form of address: G(BS) plus the sign-extended displacement plus G(IX), where IX 0 means none (R91). -/
def addressOf (bs ix : BitVec 4) (disp : BitVec 32) (len : Len) (b : Bank) : Nat :=
  (b.getG bs + (if len = .l12 then disp.signExtend 64 else (disp.truncate 20).signExtend 64)
    + if ix = 0 then 0 else b.getG ix).toNat

/-- The operand size of LD, LDS, ST, FLD and FST: MOD[5:4] in 6 bytes, MOD[1:0] otherwise, every other modifier bit 0
(R175, R185). -/
def SizeOf (x : FmtB) (k : Nat) : Prop :=
  (x.len = .l6 ∧ k = (field x.mod 4 2).toNat) ∨
  ((x.len = .l8 ∨ x.len = .l12) ∧ field x.mod 2 4 = 0 ∧ x.mod2 = 0 ∧ k = (field x.mod 0 2).toNat)

end Sys2Proof

/-- A load that memory answers writes G(RA), extended by zeros or by the sign; a store that memory takes completes and
changes no register (R79, R175). -/
def Obligations.LoadStoreResults : Prop :=
  ∀ (s s1 s2 : State) (c : Cx), (s2.eng c.e).postCheck = none →
    (∀ (x : FmtB) (k : Nat), c.len = x.len.bytes → Begins s c x.pred s1 → SizeOf x k →
      let ea := addressOf x.bs x.ix x.disp x.len (s1.bank c.slot)
      (∀ l, (load c ea (2 ^ k) (.aligned (2 ^ k)) (.g x.ra (2 ^ k) false)).exec s1 = (.ok (some l), s2) →
        Completes (.ld c.e x) s s2 c 2 (fun b => b.putG x.ra (BitVec.ofNat 64 (leNat l))))
      ∧ (∀ l, (load c ea (2 ^ k) (.aligned (2 ^ k)) (.g x.ra (2 ^ k) true)).exec s1 = (.ok (some l), s2) →
        Completes (.lds c.e x) s s2 c 2 (fun b => b.putG x.ra (sext (8 * l.length) (leNat l))))
      ∧ ((store c ea (natLE (2 ^ k) ((s1.bank c.slot).getG x.ra).toNat) (.aligned (2 ^ k))).exec s1 = (.ok (), s2) →
        Completes (.st c.e x) s s2 c 2 id))
    ∧ (∀ (x : FmtD), c.len = x.len.bytes → Begins s c x.pred s1 → (x.len = .l8 ∨ x.len = .l12) → x.mod = 0 →
      let ea := addressOf x.bs x.ix x.disp x.len (s1.bank c.slot)
      let v : Word := if x.len = .l12 then x.imm.signExtend 64 else (x.imm.truncate 12).signExtend 64
      (store c ea (natLE (2 ^ x.sz.toNat) v.toNat) (.aligned (2 ^ x.sz.toNat))).exec s1 = (.ok (), s2) →
        Completes (.sti c.e x) s s2 c 2 id)

namespace Sys2Proof

/-! ### Decimal operands in memory (R120, R123, R124, R127 to R130) -/

/-- The packed length of DLD and DST: 4, 8, 16 or 32 in 6 bytes, MOD[4:0] + 1 otherwise (R118). -/
def PackedLen (x : FmtB) (n : Nat) : Prop :=
  x.mod2 = 0 ∧ (x.len = .l6 ∧ n = 4 * 2 ^ (field x.mod 4 2).toNat ∨ (x.len = .l8 ∨ x.len = .l12) ∧ n = (field x.mod 0 5).toNat + 1)

/-- The digits and the sign form of DPK and DUP: MOD + 1 digits, at most 63, and MOD2[1:0] 0, 1 or 2 (R76, R113, R118). -/
def Zoned (x : FmtB) (n : Nat) (form : ZonedForm) : Prop :=
  (x.len = .l8 ∨ x.len = .l12) ∧ x.ra.toNat ≤ 7 ∧ field x.mod2 2 30 = 0 ∧ n = x.mod.toNat + 1 ∧ n ≤ 63
    ∧ field x.mod2 0 2 = (match form with | .none => 0 | .leading => 1 | .trailing => 2)

/-- The pieces that an instruction writes to, once every check of the access has passed. -/
def WritesTo (c : Cx) (ea n : Nat) (s s2 : State) (ps : List (Nat × Nat)) : Prop :=
  M.exec (do modify (·.awaitPosts c.e); checkedPieces c .write ea n .never) s = (.ok ps, s2)

/-- DLD, DTS and DPK read memory into D(RA) or CC; DST and DUP write D(RA) to memory by the result rule and set CC (R124,
R127 to R130). -/
def decimalMemoryRules : Prop :=
  ∀ (s s1 s2 s3 : State) (c : Cx) (x : FmtB), c.len = x.len.bytes → Begins s c x.pred s1 →
    let ea := addressOf x.bs x.ix x.disp x.len (s1.bank c.slot)
    let ew := addressOf x.bs x.ix x.disp x.len ((s1.awaitPosts c.e).bank c.slot)
    let doe := pswDOE (s2.bank c.slot).psw
    ((s2.eng c.e).postCheck = none → ∀ l,
      (∀ n v, PackedLen x n → x.ra.toNat ≤ 7 → (x.len ≠ .l6 → bit x.mod 5 = false) → (loadNormal c ea n).exec s1 = (.ok l, s2) →
        PackedValue (2 * l.length - 1) (beNat l) v → Completes (.dld c.e x) s s2 c (3 + (n + 7) / 8) (fun b =>
          (b.putD x.ra (BitVec.ofNat 256 (beNat l))).putCC (if v = 0 then 0 else if v < 0 then 1 else 2)))
      ∧ (∀ n, PackedLen x n → x.len ≠ .l6 → bit x.mod 5 = false → x.ra = 0 → (loadNormal c ea n).exec s1 = (.ok l, s2) →
        Completes (.dts c.e (.mem x)) s s2 c (3 + (n + 7) / 8) (fun b => b.putCC (testPacked (2 * n - 1) (beNat l))))
      ∧ (∀ n form v f, Zoned x n form → (loadNormal c ea (zonedBytes n form)).exec s1 = (.ok l, s2) →
        checkZoned form l = .ok v → finish doe v 63 (form == .none) = .ok f →
        Completes (.dpk c.e x) s s2 c (6 + (zonedBytes n form + 7) / 8) (putResult x.ra f)))
    ∧ ((s3.eng c.e).postCheck = none → x.ra.toNat ≤ 7 → ∀ ps v f, PackedValue 63 ((s2.bank c.slot).getD x.ra).toNat v →
      (∀ n, PackedLen x n → WritesTo c ew n s1 s2 ps → finish doe v (2 * n - 1) (x.len ≠ .l6 ∧ bit x.mod 5 = true) = .ok f →
        M.exec (writePieces c.e ps (f.packed n) false false) s2 = (.ok (), s3) →
        Completes (.dst c.e x) s s3 c (3 + (n + 7) / 8) (fun b => b.putCC f.cc))
      ∧ (∀ n form, Zoned x n form → WritesTo c ew (zonedBytes n form) s1 s2 ps → finish doe v n false = .ok f →
        M.exec (writePieces c.e ps (zonedOut f n form) false false) s2 = (.ok (), s3) →
        Completes (.dup c.e x) s s3 c (6 + (zonedBytes n form + 7) / 8) (fun b => b.putCC f.cc)))

/-- DADM, DSBM and DZPM write the sum, difference or value to the first operand by the result rule with CC, and DCPM compares
the two; no register but CC changes (R120, R123). -/
def decimalMemoryToMemoryRules : Prop :=
  ∀ (s s1 s2 s3 s4 s5 : State) (c : Cx) (x : FmtC) (a1 a2 : Nat) (p1 p2 : List (Nat × Nat)) (l1 l2 : List Byte) (v1 v2 : Int)
      (f : Finished), x.len = .l12 → c.len = 12 → Begins s c x.pred s1 →
    let n1 := x.l1.toNat + 1
    let n2 := x.l2.toNat + 1
    let doe := pswDOE (s4.bank c.slot).psw
    let written := M.exec (writePieces c.e p1 (f.packed n1) false true) s4
    PackedValue (2 * l2.length - 1) (beNat l2) v2 →
    (∀ back, M.exec (bothOperands c x .read back) s1 = (.ok (a1, p1, a2, p2), s2) →
      M.exec (readPieces c.e a1 p1) s2 = (.ok l1, s3) → M.exec (readPieces c.e a2 p2) s3 = (.ok l2, s4) →
      PackedValue (2 * l1.length - 1) (beNat l1) v1 →
      (back = true → written = (.ok (), s5) → (s5.eng c.e).postCheck = none →
        (finish doe (v1 + v2) (2 * n1 - 1) false = .ok f →
          Completes (.dadm c.e x) s s5 c (6 + (n2 + 7) / 8 + 2 * ((n1 + 7) / 8)) (fun b => b.putCC f.cc))
        ∧ (finish doe (v1 - v2) (2 * n1 - 1) false = .ok f →
          Completes (.dsbm c.e x) s s5 c (6 + (n2 + 7) / 8 + 2 * ((n1 + 7) / 8)) (fun b => b.putCC f.cc)))
      ∧ (back = false → (s4.eng c.e).postCheck = none →
        Completes (.dcpm c.e x) s s4 c (4 + (n1 + 7) / 8 + (n2 + 7) / 8) (fun b =>
          b.putCC (if v1 = v2 then 0 else if v1 < v2 then 1 else 2))))
    ∧ (M.exec (bothOperands c x .write false) s1 = (.ok (a1, p1, a2, p2), s2) →
      M.exec (readPieces c.e a2 p2) s2 = (.ok l2, s4) → finish doe v2 (2 * n1 - 1) false = .ok f →
      M.exec (writePieces c.e p1 (f.packed n1) false false) s4 = (.ok (), s5) → (s5.eng c.e).postCheck = none →
      Completes (.dzpm c.e x) s s5 c (4 + (n1 + 7) / 8 + (n2 + 7) / 8) (fun b => b.putCC f.cc))

end Sys2Proof

/-- The decimal instructions that read or write memory. -/
def Obligations.DecimalMemory : Prop := decimalMemoryRules ∧ decimalMemoryToMemoryRules

namespace Sys2Proof

/-! ### Floating point and its moves (R179 to R186) -/

/-- No condition of an operation is enabled in FPC.ENABLES (R183). -/
def Masked (k : Conds) (b : Bank) : Prop := k.bits &&& (field b.fpc 8 5).toNat = 0

/-- The conditions of an operation set their FLAGS bits (R61, R183). -/
def Bank.flag (b : Bank) (k : Conds) : Bank := { b with fpc := b.fpc ||| BitVec.ofNat 32 k.bits }

/-- The datum that F(r) holds in the format of a code (R53, R179). -/
def datum (k : Nat) (r : BitVec 4) (b : Bank) : FVal := decodeF k ((b.getF r).toNat % 2 ^ (8 * fmtBytes k))

/-- A result in F(r), its upper bits 0, with the FLAGS of its conditions (R53, R183). -/
def putDatum (k : Nat) (r : BitVec 4) (v : FVal × Conds) (b : Bank) : Bank := (Bank.flag b v.2).putF r (encodeF k v.1)

/-- FPC.BRM for a binary format, FPC.DRM for a decimal one (R61, R180). -/
def roundingMode (k : Nat) (b : Bank) : Nat := if k < 2 then (field b.fpc 16 3).toNat else (field b.fpc 20 3).toNat

/-- The count of a row of R184 in the column of a format. -/
def cyOf (row : List Nat) (k : Nat) : Nat := row.getD k 0

end Sys2Proof

/-- FADD, FSUB, FMUL, FDIV and FMA, from registers and from memory, write the correctly rounded result of their operation
and set the FLAGS of its conditions, while none of these is enabled (R179, R180, R183, R184). -/
def Obligations.FloatArithmetic : Prop :=
  ∀ (s s1 s2 : State) (c : Cx),
    (∀ (x : FmtXA), c.len = 6 → x.len = .l6 → Begins s c x.pred s1 → x.mod2 = 0 →
      let b := s1.bank c.slot
      let k := x.mod.toNat
      let f := fmtOf k
      let m := roundingMode k b
      let p := datum k x.rb b
      let q := datum k x.rc b
      let r := datum k x.ra b
      (Masked (addF f m p q).2 b → Completes (.fadd c.e (.reg x)) s s1 c (cyOf [3, 3, 5, 7] k) (putDatum k x.ra (addF f m p q)))
      ∧ (Masked (subF f m p q).2 b → Completes (.fsub c.e (.reg x)) s s1 c (cyOf [3, 3, 5, 7] k) (putDatum k x.ra (subF f m p q)))
      ∧ (Masked (mulF f m p q).2 b → Completes (.fmul c.e (.reg x)) s s1 c (cyOf [4, 5, 9, 16] k) (putDatum k x.ra (mulF f m p q)))
      ∧ (Masked (divF f m p q).2 b → Completes (.fdiv c.e (.reg x)) s s1 c (cyOf [12, 20, 36, 64] k) (putDatum k x.ra (divF f m p q)))
      ∧ (Masked (fmaF f m p q r).2 b → Completes (.fma c.e (.reg x)) s s1 c (cyOf [5, 6, 12, 20] k) (putDatum k x.ra (fmaF f m p q r))))
    ∧ (∀ (x : FmtXB) (op : Nat) (l : List Byte), c.len = x.len.bytes → x.len = .l8 ∨ x.len = .l12 → Begins s c x.pred s1 → x.mod2 = 0 →
      let n := fmtBytes x.mod.toNat
      (load c (addressOf x.bs 0 x.disp x.len (s1.bank c.slot)) n (.aligned n) (.fop op x.ra x.mod.toNat)).exec s1 = (.ok (some l), s2) →
      (s2.eng c.e).postCheck = none →
      let b := s2.bank c.slot
      let k := x.mod.toNat
      let f := fmtOf k
      let m := roundingMode k b
      let q := decodeF k (leNat l)
      let r := datum k x.ra b
      (op = 0 → Masked (addF f m r q).2 b → Completes (.fadd c.e (.mem x)) s s2 c (cyOf [5, 5, 7, 9] k) (putDatum k x.ra (addF f m r q)))
      ∧ (op = 1 → Masked (subF f m r q).2 b → Completes (.fsub c.e (.mem x)) s s2 c (cyOf [5, 5, 7, 9] k) (putDatum k x.ra (subF f m r q)))
      ∧ (op = 2 → Masked (mulF f m r q).2 b → Completes (.fmul c.e (.mem x)) s s2 c (cyOf [6, 7, 11, 18] k) (putDatum k x.ra (mulF f m r q)))
      ∧ (op = 3 → Masked (divF f m r q).2 b → Completes (.fdiv c.e (.mem x)) s s2 c (cyOf [14, 22, 38, 66] k) (putDatum k x.ra (divF f m r q)))
      ∧ (op = 4 → Masked (fmaF f m r q r).2 b → Completes (.fma c.e (.mem x)) s s2 c (cyOf [7, 8, 14, 22] k) (putDatum k x.ra (fmaF f m r q r))))

namespace Sys2Proof

/-- The relation of FCMPP on the outcome of a comparison: equal, less, less or equal, unordered (R179). -/
def relationOf (code : Fin 4) (cmp : Nat) : Bool :=
  match code with
  | 0 => cmp == 0
  | 1 => cmp == 1
  | 2 => cmp == 0 || cmp == 1
  | 3 => cmp == 3

/-- FSQRT, FRND, FCVT, FQUANT and GTOF write F(RA), FTOG writes G(RA), FCMP writes CC and FCMPP P(RA), each with the FLAGS of
its conditions, while none of these is enabled (R179 to R184). -/
def floatOperationsRules : Prop :=
  ∀ (s s1 : State) (c : Cx) (x : FmtXA), c.len = x.len.bytes → Begins s c x.pred s1 →
    let b := s1.bank c.slot
    let k := x.mod.toNat
    let f := fmtOf k
    let m := roundingMode k b
    let p := datum k x.rb b
    let q := datum k x.rc b
    let r := datum k x.ra b
    (x.len = .l4 →
      (Masked (sqrtF f m p).2 b → Completes (.fsqrt c.e x) s s1 c (cyOf [14, 24, 40, 72] k) (putDatum k x.ra (sqrtF f m p)))
      ∧ (Masked (rintF f m p).2 b → Completes (.frnd c.e x) s s1 c (cyOf [3, 3, 4, 5] k) (putDatum k x.ra (rintF f m p)))
      ∧ (∀ w : Conds, w = { invalid := anySignaling [r, p] } → Masked w b →
        Completes (.fcmp c.e x) s s1 c (cyOf [2, 2, 3, 4] k) (fun b => (Bank.flag b w).putCC (compareF f r p))))
    ∧ (x.len = .l6 →
      (x.mod2 = 0 → 2 ≤ k → Masked (quantizeF f m p q).2 b →
        Completes (.fquant c.e x) s s1 c (cyOf [0, 0, 5, 7] k) (putDatum k x.ra (quantizeF f m p q)))
      ∧ (∀ code : Fin 4, field x.mod2 4 8 = 0 → field x.mod2 0 3 = BitVec.ofNat 3 code.val → x.ra.toNat ≤ 7 →
        ∀ w : Conds, w = { invalid := anySignaling [p, q] || (compareF f p q == 3 && (code == 1 || code == 2)) } → Masked w b →
        Completes (.fcmpp c.e x) s s1 c (cyOf [2, 2, 3, 4] k) (fun b =>
          (Bank.flag b w).setPred x.ra.toNat (relationOf code (compareF f p q) != bit x.mod2 3)))
      ∧ (x.rc = 0 → field x.mod2 2 10 = 0 →
        let from' := (field x.mod2 0 2).toNat
        let v := convertF from' k m (datum from' x.rb b)
        Masked v.2 b → Completes (.fcvt c.e x) s s1 c
          (if (k < 2) = (from' < 2) then cyOf [3, 3, 4, 5] (max k from') else 24) (putDatum k x.ra v))
      ∧ (x.rc = 0 → field x.mod2 1 11 = 0 →
        let unsigned := bit x.mod2 0
        let g := b.getG x.rb
        let v := fromInteger f m (if unsigned then (g.toNat : Int) else g.toInt)
        let w := toInteger f m unsigned p
        (Masked v.2 b → Completes (.gtof c.e x) s s1 c (cyOf [4, 4, 8, 10] k) (putDatum k x.ra v))
        ∧ (Masked w.2 b → Completes (.ftog c.e x) s s1 c (cyOf [4, 4, 8, 10] k) (fun b => (Bank.flag b w.2).putG x.ra w.1))))

/-- FLD, FST, FMVG, GMVF, DTF and FTD move and convert between F, G and D registers and memory (R185, R186). -/
def floatMovesRules : Prop :=
  ∀ (s s1 s2 : State) (c : Cx),
    (∀ (x : FmtB) (k : Nat), c.len = x.len.bytes → Begins s c x.pred s1 → SizeOf x k → k < 3 → (s2.eng c.e).postCheck = none →
      let ea := addressOf x.bs x.ix x.disp x.len (s1.bank c.slot)
      let n := 4 * 2 ^ k
      (∀ l, (load c ea n (.aligned n) (.f x.ra n)).exec s1 = (.ok (some l), s2) →
        Completes (.fld c.e x) s s2 c 2 (fun b => b.putF x.ra (BitVec.ofNat 128 (leNat l))))
      ∧ ((store c ea (natLE n ((s1.bank c.slot).getF x.ra).toNat) (.aligned n)).exec s1 = (.ok (), s2) →
        Completes (.fst c.e x) s s2 c 2 id))
    ∧ (∀ (x : FmtA), x.len = .l4 → c.len = 4 → Begins s c x.pred s1 →
      let b := s1.bank c.slot
      (x.rc = 0 → field x.mod 1 5 = 0 → ∀ half : Nat, half = (if bit x.mod 0 then 64 else 0) →
        Completes (.fmvg c.e x) s s1 c 1 (fun b => b.putG x.ra (field (b.getF x.rb) half 64))
        ∧ Completes (.gmvf c.e x) s s1 c 1 (fun b => b.putF x.ra (setField (b.getF x.ra) half 64 (b.getG x.rb).toNat)))
      ∧ (x.mod = 0 → x.rb.toNat ≤ 7 →
        (∀ v, PackedValue 63 (b.getD x.rb).toNat v → ∀ q : Int, q = (field (b.getG x.rc) 0 16).toInt →
          let w := roundF (fmtOf 3) (roundingMode 3 b) (decide (v < 0)) v.natAbs q false q
          Masked w.2 b → Completes (.dtf c.e x) s s1 c 16 (putDatum 3 x.ra w))
        ∧ (∀ neg coef q, datum 3 x.ra b = .fin neg coef q → Completes (.ftd c.e x) s s1 c 12 (fun b =>
            (b.putD x.rb (BitVec.ofNat 256 (imageOf 63 coef (if neg then 0xD else 0xC)))).putG x.rc (BitVec.ofInt 64 q)))
        ∧ ((∀ neg coef q, datum 3 x.ra b ≠ .fin neg coef q) → bit b.fpc 8 = false → Completes (.ftd c.e x) s s1 c 12 (fun b =>
            ((Bank.flag b { invalid := true }).putD x.rb 0xC).putG x.rc (BitVec.ofNat 64 (2 ^ 63))))))

end Sys2Proof

/-- The operations of binary floating point that compute one result, and those that move and convert. -/
def Obligations.FloatOperations : Prop := floatOperationsRules ∧ floatMovesRules

namespace Sys2Proof

/-! ### Predicates, status and entry registers (R54, R57, R61 to R64, R187, R199, R202) -/

/-- Fields of an instruction of R202 that names only RA. -/
def OnlyRa (x : FmtA) : Prop := x.len = .l4 ∧ x.rb = 0 ∧ x.rc = 0 ∧ x.mod = 0

/-- A value that FPC can hold: no reserved bit, BRM at most 3, DRM at most 4 (R61, R62). -/
def FpcValue (v : BitVec 32) : Prop :=
  field v 5 3 = 0 ∧ field v 13 3 = 0 ∧ bit v 19 = false ∧ bit v 23 = false ∧ (field v 16 3).toNat ≤ 3 ∧ (field v 20 3).toNat ≤ 4

/-- PSW.FTM after a write that asks for `want`: OFF keeps it 0 or lets it clear, ALLOWED takes it, FORCED keeps it 1 (R28). -/
def ftmWritten (policy : BitVec 2) (now want : Bool) : Bool :=
  if policy = 0 then now && want else if policy = 1 then want else now || want

/-- A PSW with KEY, PRIV and DOE of the operand and the given FTM (R57). -/
def statusWritten (now want : BitVec 128) (ftm : Bool) : BitVec 128 :=
  setField (setField (setField (setField now 48 8 (pswKEY want)) 59 1 (b2n (pswPRIV want))) 60 1 (b2n ftm)) 61 1 (b2n (pswDOE want))

/-- ESTAT with the bits of `v` outside its reserved ones (R64, R202). -/
def estatWritten (now v : Word) : Word := (now &&& ~~~0x003F0007FFFF0FFF) ||| (v &&& 0x003F0007FFFF0FFF)

end Sys2Proof

/-- PSET, SPSW, GPSW, GETE, SETE, KRS, KRG, SFPC, GFPC and TBR write the registers that their rules name and no others; the
entry registers need the privileged state (R57, R60, R62 to R64, R187, R199, R202). -/
def Obligations.StatusResults : Prop :=
  ∀ (s s1 : State) (c : Cx) (x : FmtA), c.len = x.len.bytes → Begins s c x.pred s1 →
    let b := s1.bank c.slot
    let now := b.psw
    (x.len = .l4 → x.ra.toNat ≤ 7 →
      (field x.mod 4 2 = 0 → x.rb = 0 → x.rc = 0 →
        Completes (.pset c.e x) s s1 c 1 (fun b => b.setPred x.ra.toNat (bit (field x.mod 0 4) (3 - b.cc.toNat))))
      ∧ (x.rb.toNat ≤ 7 → x.rc.toNat ≤ 7 → bit x.mod 3 = false → ∀ p q r : Bool,
        p = (b.pred x.rb.toNat != bit x.mod 0) → q = (b.pred x.rc.toNat != bit x.mod 1) →
        (field x.mod 4 2 = 1 ∧ r = (p && q) ∨ field x.mod 4 2 = 2 ∧ r = (p || q) ∨ field x.mod 4 2 = 3 ∧ r = (p != q)) →
        Completes (.pset c.e x) s s1 c 1 (fun b => b.setPred x.ra.toNat (r != bit x.mod 2))))
    ∧ (OnlyRa x →
      (bit x.ra 0 = false → ∀ want : BitVec 128, want = b.getG (x.ra + 1) ++ b.getG x.ra →
        field want 62 2 = 0 → field want 72 56 = 0 → (pswKEY want = pswKEY now ∨ pswPRIV now = true ∧ pswKEY now = 0) →
        (pswPRIV want = true → pswPRIV now = true) → ∀ ftm : Bool,
        ftm = ftmWritten (s1.dom (s1.owner c.slot)).ftmpol (pswFTM now) (pswFTM want) →
        Completes (.spsw c.e x) s s1 c 2 (fun b => { b with psw := statusWritten b.psw want ftm }))
      ∧ (bit x.ra 0 = false → ∀ p : BitVec 128, p = setField now 0 48 (pswIA now + 4) →
        Completes (.gpsw c.e x) s s1 c 1 (fun b => (b.putG x.ra (field p 0 64)).putG (x.ra + 1) (field p 64 64)))
      ∧ Completes (.krs c.e x) s s1 c 1 (fun b => { b with krr := field (b.getG x.ra) 0 32 })
      ∧ Completes (.krg c.e x) s s1 c 1 (fun b => b.putG x.ra (b.krr.zeroExtend 64))
      ∧ (FpcValue (field (b.getG x.ra) 0 32) →
        Completes (.sfpc c.e x) s s1 c 1 (fun b => { b with fpc := field (b.getG x.ra) 0 32 }))
      ∧ Completes (.gfpc c.e x) s s1 c 1 (fun b => b.putG x.ra (b.fpc.zeroExtend 64))
      ∧ Completes (.tbr c.e x) s s1 c 2 (fun b => b.putG x.ra s1.pcm.chrono))
    ∧ (x.len = .l4 → x.rb = 0 → x.rc = 0 → pswPRIV now = true →
      (x.mod = 0 → Completes (.gete c.e x) s s1 c 1 (fun b => b.putG x.ra (field b.epsw 0 64))
        ∧ Completes (.sete c.e x) s s1 c 1 (fun b => { b with epsw := setField b.epsw 0 64 (b.getG x.ra).toNat }))
      ∧ (x.mod = 1 → Completes (.gete c.e x) s s1 c 1 (fun b => b.putG x.ra (field b.epsw 64 64))
        ∧ Completes (.sete c.e x) s s1 c 1 (fun b => { b with epsw := setField b.epsw 64 64 (b.getG x.ra).toNat }))
      ∧ (x.mod = 2 → Completes (.gete c.e x) s s1 c 1 (fun b => b.putG x.ra b.estat)
        ∧ Completes (.sete c.e x) s s1 c 1 (fun b => { b with estat := estatWritten b.estat (b.getG x.ra) }))
      ∧ (x.mod = 3 → Completes (.gete c.e x) s s1 c 1 (fun b => b.putG x.ra b.eaddr)
        ∧ Completes (.sete c.e x) s s1 c 1 (fun b => { b with eaddr := b.getG x.ra })))

namespace Sys2Proof

/-! ### Branches and calls (R93, R100, R188 to R195) -/

/-- The entry that a lookup of the branch at `ia` finds in the branch target buffer (R189, R191). -/
def btbEntry (s : State) (c : Cx) (ia : Nat) : Option BtbEntry :=
  (s.btbKey c.slot ia).find (tget [] (s.eng c.e).btb (s.btbKey c.slot ia).set)

/-- The target that the branch target buffer predicts for the branch at `ia`, or none (R189, R191). -/
def predicted (s : State) (c : Cx) (ia : Nat) : Option Nat :=
  (btbEntry s c ia).map fun y => (y.target ^^^ (s.btbKey c.slot ia).mask).toNat

/-- The cost of a branch: 5 under fixed-time mode, else 2 when the prediction is right and 5 when it is wrong (R100, R104). -/
def branchCycles (s : State) (c : Cx) (target : Option Nat) : Nat :=
  if pswFTM (s.bank c.slot).psw then 5
  else if predicted s c (pswIA (s.bank c.slot).psw) = target then 2 else 5

/-- The branch target buffer after a branch: a taken one writes its target as the most recent entry of its set, one that is
not taken drops the entry it hit, and fixed-time mode leaves the buffer alone (R104, R189). -/
def btbAfter (s : State) (c : Cx) (target : Option Nat) (btb : Tbl (List BtbEntry)) : Tbl (List BtbEntry) :=
  let ia := pswIA (s.bank c.slot).psw
  let k := s.btbKey c.slot ia
  let set := tget [] btb k.set
  if pswFTM (s.bank c.slot).psw then btb
  else match target with
    | some t =>
      let entry : BtbEntry := { scrambled := k.scrambled, tag := k.tag, level := k.level, key := k.key,
                                writer := BitVec.ofNat 3 c.n.val, target := BitVec.ofNat 48 t ^^^ k.mask }
      tset [] btb k.set ((entry :: k.without set).take 4)
    | none => if (k.find set).isSome then tset [] btb k.set (k.without set) else btb

/-- A branch-group instruction, whose work has reached `s1`, goes to `target` or on, with `extra` cycles beside its branch
cost; BRTAKEN and BRMISS count (R100, R189, R195, R559). -/
def Branches (i : Instr) (s s1 : State) (c : Cx) (target : Option Nat) (extra : Nat) (f : Bank → Bank) : Prop :=
  let ftm := pswFTM (s1.bank c.slot).psw
  let n := branchCycles s1 c target
  Goes i s s1 c target
    [(0, n + extra), (10, if ftm then n + extra else 0), (8, if target.isSome then 1 else 0), (9, if n = 5 ∧ ftm = false then 1 else 0)] f
    (fun y => { y with btb := btbAfter s1 c target y.btb, lineBuf := if target.isSome then [] else y.lineBuf })

/-- The target of a format-E branch: IA plus twice the signed offset, or TGT in 12 bytes; it is even and below 2^48 (R93). -/
def TargetOf (x : FmtE) (ia t : Nat) : Prop :=
  x.len = .l12 ∧ t = x.tgt.toNat ∧ t % 2 = 0
  ∨ x.len ≠ .l12 ∧ (t : Int) = ia + 2 * (if x.len = .l4 then (x.off.truncate 14).toInt else x.off.toInt) ∧ t < 2 ^ 48

end Sys2Proof

/-- B, BC, BR and DBNZ go to their target or on, and DBNZ counts its register down (R93, R100, R188, R189). -/
def Obligations.BranchResults : Prop :=
  ∀ (s s1 : State) (c : Cx),
    (∀ (x : FmtE) (t : Nat), c.len = x.len.bytes → Begins s c x.pred s1 → (x.len = .l12 → x.mask = 0 ∧ x.off = 0) →
      let b := s1.bank c.slot
      (x.mask = 0 → x.len ≠ .l8 →
        (x.m = 0 → TargetOf x (pswIA b.psw) t → Branches (.b c.e x) s s1 c (some t) 0 id)
        ∧ (bit x.m (3 - b.cc.toNat) = true → TargetOf x (pswIA b.psw) t → Branches (.bc c.e x) s s1 c (some t) 0 id)
        ∧ (bit x.m (3 - b.cc.toNat) = false → Branches (.bc c.e x) s s1 c none 0 id))
      ∧ (x.len = .l4 ∨ x.len = .l6 →
        (b.getG x.m ≠ 1 → TargetOf x (pswIA b.psw) t → Branches (.dbnz c.e x) s s1 c (some t) 0 (fun b => b.putG x.m (b.getG x.m - 1)))
        ∧ (b.getG x.m = 1 → Branches (.dbnz c.e x) s s1 c none 0 (fun b => b.putG x.m 0))))
    ∧ (∀ (x : FmtA) (t : Nat), OnlyRa x → c.len = 4 → Begins s c x.pred s1 →
      t = ((s1.bank c.slot).getG x.ra).toNat → t % 2 = 0 → t < 2 ^ 48 → Branches (.br c.e x) s s1 c (some t) 0 id)

namespace Sys2Proof

/-- The registers of MASK in ascending order (R192). -/
def RegsOf (m : BitVec 16) (rs : List (BitVec 4)) : Prop :=
  rs = ((List.range 15).filter fun i => bit m i).map (BitVec.ofNat 4) ∧ bit m 15 = false

/-- The bank with consecutive 8-byte words of memory in registers. -/
def loadRegs : List (BitVec 4) → List Byte → Bank → Bank
  | [], _, b => b
  | r :: rs, l, b => loadRegs rs (l.drop 8) (b.putG r (BitVec.ofNat 64 (leNat (l.take 8))))

end Sys2Proof

/-- CALL and CALLR push the return address, MASK and the selected registers, and write G14 and G15; RET restores them and
returns (R192 to R195). -/
def Obligations.CallResults : Prop :=
  ∀ (s s1 s2 s3 : State) (c : Cx) (x : FmtE) (rs : List (BitVec 4)) (ps : List (Nat × Nat)) (t : Nat), c.len = x.len.bytes →
    Begins s c x.pred s1 → RegsOf x.mask rs → (s3.eng c.e).postCheck = none →
    let b := s1.bank c.slot
    let size := 8 * (rs.length + 1)
    let sp := b.getG 15
    let new := sp - BitVec.ofNat 64 size
    let ret := (pswIA b.psw + c.len) % 2 ^ 48
    let frame := (ret + 2 ^ 48 * x.mask.toNat) :: rs.map fun r => (b.getG r).toNat
    sp.toNat % 8 = 0 →
    (M.exec (framePieces c .write 1 new.toNat size) (s1.awaitPosts c.e) = (.ok ps, s2) →
      M.exec (writePieces c.e ps (frame.flatMap (natLE 8)) false false) s2 = (.ok (), s3) →
      (x.m = 0 → (x.len = .l8 ∨ x.len = .l12 ∧ x.off = 0) → TargetOf x (pswIA b.psw) t →
        Branches (.call c.e x) s s3 c (some t) (2 + rs.length) (fun b => (b.putG 14 (BitVec.ofNat 64 ret)).putG 15 new))
      ∧ (x.len = .l8 → x.off = 0 → t = (b.getG x.m).toNat → t % 2 = 0 → t < 2 ^ 48 →
        Branches (.callr c.e x) s s3 c (some t) (2 + rs.length) (fun b => (b.putG 14 (BitVec.ofNat 64 ret)).putG 15 new)))
    ∧ (M.exec (framePieces c .read 2 sp.toNat size) (s1.awaitPosts c.e) = (.ok ps, s2) → ∀ l,
      M.exec (readPieces c.e sp.toNat ps) s2 = (.ok l, s3) → x.len = .l8 → x.m = 0 → x.off = 0 →
      leNat (l.take 8) = t + 2 ^ 48 * x.mask.toNat → t % 2 = 0 → t < 2 ^ 48 →
      Branches (.ret c.e x) s s3 c (some t) (3 + rs.length) (fun b =>
        (loadRegs rs (l.drop 8) b).putG 15 (sp + BitVec.ofNat 64 size)))

namespace Sys2Proof

/-! ### Exceptions, events and returns (R60, R94, R178, R203, R204, R267, R268, R279 to R289) -/

/-- The vector of each CAUSE (R286). -/
def causeVectors : List (Nat × Nat) :=
  [(0x20, 1), (0x21, 2), (0x22, 3), (0x23, 4), (0x24, 4), (0x25, 4), (0x26, 4), (0x27, 5), (0x28, 6), (0x29, 7), (0x2A, 7),
   (0x2B, 8), (0x2C, 8), (0x2D, 9), (0x30, 10), (0x31, 10), (0x32, 10), (0x33, 11), (0x34, 11), (0x38, 12), (0x39, 13),
   (0x3A, 14)]

/-- The vector-table entry `v` of level `t` of engine `e` (R267). -/
def entryOf (s : State) (e : Eng) (t : Fin 8) (v : Nat) : Word := s.vector (slotOf e t.val) v

/-- PSW.FTM of an entry under the policy of the slot's owner: OFF 0, ALLOWED as the entry says, FORCED 1 (R28, R268). -/
def ftmOf (policy : BitVec 2) (f : Bool) : Bool := if policy = 0 then false else if policy = 1 then f else true

/-- The PSW of an entry into level `t` at vector `v`: IA, PRIV and DOE of the vector-table entry, KEY the owner of the slot,
LEVEL, FTM by the owner's policy, every other field 0 (R268). -/
def entryStatus (s : State) (e : Eng) (t : Fin 8) (v : Nat) : BitVec 128 :=
  let w := entryOf s e t v
  let d := s.owner (slotOf e t.val)
  BitVec.ofNat 128 ((field w 1 47).toNat * 2 + d % 256 * 2 ^ 48 + t.val * 2 ^ 56 + b2n (bit w 48) * 2 ^ 59
    + b2n (ftmOf (s.dom d).ftmpol (bit w 49)) * 2 ^ 60 + b2n (bit w 50) * 2 ^ 61)

/-- ESTAT from its fields, the reserved ones 0 (R64). -/
def statWord (cause ilen detail src v : Nat) : Word :=
  BitVec.ofNat 64 (cause + ilen * 2 ^ 8 + detail * 2 ^ 16 + src * 2 ^ 32 + v * 2 ^ 48)

/-- The slots of engine `e` after the delivery of an exception of level `n` to level `t` (R287, R288). -/
def slotsEntered (s : State) (e : Eng) (t n : Fin 8) : State :=
  (if t = n then s else s.modSlot (slotOf e n.val) fun y => { y with state := .held }).modSlot (slotOf e t.val) fun y =>
    { y with state := .active, nest := true, xlvl := BitVec.ofNat 3 n.val }

/-- Exception `x` of level `n` enters level `t` at vector `v`, from `s` to `u`, in 12 cycles: the entry registers and the PSW
of the target bank, the commit record kept beside EPSW when the level interrupts itself, the slots, and nothing else (R288,
R324). -/
def Enters (s u : State) (e : Eng) (t n : Fin 8) (v : Nat) (x : Exc) : Prop :=
  Rebank s u (slotOf e t.val) (fun b =>
    { b with epsw := (s.bank (slotOf e n.val)).psw, eaddr := x.eaddr, psw := entryStatus s e t v,
             estat := statWord x.cause.toNat x.ilen.toNat x.detail.toNat n.val v,
             ecommit := if t = n then b.commit else b.ecommit })
  ∧ u.eng e = ({ s.eng e with lineBuf := [] } : Engine).later 12
  ∧ Tally s u e [(5, 1), (0, 12), (10, if pswFTM (entryStatus s e t v) then 12 else 0)]
  ∧ Aside (slotsEntered s e t n) u e

/-- Level `m` of engine `e` is IDLE, with a VALID entry at vector `v` (R287). -/
def FreeTarget (s : State) (e : Eng) (m : Fin 8) (v : Nat) : Prop :=
  (s.slot (slotOf e m.val)).state = .idle ∧ bit (entryOf s e m v) 0 = true

/-- Level `n` of engine `e` takes its own exceptions at vector `v`: NEST is 0 and the entry VALID (R287). -/
def OwnTarget (s : State) (e : Eng) (n : Fin 8) (v : Nat) : Prop :=
  (s.slot (slotOf e n.val)).nest = false ∧ bit (entryOf s e n v) 0 = true

end Sys2Proof

/-- An exception of level `n` is delivered to `n` itself at its own vector; a stack fault, or one that cannot be, to the
fault level of the slot's owner, then to level 0, then as machine check 0x0001 (R287, R288). -/
def Obligations.ExceptionDelivery : Prop :=
  ∀ (s : State) (e : Eng) (n l : Fin 8) (x : Exc) (v : Nat), (x.cause.toNat, v) ∈ causeVectors →
    l = Fin.ofNat 8 (s.dom (s.owner (slotOf e n.val))).faultlvl.toNat →
    let u := s.deliver e n x
    (x.cause ≠ 0x3A → OwnTarget s e n v → Enters s u e n n v x)
    ∧ (x.cause ≠ 0x3A → ¬ OwnTarget s e n v → l < n → FreeTarget s e l 15 → Enters s u e l n 15 x)
    ∧ (x.cause = 0x3A → l < n → FreeTarget s e l 14 → Enters s u e l n 14 x)
    ∧ (x.cause ≠ 0x3A ∧ ¬ OwnTarget s e n v ∧ ¬ (l < n ∧ FreeTarget s e l 15) ∨ x.cause = 0x3A ∧ ¬ (l < n ∧ FreeTarget s e l 14) →
      (0 < n → FreeTarget s e 0 15 → Enters s u e 0 n 15 x)
      ∧ (¬ (0 < n ∧ FreeTarget s e 0 15) → u = s.machineCheck e 1 0 0 (some n) x.ilen (pswKEY (s.bank (slotOf e n.val)).psw)))

namespace Sys2Proof

/-- An engine whose held stores are discarded and whose other store-buffer entries are closed (R102, R142). -/
def discarded (x : Engine) : Engine :=
  { x with sb := (x.sb.filter fun y => !y.held).map fun y => { y with opened := false, held := false } }

/-- Instruction `i`, whose work reached `s1`, raises an exception after `n` cycles: no register changes, and where nothing more
urgent is due the exception enters its own level, if that takes it, with IA at the instruction (R67, R287 to R289). -/
def Traps (i : Instr) (s s1 : State) (c : Cx) (n cause detail : Nat) (addr : Word) : Prop :=
  ∃ t u, exec i s = .next u ∧ Rebank s1 t c.slot id ∧ t.eng c.e = (discarded (s1.eng c.e)).later n
    ∧ Tally s1 t c.e [(0, n), (10, if pswFTM (s1.bank c.slot).psw then n else 0)] ∧ Aside s1 t c.e
    ∧ (∀ v, (cause, v) ∈ causeVectors → t.dueLevel c.e = none → (t.dom (t.owner c.slot)).state ≠ .quiescing →
      OwnTarget t c.e c.n v → Enters t u c.e c.n c.n v
        { cause := BitVec.ofNat 8 cause, detail := BitVec.ofNat 16 detail, eaddr := addr, ilen := BitVec.ofNat 4 c.len })

/-- An unassigned opcode, a privileged instruction in application state, a bad branch target, a division by zero and an
invalid decimal source raise their exceptions and write nothing (R60, R94, R106, R114, R178, R188, R202). -/
def exceptionCausesRules : Prop :=
  ∀ (s s1 : State) (c : Cx),
    (∀ (pred : BitVec 4) (len : Len) (op xop : BitVec 8), c.len = len.bytes → Begins s c pred s1 →
      (op = 0 ∨ 0xE0 ≤ op.toNat ∧ op.toNat < 0xF8 ∨ 0xF8 < op.toNat ∧ op.toNat < 0xFE ∨ op = 0xFF ∧ 0x40 ≤ xop.toNat ∧ xop.toNat < 0x80
        ∨ op = 0xFF ∧ 0xC0 ≤ xop.toNat) →
      Traps (.unassignedOpcode c.e pred len op xop) s s1 c 1 0x20 0 0)
    ∧ (∀ (x : FmtA), x.len = .l4 → c.len = 4 → Begins s c x.pred s1 →
      let b := s1.bank c.slot
      let g := b.getG x.ra
      (x.rb = 0 → x.rc = 0 → pswPRIV b.psw = false →
        (field x.mod 2 4 = 0 → Traps (.gete c.e x) s s1 c 1 0x22 0 0 ∧ Traps (.sete c.e x) s s1 c 1 0x22 0 0)
        ∧ (x.ra = 0 → x.mod = 0 → Traps (.eret c.e x) s s1 c 0 0x22 0 0))
      ∧ (x.rb = 0 → x.rc = 0 → x.mod = 0 →
        (g.toNat % 2 = 1 → Traps (.br c.e x) s s1 c 0 0x21 0 g)
        ∧ (g.toNat % 2 = 0 → 2 ^ 48 ≤ g.toNat → Traps (.br c.e x) s s1 c 0 0x23 0 g))
      ∧ (x.mod = 0 → bit x.ra 0 = false → b.getG x.rc = 0 →
        Traps (.div c.e x) s s1 c 38 0x33 1 0 ∧ Traps (.divu c.e x) s s1 c 38 0x33 1 0)
      ∧ (x.ra.toNat ≤ 7 → x.rb.toNat ≤ 7 → x.rc.toNat ≤ 7 → field x.mod 1 5 = 0 → ∀ k p,
        checkPacked 63 (b.getD x.rb).toNat = .error (k, p) →
        Traps (.dad c.e x) s s1 c 4 0x30 (p + 2 ^ 8 + k * 2 ^ 12) 0 ∧ Traps (.dsb c.e x) s s1 c 4 0x30 (p + 2 ^ 8 + k * 2 ^ 12) 0))

/-- A fetch fault on the page that holds IA to IA + 3 raises its exception with IA at the instruction and ILEN 0, at no cost; an
instruction whose first four bytes would lie above the address space raises the address-range exception at IA (R85, R287). -/
def fetchFaultsRules : Prop :=
  ∀ (s s1 : State) (e : Eng) (n : Fin 8) (cause detail ea v : Nat), s.ready e = some n →
    let i := slotOf e n.val
    let ia := pswIA (s.bank i).psw
    let x : Exc := { cause := BitVec.ofNat 8 cause, detail := BitVec.ofNat 16 detail, eaddr := BitVec.ofNat 64 ea, ilen := 0 }
    (2 ^ 48 < ia + 4 → (fetchFirst e i ia).exec s = (.error (.exc 0x23 0 ia), s))
    ∧ ((fetchFirst e i ia).exec s = (.error (.exc cause detail ea), s1) → (cause, v) ∈ causeVectors → cause ≠ 0x3A →
      s1.dueLevel e = none → (s1.dom (s1.owner i)).state ≠ .quiescing → OwnTarget s1 e n v →
      ∃ t, exec (.instructionFetchFault e) s = .next t ∧ Enters s1 t e n n v x)

end Sys2Proof

/-- What raises the exceptions of an instruction before it has an effect, and the faults of its fetch. -/
def Obligations.ExceptionCauses : Prop := exceptionCausesRules ∧ fetchFaultsRules

/-- SVC completes and then raises the supervisor-call exception with IA at the next instruction (R203). -/
def Obligations.SupervisorCall : Prop :=
  ∀ (s s1 : State) (c : Cx) (x : FmtA) (code : Nat), c.len = x.len.bytes → Begins s c x.pred s1 → x.ra = 0 → x.rb = 0 → x.rc = 0 →
    (x.len = .l4 ∧ code = x.mod.toNat ∨ x.len = .l6 ∧ x.mod = 0 ∧ code = x.imm.toNat) →
    ∃ t u, exec (.svc c.e x) s = .next u ∧ Rebank s1 t c.slot (fun b => b.pass c.len) ∧ t.eng c.e = (s1.eng c.e).closed.later 2
      ∧ Tally s1 t c.e [(1, 1), (0, 2), (10, if pswFTM (s1.bank c.slot).psw then 2 else 0)] ∧ Aside s1 t c.e
      ∧ (t.dueLevel c.e = none → (t.dom (t.owner c.slot)).state ≠ .quiescing → OwnTarget t c.e c.n 12 →
        Enters t u c.e c.n c.n 12 { cause := 0x38, detail := BitVec.ofNat 16 code, eaddr := 0, ilen := BitVec.ofNat 4 c.len })
      ∧ (t.dueLevel c.e ≠ none → (∃ w, u = t.modSlot c.slot fun y => { y with heldExc := some w }))

namespace Sys2Proof

/-- The slots after a return of level `n` to level `m` (R285). -/
def slotsReturned (s : State) (e : Eng) (n m : Fin 8) : State :=
  if m = n then s.modSlot (slotOf e n.val) fun y => { y with nest := false }
  else (s.modSlot (slotOf e n.val) fun y => { y with nest := false, state := .idle }).modSlot (slotOf e m.val) fun y =>
    { y with state := .active }

end Sys2Proof

/-- ERET restores EPSW, with FTM by the owner's policy, into the level that NEST and XLVL name, or parks its own level; no
other register of a bank changes but the commit record of a level that returns to itself (R204, R285, R324). -/
def Obligations.Return : Prop :=
  ∀ (s s1 : State) (c : Cx) (x : FmtA), OnlyRa x → x.ra = 0 → c.len = 4 → Begins s c x.pred s1 →
    let b := s1.bank c.slot
    let y := s1.slot c.slot
    let m : Fin 8 := if y.nest then Fin.ofNat 8 y.xlvl.toNat else c.n
    let j := slotOf c.e m.val
    pswPRIV b.psw = true → field b.epsw 62 2 = 0 → field b.epsw 72 56 = 0 → bit b.epsw 0 = false →
    (pswKEY b.psw = 0 ∨ pswKEY b.epsw = pswKEY b.psw) →
    ∃ t, exec (.eret c.e x) s = .next t
      ∧ (∀ i, t.bank i = if i = j then
          { s1.bank j with psw := setField b.epsw 60 1 (b2n (ftmOf (s1.dom (s1.owner j)).ftmpol (pswFTM b.epsw))),
                           commit := if y.nest ∧ m = c.n then b.ecommit else (s1.bank j).commit }
        else s1.bank i)
      ∧ t.eng c.e = ({ (s1.eng c.e).closed with lineBuf := [] } : Engine).later 12
      ∧ Tally s1 t c.e [(1, 1), (7, 1), (0, 12), (10, if pswFTM b.psw then 12 else 0)]
      ∧ Aside (if y.nest then slotsReturned s1 c.e c.n m else s1.modSlot c.slot fun z => { z with state := .idle }) t c.e

namespace Sys2Proof

/-! ### Posts, fences and the store buffer (R102, R210, R216 to R229) -/

/-- A post of the context, not yet performed (R221). -/
def postOf (c : Cx) (b : Bank) (kind : PostKind) (ra : BitVec 4) (ea pa len : Nat) (home : Fin 40) (u waited : Bool)
    (val val2 : BitVec 256) : Post :=
  { kind := kind, slot := BitVec.ofNat 8 c.slot, va := BitVec.ofNat 64 ea, pa := pa, len := len, u := u, waited := waited,
    doe := pswDOE b.psw, home := home, ra := ra, val := val, val2 := val2, ilen := BitVec.ofNat 4 c.len, arrive := 0, reply := 0, result := none }

/-- What an engine waits for before it issues `p`: its store buffer drains, and then its posts, or, where all of them have the
home of an unwaited `p`, room for one more (R221). -/
def beforeIssue (s : State) (e : Eng) (p : Post) : State :=
  let s := s.drainAll e
  if p.waited = true ∨ ∃ q ∈ (s.eng e).posts, q.home ≠ p.home then s.awaitPosts e else s.postRoom e

/-- Instruction `i`, whose checks left `s2`, issues `p` in `n` cycles: the post is the engine's youngest and the last in the queue
of its home, where it arrives at the earliest when the term of R222 allows; the instruction completes, or waits where `p` does
(R217 to R222). -/
def Issues (i : Instr) (s s2 : State) (c : Cx) (n : Nat) (p : Post) : Prop :=
  let s3 := beforeIssue s2 c.e p
  let y := s3.eng c.e
  let out := y.posts ++ [{ p with arrive := y.clock + n + (postTerm c.e p.home).cycles - postBack c.e p.home }]
  y.postCheck = none →
  ∃ t, exec i s = .next t ∧ Rebank s3 t c.slot (fun b => if p.waited then b else b.pass c.len)
    ∧ t.eng c.e = (if p.waited then { y with posts := out, wait := .post } else { y.closed with posts := out }).later n
    ∧ Tally s3 t c.e [(18, 1), (0, n), (10, if pswFTM (s3.bank c.slot).psw then n else 0), (1, if p.waited then 0 else 1)]
    ∧ Aside { s3 with homes := tset [] s3.homes p.home.val (tget [] s3.homes p.home.val ++ [c.e]) } t c.e

/-- The fields of a posting instruction of L bytes (R216). -/
def PostFields (x : FmtB) (n : Nat) : Prop :=
  (x.len = .l8 ∨ x.len = .l12) ∧ n = (field x.mod 0 5).toNat + 1 ∧ field x.mod2 1 31 = 0

end Sys2Proof

/-- PST, PSX, PRD and PBN issue their posts, with their sources as read at issue (R216 to R221, R224, R225). -/
def Obligations.PostIssue : Prop :=
  ∀ (s s1 s2 : State) (c : Cx) (x : FmtB) (pa : Nat) (h : Fin 40), c.len = x.len.bytes → Begins s c x.pred s1 →
    let ea := addressOf x.bs x.ix x.disp x.len (s1.bank c.slot)
    let b := s2.bank c.slot
    let u := bit x.mod2 0
    (∀ n v, PostFields x n → x.ra.toNat ≤ 7 → (postTarget c ea n .write).exec s1 = (.ok (pa, h), s2) →
      PackedValue 63 (b.getD x.ra).toNat v →
      Issues (.pst c.e x) s s2 c 8 (postOf c b .pst x.ra ea pa n h u (bit x.mod 5) (b.getD x.ra) 0)
      ∧ (bit x.ra 0 = false → bit x.mod 5 = false → ∀ w f, PackedValue 63 (b.getD (x.ra + 1)).toNat w →
        finish (pswDOE b.psw) w (2 * n - 1) u = .ok f →
        Issues (.psx c.e x) s s2 c 10 (postOf c b .psx x.ra ea pa n h u true (b.getD x.ra) (b.getD (x.ra + 1)))))
    ∧ (∀ n, PostFields x n → x.mod2 = 0 → x.ra.toNat ≤ 7 → bit x.mod 5 = false →
      (postTarget c ea n .read).exec s1 = (.ok (pa, h), s2) → Issues (.prd c.e x) s s2 c 6 (postOf c b .prd x.ra ea pa n h false true 0 0))
    ∧ ((x.len = .l8 ∨ x.len = .l12) → x.mod = 0 → x.mod2 = 0 → ea % 8 = 0 →
      (postTarget c ea 8 .write).exec s1 = (.ok (pa, h), s2) →
      Issues (.pbn c.e x) s s2 c 6 (postOf c b .pbn x.ra ea pa 8 h false true ((b.getG x.ra).zeroExtend 256) 0))

/-- SYNC, SYNCW and SYNCR wait for the store buffer and the posts; SYNCR empties the line buffer (R225, R229). -/
def Obligations.Fences : Prop :=
  ∀ (s s1 : State) (c : Cx) (x : FmtA), OnlyRa x → x.ra = 0 → c.len = 4 → Begins s c x.pred s1 →
    let s2 := (s1.drainAll c.e).awaitPosts c.e
    (s2.eng c.e).postCheck = none →
    Completes (.sync c.e x) s s2 c 2 id ∧ Completes (.syncw c.e x) s s2 c 2 id
      ∧ Completes (.syncr c.e x) s (s2.modEng c.e fun y => { y with lineBuf := [] }) c 3 id

namespace Sys2Proof

/-- What the home of post `p` makes of a total: the result it reports and the bytes it leaves (R217 to R220). -/
def PostRule (p : Post) (old new : List Byte) (r : PostResult) : Prop :=
  let n := 2 * p.len - 1
  let image := beNat old
  match p.kind with
  | .pbn => p.len = 8 ∧
      let x : Word := BitVec.ofNat 64 (leNat old)
      let y : Word := field p.val 0 64
      new = natLE 8 (x + y).toNat ∧ r = .done (some (BitVec.ofNat 2 (ccOf (x.toInt + y.toInt)))) none (some x)
  | .prd => ∃ v, PackedValue n image v ∧ new = old
      ∧ r = .done (some (if v = 0 then 0 else if v < 0 then 1 else 2)) (some (BitVec.ofNat 256 image)) none
  | .pst => ∃ v w, PackedValue n image v ∧ PackedValue 63 p.val.toNat w ∧
      ((∃ f, finish p.doe (v + w) n p.u = .ok f ∧ new = natBE p.len (f.image n) ∧ r = .done (some (BitVec.ofNat 2 f.cc)) none none)
        ∨ ∃ d, finish p.doe (v + w) n p.u = .error d ∧ new = old ∧ r = .failed (if p.waited
              then { cause := 0x32, detail := BitVec.ofNat 16 d, eaddr := 0, ilen := p.ilen }
              else { cause := 0x39, detail := BitVec.ofNat 16 (5 * 4096 + 2 * 256 + d / 256 % 128), eaddr := p.va, ilen := 0 }))
  | .psx => ∃ v a b, PackedValue n image v ∧ PackedValue 63 p.val.toNat a ∧ PackedValue 63 p.val2.toNat b ∧
      if v = a then ∃ f, finish p.doe b n p.u = .ok f ∧ new = natBE p.len (f.image n)
        ∧ r = .done (some (if f.cc = 3 then 3 else 0)) none none
      else new = old ∧ r = .done (some 1) (some (BitVec.ofNat 256 image)) none

/-- Slots and pending arms changed by events alone (R274, R503). -/
def EventsOnly (s t : State) : Prop :=
  (∀ i, (t.slot i).still = (s.slot i).still) ∧ t.pcm = { s.pcm with due := t.pcm.due }

/-- The home at the front of whose queue a post waits performs it: it reads and writes the block in one step, marks the post
with its result, and leaves every other byte and every register alone; a poisoned block stays as it is (R210, R217 to R220,
R224). -/
def postPerformedRules : Prop :=
  ∀ (s : State) (u : Fin 40) (e : Eng) (rest : List Eng) (p : Post) (new : List Byte) (r : PostResult),
    tget [] s.homes u.val = e :: rest → (s.eng e).nextPost u = some p → tget none s.mem.errs (p.pa / 64) = none →
    (PostRule p (s.bytesAt p.pa p.len) new r ∧ s.poisoned p.pa = false ∨ s.poisoned p.pa = true ∧ new = s.bytesAt p.pa p.len ∧ r = .poisoned) →
    ∃ t, exec (.postPerform u) s = .next t ∧ EventsOnly s t
      ∧ t = { s with homes := tset [] s.homes u.val rest, mem := t.mem, engines := t.engines, dmcs := t.dmcs, csr := t.csr,
                     slots := t.slots, pcm := t.pcm }
      ∧ t.bytesAt p.pa p.len = new ∧ (∀ a, a < p.pa ∨ p.pa + p.len ≤ a → t.byteAt a = s.byteAt a)
      ∧ (∃ first, t.eng e = (s.eng e).performed e u p first r ∧ (first = true → s.paClass p.pa = .dram ∧ p.kind ≠ .prd)) ∧ (∀ d, d ≠ e → t.eng d = s.eng d)
      ∧ (∀ m, (t.dmc m).config = (s.dmc m).config) ∧ ∀ o, ¬ counterArea o → t.reg o = s.reg o

/-- The bank with what the reply of a post writes: CC, D(ra) and G(ra) (R217 to R220). -/
def replied (ra : BitVec 4) (cc : Option (BitVec 2)) (d : Option (BitVec 256)) (g : Option Word) (b : Bank) : Bank :=
  let b := match cc with | some v => b.putCC v.toNat | none => b
  let b := match d with | some v => b.putD ra v | none => b
  match g with | some v => b.putG ra v | none => b

/-- The reply of the oldest post ends the wait of its instruction with the registers it writes, or, for an unwaited post, is
taken: a failure waits in the slot as a deferred posting exception, oldest first (R217 to R223). -/
def postRepliesRules : Prop :=
  ∀ (s : State) (e : Eng) (p : Post) (rest : List Post), (s.eng e).posts = p :: rest → (s.eng e).postCheck = none →
    (∀ (c : Cx) cc d g, p.waited = true → p.result = some (.done cc d g) → c.e = e → c.slot = p.slot.toNat → c.len = p.ilen.toNat →
      ∃ t ks, exec (.postReply e) s = .next t ∧ Rebank s t c.slot (fun b => (replied p.ra cc d g b).pass c.len)
        ∧ t.eng e = ({ (s.eng e).closed with posts := rest, wait := .none } : Engine).later (p.reply - (s.eng e).clock)
        ∧ Tally s t e ((1, 1) :: ks) ∧ Aside s t e)
    ∧ (∀ cc d g, p.waited = false → p.result = some (.done cc d g) →
      exec (.postReply e) s = .next (s.modEng e fun y => { y with posts := rest }))
    ∧ (∀ x, p.waited = false → p.result = some (.failed x) →
      ∃ t, exec (.postReply e) s = .next t ∧ (∀ i, t.bank i = s.bank i) ∧ t.eng e = { s.eng e with posts := rest } ∧ Tally s t e [(20, 1)]
        ∧ Aside (s.modSlot p.slot.toNat fun y => { y with deferred := y.deferred ++ [x] }) t e)

end Sys2Proof

/-- What a post does at its home, and what its reply does at the engine. -/
def Obligations.PostsPerformed : Prop := postPerformedRules ∧ postRepliesRules

/-- The oldest store-buffer entry, once closed, drains to memory: its bytes are written there, every other byte stays, and
every engine reads what it read, its own engine included (R102, R226). -/
def Obligations.StoreDrain : Prop :=
  ∀ (s : State) (e : Eng) (y : SbEntry) (r : List SbEntry), Quiet s → (s.eng e).sb = y :: r → y.opened = false → y.held = false →
    ∃ t, exec (.storeBufferDrain e) s = .next t ∧ Calm (some e) s t ∧ (t.eng e).sb = r
      ∧ (∀ a, t.byteAt a = if y.block = a / 16 ∧ bit y.mask (a % 16) = true then field y.data (8 * (a % 16)) 8 else s.byteAt a)
      ∧ ∀ a, t.seen e a = s.seen e a

namespace Sys2Proof

/-! ### String instructions (R68, R134 to R174) -/

/-- In state `s` engine `c.e` resumes an interruptible instruction (R85, R88): IPR is set, and once its bytes are fetched the
resume term is counted (R97), which leaves `s1`. -/
structure Resumes (s : State) (c : Cx) (s1 : State) : Prop where
  ready : s.ready c.e = some c.n
  going : pswIPR (s.bank c.slot).psw = true
  fetched : ∃ s0, fetch c.e c.slot (pswIA (s.bank c.slot).psw) c.len (s.noted c) = (.ok (), s0)
    ∧ s1 = (s0.tick c.e 25 1).cycles c.e (pswFTM (s.bank c.slot).psw) 3

/-- Where an interruptible instruction makes its first access: begun anew, once its fixed term is counted, or resumed (R174). -/
def Works (s : State) (c : Cx) (pred : BitVec 4) (fixed : Nat) (s1 : State) : Prop :=
  (∃ s0, Begins s c pred s0 ∧ pswIPR (s0.bank c.slot).psw = false ∧ s1 = s0.cycles c.e (pswFTM (s0.bank c.slot).psw) fixed)
  ∨ Resumes s c s1 ∧ pswIPR (s1.bank c.slot).psw = true

/-- The resume state: IPS, 0 on a fresh start (R85). -/
def ipsOf (b : Bank) : Nat := if pswIPR b.psw then (pswIPS b.psw).toNat else 0

/-- An operand that does not pass the last virtual address (R92). -/
def InRange (ea n : Nat) : Prop := n = 0 ∨ ea + n ≤ 2 ^ 48

/-- Instruction `i`, whose accesses left `s2`, pauses at a commit point: its registers become what `f` makes of them, IPR and
IPS say how to resume, the record says how many bytes were read past a result, IA stays, its stores are released, and the commit
point costs 4 cy (R68, R136, R156). -/
def Commits (i : Instr) (s s2 : State) (c : Cx) (ips past : Nat) (f : Bank → Bank) : Prop :=
  ∃ t, exec i s = .next t ∧ Rebank s2 t c.slot (fun b => { f b with psw := withIP (f b).psw true ips, commit := { (f b).commit with readPast := BitVec.ofNat 32 past } }) ∧ t.eng c.e = (s2.eng c.e).closed.later 4
    ∧ Tally s2 t c.e [(3, 1), (0, 4), (10, if pswFTM (s2.bank c.slot).psw then 4 else 0)] ∧ Aside s2 t c.e

/-- After a segment whose accesses left `s2`, with `left` more to do: with nothing left the instruction completes at its last
commit point with `last`; otherwise, where an interruption waits there, it pauses with the registers of the segment (R136). -/
def Segment (i : Instr) (s s1 s2 : State) (c : Cx) (stop left ips : Nat) (f last : Bank → Bank) (past : Nat := 0) : Prop :=
  s2.bank c.slot = s1.bank c.slot → (s2.eng c.e).postCheck = none →
  (left = 0 → Goes i s s2 c none [(3, 1)] (fun b => last (f b)) id) ∧ (left ≠ 0 → stop = 1 → Commits i s s2 c ips past f)

/-- The operand registers differ, and RC is even where it names a pair (R135). -/
def StringRegs (x : FmtA) (pair : Bool) (extra : List (BitVec 4)) : Prop :=
  (pair = true → bit x.rc 0 = false) ∧ ([x.ra, x.rb, x.rc] ++ (if pair then [x.rc + 1] else []) ++ extra).Nodup

/-- G(r) := n. -/
def withG (b : Bank) (r : BitVec 4) (n : Nat) : Bank := b.putG r (BitVec.ofNat 64 n)

/-- The pieces of a string access are found frame by frame, and none lies in a device frame (R140). -/
def StringPieces (c : Cx) (acc : Acc) (va n : Nat) (s : State) (ps : List (Nat × Nat)) : Prop :=
  ∃ t, (stringPieces c acc (pagePieces va n)).exec s = (.ok ps, t) ∧ (addrsOf ps).length = n

end Sys2Proof

/-- A string instruction's read answers the bytes that its engine sees and changes no byte; its store is read back by its
engine, held for the commit point or not, and every byte outside it reads as before (R102, R140, R142). -/
def Obligations.StringAccesses : Prop :=
  ∀ (s : State) (c : Cx) (va : Nat) (ps : List (Nat × Nat)), Quiet s →
    (∀ n, StringPieces c .read va n s ps → (∀ l ∈ linesOfPieces ps, tget false s.mem.poison l = false) →
      ∃ t, (stringRead c va n).exec s = (.ok ((addrsOf ps).map (s.seen c.e)), t) ∧ Calm (some c.e) s t ∧ ∀ a, t.seen c.e a = s.seen c.e a)
    ∧ (∀ l held, StringPieces c .write va l.length s ps →
      ∃ t, (stringWrite c va l held).exec s = (.ok (), t) ∧ Calm (some c.e) s t
        ∧ (∀ a, a ∉ addrsOf ps → t.seen c.e a = s.seen c.e a)
        ∧ ((addrsOf ps).Nodup → (addrsOf ps).map (t.seen c.e) = l))

/-- MVS, MVP, TRN and CRC: a segment of up to 64 bytes advances the addresses and lengths; MVP compares the lengths in CC, and
CRC takes its register on (R147 to R150, R154, R172). -/
def Obligations.StringMoves : Prop :=
  ∀ (s s1 s2 : State) (c : Cx) (x : FmtA) (stop : Nat), c.len = x.len.bytes →
    let b := s1.bank c.slot
    let d := (b.getG x.ra).toNat
    let a := (b.getG x.rb).toNat
    let n := b.len x.rc
    let m := b.len (x.rc + 1)
    let k := min 64 n
    (x.len = .l4 → field x.mod 1 5 = 0 → StringRegs x false [] → ipsOf b ≤ 1 → InRange d n → InRange a n → Works s c x.pred 5 s1 →
      let desc := if pswIPR b.psw then ipsOf b = 1 else overlap d n a n = true ∧ a < d
      let held := overlap d n a n
      (∀ down, (down = true ↔ desc) → bit x.mod 0 = false → (perCycle c 8 (mvsCycle c d a n down held) 8 0 k).exec s1 = (.ok (), s2) →
        Segment (.mvs c.e x stop) s s1 s2 c stop (n - k) (b2n down) (fun b =>
          withG (if down then b else withG (withG b x.ra (d + k)) x.rb (a + k)) x.rc (n - k)) id)
      ∧ (bit x.mod 0 = true → ∀ down, (down = true ↔ desc) → (mvsByteSegment c x.ra x.rb x.rc down).exec s1 = (.ok .done, s2) →
        (s2.eng c.e).postCheck = none → Goes (.mvs c.e x stop) s s2 c none [(3, 1)] id id))
    ∧ (x.len = .l6 → x.mod = 0 → field x.imm 8 8 = 0 → StringRegs x true [] → ipsOf b = 0 → InRange d n → InRange a m →
      overlap d n a m = false → Works s c x.pred 6 s1 →
      (perCycle c 8 (mvpCycle c d a m (field x.imm 0 8)) 8 0 k).exec s1 = (.ok (), s2) →
      Segment (.mvp c.e x stop) s s1 s2 c stop (n - k) 0 (fun b =>
        withG (withG (withG (withG b x.ra (d + k)) x.rc (n - k)) x.rb (a + min k m)) (x.rc + 1) (m - min k m))
        (fun b => b.putCC (if n = m then 0 else if n < m then 1 else 2)))
    ∧ (x.len = .l4 → x.mod = 0 → StringRegs x false [] → ipsOf b = 0 → InRange d n → (n = 0 ∨ a + 256 ≤ 2 ^ 48) →
      overlap d n a 256 = false → Works s c x.pred 8 s1 → (perCycle c 2 (trnCycle c d a) 32 0 k).exec s1 = (.ok (), s2) →
      Segment (.trn c.e x stop) s s1 s2 c stop (n - k) 0 (fun b => withG (withG b x.ra (d + k)) x.rc (n - k)) id)
    ∧ (x.len = .l4 → field x.mod 1 5 = 0 → StringRegs x false [] → ipsOf b = 0 → InRange a n → Works s c x.pred 4 s1 → ∀ v,
      (crcUnits c (if bit x.mod 0 then 0xEDB88320 else 0x82F63B78) a 8 0 k (field (b.getG x.ra) 0 32)).exec s1 = (.ok v, s2) →
      Segment (.crc c.e x stop) s s1 s2 c stop (n - k) 0 (fun b => withG (withG (withG b x.ra v.toNat) x.rb (a + k)) x.rc (n - k))
        (fun b => b.putCC (if v = 0 then 0 else 2)))

namespace Sys2Proof

/-- CLS, SCN and TRT: the scan of a segment advances to what it found, or past the segment; CC says what was found, and TRT's
function byte goes to G(RC+1) (R151, R153, R155). Under fixed-time mode the rest is read before the end (R156). -/
def Scans (i : Instr) (s s1 : State) (c : Cx) (stop u : Nat) (rs : List (BitVec 4)) (rc : BitVec 4) (pair : Bool)
    (test : List Byte → M (Option Hit)) : Prop :=
  let b := s1.bank c.slot
  let n := b.len rc
  let ftm := pswFTM b.psw
  let addrs := rs.map fun r => (b.getG r).toNat
  let go (j : Nat) (v : Option Nat) (y : Bank) : Bank :=
    let y := withG (rs.foldl (fun y r => withG y r ((b.getG r).toNat + j)) y) rc (n - j)
    match v with | some v => if pair then withG y (rc + 1) v else y | none => y
  (ipsOf b = 0 → ∀ s2 found read,
    let k := min 64 n
    (scanUnits c ftm u addrs test k 0 k none).exec s1 = (.ok (found, read), s2) →
    match found with
    | none => Segment i s s1 s2 c stop (n - k) 0 (go k (if n = k then some 0 else none)) (fun y => y.putCC 0)
    | some (j, h) => if ftm = true ∧ read ≠ n
        then Segment i s s1 s2 c stop 1 (1 + 2 * h.cc) (go j (some h.val)) id (read - j)
        else Segment i s s1 s2 c stop 0 0 (go j (some h.val)) (fun y => y.putCC h.cc))
  ∧ (ipsOf b = 3 ∨ ipsOf b = 5 → ∀ s2 found,
    let r := b.commit.readPast.toNat
    let k := min 64 (n - r)
    (ftm = false ∨ k = 0 → Segment i s s1 s1 c stop 0 0 id (fun y => y.putCC (ipsOf b / 2)))
    ∧ (ftm = true → k ≠ 0 → (scanUnits c true u (addrs.map (· + r)) test k 0 k none).exec s1 = (.ok found, s2) →
      if r + k = n then Segment i s s1 s2 c stop 0 0 id (fun y => y.putCC (ipsOf b / 2))
        else Segment i s s1 s2 c stop 1 (ipsOf b) id id (r + k)))

end Sys2Proof

/-- What CLS, SCN, TRT and CLP do in a segment (R151 to R153, R155, R156). -/
def Obligations.StringScans : Prop :=
  ∀ (s s1 s2 : State) (c : Cx) (x : FmtA) (stop : Nat), c.len = x.len.bytes →
    let b := s1.bank c.slot
    let a1 := (b.getG x.ra).toNat
    let a2 := (b.getG x.rb).toNat
    let n := b.len x.rc
    let m := b.len (x.rc + 1)
    let k := min 64 (max n m)
    (x.len = .l4 → x.mod = 0 → StringRegs x false [] → InRange a1 n → InRange a2 n → Works s c x.pred 5 s1 →
      Scans (.cls c.e x stop) s s1 c stop 8 [x.ra, x.rb] x.rc false clsTest)
    ∧ (x.len = .l4 → field x.mod 1 5 = 0 → StringRegs x false [] → InRange a1 n → Works s c x.pred 5 s1 →
      Scans (.scn c.e x stop) s s1 c stop 8 [x.ra] x.rc false (scnTest (field (b.getG x.rb) 0 8) (bit x.mod 0)))
    ∧ (x.len = .l4 → x.mod = 0 → StringRegs x true [] → InRange a1 n → (n = 0 ∨ a2 + 256 ≤ 2 ^ 48) → Works s c x.pred 8 s1 →
      Scans (.trt c.e x stop) s s1 c stop 2 [x.ra] x.rc true (trtTest c a2))
    ∧ (x.len = .l6 → x.mod = 0 → field x.imm 8 8 = 0 → StringRegs x true [] → ipsOf b ≤ 2 → InRange a1 n → InRange a2 m →
      Works s c x.pred 6 s1 → ∀ v, (clpUnits c a1 a2 n m (field x.imm 0 8) 8 0 k (ipsOf b)).exec s1 = (.ok v, s2) →
      Segment (.clp c.e x stop) s s1 s2 c stop (max n m - k) v (fun b =>
        withG (withG (withG (withG b x.ra (a1 + min k n)) x.rc (n - k)) x.rb (a2 + min k m)) (x.rc + 1) (m - k))
        (fun b => b.putCC v))

/-- EDT, EDK and XCD: a segment of steps or units advances the output, the step number or the source; at the end CC says the
value's class or why the transcoding stopped (R161, R162, R166 to R170). -/
def Obligations.StringEdits : Prop :=
  ∀ (s s1 s2 s3 : State) (c : Cx) (x : FmtA) (stop : Nat), c.len = x.len.bytes →
    let b := s1.bank c.slot
    let d := (b.getG x.ra).toNat
    let a := (b.getG x.rb).toNat
    let n := b.len x.rc
    let m := b.len (x.rc + 1)
    s2.bank c.slot = b →
    (∀ edk l h v sig y, x.len = .l4 → field x.mod 3 3 = 0 → StringRegs x edk [] → ipsOf b ≤ 1 → InRange a 8 → Works s c x.pred 12 s1 →
      PackedValue 63 (b.getD ((field x.mod 0 3).setWidth 4)).toNat v → (stringRead c a 8).exec s1 = (.ok l, s2) → planHeader l = some h →
      let i := if pswIPR b.psw then n else 0
      let k := min 64 (h.steps - i)
      let size := 8 + 8 * h.steps
      let fresh : Summary := { fsig := h.steps, ndig := 0, neg := decide (v < 0) }
      i ≤ h.steps → InRange a size → InRange d (h.steps - i) → overlap d (h.steps - i) a size = false →
      (editUnits c h (editMode h v).1 v d a i k 0 (ipsOf b = 1) (if edk = true ∧ pswIPR b.psw = true then summaryOf (b.getG (x.rc + 1)) else fresh)).exec s2
        = (.ok (sig, y), s3) →
      Segment (if edk then .edk c.e x stop else .edt c.e x stop) s s1 s3 c stop (h.steps - (i + k)) (b2n sig) (fun b =>
        let b := withG (withG b x.ra (d + k)) x.rc (i + k)
        if edk then withG b (x.rc + 1) y.word else b) (fun b => b.putCC (editMode h v).2))
    ∧ (∀ nb r, let f := xcdFields x
      let table := if f.usesTable then (b.getG f.rt).toNat else 0
      x.len = .l6 → x.mod = 0 → field x.imm 12 4 = 0 → StringRegs x true (if f.usesTable then [f.rt] else []) →
      (f.usesTable = true ∨ f.rt = 0) → f.senc ≤ 3 → f.denc ≤ 3 → f.act ≠ 3 → (f.senc ≠ 3 ∨ f.denc ≠ 3) → ipsOf b = 0 →
      InRange d n → InRange a m → Works s c x.pred 8 s1 →
      (if f.usesTable = true ∧ m ≠ 0 then (tableHeader c table).exec s1 = (.ok nb, s2) ∧ overlap d n table (1544 + 512 * nb) = false
        else nb = 0 ∧ s2 = s1) →
      overlap d n a m = false → (xcdUnits c f table nb d a n m 65 0 0).exec s2 = (.ok r, s3) →
      Segment (.xcd c.e x stop) s s1 s3 c stop (if r.cc = none then 1 else 0) 0 (fun b =>
        withG (withG (withG (withG b x.ra (d + r.wrote)) x.rc (n - r.wrote)) x.rb (a + r.read)) (x.rc + 1) (m - r.read))
        (fun b => b.putCC (r.cc.getD 0)))

namespace Sys2Proof

/-! ### String instructions from begin to end (R136, R147 to R158, R162, R169, R172) -/

/-- Every byte of an operand is in normal memory below 2^46, its key can be read, and where the operand is read its line is not
poisoned: under identity translation nothing stands in the way of an access (R233, R248, R260, R348). -/
def Direct (s : State) (acc : Acc) (va n : Nat) : Prop :=
  ∀ a, va ≤ a → a < va + n → a < 2 ^ 46 ∧ (s.paClass a).isDevice = false ∧ s.paClass a ≠ .reserved ∧ s.keyUnreadable a = false
    ∧ (acc = .read → tget false s.mem.poison (a / 64) = false)

/-- Instruction `i`, whose fetch left `s1`, completes in `t`: the bank of its level becomes what `f` makes of it, but for its
commit record, and goes to the next instruction; every byte reads as before but those that `out` gives for the `n` bytes from
`d`; and nothing else changes but caches, TLBs, the engine's store buffer and counters. -/
def Ends (i : Instr) (s s1 : State) (c : Cx) (f : Bank → Bank) (d n : Nat) (out : Nat → Byte) : Prop :=
  ∃ t, exec i s = .next t ∧ Calm (some c.e) { s1 with banks := t.banks } t ∧ (∀ j, j ≠ c.slot → t.bank j = s1.bank j)
    ∧ { t.bank c.slot with commit := (s1.bank c.slot).commit } = (f (s1.bank c.slot)).pass c.len
    ∧ (∀ j, j < n → t.seen c.e (d + j) = out j) ∧ ∀ y, y < d ∨ d + n ≤ y → t.seen c.e y = s1.seen c.e y

/-- Bytes that engine `e` reads at `k` places from `a`. -/
def bytesSeen (s : State) (e : Eng) (a k : Nat) : List Byte := (List.range k).map fun j => s.seen e (a + j)

/-- CLS, SCN and TRT complete: at the first position `j` below `n` where `hit` gives CC and a function byte, or past all `n` with CC 0
(R151, R153, R155). -/
def ScanEnds (i : Instr) (s s1 : State) (c : Cx) (rs : List (BitVec 4)) (rc : BitVec 4) (pair : Bool) (n : Nat)
    (hit : Nat → Option (Nat × Nat)) : Prop :=
  let go (j v : Nat) (b : Bank) : Bank :=
    let b := withG (rs.foldl (fun y r => withG y r ((b.getG r).toNat + j)) b) rc (n - j)
    if pair then withG b (rc + 1) v else b
  ((∀ j, j < n → hit j = none) → Ends i s s1 c (fun b => (go n 0 b).putCC 0) 0 0 fun _ => 0)
  ∧ ∀ j cc v, j < n → (∀ k, k < j → hit k = none) → hit j = some (cc, v) → Ends i s s1 c (fun b => (go j v b).putCC cc) 0 0 fun _ => 0

/-- SIG and the summary before step `i` of an edit plan whose steps are `p` (R169, R170). -/
def editBefore (h : PlanHeader) (p : Nat → PlanStep) (v : Int) : Nat → Bool × Summary
  | 0 => (false, { fsig := h.steps, ndig := 0, neg := decide (v < 0) })
  | i + 1 => (editStep h (p i) v i (editBefore h p v i).1 (editBefore h p v i).2).2

/-- MVS, MVP, TRN and CRC, begun under key 0 with their operands in normal memory and never interrupted, complete: the bytes moved,
filled, translated or summed are those that memory held (R147 to R150, R154, R172). -/
def movesEnd : Prop :=
  ∀ (s s1 : State) (c : Cx) (x : FmtA), c.len = x.len.bytes → Quiet s → Begins s c x.pred s1 →
    let b := s1.bank c.slot
    let d := (b.getG x.ra).toNat
    let a := (b.getG x.rb).toNat
    let n := b.len x.rc
    let m := b.len (x.rc + 1)
    let pad : Byte := field x.imm 0 8
    let old (y : Nat) : Byte := s1.seen c.e y
    pswKEY b.psw = 0 →
    (x.len = .l4 → field x.mod 1 5 = 0 → StringRegs x false [] → Direct s1 .write d n → Direct s1 .read a n →
      let down := overlap d n a n = true ∧ a < d
      (down → Ends (.mvs c.e x 0) s s1 c (fun b => withG b x.rc 0) d n fun j => old (a + j))
      ∧ (¬ down → Ends (.mvs c.e x 0) s s1 c (fun b => withG (withG (withG b x.ra (d + n)) x.rb (a + n)) x.rc 0) d n fun j => old (a + j)))
    ∧ (x.len = .l6 → x.mod = 0 → field x.imm 8 8 = 0 → StringRegs x true [] → overlap d n a m = false → Direct s1 .write d n →
      Direct s1 .read a m →
      Ends (.mvp c.e x 0) s s1 c (fun b =>
        (withG (withG (withG (withG b x.ra (d + n)) x.rc 0) x.rb (a + min n m)) (x.rc + 1) (m - min n m)).putCC
          (if n = m then 0 else if n < m then 1 else 2)) d n fun j => if j < m then old (a + j) else pad)
    ∧ (x.len = .l4 → x.mod = 0 → StringRegs x false [] → overlap d n a 256 = false → Direct s1 .write d n → Direct s1 .read d n →
      (n = 0 ∨ Direct s1 .read a 256) →
      Ends (.trn c.e x 0) s s1 c (fun b => withG (withG b x.ra (d + n)) x.rc 0) d n fun j => old (a + (old (d + j)).toNat))
    ∧ (x.len = .l4 → field x.mod 1 5 = 0 → StringRegs x false [] → Direct s1 .read a n →
      let v := (bytesSeen s1 c.e a n).foldl (crcByte (if bit x.mod 0 then 0xEDB88320 else 0x82F63B78)) (field (b.getG x.ra) 0 32)
      Ends (.crc c.e x 0) s s1 c (fun b =>
        (withG (withG (withG b x.ra v.toNat) x.rb (a + n)) x.rc 0).putCC (if v = 0 then 0 else 2)) 0 0 fun _ => 0)

/-- CLS, SCN, TRT and CLP, begun under key 0 with their operands in normal memory and never interrupted, complete with what they find
(R151 to R153, R155, R156). -/
def scansEnd : Prop :=
  ∀ (s s1 : State) (c : Cx) (x : FmtA), c.len = x.len.bytes → Quiet s → Begins s c x.pred s1 →
    let b := s1.bank c.slot
    let d := (b.getG x.ra).toNat
    let a := (b.getG x.rb).toNat
    let n := b.len x.rc
    let m := b.len (x.rc + 1)
    let old (y : Nat) : Byte := s1.seen c.e y
    pswKEY b.psw = 0 →
    (x.len = .l4 → x.mod = 0 → StringRegs x false [] → Direct s1 .read d n → Direct s1 .read a n →
      ScanEnds (.cls c.e x 0) s s1 c [x.ra, x.rb] x.rc false n fun j =>
        if old (d + j) = old (a + j) then none else some (if (old (d + j)).toNat < (old (a + j)).toNat then 1 else 2, 0))
    ∧ (x.len = .l4 → field x.mod 1 5 = 0 → StringRegs x false [] → Direct s1 .read d n →
      ScanEnds (.scn c.e x 0) s s1 c [x.ra] x.rc false n fun j =>
        if (old (d + j) = field (b.getG x.rb) 0 8 ↔ bit x.mod 0 = false) then some (1, 0) else none)
    ∧ (x.len = .l4 → x.mod = 0 → StringRegs x true [] → Direct s1 .read d n → (n = 0 ∨ Direct s1 .read a 256) →
      ScanEnds (.trt c.e x 0) s s1 c [x.ra] x.rc true n fun j =>
        let y := (old (a + (old (d + j)).toNat)).toNat
        if y = 0 then none else some (if y < 0x80 then 1 else 2, y))
    ∧ (x.len = .l6 → x.mod = 0 → field x.imm 8 8 = 0 → StringRegs x true [] → Direct s1 .read d n → Direct s1 .read a m →
      let one (j : Nat) : Byte := if j < n then old (d + j) else field x.imm 0 8
      let two (j : Nat) : Byte := if j < m then old (a + j) else field x.imm 0 8
      let ends (cc : Nat) : Prop := Ends (.clp c.e x 0) s s1 c (fun b =>
        (withG (withG (withG (withG b x.ra (d + n)) x.rc 0) x.rb (a + m)) (x.rc + 1) 0).putCC cc) 0 0 fun _ => 0
      ((∀ j, j < max n m → one j = two j) → ends 0)
      ∧ ∀ j, j < max n m → (∀ k, k < j → one k = two k) → one j ≠ two j → ends (if (one j).toNat < (two j).toNat then 1 else 2))

/-- EDT and EDK, begun under key 0 with a valid decimal value and a valid plan in normal memory and never interrupted, complete: one
byte for each step of the plan, and EDK's summary (R166 to R171). -/
def editsEnd : Prop :=
  ∀ (s s1 : State) (c : Cx) (x : FmtA) (h : PlanHeader) (v : Int) (p : Nat → PlanStep) (edk : Bool), c.len = x.len.bytes → Quiet s →
    Begins s c x.pred s1 →
    let b := s1.bank c.slot
    let d := (b.getG x.ra).toNat
    let a := (b.getG x.rb).toNat
    let size := 8 + 8 * h.steps
    let mode := editMode h v
    pswKEY b.psw = 0 → x.len = .l4 → field x.mod 3 3 = 0 → StringRegs x edk [] →
    PackedValue 63 (b.getD ((field x.mod 0 3).setWidth 4)).toNat v → planHeader (bytesSeen s1 c.e a 8) = some h →
    overlap d h.steps a size = false → Direct s1 .write d h.steps → Direct s1 .read a size →
    (∀ i, i < h.steps → planStep h (bytesSeen s1 c.e (a + 8 + 8 * i) 8) = some (p i)) →
    let last := if mode.1 = .edit then (editBefore h p v h.steps).2 else (editBefore h p v 0).2
    Ends (if edk then .edk c.e x 0 else .edt c.e x 0) s s1 c (fun b =>
        let b := withG (withG b x.ra (d + h.steps)) x.rc h.steps
        (if edk then withG b (x.rc + 1) last.word else b).putCC mode.2) d h.steps fun i =>
      match mode.1 with
      | .tooLong => h.ovfill
      | .zero => h.fill
      | .edit => (editStep h (p i) v i (editBefore h p v i).1 (editBefore h p v i).2).1

/-- XCD, begun under key 0 with its operands and a valid table in normal memory and never interrupted, completes: it stops where the
source ends, or with CC 1 to 3; the destination's bytes that it did not write stay (R159 to R165). -/
def transcodingEnds : Prop :=
  ∀ (s s1 : State) (c : Cx) (x : FmtA), c.len = x.len.bytes → Quiet s → Begins s c x.pred s1 →
    let b := s1.bank c.slot
    let d := (b.getG x.ra).toNat
    let a := (b.getG x.rb).toNat
    let n := b.len x.rc
    let m := b.len (x.rc + 1)
    let f := xcdFields x
    let table := (b.getG f.rt).toNat
    let entry (o k : Nat) : Nat := fieldLE (bytesSeen s1 c.e (table + o) k) 0 k
    let nb := entry 2 1
    let size := 1544 + 512 * nb
    pswKEY b.psw = 0 → x.len = .l6 → x.mod = 0 → field x.imm 12 4 = 0 → StringRegs x true (if f.usesTable then [f.rt] else []) →
    (f.usesTable = true ∨ f.rt = 0) → f.senc ≤ 3 → f.denc ≤ 3 → f.act ≠ 3 → (f.senc ≠ 3 ∨ f.denc ≠ 3) → overlap d n a m = false →
    Direct s1 .write d n → Direct s1 .read a m →
    (f.usesTable = true → m ≠ 0 → Direct s1 .read table size ∧ overlap d n table size = false ∧ entry 0 2 = 1 ∧ entry 3 5 = 0
      ∧ (∀ k, k < 256 → entry (1032 + 2 * k) 2 ≤ nb) ∧ ∀ k, k < 256 * nb → entry (1544 + 2 * k) 2 / 256 % 128 = 0) →
    ∃ wrote read cc out, wrote ≤ n ∧ read ≤ m ∧ cc ≤ 3 ∧ (cc = 0 → read = m)
      ∧ Ends (.xcd c.e x 0) s s1 c (fun b =>
        (withG (withG (withG (withG b x.ra (d + wrote)) x.rc (n - wrote)) x.rb (a + read)) (x.rc + 1) (m - read)).putCC cc) d wrote out

end Sys2Proof

/-- The string instructions complete, for operands of any length. -/
def Obligations.StringsComplete : Prop := movesEnd ∧ scansEnd ∧ editsEnd ∧ transcodingEnds

namespace Sys2Proof

/-! ### Waits and events (R197 to R201, R274 to R292) -/

/-- Level `c.n` goes to the next instruction: its bank passes, INST grows by 1, and `n` cycles are counted (R85, R97, R559). -/
def passed (s : State) (c : Cx) (n : Nat) : State :=
  ((s.modBank c.slot fun b => b.pass c.len).tick c.e 1 1).cycles c.e (pswFTM (s.bank c.slot).psw) n

/-- The level of `c` completes a wait in `n` cycles with condition code `v`. -/
def waited (s : State) (c : Cx) (v n : Nat) : State :=
  passed ((s.modBank c.slot fun b => b.putCC v).modEng c.e Engine.closed) c n

/-- The slot of `c` with its wake latch clear. -/
def unlatched (s : State) (c : Cx) : State := s.modSlot c.slot fun y => { y with wake := false }

/-- WFE ends with CC 0 for a set wake latch, which it clears, or with CC 2 at a deadline that has come; WUNTIL ends with CC 2;
otherwise their engine waits, with every post performed. SEV drains the store buffer and waits for its event to be sent, where
KEY is 0 or the target's owner is KEY or LD0 (R197, R198, R200). -/
def waitInstructionsRules : Prop :=
  ∀ (s s1 : State) (c : Cx) (x : FmtA), x.len = .l4 → x.rb = 0 → x.rc = 0 → c.len = 4 → Begins s c x.pred s1 →
    let s2 := s1.awaitPosts c.e
    let g := (s2.bank c.slot).getG x.ra
    let waits (t : State) (w : Wait) (n : Nat) : State :=
      (t.modEng c.e fun y => { y with wait := w }).cycles c.e (pswFTM (t.bank c.slot).psw) n
    ((s2.eng c.e).postCheck = none → field x.mod 1 5 = 0 →
      let deadline : Option Word := if bit x.mod 0 then some g else none
      let come := ∃ d, deadline = some d ∧ d.toNat ≤ s2.pcm.chrono.toNat
      ((s2.slot c.slot).wake = true → exec (.wfe c.e x) s = .next (waited (unlatched s2 c) c 0 2))
      ∧ ((s2.slot c.slot).wake = false → come → exec (.wfe c.e x) s = .next (waited s2 c 2 2))
      ∧ ((s2.slot c.slot).wake = false → ¬ come → exec (.wfe c.e x) s = .next (waits s2 (.wfe deadline) 2)))
    ∧ ((s2.eng c.e).postCheck = none → x.mod = 0 →
      (g.toNat ≤ s2.pcm.chrono.toNat → exec (.wuntil c.e x) s = .next (waited s2 c 2 2))
      ∧ (s2.pcm.chrono.toNat < g.toNat → exec (.wuntil c.e x) s = .next (waits s2 (.wuntil g) 2)))
    ∧ (x.mod = 0 →
      let h := (s1.bank c.slot).getG x.ra
      let key := pswKEY (s1.bank c.slot).psw
      let owner := s1.owner (field h 0 8).toNat
      key = 0 ∨ owner = key ∨ owner = 0 →
      exec (.sev c.e x) s = .next (waits (s1.drainAll c.e) (.sev (field h 0 8) (field h 8 6)) 3))

/-- Slot `i` counts a dropped event: DISC saturates, and sets OVF where it does (R276, R278). -/
def dropped (s : State) (i : Nat) : State :=
  s.modSlot i fun y => { y with disc := BitVec.ofNat 16 (min (y.disc.toNat + 1) 0xFFFF), ovf := y.ovf || decide (0xFFFE ≤ y.disc.toNat) }

/-- The event for vector `v` of slot `i` as Compass routes it: dropped and counted in DISC for an absent or destroyed owner, an
exception vector or an entry with VALID = 0; otherwise the vector is pending and the wake latch set (R274 to R278). -/
def routed (s : State) (i v : Nat) : State :=
  if (s.dom (s.owner i)).state = .absent ∨ (s.dom (s.owner i)).state = .destroying ∨ v < 16 ∨ bit (s.vector i v) 0 = false then
    dropped s i
  else s.modSlot i fun y => { y with pend := y.pend ||| 1#64 <<< v, wake := true }

/-- A wait that has its event ends: the engine leaves the wait, and its running level goes on where nothing is due first; SEV
completes when its event has gone to Compass; before the event, nothing happens (R197 to R201). -/
def waitsEndRules : Prop :=
  ∀ (s : State) (c : Cx), c.len = 4 → (s.eng c.e).postCheck = none →
    let w := s.modEng c.e fun y => { y with wait := .none }
    let ends (t : State) (v : Nat) : State := passed (t.modBank c.slot fun b => b.putCC v) c 0
    (∀ deadline, (s.eng c.e).wait = .wfe deadline → w.ready c.e = some c.n →
      let come := ∃ d, deadline = some d ∧ d.toNat ≤ s.pcm.chrono.toNat
      ((s.slot c.slot).wake = true → exec (.wfeComplete c.e) s = .next (ends (unlatched w c) 0))
      ∧ ((s.slot c.slot).wake = false → come → exec (.wfeComplete c.e) s = .next (ends w 2))
      ∧ ((s.slot c.slot).wake = false → ¬ come → exec (.wfeComplete c.e) s = .next s))
    ∧ (∀ t, (s.eng c.e).wait = .wuntil t → w.ready c.e = some c.n →
      exec (.wuntilComplete c.e) s = .next (if t.toNat ≤ s.pcm.chrono.toNat then ends w 2 else s))
    ∧ (∀ i v, (s.eng c.e).wait = .sev i v → s.running c.e = some c.n →
      exec (.sevSend c.e) s = .next (passed (routed w i.toNat v.toNat) c 0))

end Sys2Proof

/-- The instructions that wait, and what ends their waits. -/
def Obligations.Waits : Prop := waitInstructionsRules ∧ waitsEndRules

namespace Sys2Proof

/-- The arms that event source `src` reaches, in WATCH and ACTIVE: class SOURCE names it, class OVERTEMP is 0x1_1513 (R503). -/
def reachesArm (s : State) (src : Nat) (i : Fin 8) : Bool :=
  (s.power.part = .watch ∨ s.power.part = .active) && (s.pcm.arms[i]).any fun a => (a.evclass == 4 && a.evarg.toNat == src) || (a.evclass == 5 && src == 0x11513)

/-- The state in which the arms that `src` reaches are due. -/
def armed (s : State) (src : Nat) : State :=
  { s with pcm := { s.pcm with due := s.pcm.due ||| BitVec.ofNat 8 (((List.finRange 8).map fun i => b2n (reachesArm s src i) * 2 ^ i.val).sum) } }

end Sys2Proof

/-- An event source reaches the arms, and Compass routes it where the event map names a slot and a vector; PEND clears the
pending vectors that software names (R274 to R276, R503). -/
def Obligations.EventRouting : Prop :=
  ∀ (s : State) (src : BitVec 20),
    (s.events.find? (fun x => x.source == src) = none → exec (.eventRouted src) s = .next (armed s src.toNat))
    ∧ (∀ x, s.events.find? (fun x => x.source == src) = some x → exec (.eventRouted src) s = .next (routed (armed s src.toNat) x.slot.toNat x.vector.toNat))
    ∧ ∀ i v, exec (.pend i v) s = .next (s.modSlot i.toNat fun y => { y with pend := y.pend &&& ~~~v })

namespace Sys2Proof

/-- The order in which Compass takes pending vectors: the first after LASTVEC, round-robin (R280). -/
def turn (last v : Nat) : Nat := if last < v then v else v + 64

/-- `v` is the vector that slot `x` enters next (R280). -/
def IsNext (x : Slot) (v : Nat) : Prop :=
  16 ≤ v ∧ v < 64 ∧ bit x.pend v = true ∧ ∀ w, w < 64 → bit x.pend w = true → turn x.lastvec.toNat v ≤ turn x.lastvec.toNat w

/-- The running level gives up the engine at an interruption point: no wait and no routine is left (R69, R291, R322). -/
def left (s : State) (e : Eng) : State := s.modEng e fun x => { x with wait := .none, micro := none }

/-- Level `n` of engine `e` entered through event vector `v`: the vector is no longer pending, LASTVEC names it, the level is
ACTIVE with NEST 0, its PSW and EPSW are the entry's, ESTAT says what was interrupted, and 12 cycles are counted (R281, R283). -/
def entered (s : State) (e : Eng) (n : Fin 8) (v : Nat) : State :=
  let i := slotOf e n.val
  let p := entryStatus s e n v
  let t := (left s e).modSlot i fun x => { x with pend := x.pend &&& ~~~(1#64 <<< v), lastvec := BitVec.ofNat 6 v, state := .active, nest := false }
  let t := t.modBank i fun b => { b with psw := p, epsw := p, estat := statWord 1 0 0 ((s.running e).getD n).val v, eaddr := 0 }
  ((t.tick e 4 1).cycles e (pswFTM p) 12).modEng e fun x => { x with lineBuf := [] }

end Sys2Proof

/-- At an interruption point Compass enters the level that is due through its next vector; the entry is abandoned and counted
as dropped where the vector-table entry is not VALID; a more urgent vector that arrives meanwhile is entered instead, and counted
as a late arrival. A held or deferred exception of the running level is delivered, the held one first (R279 to R289). -/
def Obligations.EventEntries : Prop :=
  ∀ (s : State) (e : Eng) (n : Fin 8), (s.eng e).atPoint = true → (s.eng e).postCheck = none →
    (∀ (late : Option (BitVec 8 × BitVec 6)) (m : Fin 8) (v : Nat), s.dueLevel e = some n → (s.slot (slotOf e n.val)).xexc = false →
      let s1 := match late with | none => s | some (i, w) => routed s i.toNat w.toNat
      let s2 := if m < n then s1.tick e 6 1 else s1
      let i := slotOf e m.val
      s1.dueLevel e = some m → (s2.slot i).xexc = false → IsNext (s2.slot i) v →
      exec (.eventEntry e late) s = .next (if bit (entryOf s2 e m v) 0 then entered s2 e m v
        else dropped (s2.modSlot i fun x => { x with pend := x.pend &&& ~~~(1#64 <<< v) }) i))
    ∧ (s.running e = some n → s.clusterRuns e = true → (s.eng e).checkstop = false → s.dueLevel e = none →
      let i := slotOf e n.val
      (s.dom (s.owner i)).state ≠ .quiescing →
      (∀ x, (s.slot i).heldExc = some x →
        exec (.heldExceptionDelivery e) s = .next (((left s e).modSlot i fun y => { y with heldExc := none }).deliver e n x)
        ∧ exec (.deferredPostingException e) s = .next s)
      ∧ (∀ x r, (s.slot i).heldExc = none → (s.slot i).deferred = x :: r →
        exec (.deferredPostingException e) s = .next (((left s e).modSlot i fun y => { y with deferred := r }).deliver e n x)))

namespace Sys2Proof

/-! ### Storage keys, TLBs and cryptography (R205, R206, R245 to R256) -/

/-- The key of a frame where KSET changes only that frame's, and what a lookup finds in a TLB once an invalidation has removed the
entries that `f` names (R245, R252). -/
def keysAndTlbsRules : Prop :=
  ∀ (s : State),
    (∀ fr k pa, (s.paClass pa).isNormal = true → (s.setKey fr k).keyOf pa = if pa / 4096 = fr then k else s.keyOf pa)
    ∧ (∀ (f : TlbEntry → Bool) (e : Eng) (va key : Nat),
      s.tlbDrop f = { s with engines := (s.tlbDrop f).engines }
      ∧ (s.tlbDrop f).eng e = { s.eng e with dtlb := ((s.tlbDrop f).eng e).dtlb, itlb := ((s.tlbDrop f).eng e).itlb }
      ∧ tlbHits ((s.tlbDrop f).eng e).dtlb va key = (tlbHits (s.eng e).dtlb va key).filter (fun t => !f t)
      ∧ tlbHits ((s.tlbDrop f).eng e).itlb va key = (tlbHits (s.eng e).itlb va key).filter (fun t => !f t))

/-- KSET writes the key of a frame of normal memory and removes the frame's TLB entries on all engines; TLBIA removes a page of
the current key, TLBID a domain, TLBIX everything; each waits as SYNC does first. KGET translates as a read and says what the leaf
and the key hold (R60, R249, R251, R252). -/
def keyInstructionsRules : Prop :=
  ∀ (s s1 : State) (c : Cx) (x : FmtA), x.len = .l4 → x.rc = 0 → x.mod = 0 → c.len = 4 → Begins s c x.pred s1 →
    let b := s1.bank c.slot
    let key := pswKEY b.psw
    let synced (t : State) : State := (t.drainAll c.e).awaitPosts c.e
    (pswPRIV b.psw = true → ((synced s1).eng c.e).postCheck = none →
      (x.rb = 0 → Completes (.tlbia c.e x) s ((synced s1).tlbDrop fun t => t.dom.toNat == key && t.vpn == field (b.getG x.ra) 12 36) c 12 id)
      ∧ (x.rb = 0 → (b.getG x.ra).toNat < 256 → (b.getG x.ra).toNat = key ∨ key = 0 →
        Completes (.tlbid c.e x) s ((synced s1).tlbDrop fun t => t.dom.toNat == (b.getG x.ra).toNat) c 12 id)
      ∧ (x.rb = 0 → x.ra = 0 → key = 0 → Completes (.tlbix c.e x) s ((synced s1).tlbDrop fun _ => true) c 12 id))
    ∧ (pswPRIV b.psw = true → key = 0 →
      let pa := (b.getG x.ra).toNat / 4096 % 2 ^ 34 * 4096
      let v := (b.getG x.rb).toNat
      let sets (t : State) : State :=
        (t.setKey (pa / 4096) { lock := BitVec.ofNat 8 v, share := BitVec.ofNat 2 (v / 256) }).tlbDrop fun y => y.frame.toNat == pa / 4096
      v / 256 ≤ 2 →
      ((s1.paClass pa).isNormal = true → s1.paClass pa ≠ .dram → s1.erasing pa = false → ((synced s1).eng c.e).postCheck = none →
        (synced s1).paClass pa = s1.paClass pa → Completes (.kset c.e x) s (sets (synced s1)) c 16 id)
      ∧ (s1.paClass pa = .dram →
        let s2 := s1.demandRead (s1.keyLine pa) 0
        let s3 := (synced s2).writeKeyLine c.e ((synced s2).keyLine pa)
        s2.keyUnreadable pa = false → s2.erasing pa = false → (synced s2).paClass pa = .dram → (s3.eng c.e).postCheck = none →
        Completes (.kset c.e x) s (sets s3) c 16 id))
    ∧ (∀ (s2 : State) (w : Nat × Leaf), (b.getG x.rb).toNat < 2 ^ 48 → (s2.eng c.e).postCheck = none →
      (translate c.e c.slot .kget (b.getG x.rb).toNat).exec s1 = (.ok w, s2) →
      Completes (.kget c.e x) s s2 c 3 (fun b => b.putG x.ra (BitVec.ofNat 64
        (w.2.key.lock.toNat + w.2.key.share.toNat * 2 ^ 8 + w.2.pki * 2 ^ 10 + b2n w.2.w * 2 ^ 14 + b2n w.2.x * 2 ^ 15 + b2n w.2.p * 2 ^ 16
          + b2n w.2.a * 2 ^ 17 + b2n w.2.d * 2 ^ 18))))

end Sys2Proof

/-- Storage keys and TLBs, and the instructions that set, read and invalidate them. -/
def Obligations.KeyInstructions : Prop := keysAndTlbsRules ∧ keyInstructionsRules

namespace Sys2Proof

/-- AESE, AESD, AESK, GHMUL, CRCG and CRCGN: one step of their standard on registers (R172, R205). -/
def cryptoRegistersRules : Prop :=
  ∀ (s s1 : State) (c : Cx) (x : FmtXA), c.len = x.len.bytes → Begins s c x.pred s1 →
    let step (f : List Nat → List Nat → List Nat) (b : Bank) : Bank := b.putF x.ra (blockOf (f (blockBytes (b.getF x.ra)) (blockBytes (b.getF x.rb))))
    let check (poly : Bool) (b : Bank) : Bank :=
      b.putG x.ra (((natLE (2 ^ x.mod.toNat) (b.getG x.rb).toNat).foldl (crcByte (crcPoly poly)) (field (b.getG x.ra) 0 32)).setWidth 64)
    (x.len = .l4 →
      (bit x.mod 1 = false → Completes (.aese c.e x) s s1 c 2 (step (aesRound (bit x.mod 0)))
        ∧ Completes (.aesd c.e x) s s1 c 2 (step (aesInvRound (bit x.mod 0))))
      ∧ Completes (.crcg c.e x) s s1 c 2 (check false) ∧ Completes (.crcgn c.e x) s s1 c 2 (check true))
    ∧ (x.len = .l6 →
      (∀ rc, rc = x.mod2.toNat → x.mod = 0 → x.rc = 0 → 1 ≤ rc → rc ≤ 10 →
        Completes (.aesk c.e x) s s1 c 2 (fun b => b.putF x.ra (blockOf (nextKey (blockBytes (b.getF x.rb)) (blockBytes (b.getF x.rb)) rc))))
      ∧ (∀ rc, rc = x.mod2.toNat → x.mod = 1 → rc ≤ 7 →
        Completes (.aesk c.e x) s s1 c 2 (fun b => b.putF x.ra (blockOf (nextKey (blockBytes (b.getF x.rc)) (blockBytes (b.getF x.rb)) rc))))
      ∧ (x.mod = 0 → x.mod2 = 0 → Completes (.ghmul c.e x) s s1 c 4 (fun b => b.putF x.ra (ghash (b.getF x.rb) (b.getF x.rc)))))

/-- The state of SHB as one number: `n` F registers from `ra` on, the lowest-numbered with the low bits (R206). -/
def shaNumber (n : Nat) (ra : BitVec 4) (b : Bank) : Nat := ((List.range n).map fun k => 2 ^ (128 * k) * (b.getF (ra + BitVec.ofNat 4 k)).toNat).sum

/-- `n` F registers from `ra` on written from one number. -/
def putNumber (n : Nat) (ra : BitVec 4) (v : Nat) (b : Bank) : Bank :=
  (List.range n).foldl (fun b k => b.putF (ra + BitVec.ofNat 4 k) (BitVec.ofNat 128 (v / 2 ^ (128 * k)))) b

/-- The compression of one block on a state of eight `w`-bit words H_j, which lie at bit w·j of the number (R206). -/
def shaStep (p : ShaParams) (v : Nat) (l : List Byte) : Nat :=
  let h := shaCompress p ((List.range 8).map fun j => v / 2 ^ (p.w * j) % 2 ^ p.w) l
  ((List.range 8).map fun j => h.getD j 0 * 2 ^ (p.w * j)).sum

/-- AESB, GHB, SHB and TDB work on the bytes of their memory operand and write their F registers (R205, R206, R208). -/
def cryptoMemoryRules : Prop :=
  ∀ (s s1 s2 : State) (c : Cx) (x : FmtXB), c.len = x.len.bytes → (x.len = .l8 ∨ x.len = .l12) → Begins s c x.pred s1 →
    (s2.eng c.e).postCheck = none →
    let ea := addressOf x.bs 0 x.disp x.len (s1.bank c.slot)
    let mode := x.mod.toNat + 2 * x.mod2.toNat
    let reads (n unit xop : Nat) (l : List Byte) : Prop := (load c ea n (.aligned unit) (.block xop x.ra mode)).exec s1 = (.ok (some l), s2)
    x.mod.toNat < 2 → x.mod2.toNat < 2 →
    (∀ l k, k = x.mod2.toNat → reads (if k = 0 then 176 else 240) 16 0x80 l →
      Completes (.aesb c.e x) s s2 c (if k = 0 then 26 else 34) (fun b =>
        b.putF x.ra (blockOf (aesBlock (decide (x.mod = 1)) (blockBytes (b.getF x.ra)) (roundKeys (l.length / 16) (l.map (·.toNat)))))))
    ∧ (∀ l, x.mod = 0 → x.mod2 = 0 → bit x.ra 0 = false → reads 16 16 0x81 l →
      Completes (.ghb c.e x) s s2 c 6 (fun b => b.putF x.ra (ghash (b.getF x.ra ^^^ BitVec.ofNat 128 (leNat l)) (b.getF (x.ra + 1)))))
    ∧ (∀ l, x.mod = 0 → x.mod2 = 0 → bit x.ra 0 = false → reads 64 16 0x82 l →
      Completes (.shb c.e x) s s2 c 72 (fun b => putNumber 2 x.ra (shaStep sha256P (shaNumber 2 x.ra b) l) b))
    ∧ (∀ l, x.mod = 1 → x.mod2 = 0 → field x.ra 0 2 = (0 : BitVec 2) → reads 128 16 0x82 l →
      Completes (.shb c.e x) s s2 c 88 (fun b => putNumber 4 x.ra (shaStep sha512P (shaNumber 4 x.ra b) l) b))
    ∧ (∀ l, x.mod2 = 0 → reads 24 8 0x83 l →
      let k (i : Nat) : Nat := beNat ((l.drop (8 * i)).take 8)
      Completes (.tdb c.e x) s s2 c 54 (fun b => b.putF x.ra (BitVec.ofNat 128 (leNat (natBE 8
        (tdes (decide (x.mod = 1)) (k 0) (k 1) (k 2) (beNat (natLE 8 ((b.getF x.ra).toNat % 2 ^ 64)))))))))

end Sys2Proof

/-- The cryptographic instructions, on registers and on memory. -/
def Obligations.CryptoInstructions : Prop := cryptoRegistersRules ∧ cryptoMemoryRules

namespace Sys2Proof

/-! ### The micro level (R294 to R335) -/

/-- The routine of engine `c.e` may go on, its next word is `w` with nano-word `nano`, and parity finds neither bad (R297, R325). -/
structure AtWord (s : State) (c : Cx) (r : MicroRun) (w : BitVec 32) (nano : BitVec 256) : Prop where
  next : s.nextWord c.e = some (c, r, w, nano)
  clean : r.pc.toNat ∉ (s.eng c.e).cs.parity ∧ 0x10000 + (field w 22 10 : BitVec 10).toNat ∉ (s.eng c.e).cs.parity

/-- The moves of a word that take place, in slot order, and the value that each reads before any is written (R303). -/
def liveMoves (r : MicroRun) (nano : BitVec 256) : List Move := ((List.range 6).map (moveOf nano)).filter fun m => m.dst != 0 && r.flag m.guard

/-- What a move reads: a sign-extended immediate, or its source port (R302, R305). -/
def movedValue (r : MicroRun) (t : Vector Word 32) (b : Bank) (m : Move) : BitVec 256 :=
  if m.imm then wide (sext 15 m.src.toNat) else r.read t b m.src.toNat

/-- A word whose moves trigger no unit and are allowed waits for the units it reads, reads every source before it writes, and
leaves in each T register what its last move there read; its register ports address the bank of its own level or, with BSEL, of
the level in BANK; nothing else of the part changes but that engine's T registers (R301 to R305, R310). -/
def microMovesRules : Prop :=
  ∀ (s : State) (c : Cx) (r : MicroRun) (nano : BitVec 256),
    let ms := liveMoves r nano
    let level := if bit nano 219 then r.bank.toNat else c.n.val
    let b := s.bank (slotOf c.e level)
    let shadow := if level = c.n.val then r.shadow else ((r.far.find? fun p => p.1 == level).map (·.2)).getD b
    let v (m : Move) : BitVec 256 := movedValue { r with shadow := shadow } (s.eng c.e).t b m
    (∀ m ∈ ms, (m.imm = true ∨ badPort r.x m.src.toNat = false) ∧ badPort r.x m.dst = false ∧ triggerOf m.dst = none
      ∧ (m.dst = 0x139 → fpcOk (field (v m) 0 32) = true)) →
    r.startsAt nano = (ms.filterMap waitsFor).foldl (fun n u => max n (r.unit u).ready) r.clock
    ∧ ∃ r1 t, (runMoves c r nano (r.startsAt nano)).exec s = (.ok r1, s.modEng c.e fun x => { x with t := t })
      ∧ (∀ i : Fin 32, t[i] = match ms.reverse.find? (fun m => m.dst == 0x20 + i.val) with
          | some m => low64 (v m)
          | none => (s.eng c.e).t[i])
      ∧ r1.pc = r.pc ∧ r1.stack = r.stack ∧ r1.delay = r.delay ∧ r1.target = r.target ∧ r1.order = r.order ∧ r1.clock = r.clock

/-- The commit record of a commit point (R322). -/
def commitRec (gen : Byte) (r : MicroRun) : CommitRec :=
  { valid := true, readPast := 0, resume := r.pc, target := r.target, loops := r.loops, order := r.order,
    flags := setField r.mf 0 1 0, mbk := r.mbk, n := r.n, gen := gen }

/-- The state with the pending writes of routine `u` in the banks they are for (R301, R321). -/
def written (s : State) (c : Cx) (u : MicroRun) : State :=
  u.far.foldl (fun t p => t.modBank (slotOf c.e p.1) fun b => b.takePending p.2) (s.modBank c.slot fun b => b.takePending u.shadow)

/-- A commit point of routine `u`: pending writes reach the banks with IPR, IPS and the commit record, stores are released, and
the runaway count is 0; Keeper may write a customer window there (R296, R322, R325). -/
def committed (s : State) (c : Cx) (u : MicroRun) : State :=
  let t := (written s c u).modBank c.slot fun b => { b with psw := withIP b.psw true u.rsm.toNat, commit := commitRec (s.eng c.e).csGen u }
  (((t.modEng c.e Engine.closed).tick c.e 3 1).modEng c.e fun x =>
    { x with micro := some { u with count := 0, atCommit := true, far := [], due := .none } }).takeWindow c.e

/-- The state in which routine `u` stands with `due` still to do, while a host-window load of its LSU is outstanding (R310). -/
def standing (s : State) (c : Cx) (u : MicroRun) (due : WordDue) : State :=
  s.modEng c.e fun x => { x with micro := some { u with due := due } }

/-- EVOP acts at the end of a word (R301, R320). -/
def evopOf (s : State) (c : Cx) (u : MicroRun) (nano : BitVec 256) : State × MicroRun :=
  let evop : BitVec 2 := field nano 228 2
  let t := if evop = 1 then s.modSlot c.slot fun x => { x with wake := false } else s
  (t, if evop = 2 then { u with mf := setField u.mf 14 1 (b2n (t.dueLevel c.e).isSome) } else u)

/-- The clocks of a word counted in CYC, FTCYC and MCYC (R334, R559). -/
def clocked (s : State) (c : Cx) (n : Nat) : State := (s.cycles c.e (pswFTM (s.bank c.slot).psw) n).tick c.e 24 n

/-- The end of a word after `s2`: the routine that began it as `r` goes on as `u` at clock `done`. EVOP acts, and the clocks are
counted. A word with IP = 1 that is no delay slot and runs with no frame on the stack is a commit point, reached when the units
are idle (R301, R310, R322). -/
def wordEnd (s2 : State) (c : Cx) (r u : MicroRun) (w : BitVec 32) (nano : BitVec 256) (done count : Nat) : State :=
  let (s3, u) := evopOf s2 c u nano
  let commits := bit w 19 && !r.delay && r.stack.isEmpty
  let done := if commits then (u.units.map fun p => p.2.ready).foldl max done else done
  let s4 := clocked s3 c (done - r.clock)
  let u := { u with clock := done, count := count, atCommit := false }
  if commits = false then standing s4 c u .none
  else if (s4.eng c.e).wait = .none then committed s4 c u
  else standing s4 c u .commit

/-- WAITEV or WAITTB after `s2`, in which routine `u` stands at the word: once its units are idle the wait begins, which is a
commit point outside a micro call (R318, R319). -/
def waitBegun (s2 : State) (c : Cx) (r u : MicroRun) (done : Nat) (wait : Wait) : State :=
  let done := (u.units.map fun p => p.2.ready).foldl max done
  let s3 := clocked s2 c (done - r.clock)
  let u := { u with clock := done, count := r.count + 1, atCommit := false }
  let begun (t : State) : State := t.modEng c.e fun x => { x with wait := if x.micro.isSome then wait else x.wait }
  if (s3.eng c.e).wait ≠ .none then standing s3 c u (.wait wait)
  else if u.stack.isEmpty then begun (committed s3 c u) else begun (standing s3 c u .none)

end Sys2Proof

/-- Every word of SEQ 0 to 8 makes its moves and goes on: NEXT and a branch not taken in sequence, JUMP, BT, BF, CALL, RET and DISP
at their target after a delay slot, WAITEV and WAITTB at their own address, in a wait (R300, R312, R318, R319). -/
def Obligations.MicroWords : Prop :=
  ∀ (s s1 : State) (c : Cx) (r r1 : MicroRun) (w : BitVec 32) (nano : BitVec 256) (start : Nat), AtWord s c r w nano →
    start = r.startsAt nano → (runMoves c r nano start).exec s = (.ok r1, s1) → (s1.eng c.e).postCheck = none →
    let lit : BitVec 15 := field w 0 15
    let T := (s1.eng c.e).t
    let ends (u : MicroRun) (t : Vector Word 32) (bubble : Nat) : State :=
      wordEnd (s1.modEng c.e fun x => { x with t := t }) c r u w nano (start + (field w 20 2 : BitVec 2).toNat + 1 + bubble) (r.count + 1)
    let waits (wait : Wait) : State := waitBegun s1 c r { r1 with pc := r.pc } (start + (field w 20 2 : BitVec 2).toNat + 1) wait
    let goesOn (l : BitVec 15) : State := ends (r1.onward r.pc nano l).1 T (r1.onward r.pc nano l).2
    let branches (target : BitVec 14) (u : MicroRun) (t : Vector Word 32) : State :=
      ends { u with pc := r.pc + 1, target := some target, delay := true } t 0
    let flag := r.flag (field lit 11 4).toFin
    let near := r.pc + (field lit 0 11 : BitVec 11).signExtend 14
    let seq : BitVec 4 := field w 15 4
    (seq = 0 → exec (.next c.e) s = .next (goesOn lit))
    ∧ (seq = 1 → exec (.jump c.e) s = .next (branches (field lit 0 14) r1 T))
    ∧ (seq = 2 → exec (.bt c.e) s = .next (if flag = true then branches near r1 T else goesOn 0))
    ∧ (seq = 3 → exec (.bf c.e) s = .next (if flag = false then branches near r1 T else goesOn 0))
    ∧ (seq = 4 → r.stack.length < 4 → exec (.microCall c.e) s = .next (branches (field lit 0 14)
        { r1 with stack := { ret := r.pc + 2, saved := savedGroups (field nano 220 8) T } :: r1.stack } T))
    ∧ (seq = 5 → ∀ f fs, r.stack = f :: fs → exec (.microRet c.e) s = .next (branches f.ret { r1 with stack := fs }
        (f.saved.foldl (fun t p => t.set (Fin.ofNat 32 p.1).val p.2) T)))
    ∧ (seq = 6 → exec (.disp c.e) s = .next (branches (field lit 0 14 + (field (s.eng c.e).t[0] 0 4 : BitVec 4).setWidth 14) r1 T))
    ∧ (seq = 7 → exec (.waitev c.e) s = .next (waits .waitev))
    ∧ (seq = 8 → exec (.waittb c.e) s = .next (waits (.waittb T[(field lit 0 5 : BitVec 5).toFin])))

namespace Sys2Proof

/-- Where a routine goes after a word in sequence or a delay slot: to the branch target after a delay slot; to the start of the most
recently armed active loop that ends here, once more while its count lasts, with a bubble for a DBR loop; past the end of a DBR loop
armed with count 0, with a bubble; else to the next address (R312 to R315). -/
def microSequenceRules : Prop :=
  ∀ (r : MicroRun) (a : BitVec 14) (nano : BitVec 256) (lit : BitVec 15),
    let unarmed := (field nano 216 2 : BitVec 2) = 0
    let ends (n : Fin 3) : Prop := r.loops[n].active = true ∧ r.loops[n].stop = a
    (unarmed → r.delay = true → r.onward a nano lit = ({ r with pc := r.target.getD (a + 1), target := none, delay := false }, 0))
    ∧ (unarmed → r.delay = false → (∀ n ∈ r.order, ¬ ends n) → r.onward a nano lit = ({ r with pc := a + 1 }, 0))
    ∧ (unarmed → r.delay = false → ∀ n l, r.order = n :: l → ends n →
      (r.loops[n].dbr = true → r.loops[n].count ≠ 1 →
        r.onward a nano lit = ({ r with pc := r.loops[n].start, loops := r.loops.set n { r.loops[n] with count := r.loops[n].count - 1 } }, 1))
      ∧ (r.loops[n].dbr = false → 1 < r.loops[n].count.toNat →
        r.onward a nano lit = ({ r with pc := r.loops[n].start, loops := r.loops.set n { r.loops[n] with count := r.loops[n].count - 1 } }, 0))
      ∧ (r.loops[n].count = 1 → (∀ m ∈ l, m ≠ n ∧ ¬ ends m) →
        r.onward a nano lit = ({ r with pc := a + 1, loops := r.loops.set n { r.loops[n] with count := 0, active := false } }, 0)))
    ∧ (∀ n : Fin 3, (field nano 216 2 : BitVec 2).toNat = n.val + 1 → r.delay = false → (∀ m ∈ r.order, m ≠ n → ¬ ends m) → (field lit 0 14 : BitVec 14) ≠ a →
      let dbr := bit nano 218
      let zero := dbr && r.loops[n].count == 0
      let armed : MicroRun := { r with
        loops := r.loops.set n { r.loops[n] with start := a + 1, stop := field lit 0 14, active := !zero, dbr := dbr },
        order := n :: r.order.filter (· != n) }
      r.onward a nano lit = if zero then ({ armed with pc := field lit 0 14 + 1 }, 1) else ({ armed with pc := a + 1 }, 0))

end Sys2Proof

/-- How a micro-word moves data, and where the next one comes from. -/
def Obligations.MicroSequence : Prop := microMovesRules ∧ microSequenceRules

namespace Sys2Proof

/-- A machine check is recorded and enters level 0 where that level is IDLE and its entry 0 VALID; otherwise the engine checkstops
and source 0x1_1200 + e fires (R290, R536). -/
def Checks (s u : State) (e : Eng) (n : Fin 8) (code : Nat) (addr : Word) (pa : Nat) (ilen : Nat) : Prop :=
  let stops := !((s.slot (slotOf e 0)).state == .idle && bit (entryOf s e 0 0) 0)
  let b := s.bank (slotOf e n.val)
  let s1 := (s.record (pswKEY b.psw) 2 2 (BitVec.ofNat 8 e.val)
      (natLE 2 code ++ [BitVec.ofNat 8 n.val, if stops then 1 else 0, 0, 0, 0, 0] ++ natLE 8 (pswIA b.psw) ++ natLE 8 pa)).modEng e fun x =>
        { x with mcCode := BitVec.ofNat 16 code, mcLevel := BitVec.ofNat 3 n.val, mcStopped := stops }
  (stops = false → Enters s1 u e 0 n 0 { cause := 0x3F, detail := BitVec.ofNat 16 code, eaddr := addr, ilen := BitVec.ofNat 4 ilen })
  ∧ (stops = true → u = (s1.modEng e fun x => { x with checkstop := true }).fire (0x11200 + e.val))

/-- An engine whose routine is gone, its held stores discarded. -/
def abandoned (s : State) (e : Eng) : State := (s.modEng e fun x => { x with micro := none, wait := .none }).modEng e discarded

end Sys2Proof

/-- END takes the pending writes to the bank, and the MCALL completes; EXC leaves them and raises its exception; a runaway is a
machine check; a wait ends when its event is there, as a word in sequence; a fifth CALL frame and a RET with none are machine checks
(R300, R318, R319, R323, R325, R328). -/
def Obligations.MicroEnds : Prop :=
  ∀ (s : State) (c : Cx) (r : MicroRun),
    (∀ w nano r1 s1, AtWord s c r w nano → (runMoves c r nano (r.startsAt nano)).exec s = (.ok r1, s1) → (s1.eng c.e).postCheck = none →
      let seq : BitVec 4 := field w 15 4
      let n := r.startsAt nano + (field w 20 2 : BitVec 2).toNat + 1
      let spent := clocked s1 c (n - r.clock)
      (seq = 9 →
        let s2 := (evopOf s1 c r1 nano).1
        let u := (evopOf s1 c r1 nano).2
        let done := (u.units.map fun p => p.2.ready).foldl max n
        let s3 := clocked s2 c (done - r.clock)
        ((s3.eng c.e).wait = .none → exec (.endWord c.e) s = .next
          ((passed (((written s3 c u).modEng c.e fun x => { x with micro := none }).modEng c.e Engine.closed) c 0).takeWindow c.e))
        ∧ ((s3.eng c.e).wait ≠ .none → exec (.endWord c.e) s = .next (standing s3 c { u with clock := done } .finish)))
      ∧ (seq = 4 → 4 ≤ r.stack.length →
        ∃ u, exec (.microCall c.e) s = .next (u.takeWindow c.e) ∧ Checks (abandoned spent c.e) u c.e c.n 4 0 0 c.len)
      ∧ (seq = 5 → r.stack = [] →
        ∃ u, exec (.microRet c.e) s = .next (u.takeWindow c.e) ∧ Checks (abandoned spent c.e) u c.e c.n 4 0 0 c.len))
    ∧ (∀ w nano, AtWord s c r w nano → (s.eng c.e).postCheck = none → (field w 15 4 : BitVec 4) = 0xA →
      let t := abandoned (clocked s c (r.startsAt nano + (field w 20 2 : BitVec 2).toNat + 1 - r.clock)) c.e
      let cause := (field w 0 8 : BitVec 8)
      let x : Exc := { cause := cause, detail := field (s.eng c.e).t[30] 0 16, eaddr := (s.eng c.e).t[31], ilen := BitVec.ofNat 4 c.len }
      t.dueLevel c.e = none → (t.dom (t.owner c.slot)).state ≠ .quiescing → exec (.exc c.e) s = .next ((t.deliver c.e c.n x).takeWindow c.e))
    ∧ ((s.eng c.e).micro = some r → s.running c.e = some c.n → c.len = r.x.len.bytes → (s.eng c.e).checkstop = false → s.clusterRuns c.e = true →
      (s.eng c.e).postCheck = none →
      ((s.eng c.e).wait = .none → 4096 ≤ r.count ∨ r.pc.toNat < 0x3000 →
        ∃ u, exec (.microRunaway c.e) s = .next (u.takeWindow c.e) ∧ Checks (abandoned s c.e) u c.e c.n 4 0 0 c.len)
      ∧ (let s0 := s.modEng c.e fun x => { x with wait := .none }
        ∀ w nano, s0.nextWord c.e = some (c, r.wordStarts, w, nano) →
          let go := ({ r with atCommit := false } : MicroRun).onward r.pc nano 0
          let ends := wordEnd s0 c r go.1 (setField w 20 2 0) nano (r.clock + 1 + go.2) (r.count - 1 + 1)
          (∀ t, (s.eng c.e).wait = .waittb t → t.toNat ≤ s.pcm.chrono.toNat → exec (.waittbEnd c.e) s = .next ends)
          ∧ ((s.eng c.e).wait = .waitev → (s.slot c.slot).wake = true →
            exec (.waitevEnd c.e) s = .next (ends.modSlot c.slot fun x => { x with wake := false }))))

/-- MCALL dispatches a routine in 4 cycles, with ports and flags whose values the spec leaves open, or resumes one from its commit
record with T registers of 0 (R95, R305, R326, R334). -/
def Obligations.MicroCalls : Prop :=
  ∀ (s s1 : State) (c : Cx) (x : FmtA), (x.len = .l4 ∨ x.len = .l6) → c.len = x.len.bytes →
    (Begins s c x.pred s1 → pswIPR (s1.bank c.slot).psw = false →
      let entry := s1.mcallEntry c.e x.mod
      bit entry 15 = true → ∃ v, exec (.mcall c.e x) s = .next
        ((({ s1 with draws := s1.draws + 1 }.tick c.e 23 1).cycles c.e (pswFTM (s1.bank c.slot).psw) 4).modEng c.e fun y =>
          { y with micro := some (freshRun x (field entry 0 14) (s1.bank c.slot) v), t := freshT v }))
    ∧ (Resumes s c s1 → pswIPR (s1.bank c.slot).psw = true → bit (s1.mcallEntry c.e x.mod) 15 = true →
      let k := (s1.bank c.slot).commit
      k.valid = true → k.n = x.mod → k.gen = (s1.eng c.e).csGen →
      exec (.mcall c.e x) s = .next (s1.modEng c.e fun y =>
        { y with t := Vector.replicate 32 0,
                 micro := some { pc := k.resume, target := k.target, delay := k.target.isSome, n := k.n, x := x, mf := k.flags,
                                 loops := k.loops, order := k.order, mbk := k.mbk, rsm := pswIPS (s1.bank c.slot).psw, stack := [],
                                 units := [], shadow := s1.bank c.slot, count := 0, clock := 0, atCommit := false,
                                 mode := 0, bank := 0, modeDue := none, bankDue := none, far := [], due := .none } }))

namespace Sys2Proof

/-! ### Queue Manager (R363 to R380) -/

/-- The counter QMG.DOORBELLS, or an error counter of Queue Manager, by its offset in QMG (R558). -/
def qmg (k : Nat) : Nat := 0x0380000 + k

/-- Who may ring which side of a queue of which kind: (KIND, producer's side, an engine writes); KIND is 0 EQ, 1 SQ, 2 CQ, 3 IQ,
4 OQ (R363, R370). -/
def ringers : List (Nat × Bool × Bool) :=
  [(0, true, true), (0, false, true), (1, true, false), (1, false, true), (2, true, true), (2, false, false), (3, false, true),
    (4, true, true)]

/-- What a doorbell that names index `x`, `a` entries ahead, leaves of queue `q`: the index of its side is `x` and its parity
turns where the index passes the end of the ring; XI follows PI but in SQ and CQ; a producer's entries of an OQ wait to be sent,
from time `t` on (R367, R368, R370, R378). -/
structure Rung (q q' : Queue) (producer : Bool) (x a : Nat) (t : Word) : Prop where
  cfg : q'.cfg = q.cfg
  bases : q'.dbase = q.dbase ∧ q'.xbase = q.xbase
  reads : q'.reads = q.reads
  pi : q'.pi = if producer then x else q.pi
  pph : q'.pph = if producer then (q.pph ^^ decide (2 ^ q.logn ≤ q.slot q.pi + a)) else q.pph
  ci : q'.ci = if producer then q.ci else x
  cph : q'.cph = if producer then q.cph else (q.cph ^^ decide (2 ^ q.logn ≤ q.slot q.ci + a))
  xi : q'.xi = if producer = true ∧ q.kind ≠ 1 ∧ q.kind ≠ 2 then x else q.xi
  xph : q'.xph = if producer = true ∧ q.kind ≠ 1 ∧ q.kind ≠ 2 then q'.pph else q.xph
  oq : q'.oq = if producer = true ∧ q.kind = 4 then q.oq ++ (upFrom q.pi a).map (fun i => { index := BitVec.ofNat 16 i, since := t, st := .waiting })
    else q.oq

/-- An engine's doorbell follows its outstanding posts and its store buffer. A doorbell is refused for a domain that is not ACTIVE
and rejected where its writer, its register or its value is wrong; an index too far ahead is an overrun; the index of its side
moves otherwise, and the event of the other side is raised, or the copy of an SQ starts (R31, R370, R371, R375, R379). -/
def doorbellsRules : Prop :=
  ∀ (s0 : State) (qid : BitVec 16) (fn j : BitVec 8) (w : Writer) (v : BitVec 32) (i : Instr) (id : Nat) (producer engine : Bool),
    (i, id, producer, engine) ∈ [(Instr.qdbp qid w v, qid.toNat, true, true), (.qdbc qid w v, qid.toNat, false, true),
      (.hdbp fn j w v, 256 * fn.toNat + j.toNat, true, false), (.hdbc fn j w v, 256 * fn.toNat + j.toNat, false, false)] →
    let s := match w, engine with | .engine e, true => (s0.awaitPosts e).drainAll e | _, _ => s0
    let fits := match w with | .engine _ => engine | .host => !engine
    let d := id / 256
    let q := s.queue id
    let x := (field v 0 16).toNat
    let cur := if producer then q.pi else q.ci
    let a := (x + 65536 - cur) % 65536
    let room := if producer then q.free else q.avail
    let allowed := fits = true ∧ (q.kind, producer, engine) ∈ ringers ∧ q.en = true ∧ field v 16 16 = 0
    let t := s.count (qmg 0x18) 1
    ((s.dom d).state ≠ .active → exec i s0 = .next (s.modDom d fun y =>
      { y with refused := BitVec.ofNat 16 (min (y.refused.toNat + 1) 0xFFFF), ovf := y.ovf || decide (0xFFFE ≤ y.refused.toNat) }))
    ∧ ((s.dom d).state = .active → ¬ allowed → exec i s0 = .next ((s.countErr (qmg 0x20) 1).modDom d fun y =>
      { y with dberr := BitVec.ofNat 16 (min (y.dberr.toNat + 1) 0xFFFF), dbovf := y.dbovf || decide (0xFFFE ≤ y.dberr.toNat) }))
    ∧ ((s.dom d).state = .active → allowed →
      (a = 0 → exec i s0 = .next t)
      ∧ (room < a → exec i s0 = .next (t.queueError id 1 cur 0))
      ∧ (a ≠ 0 → a ≤ room → ∃ q', Rung q q' producer x a s.pcm.chrono ∧
        let u := t.modQueue id fun _ => q'
        exec i s0 = .next (if producer then (if q.kind = 0 then u.queueEvent id else if q.kind = 1 then u.startCopy id else u)
          else if q.kind = 2 ∨ q.kind = 4 then u.queueEvent id else u)))

/-- A write of QCFG with EN = 0 disables the queue and clears ERR; with EN = 1 on an enabled queue only EVEN, IEN and VEC change;
on a disabled queue every field is taken and the enable is checked: ERR 4 where a check fails, otherwise the queue runs, and the
copy of an SQ starts (R365, R372, R373). -/
def queueConfigurationRules : Prop :=
  ∀ (s : State) (qid : BitVec 16) (v : Word),
    let id := qid.toNat
    let q := s.queue id
    ∃ q', q'.idx = q.idx ∧ q'.dbase = q.dbase ∧ q'.xbase = q.xbase ∧ q'.reads = q.reads ∧ q'.oq = q.oq
      ∧ field q'.cfg 1 12 = (if q.en then field q.cfg 1 12 else field v 1 12) ∧ q'.en = bit v 0
      ∧ field q'.cfg 13 5 = field v 13 5 ∧ field q'.cfg 18 6 = field q.cfg 18 6 ∧ q'.err = q.err ∧ field q'.cfg 27 37 = field q.cfg 27 37
      ∧ let errs (k : Nat) (en : Bool) : Queue := { q' with cfg := setField (setField q'.cfg 0 1 (b2n en)) 24 3 k }
      (bit v 0 = false → exec (.qcfg qid v) s = .next (s.modQueue id fun _ => errs 0 false))
      ∧ (bit v 0 = true → q.en = true → exec (.qcfg qid v) s = .next (s.modQueue id fun _ => q'))
      ∧ (bit v 0 = true → q.en = false →
        (s.enableOk id q' = false → exec (.qcfg qid v) s = .next ((s.countErr (qmg 0x40) 1).modQueue id fun _ => errs 4 false))
        ∧ (s.enableOk id q' = true →
          let wait := (upFrom q'.ci q'.avail).map fun i => ({ index := BitVec.ofNat 16 i, since := s.pcm.chrono, st := .waiting } : OqEntry)
          exec (.qcfg qid v) s = .next ((s.modQueue id fun _ => { errs 0 true with oq := if q'.kind = 4 then wait else [] }).startCopy id)))

end Sys2Proof

/-- The doorbells of a queue, and the writes that configure it. -/
def Obligations.QueueControl : Prop := doorbellsRules ∧ queueConfigurationRules

namespace Sys2Proof

/-! ### Host requests (R379, R380, R389 to R392) -/

/-- HIF counter `k` of its error counters (R558): 3 CPLTO, 4 URCNT, 5 CACNT, 6 POISRX, 9 FLRCNT. -/
def hif (k : Nat) : Nat := 0x0C44008 + 8 * k

/-- An AER error of function `fn`, by its bit: its status bit and header in the function's AER capability; in HIF the header, the
function and the error, and the time (R391, R558). -/
def aer (s : State) (fn error : Nat) : State :=
  let t := s.modFn fn fun f =>
    { f with aerUncor := f.aerUncor ||| BitVec.ofNat 32 (2 ^ error), aerHeader := Config.tlpHeader 1 s.draws ++ Config.tlpHeader 0 s.draws }
  let t := (t.setReg 0x0C44140 (Config.tlpHeader 0 s.draws)).setReg 0x0C44148 (Config.tlpHeader 1 s.draws)
  let t := (t.setReg 0x0C44150 (BitVec.ofNat 64 (fn + error * 65536))).setReg 0x0C44158 s.pcm.chrono
  { t with draws := s.draws + 1 }

/-- A request of function `fn` that ends without good data is counted, and an error of the link is logged: 1 UR, 2 CA, 3 completion
timeout, 4 poisoned (R391, R558). -/
def failed (s : State) (fn outcome : Nat) : State :=
  if outcome = 1 then s.countErr (hif 4) 1
  else if outcome = 2 then s.countErr (hif 5) 1
  else if outcome = 3 then aer (s.countErr (hif 3) 1) fn 14
  else aer (s.countErr (hif 6) 1) fn 12

end Sys2Proof

/-- A host-window load reads at most 16 bytes at a time, none across 4 KiB: the data of a read is followed by the next read, and the
last one ends the load with all the bytes. A read whose completion is UR, CA or missing at its time ends the load with bytes 0xFF
and a record; a poisoned one is consumed, with a machine check; what fits no read is turned away. The load's time is a wait term;
it writes its register, and its level goes on (R101, R103, R175, R389 to R391, R537). -/
def Obligations.HostLoads : Prop :=
  ∀ (s : State) (e : Eng) (n : Fin 8) (h : HostLoad), (s.eng e).wait = .host h → s.running e = some n →
    let d := h.fn.toNat
    let c : Cx := { e := e, n := n, len := h.ilen.toNat }
    let after (t : State) : Host.Outcome State Fault Refusal := .next ((t.settle d).issueMore)
    (h.issued = false → ∀ z, exec (.pcieCompletion e z) s = .next s ∧ exec (.hifCompletionTimeout (.load e)) s = .next s)
    ∧ (h.issued = true →
      (∀ l, l.length ≠ h.size → exec (.pcieCompletion e (.data l)) s = .next s)
      ∧ (∀ l, l.length = h.size → h.left = 0 → exec (.pcieCompletion e (.data l)) s = after (s.loadEnds e n h (h.got ++ l)))
      ∧ (∀ l, l.length = h.size → h.left ≠ 0 →
        let bus := h.bus + BitVec.ofNat 64 h.size
        let k := min h.left (min 16 (4096 - bus.toNat % 4096))
        exec (.pcieCompletion e (.data l)) s = after ((s.modEng e fun x =>
          { x with wait := .host { h with bus := bus, size := k, issued := false, got := h.got ++ l, left := h.left - k } }).issueLoad e))
      ∧ (s.requestOverdue h.since = false → exec (.hifCompletionTimeout (.load e)) s = .next s)
      ∧ (∀ i k, (i, k) ∈ [(Instr.pcieCompletion e .ur, 1), (.pcieCompletion e .ca, 2), (.hifCompletionTimeout (.load e), 3)] →
        (k = 3 → s.requestOverdue h.since = true) →
        exec i s = after (((failed s d k).hostRecord d k 0 0 h.bus.toNat).loadEnds e n h
          (List.replicate (h.got.length + h.size + h.left) 0xFF)))
      ∧ exec (.pcieCompletion e .poisoned) s = after (((((failed s d 4).hostRecord d 4 0 0 h.bus.toNat).waitTerm e
          (15 * (s.pcm.chrono - h.start).toNat)).microTrap c
          (.mcheck 0x17 h.va.toNat ((0x380000000000 + h.bus.toNat % 2 ^ 43) / 64 * 64)))))
    ∧ ∀ (t : State) (l : List Byte), (t.eng e).postCheck = none →
      let cycles := 15 * (t.pcm.chrono - h.start).toNat
      let waited := t.waitTerm e cycles
      let goes (f : Bank → Bank) : State :=
        (passed (((waited.modEng e fun y => { y with wait := .none }).modBank c.slot f).modEng e Engine.closed) c 0).takeWindow e
      (∀ ra sz signed, h.dest = .g ra sz signed → t.loadEnds e n h l = goes fun b => b.putG ra (if signed then sext (8 * l.length) (leNat l) else BitVec.ofNat 64 (leNat l)))
      ∧ (∀ ra sz, h.dest = .f ra sz → t.loadEnds e n h l = goes fun b => b.putF ra (BitVec.ofNat 128 (leNat l)))
      ∧ (h.dest = .lsu → ∀ r, (waited.eng e).micro = some r → r.due = .none → t.loadEnds e n h l =
          ((waited.tick e 24 cycles).modEng e fun y => { y with wait := .none }).modEng e fun y =>
            { y with micro := some (r.modUnit 5 fun u => { u with y := BitVec.ofNat 256 (leNat l) }) })

namespace Sys2Proof

/-- Entries that arrive go one by one into the device ring, from `k` places after XI, each after its key is read; the first that its
key does not allow, or whose key cannot be read, ends them with its code. XI then advances over the reads whose entries have all
landed, and over those landed of the first that has not (R374, R379, R589). -/
def landingRules : Prop :=
  ∀ (s : State) (id : Nat) (q : Queue) (n k : Nat) (l : List Byte),
    let x := (q.xi + k) % 2 ^ 16
    let pa := q.base + q.esize * (x % 2 ^ q.logn)
    let t := s.moveKeys pa q.esize
    s.landEntries id q 0 l k = (none, s)
    ∧ (q.esize ≤ l.length →
      (∀ err, t.moveFault (id / 256) pa q.esize .write = some err → s.landEntries id q (n + 1) l k = (some (err, x), t))
      ∧ (t.moveFault (id / 256) pa q.esize .write = none → s.landEntries id q (n + 1) l k =
        (t.agentWrite pa (withPhase (l.take q.esize) (q.xParity k))).landEntries id q n (l.drop q.esize) (k + 1)))
    ∧ ∀ (r : SqRead) (rs : List SqRead), landedRun [] = (0, [])
      ∧ (r.done < r.count → landedRun (r :: rs) =
        (r.done, { r with index := r.index + BitVec.ofNat 16 r.done, count := r.count - r.done, done := 0 } :: rs))
      ∧ (r.count ≤ r.done → landedRun (r :: rs) = (r.count + (landedRun rs).1, (landedRun rs).2))

/-- A read of an SQ copy ends its queue with ERR 3 for UR, CA or its time, with ERR 5 for a poisoned completion; its data, as much
as has come, goes into the device ring entry by entry, XI advances over the entries landed in order, and the event is raised (R374,
R379, R390, R391). -/
def copyReadRules : Prop :=
  ∀ (s : State) (qid : BitVec 16) (k : Nat) (r : SqRead),
    let id := qid.toNat
    let d := id / 256
    let q := s.queue id
    let after (t : State) : Host.Outcome State Fault Refusal := .next ((t.settle d).issueMore)
    (q.reads[k]? = none → ∀ z, exec (.sqCopyCompletion qid k z) s = .next s ∧ exec (.hifCompletionTimeout (.copy qid k)) s = .next s)
    ∧ (q.reads[k]? = some r → r.count ≤ r.done →
      ∀ z, exec (.sqCopyCompletion qid k z) s = .next s ∧ exec (.hifCompletionTimeout (.copy qid k)) s = .next s)
    ∧ (q.reads[k]? = some r → r.done < r.count →
      let a := (q.xbase + BitVec.ofNat 64 (q.esize * (r.index.toNat % 2 ^ q.logn))).toNat
      (s.requestOverdue r.since = false → exec (.hifCompletionTimeout (.copy qid k)) s = .next s)
      ∧ (∀ i o err, (i, o, err) ∈ [(Instr.sqCopyCompletion qid k .ur, 1, 3), (.sqCopyCompletion qid k .ca, 2, 3),
          (.sqCopyCompletion qid k .poisoned, 4, 5), (.hifCompletionTimeout (.copy qid k), 3, 3)] →
        (o = 3 → s.requestOverdue r.since = true) →
        exec i s = after (((failed s d o).hostRecord d o 2 id a).queueError id err r.index.toNat a))
      ∧ (∀ l, l = [] ∨ (r.count - r.done) * q.esize - r.part.length < l.length → exec (.sqCopyCompletion qid k (.data l)) s = .next s)
      ∧ ∀ l, l ≠ [] → l.length ≤ (r.count - r.done) * q.esize - r.part.length →
        let come := r.part ++ l
        let n := come.length / q.esize
        let ahead := ((q.reads.take k).map (·.count)).sum + r.done
        (∀ err x t, s.landEntries id q n come ahead = (some (err, x), t) → exec (.sqCopyCompletion qid k (.data l)) s =
          after (t.queueError id err x (q.base + q.esize * (x % 2 ^ q.logn))))
        ∧ ∀ t m rest, s.landEntries id q n come ahead = (none, t) →
          landedRun (modifyNth (fun y => { y with done := y.done + n, part := come.drop (n * q.esize) }) k q.reads) = (m, rest) →
          let u := (if n = 0 then t else t.countMove id n (n * q.esize)).modQueue id fun y => { y.addXi m with reads := rest }
          exec (.sqCopyCompletion qid k (.data l)) s = after (if m = 0 then u else u.queueEvent id))

end Sys2Proof

/-- The reads of an SQ copy. A CQ burst of at most 64 entries leaves in index order, then its MSI-X message; a burst ends at an entry
that cannot be read (R374, R379, R380, R391). -/
def Obligations.QueueCopies : Prop :=
  landingRules ∧ copyReadRules ∧ ∀ (s : State) (qid : BitVec 16),
    let id := qid.toNat
    let d := id / 256
    let q := s.queue id
    (q.kind ≠ 2 ∨ q.due = 0 ∨ s.mayMove id = false ∨ s.mayIssue d = false → exec (.cqBurst qid) s = .next s)
    ∧ (q.kind = 2 → q.due ≠ 0 → s.mayMove id = true → s.mayIssue d = true →
      ∀ es bad t, s.burstEntries id q (min 64 q.due) 0 = (es, bad, t) →
        let sent := if es = [] then t else (t.sendBurst id (t.fn d).maxPayload 64 es).countMove id es.length (es.flatten).length
        let u := match bad with | none => sent | some (err, x) => sent.queueError id err x (q.base + q.esize * (x % 2 ^ q.logn))
        exec (.cqBurst qid) s = .next (if es ≠ [] ∧ q.ien = true then u.msix d q.vec else u))

namespace Sys2Proof

/-- A pending MSI-X message leaves once its vector is open; a function-level reset resets the function of an absent domain at once,
quiesces an ACTIVE domain, and disables the queues of a QUIESCED one, keeping their indexes; a configuration write takes effect
and the copies that it allows start; a link recovery brings the PCIe margin targets into force (R38, R391, R392, R520). -/
def hostEventsRules : Prop :=
  ∀ (s : State) (fn : BitVec 8) (vec : Fin 8),
    let d := fn.toNat
    let sends := bit (s.fn d).pba vec.val = true ∧ s.mayIssue d = true ∧ (s.fn d).msixEn = true ∧ (s.fn d).msixMask = false ∧ bit (s.fn d).msix[vec] 96 = false
    (sends → exec (.msixPendingSend fn vec) s = .next (((s.modFn d fun f => { f with pba := f.pba &&& ~~~(1#8 <<< vec.val) }).count (hif 10) 1).send
      (.msix fn vec (field (s.fn d).msix[vec] 0 64) (field (s.fn d).msix[vec] 64 32))))
    ∧ (¬ sends → exec (.msixPendingSend fn vec) s = .next s)
    ∧ (d ≠ 0 → s.power.part ≠ .boot → s.power.part ≠ .dormant →
      let t := s.countErr (hif 9) 1
      let cleared (f : PcieFn) : PcieFn := { PcieFn.reset with aerCor := f.aerCor, aerUncor := f.aerUncor, aerHeader := f.aerHeader }
      let active (b : Bool) (t : State) : State :=
        t.setReg (0x0C44120 + 8 * (d / 64)) (setField (t.reg (0x0C44120 + 8 * (d / 64))) (d % 64) 1 (b2n b))
      let st := (s.dom d).state
      (st = .absent ∨ st = .destroying → exec (.functionLevelReset fn) s = .next (((t.modFn d cleared).fire (0x11300 + d)).send (.flrDone fn)))
      ∧ (st = .active → exec (.functionLevelReset fn) s = .next (((active true t).startQuiesce d).settle d))
      ∧ (st = .quiescing → exec (.functionLevelReset fn) s = .next (active true t))
      ∧ (st = .quiesced → ∃ u, exec (.functionLevelReset fn) s = .next (((active false u).fire (0x11300 + d)).send (.flrDone fn))
        ∧ u = { ((t.modFn d cleared).modDom d fun x => { x with flrq := true }) with queues := u.queues }
        ∧ (twf Queue.reset s.queues = true → ∀ id, u.queue id = if id / 256 = d then
            { s.queue id with cfg := setField (s.queue id).cfg 0 1 0, reads := [], oq := [] } else s.queue id)))
    ∧ (∀ w, exec (.pcieConfigurationWrite w) s = .next (if s.power.part = .boot ∨ s.power.part = .dormant ∨ s.power.resetting = true then s
      else (upFrom 0 256).foldl State.startCopies (s.configure w)))
    ∧ (let targets := s.sextant.serdesDue.take 8 ++ s.sextant.serdes.drop 8
      exec .linkRecovery s = .next (if s.hif.linkUp then { s with sextant := { s.sextant with serdes := targets } } else s))

/-- What a host write to a register changes: the vector table, a counter of an engine, an index word or a base of a disabled queue,
HWHI; GO copies the packet and makes Keeper busy. A page of a domain that is not ACTIVE takes nothing; before the part runs and
after a fatal stop nothing is served (R7, R31, R373, R384, R464, R538, R546, R551 to R553). -/
def registerWritesRules : Prop :=
  ∀ (s : State) (v : Word),
    let up := s.power.fatal = false ∧ s.power.part ≠ .boot ∧ s.power.part ≠ .dormant ∧ s.power.tripped = false ∧ s.power.resetting = false
    let t := s.count (hif 8) 1
    let at8 (off : Nat) : Instr := .csrWrite .csr (BitVec.ofNat 26 off) 8 v
    let merged (old m : Word) : Word := (old &&& ~~~m) ||| (v &&& m)
    (¬ up → ∀ page off n, exec (.csrWrite page off n v) s = .next s)
    ∧ (up →
      (∀ i, i < 16384 → exec (at8 (0x02A0000 + 8 * i)) s = .next { t with vectors := tset 0 t.vectors i (merged (tget 0 t.vectors i) 0x7FFFFFFFFFFFF) })
      ∧ (∀ (e : Eng) k, k < 32 → exec (at8 (engCounter e k)) s =
        .next (if (s.power.clusters[clusterOf e]).st = .gated then t else t.setReg (engCounter e k) v))
      ∧ (∀ id, id < 65536 →
        let put (f : Queue → Queue) : State := if (s.queue id).en then t else t.modQueue id f
        exec (at8 (0x0400008 + 128 * id)) s = .next (put fun q => { q with idx := merged q.idx 0x7FFFFFFFFFFFF })
        ∧ exec (at8 (0x0400010 + 128 * id)) s = .next (put fun q => { q with dbase := merged q.dbase 0x3FFFFFFFFFFF })
        ∧ exec (at8 (0x0400018 + 128 * id)) s = .next (put fun q => { q with xbase := v }))
      ∧ exec (at8 0x0C44000) s = .next { t with hif := { t.hif with hwhi := field v 43 21 } }
      ∧ (bit v 0 = true → exec (at8 0x0C80000) s = .next (if s.keeper.busy then t.countErr 0x0C80010 1 else
        { t with keeper := { t.keeper with busy := true, src := false, done := false, opcode := s.packetIn.opcode, submitted := some s.packetIn } }))
      ∧ (∀ d : BitVec 8, d ≠ 0 →
        let x := s.dom d.toNat
        (x.state ≠ .active → exec (.csrWrite (.vf d) 0x1000 8 v) s = .next t)
        ∧ (x.state = .active → exec (.csrWrite (.vf d) 0x1000 8 v) s =
          .next (if bit v 48 then t.modDom d.toNat fun y => { y with ovf := false } else t))))

end Sys2Proof

/-- What the host does to a function, and the writes of registers. -/
def Obligations.HostCommands : Prop := hostEventsRules ∧ registerWritesRules

namespace Sys2Proof

/-! ### Rings (R399 to R458) -/

/-- A register of ring block `r` (R427, R458). -/
def link (r : RingId) (o : Nat) : Nat := 0x0C00000 + r.val * 0x10000 + o

/-- A saturating field of `w` bits at `lo` of a ring register grows by `n`; bit `ovf` is set where it reaches its maximum (R427,
R458). -/
def counted (s : State) (r : RingId) (o lo w ovf n : Nat) : State :=
  let v := s.reg (link r o)
  let c := (field v lo w).toNat + n
  s.setReg (link r o) (setField (setField v lo w (min (2 ^ w - 1) c)) ovf 1 (b2n (decide (2 ^ w - 1 ≤ c) || bit v ovf)))

/-- A cycle boundary of ring `r`: the ring block moves to its next cycle; a standby that is due takes the beacon, or a handover goes
on; a plan switch is announced when it can be, and Compass adopts a switched plan (R21, R419, R424, R520). -/
def boundary (s : State) (r : RingId) : State :=
  let t := { s with sextant := s.sextant.linkTargets (r.val + 1) }.modRing r Ring.nextCycle
  let t := (if (t.ring r).takeNext then t.takeBeacon r else t.handoffStep r).planAnnounce
  if t.planDue then t.adoptPlan else t

/-- The transmitter of a direction: A leaves east and B west (R394). -/
def outPort (dir : Dir) : Side := match dir with | .a => .east | .b => .west

/-- The receiver of a direction (R394). -/
def inPort (dir : Dir) : Side := match dir with | .a => .west | .b => .east

/-- The transmitter of a direction's stream: the other one while its own side is wrapped (R421). -/
def lineOut (x : Ring) (dir : Dir) : Side :=
  if x.sideWrapped (outPort dir) then (match outPort dir with | .east => .west | .west => .east) else outPort dir

/-- The characters `l` of a direction's stream leave: as code groups on an idle transmitter, whose transit buffer is empty; else they
wait in the transit buffer of 1,024 bytes; nothing leaves on a failed or wrapped side's transmitter (R396, R415, R420, R421). -/
def emitted (s : State) (r : RingId) (dir : Dir) (l : List LineChar) : State :=
  let x := s.ring r
  let side := lineOut x dir
  let p := x.port side
  if (x.failed side).isSome = true ∨ x.sideWrapped side = true then s
  else if p.busy = 0 ∧ p.transit = [] then
    (s.modRing r fun z => z.modPort side fun q => { q with txRd := (encodeChars p.txRd l).2, busy := 8 * l.length }).send
      (.line r side (encodeChars p.txRd l).1)
  else if (p.transit.map (·.length)).sum + l.length ≤ 1024 then
    s.modRing r fun z => z.modPort side fun q => { q with transit := q.transit ++ [l] }
  else s

/-- A train of a direction's stream: its first ordered set, its bytes, and the set that ends it (R397). -/
def trained (s : State) (r : RingId) (dir : Dir) (first : OrderedSet) (bytes : List Byte) (last : Option OrderedSet) : State :=
  emitted s r dir (first.chars ++ bytes.map .d ++ (last.map OrderedSet.chars).getD [])

/-- A received train goes on in its direction, after the gap that the elastic buffer leaves before it; a frame with a code error ends
in EOFA (R398, R413, R414). -/
def passedOn (s : State) (r : RingId) (dir : Dir) (t : Received) (f : OrderedSet) : State :=
  emitted s r dir ((List.replicate t.idles OrderedSet.idle.chars).flatten ++ (f.chars ++ t.bytes.map .d
    ++ ((if f = .sof ∧ t.bad = true then some OrderedSet.eofa else t.last).map OrderedSet.chars).getD []))

/-- The beacon of the current cycle (R403). -/
def beaconOf (x : Ring) : Beacon :=
  { cycle := x.cycle, loop := x.loop, sdly := 0, tsel := x.tsel, wrp := x.wrapE || x.wrapW, handoff := x.handoff == .asked,
    swp := x.swp, hold := x.addr63, ver := x.ver, swcyc := if x.swp then x.swcyc.getD 0 else 0 }

/-- The ordered set that starts the beacon of a direction (R397). -/
def beaconSet (dir : Dir) : OrderedSet := match dir with | .a => .bcnA | .b => .bcnB

/-- A change of the WRP flag of received beacons raises source 0x11500 + r; a set flag spoils the measurement of LOOP (R399, R421). -/
def wrpSeen (s : State) (r : RingId) (wrp : Bool) : State :=
  let t := s.modRing r fun x => { x with lastWrp := wrp, spoiled := x.spoiled || wrp }
  if (s.ring r).lastWrp = wrp then t else t.fire (0x11500 + r.val)

/-- A standby follows a beacon of identity `id`: its ring block takes what the beacon carries, if it came on the receiver of its own
direction, and forwards the beacon with its own SDLY, and with WRP while it is wrapped (R400, R403, R421). -/
def follows (s : State) (r : RingId) (dir : Dir) (id : OrderedSet) (b : Beacon) (rt : BitVec 15) : State :=
  let t := wrpSeen (if id = beaconSet dir then s.modRing r fun x => x.follow dir b rt else s) r b.wrp
  trained t r dir id (beaconBytes { b with sdly := (t.ring r).dq + 30, wrp := b.wrp || (t.ring r).wrapE || (t.ring r).wrapW }) none

/-- The line code is read back as it is written, at either disparity and with no code error; the bytes of a beacon are read back as
the beacon (R396, R397, R403). -/
def lineCodeRules : Prop :=
  (∀ rd (c : LineChar), c.coded = true → decodeChar (encodeChar rd c) = some c
    ∧ disparityOf rd (encodeChar rd c) = disparityAfter rd (encodeChar rd c))
  ∧ (∀ (o : OrderedSet), readSet o.chars = some o ∧ ∀ c ∈ o.chars, c.coded = true)
  ∧ (∀ b, readBeacon (beaconBytes b) = some b ∧ (beaconBytes b).length = 20)
  ∧ ∀ (s : State) (r : RingId) (side : Side) (f : OrderedSet) (bytes : List Byte) (last : Option OrderedSet), f ≠ .idle →
    ∃ k fill, s.receive r side (encodeChars ((s.ring r).port side).rxRd (f.chars ++ bytes.map .d ++ (last.map OrderedSet.chars).getD [])).1
      = (({ s with draws := s.draws + 1 } : State).modRing r fun x => x.modPort side fun p =>
          { p with fill := fill, rxRd := (encodeChars p.rxRd (f.chars ++ bytes.map .d ++ (last.map OrderedSet.chars).getD [])).2 },
        { idles := k, first := some f, bytes := bytes, last := last, bad := false })

/-- A cycle boundary advances CYCLE, takes a measured LOOP that no wrap has spoiled and switches the schedule at SWCYC; the two
beacons of a cycle give the delays, dP being half of LOOP − (tQ − tP), rounded to the nearest BT; a followed beacon gives its
fields, and ends a run of missing beacons when it is within 16 BT of its time (R399 to R401, R424, R425). -/
def cycleRules : Prop :=
  ∀ (x : Ring),
    let y := x.nextCycle
    y.cycle = x.cycle + 1 ∧ y.rt8 = 0 ∧ y.bcnSent = false ∧ y.loop = (if x.spoiled then x.loop else x.measuring.getD x.loop)
    ∧ y.measuring = none ∧ y.spoiled = (x.wrapE || x.wrapW)
    ∧ y.tsel = (x.tsel ^^ decide (x.swcyc = some (x.cycle + 1)))
    ∧ (x.swcyc = some (x.cycle + 1) → y.swcyc = none) ∧ (x.swcyc ≠ some (x.cycle + 1) → y.swcyc = x.swcyc)
    ∧ (∀ (p q : Beacon) (tP tQ : BitVec 15), x.seenP = some (tP, p) → x.seenQ = some (tQ, q) → p.cycle = q.cycle → p.wrp = false →
      q.wrp = false → p.loop ≠ 0 → tQ.toNat ≤ p.loop.toNat + tP.toNat → tP.toNat ≤ p.loop.toNat + tQ.toNat →
      let z := x.measureDelays
      (2 * z.dp.toNat + tQ.toNat = p.loop.toNat + tP.toNat ∨ 2 * z.dp.toNat + tQ.toNat = p.loop.toNat + tP.toNat + 1)
      ∧ z.dq = p.loop - z.dp)
    ∧ (∀ tQ q, x.seenQ = some (tQ, q) → x.measureDelays.ds = x.measureDelays.dq - q.sdly)
    ∧ ∀ dir (b : Beacon) (rt : BitVec 15),
      let z := x.follow dir b rt
      let isP := dir == (if x.hold then Dir.b else Dir.a)
      let gap := (rt.toNat + 31250 - (if isP then x.dp else x.dq).toNat % 31250) % 31250
      z.cycle = b.cycle ∧ z.loop = b.loop ∧ z.tsel = b.tsel ∧ z.ver = b.ver ∧ z.sync = true ∧ z.takeNext = b.handoff ∧ z.sdly = b.sdly
      ∧ z.miss = (if x.sync = false ∨ gap ≤ 16 ∨ 31234 ≤ gap then 0 else x.miss)
      ∧ (b.swp = true → z.swcyc = some b.swcyc) ∧ (isP = true → z.rt8 = 8 * (z.dp.toNat % 31250))

/-- A holder change: the standby takes the beacon, with LOOP 0 and the cycle count kept, or a holder follows the other controller;
FAILOV grows and the ring's source fires (R419, R422, R423). -/
def holderRules : Prop :=
  ∀ (s : State) (r : RingId),
    let changed (t : State) : State := (counted t r 0x28 32 8 40 1).fire (0x11500 + r.val)
    s.takeBeacon r = changed (s.modRing r fun x => { x with
      holder := true, hold := x.addr63, sync := true, takeNext := false, loop := 0, miss := 0, measuring := none, spoiled := false, sdly := 0, limx := false, incoming := none })
    ∧ s.yieldBeacon r = changed ((s.leaveStations r).modRing r fun x => { x with
      holder := false, hold := !x.addr63, followed := 0, miss := 0, seenP := none, seenQ := none, measuring := none, spoiled := false, swcyc := none })
    ∧ ((s.ring r).handoff = .sent → s.handoffStep r = (s.yieldBeacon r).modRing r fun x => { x with handoff := .given })
    ∧ ((s.ring r).handoff = .given → s.handoffStep r = s.leaveRing r .trained)

end Sys2Proof

/-- What the ring line's commands do: characters travel as 8b/10b code groups; the holder sends its beacon on both directions; a
standby follows the other controller's beacons and forwards them, ends its allegiance at the third missing beacon, and then takes
the beacon; the part at 63 yields to the other holder; a beacon whose BCRC fails is counted; failed sides are wrapped and
unwrapped, and counted; the schedule switches at SWCYC (R396 to R404, R413 to R425). -/
def Obligations.RingLine : Prop :=
  lineCodeRules ∧ cycleRules ∧ holderRules ∧ ∀ (s : State) (r : RingId),
    let x := s.ring r
    let live := (x.state = .inserting ∨ x.state = .inserted) ∧ s.power.fatal = false
    let does (i : Instr) (t : State) : Prop := exec i s = .next t
    (∀ measured, live → (x.holder = true ∨ x.takeNext = true) →
      let t := if x.bcnSent = true ∨ x.takeNext = true then boundary s r else s
      let y := t.ring r
      let u := t.modRing r fun z => { z with
        bcnSent := true, rt8 := 0, measuring := measured, spoiled := z.wrapE || z.wrapW, handoff := if z.handoff = .asked then .sent else z.handoff }
      let sent (v : State) (dir : Dir) : State := trained v r dir (beaconSet dir) (beaconBytes (beaconOf y)) none
      (y.holder = true → does (.beaconSend r measured) (if y.wrapE = true then sent (sent u .b) .a else sent (sent u .a) .b))
      ∧ (y.holder = false → does (.beaconSend r measured) t))
    ∧ (live → ∀ dir groups rt t rx id, s.receive r (inPort dir) groups = (t, rx) → rx.first = some id → id = .bcnA ∨ id = .bcnB →
      let gets := does (.beaconReceive r dir groups rt)
      (readBeacon rx.bytes = none → gets (counted t r 0x28 16 16 40 1))
      ∧ ∀ b, readBeacon rx.bytes = some b →
        (b.hold = x.addr63 → x.holder = true → gets ((wrpSeen t r b.wrp).modRing r fun z => { z with
          sdly := b.sdly, standbyLoad := if b.sdly = 0 then none else z.standbyLoad }))
        ∧ (b.hold = x.addr63 → x.holder = false → gets (counted t r 0x28 16 16 40 1))
        ∧ (b.hold ≠ x.addr63 → x.holder = true → x.addr63 = false → gets (counted t r 0x28 16 16 40 1))
        ∧ (b.hold ≠ x.addr63 → x.holder = true → x.addr63 = true → gets (follows (t.yieldBeacon r) r dir id b rt))
        ∧ (b.hold ≠ x.addr63 → x.holder = false → x.cycle = b.cycle → gets (follows t r dir id b rt))
        ∧ (b.hold ≠ x.addr63 → x.holder = false → x.cycle ≠ b.cycle → (boundary t r).ringLive r = true →
          ((boundary t r).ring r).holder = false → gets (follows (boundary t r) r dir id b rt)))
    ∧ (live → x.holder = false → (x.sync = true ∨ 0 < x.miss) → does (.beaconMissing r) (s.modRing r fun z =>
      { z with miss := z.miss + 1, followed := (if z.followed < 10 then 0 else z.followed), sync := z.sync && decide (z.miss + 1 < 3), takeNext := z.takeNext || decide (z.miss + 1 = 3 ∧ 10 ≤ z.followed) }))
    ∧ (∀ side cause, x.state ≠ .off → x.failed side ≠ some cause →
      let t := (s.modRing r fun z => z.setFailed side (some cause)).send (.sideTx r side (cause == .signal))
      does (.sideFailure r side cause) (match cause with
        | .signal => counted t r 0x18 16 8 48 1
        | .codeErrors => counted t r 0x18 0 16 48 17
        | .wrp => t))
    ∧ (∀ side, (x.failed side ≠ none → does (.sideRecovery r side) ((s.modRing r fun z => z.setFailed side none).send (.sideTx r side false)))
      ∧ (live → x.failed side ≠ none → x.sideWrapped side = false → does (.wrap r side)
        ((counted (s.modRing r fun z => { z.setWrapped side true with spoiled := true }) r 0x18 24 8 48 1).fire (0x11500 + r.val)))
      ∧ (live → x.failed side = none → x.sideWrapped side = true → does (.unwrap r side)
        ((s.modRing r fun z => z.setWrapped side false).fire (0x11500 + r.val))))
    ∧ (live → x.swcyc = some (x.cycle + 1) → does (.scheduleSwitch r) (boundary s r))
    ∧ (¬ live → ∀ side dir groups rt measured, does (.beaconSend r measured) s ∧ does (.beaconReceive r dir groups rt) s ∧ does (.beaconMissing r) s
      ∧ does (.wrap r side) s ∧ does (.unwrap r side) s ∧ does (.scheduleSwitch r) s)

namespace Sys2Proof

/-- The sequence rule of a link (R434). -/
def SequenceRule (y : Station) (q : BitVec 12) (rsyn : Bool) (v : SeqVerdict) : Prop :=
  v = if y.rxuns = true ∧ rsyn = false then .discard
    else if y.rxuns = true ∨ q = y.rxexp then .accept
    else if (y.rxexp - q).toNat ≤ 2048 then .duplicate
    else if rsyn then .accept else .ahead

/-- A 32-bit field of a ring register grows by 1, modulo 2^32 (R427, R458). -/
def wrapped (s : State) (r : RingId) (o lo : Nat) : State :=
  let v := s.reg (link r o)
  s.setReg (link r o) (setField v lo 32 (((field v lo 32).toNat + 1) % 2 ^ 32))

/-- An entry of an OQ that is sent or waits ends: STATUS and TSTAMP go into it, and CI passes the entries that have ended in order,
with an event for each; a write that fails ends its queue (R374, R375, R378). -/
def entryEndRules : Prop :=
  ∀ (s : State) (id : Nat) (index : BitVec 16) (status : Nat) (stamp : BitVec 32),
    let q := s.queue id
    let pa := q.base + q.esize * (index.toNat % 2 ^ q.logn)
    ((q.oq.any fun y => y.index == index && y.st != .ended) = false → s.endEntry id index status stamp = s)
    ∧ ((q.oq.any fun y => y.index == index && y.st != .ended) = true →
      (∀ err t, s.moveWrites (id / 256) (pa + 3) [BitVec.ofNat 8 status] (pa + 8) (natLE 4 stamp.toNat) = (some err, t) →
        s.endEntry id index status stamp = t.queueError id err index.toNat pa)
      ∧ ∀ t n rest, s.moveWrites (id / 256) (pa + 3) [BitVec.ofNat 8 status] (pa + 8) (natLE 4 stamp.toNat) = (none, t) →
        let u := t.modQueue id fun y => { y with oq := q.oq.map fun z => if z.index = index then { z with st := .ended } else z }
        endedRun (u.queue id).oq = (n, rest) →
        s.endEntry id index status stamp = (List.range n).foldl (fun v _ => v.queueEvent id)
          (u.modQueue id fun y => { y.addCi n with oq := rest }))

/-- A message for an IQ: dropped and counted by the first rule of R377 that drops it, or written and announced; a queue whose
memory fails ends with its error (R374, R377, R458). -/
def deliveryRules : Prop :=
  ∀ (s : State) (r : RingId) (id g c typ : Nat) (payload : List Byte),
    let q := s.queue id
    let drops (lo : Nat) : Prop := s.deliverIq r id g c typ payload = (counted s r 0x40 lo 12 60 1, false)
    let takes := q.en = true ∧ q.kind = 3 ∧ q.err = 0 ∧ s.power.fatal = false ∧ q.free ≠ 0
    ((s.dom (id / 256)).state ≠ .active → drops 24)
    ∧ ((s.dom (id / 256)).state = .active → ¬ takes → drops 36)
    ∧ ((s.dom (id / 256)).state = .active → takes → q.bsize < payload.length → drops 48)
    ∧ ((s.dom (id / 256)).state = .active → takes → payload.length ≤ q.bsize →
      let desc := natLE 2 payload.length ++ natLE 2 g ++ [BitVec.ofNat 8 c, BitVec.ofNat 8 typ, 0, 0] ++ natLE 4 (s.pcm.chrono.toNat % 2 ^ 32) ++ [0, 0, 0, 0]
      (∀ err t, s.iqWrite id desc payload = (some err, t) →
        s.deliverIq r id g c typ payload = (t.queueError id err q.pi (q.base + q.esize * (q.pi % 2 ^ q.logn)), false))
      ∧ ∀ t, s.iqWrite id desc payload = (none, t) →
        let u := (t.modQueue id fun y => y.addPi 1).queueEvent id
        s.deliverIq r id g c typ payload =
          (((u.count (qmg 0x100 + 8 * r.val) 1).count (qmg 0x140 + 8 * r.val) payload.length).countMove id 1 payload.length, true))

/-- Minislots leave on direction P with their index, HOLD, CYC and an empty record list; one that comes back is checked, and its
records are taken in order: a bad record is counted, another one raises its source, is counted and goes to the ring block or to the
IQ of its pair; a standby forwards a minislot; one that is spoiled or does not return is counted (R402, R405 to R408, R413). -/
def minislotRules : Prop :=
  ∀ (s : State) (r : RingId),
    let x := s.ring r
    let live := (x.state = .inserting ∨ x.state = .inserted) ∧ s.power.fatal = false
    let P := if x.hold then Dir.b else Dir.a
    let lose (t : State) : State := counted (t.modRing r fun z => { z with minislots := z.minislots.drop 1 }) r 0x20 48 8 56 1
    (live → x.holder = true →
      (∀ p k, x.table = some p →
        let h : List Byte := [BitVec.ofNat 8 (k.val + 128 * b2n x.addr63), 0, BitVec.ofNat 8 x.cycle.toNat]
        exec (.minislotSend r k) s = .next (trained (s.modRing r fun z => { z with
          minislots := z.minislots ++ [k], rt8 := 8 * (p.msofs.toNat + 3125 * k.val) }) r P .mss (h ++ [crc8 h] ++ List.replicate 64 0) (some .mse)))
      ∧ (x.minislots ≠ [] → exec (.minislotLost r) s = .next (lose s)))
    ∧ (live → ∀ groups t rx, s.receive r (inPort P) groups = (t, rx) → rx.first = some .mss → rx.last = some .mse → rx.bytes.length = 68 →
      (x.holder = false → exec (.minislotReturn r groups) s = .next (passedOn t r P rx .mss))
      ∧ (x.holder = true → x.minislots ≠ [] →
        (crc8 (rx.bytes.take 3) ≠ lget 0 rx.bytes 3 → exec (.minislotReturn r groups) s = .next (lose t))
        ∧ (crc8 (rx.bytes.take 3) = lget 0 rx.bytes 3 → exec (.minislotReturn r groups) s = .next
          ((List.range (min 8 (lget 0 rx.bytes 1).toNat)).foldl (fun v j => v.urgent r ((rx.bytes.drop (4 + 8 * j)).take 8))
            (t.modRing r fun z => { z with minislots := z.minislots.filter fun i => i.val != (lget 0 rx.bytes 0).toNat % 16 })))))
    ∧ (∀ l, let a := (lget 0 l 0).toNat % 64
      let c := (lget 0 l 1).toNat % 16
      let g := 64 * r.val + a
      let bad := bit (lget 0 l 0) 7 = false ∨ crc8 (l.take 7) ≠ lget 0 l 7 ∨ a = 0 ∨ a = 63
      let t := wrapped (s.fire (0x10000 + 16 * g + c)) r 0x20 0
      let data := (l.drop 2).take 5
      (bad → s.urgent r l = counted s r 0x20 32 16 56 1)
      ∧ (¬ bad → c = 0xE → (lget 0 data 0).toNat < 0x80 → s.urgent r l = t.manage r a data)
      ∧ (¬ bad → ¬ (c = 0xE ∧ (lget 0 data 0).toNat < 0x80) →
        ((t.pairEntry r a c).filter (·.inn) = none → s.urgent r l = t)
        ∧ ∀ m, t.pairEntry r a c = some m → m.inn = true → s.urgent r l = (t.deliverIq r m.iq.toNat g c 8 data).1))
    ∧ (¬ (live ∧ x.holder = true) → ∀ k, exec (.minislotSend r k) s = .next s ∧ exec (.minislotLost r) s = .next s)
    ∧ (¬ live → ∀ groups, exec (.minislotReturn r groups) s = .next s)

/-- A frame that arrives is consumed by the holder it is for, discarded by its sender, taken by the standby it is for, and else
forwarded. The holder checks it in the order of R432: what ends it is counted and recorded with its header; the acknowledgement
fields are applied; the sequence rule says whether it is delivered, discarded, or to be asked for again (R413, R432, R434, R436). -/
def frameRules : Prop :=
  ∀ (s : State) (r : RingId),
    let x := s.ring r
    let live := (x.state = .inserting ∨ x.state = .inserted) ∧ s.power.fatal = false
    let own (b : Bool) : Nat := if b then 63 else 0
    let recorded (t : State) (l : List Byte) (why : BitVec 8) : State :=
      (t.setReg (link r 0x70) (BitVec.ofNat 64 (fieldLE l 0 8))).setReg (link r 0x78) (BitVec.ofNat 64 (fieldLE l 8 4 + 2 ^ 32 * why.toNat))
    let spoilt (l : List Byte) : State := recorded (counted { s with draws := s.draws + 1 } r 0x38 0 16 48 1) l (Config.frameReason s.draws)
    (live → ∀ dir groups t rx, s.receive r (inPort dir) groups = (t, rx) → rx.first = some .sof →
      let dst := (lget 0 rx.bytes 0).toNat % 64
      let src := (lget 0 rx.bytes 1).toNat % 64
      let bad := rx.bad || rx.last != some .eof
      let holds := x.holder = true ∧ x.state = .inserted ∧ (dst = 0 ∨ dst = 63)
      let gets (u : State) : Prop := exec (.frameReceive r dir groups) s = .next u
      (holds → gets (t.takeFrame r rx.bytes bad))
      ∧ (¬ holds → src = own x.addr63 → gets t)
      ∧ (¬ holds → src ≠ own x.addr63 → x.holder = false → dst = own x.addr63 → src = own (!x.addr63) → gets (t.standbyFrame r rx.bytes bad))
      ∧ (¬ holds → src ≠ own x.addr63 → ¬ (x.holder = false ∧ dst = own x.addr63 ∧ src = own (!x.addr63)) → gets (passedOn t r dir rx .sof)))
    ∧ (¬ live → ∀ dir groups, exec (.frameReceive r dir groups) s = .next s)
    ∧ (∀ l, s.takeFrame r l true = spoilt l)
    ∧ (∀ l, let h := readHeader l
      let sized := h.len + 16 = l.length ∧ h.len ≤ 512
      let sound := crc32c (l.take (12 + h.len)) = BitVec.ofNat 32 (fieldLE l (12 + h.len) 4)
      (¬ sized → s.takeFrame r l false = recorded (counted s r 0x38 16 16 48 1) l 1)
      ∧ (sized → ¬ sound → s.takeFrame r l false = spoilt l)
      ∧ (sized → sound → ∀ k, x.headerFault h = some k → s.takeFrame r l false = recorded (counted s r 0x38 16 16 48 1) l (BitVec.ofNat 8 k))
      ∧ (sized → sound → x.headerFault h = none →
        let y := x.station h.src
        (y.st ≠ 2 → s.takeFrame r l false = recorded (counted s r 0x40 0 12 60 1) l 4)
        ∧ (y.st = 2 → h.typ = 0 → s.takeFrame r l false = s.applyAck r h.src h)
        ∧ (y.st = 2 → h.typ ≠ 0 →
          let t := s.applyAck r h.src h
          let now := ((t.ring r).station h.src).sequence h.seq h.rsyn
          let mod (f : Station → Station) : State := t.modRing r fun z => z.modStation h.src f
          let owes (z : Station) : Station := { z with owed := true, owedAt := if z.owed then z.owedAt else t.pcm.chrono }
          (now = .accept → s.takeFrame r l false = (wrapped (mod fun z => { owes z with rxexp := h.seq + 1, rxuns := false }) r 0x30 0).deliverFrame r h l
            ((l.drop 12).take h.len))
          ∧ (now = .discard → s.takeFrame r l false = t)
          ∧ (now = .duplicate → s.takeFrame r l false = wrapped (mod owes) r 0x30 32)
          ∧ (now = .ahead → s.takeFrame r l false = counted (mod fun z => { z with nak := true }) r 0x38 32 16 48 1))))
    ∧ (∀ a (h : Header), let y := x.station a
      let acked (f : OutFrame) : Bool := decide (1 ≤ (h.aseq - f.seq).toNat) && decide ((h.aseq - f.seq).toNat ≤ 2048)
      (h.av = false ∨ x.ver.toNat ≤ 1 ∧ h.typ ≠ 0 ∨ 2048 ≤ (y.txseq - h.aseq).toNat → s.applyAck r a h = s)
      ∧ (h.av = true → (x.ver.toNat ≤ 1 → h.typ = 0) → (y.txseq - h.aseq).toNat < 2048 →
        let left := (y.out.filter fun f => !acked f).map fun f => if h.nak then { f with due := f.due || decide (f.sent ≤ x.retry) } else f
        s.applyAck r a h = (y.out.filter acked).foldl (fun t f =>
          let u := t.endEntry f.oq.toNat f.oqIndex 0 f.sof
          if f.typ = 1 then u.modPair (64 * r.val + a) f.cls.toNat fun p =>
            { p with openOut := p.openOut.map fun o => if o.1 = f.xid then (o.1, true, o.2.2) else o } else u)
          (s.modRing r fun z => z.modStation a fun y => { y with out := left })))
    ∧ ∀ (y : Station) (q : BitVec 12) rsyn, SequenceRule y q rsyn (y.sequence q rsyn)

/-- The holder's slot toward a station: it begins when its transmitter is free, carries the first frame of R438's list that fits it,
and stays unused where that frame would not end 48 BT before the next train; a busy transmitter makes it wait (R415, R436 to R439). -/
def slotRules : Prop :=
  ∀ (s : State) (r : RingId),
    let x := s.ring r
    let up := x.state = .inserted ∧ s.power.fatal = false
    let skip (t : State) : State := counted t r 0x18 32 16 48 1
    (up → x.holder = true → ∀ k p e, x.table = some p → p.slots[k]? = some e → e.owner = 0x40 →
      let dir := if e.dirB then Dir.b else Dir.a
      let side := lineOut x dir
      let p := x.port side
      let t := s.modRing r fun z => { z with rt8 := 8 * e.start.toNat }
      let closed := (x.failed side).isSome = true ∨ x.sideWrapped side = true
      let gets (u : State) : Prop := exec (.dataSlot r k) s = .next u
      (closed → gets t)
      ∧ (¬ closed → p.busy = 0 → p.transit = [] → gets (t.useSlot r e.peer.toNat
          { e := e, start := s.pcm.chrono, room := (t.ring r).nextTrain dir - e.start.toNat - 48 }))
      ∧ (¬ closed → ¬ (p.busy = 0 ∧ p.transit = []) → gets ((if p.slot.isSome then skip t else t).modRing r fun z =>
          z.modPort side fun q => { q with slot := some (k, s.pcm.chrono) })))
    ∧ (¬ (up ∧ x.holder = true) → ∀ k, exec (.dataSlot r k) s = .next s)
    ∧ (∀ a (u : SlotUse), let y := x.station a
      let fits (n : Nat) : Prop := n + 20 ≤ u.e.len.toNat
      let due := y.out.find? fun f => f.due
      let again : Prop := ∃ f, due = some f ∧ (u.e.anyClass = true ∨ f.cls = u.e.cls) ∧ fits f.payload.length
      (∀ f, due = some f → (u.e.anyClass = true ∨ f.cls = u.e.cls) → fits f.payload.length →
        s.useSlot r a u = if f.payload.length + 20 ≤ u.room then
            counted ((s.modRing r fun z => z.modStation a fun y =>
                { y with out := y.out.map fun g => if g.seq = f.seq then { g with sent := g.sent + 1, due := false } else g }).sendFrame r u a
              f.cls.toNat f.typ.toNat f.rsyn f.seq.toNat true f.xid.toNat f.payload) r 0x48 32 16 56 1
          else skip s)
      ∧ (¬ again → ∀ t l, s.candidates r a u.e = (t, l) →
        (∀ w, oldest l = some w → fits w.len → y.out.length < 16 →
          s.useSlot r a u = if w.len + 20 ≤ u.room then t.sendEntry r a u w else skip t)
        ∧ ((∀ w, oldest l = some w → ¬ (fits w.len ∧ y.out.length < 16)) → s.useSlot r a u = t.sendOther r a u)))
    ∧ ∀ a (u : SlotUse) cls typ rsyn seq rtx xid payload, let y := x.station a
      let nak := y.nak = true ∧ y.nakAt ≠ some x.cycle
      let owes := y.owed = true ∧ 21 ≤ (u.start - y.owedAt).toNat
      let dir := if u.e.dirB then Dir.b else Dir.a
      let out (t : State) (av nak : Bool) : State :=
        emitted t r dir (OrderedSet.sof.chars ++ (frameBytes a (if x.addr63 then 63 else 0) cls typ rsyn av nak seq rtx
          (if av then y.rxexp.toNat else 0) xid payload).map .d ++ OrderedSet.eof.chars ++ OrderedSet.idle.chars)
      ((owes ∨ nak) → (typ = 0 ∨ 2 ≤ x.ver.toNat) → s.sendFrame r u a cls typ rsyn seq rtx xid payload =
        out (s.modRing r fun z => z.modStation a fun y =>
          { y with owed := false, nak := y.nak && !decide nak, nakAt := if nak then some x.cycle else y.nakAt }) true (decide nak))
      ∧ (¬ ((owes ∨ nak) ∧ (typ = 0 ∨ 2 ≤ x.ver.toNat)) → s.sendFrame r u a cls typ rsyn seq rtx xid payload = out s false false)

/-- The timers of a ring: a missing acknowledgement makes the frames due again, or fails the link after the last transmission; a
transaction's timer ends its entry, with the frame that carries it, or its request; a lost station leaves, and an extract without
TBLOK is sent again, three times at most (R437, R442, R446, R450, R453, R454). -/
def ringTimerRules : Prop :=
  ∀ (s : State) (r : RingId),
    let x := s.ring r
    let up := x.state = .inserted ∧ s.power.fatal = false
    let ends (t : State) (a : Nat) (f : OutFrame) (status : Nat) : State :=
      let u := t.endEntry f.oq.toNat f.oqIndex status f.sof
      if f.typ = 1 then u.endRequest (64 * r.val + a) f.cls.toNat f.xid else u
    let left (a : Nat) (failed : Bool) : State :=
      ((x.qmap.filter fun m => m.out && m.station.toNat == 64 * r.val + a).foldl (fun t m => (t.queue m.oq.toNat).oq.foldl (fun t e =>
          if e.st = .waiting then t.endEntry m.oq.toNat e.index 0x31 0 else t) t) s).modRing r fun z =>
        { z.modStation a fun y => { y with st := 0, loads := [] } with loadFailed := z.loadFailed || failed }
    (∀ a f, (x.station a.toNat).out.find? (fun f => !f.due) = some f →
      (f.sent ≤ x.retry → exec (.acknowledgementWaitExpiry r a) s = .next (s.modRing r fun z => z.modStation a.toNat fun y =>
        { y with out := y.out.map fun g => { g with due := g.due || decide (g.sent ≤ x.retry) } }))
      ∧ (x.retry < f.sent → exec (.acknowledgementWaitExpiry r a) s = .next ((x.station a.toNat).out.foldl (fun t f =>
          counted (ends t a.toNat f 0x10) r 0x48 48 8 56 1)
        (s.modRing r fun z => z.modStation a.toNat fun y => { y with out := [], tsync := true }))))
    ∧ (∀ a, (x.station a.toNat).out.find? (fun f => !f.due) = none → exec (.acknowledgementWaitExpiry r a) s = .next s)
    ∧ (∀ oq index a c, s.oqPair oq = some (r, a, c) → ((s.queue oq.toNat).oq.any fun y => y.index == index && y.st != .ended) = true →
      ((x.station a).out.find? (fun f => f.oq == oq && f.oqIndex == index) = none →
        exec (.transactionTimeout (.entry oq index)) s = .next (counted (s.endEntry oq.toNat index 0x20 0) r 0x50 0 16 48 1))
      ∧ ∀ f, (x.station a).out.find? (fun f => f.oq == oq && f.oqIndex == index) = some f →
        let t := s.modRing r fun z => z.abandon a f
        let answered := f.typ = 1 ∧ ∀ o, (s.pair (64 * r.val + a) f.cls.toNat).openOut = some o → o.1 ≠ f.xid
        (answered → exec (.transactionTimeout (.entry oq index)) s = .next s)
        ∧ (¬ answered → exec (.transactionTimeout (.entry oq index)) s = .next (if f.sent = 1 then counted (ends t a f 0x20) r 0x50 0 16 48 1
          else counted (ends t a f 0x21) r 0x50 16 16 48 1)))
    ∧ (∀ (g : BitVec 8) (c : BitVec 4) xid k, g.toNat / 64 = r.val → (s.pair g.toNat c.toNat).openOut = some (xid, true, k) →
      let a := g.toNat % 64
      let t := s.modPair g.toNat c.toNat fun p => { p with openOut := none }
      ((t.pairEntry r a c.toNat).filter (·.inn) = none → exec (.transactionTimeout (.request g c)) s = .next (counted t r 0x40 12 12 60 1))
      ∧ ∀ m, t.pairEntry r a c.toNat = some m → m.inn = true → ∀ u ok, t.deliverIq r m.iq.toNat g.toNat c.toNat 9 [] = (u, ok) →
        exec (.transactionTimeout (.request g c)) s = .next (if ok then counted u r 0x50 0 16 48 1 else u))
    ∧ (up → x.holder = true → ∀ a, (x.station a.toNat).st = 2 →
      exec (.stationLost r a) s = .next ((left a.toNat ((x.station a.toNat).loads.any fun l => l.tnum != x.tsel)).fire (0x11500 + r.val)))
    ∧ (up → x.holder = true → ∀ a l, (x.station a.toNat).loads.find? (fun l => l.ended) = some l →
      (x.station a.toNat).loads.find? (fun m => m.tnum == l.tnum) = some l →
      let mod (f : Station → Station) (failed : Bool) : State :=
        s.modRing r fun z => { z.modStation a.toNat f with loadFailed := z.loadFailed || failed }
      (l.tries < 3 → exec (.tableExtractResend r a) s = .next (mod (fun y => { y with loads := y.loads.map fun m =>
        if m.tnum == l.tnum then { m with tries := m.tries + 1, ofs := 0, ended := false } else m }) false))
      ∧ (3 ≤ l.tries → (x.station a.toNat).st = 1 → exec (.tableExtractResend r a) s = .next (left a.toNat false))
      ∧ (3 ≤ l.tries → (x.station a.toNat).st ≠ 1 → exec (.tableExtractResend r a) s = .next
        (mod (fun y => { y with loads := y.loads.filter fun m => m.tnum != l.tnum }) true)))
    ∧ (¬ (up ∧ x.holder = true) → ∀ a, exec (.stationLost r a) s = .next s ∧ exec (.tableExtractResend r a) s = .next s)

end Sys2Proof

/-- What the ring's traffic commands do (R402, R405 to R408, R413, R415, R432 to R454). -/
def Obligations.RingTraffic : Prop :=
  entryEndRules ∧ deliveryRules ∧ minislotRules ∧ frameRules ∧ slotRules ∧ ringTimerRules

namespace Sys2Proof

/-! ### Keeper's port (R459 to R468, R491) -/

/-- Keeper takes up command `x` of the opcode, with parameters `p`: the port is idle, the packet is well-formed, and the part
state accepts it; in `t` the packet has left the port, and the op journal of a class L command is open (R462, R464, R466, R468,
R491). -/
def Takes (s : State) (via : Via) (opcode : Nat) (p : List Byte) (x : Submitted) (t : State) : Prop :=
  ∃ s1 row, s.accept via = some (s1, x) ∧ x.fault = none ∧ x.pkt.opcode.toNat = opcode ∧ x.pkt.params = p ∧ opRow opcode = some row
    ∧ row.accept.holds s1.power.part p = true ∧ t = if row.long then s1.openJournal opcode p else s1

/-- The command is in progress, and will reply with `status` and `data`; `opened`: its op journal is open (R460, R466, R491). -/
def underWay (s : State) (x : Submitted) (opened : Bool) (status : Nat) (data : List Byte) : State :=
  { s with keeper := { s.keeper with running := some { pkt := x.pkt, smbus := x.smbus, status := BitVec.ofNat 16 status, reply := data, announced := false, opened := opened } } }

/-- The command has started, and will reply with `status` and `data` (R460, R466, R491). -/
def replying (s : State) (x : Submitted) (status : Nat) (data : List Byte) : State :=
  underWay s x ((opRow x.pkt.opcode.toNat).any fun y => y.long) status data

/-- The command, submitted in state `s`, is refused: the op journal is as it was (R462, R491). -/
def refusing (s u : State) (x : Submitted) (status : Nat) (data : List Byte) : State :=
  underWay { u with pcm := { u.pcm with opj := s.pcm.opj } } x false status data

/-- The data of a reply that is not OK: the opcode, REASON 0 and the position (R460). -/
def errorData (x : Submitted) (pos : Nat) : List Byte := natLE 2 x.pkt.opcode.toNat ++ natLE 2 0 ++ natLE 4 pos

/-- The port at the end of a command: idle; the op journal of a class L command is clear, and so is what STATUS has reported; the
reply stands in its transport's buffer, with DONE and MSI-X vector 0 of PF0, or with the SMBus alert (R464, R465, R491, R492). -/
def portClosed (s : State) (r : Running) : State :=
  let told := r.status = 0x50
  let k := { s.keeper with busy := false, running := none, journal := if told then none else s.keeper.journal }
  let t := { s with keeper := k, pcm := { s.pcm with opj := if told ∨ r.opened = true then 0 else s.pcm.opj } }
  let t := if r.smbus then { t with keeper := { t.keeper with smbReply := r.packet, smbPos := 0 }, pins := { t.pins with smbAlertN := true } }
    else { t with keeper := { t.keeper with replyBuf := putBytes t.keeper.replyBuf 0 r.packet, done := true } }.msix 0 0
  t.fire 0x11510

end Sys2Proof

/-- A reply is a well-formed packet that names its status and its command's tag; a malformed command gets an error reply of the
first check of R462 that fails; a submission while busy is counted; a completed command does its last work and replies; the SMBus
buffers fill, empty and rewind (R459 to R466). -/
def Obligations.KeeperPort : Prop :=
  ∀ (s : State) (via : Via),
    (∀ (r : Running) (rest : List Byte), r.reply.length < 2 ^ 32 →
      let p := readPacket (r.packet ++ rest)
      p.opcode = r.status ∧ p.tag = r.pkt.tag ∧ p.fmt = 1 ∧ p.flags = 1 + (r.pkt.flags &&& 2) ∧ p.plen.toNat = r.reply.length ∧ p.params = r.reply ∧ p.crcOk = true)
    ∧ (s.accept via = none → exec (.malformedCommand via) s = .next s)
    ∧ (∀ t x, s.accept via = some (t, x) →
      (x.fault = none → exec (.malformedCommand via) s = .next s)
      ∧ ∀ code, x.fault = some code → exec (.malformedCommand via) s = .next (underWay t x false code (errorData x 0xFFFFFFFF)))
    ∧ (let off := s.power.part = .dormant ∨ s.power.resetting = true ∨ s.power.tripped = true ∨ (via = .smbus ∧ s.keeper.smbOff = true)
      exec (.submissionWhileBusy via) s = .next (if s.keeper.busy = true ∧ ¬ off then s.countErr 0x0C80010 1 else s))
    ∧ (s.keeper.running = none → exec .commandComplete s = .next s)
    ∧ (∀ r, s.keeper.running = some r → s.keeperServes = true → s.switching = none →
      (s.commandDone r = false → exec .commandComplete s = .next s)
      ∧ (r.status ≠ 0 ∨ r.pkt.opcode.toNat ∉ [0x0101, 0x0203, 0x0204, 0x0302, 0x0401, 0x0403, 0x0503, 0x0505, 0x0602, 0x0701, 0x0802] →
        s.commandDone r = true → exec .commandComplete s = .next (portClosed s r).runArms)
      ∧ (r.status = 0 → s.commandDone r = true → ∀ (o : Nat) (t : State), r.pkt.opcode.toNat = o →
        (o, t) ∈ [(0x0101, if fieldLE r.pkt.data 0 1 = 1 then { s with power := { s.power with dormantDue := true } } else s),
          (0x0203, { s with nv := s.nv.selectOther (fieldLE r.pkt.data 0 1) }), (0x0204, s.endReload),
          (0x0602, if lget 0 r.reply 0 = 0 then s else { s with sextant := { s.sextant with selector := (lget 0 r.reply 0).setWidth 2 } }),
          (0x0401, { s with keeper := { s.keeper with needInit := false } }), (0x0403, { s with power := { s.power with part := .held, modesSet := false } }),
          (0x0503, s.ringInserted (Fin.ofNat 4 (fieldLE r.pkt.data 0 1))), (0x0505, s.switchPlan), (0x0802, { s with nv := { s.nv with enrolled := true } })] →
        exec .commandComplete s = .next (portClosed t r).runArms)
      ∧ (r.status = 0 → s.commandDone r = true → r.pkt.opcode.toNat = 0x0302 →
        let d := fieldLE r.pkt.data 0 1
        let t := ((s.readKeys.eraseFrames d).setDomState d .absent).modDom d fun _ => Domain.absent
        exec .commandComplete s = .next (portClosed t { r with reply := natLE 8 (s.readKeys.framesOf d).length }).runArms)
      ∧ (r.status = 0 → s.commandDone r = true → r.pkt.opcode = 0x0701 → exec .commandComplete s = .next ((portClosed s r).startReset).runArms))
    ∧ (let up := s.keeperServes = true ∧ s.keeper.busy = false ∧ s.keeper.smbOff = false
      let t := s.count 0x0C80068 1
      let k := t.keeper
      (¬ up → ∀ l n b, exec (.smbusBlockWrite l b) s = .next s ∧ exec (.smbusBlockRead n b) s = .next s ∧ exec (.smbusBufferReset b) s = .next s)
      ∧ (up → ∀ l n, exec (.smbusBlockWrite l false) s = .next (s.countErr 0x0C80060 1) ∧ exec (.smbusBlockRead n false) s = .next (s.countErr 0x0C80060 1)
        ∧ exec (.smbusBufferReset false) s = .next (s.countErr 0x0C80060 1)
        ∧ exec (.smbusBlockWrite l true) s = .next { t with keeper := { k with asm := (k.asm ++ l).take 4096, asmOver := k.asmOver || decide (4096 < k.asm.length + l.length) } }
        ∧ exec (.smbusBufferReset true) s = .next { t with keeper := { k with asm := [], asmOver := false, smbPos := 0 } }
        ∧ let out := (k.smbReply.drop k.smbPos).take n
          exec (.smbusBlockRead n true) s = .next ({ t with keeper := { k with smbPos := k.smbPos + out.length }, pins := { t.pins with smbAlertN := false } }.send (.smbus out)))
      ∧ exec .smbusAlertResponse s = .next { s with pins := { s.pins with smbAlertN := false } })

namespace Sys2Proof

/-! ### Keeper's reports and settings (R469 to R478, R499 to R504, R516, R534) -/

end Sys2Proof

/-- What Keeper's reporting commands reply, and what SCRUB_SET and KEY_ENROLL change (R351, R470 to R472, R477, R478, R516, R534). -/
def Obligations.KeeperReports : Prop :=
  ∀ (s : State) (via : Via) (opcode : Nat) (p : List Byte) (x : Submitted) (t : State), Takes s via opcode p x t →
    let replies (i : Instr) (u : State) (status : Nat) (data : List Byte) : Prop := exec i s = .next (replying u x status data)
    let refused (i : Instr) (u : State) (status pos : Nat) : Prop := exec i s = .next (refusing s u x status (errorData x pos))
    let bad (i : Instr) (pos : Nat) : Prop := refused i t 0x0013 pos
    (opcode = 0x0001 → replies (.identify via) { t with draws := t.draws + 1 } 0
      (natLE 2 0x3256 ++ [0xA1, if t.nv.fuses.industrial then 0x49 else 0x43] ++ natLE 8 t.nv.fuses.uid.toNat ++ natLE 4 (t.dmc 0).code
        ++ natLE 4 (t.dmc 1).code ++ natLE 8 t.installed ++ [Config.pcieLink, Config.cages t.draws &&& 0x0F, 0, 0]))
    ∧ (opcode = 0x0002 → replies (.status via) t (if t.keeper.journal.isSome then 0x50 else 0) t.statusData)
    ∧ (opcode = 0x0003 → replies (.versions via) t 0 t.versionData)
    ∧ (opcode = 0x0004 →
      let n := fieldLE p 4 2
      (n = 0 ∨ 63 < n → bad (.logRead via) 4)
      ∧ (1 ≤ n → n ≤ 63 → zeros p 6 2 = true → ∃ next l, t.log.readFrom (BitVec.ofNat 32 (fieldLE p 0 4)) n = (next, l)
        ∧ l.length ≤ n ∧ (∀ y ∈ l, y ∈ t.log.recs) ∧ replies (.logRead via) t 0 (natLE 4 next.toNat ++ natLE 2 l.length ++ [0, 0] ++ (l.map Rec.bytes).flatten)))
    ∧ (opcode = 0x0402 →
      let n : Byte := lget 0 p 0
      let set (d : Dmc) : Dmc := { d with period := n, scrubActive := d.scrubActive && n != 0 }
      (168 < n.toNat → bad (.scrubSet via) 0)
      ∧ (n.toNat ≤ 168 → replies (.scrubSet via) ((t.modDmc 0 set).modDmc 1 set) 0 []))
    ∧ (opcode = 0x0801 → replies (.fuseRead via) t 0 (hashBytes t.nv.fuses.vendorHash ++ hashBytes (if t.nv.enrolled then t.nv.custHash else 0)
      ++ [BitVec.ofNat 8 (b2n t.nv.fuses.development + 2 * b2n t.nv.enrolled), if t.nv.fuses.industrial then 0x49 else 0x43] ++ natLE 2 192 ++ anchorPlan t.nv.fuses))
    ∧ (opcode = 0x0802 →
      let h := BitVec.ofNat 384 (beNat (sha384 (p.take 96)))
      (fieldLE p 96 4 ≠ 0x454E524C → bad (.keyEnroll via) 96)
      ∧ (fieldLE p 96 4 = 0x454E524C → t.nv.enrolled = true → refused (.keyEnroll via) t 0x0020 0xFFFFFFFF)
      ∧ (fieldLE p 96 4 = 0x454E524C → t.nv.enrolled = false → (keyPoint (p.take 96)).isSome = true → t.nv.custHash = 0 ∨ t.nv.custHash = h →
        replies (.keyEnroll via) { t with nv := { t.nv with custHash := h } } 0 []))
    ∧ (opcode = 0x0601 →
      let u := { t with sextant := { t.sextant with disagree := false } }
      replies (.sxtReport via) (if t.sxtFlags = u.sxtFlags then u else u.fire 0x11512) 0 t.sxtData)
    ∧ (opcode = 0x0202 →
      let kind := fieldLE p 0 1
      let which := fieldLE p 1 1
      (kind = 0 ∨ 4 < kind → bad (.imageVerify via) 0) ∧ (1 ≤ kind → kind ≤ 4 → 3 < which → bad (.imageVerify via) 1)
      ∧ (1 ≤ kind → kind ≤ 4 → which ≤ 3 →
        (t.imageOf kind which = none → replies (.imageVerify via) t 0 [0, 0, 0, 0, 0, 0, 1, 0])
        ∧ ∀ l, t.imageOf kind which = some l → replies (.imageVerify via) t 0
          (natLE 4 (fieldLE l 8 4) ++ natLE 2 (fieldLE l 12 2) ++ natLE 1 (t.verifyResult kind l) ++ [0])))

namespace Sys2Proof

/-! ### Power, arms and margin plans (R475, R476, R499 to R504, R512, R521, R522) -/

/-- The core rail goes to `v` mV in steps of at most 10 mV, and reads back within 10 mV of it (R512). -/
def railAt (s : State) (v : Nat) : State :=
  let now := s.sextant.vtarget.toNat
  if now = v then s
  else
    let t := (railSteps 65536 now v).foldl (fun t n => t.send (.avs (BitVec.ofNat 16 n))) s
    { t with draws := t.draws + 1, sextant := { t.sextant with vtarget := BitVec.ofNat 16 v, vmeas := BitVec.ofNat 16 (v - 10 + Config.coreReading t.draws % 21) } }

/-- Margin plan `k` applied: the core target, the delay registers, and the SerDes targets that wait for their moment (R520). -/
def planApplied (s : State) (k : BitVec 2) : State :=
  let l := s.marginPlan k
  let t := railAt s (fieldLE l 8 2)
  { t with sextant := { t.sextant with delays := (l.drop 16).take 128, serdesDue := (l.drop 144).take 40, inForce := k, lastPlan := t.pcm.chrono, dlyFaults := [] } }

end Sys2Proof

/-- What Keeper's commands on power, arms, engines and margin plans change, and the first check of each that fails (R475, R476, R499,
R500, R503, R504, R521, R522, R540, R544). -/
def Obligations.KeeperSettings : Prop :=
  ∀ (s : State) (via : Via) (opcode : Nat) (p : List Byte) (x : Submitted) (t : State), Takes s via opcode p x t →
    let replies (i : Instr) (u : State) (status : Nat) (data : List Byte) : Prop := exec i s = .next (replying u x status data)
    let refused (i : Instr) (u : State) (status pos : Nat) : Prop := exec i s = .next (refusing s u x status (errorData x pos))
    let bad (i : Instr) (pos : Nat) : Prop := refused i t 0x0013 pos
    let wrong (i : Instr) : Prop := refused i t 0x0020 0xFFFFFFFF
    let unarmed (u : State) (i : Fin 8) (a : Option Arm) : State :=
      { u with pcm := { u.pcm with arms := u.pcm.arms.set i a, due := u.pcm.due &&& ~~~(1#8 <<< i.val) } }
    let journalAt (u : State) (n : Nat) : State := { u with pcm := { u.pcm with opj := setField (setField u.pcm.opj 16 8 n) 32 32 0 } }
    (opcode = 0x0101 → s.power.busy = false →
      (∀ pos, t.power.targetBad p 0 4 [1, 2, 3] = some pos → bad (.powerSet via) pos)
      ∧ (t.power.targetBad p 0 4 [1, 2, 3] = none →
        let part : Byte := lget 0 p 0
        let v := t.power.targetClusters ((p.drop 4).take 4)
        let leaves := t.power.part ≠ .held ∨ (part ≠ 0xFF ∧ part ≠ 1)
        let runs := (v.any (· == .run)) = false ∨ t.mayRun = true
        (¬ leaves → wrong (.powerSet via)) ∧ (leaves → part = 1 → t.mayDorm = false → wrong (.powerSet via))
        ∧ (leaves → part ≠ 1 → ¬ runs → wrong (.powerSet via))
        ∧ (leaves → part ≠ 1 → runs → replies (.powerSet via) (t.applyTarget v) 0 [])
        ∧ (leaves → part = 1 → t.mayDorm = true → runs → replies (.powerSet via) t 0 [])))
    ∧ (opcode = 0x0102 →
      let i := fieldLE p 0 1
      let cls := fieldLE p 1 1
      let arg := fieldLE p 4 4
      (7 < i → bad (.armWake via) 0) ∧ (i ≤ 7 → cls = 0 ∨ 5 < cls → bad (.armWake via) 1)
      ∧ (i ≤ 7 → 1 ≤ cls → cls ≤ 5 → zeros p 2 1 = true → zeros p 3 1 = true →
        (evargOk cls arg = false → bad (.armWake via) 4)
        ∧ (evargOk cls arg = true → t.power.targetBad p 8 9 [13, 14, 15] = none → lget 0 p 8 ≠ 1 → replies (.armWake via)
          (unarmed t (Fin.ofNat 8 i) (some { evclass := lget 0 p 1, evarg := BitVec.ofNat 32 arg, part := lget 0 p 8, clusters := (p.drop 9).take 4 })) 0 [])))
    ∧ (opcode = 0x0103 →
      let i := fieldLE p 0 1
      (7 < i → i ≠ 0xFF → bad (.disarm via) 0) ∧ (i ≤ 7 → replies (.disarm via) (unarmed t (Fin.ofNat 8 i) none) 0 [])
      ∧ (i = 0xFF → replies (.disarm via) { t with pcm := { t.pcm with arms := Vector.replicate 8 none, due := 0 } } 0 []))
    ∧ (opcode = 0x0701 → (fieldLE p 0 4 ≠ 0x52534554 → bad (.resetPart via) 0) ∧ (fieldLE p 0 4 = 0x52534554 → replies (.resetPart via) t 0 []))
    ∧ (opcode = 0x0702 →
      let e := Fin.ofNat 32 (fieldLE p 0 1)
      (31 < fieldLE p 0 1 → bad (.engineReset via) 0) ∧ (fieldLE p 0 1 ≤ 31 → t.engineFree e = false → wrong (.engineReset via))
      ∧ (fieldLE p 0 1 ≤ 31 → t.engineFree e = true → ∃ u, replies (.engineReset via) u 0 [] ∧
        ((u.eng e).wait = .none ∧ (u.eng e).posts = [] ∧ (u.eng e).sb = [] ∧ (u.eng e).checkstop = false ∧ (u.eng e).micro = none
          ∧ (u.eng e).dtlb = [] ∧ (u.eng e).itlb = [] ∧ (u.eng e).btb = [] ∧ (u.eng e).dcache = [] ∧ (u.eng e).icache = []
          ∧ (u.eng e).lfsr ≠ 0)
        ∧ ∀ n, n < 8 → (u.bank (slotOf e n)) = default ∧ (u.slot (slotOf e n)).state = .idle ∧ (u.slot (slotOf e n)).nest = false
          ∧ (u.slot (slotOf e n)).xlvl = 0 ∧ (u.slot (slotOf e n)).heldExc = none ∧ (u.slot (slotOf e n)).deferred = []))
    ∧ (opcode = 0x0602 → ∀ f avsOk, findable f = true → fieldLE p 2 1 < 2 → zeros p 3 5 = true →
      let k : BitVec 2 := if t.sextant.inForce = 1 then 2 else 1
      let seq := if t.sextant.inForce = 0 then 1 else (fieldLE (t.marginPlan t.sextant.inForce) 4 4 + 1) % 2 ^ 32
      let data (slot result : Nat) : List Byte :=
        natLE 1 slot ++ natLE 1 result ++ natLE 2 f.vcore.toNat ++ natLE 2 f.minMargin.toNat ++ [0, 0] ++ natLE 4 seq ++ List.replicate 4 0
      let u := journalAt { journalAt t 3 with sextant := t.sextant.writeSlot k (planBytes seq f.vcore.toNat f.body) } 4
      let target := fieldLE (u.marginPlan k) 8 2
      (t.sextant.frozen = true → wrong (.replan via f avsOk))
      ∧ (t.sextant.frozen = false → bit (lget (0 : Byte) p 2) 0 = true → replies (.replan via f avsOk) t 0 (data 0 1))
      ∧ (t.sextant.frozen = false → bit (lget (0 : Byte) p 2) 0 = false → avsOk = true ∨ u.sextant.vtarget.toNat = target →
        replies (.replan via f avsOk) (journalAt (planApplied u k) 5) 0 (data k.toNat (if f.reached then 0 else 2)))
      ∧ (t.sextant.frozen = false → bit (lget (0 : Byte) p 2) 0 = false → avsOk = false → u.sextant.vtarget.toNat ≠ target →
        replies (.replan via f avsOk) (planApplied (railAt (railAt u target) u.sextant.vtarget.toNat).railRecord u.sextant.inForce) 0x0040 (errorData x 0xFFFFFFFF)))
    ∧ (opcode = 0x0603 → ∀ avsOk,
      let goal := fieldLE p 0 1
      let k : BitVec 2 := if goal = 0 then 0 else if t.sextant.inForce = 1 then 2 else 1
      (1 < goal → bad (.planRevert via avsOk) 0) ∧ (goal = 1 → planValid (t.marginPlan k) = false → bad (.planRevert via avsOk) 0)
      ∧ (goal = 1 → planValid (t.marginPlan k) = true → t.sextant.frozen = true → wrong (.planRevert via avsOk))
      ∧ (goal = 0 ∨ (goal = 1 ∧ planValid (t.marginPlan k) = true ∧ t.sextant.frozen = false) → avsOk = true →
        let u := planApplied t k
        replies (.planRevert via avsOk) { u with sextant := { u.sextant with selector := k } } 0 []))
    ∧ (opcode = 0x0703 → ∀ pass,
      let mask := fieldLE p 0 4
      let bist := (List.finRange 4).filter fun c => mask / 2 ^ (3 + c.val) % 2 = 1
      let ok := BitVec.ofNat 8 mask &&& pass
      let fails := BitVec.ofNat 8 mask &&& ~~~pass
      (256 ≤ mask → bad (.selftest via pass) 0)
      ∧ (mask < 256 → (∃ c ∈ bist, (t.power.clusters[c]).st ≠ .gated ∨ (t.power.clusters[c]).target ≠ none) → wrong (.selftest via pass))
      ∧ (mask < 256 → (∀ c ∈ bist, (t.power.clusters[c]).st = .gated ∧ (t.power.clusters[c]).target = none) →
        let u := bist.foldl (fun u c => { u with mem := u.mem.zeroSram c.val }) t
        let u := if bit fails 2 then u.countErr 0x0C80048 1 else u
        replies (.selftest via pass) (if bit ok 7 then (let w := u.thaw; if u.sxtFlags = w.sxtFlags then w else w.fire 0x11512) else u) 0
          (natLE 4 ok.toNat ++ natLE 4 fails.toNat)))

namespace Sys2Proof

/-! ### Keeper's commands on domains, keys and memory (R32 to R43, R249, R250, R360, R473, R474, R493, R590) -/

/-- No data-TLB or instruction-TLB entry of any engine satisfies the test. -/
def noEntry (u : State) (f : TlbEntry → Bool) : Prop :=
  ∀ e : Eng, ∀ q ∈ (u.eng e).dtlb ++ (u.eng e).itlb, ∀ y, q.2 = some y → f y = false

/-- The slots of a domain stand as before a first start: IDLE, with a zeroed bank. -/
def slotsClear (t u : State) (d : Nat) : Prop :=
  ∀ i ∈ t.slotsOf d, u.bank i = default ∧ (u.slot i).state = .idle ∧ (u.slot i).qstop = false ∧ (u.slot i).nest = false
    ∧ (u.slot i).heldExc = none ∧ (u.slot i).deferred = []

/-- All 256 queue contexts of a domain are disabled with their fields 0, and every other queue is as it was. -/
def queuesClear (t u : State) (d : Nat) : Prop := ∀ q, u.queue q = if queueDomain q = d then Queue.reset else t.queue q

/-- Nothing of the quiesce sequence of domain `d` is still in progress (R34). -/
def Still (s : State) (d : Nat) : Prop :=
  (s.dom d).state = .quiescing ∧ (∀ i ∈ s.slotsOf d, (s.slot i).qstop = true)
  ∧ (∀ q ∈ s.queues, queueDomain q.1 = d → ∀ r ∈ q.2.reads, r.count ≤ r.done)
  ∧ (∀ q ∈ s.engines, ∀ h, q.2.wait = .host h → h.fn.toNat ≠ d)

end Sys2Proof

/-- What DOMAIN_CREATE, DOMAIN_QUIESCE, DOMAIN_RESUME, DOMAIN_DESTROY, DOMAIN_KEYS, MEM_INIT and ZEROIZE change, the first check of each
that fails, and the end of a quiesce sequence. -/
def Obligations.KeeperDomains : Prop :=
  (∀ (s : State) (d : Nat), (¬ Still s d → s.settle d = s)
    ∧ (Still s d →
      let t := (s.performPosts d).setDomState d .quiesced
      let u := if t.flrActive d = true then t.finishFlr d else t
      s.settle d = (if u.destroying = some d then u.beginErase d else u)
      ∧ (t.dom d).state = .quiesced)
    ∧ (let u := s.startQuiesce d
      (u.dom d).state = .quiescing
      ∧ ∀ i, (u.slot i).still = if i ∈ s.slotsOf d ∧ s.executes i = false then { (s.slot i).still with qstop := true } else (s.slot i).still)
    ∧ (let u := s.beginErase d
      (u.dom d).state = .destroying ∧ (u.dom d).root = none ∧ slotsClear s u d ∧ (∀ i ∈ s.slotsOf d, (u.slot i).pend = 0)
      ∧ queuesClear s u d ∧ noEntry u (fun y => y.dom.toNat == d)))
  ∧ ∀ (s : State) (via : Via) (opcode : Nat) (p : List Byte) (x : Submitted) (t : State), Takes s via opcode p x t →
    let replies (i : Instr) (u : State) (status : Nat) (data : List Byte) : Prop := exec i s = .next (replying u x status data)
    let refused (i : Instr) (u : State) (status pos : Nat) : Prop := exec i s = .next (refusing s u x status (errorData x pos))
    let bad (i : Instr) (pos : Nat) : Prop := refused i t 0x0013 pos
    let wrong (i : Instr) : Prop := refused i t 0x0020 0xFFFFFFFF
    let d := fieldLE p 0 1
    (opcode = 0x0301 →
      let a := readCreate p
      let last := a.eqbase + 64 * 2 ^ a.eqlogn - 1
      let may := (t.dom d).state = .absent ∧ t.verPlan ≠ 0 ∧ t.keeper.needInit = false
      (∀ pos, createFieldBad p = some pos → bad (.domainCreate via) pos)
      ∧ (createFieldBad p = none → ¬ may → wrong (.domainCreate via))
      ∧ (createFieldBad p = none → may → t.slotsOf d = [] → bad (.domainCreate via) 0)
      ∧ (createFieldBad p = none → may → t.slotsOf d ≠ [] → t.faultLevelOk d a.level = false → bad (.domainCreate via) 3)
      ∧ (createFieldBad p = none → may → t.slotsOf d ≠ [] → t.faultLevelOk d a.level = true →
        (a.root % 4096 ≠ 0 ∨ (t.paClass a.root).isNormal = false → bad (.domainCreate via) 8)
        ∧ (a.root % 4096 = 0 → (t.paClass a.root).isNormal = true →
          (∀ f, a.eqbase / 4096 ≤ f → f ≤ last / 4096 → (t.paClass (f * 4096)).isNormal = true ∧ t.keyUnreadable (f * 4096) = false
            ∧ (t.keyOf (f * 4096)).lock.toNat = d) →
          ∃ u : State, replies (.domainCreate via) u 0 [] ∧ slotsClear t u d ∧ queuesClear t u d ∧ noEntry u (fun y => y.dom.toNat == d)
            ∧ u.dom d = { t.dom d with
                state := .active, root := some (BitVec.ofNat 46 a.root), eqbase := BitVec.ofNat 46 a.eqbase, eqlogn := BitVec.ofNat 4 a.eqlogn,
                eqpi := 0, eqpph := false, records := 0, flrq := false, scrambled := a.btb == 1, ftmpol := BitVec.ofNat 2 a.ftm,
                faultlvl := BitVec.ofNat 3 a.level })))
    ∧ (opcode = 0x0303 →
      let flags : Byte := lget 0 p 1
      let resume := bit flags 0 = true
      let i : Instr := if bit flags 0 then .domainResume via else .domainQuiesce via
      (lget (0 : Byte) p 0 = 0 → ¬ Still t d → bad i 0) ∧ (lget (0 : Byte) p 0 ≠ 0 → 2 ≤ flags.toNat → ¬ Still t d → bad i 1)
      ∧ (lget (0 : Byte) p 0 ≠ 0 → flags.toNat < 2 →
        (resume → (t.dom d).state ≠ .quiesced → wrong (.domainResume via))
        ∧ (resume → (t.dom d).state = .quiesced → ∃ u : State, replies (.domainResume via) (u.startCopies d) 0 [] ∧ (u.dom d).state = .active
          ∧ (u.dom d).flrq = false ∧ ∀ i, (u.slot i).still = if i ∈ t.slotsOf d then { (t.slot i).still with qstop := false } else (t.slot i).still)
        ∧ (¬ resume → (t.dom d).state = .absent ∨ (t.dom d).state = .destroying → wrong (.domainQuiesce via))
        ∧ (¬ resume → (t.dom d).state = .quiesced → replies (.domainQuiesce via) t 0 [])
        ∧ (¬ resume → (t.dom d).state = .quiescing → exec (.domainQuiesce via) s = .next ((replying t x 0 []).settle d))
        ∧ (¬ resume → (t.dom d).state = .active → exec (.domainQuiesce via) s = .next ((replying (t.startQuiesce d) x 0 []).settle d))))
    ∧ (opcode = 0x0302 →
      (lget (0 : Byte) p 0 = 0 → ¬ Still t d → bad (.domainDestroy via) 0)
      ∧ (lget (0 : Byte) p 0 ≠ 0 →
        ((t.dom d).state = .absent ∨ (t.dom d).state = .destroying → wrong (.domainDestroy via))
        ∧ ((t.dom d).state = .quiesced → replies (.domainDestroy via) (t.beginErase d) 0 [])
        ∧ ((t.dom d).state = .quiescing → exec (.domainDestroy via) s = .next ((replying t x 0 []).settle d))
        ∧ ((t.dom d).state = .active → exec (.domainDestroy via) s = .next ((replying (t.startQuiesce d) x 0 []).settle d))))
    ∧ (opcode = 0x0304 →
      let n := fieldLE p 0 2
      let rs := (List.range n).map fun i => readRange p (8 + 16 * i)
      let total := (rs.map fun r => r.1.frames).sum
      (n = 0 ∨ 254 < n → bad (.domainKeys via) 0) ∧ (1 ≤ n → n ≤ 254 → zeros p 2 6 = false → bad (.domainKeys via) 2)
      ∧ (1 ≤ n → n ≤ 254 → zeros p 2 6 = true →
        (∀ r ∈ rs, r.2 = true ∧ t.rangeInMemory r.1 = true ∧ t.lostLine r.1 = none ∧ ∀ q ∈ t.mem.keys, r.1.holds q.1 = true → t.erasing (q.1 * 4096) = false) →
        ∃ u : State, replies (.domainKeys via) u 0 (natLE 4 total) ∧ field u.pcm.opj 16 8 = 1#8 ∧ field u.pcm.opj 32 32 = BitVec.ofNat 32 total
          ∧ (∀ f, tget default u.mem.keys f = rs.foldl (fun k r => if r.1.holds f then r.1.key else k) (tget default t.mem.keys f))
          ∧ noEntry u (fun y => rs.any fun r => r.1.holds y.frame.toNat)))
    ∧ (opcode = 0x0401 →
      let may := t.power.part = .held ∨ ((∀ d, 1 ≤ d → d ≤ 255 → (t.dom d).state = .absent) ∧ ∀ c : Fin 4, (t.power.clusters[c]).st = .gated ∧ (t.power.clusters[c]).target = none)
      (¬ may → wrong (.memInit via))
      ∧ (may → ∃ u : State, replies (.memInit via) u 0 (natLE 4 t.initErrors.1.length ++ natLE 4 t.initErrors.2.length)
        ∧ (t.initErrors = ([], []) → (∀ a, a < 0x4000000000 → tget 0 u.mem.bytes a = 0) ∧ (∀ f, f * 4096 < 0x4000000000 → tget default u.mem.keys f = default)
        ∧ (∀ m, (t.dmc m).enabled = true → (u.dmc m).touched = [] ∧ (u.dmc m).full = true ∧ (u.dmc m).trackers = []))))
    ∧ (opcode = 0x0403 →
      (fieldLE p 0 4 ≠ 0x5A45524F → bad (.zeroize via) 0)
      ∧ (fieldLE p 0 4 = 0x5A45524F → ∃ u : State, replies (.zeroize via) u 0 []
        ∧ (∀ d, 1 ≤ d → d ≤ 255 → u.dom d = Domain.absent) ∧ ((∀ r, (t.ring r).stations = []) → ∀ r, (u.ring r).state = .off ∧ (u.ring r).holder = false)
        ∧ (∀ c : Fin 4, (u.power.clusters[c]).st = .gated) ∧ u.pcm.cpll = 0
        ∧ u.mem.bytes = [] ∧ u.mem.keys = [] ∧ u.mem.poison = [] ∧ (∀ e, (u.eng e).cs = default) ∧ u.plan = none ∧ u.banks = [] ∧ u.slots = [] ∧ u.l2 = [] ∧ u.queues = []
        ∧ (∀ m, (u.dmc m).touched = [] ∧ (u.dmc m).full = false)))

namespace Sys2Proof

/-! ### Images, the flash, rings and plans under Keeper (R21, R296, R416 to R419, R424, R480 to R489) -/

/-- The bytes that IMAGE_LOAD checks from a slot of the flash: the image, or the first 288 bytes of an empty slot. -/
def slotBytes (s : State) (kind source : Nat) : List Byte :=
  (s.nv.slotImage kind (source == 2)).getD (s.nv.flashBytes (slotBase kind (source == 2)) 288)

/-- An image that passes the check takes effect, or is held while the part runs; Keeper firmware is always held (R483). -/
def imageTaken (s : State) (kind : Nat) (i : Image) : State :=
  if kind = 1 ∨ s.power.part ≠ .held then s.putHeld kind (some i) else s.putInForce kind i

/-- The order of the image check: a refusal names its stage and its status; an image that passes has a valid header, the fused key, a
valid signature and body hash, valid contents, and unless forced agrees with every other image in force, both ways (R469, R480, R481). -/
def imageRules : Prop :=
  ∀ (nv : NonVolatile) (w : PlanBound) (others : List Image) (forced : Bool) (kind : Nat) (source : Byte) (l : List Byte),
    (∀ f, checkImage nv w others forced kind source l = .error f →
      (f.stage, f.f.code) ∈ [(2, 0x13), (3, 0x30), (4, 0x30), (5, 0x31), (6, 0x13)])
    ∧ (∀ i, checkImage nv w others forced kind source l = .ok i →
      let customer := decide (3 ≤ kind) && nv.enrolled
      let key := (l.drop 96).take 96
      i.header = l.take 288 ∧ i.body = (l.drop 288).take (fieldLE l 32 4) ∧ i.source = source ∧ i.forced = forced
      ∧ fieldLE l 0 4 = 0x4D495843 ∧ fieldLE l 4 1 = kind ∧ fieldLE l 8 4 ≠ 0 ∧ 288 + fieldLE l 32 4 ≤ slotSize kind
      ∧ fieldLE l 5 1 = b2n customer ∧ sha384 key = hashBytes (if customer then nv.custHash else nv.fuses.vendorHash)
      ∧ signatureOk key (sha384 (l.take 192)) ((l.drop 192).take 96) = true ∧ sha384 i.body = (l.drop 40).take 48
      ∧ contentBad w kind i.body = none
      ∧ (forced = false → ∀ o ∈ others, o.refuses i = false ∧ i.refuses o = false))

/-- What the flash holds after an erase and a program; which slot and which boot-header copy IMAGE_COMMIT writes (R486 to R488). -/
def flashRules : Prop :=
  ∀ (v : NonVolatile) (off size : Nat) (l : List Byte), l.length ≤ size →
    let u := v.program off size l
    u.flashBytes off l.length = l ∧ u.flashBytes (off + l.length) (size - l.length) = List.replicate (size - l.length) 0xFF
    ∧ (∀ o n, o + n ≤ off ∨ off + size ≤ o → u.flashBytes o n = v.flashBytes o n) ∧ u = { v with flash := u.flash }

end Sys2Proof

/-- What Keeper's commands on images, rings and plans change, and the first check of each that fails; what CSTORE_RELOAD and
PLAN_SWITCH leave when they complete. -/
def Obligations.KeeperImages : Prop :=
  imageRules ∧ flashRules
  ∧ (∀ (s : State) (i : Image), s.keeper.heldImg[2] = some i →
    let u := s.endReload
    u.keeper.inForce[2] = some i ∧ u.keeper.heldImg[2] = none ∧ u.keeper.reload = none)
  ∧ (∀ (s : State) (cs : CStore),
    let u := s.startReload cs
    let taken (y : Engine) : Engine := { y with
      cs := cs, csGen := s.keeper.generation + 1, csDue := false, micro := none, wait := if y.micro.isSome then .none else y.wait }
    u.keeper = { s.keeper with generation := s.keeper.generation + 1, reload := some cs }
    ∧ ∀ e : Eng, ((s.power.clusters[clusterOf e]).st = .run → (s.eng e).checkstop = false →
        u.eng e = if (s.eng e).atPoint = true then taken (s.eng e) else { s.eng e with csDue := true })
      ∧ ((s.eng e).checkstop = true ∨ (s.power.clusters[clusterOf e]).st ≠ .run ∧ (s.eng e).atPoint = true → u.eng e = taken (s.eng e)))
  ∧ (∀ (s : State) (i : Image), s.keeper.heldImg[3] = some i →
    let u := s.switchPlan
    u.plan = some (readPlan i.body) ∧ u.keeper.inForce[3] = some i ∧ u.keeper.heldImg[3] = none)
  ∧ (∀ (s : State),
    (s.switching = none → s.planAnnounce = s)
    ∧ ∀ r, s.switching = some r →
      let failed := ∃ x ∈ s.rings.toList, x.state = .inserted ∧ x.holder = true ∧ x.loadFailed = true
      let loaded := ∀ x ∈ s.rings.toList, x.state = .inserted → x.holder = true → x.standbyLoad = none ∧ ∀ y ∈ x.stations, y.2.st = 2 → ∀ l ∈ y.2.loads, l.tnum = x.tsel
      let runs (y : Running) : State := { s with keeper := { s.keeper with running := some y } }
      let cyc (x : Ring) : Ring := if x.state = .inserted ∧ x.holder = true then { x with swcyc := some (x.cycle + 20) } else x
      (failed → s.planAnnounce = runs { r with status := 0x40, reply := natLE 2 0x0505 ++ natLE 2 0 ++ natLE 4 0xFFFFFFFF })
      ∧ (¬ failed → loaded → s.planAnnounce = { runs { r with announced := true } with rings := s.rings.map cyc, pcm := { s.pcm with opj := setField s.pcm.opj 16 8 2 } })
      ∧ (¬ failed → ¬ loaded → s.planAnnounce = s))
  ∧ ∀ (s : State) (via : Via) (opcode : Nat) (p : List Byte) (x : Submitted) (t : State), Takes s via opcode p x t →
    let replies (i : Instr) (u : State) (status : Nat) (data : List Byte) : Prop := exec i s = .next (replying u x status data)
    let refused (i : Instr) (u : State) (status pos : Nat) : Prop := exec i s = .next (refusing s u x status (errorData x pos))
    let bad (i : Instr) (pos : Nat) : Prop := refused i t 0x0013 pos
    let wrong (i : Instr) (u : State) : Prop := refused i u 0x0020 0xFFFFFFFF
    let failed (i : Instr) (u : State) : Prop := replies i u 0x0040 (errorData x 0xFFFFFFFF)
    let journalAt (u : State) (n : Nat) : State := { u with pcm := { u.pcm with opj := setField (setField u.pcm.opj 16 8 n) 32 32 0 } }
    let r : RingId := Fin.ofNat 4 (fieldLE p 0 1)
    let ring := fieldLE p 0 1 ≤ 3
    let kind := fieldLE p 0 1
    (opcode = 0x0201 → ∀ host : KeeperRead,
      let source := fieldLE p 1 1
      let n := fieldLE p 4 4
      let forced := bit x.pkt.flags 1
      let i : Instr := .imageLoad via host
      let fits := source ≠ 0 ∨ ∀ l, host = .data l → l.length = n
      let fields := 1 ≤ kind ∧ kind ≤ 4 ∧ source ≤ 2 ∧ zeros p 2 2 = true ∧ (n = 0 ↔ source ≠ 0) ∧ (source = 0 ∨ fieldLE p 8 8 = 0)
      (fits → kind = 0 ∨ 4 < kind → bad i 0) ∧ (fits → 1 ≤ kind → kind ≤ 4 → 2 < source → bad i 1)
      ∧ (fits → fields →
        (forced = true → t.nv.fuses.development = false → bad i 0xFFFFFFFF)
        ∧ (forced = false ∨ t.nv.fuses.development = true →
          let may := (kind = 2 → t.power.part = .held) ∧ (kind = 3 → t.power.part = .held → t.keeper.inForce[1].isSome = true)
          (¬ may → wrong i t)
          ∧ (may →
            let ends (u : State) (l : List Byte) : Prop :=
              let c := checkImage u.nv u.planBound (u.companions kind) forced kind (if source = 0 then 2 else BitVec.ofNat 8 (source - 1)) l
              (∀ f, c = .error f → exec i s = .next (refusing s u x f.f.code (f.f.data x.pkt.opcode)))
              ∧ ∀ im, c = .ok im → replies i (imageTaken u kind im) 0
                (natLE 4 im.version ++ natLE 2 im.epoch ++ [if kind = 1 ∨ u.power.part ≠ .held then 1 else 0, 0])
            (source ≠ 0 → ends t (slotBytes t kind source))
            ∧ (source = 0 → t.mayIssue 0 = true → ∀ l, host = .data l → ends (t.keeperReads (fieldLE p 8 8) n) l)
            ∧ (source = 0 → t.mayIssue 0 = false → failed i (t.hostRecord 0 5 3 0 (fieldLE p 8 8)))
            ∧ ∀ o, (host, o) ∈ [(KeeperRead.ur, 1), (.ca, 2), (.timeout, 3), (.poisoned, 4)] → source = 0 → t.mayIssue 0 = true →
              failed i (((t.keeperReads (fieldLE p 8 8) n).requestFailed 0 o).hostRecord 0 o 3 0 (fieldLE p 8 8))))))
    ∧ (opcode = 0x0203 → ∀ programmed,
      let i : Instr := .imageCommit via programmed
      (kind = 0 ∨ 4 < kind → bad i 0) ∧ (1 ≤ kind → kind ≤ 4 → 1 < fieldLE p 1 1 → bad i 1)
      ∧ (1 ≤ kind → kind ≤ 4 → fieldLE p 1 1 ≤ 1 →
        (t.imageOf kind (fieldLE p 1 1) = none → wrong i t)
        ∧ ∀ l, t.imageOf kind (fieldLE p 1 1) = some l →
          let o := slotBase kind (!t.nv.selected kind)
          (programmed = true → headerBad kind l = none → signatureFault t.nv kind l = none →
            replies i (journalAt { t with nv := t.nv.program o (slotSize kind) l } 3) 0 [])
          ∧ (programmed = false →
            failed i (journalAt { t with nv := t.nv.program o (slotSize kind) ((Config.flashLeft t.draws).take (slotSize kind)), draws := t.draws + 1 } 3))))
    ∧ (opcode = 0x0204 → (t.keeper.heldImg[2] = none ∨ t.keeper.inForce[1] = none → wrong (.cstoreReload via) t)
      ∧ ∀ im, t.keeper.heldImg[2] = some im → t.keeper.inForce[1] ≠ none →
        replies (.cstoreReload via) (t.startReload (customerParts im.body)) 0 [t.keeper.generation + 1, 0, 0, 0])
    ∧ (opcode = 0x0501 → ∀ east west trained,
      let i : Instr := .ringStart via (east, west) trained
      let declared (m : Option (List Byte)) : Prop := ∃ l, m = some l ∧ 31 ≤ (lget 0 l 12).toNat
      let bus := r.val / 2
      let read := (t.send (.sfpRead bus (2 * (r.val % 2)))).send (.sfpRead bus (2 * (r.val % 2) + 1))
      let addr := fieldLE p 1 1
      (¬ ring → bad i 0) ∧ (ring → addr ≠ 0 → addr ≠ 63 → bad i 1) ∧ (ring → addr = 0 ∨ addr = 63 → 1 < fieldLE p 2 1 → bad i 2)
      ∧ (ring → addr = 0 ∨ addr = 63 → fieldLE p 2 1 ≤ 1 →
        let plan := t.plan.bind fun q => (q.ring r).map fun y => (y, q.qmap)
        (plan = none → bad i 0)
        ∧ ∀ y q, plan = some (y, q) →
          let idle := (t.ring r).state = .off ∨ (t.ring r).state = .trained
          (¬ idle → wrong i t) ∧ (idle → ¬ (declared east ∧ declared west ∧ trained = true) → failed i read)
          ∧ (idle → declared east → declared west → trained = true → replies i (read.modRing r fun x => { x with
              east := Port.aligned, west := Port.aligned, state := .trained, addr63 := addr == 63, asHolder := lget 0 p 2 == 0, hold := (addr == 63) == (lget 0 p 2 == 0), tsel := false,
              table0 := some y, table1 := none, qmap0 := q, qmap1 := [], ver := 2, loop := 0, limx := false }) 0 [])))
    ∧ (opcode = 0x0502 → (¬ ring → bad (.ringStop via) 0)
      ∧ (ring → ∃ u, replies (.ringStop via) u 0 [] ∧ (u.ring r).state = .off ∧ (u.ring r).holder = false ∧ u.pins.ringIns[r] = false))
    ∧ (opcode = 0x0503 → ∀ east west other,
      let i : Instr := .ringInsert via (aligned := (east, west)) other
      let comma (l : List Bool) : Prop := ∃ k, (l.drop k).take 7 ∈ [[false, false, true, true, true, true, true], [true, true, false, false, false, false, false]]
      (¬ ring → bad i 0) ∧ (ring → (t.ring r).state ≠ .trained → wrong i t)
      ∧ (ring → (t.ring r).state = .trained → ¬ (comma east ∧ comma west) → failed i t)
      ∧ (ring → (t.ring r).state = .trained → comma east → comma west → ∃ u, u.sent = t.sent ++ [.sideTx r .east false, .sideTx r .west false] ∧ replies i u 0 [] ∧ u.pins.ringIns[r] = true ∧ (u.ring r).state = .inserting
        ∧ (u.ring r).holder = ((t.ring r).asHolder && other.isNone) ∧ (u.ring r).miss = 0 ∧ (u.ring r).loop = 0 ∧ (u.ring r).tsel = (t.ring r).tsel
        ∧ field u.pcm.opj 16 8 = 4#8))
    ∧ (opcode = 0x0504 →
      let i : Instr := .ringBypass via
      (¬ ring → bad i 0) ∧ (ring → (t.ring r).state ≠ .inserted → wrong i t)
      ∧ (ring → (t.ring r).state = .inserted →
        ((t.ring r).holder = true → (t.ring r).sdly ≠ 0 → replies i (t.modRing r fun y => { y with handoff := .asked }) 0 [])
        ∧ ((t.ring r).holder = false ∨ (t.ring r).sdly = 0 → ∃ u, replies i u 0 [] ∧ (u.ring r).state = .trained ∧ (u.ring r).holder = false
          ∧ u.pins.ringIns[r] = false)))
    ∧ (opcode = 0x0505 →
      let i : Instr := .planSwitch via
      (t.heldPlan = none → wrong i t)
      ∧ ∀ y, t.heldPlan = some y → (t.ownersFree y = false → wrong i t)
        ∧ (t.ownersFree y = true → ∃ u, exec i s = .next (replying (journalAt u 1) x 0 []).planAnnounce
          ∧ ∀ r, u.ring r = (t.ring r).loadPlan (y.ring r) y.qmap))

namespace Sys2Proof

/-! ### Timers, arms and cluster transitions (R494, R497, R498, R500, R503, R504, R511) -/

/-- Eight arm bits. -/
def armBits (f : Fin 8 → Bool) : Byte := BitVec.ofNat 8 (((List.finRange 8).map fun i => b2n (f i) * 2 ^ i.val).sum)

/-- The state in which the arms of class TIMER that name timer `t` are due: in WATCH, ACTIVE and DORMANT (R503). -/
def timerReaches (s : State) (t : Fin 32) : State :=
  let reached (i : Fin 8) : Bool := (s.power.part = .watch ∨ s.power.part = .active ∨ s.power.part = .dormant) && (s.pcm.arms[i]).any fun a => a.evclass == 1 && a.evarg.toNat == t.val
  { s with pcm := { s.pcm with due := s.pcm.due ||| armBits reached } }

/-- A timer fires when it is enabled and the Chronometer is at or above its compare value; a periodic one then moves its compare
value past the Chronometer by the fewest periods (R511). -/
def timerRules : Prop :=
  ∀ (s : State) (t : Fin 32),
    let ctl := tget 0 s.pcm.tmrCtl t.val
    let cmp := tget 0 s.pcm.tmrCmp t.val
    let now := s.pcm.chrono.toNat
    let period := (field ctl 32 32).toNat
    let due := bit ctl 0 = true ∧ cmp.toNat ≤ now
    let fires (ctl' cmp' : Word) : Prop :=
      exec (.timerFire t) s = .next ((timerReaches { s with pcm := { s.pcm with tmrCtl := tset 0 s.pcm.tmrCtl t.val ctl', tmrCmp := tset 0 s.pcm.tmrCmp t.val cmp' } } t).fire (0x11000 + t.val))
    (¬ due → exec (.timerFire t) s = .next s)
    ∧ (due → period = 0 → fires (setField (setField ctl 1 1 1) 0 1 0) cmp)
    ∧ (due → period ≠ 0 → ∃ k, 1 ≤ k ∧ cmp.toNat + (k - 1) * period ≤ now ∧ now < cmp.toNat + k * period
      ∧ fires (setField (setField ctl 1 1 1) 16 16 (min 0xFFFF ((field ctl 16 16).toNat + (k - 1)))) (cmp + BitVec.ofNat 64 (k * period)))

/-- Arm `a` at index `i` can fire here, and its event has occurred; the event of a GPIO or SMBUS arm comes with the command (R503). -/
def ArmMay (s : State) (i : Fin 8) (a : Arm) : Prop :=
  s.power.resetting = false ∧ s.power.fatal = false ∧ s.power.tripped = false
  ∧ ((s.power.part = .dormant ∧ ((a.evclass = 1 ∧ bit s.pcm.due i.val = true) ∨ a.evclass = 2 ∨ a.evclass = 3))
    ∨ ((s.power.part = .watch ∨ s.power.part = .active)
      ∧ (a.evclass = 2 ∨ ((a.evclass = 1 ∨ a.evclass = 4 ∨ a.evclass = 5) ∧ bit s.pcm.due i.val = true))))

/-- The arm has fired: cleared, its FIRED bit set, the pin of a GPIO arm after its edge, and the arm at the end of those that wait. -/
def armFired (s : State) (i : Fin 8) (a : Arm) : State :=
  let pin := (field a.evarg 0 3).toNat
  let high := if field a.evarg 4 2 = 1 then true else if field a.evarg 4 2 = 2 then false else !bit s.pins.gpioIn pin
  { s with
    pins := { s.pins with gpioIn := if a.evclass = 2 then setField s.pins.gpioIn pin 1 (b2n high) else s.pins.gpioIn },
    pcm := { s.pcm with arms := s.pcm.arms.set i none, due := s.pcm.due &&& ~~~(BitVec.ofNat 8 (2 ^ i.val)),
                        fired := s.pcm.fired ||| BitVec.ofNat 8 (2 ^ i.val), firing := s.pcm.firing ++ [(i, a)] } }

/-- What stands in the way of a fired arm: a transition, or POWER_SET, MEM_INIT, SELFTEST or ZEROIZE (R504). -/
def ArmsWait (s : State) : Prop :=
  (∃ c : Fin 4, (s.power.clusters[c]).target ≠ none) ∨ s.power.ups ≠ []
  ∨ ∃ r, s.keeper.running = some r ∧ r.pkt.opcode.toNat ∈ [0x0101, 0x0401, 0x0703, 0x0403]

/-- The record of an arm that fired (R531). -/
def armRecord (s : State) (i : Fin 8) (a : Arm) (idle : Bool) : Rec :=
  { seq := 0, sev := 4, kind := 0x10, dom := 0, origin := 0x3A, time := s.pcm.chrono,
    detail := [BitVec.ofNat 8 i.val, a.evclass, BitVec.ofNat 8 (b2n idle)], count := 1, flags := 0 }

/-- The clusters that the target of an arm asks to RUN while no images allow it, and that do not run already (R504). -/
def Barred (s : State) (a : Arm) (c : Fin 4) : Prop :=
  lget (0xFF : Byte) a.clusters c.val = 2 ∧ (s.verCst = 0 ∨ s.verPlan = 0) ∧ (s.power.clusters[c]).st ≠ .run

/-- The cluster states that an arm's target gives: a field of 0xFF, and a cluster that is barred, keep their state (R503, R504). -/
def ArmTarget (s : State) (a : Arm) (v : Vector CState 4) : Prop :=
  ∀ c : Fin 4,
    let b : Byte := lget 0xFF a.clusters c.val
    (Barred s a c → v[c] = (s.power.clusters[c]).st)
    ∧ (¬ Barred s a c → (b = 0 → v[c] = .gated) ∧ (b = 1 → v[c] = .idle) ∧ (b = 2 → v[c] = .run) ∧ (3 ≤ b.toNat → v[c] = (s.power.clusters[c]).st))

/-- A fired arm's target is applied as POWER_SET would, in order, unless something stands in the way; the arm has no effect where a
cluster is barred, where the part meets the target already, and where the target is no part state that the clusters allow (R504). -/
def armRules : Prop :=
  (∀ (s : State) (i : Fin 8),
    (s.pcm.arms[i] = none → exec (.armFire i) s = .next s)
    ∧ ∀ a, s.pcm.arms[i] = some a →
      (¬ ArmMay s i a → exec (.armFire i) s = .next s)
      ∧ (ArmMay s i a → s.power.part ≠ .dormant → exec (.armFire i) s = .next (armFired s i a).runArms)
      ∧ (ArmMay s i a → s.power.part = .dormant →
        let u := armFired s i a
        exec (.armFire i) s = .next (if s.pcm.firing = [] then
            { u with pcm := { u.pcm with wakeArm := BitVec.ofNat 3 i.val, wakeValid := true, wakeClass := a.evclass },
                     pins := { u.pins with wakeN := true, clkreqN := true } }
          else u)))
  ∧ ∀ (s : State), (s.pcm.firing = [] → s.runArms = s) ∧ (ArmsWait s → s.runArms = s)
    ∧ ∀ i a rest, s.pcm.firing = (i, a) :: rest → ¬ ArmsWait s → s.power.part = .watch ∨ s.power.part = .active →
      ∃ (v : Vector CState 4) (fits idle : Bool), ArmTarget s a v
        ∧ (fits = true ↔ (a.part = 2 → ∀ c : Fin 4, v[c] = .gated) ∧ (a.part = 3 → ¬ ∀ c : Fin 4, v[c] = .gated))
        ∧ (idle = true ↔ (∃ c, Barred s a c) ∨ (∀ c : Fin 4, v[c] = (s.power.clusters[c]).st) ∨ fits = false) ∧
        let bits := if idle then s.pcm.noEffect ||| BitVec.ofNat 8 (2 ^ i.val) else s.pcm.noEffect
        let t := ({ s with pcm := { s.pcm with firing := rest, noEffect := bits } }).logRec (armRecord s i a idle)
        s.runArms = (if fits then t.applyTarget v else t).runArms

/-- Every power-down of a target begins at once; its power-ups begin one after another, in ascending order (R500). -/
def startRules : Prop :=
  ∀ (p : Power) (v : Vector CState 4), (∀ c : Fin 4, (p.clusters[c]).target = none) →
    let ups := (List.finRange 4).filter fun c : Fin 4 => decide ((p.clusters[c]).st.code < (v[c]).code)
    let q := p.start v
    (∀ c : Fin 4, (q.clusters[c]).st = (p.clusters[c]).st)
    ∧ (∀ c : Fin 4, (v[c]).code < (p.clusters[c]).st.code → (q.clusters[c]).target = some v[c])
    ∧ (∀ c : Fin 4, v[c] = (p.clusters[c]).st → (q.clusters[c]).target = none)
    ∧ (∀ c : Fin 4, c ∈ ups → (q.clusters[c]).target = if ups.head? = some c then some v[c] else none)
    ∧ q.ups = ups.tail.map (fun c => (c, v[c])) ∧ q.part = p.part ∧ q.modes = p.modes

/-- An engine without its caches, translations and predictions (R497). -/
def emptied (x : Engine) : Engine := { x with dcache := [], icache := [], lineBuf := [], dtlb := [], itlb := [], btb := [] }

/-- What gating and ungating a cluster change: registers and memory are kept, the caches, the TLBs, the BTBs and the cluster's part
of L2 are emptied, and the PLL stops; it locks again as the cluster leaves GATED, and every LFSR takes a nonzero seed (R243, R497,
R498). -/
def gatingRules : Prop :=
  ∀ (s : State) (c : Fin 4),
    (let u := s.gateCluster c
     (∀ e : Eng, u.eng e = if e.val / 8 = c.val then emptied (s.eng e) else s.eng e)
     ∧ u.banks = s.banks ∧ u.slots = s.slots ∧ u.mem.bytes = s.mem.bytes ∧ u.mem.keys = s.mem.keys ∧ u.power = s.power
     ∧ (∀ k, tget [] u.l2 k = if k / 8192 = c.val then [] else tget [] s.l2 k)
     ∧ ∀ k : Fin 4, bit u.pcm.cpll k.val = (bit s.pcm.cpll k.val && decide (k ≠ c)))
    ∧ (let u := s.ungateCluster c
      (∀ e : Eng, (u.eng e) = { s.eng e with lfsr := (u.eng e).lfsr } ∧ (e.val / 8 ≠ c.val → u.eng e = s.eng e)
        ∧ (e.val / 8 = c.val → (u.eng e).lfsr ≠ 0))
      ∧ u.banks = s.banks ∧ u.slots = s.slots ∧ u.mem = s.mem ∧ u.power = s.power
      ∧ ∀ k : Fin 4, bit u.pcm.cpll k.val = (bit s.pcm.cpll k.val || decide (k = c)))
    ∧ ∀ t, s.pcm.firing = [] →
      let u := s.clusterReached c t
      let all : Prop := ∀ k : Fin 4, (if k = c then t else (s.power.clusters[k]).st) = .gated
      (∀ k : Fin 4, (u.power.clusters[k]).st = if k = c then t else (s.power.clusters[k]).st)
      ∧ (s.power.part = .watch ∨ s.power.part = .active → (all → u.power.part = .watch) ∧ (¬ all → u.power.part = .active ∧ ∀ m, (u.dmc m).selfRefresh = false))
      ∧ ((∀ k : Fin 4, k ≠ c → (s.power.clusters[k]).target = none) → ∀ k w rest, s.power.ups = (k, w) :: rest →
        (u.power.clusters[k]).target = some w ∧ u.power.ups = rest)

end Sys2Proof

/-- Timers and arms fire; a cluster that is at its interruption points ends its transition: its engines drain their stores and posts,
the cluster is gated or ungated, and the part state, the next power-up and the arms that waited follow; a stopped level of a domain that
quiesces gets QSTOP (R34, R292, R494 to R504, R511). -/
def Obligations.PowerEvents : Prop :=
  timerRules ∧ armRules ∧ startRules ∧ gatingRules
  ∧ (∀ (s : State) (c : Fin 4),
    let x := s.power.clusters[c]
    let may := s.power.resetting = false ∧ s.power.fatal = false ∧ s.power.tripped = false ∧ s.power.part ≠ .dormant ∧ s.power.part ≠ .boot
      ∧ (x.st = .run → ∀ e : Eng, e.val / 8 = c.val → (s.eng e).checkstop = true ∨ (s.eng e).atPoint = true)
    (x.target = none → exec (.clusterTransitionComplete c) s = .next s)
    ∧ ∀ t, x.target = some t → (¬ may → exec (.clusterTransitionComplete c) s = .next s)
      ∧ (may → ∃ s1, (x.st ≠ .run → s1 = s)
        ∧ (x.st = .run → s1 = (((List.range 8).map fun k => (Fin.ofNat 32 (8 * c.val + k) : Eng))).foldl (fun s e => (s.drainAll e).awaitPosts e) s)
        ∧ exec (.clusterTransitionComplete c) s = .next
          ((if t = .gated then s1.gateCluster c else if x.st = .gated then s1.ungateCluster c else s1).clusterReached c t)))
  ∧ ∀ (s : State) (e : Eng),
    (∀ n, s.running e = some n →
      let i := slotOf e n.val
      let d := s.owner i
      ((s.dom d).state = .quiescing → (s.eng e).atPoint = true →
        exec (.qstopSet e) s = .next (((left s e).modSlot i fun y => { y with qstop := true }).settle d))
      ∧ ((s.dom d).state ≠ .quiescing ∨ (s.eng e).atPoint = false → exec (.qstopSet e) s = .next s))
    ∧ (s.running e = none → exec (.qstopSet e) s = .next s)

namespace Sys2Proof

/-! ### Resets, boot, DORMANT and the wake (R345, R359, R490, R492, R505 to R507, R519, R540 to R545, R576) -/

/-- Everything outside the always-on rail at its reset value: banks, slots, vector tables, engines, caches, domains, queues, rings,
registers, images, Control Store and on-chip memory; every cluster GATED, every ring pin released (R505, R540, R545). -/
structure CoreReset (u : State) : Prop where
  banks : ∀ i, u.bank i = default
  slots : ∀ i, u.slot i = default
  vectors : ∀ i v, u.vector i v = 0
  engines : ∀ e, u.eng e = Engine.reset
  domains : ∀ d, u.dom d = Domain.initial d
  queues : ∀ q, u.queue q = Queue.reset
  functions : ∀ d, u.fn d = PcieFn.reset
  caches : ∀ k, tget [] u.l2 k = []
  registers : ∀ o, u.reg o = 0
  rings : ∀ r, (u.ring r).state = .off ∧ (u.ring r).holder = false ∧ (u.ring r).stations = []
  plan : u.plan = none ∧ u.events = [] ∧ ∀ i, u.owner i = 0
  images : (∀ e, (u.eng e).cs = default) ∧ ∀ k : Fin 4, u.keeper.inForce[k] = none ∧ u.keeper.heldImg[k] = none
  keeper : u.keeper.running = none ∧ u.keeper.submitted = none ∧ u.keeper.busy = true
  clusters : ∀ c : Fin 4, u.power.clusters[c] = ⟨.gated, none⟩
  plls : u.pcm.cpll = 0 ∧ u.pcm.due = 0 ∧ u.pcm.firing = []
  pins : (∀ r : Fin 4, u.pins.ringIns[r] = false) ∧ u.pins.errN = false ∧ u.pins.wakeN = false
  chip : ∀ a, 0x4000000000 ≤ a → u.byteAt a = 0
  control : u.power.fatal = false ∧ u.power.dormantDue = false ∧ u.power.ups = [] ∧ u.power.modesSet = false

/-- What a reset other than power-on, and the entry into DORMANT, keep: the flash and the fuses, PCM's registers, timers and arms, the
log, the margin-plan slots and their selector, and of DRAM what its controllers hold: a dirty line that is lost shows the DRAM's own
older bytes, fills in progress complete, and where the DDR PLL has stopped under a fill nothing can be read any more (R505, R519,
R527, R540, R541). -/
structure CoreLost (s u : State) : Prop where
  reset : CoreReset u
  nonvolatile : u.nv = s.nv
  tap : u.tap = s.tap
  pcm : s.pcm.firing = [] → u.pcm = { s.pcm with dormCnt := u.pcm.dormCnt, cpll := 0, fpll := u.pcm.fpll, dpll := u.pcm.dpll, kpll := u.pcm.kpll, due := 0 }
  log : s.pcm.firing = [] → u.log = s.log
  plans : u.sextant.slotA = s.sextant.slotA ∧ u.sextant.slotB = s.sextant.slotB ∧ u.sextant.selector = s.sextant.selector
    ∧ u.sextant.vtarget = s.sextant.vtarget ∧ u.sextant.inForce = 0 ∧ u.sextant.frozen = false
  needInit : u.keeper.needInit = (s.keeper.needInit || decide (field s.pcm.opj 0 16 = 0x0302 ∨ field s.pcm.opj 0 16 = 0x0401))
  memory : (s.pcm.dpll = true ∨ ∀ m, (s.dmc m).trackers = []) → ∀ a, a < 0x4000000000 →
    let covers (p : Nat × Option (List Byte)) (l : List Byte) : Prop := p.2 = some l ∧ p.1 < 2 ^ 40 ∧ p.1 * 64 ≤ a ∧ a < p.1 * 64 + l.length
    ((∀ p ∈ s.mem.stale, ∀ l, ¬ covers p l) → u.byteAt a = s.byteAt a)
    ∧ ∀ (p : Nat × Option (List Byte)) (l : List Byte), p ∈ s.mem.stale → covers p l → (∀ q ∈ s.mem.stale, ∀ l', covers q l' → q = p) → u.byteAt a = lget 0 l (a - p.1 * 64)
  touched : (s.pcm.dpll = true ∨ ∀ m, (s.dmc m).trackers = []) → ∀ m g,
    (u.dmc m).granule g = if (s.dmc m).granule g = .untouched then .untouched else .touched
  untouched : s.pcm.dpll = false → (∃ m, (s.dmc m).trackers ≠ []) →
    (∀ m g, (u.dmc m).granule g = .untouched) ∧ ∀ a, a < 0x4000000000 → u.byteAt a = 0

/-- The modules that stay enabled: fitted, in the table of R344 and trained; DMC1 is disabled where both remain and differ in type or
device width (R344, R345). -/
def Enabled (v : BootEnv) (m : Fin 2) (x : Module) : Prop :=
  let fitted := if m = 0 then v.module0 else v.module1
  let trained := if m = 0 then v.train0 else v.train1
  let good (y : Module) : Prop := y.typ ≠ .other ∧ (y.ranks = 1 ∨ y.ranks = 2) ∧ (y.width = 8 ∨ y.width = 4 ∧ y.typ = .rdimm)
    ∧ (y.density = 16 ∨ y.density = 24 ∨ y.density = 32) ∧ 4800 ≤ y.rate ∧ 1 ≤ y.gib ∧ y.gib ≤ 128
  fitted = some x ∧ trained = true ∧ good x
  ∧ (m = 1 → ∀ y, v.module0 = some y → v.train0 = true → good y → y.typ = x.typ ∧ y.width = x.width)

/-- Training enables a channel exactly with a module that stays, at one rate for both, the highest that DDRMAX and every fitted module
that supports a listed rate allow, and out of self-refresh; where each channel is as large as the one whose content stands in memory, memory stands as it was (R345,
R489, R541). -/
def trainRules : Prop :=
  ∀ (s : State) (v : BootEnv),
    let u := s.trainDram v
    (∀ (m : Fin 2) (x : Module), ((u.dmc m).kept = some x ↔ Enabled v m x) ∧ ((u.dmc m).enabled = true ↔ ∃ y, Enabled v m y))
    ∧ (∀ m : Fin 2, (u.dmc m).selfRefresh = false ∧ (u.dmc m).module = (if m = 0 then v.module0 else v.module1)
      ∧ ((u.dmc m).enabled = true → (u.dmc m).rate = u.pcm.ddrRate))
    ∧ (let code (x : Module) : Nat := if x.rate < 5200 then 0 else if x.rate < 5600 then 1 else 2
      let cap := if s.keeper.ddrMax = 1 then 0 else if s.keeper.ddrMax = 2 then 1 else 2
      let bounds (x : Module) : Prop := (v.module0 = some x ∨ v.module1 = some x) ∧ 4800 ≤ x.rate
      let r := u.pcm.ddrRate.toNat
      r ≤ cap ∧ (∀ x, bounds x → r ≤ code x) ∧ (r = cap ∨ ∃ x, bounds x ∧ r = code x))
    ∧ ((∀ m : Fin 2, (s.dmc m).before.usable = (u.dmc m).usable) → u.mem = s.mem)

/-- Boot takes an image of a kind from its selected slot, or else from the other, which BOOTALT then says; a kind for which neither slot
qualifies stays as it was, and with an interrupted IMAGE_LOAD or ZEROIZE no image is loaded (R490, R492). -/
def bootImageRules : Prop :=
  (∀ (s : State) (kind : Nat) (pass : Bool → Option Image),
    let sel := s.nv.selected kind
    let u := s.bootImage kind pass
    (∀ i, pass sel = some i → u = s.putInForce kind i)
    ∧ (∀ i, pass sel = none → pass (!sel) = some i → u = { s.putInForce kind i with keeper := { (s.putInForce kind i).keeper with bootAlt := (s.putInForce kind i).keeper.bootAlt ||| BitVec.ofNat 4 (2 ^ (kind - 1)) } })
    ∧ (pass sel = none → pass (!sel) = none → u = s))
  ∧ ∀ s : State,
    let opcode := s.keeper.journal.map fun j => field j 0 16
    let t := s.bootImage 2 (s.slotPasses 2)
    let v := if t.keeper.inForce[1].isSome then t.bootImage 3 (t.slotPasses 3) else t
    (opcode = some 0x0201 ∨ opcode = some 0x0403 → s.bootImages = s)
    ∧ (opcode ≠ some 0x0201 → opcode ≠ some 0x0403 → s.bootImages = v.bootImage 4 (v.slotPasses 4))

/-- The firmware that boot takes: from the selected slot, or else from the other (R490). -/
def FirmwareOf (s : State) (fw : Image) : Prop :=
  let sel := s.nv.selected 1
  s.firmwarePasses sel = some fw ∨ s.firmwarePasses sel = none ∧ s.firmwarePasses (!sel) = some fw

/-- Neither slot's firmware passes, and none is in force. -/
def NoFirmware (s : State) : Prop := (∀ b, s.firmwarePasses b = none) ∧ s.keeper.inForce[0] = none

/-- Steps 1 to 4 of boot, and step 2 of a wake, from `s` to `t`: the configuration block is read, the selected margin plan applied and
the firmware taken; the op journal is copied for the next STATUS reply, and after an interrupted ZEROIZE all of DRAM is UNTOUCHED (R489,
R490, R492, R507, R519). -/
structure Started (s t : State) (fw : Image) : Prop where
  firmware : t.keeper.inForce[0] = some fw
  plls : t.pcm.fpll = true ∧ t.pcm.kpll = true
  config : t.keeper.smbOff = bit s.nv.configBlock.1 0 ∧ t.keeper.uartOff = bit s.nv.configBlock.1 1 ∧ t.keeper.ddrMax = s.nv.configBlock.2
  plan : t.sextant.inForce = if planValid (s.marginPlan s.sextant.selector) = true then s.sextant.selector else 0
  kept : t.nv = s.nv ∧ t.power = s.power ∧ t.pcm.opj = s.pcm.opj ∧ t.pcm.firing = s.pcm.firing
  journal : t.keeper.journal = if field s.pcm.opj 0 16 = 0 then none else some s.pcm.opj
  memory : field s.pcm.opj 0 16 ≠ 0x0403 → t.mem = s.mem ∧ t.dmcs = s.dmcs

/-- The part comes up in state `part`, at step `step`: the command port is idle, and the link trains while REFCLK runs. -/
def upAt (u : State) (part : PState) (step : BitVec 4) : State :=
  { u with power := { u.power with part := part }, keeper := { u.keeper with busy := false, bootStep := step }, hif := { u.hif with linkUp := u.pcm.refclkOk } }

end Sys2Proof

/-- What resets, boot, the entry into DORMANT and the wake from it do. -/
def Obligations.ResetsAndBoot : Prop :=
  trainRules ∧ bootImageRules ∧ ∀ s : State,
    let does (i : Instr) (t : State) : Prop := exec i s = .next t
    let asserted : State := { s with pins := { s.pins with resetN := true } }
    let hot := ∃ k : Fin 5, (if s.nv.fuses.industrial = true then 1600 else 1520) ≤ (s.sextant.temps[k]).toInt
    (∃ u, does .powerOnReset u ∧ CoreReset u ∧ u.nv = s.nv ∧ u.log = default ∧ u.mem = default ∧ u.pcm = State.reset.pcm ∧ u.tap = State.reset.tap
      ∧ u.sextant.slotA = [] ∧ u.sextant.slotB = [] ∧ (∀ m g, (u.dmc m).granule g = .untouched)
      ∧ u.power.part = .boot ∧ u.power.resetting = true ∧ u.power.powerOn = true ∧ u.power.tripped = false ∧ u.pins.pwrOkLow = true)
    ∧ (s.power.resetting = true ∨ (s.power.tripped = true ∧ hot) → does .resetN asserted)
    ∧ (s.power.resetting = false → s.power.tripped = false ∨ ¬ hot → ∃ u, does .resetN u ∧ CoreLost s u
      ∧ u.power.part = .boot ∧ u.power.resetting = true ∧ u.power.powerOn = false ∧ u.power.tripped = false ∧ u.pins.resetN = true)
    ∧ (s.power.resetting = true ∨ s.power.part = .dormant ∨ s.power.tripped = true → does .perstN { s with pins := { s.pins with perstN := true } })
    ∧ (s.power.resetting = false → s.power.part ≠ .dormant → s.power.tripped = false → ∃ u, does .perstN u ∧ CoreLost s u
      ∧ u.power.part = .boot ∧ u.power.resetting = true ∧ u.power.powerOn = false ∧ u.power.tripped = false ∧ u.pins.perstN = true)
    ∧ (s.power.resetting = false → does .resetDeassertion s)
    ∧ (s.power.resetting = true → ∃ u, does .resetDeassertion u ∧ u = { s with power := u.power, dmcs := u.dmcs, pins := u.pins }
      ∧ u.power = { s.power with resetting := false } ∧ u.pins = { s.pins with resetN := false, perstN := false, pwrOkLow := false }
      ∧ ∀ m, u.dmc m = { s.dmc m with selfRefresh := !s.power.powerOn })
    ∧ (let enters := s.power.dormantDue = true ∧ s.keeper.running = none ∧ s.power.resetting = false ∧ s.power.fatal = false ∧ s.power.tripped = false
          ∧ s.power.part ≠ .dormant ∧ s.power.part ≠ .boot
      (¬ enters → does .dormantEntry s)
      ∧ (enters → ∃ u, does .dormantEntry u ∧ CoreLost s u ∧ u.power.part = .dormant ∧ u.pcm.dormCnt = s.pcm.dormCnt + 1
        ∧ u.pcm.fpll = false ∧ u.pcm.dpll = false ∧ u.pcm.kpll = false ∧ u.pins.clkreqN = false ∧ ∀ m, (u.dmc m).selfRefresh = true))
    ∧ (∀ env,
      let boots := s.power.part = .boot ∧ s.power.resetting = false ∧ s.power.tripped = false ∧ s.power.fatal = false ∧ (s.power.powerOn = true ∨ s.pcm.rclkOk = true)
      let clocks := if s.power.powerOn = true then { s.pcm with rclkOk := true, refclkOk := true, xtalOk := true } else s.pcm
      let b : State := { s with pcm := clocks, power := { s.power with powerOn := false } }
      (¬ boots → does (.bootComplete env) s)
      ∧ (boots → NoFirmware s → ∃ u, does (.bootComplete env) u ∧ u.power.part = .recovery ∧ u.keeper.busy = false ∧ u.keeper.bootStep = 3
        ∧ u.keeper.journal = (if field s.pcm.opj 0 16 = 0 then none else some s.pcm.opj) ∧ u.keeper.inForce[0] = none ∧ u.mem = s.mem ∧ u.dmcs = s.dmcs ∧ u.hif.linkUp = u.pcm.refclkOk)
      ∧ (boots → ∀ fw, FirmwareOf s fw → ∃ t, Started b t fw
        ∧ (field s.pcm.opj 0 16 = 0x0403 → (∀ m g, (t.dmc m).granule g = .untouched) ∧ ∀ a, a < 0x4000000000 → t.byteAt a = 0)
        ∧ does (.bootComplete env) (upAt (t.trainDram env).bootImages .held 8)))
    ∧ ∀ env,
      let wakes := s.power.part = .dormant ∧ s.power.resetting = false ∧ s.power.tripped = false ∧ s.power.fatal = false ∧ s.pcm.rclkOk = true
      (s.pcm.firing = [] ∨ ¬ wakes → does (.wakeComplete env) s)
      ∧ ∀ i a rest, s.pcm.firing = (i, a) :: rest → wakes →
        (NoFirmware s → ∃ u, does (.wakeComplete env) u ∧ u.power.part = .recovery ∧ u.keeper.busy = false ∧ u.pcm.firing = []
          ∧ u.keeper.journal = (if field s.pcm.opj 0 16 = 0 then none else some s.pcm.opj) ∧ u.mem = s.mem)
        ∧ ∀ fw, FirmwareOf s fw → ∃ t, Started s t fw
          ∧ (t.keeper.wasWake = true ∧ t.mem = s.mem ∧ t.dmcs = s.dmcs)
          ∧ (let modes : Vector (BitVec 8) 4 := Vector.ofFn fun c : Fin 4 => lget 0 (match (t.trainDram env).bootImages.plan with | some q => q.modes | none => []) c.val
            let w := (t.trainDram env).bootImages
            let u := upAt { w with power := { w.power with modes := modes, modesSet := true } } .watch 7
            let z : State := { u with pins := { u.pins with wakeN := !u.pcm.refclkOk }, pcm := { u.pcm with firing := rest } }
            does (.wakeComplete env) (z.applyArm i a true).runArms)

namespace Sys2Proof

/-! ### Error records, fatal errors and clocks (R506 to R509, R526 to R534, R538, R539, R571) -/

/-- Keeper's log takes a record: it gets the next number, the latest 256 records stay, source 0x1_1511 fires, and MSI-X vector 1 of
PF0 is raised for SEV 1 to 3 (R534). -/
def logRules : Prop :=
  ∀ (s : State) (r : Rec), ∃ l k, s.log.recs ++ [{ r with seq := s.log.next }] = k ++ l ∧ l.length = min 256 (s.log.recs.length + 1)
    ∧ (let t := ({ s with log := { s.log with recs := l, next := s.log.next + 1 } }).fire 0x11511
      s.logRec r = if 1 ≤ r.sev.toNat ∧ r.sev.toNat ≤ 3 then t.msix 0 1 else t)

/-- A record of SEV 1 or 2 for domain `d`: into the log alone for LD0; with REDIR for an absent or destroyed domain; into the slot of
PI of the domain's error queue and, with LOGGED, into the log otherwise; with REDIR and the domain's record number where the queue cannot
be written (R532, R533). -/
def recordRules : Prop :=
  ∀ (s : State) (d : Nat) (sev kind origin : Byte) (detail : List Byte),
    let x := s.dom d
    let base (detail : List Byte) (flags : Byte) : Rec :=
      { seq := 0, sev := sev, kind := kind, dom := BitVec.ofNat 8 d, origin := origin, time := s.pcm.chrono, detail := detail, count := 1, flags := flags }
    let pa := x.eqbase.toNat + 64 * (x.eqpi.toNat % 2 ^ x.eqlogn.toNat)
    let t := s.modDom d fun y => { y with records := y.records + 1 }
    let ends (u : State) : Prop := s.record d sev kind origin detail = u
    (d = 0 → ends (s.logRec (base detail 0)))
    ∧ (d ≠ 0 → x.state = .absent ∨ x.state = .destroying → ends (s.logRec (base detail 2)))
    ∧ (d ≠ 0 → x.state ≠ .absent → x.state ≠ .destroying →
      (t.recordWritable d pa = false → ends (t.logRec (base ((detail ++ List.replicate 36 0).take 36 ++ natLE 4 x.records.toNat) 2)))
      ∧ (t.recordWritable d pa = true →
        let w := t.lineWrite pa ({ base detail (if x.eqpph = true then 0x01 else 0x81) with seq := x.records } : Rec).bytes
        let u := w.modDom d fun y => { y with eqpi := y.eqpi + 1, eqpph := if (y.eqpi.toNat + 1) % 2 ^ y.eqlogn.toNat = 0 then !y.eqpph else y.eqpph }
        ends (((u.count 0x0380058 1).fire (0x11400 + d)).logRec (base detail 1))))

/-- The one-second limit on corrected records of an origin, and the record that counts those that waited (R529). -/
def correctedRules : Prop :=
  ∀ (s : State) (origin : Byte),
    let c := tget default s.log.corrected origin.toNat
    let now := s.pcm.chrono
    let kind : Byte := if origin = 0x39 then 5 else if origin = 0x30 then 8 else 1
    let put (y : Corrected) : State := { s with log := { s.log with corrected := tset default s.log.corrected origin.toNat y } }
    let late := ∀ t, c.last = some t → t.toNat + 100000000 ≤ now.toNat
    (∀ d detail,
      (late → s.corrected origin d detail = (put { c with last := some now, pending := 0 }).logRec
        { seq := 0, sev := 0, kind := kind, dom := BitVec.ofNat 8 d, origin := origin, time := now, detail := detail, count := satAdd c.pending 1, flags := 0 })
      ∧ (¬ late → s.corrected origin d detail = put { c with pending := satAdd c.pending 1, time := now, detail := detail }))
    ∧ (let due := c.last ≠ none ∧ late ∧ c.pending ≠ 0 ∧ s.power.part ≠ .dormant
      (¬ due → exec (.correctedRecordFlush origin) s = .next s)
      ∧ (due → exec (.correctedRecordFlush origin) s = .next ((put { c with last := some now, pending := 0 }).logRec
        { seq := 0, sev := 0, kind := kind, dom := lget 0 c.detail 14, origin := origin, time := c.time, detail := c.detail, count := c.pending, flags := 0 })))

end Sys2Proof

/-- What Keeper's log, the domains' error queues and the limit on corrected records do with an error. -/
def Obligations.ErrorRecords : Prop := logRules ∧ recordRules ∧ correctedRules

namespace Sys2Proof

/-- The part stopped by a fatal error: every ring pin released, ERR_N low, and a record of SEV 3 of PCM in the log; HIF, while its clocks
run, sends ERR_FATAL, and otherwise the link goes down (R538). -/
def stopped (s : State) (kind : Byte) (detail : List Byte) : State :=
  let t : State := { s with power := { s.power with fatal := true }, pins := { s.pins with ringIns := Vector.replicate 4 false, errN := true } }
  let u := t.logRec { seq := 0, sev := 3, kind := kind, dom := 0, origin := 0x3A, time := s.pcm.chrono, detail := detail, count := 1, flags := 0 }
  if s.pcm.fpll = true then u.send .errFatal else { u with hif := { u.hif with linkUp := false } }

end Sys2Proof

/-- A THERMTRIP and the losses of clocks, rails and PLLs: which of them stop the part, what each releases and reports, and what the return
of a clock input brings. -/
def Obligations.FatalErrors : Prop :=
  ∀ s : State,
    let does (i : Instr) (t : State) : Prop := exec i s = .next t
    let off (p : Pcm) : Pcm := { p with cpll := 0, fpll := false, dpll := false, kpll := false }
    let released (t : State) : State := { t with pins := { t.pins with ringIns := Vector.replicate 4 false } }
    (∀ k : Fin 5,
      (s.power.tripped = true → does (.thermtrip k) s)
      ∧ (s.power.tripped = false → ∃ u, does (.thermtrip k) u ∧ u = { s with power := u.power, pcm := u.pcm, pins := u.pins, hif := u.hif }
        ∧ u.power = { s.power with tripped := true, fatal := true } ∧ u.pcm = { off s.pcm with triplog := u.pcm.triplog }
        ∧ bit u.pcm.triplog 0 = true ∧ (field u.pcm.triplog 1 3).toNat = k.val ∧ field u.pcm.triplog 16 48 = field s.pcm.chrono 0 48
        ∧ u.pins = { s.pins with ringIns := Vector.replicate 4 false, thermtripN := true } ∧ u.hif = { s.hif with linkUp := false }))
    ∧ (s.pcm.rclkOk = false → does .rclkLoss s)
    ∧ (s.pcm.rclkOk = true →
      (s.power.part = .dormant → does .rclkLoss { s with pcm := { s.pcm with rclkOk := false } })
      ∧ (s.power.part ≠ .dormant → does .rclkLoss (stopped { s with pcm := off { s.pcm with rclkOk := false } } 6 [1, 0])))
    ∧ does .refclkLoss { s with pcm := { s.pcm with refclkOk := false }, hif := { s.hif with linkUp := false } }
    ∧ does .xtal32Loss { s with pcm := { s.pcm with xtalOk := false } }
    ∧ (∀ n : Fin 7,
      let lock := if n.val < 4 then bit s.pcm.cpll n.val else if n.val = 4 then s.pcm.fpll else if n.val = 5 then s.pcm.dpll else s.pcm.kpll
      (lock = false → does (.pllLockLoss n) s)
      ∧ (lock = true → ∃ p : Pcm, p = { s.pcm with cpll := p.cpll, fpll := p.fpll, dpll := p.dpll, kpll := p.kpll }
        ∧ (∀ c : Fin 4, bit p.cpll c.val = (bit s.pcm.cpll c.val && decide (n.val ≠ c.val)))
        ∧ p.fpll = (s.pcm.fpll && decide (n.val ≠ 4)) ∧ p.dpll = (s.pcm.dpll && decide (n.val ≠ 5)) ∧ p.kpll = (s.pcm.kpll && decide (n.val ≠ 6))
        ∧ does (.pllLockLoss n) (stopped { s with pcm := p } 6 [2, BitVec.ofNat 8 n.val])))
    ∧ (∀ requester pa,
      let runs := s.pcm.fpll = true ∧ s.power.part ≠ .dormant ∧ s.power.resetting = false ∧ s.power.tripped = false
      (¬ runs → does (.fabricTimeout requester pa) s)
      ∧ (runs → does (.fabricTimeout requester pa) (stopped s 7 ([requester, 0, 0, 0, 0, 0, 0, 0] ++ natLE 8 pa.toNat))))
    ∧ (∀ rail, does (.coreRailLow rail) (released s))
    ∧ does (.clockInputRestored .rclk) { s with pcm := { s.pcm with rclkOk := true } }
    ∧ does (.clockInputRestored .xtal32) { s with pcm := { s.pcm with xtalOk := true } }
    ∧ (let t : State := { s with pcm := { s.pcm with refclkOk := true } }
      let trains := s.power.resetting = false ∧ s.power.part ≠ .dormant ∧ s.power.tripped = false ∧ s.pcm.fpll = true
      (trains → does (.clockInputRestored .refclk) { t with hif := { t.hif with linkUp := true }, pins := { t.pins with wakeN := false } })
      ∧ (¬ trains → does (.clockInputRestored .refclk) t))

namespace Sys2Proof

/-! ### What the DRAM controllers do by themselves (R344, R347, R349, R351 to R354, R357, R495, R558) -/

/-- A performance counter of DMC `m` (R558). -/
def dmcCounter (m : Fin 2) (k : Nat) : Nat := 0x0340120 + m.val * 0x20000 + 8 * k

/-- DMC `m` runs: its channel is enabled and the DDR PLL locked, and the part is neither in reset nor DORMANT. -/
def DmcRuns (s : State) (m : Fin 2) : Prop :=
  (s.dmc m).enabled = true ∧ s.pcm.dpll = true ∧ s.power.resetting = false ∧ s.power.part ≠ .dormant

/-- Line `k` is the next that the scrubber reads from line `n` on: the first of a TOUCHED granule that the channel has, the lines of
other granules being skipped (R351, R354). -/
def ScrubNext (d : Dmc) (n k : Nat) : Prop :=
  n ≤ k ∧ k / 16384 < d.capacity / 2 ^ 20 ∧ d.granule (k / 16384) = .touched ∧ ∀ j, n ≤ j → j < k → d.granule (j / 16384) ≠ .touched

/-- The record of an error in memory found by a read: PADDR, SOURCE, TYPE, FINDER, RETRIES, LOC, DEVICE and LOCK (R362). -/
def errorDetail (s : State) (line typ finder retries loc : Nat) (device : Option Nat) : List Byte :=
  memDetail (if line < 2 ^ 40 then line * 64 else line % 2 ^ 32 * 64) (s.memSource line) typ finder retries loc device (s.lineLock line)

/-- What failing bits decode to. SECDED corrects one failing bit of a codeword and detects two; SDDC, for ×4 devices, corrects the
bits of one device and detects those of two; a parity bit finds an odd number (R336, R340, R344, R346). -/
def eccRules : Prop :=
  (∀ w (bits : List Nat), bits ≠ [] →
    let share (b : Nat) : Nat := (bits.filter fun x => x / w == b / w).length
    ((∀ b ∈ bits, share b ≤ 1) → secded w bits = .corrected none)
    ∧ ((∀ b ∈ bits, share b ≤ 2) → (∃ b ∈ bits, share b = 2) → secded w bits = .uncorrectable))
  ∧ (∀ (bits : List Nat) (d : Nat), bits ≠ [] → (∀ b ∈ bits, b % 40 / 4 = d) → sddc bits = .corrected (some d))
  ∧ (∀ (bits : List Nat) (d k : Nat), d ≠ k → (∀ b ∈ bits, b % 40 / 4 = d ∨ b % 40 / 4 = k) → (∃ b ∈ bits, b % 40 / 4 = d) →
    (∃ b ∈ bits, b % 40 / 4 = k) → sddc bits = .uncorrectable)
  ∧ (∀ bits : List Nat, parityFails bits = true ↔ ∃ b ∈ bits, (bits.filter fun x => x / 65 == b / 65).length % 2 = 1)
  ∧ ∀ (d : Dmc) (x : Module) bits, d.module = some x → d.decode bits = if x.width = 4 then sddc bits else secded 40 bits

/-- A read of a line from the memory that holds it decodes to `r` after `k` re-reads, which leave the state `v`: in DRAM an uncorrectable
read is made again at most twice, and each re-read counts (R347, R558). -/
def ReadsAs (s : State) (line : Nat) (r : Ecc) (k : Nat) (v : State) : Prop :=
  match tget none s.mem.errs line with
  | none => r = .clean ∧ k = 0 ∧ v = s
  | some x =>
    let m := s.dmcOf line
    let decode := if s.dramLine line then (s.dmc m).decode else secded8
    let most := if s.dramLine line then 2 else 0
    let left := x.reads.drop (k + 1)
    let t : State := { s with mem := { s.mem with errs := tset none s.mem.errs line (if left = [] then none else some { x with reads := left }) } }
    k ≤ most ∧ (∀ j, j < k → ∃ b, x.reads[j]? = some b ∧ decode b = .uncorrectable)
    ∧ r = (match x.reads[k]? with | none => .clean | some b => decode b) ∧ (k < most → r ≠ .uncorrectable)
    ∧ v = if k = 0 then t else t.countErr (dmcCounter m 7) k

/-- LOC of a DRAM line with failing bits: its rank and its subchannel (R362). -/
def locOf (s : State) (line : Nat) : Nat :=
  match tget none s.mem.errs line with
  | none => 0
  | some x => if s.dramLine line then b2n x.rank + 2 * b2n x.subchannel else 0

/-- A corrected error of a DRAM line: CE and CEADDR of its controller, the counter of its device, and a corrected record of TYPE 0x01,
or 0x05 where a re-read corrected it (R347, R361, R362, R529, R558). -/
def logged (v : State) (line finder k loc : Nat) (device : Option Nat) : State :=
  let m := v.dmcOf line
  let t := v.dmcCe m.val line
  let t := match device with
    | some d => t.countErr (0x0340400 + m.val * 0x20000 + 8 * (20 * (loc % 2) + 10 * (loc / 2) + d)) 1
    | none => t
  t.corrected (BitVec.ofNat 8 (0x20 + m.val)) (v.lineLock line) (errorDetail v line (if k = 0 then 1 else 5) finder k loc device)

/-- What a read of a DRAM line by `finder` comes to: nothing; an error that is corrected and logged; or an uncorrectable one, which
poisons the line and goes, with SEV 1, to the domain that the frame's LOCK names (R346 to R349, R353). -/
def readErrorRules : Prop :=
  ∀ (s : State) (line finder : Nat),
    (∃ r k v, ReadsAs s line r k v)
    ∧ ∀ r k v, ReadsAs s line r k v → s.dramLine line = true → line < 2 ^ 41 →
      let u := s.demandRead line finder
      let loc := locOf s line
      (r = .clean → k = 0 → u = v)
      ∧ (r = .clean → k ≠ 0 → u = logged v line finder k loc none)
      ∧ (∀ d, r = .corrected d → u = logged v line finder k loc d)
      ∧ (r = .uncorrectable → ∃ t : State, u = t.record (t.lineLock line) 1 1 (BitVec.ofNat 8 (0x20 + (s.dmcOf line).val)) (errorDetail t line 2 finder k loc none)
        ∧ (if line < 2 ^ 40 then tget false t.mem.poison line else tget false t.mem.keyPoison line) = true ∧ tget none t.mem.errs line = none ∧ t.mem.bytes = s.mem.bytes)

/-- What the scrubber does with line `line`: nothing more where it is poisoned already; a corrected error is logged, and where no cache
holds the line in M its errors end with the write-back; an uncorrectable one poisons the line, or is logged alone where a cache holds it
in M (R352). -/
def scrubRules : Prop :=
  ∀ (s : State) (m : Fin 2) (line : Nat),
    let w := (s.dramAwake line).count (dmcCounter m 14) 1
    let poisoned := (if line < 2 ^ 40 then tget false w.mem.poison line else tget false w.mem.keyPoison line) = true
    let held := (∃ e : Eng, w.dcHolds e line = some .m) ∨ ∃ c : Fin 4, w.l2Holds c line = some .m
    let loc := locOf w line
    (poisoned → s.scrub m line = w)
    ∧ (¬ poisoned → ∀ r k v, ReadsAs w line r k v → w.dramLine line = true → line < 2 ^ 41 →
      let ends (u : State) : Prop := (held → s.scrub m line = u) ∧ (¬ held → s.scrub m line = u.dropErrs (· == line))
      (r = .clean → k = 0 → s.scrub m line = v)
      ∧ (r = .clean → k ≠ 0 → ends (logged v line 1 k loc none))
      ∧ (∀ d, r = .corrected d → ends (logged v line 1 k loc d))
      ∧ (r = .uncorrectable → held → s.scrub m line = (v.dmcUe m.val line).record (w.lineLock line) 1 1 (BitVec.ofNat 8 (0x20 + (w.dmcOf line).val))
        (errorDetail w line 3 1 k loc none))
      ∧ (r = .uncorrectable → ¬ held → s.scrub m line = v.poisonLine line (w.memSource line) 1 k loc))

/-- Failing bits of cached copies: a copy in a data cache is corrected, or lost, with the line poisoned where it was dirty; one in an L2
is corrected or poisons the line; an instruction line that fails parity is dropped and read again; a store-buffer entry is corrected or
poisons its line as it drains (R348, R558). -/
def cacheErrorRules : Prop :=
  ∀ (s : State) (e : Eng) (c : Fin 4) (line finder : Nat),
    (∀ x, s.dcCopy e line = some x →
      (secded8 x.err = .clean → s.dcCheck e line finder = s)
      ∧ (∀ d, secded8 x.err = .corrected d → s.dcCheck e line finder =
        (s.modDcSet e line (·.map fun y => if y.line = line then { y with err := [] } else y)).correctedLine line (0x40 + e.val) finder 0 0 none)
      ∧ (secded8 x.err = .uncorrectable → x.st ≠ .m → s.dcCheck e line finder = s.dcDrop line e)
      ∧ (secded8 x.err = .uncorrectable → x.st = .m → s.dcCheck e line finder = ((s.wroteBack line).dcDrop line e).poisonLine line (0x40 + e.val) finder 0 0))
    ∧ (∀ x, s.l2Copy c line = some x →
      let mended := s.modL2Set c line (·.map fun y => if y.line = line then { y with err := [] } else y)
      (secded8 x.err = .clean → s.l2Check c line finder = s)
      ∧ (∀ d, secded8 x.err = .corrected d → s.l2Check c line finder = mended.correctedLine line (8 * c.val + line % 8) finder 0 0 none)
      ∧ (secded8 x.err = .uncorrectable → s.l2Check c line finder = mended.poisonLine line (8 * c.val + line % 8) finder 0 0))
    ∧ (let bits := tget [] (s.eng e).icErr line
      (parityFails bits = false → s.icCheck e line = s)
      ∧ (parityFails bits = true → s.icCheck e line = (s.modEng e fun x => { x with
          icache := tset [] x.icache (line % 256) ((tget [] x.icache (line % 256)).filter (· != line)), lineBuf := x.lineBuf.filter (· != line),
          icErr := tset [] x.icErr line [] }).countErr (0x208 + e.val * 0x10000) 1))
    ∧ ∀ y : SbEntry,
      (secded8 y.err = .clean → s.entryCheck e y = s)
      ∧ (∀ d, secded8 y.err = .corrected d → s.entryCheck e y = s.correctedLine (y.block / 4) (0x40 + e.val) 3 0 0 none)
      ∧ (secded8 y.err = .uncorrectable → s.entryCheck e y = s.poisonLine (y.block / 4) (0x40 + e.val) 3 0 0)

/-- The home's directory takes a DRAM line that a cluster is about to hold: entries of lines that no cluster holds are free, and in a full
set of 16 the entry allocated first leaves, and its line is recalled (R341). -/
def directoryRules : Prop :=
  ∀ (s : State) (line : Nat),
    let m := s.dmcOf line
    let live := (s.dmc m).dir.filter fun l => l == line || !s.unheld l
    let mates := live.filter fun l => Config.dirSet line % 32768 == Config.dirSet l % 32768
    (s.dramLine line = false → s.dirAlloc line = s)
    ∧ (s.dramLine line = true →
      (line ∈ live → s.dirAlloc line = s.modDmc m fun d => { d with dir := live })
      ∧ (line ∉ live → mates.length < 16 → s.dirAlloc line = s.modDmc m fun d => { d with dir := live ++ [line] })
      ∧ (line ∉ live → ∀ v rest, mates = v :: rest → 16 ≤ mates.length → s.dirAlloc line =
        ((s.recall v).count (dmcCounter m 9) 1).modDmc m fun d => { d with dir := live.filter (· != v) ++ [line] }))

/-- Line `l` is the first unmarked line of a fill from line `a` on (R357). -/
def FillNext (t : Tracker) (a l : Nat) : Prop := a ≤ l ∧ l < 16384 ∧ l ∉ t.marked ∧ ∀ j, a ≤ j → j < l → j ∈ t.marked

end Sys2Proof

/-- What protects memory and caches, and the directories; self-refresh, refresh, the patrol scrubber and the fill trackers of the DRAM
controllers. -/
def Obligations.DramUpkeep : Prop :=
  eccRules ∧ readErrorRules ∧ scrubRules ∧ cacheErrorRules ∧ directoryRules
  ∧ (∀ (d : Dmc) (g j : Nat), (d.endTracker g).granule j = (if j = g then .touched else d.granule j) ∧ ∀ x : Tracker, x ∈ (d.endTracker g).trackers → x.gran ≠ g ∧ x ∈ d.trackers)
  ∧ ∀ (s : State) (m : Fin 2),
    let does (i : Instr) (t : State) : Prop := exec i s = .next t
    let d := s.dmc m
    (
      let may := DmcRuns s m ∧ s.power.part = .watch ∧ d.selfRefresh = false
      (¬ may → does (.selfRefreshEntry m) s)
      ∧ (may → does (.selfRefreshEntry m) (((d.trackers.foldl (fun t x => t.endFill m x.gran) s).modDmc m fun y => { y with selfRefresh := true }).count (dmcCounter m 4) 1)))
    ∧ (∀ g, let u := s.endFill m g
      u = { s with mem := { s.mem with errs := u.mem.errs }, dmcs := u.dmcs } ∧ (∀ k, u.dmc k = if k = m then d.endTracker g else s.dmc k)
      ∧ ∀ line, tget none u.mem.errs line = if s.dramLine line = true ∧ (s.granOfLine line).1 = m ∧ (s.granOfLine line).2.1 = g
          ∧ d.zeroRead g (s.granOfLine line).2.2 = true then none
        else tget none s.mem.errs line)
    ∧ (
      let may := DmcRuns s m ∧ d.selfRefresh = false
      (¬ may → does (.dramRefresh m) s) ∧ (may → does (.dramRefresh m) ((s.count (dmcCounter m 3) 1).send (.refresh m))))
    ∧ (
      let may := DmcRuns s m ∧ d.period ≠ 0
      (¬ may → does (.patrolScrubRead m) s)
      ∧ (∀ k, may → ScrubNext d d.scrubPos k → ∃ f : Dmc → Dmc, does (.patrolScrubRead m) ((s.scrub m (s.channelLine m k)).modDmc m f)
        ∧ ∀ y : Dmc, (∀ n, ScrubNext y (k + 1) n → f y = { y with scrubPos := n, scrubActive := true })
          ∧ ((∀ n, ¬ ScrubNext y (k + 1) n) → f y = { y with scrubPos := 0, scrubActive := false, passes := y.passes + 1 }))
      ∧ (may → (∀ k, ¬ ScrubNext d d.scrubPos k) →
        (d.scrubPos = 0 → does (.patrolScrubRead m) s)
        ∧ (d.scrubPos ≠ 0 → does (.patrolScrubRead m) (s.modDmc m fun y => { y with scrubPos := 0, scrubActive := false, passes := y.passes + 1 }))))
    ∧ ∀ k,
      (¬ DmcRuns s m ∨ d.trackers[k]? = none → does (.fillTrackerStep m k) s)
      ∧ ∀ t, DmcRuns s m → d.trackers[k]? = some t →
        ((∀ l, ¬ FillNext t t.pos l) → does (.fillTrackerStep m k) (s.modDmc m fun y => y.endTracker t.gran))
        ∧ ∀ l, FillNext t t.pos l →
          let filled := s.dropErrs (· == s.channelLine m (t.gran * 16384 + l))
          let move (y : Dmc) : Dmc := { y with trackers := y.trackers.map fun x => if x.gran = t.gran then { x with pos := l + 1 } else x }
          ((∀ n, ¬ FillNext t (l + 1) n) → does (.fillTrackerStep m k) ((filled.modDmc m fun y => y.endTracker t.gran).count (dmcCounter m 13) 1))
          ∧ (∀ n, FillNext t (l + 1) n → does (.fillTrackerStep m k) ((filled.modDmc m move).count (dmcCounter m 13) 1))

namespace Sys2Proof

/-! ### Sextant's monitors and the die sensors (R513 to R516, R523 to R525) -/

/-- The register of monitor `i` (R514). -/
def monitor (i : Nat) : Nat := 0x0CC0000 + 8 * i

/-- Source 0x1_1512 at a change of a flag of SXT_REPORT from `s` to `u`: FROZEN, DISAGREE, REPLAN_ADVISED or HOT (R515, R516). -/
def Flagged (s u t : State) : Prop :=
  let flags (x : State) : Bool × Bool × Bool × Bool := (x.sextant.frozen, x.sextant.disagree, x.replanAdvised, x.pcm.hot)
  (flags s = flags u → t = u) ∧ (flags s ≠ flags u → t = u.fire 0x11512)

/-- The block of monitor `i` has power (R513). -/
def MonitorPowered (s : State) (i : Nat) : Prop :=
  s.power.resetting = false ∧ s.power.fatal = false ∧ s.power.tripped = false ∧ s.power.part ≠ .dormant ∧ s.power.part ≠ .boot
  ∧ (∀ c : Fin 4, i / 20 = c.val → (s.power.clusters[c]).st ≠ .gated) ∧ ∀ r : RingId, i = 89 + r.val → (s.ring r).state ≠ .off

/-- A voted sample `v` of monitor `i`: SLACK, and the least of the hour (R513, R523). -/
def sampled (s : State) (i : Nat) (v : BitVec 16) : State :=
  let least : BitVec 16 := match tget none s.sextant.least i with | none => v | some w => if v.toInt < w.toInt then v else w
  let t := s.setReg (monitor i) (setField (s.reg (monitor i)) 0 16 v.toNat)
  { t with sextant := { t.sextant with least := tset none t.sextant.least i (some least) } }

/-- Sextant frozen: the Anchor plan is applied, with the selector unchanged (R523). -/
def frozen (s : State) : State :=
  if s.sextant.frozen = true then s else planApplied { s with sextant := { s.sextant with frozen := true } } 0

/-- A record of SEV 2 of Sextant with DETAIL `detail` (R531). -/
def sextantRecord (s : State) (detail : List Byte) : State :=
  s.logRec { seq := 0, sev := 2, kind := 5, dom := 0, origin := 0x39, time := s.pcm.chrono, detail := detail, count := 1, flags := 0 }

/-- HOT is in force after the sensors read `v`: some sensor above the grade's level, or HOT before and some sensor within 3 °C of the level
(R525). -/
def HotAfter (level : Int) (hot : Bool) (v : Vector (BitVec 16) 5) : Prop :=
  (∃ k : Fin 5, level < (v[k]).toInt) ∨ (hot = true ∧ ∃ k : Fin 5, level - 48 < (v[k]).toInt)

end Sys2Proof

/-- A monitor's sample: the vote, a disagreement of one comparator and of all; Sextant's hourly record, a fault of a delay register, and a
reading of the die sensors (R513 to R516, R523 to R525). -/
def Obligations.SextantEvents : Prop :=
  ∀ s : State,
    let does (i : Instr) (t : State) : Prop := exec i s = .next t
    let up := s.power.resetting = false ∧ s.power.fatal = false ∧ s.power.tripped = false ∧ s.power.part ≠ .dormant ∧ s.power.part ≠ .boot
    (∀ (i : Fin 96) (a b c : BitVec 16),
      let k := if i.val < 80 then i.val / 20 else 0
      let doubt (t : State) : State :=
        let t := t.setReg (monitor i.val) (setField (t.reg (monitor i.val)) 16 1 1)
        let t := { t with sextant := { t.sextant with discnt := satAdd t.sextant.discnt 1, disagree := true } }
        t.corrected 0x39 0 [1, BitVec.ofNat 8 k, BitVec.ofNat 8 i.val, 0]
      let ends (u : State) : Prop := ∃ t, does (.monitorSample i a b c) t ∧ Flagged s u t
      (¬ MonitorPowered s i.val → does (.monitorSample i a b c) s)
      ∧ (MonitorPowered s i.val →
        (a = b → b = c → ends (sampled s i.val a))
        ∧ (∀ v, (a = v ∧ b = v ∧ c ≠ v) ∨ (a = v ∧ c = v ∧ b ≠ v) ∨ (b = v ∧ c = v ∧ a ≠ v) → ends (doubt (sampled s i.val v)))
        ∧ (a ≠ b → a ≠ c → b ≠ c →
          ends (frozen (sextantRecord (s.setReg (monitor i.val) (setField (s.reg (monitor i.val)) 17 1 1)) [2, BitVec.ofNat 8 k, BitVec.ofNat 8 i.val, 0])))))
    ∧ (∀ hours,
      (¬ up → does (.sextantHourly hours) s)
      ∧ (up →
        let h := s.sextant.history ++ [s.sextant.least]
        let told (v : Vector (BitVec 32) 10) : State := ({ s with sextant := { s.sextant with history := h, least := [], hours := v } }).fire 0x11512
        (s.sextant.history.length < 23 → does (.sextantHourly hours) (told (Vector.replicate 10 0xFFFFFFFF#32)))
        ∧ (23 ≤ s.sextant.history.length → does (.sextantHourly hours) (told hours))))
    ∧ (∀ (c : Fin 4) (j : Fin 32),
      let detail (f : Byte) : List Byte := [f, BitVec.ofNat 8 c.val, BitVec.ofNat 8 j.val, 0]
      let fault (t : State) : Prop := does (.delayRegisterFault c j) (t.fire 0x11512)
      let again := (c, j) ∈ s.sextant.dlyFaults
      let t := s.corrected 0x39 0 (detail 3)
      (¬ up → does (.delayRegisterFault c j) s)
      ∧ (up → ¬ again → fault { t with sextant := { t.sextant with dlyFaults := t.sextant.dlyFaults ++ [(c, j)] } })
      ∧ (up → again → s.sextant.inForce ≠ 0 → fault (frozen t))
      ∧ (up → again → s.sextant.inForce = 0 → fault (sextantRecord s (detail 4))))
    ∧ ∀ v : Vector (BitVec 16) 5,
      let level : Int := if s.nv.fuses.industrial = true then 1600 else 1520
      (s.power.part = .dormant ∧ s.power.tripped = false → does (.thermalSample v) s)
      ∧ (s.power.part ≠ .dormant ∨ s.power.tripped = true →
        ∃ (m : BitVec 16) (hot : Bool) (t : State), (∃ k : Fin 5, v[k] = m) ∧ (∀ k : Fin 5, (v[k]).toInt ≤ m.toInt) ∧ (hot = true ↔ HotAfter level s.pcm.hot v)
          ∧ does (.thermalSample v) t
          ∧ (
            let u : State := { s with sextant := { s.sextant with temps := v }, pcm := { s.pcm with tjmax := m, hot := hot } }
            let p : Pcm := { u.pcm with hotCnt := satAdd s.pcm.hotCnt 1, hotOvf := s.pcm.hotOvf || decide (0xFFFE ≤ s.pcm.hotCnt.toNat) }
            Flagged s (if hot = true ∧ s.pcm.hot = false then ({ u with pcm := p }).fire 0x11513 else u) t))

namespace Sys2Proof

/-! ### The test access port (R582 to R586) -/

/-- The bits of the instruction register's capture, least significant first: 0b0000_0001 (R583). -/
def capture : List Bool := [true, false, false, false, false, false, false, false]

/-- Bits shifted through a data register: those that come out are the first, and the register keeps the last (R583). -/
def Through (register shift out left : List Bool) : Prop :=
  register ++ shift = out ++ left ∧ out.length = shift.length ∧ left.length = register.length

end Sys2Proof

/-- The instruction register, the boundary register and what the shifts deliver, under every instruction of the port: EXTEST and its kin act
as BYPASS unless RESET_N is low, and then capture levels that the balls carry; nothing outside the port changes (R582 to R586). -/
def Obligations.TestAccess : Prop :=
  (∀ s : State, s.ballDrive = if s.pins.resetN = false then .part
    else if s.tap.ir = 0x00 ∨ s.tap.ir = 0x04 ∨ s.tap.ir = 0x08 ∨ s.tap.ir = 0x09 then .boundary else if s.tap.ir = 0x05 then .released else .part)
  ∧ ∀ s : State,
    let does (i : Instr) (ir : BitVec 8) (boundary tdo : List Bool) (draws : Nat) : Prop :=
      exec i s = .next { s with tap := { s.tap with ir := ir, boundary := boundary, tdo := tdo }, draws := draws }
    let plain (i : Instr) (ir : BitVec 8) (out : List Bool) : Prop := does i ir s.tap.boundary (capture ++ out) s.draws
    exec .tapReset s = .next { s with tap := { s.tap with ir := 0x01, trace := false } }
    ∧ (s.tracePort = if s.nv.fuses.development = true ∧ s.tap.trace = true then Config.traceData s.draws else 0)
    ∧ (∃ id : List Bool, plain .idcode 0x01 id ∧ id.length = 32 ∧ ∀ k, k < 32 → id[k]? = some (Nat.testBit 0x132564E7 k))
    ∧ (∀ balls shift, balls.length ≠ 1118 → exec (.samplePreload balls shift) s = .next s)
    ∧ (∀ balls shift, balls.length = 1118 → ∃ out left, Through balls shift out left ∧ does (.samplePreload balls shift) 0x02 left (capture ++ out) s.draws)
    ∧ plain .clamp 0x04 [] ∧ plain .highz 0x05 []
    ∧ (∃ code : BitVec 8, code ∉ [0x00, 0x01, 0x02, 0x04, 0x05, 0x08, 0x09]
      ∧ exec .bypass s = .next { s with
        tap := { s.tap with ir := code, tdo := capture, trace := s.tap.trace || (s.nv.fuses.development && code == traceCode) }, draws := s.draws + 1 })
    ∧ 0x80 ≤ traceCode.toNat ∧ traceCode.toNat ≤ 0x9F
    ∧ ∀ p ∈ [(Instr.extest, (0x00 : BitVec 8)), (.extestPulse, 0x08), (.extestTrain, 0x09)], ∀ shift,
      (s.pins.resetN = false → ∃ out left, Through [false] shift out left ∧ plain (p.1 shift) p.2 out)
      ∧ (s.pins.resetN = true → ∃ balls out left, balls.length = 1118 ∧ Through balls shift out left ∧ does (p.1 shift) p.2 left (capture ++ out) (s.draws + 1))

namespace Sys2Proof

/-! ### The step, reset, and what every step keeps -/

end Sys2Proof

/-- A step takes the command at the front of the queue and runs it with the queue's rest; with no command waiting, the part idles for
one tick. Where no ring is in the loop and no running engine waits, that moves the Chronometer, by 1 and in DORMANT by 390,625/128, and
lets bits fail in a part that is up; a waiting engine spends 15 cycles. That an idle step is a tick is the model's choice (log entry
3). -/
def Obligations.StepFront : Prop :=
  (∀ (c : Instr) (rest : List Instr) (s : State), s.pending = c :: rest → step s = exec c { s with pending := rest })
  ∧ ∀ s : State, s.pending = [] → step s = .next (idle s) ∧
    ((∀ r : RingId, (s.ring r).state ≠ .inserted ∧ (s.ring r).state ≠ .inserting) → (∀ e, (s.eng e).wait = .none ∨ s.clusterRuns e = false) →
      let n := s.pcm.frac.toNat + 390625
      let p : Pcm := if s.power.part = .dormant then { s.pcm with chrono := s.pcm.chrono + BitVec.ofNat 64 (n / 128), frac := BitVec.ofNat 7 n }
        else { s.pcm with chrono := s.pcm.chrono + 1 }
      let down := s.power.part = .dormant ∨ s.power.resetting = true ∨ s.power.fatal = true ∨ s.power.tripped = true
      let up : State := { s with pcm := p, draws := s.draws + 1 }
      (down → idle s = { s with pcm := p }) ∧ (¬ down → Config.upset s.draws = none → idle s = up)
      ∧ (¬ down → ∀ u, Config.upset s.draws = some u → idle s = up.upset u))
    ∧ ∀ e n t, s.running e = some n → s.clusterRuns e = true → (s.eng e).micro = none →
      (∃ d, (s.eng e).wait = .wfe d) ∨ (s.eng e).wait = .wuntil t →
      s.tickWait e = (s.cycles e (pswFTM (s.bank (slotOf e n.val)).psw) 15).tick e 11 15

/-- Right after power-on reset everything outside the always-on rail is at its reset value, the part is in BOOT with its command
port busy, the log is empty and its sequence 0, the Chronometer is 0, the op journal is clear, both margin-plan slots are empty
with the Anchor plan in force, every granule is UNTOUCHED, no memory byte is listed and every address reads 0, CLKREQ_N alone is
driven low, and no command waits. -/
def Obligations.ResetState : Prop :=
  let u := State.reset
  CoreReset u ∧ u.alive = true ∧ u.sound ∧ u.mem = default ∧ (∀ a, u.byteAt a = 0)
  ∧ u.power.part = .boot ∧ u.keeper.busy = true ∧ u.log.recs = [] ∧ u.log.next = 0
  ∧ u.pcm.chrono = 0 ∧ u.pcm.opj = 0 ∧ u.pcm.rclkOk = false ∧ (∀ i : Fin 8, u.pcm.arms[i] = none)
  ∧ u.sextant.slotA = [] ∧ u.sextant.slotB = [] ∧ u.sextant.selector = 0 ∧ u.sextant.inForce = 0 ∧ u.sextant.frozen = false
  ∧ (∀ m g, (u.dmc m).granule g = .untouched) ∧ (∀ m, (u.dmc m).period = 24)
  ∧ u.tap.ir = 1 ∧ u.pins.clkreqN = true ∧ u.pins.errN = false ∧ u.pins.thermtripN = false ∧ u.pins.wakeN = false
  ∧ u.sent = [] ∧ u.pending = []

/-- Every step from every state whose memory is in canonical form answers a next state whose memory is; it takes one command from
the queue and adds none, and changes no fuse and no customer key that is enrolled. -/
def Obligations.StepsKeep : Prop :=
  ∀ s : State, s.sound → ∃ t, step s = .next t ∧ t.sound ∧ t.pending = s.pending.tail ∧ t.nv.fuses = s.nv.fuses
    ∧ (s.nv.enrolled = true → t.nv.enrolled = true ∧ t.nv.custHash = s.nv.custHash)

end
end

