-- ==== Sys2Proof/Laws/State.lean ====
section
/-! SUPPORT. What each update of State leaves unchanged, field by field: every lemma is true by `rfl` and a simp lemma, so
that no later proof unfolds a record update. Then what the accessors read after an update. -/

namespace Sys2Proof.Machine

/-! ### Sparse tables -/

@[simp] theorem tget_nil {α : Type} (d : α) (k : Nat) : tget d [] k = d := rfl

theorem tget_tput_self {α : Type} (d : α) (t : Tbl α) (k : Nat) (v : α) : tget d (tput t k v) k = v := by
  induction t with
  | nil => simp [tput, tget]
  | cons p r ih =>
    obtain ⟨k', v'⟩ := p
    simp only [tput]
    split
    · simp [tget]
    · split
      · simp [tget]
      · rename_i h1 h2
        simp [tget, Ne.symm h2, ih]

theorem tget_tput_ne {α : Type} (d : α) (t : Tbl α) (k j : Nat) (v : α) (h : j ≠ k) :
    tget d (tput t k v) j = tget d t j := by
  induction t with
  | nil => simp [tput, tget, Ne.symm h]
  | cons p r ih =>
    obtain ⟨k', v'⟩ := p
    simp only [tput]
    split
    · simp [tget, Ne.symm h]
    · split
      · rename_i h1 h2
        subst h2
        simp [tget, Ne.symm h]
      · simp only [tget]
        split
        · rfl
        · exact ih

theorem tget_tdel_self {α : Type} (d : α) (t : Tbl α) (k : Nat) : tget d (tdel t k) k = d := by
  induction t with
  | nil => rfl
  | cons p r ih =>
    obtain ⟨k', v'⟩ := p
    by_cases h : k' = k
    · simpa [tdel, h] using ih
    · simpa [tdel, tget, h] using ih

theorem tget_tdel_ne {α : Type} (d : α) (t : Tbl α) (k j : Nat) (h : j ≠ k) : tget d (tdel t k) j = tget d t j := by
  induction t with
  | nil => rfl
  | cons p r ih =>
    obtain ⟨k', v'⟩ := p
    by_cases h' : k' = k
    · subst h'
      simpa [tdel, tget, Ne.symm h] using ih
    · by_cases h2 : k' = j
      · subst h2
        simp [tdel, tget, h']
      · simpa [tdel, tget, h', h2] using ih

/-- What was written at a key is read back. -/
@[simp] theorem tget_tset_self {α : Type} [DecidableEq α] (d : α) (t : Tbl α) (k : Nat) (v : α) :
    tget d (tset d t k v) k = v := by
  unfold tset
  split
  · rename_i h
    rw [h]
    exact tget_tdel_self d t k
  · exact tget_tput_self d t k v

/-- A write leaves every other key alone, whichever default that key has. -/
theorem tget_tset_ne {α : Type} [DecidableEq α] (d d' : α) (t : Tbl α) (k j : Nat) (v : α) (h : j ≠ k) :
    tget d' (tset d t k v) j = tget d' t j := by
  unfold tset
  split
  · exact tget_tdel_ne d' t k j h
  · exact tget_tput_ne d' t k j v h

/-- A read after a write, whichever key it names. -/
theorem tget_tset {α : Type} [DecidableEq α] (d : α) (t : Tbl α) (k j : Nat) (v : α) :
    tget d (tset d t k v) j = if j = k then v else tget d t j := by
  by_cases h : j = k
  · simp [h]
  · simp [h, tget_tset_ne]

/-! ### What each update leaves unchanged -/


@[simp] theorem State.modSlot_banks (s : State) (i : Nat) (f : Slot → Slot) : (s.modSlot i f).banks = s.banks := rfl
@[simp] theorem State.modSlot_vectors (s : State) (i : Nat) (f : Slot → Slot) : (s.modSlot i f).vectors = s.vectors := rfl
@[simp] theorem State.modSlot_engines (s : State) (i : Nat) (f : Slot → Slot) : (s.modSlot i f).engines = s.engines := rfl
@[simp] theorem State.modSlot_homes (s : State) (i : Nat) (f : Slot → Slot) : (s.modSlot i f).homes = s.homes := rfl
@[simp] theorem State.modSlot_l2 (s : State) (i : Nat) (f : Slot → Slot) : (s.modSlot i f).l2 = s.l2 := rfl
@[simp] theorem State.modSlot_mem (s : State) (i : Nat) (f : Slot → Slot) : (s.modSlot i f).mem = s.mem := rfl
@[simp] theorem State.modSlot_dmcs (s : State) (i : Nat) (f : Slot → Slot) : (s.modSlot i f).dmcs = s.dmcs := rfl
@[simp] theorem State.modSlot_domains (s : State) (i : Nat) (f : Slot → Slot) : (s.modSlot i f).domains = s.domains := rfl
@[simp] theorem State.modSlot_queues (s : State) (i : Nat) (f : Slot → Slot) : (s.modSlot i f).queues = s.queues := rfl
@[simp] theorem State.modSlot_hif (s : State) (i : Nat) (f : Slot → Slot) : (s.modSlot i f).hif = s.hif := rfl
@[simp] theorem State.modSlot_rings (s : State) (i : Nat) (f : Slot → Slot) : (s.modSlot i f).rings = s.rings := rfl
@[simp] theorem State.modSlot_pairs (s : State) (i : Nat) (f : Slot → Slot) : (s.modSlot i f).pairs = s.pairs := rfl
@[simp] theorem State.modSlot_plan (s : State) (i : Nat) (f : Slot → Slot) : (s.modSlot i f).plan = s.plan := rfl
@[simp] theorem State.modSlot_events (s : State) (i : Nat) (f : Slot → Slot) : (s.modSlot i f).events = s.events := rfl
@[simp] theorem State.modSlot_owners (s : State) (i : Nat) (f : Slot → Slot) : (s.modSlot i f).owners = s.owners := rfl
@[simp] theorem State.modSlot_planDue (s : State) (i : Nat) (f : Slot → Slot) : (s.modSlot i f).planDue = s.planDue := rfl
@[simp] theorem State.modSlot_keeper (s : State) (i : Nat) (f : Slot → Slot) : (s.modSlot i f).keeper = s.keeper := rfl
@[simp] theorem State.modSlot_nv (s : State) (i : Nat) (f : Slot → Slot) : (s.modSlot i f).nv = s.nv := rfl
@[simp] theorem State.modSlot_power (s : State) (i : Nat) (f : Slot → Slot) : (s.modSlot i f).power = s.power := rfl
@[simp] theorem State.modSlot_pcm (s : State) (i : Nat) (f : Slot → Slot) : (s.modSlot i f).pcm = s.pcm := rfl
@[simp] theorem State.modSlot_sextant (s : State) (i : Nat) (f : Slot → Slot) : (s.modSlot i f).sextant = s.sextant := rfl
@[simp] theorem State.modSlot_log (s : State) (i : Nat) (f : Slot → Slot) : (s.modSlot i f).log = s.log := rfl
@[simp] theorem State.modSlot_pins (s : State) (i : Nat) (f : Slot → Slot) : (s.modSlot i f).pins = s.pins := rfl
@[simp] theorem State.modSlot_tap (s : State) (i : Nat) (f : Slot → Slot) : (s.modSlot i f).tap = s.tap := rfl
@[simp] theorem State.modSlot_csr (s : State) (i : Nat) (f : Slot → Slot) : (s.modSlot i f).csr = s.csr := rfl
@[simp] theorem State.modSlot_sent (s : State) (i : Nat) (f : Slot → Slot) : (s.modSlot i f).sent = s.sent := rfl
@[simp] theorem State.modSlot_draws (s : State) (i : Nat) (f : Slot → Slot) : (s.modSlot i f).draws = s.draws := rfl
@[simp] theorem State.modSlot_pending (s : State) (i : Nat) (f : Slot → Slot) : (s.modSlot i f).pending = s.pending := rfl

@[simp] theorem State.modBank_slots (s : State) (i : Nat) (f : Bank → Bank) : (s.modBank i f).slots = s.slots := rfl
@[simp] theorem State.modBank_vectors (s : State) (i : Nat) (f : Bank → Bank) : (s.modBank i f).vectors = s.vectors := rfl
@[simp] theorem State.modBank_engines (s : State) (i : Nat) (f : Bank → Bank) : (s.modBank i f).engines = s.engines := rfl
@[simp] theorem State.modBank_homes (s : State) (i : Nat) (f : Bank → Bank) : (s.modBank i f).homes = s.homes := rfl
@[simp] theorem State.modBank_l2 (s : State) (i : Nat) (f : Bank → Bank) : (s.modBank i f).l2 = s.l2 := rfl
@[simp] theorem State.modBank_mem (s : State) (i : Nat) (f : Bank → Bank) : (s.modBank i f).mem = s.mem := rfl
@[simp] theorem State.modBank_dmcs (s : State) (i : Nat) (f : Bank → Bank) : (s.modBank i f).dmcs = s.dmcs := rfl
@[simp] theorem State.modBank_domains (s : State) (i : Nat) (f : Bank → Bank) : (s.modBank i f).domains = s.domains := rfl
@[simp] theorem State.modBank_queues (s : State) (i : Nat) (f : Bank → Bank) : (s.modBank i f).queues = s.queues := rfl
@[simp] theorem State.modBank_hif (s : State) (i : Nat) (f : Bank → Bank) : (s.modBank i f).hif = s.hif := rfl
@[simp] theorem State.modBank_rings (s : State) (i : Nat) (f : Bank → Bank) : (s.modBank i f).rings = s.rings := rfl
@[simp] theorem State.modBank_pairs (s : State) (i : Nat) (f : Bank → Bank) : (s.modBank i f).pairs = s.pairs := rfl
@[simp] theorem State.modBank_plan (s : State) (i : Nat) (f : Bank → Bank) : (s.modBank i f).plan = s.plan := rfl
@[simp] theorem State.modBank_events (s : State) (i : Nat) (f : Bank → Bank) : (s.modBank i f).events = s.events := rfl
@[simp] theorem State.modBank_owners (s : State) (i : Nat) (f : Bank → Bank) : (s.modBank i f).owners = s.owners := rfl
@[simp] theorem State.modBank_planDue (s : State) (i : Nat) (f : Bank → Bank) : (s.modBank i f).planDue = s.planDue := rfl
@[simp] theorem State.modBank_keeper (s : State) (i : Nat) (f : Bank → Bank) : (s.modBank i f).keeper = s.keeper := rfl
@[simp] theorem State.modBank_nv (s : State) (i : Nat) (f : Bank → Bank) : (s.modBank i f).nv = s.nv := rfl
@[simp] theorem State.modBank_power (s : State) (i : Nat) (f : Bank → Bank) : (s.modBank i f).power = s.power := rfl
@[simp] theorem State.modBank_pcm (s : State) (i : Nat) (f : Bank → Bank) : (s.modBank i f).pcm = s.pcm := rfl
@[simp] theorem State.modBank_sextant (s : State) (i : Nat) (f : Bank → Bank) : (s.modBank i f).sextant = s.sextant := rfl
@[simp] theorem State.modBank_log (s : State) (i : Nat) (f : Bank → Bank) : (s.modBank i f).log = s.log := rfl
@[simp] theorem State.modBank_pins (s : State) (i : Nat) (f : Bank → Bank) : (s.modBank i f).pins = s.pins := rfl
@[simp] theorem State.modBank_tap (s : State) (i : Nat) (f : Bank → Bank) : (s.modBank i f).tap = s.tap := rfl
@[simp] theorem State.modBank_csr (s : State) (i : Nat) (f : Bank → Bank) : (s.modBank i f).csr = s.csr := rfl
@[simp] theorem State.modBank_sent (s : State) (i : Nat) (f : Bank → Bank) : (s.modBank i f).sent = s.sent := rfl
@[simp] theorem State.modBank_draws (s : State) (i : Nat) (f : Bank → Bank) : (s.modBank i f).draws = s.draws := rfl
@[simp] theorem State.modBank_pending (s : State) (i : Nat) (f : Bank → Bank) : (s.modBank i f).pending = s.pending := rfl

@[simp] theorem State.modEng_banks (s : State) (e : Eng) (f : Engine → Engine) : (s.modEng e f).banks = s.banks := rfl
@[simp] theorem State.modEng_slots (s : State) (e : Eng) (f : Engine → Engine) : (s.modEng e f).slots = s.slots := rfl
@[simp] theorem State.modEng_vectors (s : State) (e : Eng) (f : Engine → Engine) : (s.modEng e f).vectors = s.vectors := rfl
@[simp] theorem State.modEng_homes (s : State) (e : Eng) (f : Engine → Engine) : (s.modEng e f).homes = s.homes := rfl
@[simp] theorem State.modEng_l2 (s : State) (e : Eng) (f : Engine → Engine) : (s.modEng e f).l2 = s.l2 := rfl
@[simp] theorem State.modEng_mem (s : State) (e : Eng) (f : Engine → Engine) : (s.modEng e f).mem = s.mem := rfl
@[simp] theorem State.modEng_dmcs (s : State) (e : Eng) (f : Engine → Engine) : (s.modEng e f).dmcs = s.dmcs := rfl
@[simp] theorem State.modEng_domains (s : State) (e : Eng) (f : Engine → Engine) : (s.modEng e f).domains = s.domains := rfl
@[simp] theorem State.modEng_queues (s : State) (e : Eng) (f : Engine → Engine) : (s.modEng e f).queues = s.queues := rfl
@[simp] theorem State.modEng_hif (s : State) (e : Eng) (f : Engine → Engine) : (s.modEng e f).hif = s.hif := rfl
@[simp] theorem State.modEng_rings (s : State) (e : Eng) (f : Engine → Engine) : (s.modEng e f).rings = s.rings := rfl
@[simp] theorem State.modEng_pairs (s : State) (e : Eng) (f : Engine → Engine) : (s.modEng e f).pairs = s.pairs := rfl
@[simp] theorem State.modEng_plan (s : State) (e : Eng) (f : Engine → Engine) : (s.modEng e f).plan = s.plan := rfl
@[simp] theorem State.modEng_events (s : State) (e : Eng) (f : Engine → Engine) : (s.modEng e f).events = s.events := rfl
@[simp] theorem State.modEng_owners (s : State) (e : Eng) (f : Engine → Engine) : (s.modEng e f).owners = s.owners := rfl
@[simp] theorem State.modEng_planDue (s : State) (e : Eng) (f : Engine → Engine) : (s.modEng e f).planDue = s.planDue := rfl
@[simp] theorem State.modEng_keeper (s : State) (e : Eng) (f : Engine → Engine) : (s.modEng e f).keeper = s.keeper := rfl
@[simp] theorem State.modEng_nv (s : State) (e : Eng) (f : Engine → Engine) : (s.modEng e f).nv = s.nv := rfl
@[simp] theorem State.modEng_power (s : State) (e : Eng) (f : Engine → Engine) : (s.modEng e f).power = s.power := rfl
@[simp] theorem State.modEng_pcm (s : State) (e : Eng) (f : Engine → Engine) : (s.modEng e f).pcm = s.pcm := rfl
@[simp] theorem State.modEng_sextant (s : State) (e : Eng) (f : Engine → Engine) : (s.modEng e f).sextant = s.sextant := rfl
@[simp] theorem State.modEng_log (s : State) (e : Eng) (f : Engine → Engine) : (s.modEng e f).log = s.log := rfl
@[simp] theorem State.modEng_pins (s : State) (e : Eng) (f : Engine → Engine) : (s.modEng e f).pins = s.pins := rfl
@[simp] theorem State.modEng_tap (s : State) (e : Eng) (f : Engine → Engine) : (s.modEng e f).tap = s.tap := rfl
@[simp] theorem State.modEng_csr (s : State) (e : Eng) (f : Engine → Engine) : (s.modEng e f).csr = s.csr := rfl
@[simp] theorem State.modEng_sent (s : State) (e : Eng) (f : Engine → Engine) : (s.modEng e f).sent = s.sent := rfl
@[simp] theorem State.modEng_draws (s : State) (e : Eng) (f : Engine → Engine) : (s.modEng e f).draws = s.draws := rfl
@[simp] theorem State.modEng_pending (s : State) (e : Eng) (f : Engine → Engine) : (s.modEng e f).pending = s.pending := rfl

@[simp] theorem State.modDom_banks (s : State) (d : Nat) (f : Domain → Domain) : (s.modDom d f).banks = s.banks := rfl
@[simp] theorem State.modDom_slots (s : State) (d : Nat) (f : Domain → Domain) : (s.modDom d f).slots = s.slots := rfl
@[simp] theorem State.modDom_vectors (s : State) (d : Nat) (f : Domain → Domain) : (s.modDom d f).vectors = s.vectors := rfl
@[simp] theorem State.modDom_engines (s : State) (d : Nat) (f : Domain → Domain) : (s.modDom d f).engines = s.engines := rfl
@[simp] theorem State.modDom_homes (s : State) (d : Nat) (f : Domain → Domain) : (s.modDom d f).homes = s.homes := rfl
@[simp] theorem State.modDom_l2 (s : State) (d : Nat) (f : Domain → Domain) : (s.modDom d f).l2 = s.l2 := rfl
@[simp] theorem State.modDom_mem (s : State) (d : Nat) (f : Domain → Domain) : (s.modDom d f).mem = s.mem := rfl
@[simp] theorem State.modDom_dmcs (s : State) (d : Nat) (f : Domain → Domain) : (s.modDom d f).dmcs = s.dmcs := rfl
@[simp] theorem State.modDom_queues (s : State) (d : Nat) (f : Domain → Domain) : (s.modDom d f).queues = s.queues := rfl
@[simp] theorem State.modDom_hif (s : State) (d : Nat) (f : Domain → Domain) : (s.modDom d f).hif = s.hif := rfl
@[simp] theorem State.modDom_rings (s : State) (d : Nat) (f : Domain → Domain) : (s.modDom d f).rings = s.rings := rfl
@[simp] theorem State.modDom_pairs (s : State) (d : Nat) (f : Domain → Domain) : (s.modDom d f).pairs = s.pairs := rfl
@[simp] theorem State.modDom_plan (s : State) (d : Nat) (f : Domain → Domain) : (s.modDom d f).plan = s.plan := rfl
@[simp] theorem State.modDom_events (s : State) (d : Nat) (f : Domain → Domain) : (s.modDom d f).events = s.events := rfl
@[simp] theorem State.modDom_owners (s : State) (d : Nat) (f : Domain → Domain) : (s.modDom d f).owners = s.owners := rfl
@[simp] theorem State.modDom_planDue (s : State) (d : Nat) (f : Domain → Domain) : (s.modDom d f).planDue = s.planDue := rfl
@[simp] theorem State.modDom_keeper (s : State) (d : Nat) (f : Domain → Domain) : (s.modDom d f).keeper = s.keeper := rfl
@[simp] theorem State.modDom_nv (s : State) (d : Nat) (f : Domain → Domain) : (s.modDom d f).nv = s.nv := rfl
@[simp] theorem State.modDom_power (s : State) (d : Nat) (f : Domain → Domain) : (s.modDom d f).power = s.power := rfl
@[simp] theorem State.modDom_pcm (s : State) (d : Nat) (f : Domain → Domain) : (s.modDom d f).pcm = s.pcm := rfl
@[simp] theorem State.modDom_sextant (s : State) (d : Nat) (f : Domain → Domain) : (s.modDom d f).sextant = s.sextant := rfl
@[simp] theorem State.modDom_log (s : State) (d : Nat) (f : Domain → Domain) : (s.modDom d f).log = s.log := rfl
@[simp] theorem State.modDom_pins (s : State) (d : Nat) (f : Domain → Domain) : (s.modDom d f).pins = s.pins := rfl
@[simp] theorem State.modDom_tap (s : State) (d : Nat) (f : Domain → Domain) : (s.modDom d f).tap = s.tap := rfl
@[simp] theorem State.modDom_csr (s : State) (d : Nat) (f : Domain → Domain) : (s.modDom d f).csr = s.csr := rfl
@[simp] theorem State.modDom_sent (s : State) (d : Nat) (f : Domain → Domain) : (s.modDom d f).sent = s.sent := rfl
@[simp] theorem State.modDom_draws (s : State) (d : Nat) (f : Domain → Domain) : (s.modDom d f).draws = s.draws := rfl
@[simp] theorem State.modDom_pending (s : State) (d : Nat) (f : Domain → Domain) : (s.modDom d f).pending = s.pending := rfl

@[simp] theorem State.modQueue_banks (s : State) (q : Nat) (f : Queue → Queue) : (s.modQueue q f).banks = s.banks := rfl
@[simp] theorem State.modQueue_slots (s : State) (q : Nat) (f : Queue → Queue) : (s.modQueue q f).slots = s.slots := rfl
@[simp] theorem State.modQueue_vectors (s : State) (q : Nat) (f : Queue → Queue) : (s.modQueue q f).vectors = s.vectors := rfl
@[simp] theorem State.modQueue_engines (s : State) (q : Nat) (f : Queue → Queue) : (s.modQueue q f).engines = s.engines := rfl
@[simp] theorem State.modQueue_homes (s : State) (q : Nat) (f : Queue → Queue) : (s.modQueue q f).homes = s.homes := rfl
@[simp] theorem State.modQueue_l2 (s : State) (q : Nat) (f : Queue → Queue) : (s.modQueue q f).l2 = s.l2 := rfl
@[simp] theorem State.modQueue_mem (s : State) (q : Nat) (f : Queue → Queue) : (s.modQueue q f).mem = s.mem := rfl
@[simp] theorem State.modQueue_dmcs (s : State) (q : Nat) (f : Queue → Queue) : (s.modQueue q f).dmcs = s.dmcs := rfl
@[simp] theorem State.modQueue_domains (s : State) (q : Nat) (f : Queue → Queue) : (s.modQueue q f).domains = s.domains := rfl
@[simp] theorem State.modQueue_hif (s : State) (q : Nat) (f : Queue → Queue) : (s.modQueue q f).hif = s.hif := rfl
@[simp] theorem State.modQueue_rings (s : State) (q : Nat) (f : Queue → Queue) : (s.modQueue q f).rings = s.rings := rfl
@[simp] theorem State.modQueue_pairs (s : State) (q : Nat) (f : Queue → Queue) : (s.modQueue q f).pairs = s.pairs := rfl
@[simp] theorem State.modQueue_plan (s : State) (q : Nat) (f : Queue → Queue) : (s.modQueue q f).plan = s.plan := rfl
@[simp] theorem State.modQueue_events (s : State) (q : Nat) (f : Queue → Queue) : (s.modQueue q f).events = s.events := rfl
@[simp] theorem State.modQueue_owners (s : State) (q : Nat) (f : Queue → Queue) : (s.modQueue q f).owners = s.owners := rfl
@[simp] theorem State.modQueue_planDue (s : State) (q : Nat) (f : Queue → Queue) : (s.modQueue q f).planDue = s.planDue := rfl
@[simp] theorem State.modQueue_keeper (s : State) (q : Nat) (f : Queue → Queue) : (s.modQueue q f).keeper = s.keeper := rfl
@[simp] theorem State.modQueue_nv (s : State) (q : Nat) (f : Queue → Queue) : (s.modQueue q f).nv = s.nv := rfl
@[simp] theorem State.modQueue_power (s : State) (q : Nat) (f : Queue → Queue) : (s.modQueue q f).power = s.power := rfl
@[simp] theorem State.modQueue_pcm (s : State) (q : Nat) (f : Queue → Queue) : (s.modQueue q f).pcm = s.pcm := rfl
@[simp] theorem State.modQueue_sextant (s : State) (q : Nat) (f : Queue → Queue) : (s.modQueue q f).sextant = s.sextant := rfl
@[simp] theorem State.modQueue_log (s : State) (q : Nat) (f : Queue → Queue) : (s.modQueue q f).log = s.log := rfl
@[simp] theorem State.modQueue_pins (s : State) (q : Nat) (f : Queue → Queue) : (s.modQueue q f).pins = s.pins := rfl
@[simp] theorem State.modQueue_tap (s : State) (q : Nat) (f : Queue → Queue) : (s.modQueue q f).tap = s.tap := rfl
@[simp] theorem State.modQueue_csr (s : State) (q : Nat) (f : Queue → Queue) : (s.modQueue q f).csr = s.csr := rfl
@[simp] theorem State.modQueue_sent (s : State) (q : Nat) (f : Queue → Queue) : (s.modQueue q f).sent = s.sent := rfl
@[simp] theorem State.modQueue_draws (s : State) (q : Nat) (f : Queue → Queue) : (s.modQueue q f).draws = s.draws := rfl
@[simp] theorem State.modQueue_pending (s : State) (q : Nat) (f : Queue → Queue) : (s.modQueue q f).pending = s.pending := rfl

@[simp] theorem State.modRing_banks (s : State) (r : RingId) (f : Ring → Ring) : (s.modRing r f).banks = s.banks := rfl
@[simp] theorem State.modRing_slots (s : State) (r : RingId) (f : Ring → Ring) : (s.modRing r f).slots = s.slots := rfl
@[simp] theorem State.modRing_vectors (s : State) (r : RingId) (f : Ring → Ring) : (s.modRing r f).vectors = s.vectors := rfl
@[simp] theorem State.modRing_engines (s : State) (r : RingId) (f : Ring → Ring) : (s.modRing r f).engines = s.engines := rfl
@[simp] theorem State.modRing_homes (s : State) (r : RingId) (f : Ring → Ring) : (s.modRing r f).homes = s.homes := rfl
@[simp] theorem State.modRing_l2 (s : State) (r : RingId) (f : Ring → Ring) : (s.modRing r f).l2 = s.l2 := rfl
@[simp] theorem State.modRing_mem (s : State) (r : RingId) (f : Ring → Ring) : (s.modRing r f).mem = s.mem := rfl
@[simp] theorem State.modRing_dmcs (s : State) (r : RingId) (f : Ring → Ring) : (s.modRing r f).dmcs = s.dmcs := rfl
@[simp] theorem State.modRing_domains (s : State) (r : RingId) (f : Ring → Ring) : (s.modRing r f).domains = s.domains := rfl
@[simp] theorem State.modRing_queues (s : State) (r : RingId) (f : Ring → Ring) : (s.modRing r f).queues = s.queues := rfl
@[simp] theorem State.modRing_hif (s : State) (r : RingId) (f : Ring → Ring) : (s.modRing r f).hif = s.hif := rfl
@[simp] theorem State.modRing_pairs (s : State) (r : RingId) (f : Ring → Ring) : (s.modRing r f).pairs = s.pairs := rfl
@[simp] theorem State.modRing_plan (s : State) (r : RingId) (f : Ring → Ring) : (s.modRing r f).plan = s.plan := rfl
@[simp] theorem State.modRing_events (s : State) (r : RingId) (f : Ring → Ring) : (s.modRing r f).events = s.events := rfl
@[simp] theorem State.modRing_owners (s : State) (r : RingId) (f : Ring → Ring) : (s.modRing r f).owners = s.owners := rfl
@[simp] theorem State.modRing_planDue (s : State) (r : RingId) (f : Ring → Ring) : (s.modRing r f).planDue = s.planDue := rfl
@[simp] theorem State.modRing_keeper (s : State) (r : RingId) (f : Ring → Ring) : (s.modRing r f).keeper = s.keeper := rfl
@[simp] theorem State.modRing_nv (s : State) (r : RingId) (f : Ring → Ring) : (s.modRing r f).nv = s.nv := rfl
@[simp] theorem State.modRing_power (s : State) (r : RingId) (f : Ring → Ring) : (s.modRing r f).power = s.power := rfl
@[simp] theorem State.modRing_pcm (s : State) (r : RingId) (f : Ring → Ring) : (s.modRing r f).pcm = s.pcm := rfl
@[simp] theorem State.modRing_sextant (s : State) (r : RingId) (f : Ring → Ring) : (s.modRing r f).sextant = s.sextant := rfl
@[simp] theorem State.modRing_log (s : State) (r : RingId) (f : Ring → Ring) : (s.modRing r f).log = s.log := rfl
@[simp] theorem State.modRing_pins (s : State) (r : RingId) (f : Ring → Ring) : (s.modRing r f).pins = s.pins := rfl
@[simp] theorem State.modRing_tap (s : State) (r : RingId) (f : Ring → Ring) : (s.modRing r f).tap = s.tap := rfl
@[simp] theorem State.modRing_csr (s : State) (r : RingId) (f : Ring → Ring) : (s.modRing r f).csr = s.csr := rfl
@[simp] theorem State.modRing_sent (s : State) (r : RingId) (f : Ring → Ring) : (s.modRing r f).sent = s.sent := rfl
@[simp] theorem State.modRing_draws (s : State) (r : RingId) (f : Ring → Ring) : (s.modRing r f).draws = s.draws := rfl
@[simp] theorem State.modRing_pending (s : State) (r : RingId) (f : Ring → Ring) : (s.modRing r f).pending = s.pending := rfl

@[simp] theorem State.modPair_banks (s : State) (g c : Nat) (f : Pair → Pair) : (s.modPair g c f).banks = s.banks := rfl
@[simp] theorem State.modPair_slots (s : State) (g c : Nat) (f : Pair → Pair) : (s.modPair g c f).slots = s.slots := rfl
@[simp] theorem State.modPair_vectors (s : State) (g c : Nat) (f : Pair → Pair) : (s.modPair g c f).vectors = s.vectors := rfl
@[simp] theorem State.modPair_engines (s : State) (g c : Nat) (f : Pair → Pair) : (s.modPair g c f).engines = s.engines := rfl
@[simp] theorem State.modPair_homes (s : State) (g c : Nat) (f : Pair → Pair) : (s.modPair g c f).homes = s.homes := rfl
@[simp] theorem State.modPair_l2 (s : State) (g c : Nat) (f : Pair → Pair) : (s.modPair g c f).l2 = s.l2 := rfl
@[simp] theorem State.modPair_mem (s : State) (g c : Nat) (f : Pair → Pair) : (s.modPair g c f).mem = s.mem := rfl
@[simp] theorem State.modPair_dmcs (s : State) (g c : Nat) (f : Pair → Pair) : (s.modPair g c f).dmcs = s.dmcs := rfl
@[simp] theorem State.modPair_domains (s : State) (g c : Nat) (f : Pair → Pair) : (s.modPair g c f).domains = s.domains := rfl
@[simp] theorem State.modPair_queues (s : State) (g c : Nat) (f : Pair → Pair) : (s.modPair g c f).queues = s.queues := rfl
@[simp] theorem State.modPair_hif (s : State) (g c : Nat) (f : Pair → Pair) : (s.modPair g c f).hif = s.hif := rfl
@[simp] theorem State.modPair_rings (s : State) (g c : Nat) (f : Pair → Pair) : (s.modPair g c f).rings = s.rings := rfl
@[simp] theorem State.modPair_plan (s : State) (g c : Nat) (f : Pair → Pair) : (s.modPair g c f).plan = s.plan := rfl
@[simp] theorem State.modPair_events (s : State) (g c : Nat) (f : Pair → Pair) : (s.modPair g c f).events = s.events := rfl
@[simp] theorem State.modPair_owners (s : State) (g c : Nat) (f : Pair → Pair) : (s.modPair g c f).owners = s.owners := rfl
@[simp] theorem State.modPair_planDue (s : State) (g c : Nat) (f : Pair → Pair) : (s.modPair g c f).planDue = s.planDue := rfl
@[simp] theorem State.modPair_keeper (s : State) (g c : Nat) (f : Pair → Pair) : (s.modPair g c f).keeper = s.keeper := rfl
@[simp] theorem State.modPair_nv (s : State) (g c : Nat) (f : Pair → Pair) : (s.modPair g c f).nv = s.nv := rfl
@[simp] theorem State.modPair_power (s : State) (g c : Nat) (f : Pair → Pair) : (s.modPair g c f).power = s.power := rfl
@[simp] theorem State.modPair_pcm (s : State) (g c : Nat) (f : Pair → Pair) : (s.modPair g c f).pcm = s.pcm := rfl
@[simp] theorem State.modPair_sextant (s : State) (g c : Nat) (f : Pair → Pair) : (s.modPair g c f).sextant = s.sextant := rfl
@[simp] theorem State.modPair_log (s : State) (g c : Nat) (f : Pair → Pair) : (s.modPair g c f).log = s.log := rfl
@[simp] theorem State.modPair_pins (s : State) (g c : Nat) (f : Pair → Pair) : (s.modPair g c f).pins = s.pins := rfl
@[simp] theorem State.modPair_tap (s : State) (g c : Nat) (f : Pair → Pair) : (s.modPair g c f).tap = s.tap := rfl
@[simp] theorem State.modPair_csr (s : State) (g c : Nat) (f : Pair → Pair) : (s.modPair g c f).csr = s.csr := rfl
@[simp] theorem State.modPair_sent (s : State) (g c : Nat) (f : Pair → Pair) : (s.modPair g c f).sent = s.sent := rfl
@[simp] theorem State.modPair_draws (s : State) (g c : Nat) (f : Pair → Pair) : (s.modPair g c f).draws = s.draws := rfl
@[simp] theorem State.modPair_pending (s : State) (g c : Nat) (f : Pair → Pair) : (s.modPair g c f).pending = s.pending := rfl

@[simp] theorem State.modFn_banks (s : State) (d : Nat) (f : PcieFn → PcieFn) : (s.modFn d f).banks = s.banks := rfl
@[simp] theorem State.modFn_slots (s : State) (d : Nat) (f : PcieFn → PcieFn) : (s.modFn d f).slots = s.slots := rfl
@[simp] theorem State.modFn_vectors (s : State) (d : Nat) (f : PcieFn → PcieFn) : (s.modFn d f).vectors = s.vectors := rfl
@[simp] theorem State.modFn_engines (s : State) (d : Nat) (f : PcieFn → PcieFn) : (s.modFn d f).engines = s.engines := rfl
@[simp] theorem State.modFn_homes (s : State) (d : Nat) (f : PcieFn → PcieFn) : (s.modFn d f).homes = s.homes := rfl
@[simp] theorem State.modFn_l2 (s : State) (d : Nat) (f : PcieFn → PcieFn) : (s.modFn d f).l2 = s.l2 := rfl
@[simp] theorem State.modFn_mem (s : State) (d : Nat) (f : PcieFn → PcieFn) : (s.modFn d f).mem = s.mem := rfl
@[simp] theorem State.modFn_dmcs (s : State) (d : Nat) (f : PcieFn → PcieFn) : (s.modFn d f).dmcs = s.dmcs := rfl
@[simp] theorem State.modFn_domains (s : State) (d : Nat) (f : PcieFn → PcieFn) : (s.modFn d f).domains = s.domains := rfl
@[simp] theorem State.modFn_queues (s : State) (d : Nat) (f : PcieFn → PcieFn) : (s.modFn d f).queues = s.queues := rfl
@[simp] theorem State.modFn_rings (s : State) (d : Nat) (f : PcieFn → PcieFn) : (s.modFn d f).rings = s.rings := rfl
@[simp] theorem State.modFn_pairs (s : State) (d : Nat) (f : PcieFn → PcieFn) : (s.modFn d f).pairs = s.pairs := rfl
@[simp] theorem State.modFn_plan (s : State) (d : Nat) (f : PcieFn → PcieFn) : (s.modFn d f).plan = s.plan := rfl
@[simp] theorem State.modFn_events (s : State) (d : Nat) (f : PcieFn → PcieFn) : (s.modFn d f).events = s.events := rfl
@[simp] theorem State.modFn_owners (s : State) (d : Nat) (f : PcieFn → PcieFn) : (s.modFn d f).owners = s.owners := rfl
@[simp] theorem State.modFn_planDue (s : State) (d : Nat) (f : PcieFn → PcieFn) : (s.modFn d f).planDue = s.planDue := rfl
@[simp] theorem State.modFn_keeper (s : State) (d : Nat) (f : PcieFn → PcieFn) : (s.modFn d f).keeper = s.keeper := rfl
@[simp] theorem State.modFn_nv (s : State) (d : Nat) (f : PcieFn → PcieFn) : (s.modFn d f).nv = s.nv := rfl
@[simp] theorem State.modFn_power (s : State) (d : Nat) (f : PcieFn → PcieFn) : (s.modFn d f).power = s.power := rfl
@[simp] theorem State.modFn_pcm (s : State) (d : Nat) (f : PcieFn → PcieFn) : (s.modFn d f).pcm = s.pcm := rfl
@[simp] theorem State.modFn_sextant (s : State) (d : Nat) (f : PcieFn → PcieFn) : (s.modFn d f).sextant = s.sextant := rfl
@[simp] theorem State.modFn_log (s : State) (d : Nat) (f : PcieFn → PcieFn) : (s.modFn d f).log = s.log := rfl
@[simp] theorem State.modFn_pins (s : State) (d : Nat) (f : PcieFn → PcieFn) : (s.modFn d f).pins = s.pins := rfl
@[simp] theorem State.modFn_tap (s : State) (d : Nat) (f : PcieFn → PcieFn) : (s.modFn d f).tap = s.tap := rfl
@[simp] theorem State.modFn_csr (s : State) (d : Nat) (f : PcieFn → PcieFn) : (s.modFn d f).csr = s.csr := rfl
@[simp] theorem State.modFn_sent (s : State) (d : Nat) (f : PcieFn → PcieFn) : (s.modFn d f).sent = s.sent := rfl
@[simp] theorem State.modFn_draws (s : State) (d : Nat) (f : PcieFn → PcieFn) : (s.modFn d f).draws = s.draws := rfl
@[simp] theorem State.modFn_pending (s : State) (d : Nat) (f : PcieFn → PcieFn) : (s.modFn d f).pending = s.pending := rfl

@[simp] theorem State.setReg_banks (s : State) (o : Nat) (v : Word) : (s.setReg o v).banks = s.banks := rfl
@[simp] theorem State.setReg_slots (s : State) (o : Nat) (v : Word) : (s.setReg o v).slots = s.slots := rfl
@[simp] theorem State.setReg_vectors (s : State) (o : Nat) (v : Word) : (s.setReg o v).vectors = s.vectors := rfl
@[simp] theorem State.setReg_engines (s : State) (o : Nat) (v : Word) : (s.setReg o v).engines = s.engines := rfl
@[simp] theorem State.setReg_homes (s : State) (o : Nat) (v : Word) : (s.setReg o v).homes = s.homes := rfl
@[simp] theorem State.setReg_l2 (s : State) (o : Nat) (v : Word) : (s.setReg o v).l2 = s.l2 := rfl
@[simp] theorem State.setReg_mem (s : State) (o : Nat) (v : Word) : (s.setReg o v).mem = s.mem := rfl
@[simp] theorem State.setReg_dmcs (s : State) (o : Nat) (v : Word) : (s.setReg o v).dmcs = s.dmcs := rfl
@[simp] theorem State.setReg_domains (s : State) (o : Nat) (v : Word) : (s.setReg o v).domains = s.domains := rfl
@[simp] theorem State.setReg_queues (s : State) (o : Nat) (v : Word) : (s.setReg o v).queues = s.queues := rfl
@[simp] theorem State.setReg_hif (s : State) (o : Nat) (v : Word) : (s.setReg o v).hif = s.hif := rfl
@[simp] theorem State.setReg_rings (s : State) (o : Nat) (v : Word) : (s.setReg o v).rings = s.rings := rfl
@[simp] theorem State.setReg_pairs (s : State) (o : Nat) (v : Word) : (s.setReg o v).pairs = s.pairs := rfl
@[simp] theorem State.setReg_plan (s : State) (o : Nat) (v : Word) : (s.setReg o v).plan = s.plan := rfl
@[simp] theorem State.setReg_events (s : State) (o : Nat) (v : Word) : (s.setReg o v).events = s.events := rfl
@[simp] theorem State.setReg_owners (s : State) (o : Nat) (v : Word) : (s.setReg o v).owners = s.owners := rfl
@[simp] theorem State.setReg_planDue (s : State) (o : Nat) (v : Word) : (s.setReg o v).planDue = s.planDue := rfl
@[simp] theorem State.setReg_keeper (s : State) (o : Nat) (v : Word) : (s.setReg o v).keeper = s.keeper := rfl
@[simp] theorem State.setReg_nv (s : State) (o : Nat) (v : Word) : (s.setReg o v).nv = s.nv := rfl
@[simp] theorem State.setReg_power (s : State) (o : Nat) (v : Word) : (s.setReg o v).power = s.power := rfl
@[simp] theorem State.setReg_pcm (s : State) (o : Nat) (v : Word) : (s.setReg o v).pcm = s.pcm := rfl
@[simp] theorem State.setReg_sextant (s : State) (o : Nat) (v : Word) : (s.setReg o v).sextant = s.sextant := rfl
@[simp] theorem State.setReg_log (s : State) (o : Nat) (v : Word) : (s.setReg o v).log = s.log := rfl
@[simp] theorem State.setReg_pins (s : State) (o : Nat) (v : Word) : (s.setReg o v).pins = s.pins := rfl
@[simp] theorem State.setReg_tap (s : State) (o : Nat) (v : Word) : (s.setReg o v).tap = s.tap := rfl
@[simp] theorem State.setReg_sent (s : State) (o : Nat) (v : Word) : (s.setReg o v).sent = s.sent := rfl
@[simp] theorem State.setReg_draws (s : State) (o : Nat) (v : Word) : (s.setReg o v).draws = s.draws := rfl
@[simp] theorem State.setReg_pending (s : State) (o : Nat) (v : Word) : (s.setReg o v).pending = s.pending := rfl

@[simp] theorem State.count_banks (s : State) (o n : Nat) : (s.count o n).banks = s.banks := rfl
@[simp] theorem State.count_slots (s : State) (o n : Nat) : (s.count o n).slots = s.slots := rfl
@[simp] theorem State.count_vectors (s : State) (o n : Nat) : (s.count o n).vectors = s.vectors := rfl
@[simp] theorem State.count_engines (s : State) (o n : Nat) : (s.count o n).engines = s.engines := rfl
@[simp] theorem State.count_homes (s : State) (o n : Nat) : (s.count o n).homes = s.homes := rfl
@[simp] theorem State.count_l2 (s : State) (o n : Nat) : (s.count o n).l2 = s.l2 := rfl
@[simp] theorem State.count_mem (s : State) (o n : Nat) : (s.count o n).mem = s.mem := rfl
@[simp] theorem State.count_dmcs (s : State) (o n : Nat) : (s.count o n).dmcs = s.dmcs := rfl
@[simp] theorem State.count_domains (s : State) (o n : Nat) : (s.count o n).domains = s.domains := rfl
@[simp] theorem State.count_queues (s : State) (o n : Nat) : (s.count o n).queues = s.queues := rfl
@[simp] theorem State.count_hif (s : State) (o n : Nat) : (s.count o n).hif = s.hif := rfl
@[simp] theorem State.count_rings (s : State) (o n : Nat) : (s.count o n).rings = s.rings := rfl
@[simp] theorem State.count_pairs (s : State) (o n : Nat) : (s.count o n).pairs = s.pairs := rfl
@[simp] theorem State.count_plan (s : State) (o n : Nat) : (s.count o n).plan = s.plan := rfl
@[simp] theorem State.count_events (s : State) (o n : Nat) : (s.count o n).events = s.events := rfl
@[simp] theorem State.count_owners (s : State) (o n : Nat) : (s.count o n).owners = s.owners := rfl
@[simp] theorem State.count_planDue (s : State) (o n : Nat) : (s.count o n).planDue = s.planDue := rfl
@[simp] theorem State.count_keeper (s : State) (o n : Nat) : (s.count o n).keeper = s.keeper := rfl
@[simp] theorem State.count_nv (s : State) (o n : Nat) : (s.count o n).nv = s.nv := rfl
@[simp] theorem State.count_power (s : State) (o n : Nat) : (s.count o n).power = s.power := rfl
@[simp] theorem State.count_pcm (s : State) (o n : Nat) : (s.count o n).pcm = s.pcm := rfl
@[simp] theorem State.count_sextant (s : State) (o n : Nat) : (s.count o n).sextant = s.sextant := rfl
@[simp] theorem State.count_log (s : State) (o n : Nat) : (s.count o n).log = s.log := rfl
@[simp] theorem State.count_pins (s : State) (o n : Nat) : (s.count o n).pins = s.pins := rfl
@[simp] theorem State.count_tap (s : State) (o n : Nat) : (s.count o n).tap = s.tap := rfl
@[simp] theorem State.count_sent (s : State) (o n : Nat) : (s.count o n).sent = s.sent := rfl
@[simp] theorem State.count_draws (s : State) (o n : Nat) : (s.count o n).draws = s.draws := rfl
@[simp] theorem State.count_pending (s : State) (o n : Nat) : (s.count o n).pending = s.pending := rfl

@[simp] theorem State.countErr_banks (s : State) (o n : Nat) : (s.countErr o n).banks = s.banks := rfl
@[simp] theorem State.countErr_slots (s : State) (o n : Nat) : (s.countErr o n).slots = s.slots := rfl
@[simp] theorem State.countErr_vectors (s : State) (o n : Nat) : (s.countErr o n).vectors = s.vectors := rfl
@[simp] theorem State.countErr_engines (s : State) (o n : Nat) : (s.countErr o n).engines = s.engines := rfl
@[simp] theorem State.countErr_homes (s : State) (o n : Nat) : (s.countErr o n).homes = s.homes := rfl
@[simp] theorem State.countErr_l2 (s : State) (o n : Nat) : (s.countErr o n).l2 = s.l2 := rfl
@[simp] theorem State.countErr_mem (s : State) (o n : Nat) : (s.countErr o n).mem = s.mem := rfl
@[simp] theorem State.countErr_dmcs (s : State) (o n : Nat) : (s.countErr o n).dmcs = s.dmcs := rfl
@[simp] theorem State.countErr_domains (s : State) (o n : Nat) : (s.countErr o n).domains = s.domains := rfl
@[simp] theorem State.countErr_queues (s : State) (o n : Nat) : (s.countErr o n).queues = s.queues := rfl
@[simp] theorem State.countErr_hif (s : State) (o n : Nat) : (s.countErr o n).hif = s.hif := rfl
@[simp] theorem State.countErr_rings (s : State) (o n : Nat) : (s.countErr o n).rings = s.rings := rfl
@[simp] theorem State.countErr_pairs (s : State) (o n : Nat) : (s.countErr o n).pairs = s.pairs := rfl
@[simp] theorem State.countErr_plan (s : State) (o n : Nat) : (s.countErr o n).plan = s.plan := rfl
@[simp] theorem State.countErr_events (s : State) (o n : Nat) : (s.countErr o n).events = s.events := rfl
@[simp] theorem State.countErr_owners (s : State) (o n : Nat) : (s.countErr o n).owners = s.owners := rfl
@[simp] theorem State.countErr_planDue (s : State) (o n : Nat) : (s.countErr o n).planDue = s.planDue := rfl
@[simp] theorem State.countErr_keeper (s : State) (o n : Nat) : (s.countErr o n).keeper = s.keeper := rfl
@[simp] theorem State.countErr_nv (s : State) (o n : Nat) : (s.countErr o n).nv = s.nv := rfl
@[simp] theorem State.countErr_power (s : State) (o n : Nat) : (s.countErr o n).power = s.power := rfl
@[simp] theorem State.countErr_pcm (s : State) (o n : Nat) : (s.countErr o n).pcm = s.pcm := rfl
@[simp] theorem State.countErr_sextant (s : State) (o n : Nat) : (s.countErr o n).sextant = s.sextant := rfl
@[simp] theorem State.countErr_log (s : State) (o n : Nat) : (s.countErr o n).log = s.log := rfl
@[simp] theorem State.countErr_pins (s : State) (o n : Nat) : (s.countErr o n).pins = s.pins := rfl
@[simp] theorem State.countErr_tap (s : State) (o n : Nat) : (s.countErr o n).tap = s.tap := rfl
@[simp] theorem State.countErr_sent (s : State) (o n : Nat) : (s.countErr o n).sent = s.sent := rfl
@[simp] theorem State.countErr_draws (s : State) (o n : Nat) : (s.countErr o n).draws = s.draws := rfl
@[simp] theorem State.countErr_pending (s : State) (o n : Nat) : (s.countErr o n).pending = s.pending := rfl

@[simp] theorem State.send_banks (s : State) (m : Sent) : (s.send m).banks = s.banks := rfl
@[simp] theorem State.send_slots (s : State) (m : Sent) : (s.send m).slots = s.slots := rfl
@[simp] theorem State.send_vectors (s : State) (m : Sent) : (s.send m).vectors = s.vectors := rfl
@[simp] theorem State.send_engines (s : State) (m : Sent) : (s.send m).engines = s.engines := rfl
@[simp] theorem State.send_homes (s : State) (m : Sent) : (s.send m).homes = s.homes := rfl
@[simp] theorem State.send_l2 (s : State) (m : Sent) : (s.send m).l2 = s.l2 := rfl
@[simp] theorem State.send_mem (s : State) (m : Sent) : (s.send m).mem = s.mem := rfl
@[simp] theorem State.send_dmcs (s : State) (m : Sent) : (s.send m).dmcs = s.dmcs := rfl
@[simp] theorem State.send_domains (s : State) (m : Sent) : (s.send m).domains = s.domains := rfl
@[simp] theorem State.send_queues (s : State) (m : Sent) : (s.send m).queues = s.queues := rfl
@[simp] theorem State.send_hif (s : State) (m : Sent) : (s.send m).hif = s.hif := rfl
@[simp] theorem State.send_rings (s : State) (m : Sent) : (s.send m).rings = s.rings := rfl
@[simp] theorem State.send_pairs (s : State) (m : Sent) : (s.send m).pairs = s.pairs := rfl
@[simp] theorem State.send_plan (s : State) (m : Sent) : (s.send m).plan = s.plan := rfl
@[simp] theorem State.send_events (s : State) (m : Sent) : (s.send m).events = s.events := rfl
@[simp] theorem State.send_owners (s : State) (m : Sent) : (s.send m).owners = s.owners := rfl
@[simp] theorem State.send_planDue (s : State) (m : Sent) : (s.send m).planDue = s.planDue := rfl
@[simp] theorem State.send_keeper (s : State) (m : Sent) : (s.send m).keeper = s.keeper := rfl
@[simp] theorem State.send_nv (s : State) (m : Sent) : (s.send m).nv = s.nv := rfl
@[simp] theorem State.send_power (s : State) (m : Sent) : (s.send m).power = s.power := rfl
@[simp] theorem State.send_pcm (s : State) (m : Sent) : (s.send m).pcm = s.pcm := rfl
@[simp] theorem State.send_sextant (s : State) (m : Sent) : (s.send m).sextant = s.sextant := rfl
@[simp] theorem State.send_log (s : State) (m : Sent) : (s.send m).log = s.log := rfl
@[simp] theorem State.send_pins (s : State) (m : Sent) : (s.send m).pins = s.pins := rfl
@[simp] theorem State.send_tap (s : State) (m : Sent) : (s.send m).tap = s.tap := rfl
@[simp] theorem State.send_csr (s : State) (m : Sent) : (s.send m).csr = s.csr := rfl
@[simp] theorem State.send_draws (s : State) (m : Sent) : (s.send m).draws = s.draws := rfl
@[simp] theorem State.send_pending (s : State) (m : Sent) : (s.send m).pending = s.pending := rfl

/-! ### What the accessors read after an update -/

@[simp] theorem State.bank_modBank (s : State) (i : Nat) (f : Bank → Bank) : (s.modBank i f).bank i = f (s.bank i) := by
  simp [State.modBank, State.bank]

theorem State.bank_modBank_ne (s : State) (i j : Nat) (f : Bank → Bank) (h : j ≠ i) : (s.modBank i f).bank j = s.bank j := by
  simp [State.modBank, State.bank, tget_tset_ne _ _ _ _ _ _ h]

@[simp] theorem State.slot_modSlot (s : State) (i : Nat) (f : Slot → Slot) : (s.modSlot i f).slot i = f (s.slot i) := by
  simp [State.modSlot, State.slot]

theorem State.slot_modSlot_ne (s : State) (i j : Nat) (f : Slot → Slot) (h : j ≠ i) : (s.modSlot i f).slot j = s.slot j := by
  simp [State.modSlot, State.slot, tget_tset_ne _ _ _ _ _ _ h]

@[simp] theorem State.eng_modEng (s : State) (e : Eng) (f : Engine → Engine) : (s.modEng e f).eng e = f (s.eng e) := by
  simp [State.modEng, State.eng]

theorem State.eng_modEng_ne (s : State) (e d : Eng) (f : Engine → Engine) (h : d ≠ e) : (s.modEng e f).eng d = s.eng d := by
  have h' : d.val ≠ e.val := fun x => h (Fin.ext x)
  simp [State.modEng, State.eng, tget_tset_ne _ _ _ _ _ _ h']

@[simp] theorem State.dom_modDom (s : State) (d : Nat) (f : Domain → Domain) : (s.modDom d f).dom d = f (s.dom d) := by
  simp [State.modDom, State.dom]

theorem State.dom_modDom_ne (s : State) (d k : Nat) (f : Domain → Domain) (h : k ≠ d) : (s.modDom d f).dom k = s.dom k :=
  tget_tset_ne _ _ _ _ _ _ h

@[simp] theorem State.queue_modQueue (s : State) (q : Nat) (f : Queue → Queue) : (s.modQueue q f).queue q = f (s.queue q) := by
  simp [State.modQueue, State.queue]

theorem State.queue_modQueue_ne (s : State) (q k : Nat) (f : Queue → Queue) (h : k ≠ q) :
    (s.modQueue q f).queue k = s.queue k := by
  simp [State.modQueue, State.queue, tget_tset_ne _ _ _ _ _ _ h]

@[simp] theorem State.ring_modRing (s : State) (r : RingId) (f : Ring → Ring) : (s.modRing r f).ring r = f (s.ring r) := by
  simp [State.modRing, State.ring]

theorem State.ring_modRing_ne (s : State) (r q : RingId) (f : Ring → Ring) (h : q ≠ r) : (s.modRing r f).ring q = s.ring q := by
  simp only [State.modRing, State.ring, Fin.getElem_fin]
  rw [Vector.getElem_set_ne]
  exact fun x => h (Fin.ext x.symm)

@[simp] theorem State.fn_modFn (s : State) (d : Nat) (f : PcieFn → PcieFn) : (s.modFn d f).fn d = f (s.fn d) := by
  simp [State.modFn, State.fn]

@[simp] theorem State.reg_setReg (s : State) (o : Nat) (v : Word) : (s.setReg o v).reg o = v := by
  simp [State.setReg, State.reg]

theorem State.reg_setReg_ne (s : State) (o k : Nat) (v : Word) (h : k ≠ o) : (s.setReg o v).reg k = s.reg k := by
  simp [State.setReg, State.reg, tget_tset_ne _ _ _ _ _ _ h]

/-! ### Accessors of what an update does not change -/

@[simp] theorem State.bank_modSlot (s : State) (i : Nat) (f : Slot → Slot) (j : Nat) : (s.modSlot i f).bank j = s.bank j := rfl
@[simp] theorem State.bank_modEng (s : State) (e : Eng) (f : Engine → Engine) (j : Nat) : (s.modEng e f).bank j = s.bank j := rfl
@[simp] theorem State.bank_modDom (s : State) (d : Nat) (f : Domain → Domain) (j : Nat) : (s.modDom d f).bank j = s.bank j := rfl
@[simp] theorem State.bank_modQueue (s : State) (q : Nat) (f : Queue → Queue) (j : Nat) : (s.modQueue q f).bank j = s.bank j := rfl
@[simp] theorem State.bank_modRing (s : State) (r : RingId) (f : Ring → Ring) (j : Nat) : (s.modRing r f).bank j = s.bank j := rfl
@[simp] theorem State.bank_modPair (s : State) (g c : Nat) (f : Pair → Pair) (j : Nat) : (s.modPair g c f).bank j = s.bank j := rfl
@[simp] theorem State.bank_modFn (s : State) (d : Nat) (f : PcieFn → PcieFn) (j : Nat) : (s.modFn d f).bank j = s.bank j := rfl
@[simp] theorem State.bank_setReg (s : State) (o : Nat) (v : Word) (j : Nat) : (s.setReg o v).bank j = s.bank j := rfl
@[simp] theorem State.bank_count (s : State) (o n : Nat) (j : Nat) : (s.count o n).bank j = s.bank j := rfl
@[simp] theorem State.bank_countErr (s : State) (o n : Nat) (j : Nat) : (s.countErr o n).bank j = s.bank j := rfl
@[simp] theorem State.bank_send (s : State) (m : Sent) (j : Nat) : (s.send m).bank j = s.bank j := rfl
@[simp] theorem State.slot_modBank (s : State) (i : Nat) (f : Bank → Bank) (j : Nat) : (s.modBank i f).slot j = s.slot j := rfl
@[simp] theorem State.slot_modEng (s : State) (e : Eng) (f : Engine → Engine) (j : Nat) : (s.modEng e f).slot j = s.slot j := rfl
@[simp] theorem State.slot_modDom (s : State) (d : Nat) (f : Domain → Domain) (j : Nat) : (s.modDom d f).slot j = s.slot j := rfl
@[simp] theorem State.slot_modQueue (s : State) (q : Nat) (f : Queue → Queue) (j : Nat) : (s.modQueue q f).slot j = s.slot j := rfl
@[simp] theorem State.slot_modRing (s : State) (r : RingId) (f : Ring → Ring) (j : Nat) : (s.modRing r f).slot j = s.slot j := rfl
@[simp] theorem State.slot_modPair (s : State) (g c : Nat) (f : Pair → Pair) (j : Nat) : (s.modPair g c f).slot j = s.slot j := rfl
@[simp] theorem State.slot_modFn (s : State) (d : Nat) (f : PcieFn → PcieFn) (j : Nat) : (s.modFn d f).slot j = s.slot j := rfl
@[simp] theorem State.slot_setReg (s : State) (o : Nat) (v : Word) (j : Nat) : (s.setReg o v).slot j = s.slot j := rfl
@[simp] theorem State.slot_count (s : State) (o n : Nat) (j : Nat) : (s.count o n).slot j = s.slot j := rfl
@[simp] theorem State.slot_countErr (s : State) (o n : Nat) (j : Nat) : (s.countErr o n).slot j = s.slot j := rfl
@[simp] theorem State.slot_send (s : State) (m : Sent) (j : Nat) : (s.send m).slot j = s.slot j := rfl
@[simp] theorem State.vector_modSlot (s : State) (i : Nat) (f : Slot → Slot) (j u : Nat) : (s.modSlot i f).vector j u = s.vector j u := rfl
@[simp] theorem State.vector_modBank (s : State) (i : Nat) (f : Bank → Bank) (j u : Nat) : (s.modBank i f).vector j u = s.vector j u := rfl
@[simp] theorem State.vector_modEng (s : State) (e : Eng) (f : Engine → Engine) (j u : Nat) : (s.modEng e f).vector j u = s.vector j u := rfl
@[simp] theorem State.vector_modDom (s : State) (d : Nat) (f : Domain → Domain) (j u : Nat) : (s.modDom d f).vector j u = s.vector j u := rfl
@[simp] theorem State.vector_modQueue (s : State) (q : Nat) (f : Queue → Queue) (j u : Nat) : (s.modQueue q f).vector j u = s.vector j u := rfl
@[simp] theorem State.vector_modRing (s : State) (r : RingId) (f : Ring → Ring) (j u : Nat) : (s.modRing r f).vector j u = s.vector j u := rfl
@[simp] theorem State.vector_modPair (s : State) (g c : Nat) (f : Pair → Pair) (j u : Nat) : (s.modPair g c f).vector j u = s.vector j u := rfl
@[simp] theorem State.vector_modFn (s : State) (d : Nat) (f : PcieFn → PcieFn) (j u : Nat) : (s.modFn d f).vector j u = s.vector j u := rfl
@[simp] theorem State.vector_setReg (s : State) (o : Nat) (v : Word) (j u : Nat) : (s.setReg o v).vector j u = s.vector j u := rfl
@[simp] theorem State.vector_count (s : State) (o n : Nat) (j u : Nat) : (s.count o n).vector j u = s.vector j u := rfl
@[simp] theorem State.vector_countErr (s : State) (o n : Nat) (j u : Nat) : (s.countErr o n).vector j u = s.vector j u := rfl
@[simp] theorem State.vector_send (s : State) (m : Sent) (j u : Nat) : (s.send m).vector j u = s.vector j u := rfl
@[simp] theorem State.eng_modSlot (s : State) (i : Nat) (f : Slot → Slot) (d : Eng) : (s.modSlot i f).eng d = s.eng d := rfl
@[simp] theorem State.eng_modBank (s : State) (i : Nat) (f : Bank → Bank) (d : Eng) : (s.modBank i f).eng d = s.eng d := rfl
@[simp] theorem State.eng_modDom (s : State) (d : Nat) (f : Domain → Domain) (d' : Eng) : (s.modDom d f).eng d' = s.eng d' := rfl
@[simp] theorem State.eng_modQueue (s : State) (q : Nat) (f : Queue → Queue) (d : Eng) : (s.modQueue q f).eng d = s.eng d := rfl
@[simp] theorem State.eng_modRing (s : State) (r : RingId) (f : Ring → Ring) (d : Eng) : (s.modRing r f).eng d = s.eng d := rfl
@[simp] theorem State.eng_modPair (s : State) (g c : Nat) (f : Pair → Pair) (d : Eng) : (s.modPair g c f).eng d = s.eng d := rfl
@[simp] theorem State.eng_modFn (s : State) (d : Nat) (f : PcieFn → PcieFn) (d' : Eng) : (s.modFn d f).eng d' = s.eng d' := rfl
@[simp] theorem State.eng_setReg (s : State) (o : Nat) (v : Word) (d : Eng) : (s.setReg o v).eng d = s.eng d := rfl
@[simp] theorem State.eng_count (s : State) (o n : Nat) (d : Eng) : (s.count o n).eng d = s.eng d := rfl
@[simp] theorem State.eng_countErr (s : State) (o n : Nat) (d : Eng) : (s.countErr o n).eng d = s.eng d := rfl
@[simp] theorem State.eng_send (s : State) (m : Sent) (d : Eng) : (s.send m).eng d = s.eng d := rfl
@[simp] theorem State.dom_modSlot (s : State) (i : Nat) (f : Slot → Slot) (j : Nat) : (s.modSlot i f).dom j = s.dom j := rfl
@[simp] theorem State.dom_modBank (s : State) (i : Nat) (f : Bank → Bank) (j : Nat) : (s.modBank i f).dom j = s.dom j := rfl
@[simp] theorem State.dom_modEng (s : State) (e : Eng) (f : Engine → Engine) (j : Nat) : (s.modEng e f).dom j = s.dom j := rfl
@[simp] theorem State.dom_modQueue (s : State) (q : Nat) (f : Queue → Queue) (j : Nat) : (s.modQueue q f).dom j = s.dom j := rfl
@[simp] theorem State.dom_modRing (s : State) (r : RingId) (f : Ring → Ring) (j : Nat) : (s.modRing r f).dom j = s.dom j := rfl
@[simp] theorem State.dom_modPair (s : State) (g c : Nat) (f : Pair → Pair) (j : Nat) : (s.modPair g c f).dom j = s.dom j := rfl
@[simp] theorem State.dom_modFn (s : State) (d : Nat) (f : PcieFn → PcieFn) (j : Nat) : (s.modFn d f).dom j = s.dom j := rfl
@[simp] theorem State.dom_setReg (s : State) (o : Nat) (v : Word) (j : Nat) : (s.setReg o v).dom j = s.dom j := rfl
@[simp] theorem State.dom_count (s : State) (o n : Nat) (j : Nat) : (s.count o n).dom j = s.dom j := rfl
@[simp] theorem State.dom_countErr (s : State) (o n : Nat) (j : Nat) : (s.countErr o n).dom j = s.dom j := rfl
@[simp] theorem State.dom_send (s : State) (m : Sent) (j : Nat) : (s.send m).dom j = s.dom j := rfl
@[simp] theorem State.queue_modSlot (s : State) (i : Nat) (f : Slot → Slot) (j : Nat) : (s.modSlot i f).queue j = s.queue j := rfl
@[simp] theorem State.queue_modBank (s : State) (i : Nat) (f : Bank → Bank) (j : Nat) : (s.modBank i f).queue j = s.queue j := rfl
@[simp] theorem State.queue_modEng (s : State) (e : Eng) (f : Engine → Engine) (j : Nat) : (s.modEng e f).queue j = s.queue j := rfl
@[simp] theorem State.queue_modDom (s : State) (d : Nat) (f : Domain → Domain) (j : Nat) : (s.modDom d f).queue j = s.queue j := rfl
@[simp] theorem State.queue_modRing (s : State) (r : RingId) (f : Ring → Ring) (j : Nat) : (s.modRing r f).queue j = s.queue j := rfl
@[simp] theorem State.queue_modPair (s : State) (g c : Nat) (f : Pair → Pair) (j : Nat) : (s.modPair g c f).queue j = s.queue j := rfl
@[simp] theorem State.queue_modFn (s : State) (d : Nat) (f : PcieFn → PcieFn) (j : Nat) : (s.modFn d f).queue j = s.queue j := rfl
@[simp] theorem State.queue_setReg (s : State) (o : Nat) (v : Word) (j : Nat) : (s.setReg o v).queue j = s.queue j := rfl
@[simp] theorem State.queue_count (s : State) (o n : Nat) (j : Nat) : (s.count o n).queue j = s.queue j := rfl
@[simp] theorem State.queue_countErr (s : State) (o n : Nat) (j : Nat) : (s.countErr o n).queue j = s.queue j := rfl
@[simp] theorem State.queue_send (s : State) (m : Sent) (j : Nat) : (s.send m).queue j = s.queue j := rfl
@[simp] theorem State.ring_modSlot (s : State) (i : Nat) (f : Slot → Slot) (r : RingId) : (s.modSlot i f).ring r = s.ring r := rfl
@[simp] theorem State.ring_modBank (s : State) (i : Nat) (f : Bank → Bank) (r : RingId) : (s.modBank i f).ring r = s.ring r := rfl
@[simp] theorem State.ring_modEng (s : State) (e : Eng) (f : Engine → Engine) (r : RingId) : (s.modEng e f).ring r = s.ring r := rfl
@[simp] theorem State.ring_modDom (s : State) (d : Nat) (f : Domain → Domain) (r : RingId) : (s.modDom d f).ring r = s.ring r := rfl
@[simp] theorem State.ring_modQueue (s : State) (q : Nat) (f : Queue → Queue) (r : RingId) : (s.modQueue q f).ring r = s.ring r := rfl
@[simp] theorem State.ring_modPair (s : State) (g c : Nat) (f : Pair → Pair) (r : RingId) : (s.modPair g c f).ring r = s.ring r := rfl
@[simp] theorem State.ring_modFn (s : State) (d : Nat) (f : PcieFn → PcieFn) (r : RingId) : (s.modFn d f).ring r = s.ring r := rfl
@[simp] theorem State.ring_setReg (s : State) (o : Nat) (v : Word) (r : RingId) : (s.setReg o v).ring r = s.ring r := rfl
@[simp] theorem State.ring_count (s : State) (o n : Nat) (r : RingId) : (s.count o n).ring r = s.ring r := rfl
@[simp] theorem State.ring_countErr (s : State) (o n : Nat) (r : RingId) : (s.countErr o n).ring r = s.ring r := rfl
@[simp] theorem State.ring_send (s : State) (m : Sent) (r : RingId) : (s.send m).ring r = s.ring r := rfl
@[simp] theorem State.fn_modSlot (s : State) (i : Nat) (f : Slot → Slot) (j : Nat) : (s.modSlot i f).fn j = s.fn j := rfl
@[simp] theorem State.fn_modBank (s : State) (i : Nat) (f : Bank → Bank) (j : Nat) : (s.modBank i f).fn j = s.fn j := rfl
@[simp] theorem State.fn_modEng (s : State) (e : Eng) (f : Engine → Engine) (j : Nat) : (s.modEng e f).fn j = s.fn j := rfl
@[simp] theorem State.fn_modDom (s : State) (d : Nat) (f : Domain → Domain) (j : Nat) : (s.modDom d f).fn j = s.fn j := rfl
@[simp] theorem State.fn_modQueue (s : State) (q : Nat) (f : Queue → Queue) (j : Nat) : (s.modQueue q f).fn j = s.fn j := rfl
@[simp] theorem State.fn_modRing (s : State) (r : RingId) (f : Ring → Ring) (j : Nat) : (s.modRing r f).fn j = s.fn j := rfl
@[simp] theorem State.fn_modPair (s : State) (g c : Nat) (f : Pair → Pair) (j : Nat) : (s.modPair g c f).fn j = s.fn j := rfl
@[simp] theorem State.fn_setReg (s : State) (o : Nat) (v : Word) (j : Nat) : (s.setReg o v).fn j = s.fn j := rfl
@[simp] theorem State.fn_count (s : State) (o n : Nat) (j : Nat) : (s.count o n).fn j = s.fn j := rfl
@[simp] theorem State.fn_countErr (s : State) (o n : Nat) (j : Nat) : (s.countErr o n).fn j = s.fn j := rfl
@[simp] theorem State.fn_send (s : State) (m : Sent) (j : Nat) : (s.send m).fn j = s.fn j := rfl
@[simp] theorem State.owner_modSlot (s : State) (i : Nat) (f : Slot → Slot) (j : Nat) : (s.modSlot i f).owner j = s.owner j := rfl
@[simp] theorem State.owner_modBank (s : State) (i : Nat) (f : Bank → Bank) (j : Nat) : (s.modBank i f).owner j = s.owner j := rfl
@[simp] theorem State.owner_modEng (s : State) (e : Eng) (f : Engine → Engine) (j : Nat) : (s.modEng e f).owner j = s.owner j := rfl
@[simp] theorem State.owner_modDom (s : State) (d : Nat) (f : Domain → Domain) (j : Nat) : (s.modDom d f).owner j = s.owner j := rfl
@[simp] theorem State.owner_modQueue (s : State) (q : Nat) (f : Queue → Queue) (j : Nat) : (s.modQueue q f).owner j = s.owner j := rfl
@[simp] theorem State.owner_modRing (s : State) (r : RingId) (f : Ring → Ring) (j : Nat) : (s.modRing r f).owner j = s.owner j := rfl
@[simp] theorem State.owner_modPair (s : State) (g c : Nat) (f : Pair → Pair) (j : Nat) : (s.modPair g c f).owner j = s.owner j := rfl
@[simp] theorem State.owner_modFn (s : State) (d : Nat) (f : PcieFn → PcieFn) (j : Nat) : (s.modFn d f).owner j = s.owner j := rfl
@[simp] theorem State.owner_setReg (s : State) (o : Nat) (v : Word) (j : Nat) : (s.setReg o v).owner j = s.owner j := rfl
@[simp] theorem State.owner_count (s : State) (o n : Nat) (j : Nat) : (s.count o n).owner j = s.owner j := rfl
@[simp] theorem State.owner_countErr (s : State) (o n : Nat) (j : Nat) : (s.countErr o n).owner j = s.owner j := rfl
@[simp] theorem State.owner_send (s : State) (m : Sent) (j : Nat) : (s.send m).owner j = s.owner j := rfl
@[simp] theorem State.reg_modSlot (s : State) (i : Nat) (f : Slot → Slot) (k : Nat) : (s.modSlot i f).reg k = s.reg k := rfl
@[simp] theorem State.reg_modBank (s : State) (i : Nat) (f : Bank → Bank) (k : Nat) : (s.modBank i f).reg k = s.reg k := rfl
@[simp] theorem State.reg_modEng (s : State) (e : Eng) (f : Engine → Engine) (k : Nat) : (s.modEng e f).reg k = s.reg k := rfl
@[simp] theorem State.reg_modDom (s : State) (d : Nat) (f : Domain → Domain) (k : Nat) : (s.modDom d f).reg k = s.reg k := rfl
@[simp] theorem State.reg_modQueue (s : State) (q : Nat) (f : Queue → Queue) (k : Nat) : (s.modQueue q f).reg k = s.reg k := rfl
@[simp] theorem State.reg_modRing (s : State) (r : RingId) (f : Ring → Ring) (k : Nat) : (s.modRing r f).reg k = s.reg k := rfl
@[simp] theorem State.reg_modPair (s : State) (g c : Nat) (f : Pair → Pair) (k : Nat) : (s.modPair g c f).reg k = s.reg k := rfl
@[simp] theorem State.reg_modFn (s : State) (d : Nat) (f : PcieFn → PcieFn) (k : Nat) : (s.modFn d f).reg k = s.reg k := rfl
@[simp] theorem State.reg_send (s : State) (m : Sent) (k : Nat) : (s.send m).reg k = s.reg k := rfl

end Sys2Proof.Machine
end

