-- ==== Sys2Proof/Laws/Tables.lean ====
section
/-! SUPPORT. The canonical form of sparse tables: every operation on a table keeps its keys strictly rising and lists no
default. -/

namespace Sys2Proof.Machine

variable {α : Type} [DecidableEq α] {d : α}

/-- Every key of the table is at least `k`. -/
def keysFrom (k : Nat) (t : Tbl α) : Prop := ∀ p ∈ t, k ≤ p.1

omit [DecidableEq α] in
theorem keysFrom_mono {k j : Nat} {t : Tbl α} (h : j ≤ k) (ht : keysFrom k t) : keysFrom j t :=
  fun p hp => Nat.le_trans h (ht p hp)

/-- A table with a first entry is canonical exactly when that entry is no default, every later key is higher, and the rest
is canonical. -/
theorem twf_cons (k : Nat) (v : α) (t : Tbl α) :
    twf d ((k, v) :: t) = true ↔ v ≠ d ∧ keysFrom (k + 1) t ∧ twf d t = true := by
  induction t generalizing k v with
  | nil => simp [twf, keysFrom]
  | cons p r ih =>
    obtain ⟨k', v'⟩ := p
    simp only [twf, Bool.and_eq_true, decide_eq_true_eq, bne_iff_ne]
    constructor
    · rintro ⟨⟨hk, hv⟩, ht⟩
      refine ⟨hv, ?_, ht⟩
      intro q hq
      rcases List.mem_cons.1 hq with rfl | hq
      · exact hk
      · have := ((ih k' v').1 ht).2.1 q hq
        omega
    · rintro ⟨hv, hk, ht⟩
      exact ⟨⟨hk _ (List.mem_cons_self ..), hv⟩, ht⟩

@[simp] theorem twf_nil : twf d ([] : Tbl α) = true := rfl

theorem twf_filter {t : Tbl α} (f : Nat × α → Bool) (h : twf d t = true) : twf d (t.filter f) = true := by
  induction t with
  | nil => rfl
  | cons p r ih =>
    obtain ⟨k, v⟩ := p
    obtain ⟨hv, hk, hr⟩ := (twf_cons k v r).1 h
    rw [List.filter_cons]
    split
    · exact (twf_cons k v _).2 ⟨hv, fun q hq => hk q (List.mem_filter.1 hq).1, ih hr⟩
    · exact ih hr

theorem twf_tdel {t : Tbl α} (k : Nat) (h : twf d t = true) : twf d (tdel t k) = true := twf_filter _ h

theorem twf_tdrop {t : Tbl α} (f : Nat → Bool) (h : twf d t = true) : twf d (tdrop t f) = true := twf_filter _ h

omit [DecidableEq α] in
theorem keysFrom_tput {t : Tbl α} {j k : Nat} {v : α} (hj : j ≤ k) (h : keysFrom j t) : keysFrom j (tput t k v) := by
  induction t with
  | nil => simpa [tput, keysFrom] using hj
  | cons p r ih =>
    obtain ⟨k', v'⟩ := p
    have h' : j ≤ k' := h _ (List.mem_cons_self ..)
    have hr : keysFrom j r := fun q hq => h q (List.mem_cons_of_mem _ hq)
    simp only [tput]
    split
    · intro q hq
      rcases List.mem_cons.1 hq with rfl | hq
      · exact hj
      · exact h q hq
    · split
      · intro q hq
        rcases List.mem_cons.1 hq with rfl | hq
        · exact hj
        · exact hr q hq
      · intro q hq
        rcases List.mem_cons.1 hq with rfl | hq
        · exact h'
        · exact ih hr q hq

theorem twf_tput {t : Tbl α} (k : Nat) {v : α} (hv : v ≠ d) (h : twf d t = true) : twf d (tput t k v) = true := by
  induction t with
  | nil => simpa [tput, twf] using hv
  | cons p r ih =>
    obtain ⟨k', v'⟩ := p
    obtain ⟨hv', hk, hr⟩ := (twf_cons k' v' r).1 h
    simp only [tput]
    split
    · rename_i hlt
      refine (twf_cons k v _).2 ⟨hv, ?_, h⟩
      intro q hq
      rcases List.mem_cons.1 hq with rfl | hq
      · exact hlt
      · have := hk q hq
        omega
    · split
      · rename_i heq
        subst heq
        exact (twf_cons k v r).2 ⟨hv, hk, hr⟩
      · refine (twf_cons k' v' _).2 ⟨hv', keysFrom_tput (by omega) hk, ih hr⟩

/-- A write keeps the canonical form. -/
theorem twf_tset {t : Tbl α} (k : Nat) (v : α) (h : twf d t = true) : twf d (tset d t k v) = true := by
  unfold tset
  split
  · exact twf_tdel k h
  · rename_i hv
    exact twf_tput k hv h

/-- The same, whatever is written one after the other. -/
theorem twf_foldl {β : Type} (f : Tbl α → β → Tbl α) (hf : ∀ t b, twf d t = true → twf d (f t b) = true) (l : List β)
    {t : Tbl α} (h : twf d t = true) : twf d (l.foldl f t) = true := by
  induction l generalizing t with
  | nil => exact h
  | cons b r ih => exact ih (hf t b h)

end Sys2Proof.Machine
end

