-- ==== Sys2Proof/Laws/Memory.lean ====
section
/-! SUPPORT. The canonical form of physical memory: every operation on memory keeps it, and a byte that was written is read
back while every other byte stays. -/

namespace Sys2Proof.Machine

/-- Memory is canonical when each of its tables is. -/
theorem Memory.wf_mk {b k p kp e st} (hb : twf (0 : Byte) b = true) (hk : twf (default : Key) k = true)
    (hp : twf false p = true) (hkp : twf false kp = true) (he : twf none e = true) (hs : twf none st = true) :
    (Memory.mk b k p kp e st).wf = true := by
  simp only [Memory.wf, Bool.and_eq_true]
  exact ⟨⟨⟨⟨⟨hb, hk⟩, hp⟩, hkp⟩, he⟩, hs⟩

theorem Memory.wf_bytes {m : Memory} (h : m.wf = true) : twf (0 : Byte) m.bytes = true := by
  simp only [Memory.wf, Bool.and_eq_true] at h
  exact h.1.1.1.1.1

theorem Memory.wf_keys {m : Memory} (h : m.wf = true) : twf (default : Key) m.keys = true := by
  simp only [Memory.wf, Bool.and_eq_true] at h
  exact h.1.1.1.1.2

theorem Memory.wf_poison {m : Memory} (h : m.wf = true) : twf false m.poison = true := by
  simp only [Memory.wf, Bool.and_eq_true] at h
  exact h.1.1.1.2

theorem Memory.wf_keyPoison {m : Memory} (h : m.wf = true) : twf false m.keyPoison = true := by
  simp only [Memory.wf, Bool.and_eq_true] at h
  exact h.1.1.2

theorem Memory.wf_errs {m : Memory} (h : m.wf = true) : twf none m.errs = true := by
  simp only [Memory.wf, Bool.and_eq_true] at h
  exact h.1.2

theorem Memory.wf_stale {m : Memory} (h : m.wf = true) : twf none m.stale = true := by
  simp only [Memory.wf, Bool.and_eq_true] at h
  exact h.2

theorem twf_putBytes {t : Tbl Byte} (pa : Nat) (l : List Byte) (h : twf 0 t = true) : twf 0 (putBytes t pa l) = true := by
  induction l generalizing t pa with
  | nil => exact h
  | cons b r ih => exact ih _ (twf_tset _ _ h)

theorem twf_putEntry {t : Tbl Byte} (y : SbEntry) (h : twf 0 t = true) : twf 0 (putEntry t y) = true := by
  unfold putEntry
  refine twf_foldl _ ?_ _ h
  intro t i ht
  split
  · exact twf_tset _ _ ht
  · exact ht

/-- Memory right after reset is canonical. -/
theorem Memory.wf_reset : State.reset.mem.wf = true := rfl

/-- A byte that a list of bytes covers is the one written there; every other byte stays (R79). -/
theorem tget_putBytes (t : Tbl Byte) (pa : Nat) (l : List Byte) (a : Nat) :
    tget 0 (putBytes t pa l) a = if pa ≤ a ∧ a < pa + l.length then lget 0 l (a - pa) else tget 0 t a := by
  induction l generalizing t pa with
  | nil =>
    simp only [putBytes, List.length_nil, Nat.add_zero]
    rw [if_neg (by omega)]
  | cons b r ih =>
    rw [putBytes, ih, tget_tset]
    simp only [List.length_cons]
    by_cases h : a = pa
    · subst h
      rw [if_neg (by omega), if_pos rfl, if_pos (by omega)]
      simp [lget]
    · rw [if_neg h]
      by_cases h2 : pa + 1 ≤ a ∧ a < pa + 1 + r.length
      · rw [if_pos h2, if_pos (by omega)]
        have : a - pa = (a - (pa + 1)) + 1 := by omega
        rw [this]
        simp [lget]
      · rw [if_neg h2, if_neg (by omega)]

/-- Bytes stored to physical memory: those and no others change. -/
theorem State.byteAt_putMem (s : State) (pa : Nat) (l : List Byte) (a : Nat) :
    tget 0 (s.putMem pa l).mem.bytes a = if pa ≤ a ∧ a < pa + l.length then lget 0 l (a - pa) else tget 0 s.mem.bytes a :=
  tget_putBytes _ _ _ _

end Sys2Proof.Machine
end

