-- ==== Sys2Proof/Laws/Keeps.lean ====
section
/-! SUPPORT. What every command keeps: the queue of waiting commands, the fuses of the part, a customer key that has been
enrolled, and the canonical form of physical memory. `Keeps s t` says it of two states, `KM s m` of a computation of an
engine that begins at a state which keeps what `s` had. The other Keeps files say it of every function of the model. -/

namespace Sys2Proof.Machine

/-- The fuses are the same, and an enrolled customer key stays (R477, R478). -/
def FusesKept (a b : NonVolatile) : Prop :=
  b.fuses = a.fuses ∧ (a.enrolled = true → b.enrolled = true ∧ b.custHash = a.custHash)

/-- `t` has the commands that wait in `s`, keeps its fuses, and has canonical memory if `s` has. -/
def Keeps (s t : State) : Prop :=
  t.pending = s.pending ∧ FusesKept s.nv t.nv ∧ (s.mem.wf = true → t.mem.wf = true)

theorem FusesKept.refl (a : NonVolatile) : FusesKept a a := ⟨rfl, fun h => ⟨h, rfl⟩⟩

theorem FusesKept.trans {a b c : NonVolatile} (h : FusesKept a b) (h' : FusesKept b c) : FusesKept a c :=
  ⟨h'.1.trans h.1, fun x => ⟨(h'.2 (h.2 x).1).1, (h'.2 (h.2 x).1).2.trans (h.2 x).2⟩⟩

theorem Keeps.refl (s : State) : Keeps s s := ⟨rfl, FusesKept.refl _, id⟩

theorem Keeps.trans {s t u : State} (h : Keeps s t) (h' : Keeps t u) : Keeps s u :=
  ⟨h'.1.trans h.1, h.2.1.trans h'.2.1, fun x => h'.2.2 (h.2.2 x)⟩

/-- An update that touches neither the queue, nor memory, nor what is non-volatile. -/
theorem Keeps.same {s0 s t : State} (h : Keeps s0 s) (hp : t.pending = s.pending) (hn : t.nv = s.nv) (hm : t.mem = s.mem) :
    Keeps s0 t := by
  refine h.trans ⟨hp, ?_, ?_⟩
  · rw [hn]
    exact FusesKept.refl _
  · rw [hm]
    exact id

theorem Keeps.pending {s0 s : State} (h : Keeps s0 s) : s.pending = s0.pending := h.1
theorem Keeps.nv {s0 s : State} (h : Keeps s0 s) : FusesKept s0.nv s.nv := h.2.1
theorem Keeps.mem {s0 s : State} (h : Keeps s0 s) : s0.mem.wf = true → s.mem.wf = true := h.2.2

/-- The fields of a state written out. -/
theorem Keeps.fields {s0 : State} {banks slots vectors engines homes l2 mem dmcs domains queues hif rings pairs plan events
    owners planDue keeper nv power pcm sextant log pins tap csr sent draws pending}
    (hp : pending = s0.pending) (hn : FusesKept s0.nv nv) (hm : s0.mem.wf = true → mem.wf = true) :
    Keeps s0 (State.mk banks slots vectors engines homes l2 mem dmcs domains queues hif rings pairs plan events owners
      planDue keeper nv power pcm sextant log pins tap csr sent draws pending) := ⟨hp, hn, hm⟩

/-- Fields written out that leave the queue, memory and what is non-volatile as another state has them. -/
theorem Keeps.update {s0 s : State} {banks slots vectors engines homes l2 mem dmcs domains queues hif rings pairs plan events
    owners planDue keeper nv power pcm sextant log pins tap csr sent draws pending}
    (h : Keeps s0 s) (hp : pending = s.pending) (hn : nv = s.nv) (hm : mem = s.mem) :
    Keeps s0 (State.mk banks slots vectors engines homes l2 mem dmcs domains queues hif rings pairs plan events owners
      planDue keeper nv power pcm sextant log pins tap csr sent draws pending) := Keeps.same h hp hn hm

/-- A state that a computation answered with a value. -/
theorem Keeps.of_pair {α : Type} {s0 s' : State} {p : α × State} {a : α} (h : p = (a, s')) (hp : Keeps s0 p.2) :
    Keeps s0 s' := by
  rw [h] at hp
  exact hp

theorem Keeps.of_pair' {α : Type} {s0 s' : State} {p : State × α} {a : α} (h : p = (s', a)) (hp : Keeps s0 p.1) :
    Keeps s0 s' := by
  rw [h] at hp
  exact hp

theorem Keeps.of_trip {α β : Type} {s0 s' : State} {p : α × β × State} {a : α} {b : β} (h : p = (a, b, s'))
    (hp : Keeps s0 p.2.2) : Keeps s0 s' := by
  rw [h] at hp
  exact hp

theorem Keeps.of_quad {α β γ : Type} {s0 s' : State} {p : α × β × γ × State} {a : α} {b : β} {c : γ}
    (h : p = (a, b, c, s')) (hp : Keeps s0 p.2.2.2) : Keeps s0 s' := by
  rw [h] at hp
  exact hp

theorem Keeps.ite {s0 s t : State} {c : Prop} [Decidable c] (h : Keeps s0 s) (h' : Keeps s0 t) :
    Keeps s0 (if c then s else t) := by
  split <;> assumption

theorem Keeps.ite_snd {α : Type} {s0 : State} {p q : α × State} {c : Prop} [Decidable c] (h : Keeps s0 p.2)
    (h' : Keeps s0 q.2) : Keeps s0 (if c then p else q).2 := by
  split <;> assumption

theorem Keeps.ite_fst {α : Type} {s0 : State} {p q : State × α} {c : Prop} [Decidable c] (h : Keeps s0 p.1)
    (h' : Keeps s0 q.1) : Keeps s0 (if c then p else q).1 := by
  split <;> assumption

theorem Keeps.foldl {β : Type} {s0 s : State} {f : State → β → State} {l : List β}
    (hf : ∀ t b, Keeps s0 t → Keeps s0 (f t b)) (h : Keeps s0 s) : Keeps s0 (l.foldl f s) := by
  induction l generalizing s with
  | nil => exact h
  | cons b r ih => exact ih (hf _ _ h)

theorem Keeps.foldl_fst {α β : Type} {s0 : State} {f : State × α → β → State × α} {l : List β} {a : State × α}
    (hf : ∀ t b, Keeps s0 t.1 → Keeps s0 (f t b).1) (h : Keeps s0 a.1) : Keeps s0 (l.foldl f a).1 := by
  induction l generalizing a with
  | nil => exact h
  | cons b r ih => exact ih (hf _ _ h)

theorem Keeps.foldl_snd {α β : Type} {s0 : State} {f : α × State → β → α × State} {l : List β} {a : α × State}
    (hf : ∀ t b, Keeps s0 t.2 → Keeps s0 (f t b).2) (h : Keeps s0 a.2) : Keeps s0 (l.foldl f a).2 := by
  induction l generalizing a with
  | nil => exact h
  | cons b r ih => exact ih (hf _ _ h)

/-- An outcome whose next state, if it has one, keeps what `s0` had. -/
def KO (s0 : State) (o : Host.Outcome State Fault Refusal) : Prop := ∀ t, o = .next t → Keeps s0 t

theorem KO.next {s0 t : State} (h : Keeps s0 t) : KO s0 (.next t) := by
  intro u hu
  cases hu
  exact h

theorem KO.ite {s0 : State} {c : Prop} [Decidable c] {o o' : Host.Outcome State Fault Refusal} (h : KO s0 o) (h' : KO s0 o') :
    KO s0 (if c then o else o') := by
  split <;> assumption

/-! ### Computations -/

/-- What a computation that may end early answers, and the state it leaves. -/
abbrev after {ε α : Type} (m : ExceptT ε (StateM State) α) (s : State) : Except ε α × State := StateT.run (ExceptT.run m) s

/-- Run from a state that keeps what `s0` had, `m` leaves one that does. -/
def KM (s0 : State) {ε α : Type} (m : ExceptT ε (StateM State) α) : Prop := ∀ s, Keeps s0 s → Keeps s0 (after m s).2

/-- A computation in sequence: the second runs where the first ended, unless the first ended early. -/
theorem after_bind {ε α β : Type} (m : ExceptT ε (StateM State) α) (f : α → ExceptT ε (StateM State) β) (s : State) :
    after (m >>= f) s = match after m s with | (.ok a, s') => after (f a) s' | (.error t, s') => (.error t, s') := by
  have e : after (m >>= f) s = (fun r => ExceptT.bindCont f r.1 r.2) (after m s) := rfl
  rw [e]
  generalize after m s = r
  obtain ⟨x, s'⟩ := r
  cases x <;> rfl

theorem M.exec_bind {α β : Type} (m : M α) (f : α → M β) (s : State) :
    M.exec (m >>= f) s = match M.exec m s with | (.ok a, s') => M.exec (f a) s' | (.error t, s') => (.error t, s') := by
  have e : M.exec (m >>= f) s = (fun r => ExceptT.bindCont f r.1 r.2) (M.exec m s) := rfl
  rw [e]
  generalize M.exec m s = r
  obtain ⟨x, s'⟩ := r
  cases x <;> rfl

@[simp] theorem M.exec_pure {α : Type} (a : α) (s : State) : M.exec (pure a : M α) s = (.ok a, s) := rfl
@[simp] theorem M.exec_throw {α : Type} (x : Trap) (s : State) : M.exec (throw x : M α) s = (.error x, s) := rfl
@[simp] theorem M.exec_get (s : State) : M.exec (get : M State) s = (.ok s, s) := rfl
@[simp] theorem M.exec_set (t s : State) : M.exec (set t : M PUnit) s = (.ok ⟨⟩, t) := rfl
@[simp] theorem M.exec_modify (f : State → State) (s : State) : M.exec (modify f : M PUnit) s = (.ok ⟨⟩, f s) := rfl
@[simp] theorem M.exec_ask {α : Type} (f : State → α) (s : State) : M.exec (ask f) s = (.ok (f s), s) := rfl

theorem KM.ret {s0 : State} {ε α : Type} (a : α) : KM s0 (pure a : ExceptT ε (StateM State) α) := fun _ h => h

theorem KM.trap {s0 : State} {ε α : Type} (x : ε) : KM s0 (throw x : ExceptT ε (StateM State) α) := fun _ h => h

theorem KM.read {s0 : State} {ε : Type} : KM s0 (get : ExceptT ε (StateM State) State) := fun _ h => h

theorem KM.write {s0 s : State} {ε : Type} (h : Keeps s0 s) : KM s0 (set s : ExceptT ε (StateM State) PUnit) := fun _ _ => h

theorem KM.change {s0 : State} {ε : Type} {f : State → State} (h : ∀ s, Keeps s0 s → Keeps s0 (f s)) :
    KM s0 (modify f : ExceptT ε (StateM State) PUnit) := fun s hs => h s hs

theorem KM.look {s0 : State} {α : Type} (f : State → α) : KM s0 (ask f : M α) := fun _ h => h

theorem KM.seq {s0 : State} {ε α β : Type} {m : ExceptT ε (StateM State) α} {f : α → ExceptT ε (StateM State) β}
    (hm : KM s0 m) (hf : ∀ a, KM s0 (f a)) : KM s0 (m >>= f) := by
  intro s hs
  have h := hm s hs
  rw [after_bind]
  generalize after m s = r at h ⊢
  obtain ⟨x, s'⟩ := r
  cases x with
  | error t => exact h
  | ok a => exact hf a s' h

theorem KM.ite {s0 : State} {ε α : Type} {c : Prop} [Decidable c] {m m' : ExceptT ε (StateM State) α} (h : KM s0 m)
    (h' : KM s0 m') : KM s0 (if c then m else m') := by
  split <;> assumption

theorem KM.each {s0 : State} {ε α : Type} {f : α → ExceptT ε (StateM State) PUnit} (l : List α) (h : ∀ a, KM s0 (f a)) :
    KM s0 (l.forM f) := by
  induction l with
  | nil => exact KM.ret _
  | cons a r ih => exact KM.seq (h a) fun _ => ih

theorem KM.handled {s0 : State} {ε α : Type} {m : ExceptT ε (StateM State) α} {f : ε → ExceptT ε (StateM State) α}
    (hm : KM s0 m) (hf : ∀ x, KM s0 (f x)) : KM s0 (tryCatch m f) := by
  intro s hs
  have h := hm s hs
  have e : after (tryCatch m f) s =
      match after m s with | (.ok a, s') => (.ok a, s') | (.error x, s') => after (f x) s' := by
    have e' : after (tryCatch m f) s = (fun r : Except ε α × State => (match r.1 with
      | .ok a => (pure (.ok a) : StateM State (Except ε α)) | .error x => (f x).run) r.2) (after m s) := rfl
    rw [e']
    generalize after m s = r
    obtain ⟨x, s'⟩ := r
    cases x <;> rfl
  rw [e]
  generalize after m s = r at h ⊢
  obtain ⟨x, s'⟩ := r
  cases x with
  | ok a => exact h
  | error x => exact hf x s' h

theorem KM.readThen {s0 : State} {ε β : Type} {f : State → ExceptT ε (StateM State) β}
    (hf : ∀ s, Keeps s0 s → KM s0 (f s)) : KM s0 ((get : ExceptT ε (StateM State) State) >>= f) :=
  fun s hs => hf s hs s hs

theorem KM.go {s0 s : State} {ε α : Type} {m : ExceptT ε (StateM State) α} (hm : KM s0 m) (h : Keeps s0 s) :
    Keeps s0 (StateT.run (ExceptT.run m) s).2 := hm s h

theorem KM.run {s0 s : State} {α : Type} {m : M α} (hm : KM s0 m) (h : Keeps s0 s) : Keeps s0 (m.exec s).2 := hm s h

end Sys2Proof.Machine
end

