-- ==== Sys2Proof/Laws/Macro.lean ====
section
/-! SUPPORT. What the beginning and the end of a macro instruction do: a counter that wraps, the cycles that are counted, the
store buffer's entries that close; and what an instruction does whose own work changes nothing but its bank. -/

namespace Sys2Proof.Machine

/-! ### Aside -/

theorem Aside.refl (s : State) (e : Eng) : Aside s s e := by
  constructor <;> intros <;> rfl

theorem Aside.trans {s t u : State} {e : Eng} (h : Aside s t e) (k : Aside t u e) : Aside s u e where
  slots i := (k.slots i).trans (h.slots i)
  vectors := k.vectors.trans h.vectors
  engines d hd := (k.engines d hd).trans (h.engines d hd)
  homes := k.homes.trans h.homes
  l2 := k.l2.trans h.l2
  mem := k.mem.trans h.mem
  dmcs := k.dmcs.trans h.dmcs
  domains := k.domains.trans h.domains
  queues := k.queues.trans h.queues
  hif := k.hif.trans h.hif
  rings := k.rings.trans h.rings
  pairs := k.pairs.trans h.pairs
  plan := k.plan.trans h.plan
  events := k.events.trans h.events
  owners := k.owners.trans h.owners
  planDue := k.planDue.trans h.planDue
  keeper := k.keeper.trans h.keeper
  nv := k.nv.trans h.nv
  power := k.power.trans h.power
  pcm := by rw [k.pcm, h.pcm]
  sextant := k.sextant.trans h.sextant
  log := k.log.trans h.log
  pins := k.pins.trans h.pins
  tap := k.tap.trans h.tap
  sent := k.sent.trans h.sent
  draws := k.draws.trans h.draws
  pending := k.pending.trans h.pending

theorem modBank_aside (s : State) (e : Eng) (i : Nat) (f : Bank → Bank) : Aside s (s.modBank i f) e := by
  constructor <;> intros <;> rfl

theorem modEng_aside (s : State) (e : Eng) (f : Engine → Engine) : Aside s (s.modEng e f) e := by
  constructor <;> intros <;> try rfl
  rename_i d hd
  exact State.eng_modEng_ne _ _ _ _ hd

/-- A slot changed in nothing but what an event may change. -/
theorem modSlot_aside (s : State) (e : Eng) (i : Nat) (f : Slot → Slot) (hf : ∀ x, (f x).still = x.still) :
    Aside s (s.modSlot i f) e := by
  constructor <;> intros <;> try rfl
  rename_i j
  by_cases h : j = i
  · subst h
    rw [State.slot_modSlot, hf]
  · rw [State.slot_modSlot_ne _ _ _ _ h]

theorem dropEvent_aside (s : State) (e : Eng) (i : Nat) : Aside s (s.dropEvent i) e :=
  modSlot_aside _ _ _ _ fun _ => rfl

theorem pendVector_aside (s : State) (e : Eng) (i v : Nat) : Aside s (s.pendVector i v) e := by
  unfold State.pendVector
  split
  · exact dropEvent_aside _ _ _
  · exact dropEvent_aside _ _ _
  · split
    · exact dropEvent_aside _ _ _
    · exact modSlot_aside _ _ _ _ fun _ => rfl

theorem armSource_aside (s : State) (e : Eng) (src : Nat) : Aside s (s.armSource src) e := by
  unfold State.armSource
  split
  · constructor <;> intros <;> rfl
  · exact Aside.refl _ _

/-- What an event source does to the part beside the slots. -/
theorem fire_aside (s : State) (e : Eng) (src : Nat) : Aside s (s.fire src) e := by
  unfold State.fire
  dsimp only
  split
  · exact armSource_aside _ _ _
  · exact (armSource_aside _ _ _).trans (pendVector_aside _ _ _ _)

theorem setReg_aside (s : State) (e : Eng) (o : Nat) (v : Word) : Aside s (s.setReg o v) e := by
  constructor <;> intros <;> rfl

/-- An engine counter grows (R559). -/
theorem tick_aside (s : State) (d e : Eng) (k n : Nat) : Aside s (s.tick d k n) e := by
  unfold State.tick
  split
  · exact Aside.refl _ _
  · dsimp only
    split
    · exact setReg_aside _ _ _ _
    · exact ((setReg_aside _ _ _ _).trans (setReg_aside _ _ _ _)).trans (fire_aside _ _ _)

theorem pass_aside (s : State) (e : Eng) (n : Nat) : Aside s (s.pass e n) e := by
  unfold State.pass
  split
  · exact Aside.refl _ _
  · exact modEng_aside _ _ _

theorem cycles_aside (s : State) (e : Eng) (ftm : Bool) (n : Nat) : Aside s (s.cycles e ftm n) e := by
  unfold State.cycles
  dsimp only
  split
  · exact ((pass_aside _ _ _).trans (tick_aside _ _ _ _ _)).trans (tick_aside _ _ _ _ _)
  · exact (pass_aside _ _ _).trans (tick_aside _ _ _ _ _)

theorem seal_aside (s : State) (e : Eng) (d : Bool) : Aside s (s.seal e d) e := modEng_aside _ _ _

/-! ### Banks, engines and registers beside the counters -/

theorem pendVector_rest (s : State) (i v : Nat) :
    (s.pendVector i v).banks = s.banks ∧ (s.pendVector i v).engines = s.engines ∧ (s.pendVector i v).csr = s.csr := by
  unfold State.pendVector State.dropEvent
  split
  · exact ⟨rfl, rfl, rfl⟩
  · exact ⟨rfl, rfl, rfl⟩
  · split <;> exact ⟨rfl, rfl, rfl⟩

theorem fire_rest (s : State) (src : Nat) :
    (s.fire src).banks = s.banks ∧ (s.fire src).engines = s.engines ∧ (s.fire src).csr = s.csr := by
  have h : (s.armSource src).banks = s.banks ∧ (s.armSource src).engines = s.engines ∧ (s.armSource src).csr = s.csr := by
    unfold State.armSource
    split <;> exact ⟨rfl, rfl, rfl⟩
  unfold State.fire
  dsimp only
  split
  · exact h
  · have k := pendVector_rest (s.armSource src)
    exact ⟨(k _ _).1.trans h.1, (k _ _).2.1.trans h.2.1, (k _ _).2.2.trans h.2.2⟩

theorem tick_banks (s : State) (e : Eng) (k n : Nat) : (s.tick e k n).banks = s.banks ∧ (s.tick e k n).engines = s.engines := by
  unfold State.tick
  split
  · exact ⟨rfl, rfl⟩
  · dsimp only
    split
    · exact ⟨rfl, rfl⟩
    · exact ⟨(fire_rest _ _).1, (fire_rest _ _).2.1⟩

@[simp] theorem State.bank_tick (s : State) (e : Eng) (k n i : Nat) : (s.tick e k n).bank i = s.bank i := by
  unfold State.bank
  rw [(tick_banks s e k n).1]

@[simp] theorem State.eng_tick (s : State) (e d : Eng) (k n : Nat) : (s.tick e k n).eng d = s.eng d := by
  unfold State.eng
  rw [(tick_banks s e k n).2]

@[simp] theorem State.bank_pass (s : State) (e : Eng) (n i : Nat) : (s.pass e n).bank i = s.bank i := by
  unfold State.pass
  split <;> rfl

@[simp] theorem State.reg_pass (s : State) (e : Eng) (n o : Nat) : (s.pass e n).reg o = s.reg o := by
  unfold State.pass
  split <;> rfl

@[simp] theorem State.eng_pass (s : State) (e : Eng) (n : Nat) : (s.pass e n).eng e = (s.eng e).later n := by
  unfold State.pass
  split
  · rename_i h
    subst h
    rfl
  · rw [State.eng_modEng]
    rfl

theorem State.eng_pass_ne (s : State) (e d : Eng) (n : Nat) (h : d ≠ e) : (s.pass e n).eng d = s.eng d := by
  unfold State.pass
  split
  · rfl
  · exact State.eng_modEng_ne _ _ _ _ h

@[simp] theorem State.bank_cycles (s : State) (e : Eng) (ftm : Bool) (n i : Nat) : (s.cycles e ftm n).bank i = s.bank i := by
  unfold State.cycles
  dsimp only
  split <;> simp

@[simp] theorem State.eng_cycles (s : State) (e : Eng) (ftm : Bool) (n : Nat) :
    (s.cycles e ftm n).eng e = (s.eng e).later n := by
  unfold State.cycles
  dsimp only
  split <;> simp

@[simp] theorem State.reg_fire (s : State) (src o : Nat) : (s.fire src).reg o = s.reg o := by
  unfold State.reg
  rw [(fire_rest s src).2.2]

@[simp] theorem State.reg_seal (s : State) (e : Eng) (d : Bool) (o : Nat) : (s.seal e d).reg o = s.reg o := rfl

@[simp] theorem State.bank_seal (s : State) (e : Eng) (d : Bool) (i : Nat) : (s.seal e d).bank i = s.bank i := rfl

/-- An engine counter holds what it held plus what it grew by, modulo 2^64 (R555). -/
theorem State.reg_tick (s : State) (e : Eng) (k n : Nat) (hk : k < 32) :
    (s.tick e k n).reg (engCounter e k) = s.reg (engCounter e k) + BitVec.ofNat 64 n := by
  have h : ∀ v : Word, BitVec.ofNat 64 (v.toNat + n) = v + BitVec.ofNat 64 n := by
    intro v
    rw [BitVec.ofNat_add, BitVec.ofNat_toNat, BitVec.setWidth_eq]
  unfold State.tick
  split
  · simp_all
  · dsimp only
    split
    · exact (State.reg_setReg _ _ _).trans (h _)
    · rw [State.reg_fire]
      refine (State.reg_setReg_ne _ _ _ _ ?_).trans ((State.reg_setReg _ _ _).trans (h _))
      unfold engCounter
      omega

/-- Every other register stays but ENG.WRAPST. -/
theorem State.reg_tick_ne (s : State) (e : Eng) (k n o : Nat) (ho : o ≠ engCounter e k) (hw : o ≠ engWrap e) :
    (s.tick e k n).reg o = s.reg o := by
  unfold State.tick
  split
  · rfl
  · dsimp only
    split
    · exact State.reg_setReg_ne _ _ _ _ ho
    · rw [State.reg_fire]
      exact (State.reg_setReg_ne _ _ _ _ hw).trans (State.reg_setReg_ne _ _ _ _ ho)

theorem engCounter_ne (e : Eng) (i j : Nat) (h : i ≠ j) : engCounter e i ≠ engCounter e j := by
  unfold engCounter
  omega

theorem engCounter_ne_wrap (e : Eng) (i : Nat) : engCounter e i ≠ engWrap e := by
  unfold engCounter engWrap
  omega

/-- The end of an instruction counts it. -/
theorem counted_end (s : State) (e : Eng) (ftm : Bool) (n : Nat) : Counted s ((s.tick e 1 1).cycles e ftm n) e ftm n := by
  have h0 : ∀ u : State, (u.tick e 0 n).reg (engCounter e 0) = u.reg (engCounter e 0) + BitVec.ofNat 64 n :=
    fun u => State.reg_tick u e 0 n (by omega)
  have h1 : ∀ u : State, (u.tick e 1 1).reg (engCounter e 1) = u.reg (engCounter e 1) + 1 :=
    fun u => State.reg_tick u e 1 1 (by omega)
  have hx : ∀ u : State, (u.tick e 10 n).reg (engCounter e 10) = u.reg (engCounter e 10) + BitVec.ofNat 64 n :=
    fun u => State.reg_tick u e 10 n (by omega)
  have hn : ∀ (u : State) (k m i : Nat), i ≠ k → (u.tick e k m).reg (engCounter e i) = u.reg (engCounter e i) :=
    fun u k m i hi => State.reg_tick_ne u e k m _ (engCounter_ne e i k hi) (engCounter_ne_wrap e i)
  unfold State.cycles
  cases ftm
  · constructor
    · simp [h0, hn]
    · simp [h1, hn]
    · simp [hn]
    · intro o a b _ d
      simp [State.reg_tick_ne, *]
  · constructor
    · simp [h0, hn]
    · simp [h1, hn]
    · simp [hx, hn]
    · intro o a b c d
      simp [State.reg_tick_ne, *]

theorem takePostCheck_none (s : State) (e : Eng) (h : (s.eng e).postCheck = none) : s.takePostCheck e = s := by
  unfold State.takePostCheck
  rw [h]

/-! ### A macro instruction that begins -/

/-- A macro instruction that begins, is interruptible or not, runs its work. -/
theorem Begins.runMacro {s s1 : State} {c : Cx} {pred : BitVec 4} (h : Begins s c pred s1) (m : Macro) :
    s.runMacro c.e pred c.len m = s1.work c m := by
  obtain ⟨e, n, len⟩ := c
  have hf : fetch e (slotOf e n.val) (pswIA (s.bank (slotOf e n.val)).psw) len
      (s.modEng e fun x => { x with ria := field (s.bank (slotOf e n.val)).psw 0 48 }) = (.ok (), s1) := h.fetched
  have hp : pswIPR (s.bank (slotOf e n.val)).psw = false := h.fresh
  have ht : predicate (s1.bank (slotOf e n.val)) pred = true := h.taken
  unfold State.runMacro
  rw [h.ready]
  simp only [Cx.slot]
  rw [hf]
  simp only [hp, ht, Bool.false_eq_true, if_false, if_true]

/-- A macro instruction whose work completes. -/
theorem Begins.done {s s1 s2 : State} {c : Cx} {pred : BitVec 4} {m : Macro} {d : Done} (h : Begins s c pred s1)
    (hb : (m.body c).exec s1 = (.ok d, s2)) (hd : d ≠ .waits) (hr : ∀ x y, d ≠ .raises x y) :
    s.runMacro c.e pred c.len m =
      ((s2.seal c.e false).complete c (if m.selfTimed then 0 else m.count c s1) d).takePostCheck c.e := by
  rw [h.runMacro, State.work, hb]
  unfold State.finishWork
  cases d <;> first | rfl | exact absurd rfl hd | exact absurd rfl (hr _ _)

theorem State.eng_seal_false (s : State) (e : Eng) : (s.seal e false).eng e = (s.eng e).closed := by
  unfold State.seal
  simp [Engine.closed]

/-- How a work ends that, after what left `s2`, changed nothing but its bank: with the next instruction. -/
theorem Begins.register {s s1 s2 s3 : State} {c : Cx} {pred : BitVec 4} {m : Macro} {f : Bank → Bank}
    (h : Begins s c pred s1) (hc : (s2.eng c.e).postCheck = none) (hb : (m.body c).exec s1 = (.ok .seq, s3))
    (hm : m.selfTimed = false) (hf : Rebank s2 s3 c.slot f) (hs : { s3 with banks := s2.banks } = s2) :
    ∃ t, s.runMacro c.e pred c.len m = t ∧ Rebank s2 t c.slot (fun b => (f b).pass c.len)
      ∧ t.eng c.e = (s2.eng c.e).closed.later (m.count c s1) ∧ Counted s2 t c.e (pswFTM (f (s2.bank c.slot)).psw) (m.count c s1) ∧ Aside s2 t c.e := by
  refine ⟨_, rfl, ?_⟩
  have he : s3.eng c.e = s2.eng c.e := by rw [← hs]; rfl
  have hr : ∀ o, s3.reg o = s2.reg o := by intro o; rw [← hs]; rfl
  have ha : Aside s2 s3 c.e := by
    have : Aside { s3 with banks := s2.banks } s3 c.e := by constructor <;> intros <;> rfl
    rwa [hs] at this
  rw [h.done hb (by simp) (by simp), hm]
  generalize m.count c s1 = k
  have hb2 : (s3.seal c.e false).bank c.slot = f (s2.bank c.slot) := by
    rw [State.bank_seal, hf]
    simp
  simp only [Bool.false_eq_true, if_false, State.complete]
  rw [hb2]
  generalize hu : (s3.seal c.e false).modBank c.slot _ = u
  have hue : u.eng c.e = (s2.eng c.e).closed := by rw [← hu, State.eng_modBank, State.eng_seal_false, he]
  have hur : ∀ o, u.reg o = s2.reg o := by intro o; rw [← hu, State.reg_modBank, State.reg_seal, hr]
  have hua : Aside s2 u c.e := by
    rw [← hu]
    exact (ha.trans (seal_aside _ _ _)).trans (modBank_aside _ _ _ _)
  have hub : Rebank s2 u c.slot (fun b => (f b).pass c.len) := by
    intro j
    rw [← hu]
    split
    · rename_i hj
      rw [hj, State.bank_modBank, hb2]
      rfl
    · rename_i hj
      rw [State.bank_modBank_ne _ _ _ _ hj, State.bank_seal, hf, if_neg hj]
  rw [takePostCheck_none _ _ (by simp [hue, Engine.closed, Engine.later, hc])]
  refine ⟨?_, ?_, ?_, ?_⟩
  · intro j
    rw [State.bank_cycles, State.bank_tick]
    exact hub j
  · rw [State.eng_cycles, State.eng_tick, hue]
  · obtain ⟨a, b, d, o⟩ := counted_end u c.e (pswFTM (f (s2.bank c.slot)).psw) k
    rw [hur] at a b d
    exact ⟨a, b, d, fun i h1 h2 h3 h4 => (o i h1 h2 h3 h4).trans (hur i)⟩
  · exact (hua.trans (tick_aside _ _ _ _ _)).trans (cycles_aside _ _ _ _)

end Sys2Proof.Machine
end

