-- ==== Sys2Proof/Laws/Calm.lean ====
section
/-! SUPPORT. What the beginning of an access leaves alone: fetching, translating and caching change caches, TLBs, the
first-touch map and counters, and nothing else while no post is outstanding and no read would find an error. -/

namespace Sys2Proof.Machine

theorem Calm.refl (b : Option Eng) (s : State) : Calm b s s := by
  constructor <;> intros <;> first | rfl | assumption

theorem Calm.trans {b : Option Eng} {s t u : State} (h : Calm b s t) (k : Calm b t u) : Calm b s u where
  banks := k.banks.trans h.banks
  slots i := (k.slots i).trans (h.slots i)
  vectors := k.vectors.trans h.vectors
  arch d := (k.arch d).trans (h.arch d)
  buffers d hd := (k.buffers d hd).trans (h.buffers d hd)
  bytes hb := (k.bytes hb).trans (h.bytes hb)
  keys := k.keys.trans h.keys
  poison := k.poison.trans h.poison
  keyPoison := k.keyPoison.trans h.keyPoison
  errs l hl := k.errs l (h.errs l hl)
  undamaged hu := k.undamaged (h.undamaged hu)
  homes := k.homes.trans h.homes
  dmcs m := (k.dmcs m).trans (h.dmcs m)
  domains := k.domains.trans h.domains
  queues := k.queues.trans h.queues
  hif := k.hif.trans h.hif
  rings := k.rings.trans h.rings
  pairs := k.pairs.trans h.pairs
  plan := k.plan.trans h.plan
  events := k.events.trans h.events
  owners := k.owners.trans h.owners
  planDue := k.planDue.trans h.planDue
  keeper := k.keeper.trans h.keeper
  nv := k.nv.trans h.nv
  power := k.power.trans h.power
  pcm := by rw [k.pcm, h.pcm]
  sextant := k.sextant.trans h.sextant
  log := k.log.trans h.log
  pins := k.pins.trans h.pins
  tap := k.tap.trans h.tap
  regs o ho := (k.regs o ho).trans (h.regs o ho)
  sent := k.sent.trans h.sent
  pending := k.pending.trans h.pending

theorem Calm.loosen {s t : State} (e : Eng) (h : Calm none s t) : Calm (some e) s t :=
  { h with buffers := fun d _ => h.buffers d (by simp), bytes := by simp }

/-- What is quiet stays quiet. -/
theorem Quiet.keep {b : Option Eng} {s t : State} (h : Quiet s) (k : Calm b s t) : Quiet t where
  posts e := by
    have := congrArg Engine.posts (k.arch e)
    exact (show (t.eng e).posts = (s.eng e).posts from this).trans (h.posts e)
  homes u := by rw [k.homes]; exact h.homes u
  errs l := k.errs l (h.errs l)
  undamaged := k.undamaged h.undamaged
  standing d := by unfold State.dom; rw [k.domains]; exact h.standing d

/-- From a quiet state, `t` is calm. -/
def CQ (b : Option Eng) (s t : State) : Prop := Quiet s → Calm b s t

theorem CQ.refl (b : Option Eng) (s : State) : CQ b s s := fun _ => Calm.refl b s

theorem CQ.step {b : Option Eng} {s0 s t : State} (h : CQ b s0 s) (k : Calm b s t) : CQ b s0 t := fun q => (h q).trans k

/-- A change that a quiet state does not undergo. -/
theorem CQ.idle {b : Option Eng} {s0 s t : State} (h : CQ b s0 s) (k : Quiet s → t = s) : CQ b s0 t := by
  intro q
  rw [k (q.keep (h q))]
  exact h q

theorem CQ.ite {b : Option Eng} {s0 s t : State} {c : Prop} [Decidable c] (h : CQ b s0 s) (h' : CQ b s0 t) :
    CQ b s0 (if c then s else t) := by
  split <;> assumption

theorem CQ.foldl {b : Option Eng} {β : Type} {s0 s : State} {f : State → β → State} {l : List β}
    (hf : ∀ t x, CQ b s0 t → CQ b s0 (f t x)) (h : CQ b s0 s) : CQ b s0 (l.foldl f s) := by
  induction l generalizing s with
  | nil => exact h
  | cons x r ih => exact ih (hf _ _ h)

theorem CQ.foldl_snd {b : Option Eng} {α β : Type} {s0 : State} {f : α × State → β → α × State} {l : List β} {a : α × State}
    (hf : ∀ t x, CQ b s0 t.2 → CQ b s0 (f t x).2) (h : CQ b s0 a.2) : CQ b s0 (l.foldl f a).2 := by
  induction l generalizing a with
  | nil => exact h
  | cons x r ih => exact ih (hf _ _ h)

/-- A change that a quiet state does not undergo, for each of a list. -/
theorem foldl_same {β : Type} {s : State} {f : State → β → State} {l : List β} (h : ∀ x, f s x = s) : l.foldl f s = s := by
  induction l with
  | nil => rfl
  | cons x r ih => rw [List.foldl_cons, h, ih]

/-! ### Updates -/

variable {b : Option Eng} {s0 : State}

/-- What an event of a counter does is calm. -/
theorem Calm.of_aside {s t : State} {e : Eng} (h : Aside s t e) (hb : t.banks = s.banks) (he : t.engines = s.engines)
    (hr : ∀ o, ¬ counterArea o → t.reg o = s.reg o) : Calm b s t where
  banks := hb
  slots := h.slots
  vectors := h.vectors
  arch d := by unfold State.eng; rw [he]
  buffers d _ := by unfold State.eng; rw [he]
  bytes _ := by rw [h.mem]
  keys := by rw [h.mem]
  poison := by rw [h.mem]
  keyPoison := by rw [h.mem]
  errs l hl := by rw [h.mem]; exact hl
  undamaged hu := ⟨fun d => by unfold State.eng; rw [he]; exact hu.engines d, by rw [h.l2]; exact hu.l2⟩
  homes := h.homes
  dmcs m := by unfold State.dmc; rw [h.dmcs]
  domains := h.domains
  queues := h.queues
  hif := h.hif
  rings := h.rings
  pairs := h.pairs
  plan := h.plan
  events := h.events
  owners := h.owners
  planDue := h.planDue
  keeper := h.keeper
  nv := h.nv
  power := h.power
  pcm := h.pcm
  sextant := h.sextant
  log := h.log
  pins := h.pins
  tap := h.tap
  regs := hr
  sent := h.sent
  pending := h.pending

theorem CQ.modEng {s : State} (e : Eng) (f : Engine → Engine) (h : CQ b s0 s)
    (hf : (f (s.eng e)).arch = (s.eng e).arch) (hs : (f (s.eng e)).sb = (s.eng e).sb)
    (hu : (s.eng e).Undamaged → (f (s.eng e)).Undamaged) : CQ b s0 (s.modEng e f) := by
  refine h.step ?_
  constructor <;> intros <;> try first | rfl | assumption
  · rename_i d
    by_cases hd : d = e
    · rw [hd, State.eng_modEng, hf]
    · rw [State.eng_modEng_ne _ _ _ _ hd]
  · rename_i d _
    by_cases hd : d = e
    · rw [hd, State.eng_modEng, hs]
    · rw [State.eng_modEng_ne _ _ _ _ hd]
  · rename_i k
    refine ⟨fun d => ?_, k.l2⟩
    by_cases hd : d = e
    · rw [hd, State.eng_modEng]
      exact hu (k.engines e)
    · rw [State.eng_modEng_ne _ _ _ _ hd]
      exact k.engines d

theorem CQ.setReg {s : State} (o : Nat) (v : Word) (h : CQ b s0 s) (ho : counterArea o) : CQ b s0 (s.setReg o v) := by
  refine h.step ?_
  constructor <;> intros <;> try first | rfl | assumption
  · rename_i k
    exact ⟨k.engines, k.l2⟩
  · rename_i k hk
    exact State.reg_setReg_ne _ _ _ _ (fun e => hk (e ▸ ho))

theorem State.tick_calm {s : State} (e : Eng) (k n : Nat) (hk : k < 32) (h : CQ b s0 s) : CQ b s0 (s.tick e k n) := by
  refine h.step (Calm.of_aside (tick_aside s e e k n) (tick_banks s e k n).1 (tick_banks s e k n).2 fun o ho => ?_)
  have : ∀ j, j < 0x10000 → counterArea (engBase e.val + j) := by
    intro j hj
    left
    have := e.isLt
    unfold engBase
    omega
  refine State.reg_tick_ne s e k n o (fun h => ho ?_) (fun h => ho ?_)
  · rw [h, engCounter, Nat.add_assoc]
    exact this _ (by omega)
  · rw [h, engWrap]
    exact this _ (by omega)

theorem State.pass_calm {s : State} (e : Eng) (n : Nat) (h : CQ b s0 s) : CQ b s0 (s.pass e n) := by
  unfold State.pass
  split
  · exact h
  · exact h.modEng _ _ rfl rfl fun k => ⟨k.dcache, k.icache, k.buffer⟩

theorem State.cycles_calm {s : State} (e : Eng) (ftm : Bool) (n : Nat) (h : CQ b s0 s) : CQ b s0 (s.cycles e ftm n) := by
  unfold State.cycles
  dsimp only
  split
  · exact State.tick_calm _ _ _ (by omega) (State.tick_calm _ _ _ (by omega) (State.pass_calm _ _ h))
  · exact State.tick_calm _ _ _ (by omega) (State.pass_calm _ _ h)

theorem State.waitTerm_calm {s : State} (e : Eng) (n : Nat) (h : CQ b s0 s) : CQ b s0 (s.waitTerm e n) := by
  unfold State.waitTerm
  dsimp only
  split
  · exact State.pass_calm _ _ (State.tick_calm _ _ _ (by omega) h)
  · exact State.cycles_calm _ _ _ (State.tick_calm _ _ _ (by omega) h)

theorem State.fire_calm {s : State} (src : Nat) (h : CQ b s0 s) : CQ b s0 (s.fire src) :=
  h.step (Calm.of_aside (fire_aside s 0 src) (fire_rest s src).1 (fire_rest s src).2.1 fun o _ => State.reg_fire s src o)

theorem State.tumCount_calm {s : State} (e : Eng) (trap hi : Bool) (h : CQ b s0 s) : CQ b s0 (s.tumCount e trap hi) := by
  have hc : counterArea (tumBase + (if trap = true then 0x100 else 0) + 8 * e.val) := by
    right
    left
    have := e.isLt
    split <;> omega
  unfold State.tumCount
  generalize tumBase + (if trap = true then 0x100 else 0) + 8 * e.val = o at hc
  dsimp only
  generalize (field (s.reg o) (if hi = true then 32 else 0) 32).toNat + 1 = k
  split
  · exact h.setReg _ _ hc
  · exact State.fire_calm _ (h.setReg _ _ hc)

theorem State.count_calm {s : State} (o n : Nat) (ho : counterArea o) (h : CQ b s0 s) : CQ b s0 (s.count o n) :=
  h.setReg _ _ ho

theorem dmcArea (m : Fin 2) (k : Nat) (hk : k < 0x20000) : counterArea (dmcBase m.val + k) := by
  right
  right
  have := m.isLt
  unfold dmcBase qmgBase
  omega

theorem dmcArea' (m : Fin 2) (j k : Nat) (hk : j + 8 * k < 0x20000) : counterArea (dmcBase m.val + j + 8 * k) := by
  rw [Nat.add_assoc]
  exact dmcArea _ _ hk

theorem CQ.modDmc {s : State} (m : Fin 2) (f : Dmc → Dmc) (h : CQ b s0 s) (hf : (f (s.dmc m)).config = (s.dmc m).config) :
    CQ b s0 (s.modDmc m f) := by
  refine h.step ?_
  constructor <;> intros <;> try first | rfl | assumption
  · rename_i k
    exact ⟨k.engines, k.l2⟩
  · rename_i k
    by_cases hk : k = m
    · subst hk
      have : (s.modDmc k f).dmc k = f (s.dmc k) := by
        unfold State.modDmc State.dmc
        simp only [Fin.getElem_fin, Vector.getElem_set_self]
      rw [this, hf]
    · have hn : m.val ≠ k.val := fun e => hk (Fin.ext e.symm)
      have : (s.modDmc m f).dmc k = s.dmc k := by
        unfold State.modDmc State.dmc
        simp only [Fin.getElem_fin, Vector.getElem_set_ne _ _ hn]
      rw [this]

theorem CQ.l2 {s : State} (f : Tbl (List CLine)) (h : CQ b s0 s)
    (hf : (∀ k, ∀ y ∈ tget [] s.l2 k, y.err = []) → ∀ k, ∀ y ∈ tget [] f k, y.err = []) : CQ b s0 { s with l2 := f } := by
  refine h.step ?_
  constructor <;> intros <;> try first | rfl | assumption
  rename_i k
  exact ⟨k.engines, hf k.l2⟩

theorem CQ.errs {s : State} (f : Tbl (Option LineErr)) (g : Tbl (Option (List Byte))) (h : CQ b s0 s)
    (hf : ∀ l, tget none s.mem.errs l = none → tget none f l = none) :
    CQ b s0 { s with mem := { s.mem with errs := f, stale := g } } := by
  refine h.step ?_
  constructor <;> intros <;> try first | rfl | assumption
  · exact hf _ ‹_›
  · rename_i k
    exact ⟨k.engines, k.l2⟩

theorem CQ.draws {s : State} (n : Nat) (h : CQ b s0 s) : CQ b s0 { s with draws := n } := by
  refine h.step ?_
  constructor <;> intros <;> try first | rfl | assumption
  rename_i k
  exact ⟨k.engines, k.l2⟩

theorem tget_tdrop_none {α : Type} (t : Tbl (Option α)) (f : Nat → Bool) (l : Nat) (h : tget none t l = none) :
    tget none (tdrop t f) l = none := by
  induction t with
  | nil => rfl
  | cons p r ih =>
    obtain ⟨k, v⟩ := p
    simp only [tget] at h
    simp only [tdrop, List.filter_cons] at ih ⊢
    by_cases hk : k = l
    · subst hk
      simp only [if_true] at h
      subst h
      by_cases hf : f k = true
      · simp only [hf, Bool.not_true, Bool.false_eq_true, if_false]
        clear ih
        have : ∀ q : Tbl (Option α), tget none (q.filter fun p => !f p.1) k = none := by
          intro q
          induction q with
          | nil => rfl
          | cons p r ih =>
            obtain ⟨j, v⟩ := p
            simp only [List.filter_cons]
            split
            · rename_i hj
              have : j ≠ k := by
                rintro rfl
                simp [hf] at hj
              simp only [tget, this, if_false]
              exact ih
            · exact ih
        exact this r
      · simp [hf, tget]
    · simp only [hk, if_false] at h
      split
      · simp only [tget, hk, if_false]
        exact ih h
      · exact ih h

theorem State.dropErrs_calm {s : State} (f : Nat → Bool) (h : CQ b s0 s) : CQ b s0 (s.dropErrs f) :=
  h.errs _ s.mem.stale fun l => tget_tdrop_none _ f l

theorem State.endFill_calm {s : State} (m : Fin 2) (g : Nat) (h : CQ b s0 s) : CQ b s0 (s.endFill m g) :=
  CQ.modDmc m (fun d => d.endTracker g) (State.dropErrs_calm _ h) (by rfl)

theorem State.writeIntent_calm {s : State} (line : Nat) (h : CQ b s0 s) : CQ b s0 (s.writeIntent line).2 := by
  have ha := dmcArea' (s.granOfLine line).1 0x120
  unfold State.writeIntent
  dsimp only
  split
  · exact h
  · split
    · dsimp only
      exact CQ.modDmc _ _ (State.count_calm _ _ (ha 13 (by omega)) (State.dropErrs_calm _ h)) rfl
    · exact h
  · dsimp only
    refine CQ.modDmc _ _ (State.count_calm _ _ (ha 13 (by omega)) (State.count_calm _ _ (ha 6 (by omega))
      (State.dropErrs_calm _ ?_))) rfl
    split
    · exact h
    · split
      · exact State.endFill_calm _ _ h
      · exact h

theorem State.waitTracker_calm {s : State} (e : Eng) (line : Nat) (h : CQ b s0 s) : CQ b s0 (s.waitTracker e line) := by
  unfold State.waitTracker
  dsimp only
  split
  · exact h
  · exact State.waitTerm_calm _ _ (h.draws _)

theorem State.dramAwake_calm {s : State} (line : Nat) (h : CQ b s0 s) : CQ b s0 (s.dramAwake line) := by
  unfold State.dramAwake
  dsimp only
  split
  · exact CQ.modDmc _ _ h rfl
  · exact h

/-! ### Caches -/

theorem State.wroteBack_calm {s : State} (line : Nat) (h : CQ b s0 s) : CQ b s0 (s.wroteBack line) := by
  refine h.errs _ _ fun l hl => ?_
  rw [tget_tset]
  split
  · rfl
  · exact hl

/-- What a change of one set leaves undamaged. -/
theorem tset_undamaged {t : Tbl (List CLine)} {k : Nat} {l : List CLine} (h : ∀ k, ∀ y ∈ tget [] t k, y.err = [])
    (hl : ∀ y ∈ l, y.err = []) : ∀ j, ∀ y ∈ tget [] (tset [] t k l) j, y.err = [] := by
  intro j y hy
  rw [tget_tset] at hy
  split at hy
  · exact hl y hy
  · exact h j y hy

theorem State.modDcSet_calm {s : State} (e : Eng) (line : Nat) (f : List CLine → List CLine)
    (hf : ∀ l, (∀ y ∈ l, y.err = []) → ∀ y ∈ f l, y.err = []) (h : CQ b s0 s) : CQ b s0 (s.modDcSet e line f) :=
  h.modEng _ _ rfl rfl fun k => ⟨tset_undamaged k.dcache (hf _ (k.dcache _)), k.icache, k.buffer⟩

theorem State.modL2Set_calm {s : State} (c : Fin 4) (line : Nat) (f : List CLine → List CLine)
    (hf : ∀ l, (∀ y ∈ l, y.err = []) → ∀ y ∈ f l, y.err = []) (h : CQ b s0 s) : CQ b s0 (s.modL2Set c line f) :=
  h.l2 _ fun k => tset_undamaged k (hf _ (k _))

theorem filter_undamaged {l : List CLine} (p : CLine → Bool) (h : ∀ y ∈ l, y.err = []) : ∀ y ∈ l.filter p, y.err = [] :=
  fun y hy => h y (List.mem_filter.1 hy).1

theorem map_undamaged {l : List CLine} (f : CLine → CLine) (hf : ∀ y, (f y).err = y.err) (h : ∀ y ∈ l, y.err = []) :
    ∀ y ∈ l.map f, y.err = [] := by
  intro y hy
  obtain ⟨x, hx, rfl⟩ := List.mem_map.1 hy
  rw [hf]
  exact h x hx

theorem State.dcDrop_calm {s : State} (line : Nat) (e : Eng) (h : CQ b s0 s) : CQ b s0 (s.dcDrop line e) :=
  CQ.ite (State.modDcSet_calm _ _ _ (fun _ => filter_undamaged _) h) h

theorem State.dcShare_calm {s : State} (line : Nat) (e : Eng) (h : CQ b s0 s) : CQ b s0 (s.dcShare line e) :=
  CQ.ite (State.modDcSet_calm _ _ _ (fun _ => map_undamaged _ fun _ => by split <;> rfl) h) h

theorem State.l2Drop_calm {s : State} (line : Nat) (c : Fin 4) (h : CQ b s0 s) : CQ b s0 (s.l2Drop line c) :=
  CQ.ite (State.modL2Set_calm _ _ _ (fun _ => filter_undamaged _) h) h

theorem State.l2Share_calm {s : State} (line : Nat) (c : Fin 4) (h : CQ b s0 s) : CQ b s0 (s.l2Share line c) :=
  CQ.ite (State.modL2Set_calm _ _ _ (fun _ => map_undamaged _ fun _ => by split <;> rfl) h) h

theorem State.l2Set_calm {s : State} (line : Nat) (c : Fin 4) (st : Mesi) (h : CQ b s0 s) : CQ b s0 (s.l2Set line c st) :=
  CQ.ite (State.modL2Set_calm _ _ _ (fun _ => map_undamaged _ fun _ => by split <;> rfl) h) h

theorem icErr_undamaged {t : Tbl (List Nat)} {k : Nat} (h : ∀ k, tget [] t k = []) : ∀ j, tget [] (tset [] t k []) j = [] := by
  intro j
  rw [tget_tset]
  split
  · rfl
  · exact h j

theorem State.icDrop_calm {s : State} (line : Nat) (e : Eng) (h : CQ b s0 s) : CQ b s0 (s.icDrop line e) := by
  refine CQ.ite (h.modEng _ _ rfl rfl fun k => ⟨k.dcache, ?_, k.buffer⟩) h
  dsimp only
  split
  · exact k.icache
  · exact icErr_undamaged k.icache

theorem State.dropCopies_calm {s : State} (line : Nat) (h : CQ b s0 s) : CQ b s0 (s.dropCopies line) :=
  CQ.foldl (fun _ _ => State.l2Drop_calm _ _) (CQ.foldl (fun _ _ => State.icDrop_calm _ _)
    (CQ.foldl (fun _ _ => State.dcDrop_calm _ _) (CQ.ite (State.wroteBack_calm _ h) h)))

theorem State.shareCopies_calm {s : State} (line : Nat) (h : CQ b s0 s) : CQ b s0 (s.shareCopies line) :=
  CQ.foldl (fun _ _ => State.l2Share_calm _ _) (CQ.foldl (fun _ _ => State.dcShare_calm _ _)
    (CQ.ite (State.wroteBack_calm _ h) h))

theorem secded8_nil : secded8 [] = .clean := rfl

/-- A copy without failing bits is read as it is. -/
theorem State.dcCheck_same {s : State} (e : Eng) (line finder : Nat) (h : s.Undamaged) : s.dcCheck e line finder = s := by
  unfold State.dcCheck
  split
  · rfl
  · rename_i x hx
    rw [(h.engines e).dcache _ x (List.mem_of_find?_eq_some hx), secded8_nil]

theorem State.l2Check_same {s : State} (c : Fin 4) (line finder : Nat) (h : s.Undamaged) : s.l2Check c line finder = s := by
  unfold State.l2Check
  split
  · rfl
  · rename_i x hx
    unfold State.l2Copy at hx
    split at hx
    · cases hx
    · rw [h.l2 _ x (List.mem_of_find?_eq_some hx), secded8_nil]

theorem State.dirtyCheck_same {s : State} (line finder : Nat) (h : s.Undamaged) : s.dirtyCheck line finder = s := by
  unfold State.dirtyCheck
  dsimp only
  rw [foldl_same (s := s) fun e => by
    split
    · exact State.dcCheck_same e line finder h
    · rfl]
  exact foldl_same fun c => by
    split
    · exact State.l2Check_same c line finder h
    · rfl

theorem State.dcCheck_calm {s : State} (e : Eng) (line finder : Nat) (h : CQ b s0 s) : CQ b s0 (s.dcCheck e line finder) :=
  h.idle fun q => State.dcCheck_same _ _ _ q.undamaged

theorem State.l2Check_calm {s : State} (c : Fin 4) (line finder : Nat) (h : CQ b s0 s) : CQ b s0 (s.l2Check c line finder) :=
  h.idle fun q => State.l2Check_same _ _ _ q.undamaged

theorem State.dirtyCheck_calm {s : State} (line finder : Nat) (h : CQ b s0 s) : CQ b s0 (s.dirtyCheck line finder) :=
  h.idle fun q => State.dirtyCheck_same _ _ q.undamaged

theorem State.countRecall_calm {s : State} (line : Nat) (h : CQ b s0 s) : CQ b s0 (s.countRecall line) :=
  CQ.ite (State.count_calm _ _ (dmcArea' _ 0x120 8 (by omega)) h) h

theorem State.recall_calm {s : State} (line : Nat) (h : CQ b s0 s) : CQ b s0 (s.recall line) :=
  State.dropCopies_calm _ (State.dirtyCheck_calm _ _ (State.countRecall_calm _ h))

theorem State.share_calm {s : State} (line : Nat) (h : CQ b s0 s) : CQ b s0 (s.share line) :=
  State.shareCopies_calm _ (State.dirtyCheck_calm _ _ (State.countRecall_calm _ h))

theorem State.dirAlloc_calm {s : State} (line : Nat) (h : CQ b s0 s) : CQ b s0 (s.dirAlloc line) := by
  unfold State.dirAlloc
  dsimp only
  split
  · exact h
  · split
    · exact CQ.modDmc _ _ h rfl
    · split
      · with_reducible refine CQ.modDmc _ _ (State.count_calm _ _ ?_ (State.recall_calm _ h)) ?_
        · exact dmcArea' _ 0x120 9 (by omega)
        · generalize State.dmc _ _ = d
          rfl
      · exact CQ.modDmc _ _ h rfl

theorem State.clusterDrop_calm {s : State} (c : Fin 4) (line : Nat) (h : CQ b s0 s) :
    CQ b s0 ((clusterEngines c).foldl (State.dcDrop · line ·) s) := CQ.foldl (fun _ _ => State.dcDrop_calm _ _) h

/-- The dirty copies of a cluster's data caches are read. -/
theorem State.clusterCheck_calm {s : State} (c : Fin 4) (line : Nat) (h : CQ b s0 s) :
    CQ b s0 ((clusterEngines c).foldl (fun s e => if s.dcHolds e line = some .m then s.dcCheck e line 3 else s) s) :=
  CQ.foldl (fun _ _ ht => CQ.ite (State.dcCheck_calm _ _ _ ht) ht) h

/-- A line evicted from an undamaged set is undamaged. -/
theorem evict_undamaged {ways : Nat} {l : List CLine} (h : ∀ y ∈ l, y.err = []) :
    (∀ y ∈ (evict ways l).1, y.err = []) ∧ ∀ y, (evict ways l).2 = some y → y.err = [] := by
  unfold evict
  split
  · exact ⟨fun y hy => h y (List.dropLast_subset _ hy), fun y hy => h y (List.mem_of_getLast? hy)⟩
  · exact ⟨h, fun y hy => by cases hy⟩

theorem cons_undamaged {line : Nat} {st : Mesi} {l : List CLine} (h : ∀ y ∈ l, y.err = []) :
    ∀ y ∈ CLine.mk line st [] :: l, y.err = [] := by
  intro y hy
  rcases List.mem_cons.1 hy with rfl | hy
  · rfl
  · exact h y hy

theorem State.l2Evict_calm {s : State} (c : Fin 4) (v : CLine) (hv : Quiet s0 → v.err = []) (h : CQ b s0 s) :
    CQ b s0 (s.l2Evict c v) := by
  intro q
  have hu := hv q
  unfold State.l2Evict
  rw [hu, secded8_nil]
  dsimp only
  simp only [reduceCtorEq, decide_false, Bool.and_false, Bool.false_eq_true, if_false]
  exact State.clusterDrop_calm _ _ (CQ.ite (State.wroteBack_calm _ (State.clusterCheck_calm _ _ h))
    (State.clusterCheck_calm _ _ h)) q

theorem State.l2Fill_calm {s : State} (c : Fin 4) (line : Nat) (st : Mesi) (h : CQ b s0 s) : CQ b s0 (s.l2Fill c line st) := by
  unfold State.l2Fill
  dsimp only
  split
  · exact h
  · have hs := h.l2 (tset [] s.l2 (s.l2Key c line) (CLine.mk line st [] ::
        (evict 16 ((tget [] s.l2 (s.l2Key c line)).filter (fun x => x.line != line))).1))
      fun k => tset_undamaged k (cons_undamaged (evict_undamaged (filter_undamaged _ (k _))).1)
    split
    · exact hs
    · rename_i v hv
      exact State.l2Evict_calm _ _
        (fun q => (evict_undamaged (filter_undamaged _ ((q.keep (h q)).undamaged.l2 _))).2 _ hv) hs

theorem State.dcFill_calm {s : State} (e : Eng) (line : Nat) (st : Mesi) (h : CQ b s0 s) : CQ b s0 (s.dcFill e line st) := by
  unfold State.dcFill
  dsimp only
  have hs := h.modEng e (fun x => { x with dcache := tset [] x.dcache (dcSet line) (CLine.mk line st [] ::
      (evict 8 ((tget [] (s.eng e).dcache (dcSet line)).filter (fun x => x.line != line))).1) }) rfl rfl
    fun k => ⟨tset_undamaged k.dcache (cons_undamaged (evict_undamaged (filter_undamaged _ (k.dcache _))).1), k.icache, k.buffer⟩
  split
  · exact hs
  · rename_i v hv
    split
    · intro q
      have hu : v.err = [] := (evict_undamaged (filter_undamaged _ (((q.keep (h q)).undamaged.engines e).dcache _))).2 _ hv
      rw [hu, secded8_nil]
      simp only [reduceCtorEq, if_false]
      refine (CQ.ite (State.l2Set_calm _ _ _ hs) (State.wroteBack_calm _ hs)) q
    · exact hs

theorem State.countTerm_calm {s : State} (e : Eng) (t : LineTerm) (h : CQ b s0 s) : CQ b s0 (s.countTerm e t) := by
  cases t <;> first | exact h | exact State.tick_calm _ _ _ (by omega) h

theorem CQ.ite_snd {α : Type} {p q : α × State} {c : Prop} [Decidable c] (h : CQ b s0 p.2) (h' : CQ b s0 q.2) :
    CQ b s0 (if c then p else q).2 := by
  split <;> assumption

/-- A read that finds no error changes nothing. -/
theorem State.demandRead_calm {s : State} (line finder : Nat) (h : CQ b s0 s) : CQ b s0 (s.demandRead line finder) := by
  refine h.idle fun q => ?_
  unfold State.demandRead State.arrayRead
  rw [q.errs line]
  rfl

theorem State.homeRead_calm {s : State} (line : Nat) (h : CQ b s0 s) : CQ b s0 (s.homeRead line) := by
  unfold State.homeRead
  dsimp only
  split
  · exact State.count_calm _ _ (dmcArea _ 0x100 (by omega)) (State.dramAwake_calm _ h)
  · exact State.demandRead_calm _ _ (State.count_calm _ _ (dmcArea _ 0x120 (by omega)) (State.dramAwake_calm _ h))

theorem State.clusterShare_calm {s : State} (c : Fin 4) (line : Nat) (h : CQ b s0 s) : CQ b s0 (s.clusterShare c line) :=
  CQ.foldl (fun _ _ => State.dcShare_calm _ _) (CQ.ite (State.l2Set_calm _ _ _ (State.clusterCheck_calm _ _ h))
    (State.clusterCheck_calm _ _ h))

theorem State.clusterRead_calm {s : State} (e : Eng) (line : Nat) (h : CQ b s0 s) : CQ b s0 (s.clusterRead e line).2.2 := by
  unfold State.clusterRead
  dsimp only
  split
  · with_reducible exact State.l2Fill_calm _ _ _ (State.clusterShare_calm _ _ (State.l2Check_calm _ _ _ h))
  · with_reducible exact State.l2Fill_calm _ _ _ (State.dirAlloc_calm _ (State.homeRead_calm _
      (CQ.ite h (State.share_calm _ h))))

theorem State.uncachedRead_calm {s : State} (e : Eng) (line : Nat) (h : CQ b s0 s) : CQ b s0 (s.uncachedRead e line).2 := by
  unfold State.uncachedRead
  split
  · exact State.demandRead_calm _ _ h
  · exact State.demandRead_calm _ _ h
  · exact State.homeRead_calm _ h
  · exact h

theorem State.clusterOwn_calm {s : State} (e : Eng) (line : Nat) (h : CQ b s0 s) : CQ b s0 (s.clusterOwn e line).2 := by
  unfold State.clusterOwn
  dsimp only
  split
  · with_reducible exact State.l2Fill_calm _ _ _ (CQ.foldl (fun _ _ => State.icDrop_calm _ _)
      (State.clusterDrop_calm _ _ (State.clusterShare_calm _ _ (State.l2Check_calm _ _ _ h))))
  · have hw := State.writeIntent_calm line (State.waitTracker_calm e line (State.recall_calm line h))
    with_reducible exact State.l2Fill_calm _ _ _ (State.dirAlloc_calm _ (CQ.ite hw (State.homeRead_calm _ hw)))

theorem State.uncachedWrite_calm {s : State} (e : Eng) (line : Nat) (h : CQ b s0 s) : CQ b s0 (s.uncachedWrite e line).2 := by
  unfold State.uncachedWrite
  split
  · exact h
  · exact h
  · exact State.writeIntent_calm _ (State.waitTracker_calm _ _ h)
  · exact h

theorem State.cacheAccess_calm {s : State} (e : Eng) (line : Nat) (write : Bool) (h : CQ b s0 s) :
    CQ b s0 (s.cacheAccess e line write).2 := by
  have hd := State.dcCheck_calm e line 0 h
  unfold State.cacheAccess
  dsimp only
  with_reducible repeat' (
    first | assumption | apply State.dcFill_calm | apply State.uncachedWrite_calm | apply State.uncachedRead_calm
             | apply State.clusterOwn_calm | apply State.clusterRead_calm | apply State.demandRead_calm
             | apply State.recall_calm | apply State.share_calm | apply State.tick_calm | apply CQ.ite | apply CQ.ite_snd
             | omega | split)

theorem State.linesAccess_calm {s : State} (e : Eng) (ls : List Nat) (write crossed : Bool) (h : CQ b s0 s) :
    CQ b s0 (s.linesAccess e ls write crossed) := by
  unfold State.linesAccess
  refine State.waitTerm_calm _ _ (State.tick_calm _ _ _ (by omega) ?_)
  exact CQ.foldl_snd (fun _ _ ht => State.countTerm_calm _ _ (State.cacheAccess_calm _ _ _ ht)) h

theorem State.noteStale_calm {s : State} (line : Nat) (h : CQ b s0 s) : CQ b s0 (s.noteStale line) :=
  CQ.ite (h.errs _ _ fun _ hl => hl) h

/-- No post waits at any home. -/
theorem State.performBefore_same {s : State} (pa n : Nat) (h : Quiet s) : s.performBefore pa n = s := by
  unfold State.performBefore
  refine foldl_same fun line => ?_
  split
  · rfl
  · unfold State.performQueue
    rw [h.homes]
    rfl

theorem State.performBefore_calm {s : State} (pa n : Nat) (h : CQ b s0 s) : CQ b s0 (s.performBefore pa n) :=
  h.idle (State.performBefore_same _ _)

theorem State.keyRead_calm {s : State} (pa : Nat) (h : CQ b s0 s) : CQ b s0 (s.keyRead pa) :=
  CQ.ite (State.dirtyCheck_calm _ _ h) (State.demandRead_calm _ _ h)

theorem State.walkTerm_calm {s : State} (e : Eng) (n : Nat) (h : CQ b s0 s) : CQ b s0 (s.walkTerm e n) :=
  State.waitTerm_calm _ _ (State.tick_calm e 26 n (by omega) h)

/-! ### Instruction lines -/

theorem State.icCheck_calm {s : State} (e : Eng) (line : Nat) (h : CQ b s0 s) : CQ b s0 (s.icCheck e line) := by
  refine h.idle fun q => ?_
  unfold State.icCheck
  rw [(q.undamaged.engines e).icache]
  rfl

theorem State.fetchAccess_calm {s : State} (e : Eng) (line : Nat) (h : CQ b s0 s) : CQ b s0 (s.fetchAccess e line).2 := by
  have hm := fun y : Tbl (List Nat) => h.modEng e (fun x => { x with icache := y }) rfl rfl
    fun k => ⟨k.dcache, k.icache, k.buffer⟩
  unfold State.fetchAccess
  dsimp only
  split
  · exact State.countTerm_calm _ _ (State.uncachedRead_calm _ _ h)
  · split
    · exact hm _
    · refine State.tick_calm e 13 1 (by omega) (State.countTerm_calm _ _ ?_)
      generalize hu : State.modEng s e _ = u
      have hu' : CQ b s0 u := hu ▸ hm _
      split
      · with_reducible exact State.demandRead_calm _ _ (State.share_calm _ hu')
      · with_reducible exact State.clusterRead_calm _ _ hu'

theorem State.fetchWait_calm {s : State} (e : Eng) (n : Nat) (h : CQ b s0 s) : CQ b s0 (s.fetchWait e n) :=
  State.waitTerm_calm _ _ (State.tick_calm e 14 n (by omega) h)

theorem State.fetchLine_calm {s : State} (e : Eng) (line : Nat) (h : CQ b s0 s) : CQ b s0 (s.fetchLine e line) := by
  have hi := State.icCheck_calm e line h
  unfold State.fetchLine
  dsimp only
  with_reducible repeat' (
    first | assumption | apply State.fetchWait_calm | apply State.fetchAccess_calm | split)

theorem State.fetchAhead_calm {s : State} (e : Eng) (cur : Nat) (next : Option Nat) (h : CQ b s0 s) :
    CQ b s0 (s.fetchAhead e cur next) := by
  unfold State.fetchAhead
  split
  · exact h.modEng _ _ rfl rfl fun k => ⟨k.dcache, k.icache, k.buffer⟩
  · split
    · exact h
    · split
      · exact h.modEng _ _ rfl rfl fun k => ⟨k.dcache, k.icache, k.buffer⟩
      · exact CQ.modEng _ _ (State.fetchAccess_calm _ _ (State.icCheck_calm _ _ h)) rfl rfl
          fun k => ⟨k.dcache, k.icache, k.buffer⟩

/-! ### Computations -/

/-- A computation that is calm from a quiet state on. -/
def CM (b : Option Eng) (s0 : State) {ε α : Type} (m : ExceptT ε (StateM State) α) : Prop :=
  ∀ s, CQ b s0 s → CQ b s0 (after m s).2

theorem CM.ret {ε α : Type} (a : α) : CM b s0 (pure a : ExceptT ε (StateM State) α) := fun _ h => h

theorem CM.trap {ε α : Type} (x : ε) : CM b s0 (throw x : ExceptT ε (StateM State) α) := fun _ h => h

theorem CM.write {ε : Type} {s : State} (h : CQ b s0 s) : CM b s0 (set s : ExceptT ε (StateM State) PUnit) := fun _ _ => h

theorem CM.change {ε : Type} {f : State → State} (h : ∀ s, CQ b s0 s → CQ b s0 (f s)) :
    CM b s0 (modify f : ExceptT ε (StateM State) PUnit) := fun s hs => h s hs

theorem CM.look {α : Type} (f : State → α) : CM b s0 (ask f : M α) := fun _ h => h

theorem CM.seq {ε α β : Type} {m : ExceptT ε (StateM State) α} {f : α → ExceptT ε (StateM State) β}
    (hm : CM b s0 m) (hf : ∀ a, CM b s0 (f a)) : CM b s0 (m >>= f) := by
  intro s hs
  have h := hm s hs
  rw [after_bind]
  generalize after m s = r at h ⊢
  obtain ⟨x, s'⟩ := r
  cases x with
  | error t => exact h
  | ok a => exact hf a s' h

theorem CM.ite {ε α : Type} {c : Prop} [Decidable c] {m m' : ExceptT ε (StateM State) α} (h : CM b s0 m) (h' : CM b s0 m') :
    CM b s0 (if c then m else m') := by
  split <;> assumption

theorem CM.readThen {ε β : Type} {f : State → ExceptT ε (StateM State) β}
    (hf : ∀ s, CQ b s0 s → CM b s0 (f s)) : CM b s0 ((get : ExceptT ε (StateM State) State) >>= f) :=
  fun s hs => hf s hs s hs

theorem accessFault_calm {α : Type} (reason : Nat) (acc : Acc) (level va : Nat) :
    CM b s0 (accessFault (α := α) reason acc level va) := CM.trap _

theorem walkLine_calm (e : Eng) (line : Nat) : CM b s0 (walkLine e line) := by
  unfold walkLine
  refine CM.readThen fun s hs => ?_
  exact CM.write (State.walkTerm_calm _ _ (State.countTerm_calm _ _ (State.cacheAccess_calm _ _ _ hs)))

theorem walkKey_calm (e : Eng) (pa va : Nat) : CM b s0 (walkKey e pa va) := by
  unfold walkKey
  with_reducible repeat' (
    first | assumption | apply State.keyRead_calm | apply walkLine_calm | apply CM.ret | apply CM.trap | apply CM.look
             | apply CM.readThen | apply CM.write | apply CM.ite | apply CM.seq | (intro) | split)

theorem walkRead_calm (e : Eng) (key : Nat) (acc : Acc) (va ea level : Nat) : CM b s0 (walkRead e key acc va ea level) := by
  unfold walkRead
  with_reducible repeat' (
    first | assumption | apply walkKey_calm | apply State.performBefore_calm | apply walkLine_calm | apply accessFault_calm
             | apply CM.ret | apply CM.trap | apply CM.readThen | apply CM.change | apply CM.ite | apply CM.seq | (intro))

theorem walkFrom_calm (e : Eng) (key : Nat) (acc : Acc) (va fuel table : Nat) :
    CM b s0 (walkFrom e key acc va fuel table) := by
  induction fuel generalizing table with
  | zero => exact accessFault_calm _ _ _ _
  | succ n ih =>
    unfold walkFrom
    dsimp only
    with_reducible repeat' (
      first | apply ih | apply accessFault_calm | apply walkRead_calm | apply walkKey_calm | apply CM.ret | apply CM.readThen
               | apply CM.ite | apply CM.seq | (intro))

theorem tlbInsert_calm (e : Eng) (fetch : Bool) (x : TlbEntry) : CM b s0 (tlbInsert e fetch x) := by
  unfold tlbInsert
  refine CM.readThen fun s hs => ?_
  dsimp only
  refine CM.write (CQ.modEng _ _ ?_ ?_ ?_ ?_)
  · split
    · exact hs
    · exact CQ.modEng e (fun y => { y with lfsr := lfsrAfter (Config.lfsrSteps s.draws) (s.eng e).lfsr })
        (hs.draws (s.draws + 1)) rfl rfl fun k => ⟨k.dcache, k.icache, k.buffer⟩
  · cases fetch <;> rfl
  · cases fetch <;> rfl
  · intro k
    cases fetch <;> exact ⟨k.dcache, k.icache, k.buffer⟩

theorem lookup_calm (e : Eng) (key : Nat) (acc : Acc) (va : Nat) : CM b s0 (lookup e key acc va) := by
  unfold lookup
  dsimp only
  with_reducible repeat' (
    first | assumption | apply accessFault_calm | apply walkFrom_calm | apply tlbInsert_calm | apply State.tumCount_calm
             | apply State.walkTerm_calm | apply State.keyRead_calm | apply CM.look | apply CM.ret | apply CM.trap | apply CM.readThen
             | apply CM.write | apply CM.change | apply CM.ite | apply CM.seq | omega | (intro) | split | dsimp only)

theorem checkLeaf_calm (acc : Acc) (va key : Nat) (priv : Bool) (krr : BitVec 32) (l : Leaf) :
    CM b s0 (checkLeaf acc va key priv krr l) := by
  unfold checkLeaf
  refine CM.readThen fun s _ => ?_
  split
  · exact accessFault_calm _ _ _ _
  · exact CM.ret _

theorem translate_calm (e : Eng) (slot : Nat) (acc : Acc) (va : Nat) : CM b s0 (translate e slot acc va) := by
  have hf : ∀ (t : State) (f : Tbl (Option TlbEntry) → Tbl (Option TlbEntry)), CQ b s0 t →
      CQ b s0 (t.modEng e fun x => { x with dtlb := f x.dtlb }) := fun t f h => h.modEng _ _ rfl rfl
      fun k => ⟨k.dcache, k.icache, k.buffer⟩
  unfold translate
  with_reducible repeat' (
    first | assumption | apply accessFault_calm | apply lookup_calm | apply checkLeaf_calm | apply State.tumCount_calm
             | apply CM.ret | apply CM.look | apply CM.change | apply CM.ite | apply CM.seq | apply hf | (intro))

theorem translateAll_calm (e : Eng) (slot : Nat) (acc : Acc) (ps : List (Nat × Nat)) : CM b s0 (translateAll e slot acc ps) := by
  induction ps with
  | nil => exact CM.ret _
  | cons p r ih =>
    obtain ⟨va, n⟩ := p
    exact CM.seq (translate_calm _ _ _ _) fun _ => CM.seq ih fun _ => CM.ret _

theorem addressRange_calm (ea n : Nat) : CM b s0 (addressRange ea n) := CM.ite (CM.trap _) (CM.ret _)

theorem pieces_calm (e : Eng) (slot : Nat) (acc : Acc) (ea n : Nat) : CM b s0 (pieces e slot acc ea n) :=
  CM.seq (addressRange_calm _ _) fun _ => translateAll_calm _ _ _ _

theorem fetchLines_calm (e : Eng) (ia : Nat) (ls : List Nat) : CM b s0 (fetchLines e ia ls) := by
  induction ls with
  | nil => exact CM.ret _
  | cons l r ih =>
    unfold fetchLines
    refine CM.seq (CM.change fun t ht => State.fetchLine_calm _ _ (State.performBefore_calm _ _ ht)) fun _ => ?_
    with_reducible repeat' (
      first | assumption | apply CM.ret | apply CM.trap | apply CM.look | apply CM.ite | apply CM.seq | (intro))

theorem fetchFirst_calm (e : Eng) (slot ia : Nat) : CM b s0 (fetchFirst e slot ia) := by
  unfold fetchFirst
  with_reducible repeat' (
    first | apply translateAll_calm | apply CM.ret | apply CM.trap | apply CM.ite | apply CM.seq | (intro))

theorem fetchRest_calm (e : Eng) (slot ia len : Nat) (ps : List (Nat × Nat)) : CM b s0 (fetchRest e slot ia len ps) := by
  unfold fetchRest
  dsimp only
  with_reducible repeat' (
    first | assumption | apply translateAll_calm | apply fetchLines_calm | apply State.fetchAhead_calm | apply CM.ret
             | apply CM.trap | apply CM.change | apply CM.ite | apply CM.seq | (intro) | split)

/-- The fetch of an instruction is calm, whatever it answers. -/
theorem fetch_calm (e : Eng) (slot ia len : Nat) {s : State} (h : CQ b s0 s) : CQ b s0 (fetch e slot ia len s).2 := by
  have h1 := fetchFirst_calm (b := b) (s0 := s0) e slot ia s h
  unfold fetch
  change CQ b s0 (M.exec (fetchFirst e slot ia) s).2 at h1
  generalize (fetchFirst e slot ia).exec s = r at h1 ⊢
  obtain ⟨x, s'⟩ := r
  cases x with
  | error t => exact h1
  | ok ps =>
    have h2 := fetchRest_calm (b := b) (s0 := s0) e slot ia len ps s' h1
    change CQ b s0 (M.exec (fetchRest e slot ia len ps) s').2 at h2
    dsimp only
    generalize (fetchRest e slot ia len ps).exec s' = r at h2 ⊢
    obtain ⟨x, s''⟩ := r
    cases x <;> exact h2

/-- An instruction that begins in a quiet state: its fetch is calm. -/
theorem Begins.calm {s s1 : State} {c : Cx} {pred : BitVec 4} (h : Begins s c pred s1) (q : Quiet s) : Calm none s s1 := by
  have h0 : CQ none s (s.noted c) := (CQ.refl none s).modEng _ _ rfl rfl
    fun k => ⟨k.dcache, k.icache, k.buffer⟩
  have := fetch_calm c.e c.slot (pswIA (s.bank c.slot).psw) c.len h0 q
  rw [h.fetched] at this
  exact this

end Sys2Proof.Machine
end

