-- ==== Sys2Proof/Laws/Run.lean ====
section
/-! SUPPORT. How a computation of an engine runs: each primitive read, write and check evaluated on a state, and the banks
that its writes leave. -/

namespace Sys2Proof.Machine

/-! ### Reads and writes -/

@[simp] theorem exec_getBank (c : Cx) (s : State) : M.exec (getBank c) s = (.ok (s.bank c.slot), s) := rfl

@[simp] theorem exec_modBank (c : Cx) (f : Bank → Bank) (s : State) : M.exec (modBank c f) s = (.ok (), s.modBank c.slot f) := rfl

@[simp] theorem exec_getG (c : Cx) (r : BitVec 4) (s : State) : M.exec (getG c r) s = (.ok ((s.bank c.slot).getG r), s) := rfl

@[simp] theorem exec_getD (c : Cx) (r : BitVec 4) (s : State) : M.exec (getD' c r) s = (.ok ((s.bank c.slot).getD r), s) := rfl

@[simp] theorem exec_getF (c : Cx) (r : BitVec 4) (s : State) : M.exec (getF c r) s = (.ok ((s.bank c.slot).getF r), s) := rfl

@[simp] theorem exec_getPsw (c : Cx) (s : State) : M.exec (getPsw c) s = (.ok (s.bank c.slot).psw, s) := rfl

@[simp] theorem exec_setG (c : Cx) (r : BitVec 4) (v : Word) (s : State) :
    M.exec (setG c r v) s = (.ok (), s.modBank c.slot fun b => b.putG r v) := rfl

@[simp] theorem exec_setD (c : Cx) (r : BitVec 4) (v : BitVec 256) (s : State) :
    M.exec (setD c r v) s = (.ok (), s.modBank c.slot fun b => b.putD r v) := rfl

@[simp] theorem exec_setF (c : Cx) (r : BitVec 4) (v : BitVec 128) (s : State) :
    M.exec (setF c r v) s = (.ok (), s.modBank c.slot fun b => b.putF r v) := rfl

@[simp] theorem exec_setCC (c : Cx) (v : Nat) (s : State) :
    M.exec (setCC c v) s = (.ok (), s.modBank c.slot fun b => b.putCC v) := rfl

theorem exec_map {α β : Type} (f : α → β) (m : M α) (s : State) :
    M.exec (f <$> m) s = match M.exec m s with | (.ok a, s') => (.ok (f a), s') | (.error t, s') => (.error t, s') := by
  rw [map_eq_pure_bind, M.exec_bind]
  rcases M.exec m s with ⟨_ | _, _⟩ <;> rfl

/-! ### Checks -/

@[simp] theorem exec_require (b : Bool) (d : Nat) (s : State) :
    M.exec (require b d) s = if b then (.ok (), s) else (.error (.exc 0x21 d 0), s) := by
  cases b <;> rfl

@[simp] theorem exec_specification {α : Type} (d : Nat) (s : State) :
    M.exec (specification d : M α) s = (.error (.exc 0x21 d 0), s) := rfl

@[simp] theorem exec_privileged {α : Type} (s : State) : M.exec (privileged : M α) s = (.error (.exc 0x22 0 0), s) := rfl

@[simp] theorem exec_lengthIn (l : Len) (ls : List Len) (s : State) :
    M.exec (lengthIn l ls) s = if ls.contains l then (.ok (), s) else (.error (.exc 0x21 0 0), s) := exec_require _ _ _

@[simp] theorem exec_lowReg (r : BitVec 4) (s : State) :
    M.exec (lowReg r) s = if r.toNat ≤ 7 then (.ok (), s) else (.error (.exc 0x21 0 0), s) := by
  unfold lowReg
  by_cases h : r.toNat ≤ 7 <;> simp [h]

@[simp] theorem exec_zeroField {n : Nat} (x : BitVec n) (s : State) :
    M.exec (zeroField x) s = if x = 0 then (.ok (), s) else (.error (.exc 0x21 0 0), s) := by
  unfold zeroField
  by_cases h : x = 0 <;> simp [h]

@[simp] theorem exec_evenReg (r : BitVec 4) (s : State) :
    M.exec (evenReg r) s = if bit r 0 then (.error (.exc 0x21 0 0), s) else (.ok (), s) := by
  refine (exec_require _ _ _).trans ?_
  cases bit r 0 <;> rfl

@[simp] theorem exec_needPriv (c : Cx) (s : State) :
    M.exec (needPriv c) s = if pswPRIV (s.bank c.slot).psw then (.ok (), s) else (.error (.exc 0x22 0 0), s) := by
  unfold needPriv
  rw [M.exec_bind]
  simp only [exec_getPsw]
  by_cases h : pswPRIV (s.bank c.slot).psw = true <;> simp [h]

@[simp] theorem exec_ite {α : Type} (p : Prop) [Decidable p] (m k : M α) (s : State) :
    M.exec (if p then m else k) s = if p then M.exec m s else M.exec k s := by
  split <;> rfl

/-! ### Banks -/

@[simp] theorem Bank.psw_putG (b : Bank) (r : BitVec 4) (v : Word) : (b.putG r v).psw = b.psw := rfl
@[simp] theorem Bank.psw_putD (b : Bank) (r : BitVec 4) (v : BitVec 256) : (b.putD r v).psw = b.psw := rfl
@[simp] theorem Bank.psw_putF (b : Bank) (r : BitVec 4) (v : BitVec 128) : (b.putF r v).psw = b.psw := rfl
@[simp] theorem Bank.psw_putCC (b : Bank) (v : Nat) : (b.putCC v).psw = b.psw := rfl

theorem Rebank.refl (s : State) (i : Nat) : Rebank s s i id := by
  intro j
  split <;> simp_all

theorem Rebank.step {s t : State} {i : Nat} {f g : Bank → Bank} (h : Rebank s t i f) :
    Rebank s (t.modBank i g) i (fun b => g (f b)) := by
  intro j
  split
  · rename_i hj
    subst hj
    rw [State.bank_modBank, h]
    simp
  · rename_i hj
    rw [State.bank_modBank_ne _ _ _ _ hj, h, if_neg hj]

theorem Rebank.congr {s t : State} {i : Nat} {f g : Bank → Bank} (h : Rebank s t i f) (hfg : f (s.bank i) = g (s.bank i)) :
    Rebank s t i g := by
  intro j
  rw [h, hfg]

/-- One change of the bank. -/
theorem Rebank.one (s : State) (i : Nat) (f : Bank → Bank) : Rebank s (s.modBank i f) i f :=
  ((Rebank.refl s i).step).congr rfl

/-- Two changes of the bank, one after the other. -/
theorem Rebank.two (s : State) (i : Nat) (f g : Bank → Bank) : Rebank s ((s.modBank i f).modBank i g) i (fun b => g (f b)) :=
  (Rebank.one s i f).step

theorem Rebank.three (s : State) (i : Nat) (f g k : Bank → Bank) :
    Rebank s (((s.modBank i f).modBank i g).modBank i k) i (fun b => k (g (f b))) :=
  (Rebank.two s i f g).step

/-- The completion of a macro instruction whose work, after what left `s2`, changed only its bank. -/
theorem Begins.completesFrom {s s1 s2 s3 : State} {c : Cx} {pred : BitVec 4} {len : Len} {m : Macro} {f g : Bank → Bank} {n : Nat}
    {i : Instr} (h : Begins s c pred s1) (hc : (s2.eng c.e).postCheck = none) (hl : c.len = len.bytes)
    (hi : exec i s = macroNext c.e pred len m s)
    (hb : (m.body c).exec s1 = (.ok .seq, s3)) (hm : m.selfTimed = false) (hn : m.count c s1 = n)
    (hf : Rebank s2 s3 c.slot f) (hs : { s3 with banks := s2.banks } = s2) (hfg : f (s2.bank c.slot) = g (s2.bank c.slot)) :
    Completes i s s2 c n g := by
  obtain ⟨t, ht, a, b, d, e⟩ := h.register hc hb hm (hf.congr hfg) hs
  refine ⟨t, ?_, a, hn ▸ b, hn ▸ d, e⟩
  rw [hi, macroNext, ← ht, hl]

/-- The completion of a macro instruction whose work changed only its bank. -/
theorem Begins.completes {s s1 s2 : State} {c : Cx} {pred : BitVec 4} {len : Len} {m : Macro} {f g : Bank → Bank} {n : Nat}
    {i : Instr} (h : Begins s c pred s1) (hl : c.len = len.bytes) (hi : exec i s = macroNext c.e pred len m s)
    (hb : (m.body c).exec s1 = (.ok .seq, s2)) (hm : m.selfTimed = false) (hn : m.count c s1 = n)
    (hf : Rebank s1 s2 c.slot f) (hs : { s2 with banks := s1.banks } = s1) (hfg : f (s1.bank c.slot) = g (s1.bank c.slot)) :
    Completes i s s1 c n g := h.completesFrom h.clean hl hi hb hm hn hf hs hfg

/-- The same, for a work that changes the bank once. -/
theorem Begins.completes1 {s s1 : State} {c : Cx} {pred : BitVec 4} {len : Len} {m : Macro} {f g : Bank → Bank} {n : Nat}
    {i : Instr} (h : Begins s c pred s1) (hl : c.len = len.bytes) (hi : exec i s = macroNext c.e pred len m s)
    (hb : (m.body c).exec s1 = (.ok .seq, s1.modBank c.slot f)) (hfg : f (s1.bank c.slot) = g (s1.bank c.slot))
    (hm : m.selfTimed = false := by rfl) (hn : m.count c s1 = n := by rfl) : Completes i s s1 c n g :=
  h.completes hl hi hb hm hn (Rebank.one _ _ _) rfl hfg

/-- The same, for a work that changes the bank twice. -/
theorem Begins.completes2 {s s1 : State} {c : Cx} {pred : BitVec 4} {len : Len} {m : Macro} {f1 f2 g : Bank → Bank} {n : Nat}
    {i : Instr} (h : Begins s c pred s1) (hl : c.len = len.bytes) (hi : exec i s = macroNext c.e pred len m s)
    (hb : (m.body c).exec s1 = (.ok .seq, (s1.modBank c.slot f1).modBank c.slot f2))
    (hfg : f2 (f1 (s1.bank c.slot)) = g (s1.bank c.slot))
    (hm : m.selfTimed = false := by rfl) (hn : m.count c s1 = n := by rfl) : Completes i s s1 c n g :=
  h.completes hl hi hb hm hn (Rebank.two _ _ _ _) rfl hfg

/-- The same, for a work that changes the bank three times. -/
theorem Begins.completes3 {s s1 : State} {c : Cx} {pred : BitVec 4} {len : Len} {m : Macro} {f1 f2 f3 g : Bank → Bank} {n : Nat}
    {i : Instr} (h : Begins s c pred s1) (hl : c.len = len.bytes) (hi : exec i s = macroNext c.e pred len m s)
    (hb : (m.body c).exec s1 = (.ok .seq, ((s1.modBank c.slot f1).modBank c.slot f2).modBank c.slot f3))
    (hfg : f3 (f2 (f1 (s1.bank c.slot))) = g (s1.bank c.slot))
    (hm : m.selfTimed = false := by rfl) (hn : m.count c s1 = n := by rfl) : Completes i s s1 c n g :=
  h.completes hl hi hb hm hn (Rebank.three _ _ _ _ _) rfl hfg

/-- The same, for a work that changes nothing. -/
theorem Begins.completes0 {s s1 : State} {c : Cx} {pred : BitVec 4} {len : Len} {m : Macro} {n : Nat}
    {i : Instr} (h : Begins s c pred s1) (hl : c.len = len.bytes) (hi : exec i s = macroNext c.e pred len m s)
    (hb : (m.body c).exec s1 = (.ok .seq, s1))
    (hm : m.selfTimed = false := by rfl) (hn : m.count c s1 = n := by rfl) : Completes i s s1 c n id :=
  h.completes hl hi hb hm hn (Rebank.refl _ _) rfl rfl

end Sys2Proof.Machine
end

