-- ==== Sys2Proof/Laws/End.lean ====
section
/-! SUPPORT. How a macro instruction that counts its own cycles ends: the counters that grew, and where IA goes. -/

namespace Sys2Proof.Machine

/-! ### Counters -/

theorem Tally.refl (s : State) (e : Eng) : Tally s s e [] := by
  intro o _
  simp

theorem Tally.tick {s t : State} {e : Eng} {ks : List (Nat × Nat)} (h : Tally s t e ks) (k n : Nat) (hk : k < 32) :
    Tally s (t.tick e k n) e ((k, n) :: ks) := by
  intro o ho
  by_cases hc : o = engCounter e k
  · subst hc
    rw [State.reg_tick _ _ _ _ hk, h _ ho]
    simp only [List.map_cons, List.sum_cons, if_true]
    rw [BitVec.add_assoc, ← BitVec.ofNat_add, Nat.add_comm n]
  · rw [State.reg_tick_ne _ _ _ _ _ hc ho, h _ ho]
    simp [hc]

theorem Tally.cycles {s t : State} {e : Eng} {ks : List (Nat × Nat)} (h : Tally s t e ks) (ftm : Bool) (n : Nat) :
    Tally s (t.cycles e ftm n) e ((10, if ftm then n else 0) :: (0, n) :: ks) := by
  have h' : Tally s (t.pass e n) e ks := fun o ho => (State.reg_pass _ _ _ _).trans (h o ho)
  unfold State.cycles
  cases ftm
  · refine fun o ho => ((h'.tick 0 n (by omega)) o ho).trans ?_
    simp
  · exact (h'.tick 0 n (by omega)).tick 10 n (by omega)

/-- A change that leaves the registers alone. -/
theorem Tally.keep {s t u : State} {e : Eng} {ks : List (Nat × Nat)} (h : Tally s t e ks) (hr : ∀ o, u.reg o = t.reg o) :
    Tally s u e ks := fun o ho => (hr o).trans (h o ho)

theorem Tally.trans {s t u : State} {e : Eng} {ks ls : List (Nat × Nat)} (h : Tally s t e ks) (k : Tally t u e ls) :
    Tally s u e (ls ++ ks) := by
  intro o ho
  rw [k o ho, h o ho, List.map_append, List.sum_append, BitVec.add_assoc, ← BitVec.ofNat_add, Nat.add_comm (List.sum _)]

theorem Tally.of_sum {s t : State} {e : Eng} {ks ls : List (Nat × Nat)} (h : Tally s t e ks)
    (hs : ∀ o, (ks.map fun k => if o = engCounter e k.1 then k.2 else 0).sum
      = (ls.map fun k => if o = engCounter e k.1 then k.2 else 0).sum) : Tally s t e ls := by
  intro o ho
  rw [h o ho, hs]

theorem Tally.perm {s t : State} {e : Eng} {ks ls : List (Nat × Nat)} (h : Tally s t e ks) (hp : ks.Perm ls) : Tally s t e ls :=
  h.of_sum fun o => by
    clear h
    induction hp with
    | nil => rfl
    | cons x _ ih => simp [ih]
    | swap x y l => simp; omega
    | trans _ _ ih1 ih2 => exact ih1.trans ih2

/-! ### The end -/

/-- What `advance` of `State.complete` makes of a bank. -/
theorem Bank.jump_def (b : Bank) (ia : Nat) : { b with psw := withIP (withIA b.psw ia) false 0 } = b.jump ia := rfl

/-- How a work ends that goes to a target or on. -/
def doneOf : Option Nat → Done
  | none => .seq
  | some ia => .goto ia

/-- An engine after a jump: its line buffer is empty. -/
def goneOf (target : Option Nat) (x : Engine) : Engine :=
  match target with
  | none => x
  | some _ => { x with lineBuf := [] }

/-- Where a completed instruction that says where it goes leaves the part. -/
theorem Begins.goes {s s1 s2 s3 : State} {c : Cx} {pred : BitVec 4} {len : Len} {m : Macro} {f : Bank → Bank}
    {g : Engine → Engine} {i : Instr} {target : Option Nat} {ks : List (Nat × Nat)}
    (h : Begins s c pred s1) (hl : c.len = len.bytes) (hi : exec i s = macroNext c.e pred len m s)
    (hm : m.selfTimed = true)
    (hb : (m.body c).exec s1 = (.ok (doneOf target), s3))
    (hc : (s3.eng c.e).postCheck = none) (hf : Rebank s2 s3 c.slot f)
    (he : goneOf target (s3.eng c.e).closed
      = (g (s2.eng c.e).closed).later ((ks.map fun k => if k.1 = 0 then k.2 else 0).sum))
    (ht : Tally s2 s3 c.e ks) (ha : Aside s2 s3 c.e) : Goes i s s2 c target ks f g := by
  have hd : doneOf target ≠ Done.waits := by cases target <;> simp [doneOf]
  have hr : ∀ x y, doneOf target ≠ Done.raises x y := by cases target <;> simp [doneOf]
  have hk : ∀ (u : State) (b : Bool), u.cycles c.e b 0 = u := by
    intro u b
    unfold State.cycles State.pass State.tick
    cases b <;> simp
  have hb3 : (s3.seal c.e false).bank c.slot = f (s2.bank c.slot) := by
    rw [State.bank_seal, hf]
    simp
  have hpart : ∀ ia, ∃ t, ((s3.seal c.e false).modBank c.slot fun b => { b with psw := withIP (withIA b.psw ia) false 0 }).tick c.e 1 1 = t
      ∧ (∀ j, t.bank j = if j = c.slot then (f (s2.bank c.slot)).jump ia else s2.bank j)
      ∧ t.eng c.e = (s3.eng c.e).closed ∧ Tally s2 t c.e ((1, 1) :: ks) ∧ Aside s2 t c.e := by
    intro ia
    refine ⟨_, rfl, ?_, ?_, ?_, ?_⟩
    · intro j
      rw [State.bank_tick]
      split
      · rename_i hj
        rw [hj, State.bank_modBank, hb3]
        rfl
      · rename_i hj
        rw [State.bank_modBank_ne _ _ _ _ hj, State.bank_seal, hf, if_neg hj]
    · rw [State.eng_tick, State.eng_modBank, State.eng_seal_false]
    · exact (ht.keep fun o => by rw [State.reg_modBank, State.reg_seal]).tick 1 1 (by omega)
    · exact ((ha.trans (seal_aside _ _ _)).trans (modBank_aside _ _ _ _)).trans (tick_aside _ _ _ _ _)
  refine ⟨_, by rw [hi, macroNext, ← hl], ?_⟩
  rw [h.done hb hd hr, hm]
  simp only [if_true]
  cases target with
  | none =>
    simp only [doneOf, State.complete, hk]
    rw [hb3]
    obtain ⟨t, h1, h2, h3, h4, h5⟩ := hpart (pswIA (f (s2.bank c.slot)).psw + c.len)
    rw [h1, takePostCheck_none _ _ (by rw [h3]; exact hc)]
    exact ⟨h2, h3.trans he, h4, h5⟩
  | some ia =>
    simp only [doneOf, State.complete, hk]
    obtain ⟨t, h1, h2, h3, h4, h5⟩ := hpart ia
    rw [h1, takePostCheck_none _ _ (by simp [h3, Engine.closed, hc])]
    refine ⟨?_, ?_, h4.keep fun o => rfl, h5.trans (modEng_aside _ _ _)⟩
    · intro j
      exact h2 j
    · rw [State.eng_modEng, h3]
      exact he

end Sys2Proof.Machine
end

