-- ==== Sys2Proof/Laws/KeepsTable.lean ====
section
/-! SUPPORT. What every function of Table keeps. -/

namespace Sys2Proof.Machine

set_option linter.unusedVariables false

theorem State.modSlot_keeps {s0 : State} (s : State) (i : Nat) (f : Slot → Slot) (hk : Keeps s0 s) : Keeps s0
    (State.modSlot s i f) :=
  Keeps.same hk rfl rfl rfl

theorem State.modBank_keeps {s0 : State} (s : State) (i : Nat) (f : Bank → Bank) (hk : Keeps s0 s) : Keeps s0
    (State.modBank s i f) :=
  Keeps.same hk rfl rfl rfl

theorem State.modEng_keeps {s0 : State} (s : State) (e : Eng) (f : Engine → Engine) (hk : Keeps s0 s) : Keeps s0
    (State.modEng s e f) :=
  Keeps.same hk rfl rfl rfl

theorem State.modEngines_keeps {s0 : State} (s : State) (f : Engine → Engine) (hk : Keeps s0 s) : Keeps s0
    (State.modEngines s f) := by
  unfold State.modEngines
  try dsimp only
  with_reducible repeat' (
    first | assumption | apply State.modEng_keeps | apply Keeps.foldl | (intro))

theorem State.modDom_keeps {s0 : State} (s : State) (d : Nat) (f : Domain → Domain) (hk : Keeps s0 s) : Keeps s0
    (State.modDom s d f) :=
  Keeps.same hk rfl rfl rfl

theorem State.modQueue_keeps {s0 : State} (s : State) (q : Nat) (f : Queue → Queue) (hk : Keeps s0 s) : Keeps s0
    (State.modQueue s q f) :=
  Keeps.same hk rfl rfl rfl

theorem State.modRing_keeps {s0 : State} (s : State) (r : RingId) (f : Ring → Ring) (hk : Keeps s0 s) : Keeps s0
    (State.modRing s r f) :=
  Keeps.same hk rfl rfl rfl

theorem State.modPair_keeps {s0 : State} (s : State) (g : Nat) (c : Nat) (f : Pair → Pair) (hk : Keeps s0 s) : Keeps
    s0 (State.modPair s g c f) :=
  Keeps.same hk rfl rfl rfl

theorem State.modFn_keeps {s0 : State} (s : State) (d : Nat) (f : PcieFn → PcieFn) (hk : Keeps s0 s) : Keeps s0
    (State.modFn s d f) :=
  Keeps.same hk rfl rfl rfl

theorem State.setReg_keeps {s0 : State} (s : State) (o : Nat) (v : Word) (hk : Keeps s0 s) : Keeps s0 (State.setReg s
    o v) :=
  Keeps.same hk rfl rfl rfl

theorem State.count_keeps {s0 : State} (s : State) (o : Nat) (n : Nat) (hk : Keeps s0 s) : Keeps s0 (State.count s o
    n) :=
  Keeps.same hk rfl rfl rfl

theorem State.countErr_keeps {s0 : State} (s : State) (o : Nat) (n : Nat) (hk : Keeps s0 s) : Keeps s0 (State.countErr
    s o n) :=
  Keeps.same hk rfl rfl rfl

theorem State.send_keeps {s0 : State} (s : State) (m : Sent) (hk : Keeps s0 s) : Keeps s0 (State.send s m) :=
  Keeps.same hk rfl rfl rfl

theorem State.draw_keeps {s0 : State} (s : State) (hk : Keeps s0 s) : Keeps s0 (State.draw s).2 :=
  Keeps.same hk rfl rfl rfl

end Sys2Proof.Machine
end

