-- ==== Sys2Proof/Laws/KeepsSignal.lean ====
section
/-! SUPPORT. What every function of Signal keeps. -/

namespace Sys2Proof.Machine

set_option linter.unusedVariables false

theorem State.dropEvent_keeps {s0 : State} (s : State) (slot : Nat) (hk : Keeps s0 s) : Keeps s0 (State.dropEvent s
    slot) := by
  unfold State.dropEvent
  try dsimp only
  with_reducible repeat' (
    first | assumption | apply State.modSlot_keeps)

theorem State.pendVector_keeps {s0 : State} (s : State) (slot : Nat) (v : Nat) (hk : Keeps s0 s) : Keeps s0
    (State.pendVector s slot v) := by
  unfold State.pendVector
  try dsimp only
  with_reducible repeat' (
    first | assumption | apply State.dropEvent_keeps | apply State.modSlot_keeps
             | apply Keeps.ite | split)

theorem State.armSource_keeps {s0 : State} (s : State) (src : Nat) (hk : Keeps s0 s) : Keeps s0 (State.armSource s
    src) := by
  unfold State.armSource
  try dsimp only
  with_reducible repeat' (
    first | assumption | apply Keeps.ite | (refine Keeps.update ?_ rfl rfl rfl))

theorem State.fire_keeps {s0 : State} (s : State) (src : Nat) (hk : Keeps s0 s) : Keeps s0 (State.fire s src) := by
  unfold State.fire
  try dsimp only
  with_reducible repeat' (
    first | assumption | apply State.armSource_keeps | apply State.pendVector_keeps | split)

theorem State.tick_keeps {s0 : State} (s : State) (e : Eng) (k : Nat) (n : Nat) (hk : Keeps s0 s) : Keeps s0
    (State.tick s e k n) := by
  unfold State.tick
  try dsimp only
  with_reducible repeat' (
    first | assumption | apply State.setReg_keeps | apply State.fire_keeps
             | apply Keeps.ite)

theorem State.tumCount_keeps {s0 : State} (s : State) (e : Eng) (trap : Bool) (hi : Bool) (hk : Keeps s0 s) : Keeps s0
    (State.tumCount s e trap hi) := by
  unfold State.tumCount
  try dsimp only
  with_reducible repeat' (
    first | assumption | apply State.setReg_keeps | apply State.fire_keeps
             | apply Keeps.ite)

theorem State.pass_keeps {s0 : State} (s : State) (e : Eng) (n : Nat) (hk : Keeps s0 s) : Keeps s0 (State.pass s e n)
    := by
  unfold State.pass
  try dsimp only
  with_reducible repeat' (
    first | assumption | apply State.modEng_keeps | apply Keeps.ite)

theorem State.cycles_keeps {s0 : State} (s : State) (e : Eng) (ftm : Bool) (n : Nat) (hk : Keeps s0 s) : Keeps s0
    (State.cycles s e ftm n) := by
  unfold State.cycles
  try dsimp only
  with_reducible repeat' (
    first | assumption | apply State.tick_keeps | apply State.pass_keeps | apply Keeps.ite)

theorem State.waitTerm_keeps {s0 : State} (s : State) (e : Eng) (n : Nat) (hk : Keeps s0 s) : Keeps s0 (State.waitTerm
    s e n) := by
  unfold State.waitTerm
  try dsimp only
  with_reducible repeat' (
    first | assumption | apply State.tick_keeps | apply State.pass_keeps
             | apply State.cycles_keeps | split)

theorem State.msixSend_keeps {s0 : State} (s : State) (d : Nat) (v : Fin 8) (hk : Keeps s0 s) : Keeps s0
    (State.msixSend s d v) := by
  unfold State.msixSend
  try dsimp only
  with_reducible repeat' (
    first | assumption | apply State.send_keeps | apply State.count_keeps)

theorem State.msix_keeps {s0 : State} (s : State) (d : Nat) (v : Fin 8) (hk : Keeps s0 s) : Keeps s0 (State.msix s d
    v) := by
  unfold State.msix
  try dsimp only
  with_reducible repeat' (
    first | assumption | apply State.msixSend_keeps | apply State.modFn_keeps
             | apply Keeps.ite)

end Sys2Proof.Machine
end

