-- ==== Sys2Proof/Laws/KeepsPhys.lean ====
section
/-! SUPPORT. What every function of Phys keeps. -/

namespace Sys2Proof.Machine

set_option linter.unusedVariables false

theorem State.setKey_keeps {s0 : State} (s : State) (frame : Nat) (k : Key) (hk : Keeps s0 s) : Keeps s0 (State.setKey
    s frame k) := by
  unfold State.setKey
  try dsimp only
  with_reducible repeat' (
    first | assumption | (intro) | apply Keeps.pending | apply Keeps.nv | apply Keeps.mem
             | apply Keeps.fields | apply twf_tset | apply Memory.wf_bytes | apply Memory.wf_keys
             | apply Memory.wf_poison | apply Memory.wf_keyPoison | apply Memory.wf_errs | apply Memory.wf_stale
             | apply Memory.wf_mk)

theorem State.putMem_keeps {s0 : State} (s : State) (pa : Nat) (l : List Byte) (hk : Keeps s0 s) : Keeps s0
    (State.putMem s pa l) := by
  unfold State.putMem
  try dsimp only
  with_reducible repeat' (
    first | assumption | (intro) | apply Keeps.pending | apply Keeps.nv | apply Keeps.mem
             | apply Keeps.fields | apply twf_putBytes | apply Memory.wf_bytes | apply Memory.wf_keys
             | apply Memory.wf_poison | apply Memory.wf_keyPoison | apply Memory.wf_errs | apply Memory.wf_stale
             | apply Memory.wf_mk)

theorem State.setPoison_keeps {s0 : State} (s : State) (line : Nat) (p : Bool) (hk : Keeps s0 s) : Keeps s0
    (State.setPoison s line p) := by
  unfold State.setPoison
  try dsimp only
  with_reducible repeat' (
    first | assumption | (intro) | apply Keeps.pending | apply Keeps.nv | apply Keeps.mem
             | apply Keeps.fields | apply twf_tset | apply Memory.wf_bytes | apply Memory.wf_keys
             | apply Memory.wf_poison | apply Memory.wf_keyPoison | apply Memory.wf_errs | apply Memory.wf_stale
             | apply Memory.wf_mk)

theorem State.modDmc_keeps {s0 : State} (s : State) (m : Fin 2) (f : Dmc → Dmc) (hk : Keeps s0 s) : Keeps s0
    (State.modDmc s m f) := by
  unfold State.modDmc
  try dsimp only
  with_reducible repeat' (
    first | assumption | (refine Keeps.update ?_ rfl rfl rfl))

theorem State.dropErrs_keeps {s0 : State} (s : State) (f : Nat → Bool) (hk : Keeps s0 s) : Keeps s0 (State.dropErrs s
    f) := by
  unfold State.dropErrs
  try dsimp only
  with_reducible repeat' (
    first | assumption | (intro) | apply Keeps.pending | apply Keeps.nv | apply Keeps.mem
             | apply Keeps.fields | apply twf_tdrop | apply Memory.wf_bytes | apply Memory.wf_keys
             | apply Memory.wf_poison | apply Memory.wf_keyPoison | apply Memory.wf_errs | apply Memory.wf_stale
             | apply Memory.wf_mk)

theorem State.endFill_keeps {s0 : State} (s : State) (m : Fin 2) (g : Nat) (hk : Keeps s0 s) : Keeps s0 (State.endFill
    s m g) := by
  unfold State.endFill
  try dsimp only
  with_reducible repeat' (
    first | assumption | apply State.modDmc_keeps | apply State.dropErrs_keeps)

theorem State.writeIntent_keeps {s0 : State} (s : State) (line : Nat) (hk : Keeps s0 s) : Keeps s0 (State.writeIntent
    s line).2 := by
  unfold State.writeIntent
  try dsimp only
  with_reducible repeat' (
    first | assumption | apply State.count_keeps | apply State.dropErrs_keeps
             | apply State.modDmc_keeps | apply State.endFill_keeps | apply Keeps.ite | apply Keeps.ite_snd | split)

theorem State.waitTracker_keeps {s0 : State} (s : State) (e : Eng) (line : Nat) (hk : Keeps s0 s) : Keeps s0
    (State.waitTracker s e line) := by
  unfold State.waitTracker
  try dsimp only
  with_reducible repeat' (
    first | assumption | apply State.waitTerm_keeps | apply Keeps.ite
             | (refine Keeps.update ?_ rfl rfl rfl))

theorem State.wroteBack_keeps {s0 : State} (s : State) (line : Nat) (hk : Keeps s0 s) : Keeps s0 (State.wroteBack s
    line) := by
  unfold State.wroteBack
  try dsimp only
  with_reducible repeat' (
    first | assumption | (intro) | apply Keeps.pending | apply Keeps.nv | apply Keeps.mem
             | apply Keeps.fields | apply twf_tset | apply Memory.wf_bytes | apply Memory.wf_keys
             | apply Memory.wf_poison | apply Memory.wf_keyPoison | apply Memory.wf_errs | apply Memory.wf_stale
             | apply Memory.wf_mk)

theorem State.modDcSet_keeps {s0 : State} (s : State) (e : Eng) (line : Nat) (f : List CLine → List CLine) (hk : Keeps
    s0 s) : Keeps s0 (State.modDcSet s e line f) := by
  unfold State.modDcSet
  try dsimp only
  with_reducible repeat' (
    first | assumption | apply State.modEng_keeps)

theorem State.modL2Set_keeps {s0 : State} (s : State) (c : Fin 4) (line : Nat) (f : List CLine → List CLine) (hk :
    Keeps s0 s) : Keeps s0 (State.modL2Set s c line f) := by
  unfold State.modL2Set
  try dsimp only
  with_reducible repeat' (
    first | assumption | (refine Keeps.update ?_ rfl rfl rfl))

theorem State.dcDrop_keeps {s0 : State} (s : State) (line : Nat) (e : Eng) (hk : Keeps s0 s) : Keeps s0 (State.dcDrop
    s line e) := by
  unfold State.dcDrop
  try dsimp only
  with_reducible repeat' (
    first | assumption | apply State.modDcSet_keeps | apply Keeps.ite)

theorem State.dcShare_keeps {s0 : State} (s : State) (line : Nat) (e : Eng) (hk : Keeps s0 s) : Keeps s0
    (State.dcShare s line e) := by
  unfold State.dcShare
  try dsimp only
  with_reducible repeat' (
    first | assumption | apply State.modDcSet_keeps | apply Keeps.ite)

theorem State.l2Drop_keeps {s0 : State} (s : State) (line : Nat) (c : Fin 4) (hk : Keeps s0 s) : Keeps s0
    (State.l2Drop s line c) := by
  unfold State.l2Drop
  try dsimp only
  with_reducible repeat' (
    first | assumption | apply State.modL2Set_keeps | apply Keeps.ite)

theorem State.l2Share_keeps {s0 : State} (s : State) (line : Nat) (c : Fin 4) (hk : Keeps s0 s) : Keeps s0
    (State.l2Share s line c) := by
  unfold State.l2Share
  try dsimp only
  with_reducible repeat' (
    first | assumption | apply State.modL2Set_keeps | apply Keeps.ite)

theorem State.icDrop_keeps {s0 : State} (s : State) (line : Nat) (e : Eng) (hk : Keeps s0 s) : Keeps s0 (State.icDrop
    s line e) := by
  unfold State.icDrop
  try dsimp only
  with_reducible repeat' (
    first | assumption | apply State.modEng_keeps | apply Keeps.ite)

theorem State.dropCopies_keeps {s0 : State} (s : State) (line : Nat) (hk : Keeps s0 s) : Keeps s0 (State.dropCopies s
    line) := by
  unfold State.dropCopies
  try dsimp only
  with_reducible repeat' (
    first | assumption | apply State.wroteBack_keeps | apply State.l2Drop_keeps
             | apply State.icDrop_keeps | apply State.dcDrop_keeps | apply Keeps.foldl | (intro) | apply Keeps.ite)

theorem State.shareCopies_keeps {s0 : State} (s : State) (line : Nat) (hk : Keeps s0 s) : Keeps s0 (State.shareCopies
    s line) := by
  unfold State.shareCopies
  try dsimp only
  with_reducible repeat' (
    first | assumption | apply State.wroteBack_keeps | apply State.l2Share_keeps
             | apply State.dcShare_keeps | apply Keeps.foldl | (intro) | apply Keeps.ite)

theorem State.l2Set_keeps {s0 : State} (s : State) (line : Nat) (c : Fin 4) (st : Mesi) (hk : Keeps s0 s) : Keeps s0
    (State.l2Set s line c st) := by
  unfold State.l2Set
  try dsimp only
  with_reducible repeat' (
    first | assumption | apply State.modL2Set_keeps | apply Keeps.ite)

theorem State.countTerm_keeps {s0 : State} (s : State) (e : Eng) (x1 : LineTerm) (hk : Keeps s0 s) : Keeps s0
    (State.countTerm s e x1) := by
  unfold State.countTerm
  try dsimp only
  with_reducible repeat' (
    first | assumption | apply State.tick_keeps | split)

theorem State.noteStale_keeps {s0 : State} (s : State) (line : Nat) (hk : Keeps s0 s) : Keeps s0 (State.noteStale s
    line) := by
  unfold State.noteStale
  try dsimp only
  with_reducible repeat' (
    first | assumption | (intro) | apply Keeps.ite | apply Keeps.pending | apply Keeps.nv
             | apply Keeps.mem | apply Keeps.fields | apply twf_tset | apply Memory.wf_bytes | apply Memory.wf_keys
             | apply Memory.wf_poison | apply Memory.wf_keyPoison | apply Memory.wf_errs | apply Memory.wf_stale
             | apply Memory.wf_mk)

theorem State.dramAwake_keeps {s0 : State} (s : State) (line : Nat) (hk : Keeps s0 s) : Keeps s0 (State.dramAwake s
    line) := by
  unfold State.dramAwake
  try dsimp only
  with_reducible repeat' (
    first | assumption | apply State.modDmc_keeps | apply Keeps.ite)

theorem State.lineWrite_keeps {s0 : State} (s : State) (pa : Nat) (l : List Byte) (hk : Keeps s0 s) : Keeps s0
    (State.lineWrite s pa l) := by
  unfold State.lineWrite
  try dsimp only
  with_reducible repeat' (
    first | assumption | apply State.dropCopies_keeps | apply State.writeIntent_keeps
             | apply State.dramAwake_keeps | apply State.wroteBack_keeps | apply State.setPoison_keeps
             | apply State.putMem_keeps | apply Keeps.ite)

end Sys2Proof.Machine
end

