-- ==== Sys2Proof/Laws/KeepsRecords.lean ====
section
/-! SUPPORT. What every function of Records keeps. -/

namespace Sys2Proof.Machine

set_option linter.unusedVariables false

theorem State.logRec_keeps {s0 : State} (s : State) (r : Rec) (hk : Keeps s0 s) : Keeps s0 (State.logRec s r) := by
  unfold State.logRec
  try dsimp only
  with_reducible repeat' (
    first | assumption | apply State.fire_keeps | apply State.msix_keeps | apply Keeps.ite
             | split | (refine Keeps.update ?_ rfl rfl rfl))

theorem State.record_keeps {s0 : State} (s : State) (d : Nat) (sev : Byte) (kind : Byte) (origin : Byte) (detail :
    List Byte) (hk : Keeps s0 s) : Keeps s0 (State.record s d sev kind origin detail) := by
  unfold State.record
  try dsimp only
  with_reducible repeat' (
    first | assumption | apply State.logRec_keeps | apply State.modDom_keeps
             | apply State.lineWrite_keeps | apply State.fire_keeps | apply State.count_keeps | apply Keeps.ite)

theorem State.corrected_keeps {s0 : State} (s : State) (origin : Byte) (d : Nat) (detail : List Byte) (hk : Keeps s0
    s) : Keeps s0 (State.corrected s origin d detail) := by
  unfold State.corrected
  try dsimp only
  with_reducible repeat' (
    first | assumption | apply State.logRec_keeps | apply Keeps.ite
             | (refine Keeps.update ?_ rfl rfl rfl))

theorem State.dmcCe_keeps {s0 : State} (s : State) (m : Nat) (line : Nat) (hk : Keeps s0 s) : Keeps s0 (State.dmcCe s
    m line) := by
  unfold State.dmcCe
  try dsimp only
  with_reducible repeat' (
    first | assumption | apply State.setReg_keeps)

theorem State.dmcUe_keeps {s0 : State} (s : State) (m : Nat) (line : Nat) (hk : Keeps s0 s) : Keeps s0 (State.dmcUe s
    m line) := by
  unfold State.dmcUe
  try dsimp only
  with_reducible repeat' (
    first | assumption | apply State.setReg_keeps)

theorem State.poisonLine_keeps {s0 : State} (s : State) (line : Nat) (source : Nat) (finder : Nat) (retries : Nat)
    (loc : Nat) (hk : Keeps s0 s) : Keeps s0 (State.poisonLine s line source finder retries loc) := by
  unfold State.poisonLine
  try dsimp only
  with_reducible repeat' (
    first | assumption | apply State.setPoison_keeps | apply State.dropErrs_keeps
             | apply State.countErr_keeps | apply State.dmcUe_keeps | apply State.record_keeps | (intro)
             | apply Keeps.ite | apply Keeps.pending | apply Keeps.nv | apply Keeps.mem | apply Keeps.fields
             | apply twf_tset | apply Memory.wf_bytes | apply Memory.wf_keys | apply Memory.wf_poison
             | apply Memory.wf_keyPoison | apply Memory.wf_errs | apply Memory.wf_stale | apply Memory.wf_mk)

theorem State.arrayRead_keeps {s0 : State} (s : State) (line : Nat) (hk : Keeps s0 s) : Keeps s0 (State.arrayRead s
    line).2.2.2 := by
  unfold State.arrayRead
  try dsimp only
  with_reducible repeat' (
    first | assumption | apply State.countErr_keeps | (intro) | apply Keeps.ite | split
             | apply Keeps.pending | apply Keeps.nv | apply Keeps.mem | apply Keeps.fields | apply twf_tset
             | apply Memory.wf_bytes | apply Memory.wf_keys | apply Memory.wf_poison | apply Memory.wf_keyPoison
             | apply Memory.wf_errs | apply Memory.wf_stale | apply Memory.wf_mk)

theorem State.correctedLine_keeps {s0 : State} (s : State) (line : Nat) (source : Nat) (finder : Nat) (retries : Nat)
    (loc : Nat) (device : Option Nat) (hk : Keeps s0 s) : Keeps s0 (State.correctedLine s line source finder retries
    loc device) := by
  unfold State.correctedLine
  try dsimp only
  with_reducible repeat' (
    first | assumption | apply State.dmcCe_keeps | apply State.countErr_keeps
             | apply State.corrected_keeps | apply Keeps.ite | split)

theorem State.demandRead_keeps {s0 : State} (s : State) (line : Nat) (finder : Nat) (hk : Keeps s0 s) : Keeps s0
    (State.demandRead s line finder) := by
  unfold State.demandRead
  try dsimp only
  with_reducible repeat' (
    first | assumption | apply State.arrayRead_keeps | apply State.correctedLine_keeps
             | apply State.poisonLine_keeps | (refine Keeps.of_quad (by assumption) ?_) | apply Keeps.ite | split)

theorem State.fatalError_keeps {s0 : State} (s : State) (kind : Byte) (detail : List Byte) (hifRuns : Bool) (hk :
    Keeps s0 s) : Keeps s0 (State.fatalError s kind detail hifRuns) := by
  unfold State.fatalError
  try dsimp only
  with_reducible repeat' (
    first | assumption | apply State.logRec_keeps | apply State.send_keeps
             | apply Keeps.ite | (refine Keeps.update ?_ rfl rfl rfl))

end Sys2Proof.Machine
end

