-- ==== Sys2Proof/Laws/KeepsPost.lean ====
section
/-! SUPPORT. What every function of Post keeps. -/

namespace Sys2Proof.Machine

set_option linter.unusedVariables false

theorem State.unitRead_keeps {s0 : State} (s : State) (line : Nat) (hk : Keeps s0 s) : Keeps s0 (State.unitRead s
    line) := by
  unfold State.unitRead
  try dsimp only
  with_reducible repeat' (
    first | assumption | apply State.count_keeps | apply State.demandRead_keeps
             | apply Keeps.ite)

theorem State.countPost_keeps {s0 : State} (s : State) (u : Fin 40) (hk : Keeps s0 s) : Keeps s0 (State.countPost s u)
    := by
  unfold State.countPost
  try dsimp only
  with_reducible repeat' (
    first | assumption | apply State.count_keeps | apply Keeps.ite)

theorem State.performAt_keeps {s0 : State} (s : State) (u : Fin 40) (hk : Keeps s0 s) : Keeps s0 (State.performAt s u)
    := by
  unfold State.performAt
  try dsimp only
  with_reducible repeat' (
    first | assumption | apply State.countPost_keeps | apply State.unitRead_keeps
             | apply State.modEng_keeps | apply State.writeIntent_keeps | apply State.putMem_keeps
             | apply State.tick_keeps | apply Keeps.ite | apply Keeps.ite_snd | split
             | (refine Keeps.update ?_ rfl rfl rfl))

theorem State.performQueue_keeps {s0 : State} (s : State) (u : Fin 40) (hk : Keeps s0 s) : Keeps s0
    (State.performQueue s u) := by
  unfold State.performQueue
  try dsimp only
  with_reducible repeat' (
    first | assumption | apply State.performAt_keeps | apply Keeps.foldl | (intro))

theorem State.performBefore_keeps {s0 : State} (s : State) (pa : Nat) (n : Nat) (hk : Keeps s0 s) : Keeps s0
    (State.performBefore s pa n) := by
  unfold State.performBefore
  try dsimp only
  with_reducible repeat' (
    first | assumption | apply State.performQueue_keeps | apply Keeps.foldl | (intro)
             | split)

theorem State.unwaitedReply_keeps {s0 : State} (s : State) (e : Eng) (p : Post) (r : PostResult) (hk : Keeps s0 s) :
    Keeps s0 (State.unwaitedReply s e p r) := by
  unfold State.unwaitedReply
  try dsimp only
  with_reducible repeat' (
    first | assumption | apply State.modSlot_keeps | apply State.tick_keeps
             | apply State.modEng_keeps | split)

theorem State.waitPost_keeps {s0 : State} (s : State) (e : Eng) (m : Nat) (hk : Keeps s0 s) : Keeps s0 (State.waitPost
    s e m) := by
  unfold State.waitPost
  try dsimp only
  with_reducible repeat' (
    first | assumption | apply State.waitTerm_keeps | apply State.tick_keeps)

theorem State.awaitPosts_keeps {s0 : State} (s : State) (e : Eng) (hk : Keeps s0 s) : Keeps s0 (State.awaitPosts s e)
    := by
  unfold State.awaitPosts
  try dsimp only
  with_reducible repeat' (
    first | assumption | apply State.performQueue_keeps | apply State.waitPost_keeps
             | apply State.modEng_keeps | apply State.unwaitedReply_keeps | apply State.countTerm_keeps
             | apply Keeps.foldl | (intro) | apply Keeps.ite | split)

end Sys2Proof.Machine
end

