-- ==== Sys2Proof/Laws/KeepsCaches.lean ====
section
/-! SUPPORT. What every function of Caches keeps. -/

namespace Sys2Proof.Machine

set_option linter.unusedVariables false

theorem State.dcCheck_keeps {s0 : State} (s : State) (e : Eng) (line : Nat) (finder : Nat) (hk : Keeps s0 s) : Keeps
    s0 (State.dcCheck s e line finder) := by
  unfold State.dcCheck
  try dsimp only
  with_reducible repeat' (
    first | assumption | apply State.correctedLine_keeps | apply State.modDcSet_keeps
             | apply State.poisonLine_keeps | apply State.dcDrop_keeps | apply State.wroteBack_keeps | apply Keeps.ite
             | split)

theorem State.l2Check_keeps {s0 : State} (s : State) (c : Fin 4) (line : Nat) (finder : Nat) (hk : Keeps s0 s) : Keeps
    s0 (State.l2Check s c line finder) := by
  unfold State.l2Check
  try dsimp only
  with_reducible repeat' (
    first | assumption | apply State.modL2Set_keeps | apply State.correctedLine_keeps
             | apply State.poisonLine_keeps | split)

theorem State.dirtyCheck_keeps {s0 : State} (s : State) (line : Nat) (finder : Nat) (hk : Keeps s0 s) : Keeps s0
    (State.dirtyCheck s line finder) := by
  unfold State.dirtyCheck
  try dsimp only
  with_reducible repeat' (
    first | assumption | apply State.dcCheck_keeps | apply State.l2Check_keeps
             | apply Keeps.foldl | (intro) | apply Keeps.ite)

theorem State.countRecall_keeps {s0 : State} (s : State) (line : Nat) (hk : Keeps s0 s) : Keeps s0 (State.countRecall
    s line) := by
  unfold State.countRecall
  try dsimp only
  with_reducible repeat' (
    first | assumption | apply State.count_keeps | apply Keeps.ite)

theorem State.recall_keeps {s0 : State} (s : State) (line : Nat) (hk : Keeps s0 s) : Keeps s0 (State.recall s line) :=
    by
  unfold State.recall
  try dsimp only
  with_reducible repeat' (
    first | assumption | apply State.dropCopies_keeps | apply State.dirtyCheck_keeps
             | apply State.countRecall_keeps)

theorem State.share_keeps {s0 : State} (s : State) (line : Nat) (hk : Keeps s0 s) : Keeps s0 (State.share s line) :=
    by
  unfold State.share
  try dsimp only
  with_reducible repeat' (
    first | assumption | apply State.shareCopies_keeps | apply State.dirtyCheck_keeps
             | apply State.countRecall_keeps)

theorem State.dirAlloc_keeps {s0 : State} (s : State) (line : Nat) (hk : Keeps s0 s) : Keeps s0 (State.dirAlloc s
    line) := by
  unfold State.dirAlloc
  try dsimp only
  with_reducible repeat' (
    first | assumption | apply State.modDmc_keeps | apply State.count_keeps
             | apply State.recall_keeps | apply Keeps.ite | split)

theorem State.l2Evict_keeps {s0 : State} (s : State) (c : Fin 4) (v : CLine) (hk : Keeps s0 s) : Keeps s0
    (State.l2Evict s c v) := by
  unfold State.l2Evict
  try dsimp only
  with_reducible repeat' (
    first | assumption | apply State.dcCheck_keeps | apply State.wroteBack_keeps
             | apply State.dcDrop_keeps | apply State.poisonLine_keeps | apply Keeps.foldl | (intro) | apply Keeps.ite)

theorem State.l2Fill_keeps {s0 : State} (s : State) (c : Fin 4) (line : Nat) (st : Mesi) (hk : Keeps s0 s) : Keeps s0
    (State.l2Fill s c line st) := by
  unfold State.l2Fill
  try dsimp only
  with_reducible repeat' (
    first | assumption | apply State.l2Evict_keeps | apply Keeps.ite | split
             | (refine Keeps.update ?_ rfl rfl rfl))

theorem State.dcFill_keeps {s0 : State} (s : State) (e : Eng) (line : Nat) (st : Mesi) (hk : Keeps s0 s) : Keeps s0
    (State.dcFill s e line st) := by
  unfold State.dcFill
  try dsimp only
  with_reducible repeat' (
    first | assumption | apply State.modEng_keeps | apply State.l2Set_keeps
             | apply State.wroteBack_keeps | apply State.poisonLine_keeps | apply Keeps.ite | split)

theorem State.homeRead_keeps {s0 : State} (s : State) (line : Nat) (hk : Keeps s0 s) : Keeps s0 (State.homeRead s
    line) := by
  unfold State.homeRead
  try dsimp only
  with_reducible repeat' (
    first | assumption | apply State.dramAwake_keeps | apply State.count_keeps
             | apply State.demandRead_keeps | apply Keeps.ite)

theorem State.clusterShare_keeps {s0 : State} (s : State) (c : Fin 4) (line : Nat) (hk : Keeps s0 s) : Keeps s0
    (State.clusterShare s c line) := by
  unfold State.clusterShare
  try dsimp only
  with_reducible repeat' (
    first | assumption | apply State.dcCheck_keeps | apply State.l2Set_keeps
             | apply State.dcShare_keeps | apply Keeps.foldl | (intro) | apply Keeps.ite)

theorem State.clusterRead_keeps {s0 : State} (s : State) (e : Eng) (line : Nat) (hk : Keeps s0 s) : Keeps s0
    (State.clusterRead s e line).2.2 := by
  unfold State.clusterRead
  try dsimp only
  with_reducible repeat' (
    first | assumption | apply State.clusterShare_keeps | apply State.l2Check_keeps
             | apply State.l2Fill_keeps | apply State.share_keeps | apply State.dirAlloc_keeps
             | apply State.homeRead_keeps | apply Keeps.ite | split)

theorem State.uncachedRead_keeps {s0 : State} (s : State) (e : Eng) (line : Nat) (hk : Keeps s0 s) : Keeps s0
    (State.uncachedRead s e line).2 := by
  unfold State.uncachedRead
  try dsimp only
  with_reducible repeat' (
    first | assumption | apply State.demandRead_keeps | apply State.homeRead_keeps | split)

theorem State.clusterOwn_keeps {s0 : State} (s : State) (e : Eng) (line : Nat) (hk : Keeps s0 s) : Keeps s0
    (State.clusterOwn s e line).2 := by
  unfold State.clusterOwn
  try dsimp only
  with_reducible repeat' (
    first | assumption | apply State.clusterShare_keeps | apply State.l2Check_keeps
             | apply State.icDrop_keeps | apply State.dcDrop_keeps | apply State.l2Fill_keeps
             | apply State.writeIntent_keeps | apply State.waitTracker_keeps | apply State.recall_keeps
             | apply State.homeRead_keeps | apply State.dirAlloc_keeps | apply Keeps.foldl | (intro) | apply Keeps.ite
             | apply Keeps.ite_snd)

theorem State.uncachedWrite_keeps {s0 : State} (s : State) (e : Eng) (line : Nat) (hk : Keeps s0 s) : Keeps s0
    (State.uncachedWrite s e line).2 := by
  unfold State.uncachedWrite
  try dsimp only
  with_reducible repeat' (
    first | assumption | apply State.writeIntent_keeps | apply State.waitTracker_keeps
             | split)

theorem State.cacheAccess_keeps {s0 : State} (s : State) (e : Eng) (line : Nat) (write : Bool) (hk : Keeps s0 s) :
    Keeps s0 (State.cacheAccess s e line write).2 := by
  unfold State.cacheAccess
  try dsimp only
  with_reducible repeat' (
    first | assumption | apply State.uncachedWrite_keeps | apply State.uncachedRead_keeps
             | apply State.dcCheck_keeps | apply State.dcFill_keeps | apply State.tick_keeps
             | apply State.recall_keeps | apply State.share_keeps | apply State.demandRead_keeps
             | apply State.clusterOwn_keeps | apply State.clusterRead_keeps | apply Keeps.ite | apply Keeps.ite_snd
             | split)

theorem State.linesAccess_keeps {s0 : State} (s : State) (e : Eng) (ls : List Nat) (write : Bool) (crossed : Bool) (hk
    : Keeps s0 s) : Keeps s0 (State.linesAccess s e ls write crossed) := by
  unfold State.linesAccess
  try dsimp only
  with_reducible repeat' (
    first | assumption | apply State.cacheAccess_keeps | apply State.countTerm_keeps
             | apply State.waitTerm_keeps | apply State.tick_keeps | apply Keeps.foldl_snd | (intro))

theorem State.performStore_keeps {s0 : State} (s : State) (e : Eng) (pa : Nat) (l : List Byte) (hk : Keeps s0 s) :
    Keeps s0 (State.performStore s e pa l) := by
  unfold State.performStore
  try dsimp only
  with_reducible repeat' (
    first | assumption | apply State.noteStale_keeps | apply State.cacheAccess_keeps
             | apply State.putMem_keeps | apply Keeps.ite)

theorem State.entryCheck_keeps {s0 : State} (s : State) (e : Eng) (y : SbEntry) (hk : Keeps s0 s) : Keeps s0
    (State.entryCheck s e y) := by
  unfold State.entryCheck
  try dsimp only
  with_reducible repeat' (
    first | assumption | apply State.correctedLine_keeps | apply State.poisonLine_keeps
             | split)

theorem State.performEntry_keeps {s0 : State} (s : State) (e : Eng) (y : SbEntry) (hk : Keeps s0 s) : Keeps s0
    (State.performEntry s e y) := by
  unfold State.performEntry
  try dsimp only
  with_reducible repeat' (
    first | assumption | apply State.performStore_keeps | apply State.performBefore_keeps
             | apply State.entryCheck_keeps | (intro) | apply Keeps.ite | apply Keeps.pending | apply Keeps.nv
             | apply Keeps.mem | apply Keeps.fields | apply twf_putEntry | apply Memory.wf_bytes
             | apply Memory.wf_keys | apply Memory.wf_poison | apply Memory.wf_keyPoison | apply Memory.wf_errs
             | apply Memory.wf_stale | apply Memory.wf_mk)

theorem State.drainOne_keeps {s0 : State} (s : State) (e : Eng) (hk : Keeps s0 s) : Keeps s0 (State.drainOne s e) :=
    by
  unfold State.drainOne
  try dsimp only
  with_reducible repeat' (
    first | assumption | apply State.performEntry_keeps | apply State.modEng_keeps | split)

theorem State.drain_keeps {s0 : State} (s : State) (e : Eng) (x1 : Nat) (hk : Keeps s0 s) : Keeps s0 (State.drain s e
    x1) := by
  induction x1 generalizing s e hk with
  | zero =>
    unfold State.drain
    try dsimp only
    with_reducible repeat' (
      first | assumption | apply State.drainOne_keeps | exact Keeps.refl _)
  | succ n ih =>
    unfold State.drain
    try dsimp only
    with_reducible repeat' (
      first | assumption | apply ih | apply State.drainOne_keeps)

theorem State.drainAll_keeps {s0 : State} (s : State) (e : Eng) (hk : Keeps s0 s) : Keeps s0 (State.drainAll s e) :=
    by
  unfold State.drainAll
  try dsimp only
  with_reducible repeat' (
    first | assumption | apply State.waitTerm_keeps | apply State.drain_keeps)

theorem State.icCheck_keeps {s0 : State} (s : State) (e : Eng) (line : Nat) (hk : Keeps s0 s) : Keeps s0
    (State.icCheck s e line) := by
  unfold State.icCheck
  try dsimp only
  with_reducible repeat' (
    first | assumption | apply State.countErr_keeps | apply State.modEng_keeps
             | apply Keeps.ite)

theorem State.fetchAccess_keeps {s0 : State} (s : State) (e : Eng) (line : Nat) (hk : Keeps s0 s) : Keeps s0
    (State.fetchAccess s e line).2 := by
  unfold State.fetchAccess
  try dsimp only
  with_reducible repeat' (
    first | assumption | apply State.uncachedRead_keeps | apply State.countTerm_keeps
             | apply State.modEng_keeps | apply State.demandRead_keeps | apply State.share_keeps
             | apply State.clusterRead_keeps | apply State.tick_keeps | apply Keeps.ite_snd | split)

theorem State.fetchWait_keeps {s0 : State} (s : State) (e : Eng) (n : Nat) (hk : Keeps s0 s) : Keeps s0
    (State.fetchWait s e n) := by
  unfold State.fetchWait
  try dsimp only
  with_reducible repeat' (
    first | assumption | apply State.waitTerm_keeps | apply State.tick_keeps)

theorem State.fetchLine_keeps {s0 : State} (s : State) (e : Eng) (line : Nat) (hk : Keeps s0 s) : Keeps s0
    (State.fetchLine s e line) := by
  unfold State.fetchLine
  try dsimp only
  with_reducible repeat' (
    first | assumption | apply State.icCheck_keeps | apply State.fetchWait_keeps
             | apply State.fetchAccess_keeps | apply Keeps.ite | split)

theorem State.fetchAhead_keeps {s0 : State} (s : State) (e : Eng) (cur : Nat) (next : Option Nat) (hk : Keeps s0 s) :
    Keeps s0 (State.fetchAhead s e cur next) := by
  unfold State.fetchAhead
  try dsimp only
  with_reducible repeat' (
    first | assumption | apply State.modEng_keeps | apply State.fetchAccess_keeps
             | apply State.icCheck_keeps | apply Keeps.ite | split)

theorem State.agentWriteLine_keeps {s0 : State} (s : State) (pa : Nat) (l : List Byte) (hk : Keeps s0 s) : Keeps s0
    (State.agentWriteLine s pa l) := by
  unfold State.agentWriteLine
  try dsimp only
  with_reducible repeat' (
    first | assumption | apply State.performBefore_keeps | apply State.lineWrite_keeps
             | apply State.recall_keeps | apply Keeps.ite)

theorem State.agentWrite_keeps {s0 : State} (s : State) (pa : Nat) (l : List Byte) (hk : Keeps s0 s) : Keeps s0
    (State.agentWrite s pa l) := by
  unfold State.agentWrite
  try dsimp only
  with_reducible repeat' (
    first | assumption | apply State.agentWriteLine_keeps | apply Keeps.foldl | (intro))

theorem State.agentReadLine_keeps {s0 : State} (s : State) (line : Nat) (hk : Keeps s0 s) : Keeps s0
    (State.agentReadLine s line) := by
  unfold State.agentReadLine
  try dsimp only
  with_reducible repeat' (
    first | assumption | apply State.share_keeps | apply State.homeRead_keeps
             | apply State.demandRead_keeps | apply Keeps.ite)

theorem State.agentRead_keeps {s0 : State} (s : State) (pa : Nat) (n : Nat) (hk : Keeps s0 s) : Keeps s0
    (State.agentRead s pa n).2 := by
  unfold State.agentRead
  try dsimp only
  with_reducible repeat' (
    first | assumption | apply State.agentReadLine_keeps | apply State.performBefore_keeps
             | apply Keeps.foldl)

theorem State.keyRead_keeps {s0 : State} (s : State) (pa : Nat) (hk : Keeps s0 s) : Keeps s0 (State.keyRead s pa) :=
    by
  unfold State.keyRead
  try dsimp only
  with_reducible repeat' (
    first | assumption | apply State.dirtyCheck_keeps | apply State.demandRead_keeps
             | apply Keeps.ite)

end Sys2Proof.Machine
end

