-- ==== Sys2Proof/Laws/KeepsQueue.lean ====
section
/-! SUPPORT. What every function of Queue keeps. -/

namespace Sys2Proof.Machine

set_option linter.unusedVariables false

theorem State.queueEvent_keeps {s0 : State} (s : State) (qid : Nat) (hk : Keeps s0 s) : Keeps s0 (State.queueEvent s
    qid) := by
  unfold State.queueEvent
  try dsimp only
  with_reducible repeat' (
    first | assumption | apply State.fire_keeps | apply State.count_keeps | apply Keeps.ite)

theorem State.queueError_keeps {s0 : State} (s : State) (qid : Nat) (err : Nat) (index : Nat) (addr : Nat) (hk : Keeps
    s0 s) : Keeps s0 (State.queueError s qid err index addr) := by
  unfold State.queueError
  try dsimp only
  with_reducible repeat' (
    first | assumption | apply State.modQueue_keeps | apply State.record_keeps
             | apply State.countErr_keeps)

theorem State.hostRecord_keeps {s0 : State} (s : State) (d : Nat) (outcome : Nat) (req : Nat) (qid : Nat) (addr : Nat)
    (hk : Keeps s0 s) : Keeps s0 (State.hostRecord s d outcome req qid addr) := by
  unfold State.hostRecord
  try dsimp only
  with_reducible repeat' (
    first | assumption | apply State.record_keeps)

theorem State.countMove_keeps {s0 : State} (s : State) (qid : Nat) (n : Nat) (bytes : Nat) (hk : Keeps s0 s) : Keeps
    s0 (State.countMove s qid n bytes) := by
  unfold State.countMove
  try dsimp only
  with_reducible repeat' (
    first | assumption | apply State.count_keeps | apply Keeps.foldl | (intro)
             | apply Keeps.ite | split)

theorem State.moveKeys_keeps {s0 : State} (s : State) (pa : Nat) (n : Nat) (hk : Keeps s0 s) : Keeps s0
    (State.moveKeys s pa n) := by
  unfold State.moveKeys
  try dsimp only
  with_reducible repeat' (
    first | assumption | apply State.keyRead_keeps | apply Keeps.foldl | (intro)
             | apply Keeps.ite)

theorem State.moveWrite_keeps {s0 : State} (s : State) (d : Nat) (pa : Nat) (l : List Byte) (hk : Keeps s0 s) : Keeps
    s0 (State.moveWrite s d pa l).2 := by
  unfold State.moveWrite
  try dsimp only
  with_reducible repeat' (
    first | assumption | apply State.moveKeys_keeps | apply State.agentWrite_keeps | split)

theorem State.moveRead_keeps {s0 : State} (s : State) (d : Nat) (pa : Nat) (n : Nat) (hk : Keeps s0 s) : Keeps s0
    (State.moveRead s d pa n).2 := by
  unfold State.moveRead
  try dsimp only
  with_reducible repeat' (
    first | assumption | apply State.moveKeys_keeps | apply State.agentRead_keeps | split)

theorem State.moveWrites_keeps {s0 : State} (s : State) (d : Nat) (pa : Nat) (l : List Byte) (pa' : Nat) (l' : List
    Byte) (hk : Keeps s0 s) : Keeps s0 (State.moveWrites s d pa l pa' l').2 := by
  unfold State.moveWrites
  try dsimp only
  with_reducible repeat' (
    first | assumption | apply State.moveWrite_keeps
             | (refine Keeps.of_pair (by assumption) ?_) | (refine Keeps.of_pair' (by assumption) ?_) | split
             | dsimp only)

theorem State.startCopy_keeps {s0 : State} (s : State) (qid : Nat) (hk : Keeps s0 s) : Keeps s0 (State.startCopy s
    qid) := by
  unfold State.startCopy
  try dsimp only
  with_reducible repeat' (
    first | assumption | apply State.modQueue_keeps | apply State.send_keeps
             | apply State.count_keeps | apply Keeps.foldl | (intro) | apply Keeps.ite)

theorem State.startCopies_keeps {s0 : State} (s : State) (d : Nat) (hk : Keeps s0 s) : Keeps s0 (State.startCopies s
    d) := by
  unfold State.startCopies
  try dsimp only
  with_reducible repeat' (
    first | assumption | apply State.startCopy_keeps | apply Keeps.foldl | (intro)
             | apply Keeps.ite)

theorem State.writeQcfg_keeps {s0 : State} (s : State) (qid : Nat) (v : Word) (hk : Keeps s0 s) : Keeps s0
    (State.writeQcfg s qid v) := by
  unfold State.writeQcfg
  try dsimp only
  with_reducible repeat' (
    first | assumption | apply State.modQueue_keeps | apply State.startCopy_keeps
             | apply State.countErr_keeps | apply Keeps.ite)

theorem State.rejectDoorbell_keeps {s0 : State} (s : State) (d : Nat) (hk : Keeps s0 s) : Keeps s0
    (State.rejectDoorbell s d) := by
  unfold State.rejectDoorbell
  try dsimp only
  with_reducible repeat' (
    first | assumption | apply State.modDom_keeps | apply State.countErr_keeps)

theorem State.refuseDoorbell_keeps {s0 : State} (s : State) (d : Nat) (hk : Keeps s0 s) : Keeps s0
    (State.refuseDoorbell s d) := by
  unfold State.refuseDoorbell
  try dsimp only
  with_reducible repeat' (
    first | assumption | apply State.modDom_keeps)

theorem State.doorbell_keeps {s0 : State} (s : State) (qid : Nat) (producer : Bool) (w : Writer) (through : Bool) (v :
    BitVec 32) (hk : Keeps s0 s) : Keeps s0 (State.doorbell s qid producer w through v) := by
  unfold State.doorbell
  try dsimp only
  with_reducible repeat' (
    first | assumption | apply State.refuseDoorbell_keeps
             | apply State.rejectDoorbell_keeps | apply State.count_keeps | apply State.queueError_keeps
             | apply State.modQueue_keeps | apply State.queueEvent_keeps | apply State.startCopy_keeps
             | apply Keeps.ite)

theorem execQcfg_keeps {s0 : State} (qid : BitVec 16) (value : Word) (s : State) (hk : Keeps s0 s) : KO s0 (execQcfg
    qid value s) := by
  unfold execQcfg
  try dsimp only
  with_reducible repeat' (
    first | assumption | apply State.writeQcfg_keeps | apply KO.next)

theorem State.writerOrder_keeps {s0 : State} (s : State) (w : Writer) (hk : Keeps s0 s) : Keeps s0 (State.writerOrder
    s w) := by
  unfold State.writerOrder
  try dsimp only
  with_reducible repeat' (
    first | assumption | apply State.drainAll_keeps | apply State.awaitPosts_keeps | split)

theorem execQdbp_keeps {s0 : State} (qid : BitVec 16) (w : Writer) (value : BitVec 32) (s : State) (hk : Keeps s0 s) :
    KO s0 (execQdbp qid w value s) := by
  unfold execQdbp
  try dsimp only
  with_reducible repeat' (
    first | assumption | apply State.doorbell_keeps | apply State.writerOrder_keeps
             | apply KO.next)

theorem execQdbc_keeps {s0 : State} (qid : BitVec 16) (w : Writer) (value : BitVec 32) (s : State) (hk : Keeps s0 s) :
    KO s0 (execQdbc qid w value s) := by
  unfold execQdbc
  try dsimp only
  with_reducible repeat' (
    first | assumption | apply State.doorbell_keeps | apply State.writerOrder_keeps
             | apply KO.next)

theorem execHdbp_keeps {s0 : State} (fn : BitVec 8) (i : BitVec 8) (w : Writer) (value : BitVec 32) (s : State) (hk :
    Keeps s0 s) : KO s0 (execHdbp fn i w value s) := by
  unfold execHdbp
  try dsimp only
  with_reducible repeat' (
    first | assumption | apply State.doorbell_keeps | apply KO.next)

theorem execHdbc_keeps {s0 : State} (fn : BitVec 8) (i : BitVec 8) (w : Writer) (value : BitVec 32) (s : State) (hk :
    Keeps s0 s) : KO s0 (execHdbc fn i w value s) := by
  unfold execHdbc
  try dsimp only
  with_reducible repeat' (
    first | assumption | apply State.doorbell_keeps | apply KO.next)

theorem State.landEntries_keeps {s0 : State} (s : State) (qid : Nat) (q : Queue) (x1 : Nat) (x2 : List Byte) (x3 :
    Nat) (hk : Keeps s0 s) : Keeps s0 (State.landEntries s qid q x1 x2 x3).2 := by
  induction x1 generalizing s qid q x2 x3 hk with
  | zero =>
    unfold State.landEntries
    try dsimp only
    with_reducible repeat' (
      first | assumption | apply State.moveWrite_keeps | exact Keeps.refl _
               | (refine Keeps.of_pair' (by assumption) ?_) | dsimp only)
  | succ n ih =>
    unfold State.landEntries
    try dsimp only
    with_reducible repeat' (
      first | assumption | apply ih | apply State.moveWrite_keeps
               | (refine Keeps.of_pair (by assumption) ?_) | split)

theorem State.burstEntries_keeps {s0 : State} (s : State) (qid : Nat) (q : Queue) (x1 : Nat) (x2 : Nat) (hk : Keeps s0
    s) : Keeps s0 (State.burstEntries s qid q x1 x2).2.2 := by
  induction x1 generalizing s qid q x2 hk with
  | zero =>
    unfold State.burstEntries
    try dsimp only
    with_reducible repeat' (
      first | assumption | apply State.moveRead_keeps | exact Keeps.refl _
               | (refine Keeps.of_pair' (by assumption) ?_) | dsimp only)
  | succ n ih =>
    unfold State.burstEntries
    try dsimp only
    with_reducible repeat' (
      first | assumption | apply ih | apply State.moveRead_keeps
               | (refine Keeps.of_pair (by assumption) ?_) | split)

theorem State.sendBurst_keeps {s0 : State} (s : State) (qid : Nat) (maxPayload : Nat) (x1 : Nat) (x2 : List (List
    Byte)) (hk : Keeps s0 s) : Keeps s0 (State.sendBurst s qid maxPayload x1 x2) := by
  induction x1 generalizing s qid maxPayload x2 hk with
  | zero =>
    unfold State.sendBurst
    try dsimp only
    with_reducible repeat' (
      first | assumption | apply State.send_keeps | apply State.count_keeps
               | apply State.modQueue_keeps | exact Keeps.refl _ | apply Keeps.ite_snd)
  | succ n ih =>
    unfold State.sendBurst
    try dsimp only
    with_reducible repeat' (
      first | assumption | apply ih | apply State.send_keeps | apply State.count_keeps
               | apply State.modQueue_keeps | apply Keeps.ite)

theorem execCqBurst_keeps {s0 : State} (qid : BitVec 16) (s : State) (hk : Keeps s0 s) : KO s0 (execCqBurst qid s) :=
    by
  unfold execCqBurst
  try dsimp only
  with_reducible repeat' (
    first | assumption | apply State.burstEntries_keeps | apply State.countMove_keeps
             | apply State.sendBurst_keeps | apply State.queueError_keeps | apply State.msix_keeps | apply KO.next
             | apply KO.ite | apply Keeps.ite | split)

end Sys2Proof.Machine
end

