-- ==== Sys2Proof/Laws/KeepsCsr.lean ====
section
/-! SUPPORT. What every function of Csr keeps. -/

namespace Sys2Proof.Machine

set_option linter.unusedVariables false

theorem State.pageWrite_keeps {s0 : State} (s : State) (d : Nat) (o : Nat) (v : Word) (m : Word) (hk : Keeps s0 s) :
    Keeps s0 (State.pageWrite s d o v m) := by
  unfold State.pageWrite
  try dsimp only
  with_reducible repeat' (
    first | assumption | apply State.modDom_keeps | apply State.modFn_keeps
             | apply Keeps.ite)

theorem State.plainWrite_keeps {s0 : State} (s : State) (o : Nat) (v : Word) (m : Word) (hk : Keeps s0 s) : Keeps s0
    (State.plainWrite s o v m) := by
  unfold State.plainWrite
  try dsimp only
  with_reducible repeat' (
    first | assumption | apply State.setReg_keeps)

theorem State.goWrite_keeps {s0 : State} (s : State) (hk : Keeps s0 s) : Keeps s0 (State.goWrite s) := by
  unfold State.goWrite
  try dsimp only
  with_reducible repeat' (
    first | assumption | apply State.countErr_keeps | apply Keeps.ite
             | (refine Keeps.update ?_ rfl rfl rfl))

theorem State.contextWrite_keeps {s0 : State} (s : State) (qid : Nat) (k : Nat) (v : Word) (m : Word) (hk : Keeps s0
    s) : Keeps s0 (State.contextWrite s qid k v m) := by
  unfold State.contextWrite
  try dsimp only
  with_reducible repeat' (
    first | assumption | apply State.modQueue_keeps | apply Keeps.ite | split)

theorem State.pcmWrite_keeps {s0 : State} (s : State) (o : Nat) (v : Word) (m : Word) (hk : Keeps s0 s) : Keeps s0
    (State.pcmWrite s o v m) := by
  unfold State.pcmWrite
  try dsimp only
  with_reducible repeat' (
    first | assumption | apply Keeps.ite | (refine Keeps.update ?_ rfl rfl rfl))

theorem State.csrWrite8_keeps {s0 : State} (s : State) (w : Writer) (o : Nat) (v : Word) (m : Word) (hk : Keeps s0 s)
    : Keeps s0 (State.csrWrite8 s w o v m) := by
  unfold State.csrWrite8
  try dsimp only
  with_reducible repeat' (
    first | assumption | apply State.plainWrite_keeps | apply State.modSlot_keeps
             | apply State.writeQcfg_keeps | apply State.doorbell_keeps | apply State.contextWrite_keeps
             | apply State.pageWrite_keeps | apply State.goWrite_keeps | apply State.pcmWrite_keeps | apply Keeps.ite
             | split | (refine Keeps.update ?_ rfl rfl rfl))

theorem State.bufWrite_keeps {s0 : State} (s : State) (o : Nat) (l : List Byte) (hk : Keeps s0 s) : Keeps s0
    (State.bufWrite s o l) := by
  unfold State.bufWrite
  try dsimp only
  with_reducible repeat' (
    first | assumption | apply Keeps.ite | (refine Keeps.update ?_ rfl rfl rfl))

theorem State.csrWrite_keeps {s0 : State} (s : State) (w : Writer) (o : Nat) (n : Nat) (v : Word) (hk : Keeps s0 s) :
    Keeps s0 (State.csrWrite s w o n v) := by
  unfold State.csrWrite
  try dsimp only
  with_reducible repeat' (
    first | assumption | apply State.bufWrite_keeps | apply State.doorbell_keeps
             | apply State.csrWrite8_keeps | apply Keeps.ite | split)

theorem State.vfWrite_keeps {s0 : State} (s : State) (d : Nat) (o : Nat) (n : Nat) (v : Word) (hk : Keeps s0 s) :
    Keeps s0 (State.vfWrite s d o n v) := by
  unfold State.vfWrite
  try dsimp only
  with_reducible repeat' (
    first | assumption | apply State.doorbell_keeps | apply State.pageWrite_keeps
             | apply Keeps.ite | split)

theorem execCsrWrite_keeps {s0 : State} (page : CsrPage) (off : BitVec 26) (size : Nat) (value : Word) (s : State) (hk
    : Keeps s0 s) : KO s0 (execCsrWrite page off size value s) := by
  unfold execCsrWrite
  try dsimp only
  with_reducible repeat' (
    first | assumption | apply State.count_keeps | apply State.csrWrite_keeps
             | apply State.vfWrite_keeps | apply KO.next | apply KO.ite | apply Keeps.ite | split)

theorem execPend_keeps {s0 : State} (slot : BitVec 8) (value : Word) (s : State) (hk : Keeps s0 s) : KO s0 (execPend
    slot value s) := by
  unfold execPend
  try dsimp only
  with_reducible repeat' (
    first | assumption | apply State.csrWrite8_keeps | apply KO.next)

end Sys2Proof.Machine
end

