-- ==== Sys2Proof/Laws/KeepsXlate.lean ====
section
/-! SUPPORT. What every function of Xlate keeps. -/

namespace Sys2Proof.Machine

set_option linter.unusedVariables false

theorem specification_keeps {s0 : State} {α : Type} (detail : optParam Nat 0) : KM s0 (specification (α := α) detail)
    := by
  unfold specification
  try dsimp only
  with_reducible repeat' (
    first | apply KM.trap)

theorem privileged_keeps {s0 : State} {α : Type} : KM s0 (privileged (α := α)) := by
  unfold privileged
  try dsimp only
  with_reducible repeat' (
    first | apply KM.trap)

theorem require_keeps {s0 : State} (c : Bool) (detail : optParam Nat 0) : KM s0 (require c detail) := by
  unfold require
  try dsimp only
  with_reducible repeat' (
    first | apply specification_keeps | apply KM.ret | apply KM.ite)

theorem accessFault_keeps {s0 : State} {α : Type} (reason : Nat) (acc : Acc) (level : Nat) (va : Nat) : KM s0
    (accessFault (α := α) reason acc level va) := by
  unfold accessFault
  try dsimp only
  with_reducible repeat' (
    first | apply KM.trap)

theorem State.walkTerm_keeps {s0 : State} (s : State) (e : Eng) (n : Nat) (hk : Keeps s0 s) : Keeps s0 (State.walkTerm
    s e n) := by
  unfold State.walkTerm
  try dsimp only
  with_reducible repeat' (
    first | assumption | apply State.waitTerm_keeps | apply State.tick_keeps)

theorem walkLine_keeps {s0 : State} (e : Eng) (line : Nat) : KM s0 (walkLine e line) := by
  unfold walkLine
  try dsimp only
  with_reducible repeat' (
    first | assumption | apply State.cacheAccess_keeps | apply State.walkTerm_keeps
             | apply State.countTerm_keeps | apply KM.readThen | apply KM.write | (intro))

theorem walkKey_keeps {s0 : State} (e : Eng) (pa : Nat) (va : Nat) : KM s0 (walkKey e pa va) := by
  unfold walkKey
  try dsimp only
  with_reducible repeat' (
    first | assumption | apply walkLine_keeps | apply State.keyRead_keeps | apply KM.ret
             | apply KM.trap | apply KM.look | apply KM.readThen | apply KM.write | apply KM.ite | apply KM.seq
             | (intro) | split)

theorem walkRead_keeps {s0 : State} (e : Eng) (key : Nat) (acc : Acc) (va : Nat) (ea : Nat) (level : Nat) : KM s0
    (walkRead e key acc va ea level) := by
  unfold walkRead
  try dsimp only
  with_reducible repeat' (
    first | apply walkKey_keeps | apply State.performBefore_keeps | apply walkLine_keeps
             | apply accessFault_keeps | apply KM.ret | apply KM.trap | apply KM.readThen | apply KM.change
             | apply KM.ite | apply KM.seq | (intro))

theorem walkFrom_keeps {s0 : State} (e : Eng) (key : Nat) (acc : Acc) (va : Nat) (x1 : Nat) (x2 : Nat) : KM s0
    (walkFrom e key acc va x1 x2) := by
  induction x1 generalizing e key acc va x2 with
  | zero =>
    unfold walkFrom
    try dsimp only
    with_reducible repeat' (
      first | apply accessFault_keeps | apply walkRead_keeps | apply walkKey_keeps
               | exact Keeps.refl _ | apply KM.trap | apply KM.change | apply KM.each | (intro) | apply Keeps.ite)
  | succ n ih =>
    unfold walkFrom
    try dsimp only
    with_reducible repeat' (
      first | apply ih | apply accessFault_keeps | apply walkRead_keeps
               | apply walkKey_keeps | apply KM.ret | apply KM.readThen | apply KM.ite | apply KM.seq | (intro))

theorem State.tlbDrop_keeps {s0 : State} (s : State) (f : TlbEntry → Bool) (hk : Keeps s0 s) : Keeps s0 (State.tlbDrop
    s f) := by
  unfold State.tlbDrop
  try dsimp only
  with_reducible repeat' (
    first | assumption | apply State.modEngines_keeps)

theorem tlbInsert_keeps {s0 : State} (e : Eng) (fetch : Bool) (x : TlbEntry) : KM s0 (tlbInsert e fetch x) := by
  unfold tlbInsert
  try dsimp only
  with_reducible repeat' (
    first | assumption | apply State.modEng_keeps | apply KM.readThen | apply KM.write
             | (intro) | split | (refine Keeps.update ?_ rfl rfl rfl))

theorem checkLeaf_keeps {s0 : State} (acc : Acc) (va : Nat) (key : Nat) (priv : Bool) (krr : BitVec 32) (l : Leaf) :
    KM s0 (checkLeaf acc va key priv krr l) := by
  unfold checkLeaf
  try dsimp only
  with_reducible repeat' (
    first | apply accessFault_keeps | apply KM.ret | apply KM.readThen | (intro) | split)

theorem lookup_keeps {s0 : State} (e : Eng) (key : Nat) (acc : Acc) (va : Nat) : KM s0 (lookup e key acc va) := by
  unfold lookup
  try dsimp only
  with_reducible repeat' (
    first | assumption | apply State.keyRead_keeps | apply accessFault_keeps
             | apply State.walkTerm_keeps | apply State.tumCount_keeps | apply walkFrom_keeps | apply tlbInsert_keeps
             | apply KM.ret | apply KM.trap | apply KM.look | apply KM.readThen | apply KM.write | apply KM.ite
             | apply KM.seq | (intro) | split)

theorem translate_keeps {s0 : State} (e : Eng) (slot : Nat) (acc : Acc) (va : Nat) : KM s0 (translate e slot acc va)
    := by
  unfold translate
  try dsimp only
  with_reducible repeat' (
    first | assumption | apply lookup_keeps | apply checkLeaf_keeps
             | apply State.modEng_keeps | apply State.tumCount_keeps | apply accessFault_keeps | apply KM.ret
             | apply KM.look | apply KM.change | apply KM.ite | apply KM.seq | (intro))

theorem translateAll_keeps {s0 : State} (e : Eng) (slot : Nat) (acc : Acc) (x1 : List (Nat × Nat)) : KM s0
    (translateAll e slot acc x1) := by
  induction x1 generalizing e slot acc with
  | nil =>
    unfold translateAll
    try dsimp only
    with_reducible repeat' (
      first | apply translate_keeps | exact Keeps.refl _ | apply KM.ret | apply KM.trap
               | (intro) | apply Keeps.ite)
  | cons y l ih =>
    unfold translateAll
    try dsimp only
    with_reducible repeat' (
      first | apply ih | apply translate_keeps | apply KM.go | apply KM.ret
               | apply KM.seq | (intro))

theorem addressRange_keeps {s0 : State} (ea : Nat) (n : Nat) : KM s0 (addressRange ea n) := by
  unfold addressRange
  try dsimp only
  with_reducible repeat' (
    first | apply KM.ret | apply KM.trap | apply KM.ite)

theorem pieces_keeps {s0 : State} (e : Eng) (slot : Nat) (acc : Acc) (ea : Nat) (n : Nat) : KM s0 (pieces e slot acc
    ea n) := by
  unfold pieces
  try dsimp only
  with_reducible repeat' (
    first | apply addressRange_keeps | apply translateAll_keeps | apply KM.seq | (intro))

end Sys2Proof.Machine
end

