-- ==== Sys2Proof/Laws/KeepsOps.lean ====
section
/-! SUPPORT. What every function of Ops keeps. -/

namespace Sys2Proof.Machine

set_option linter.unusedVariables false

theorem State.displace_keeps {s0 : State} (s : State) (e : Eng) (n : Fin 8) (hk : Keeps s0 s) : Keeps s0
    (State.displace s e n) := by
  unfold State.displace
  try dsimp only
  with_reducible repeat' (
    first | assumption | apply State.modSlot_keeps | apply Keeps.ite)

theorem State.enterExc_keeps {s0 : State} (s : State) (e : Eng) (t : Fin 8) (v : Nat) (n : Option (Fin 8)) (x : Exc)
    (hk : Keeps s0 s) : Keeps s0 (State.enterExc s e t v n x) := by
  unfold State.enterExc
  try dsimp only
  with_reducible repeat' (
    first | assumption | apply State.modBank_keeps | apply State.modSlot_keeps
             | apply State.displace_keeps | apply State.modEng_keeps | apply State.cycles_keeps
             | apply State.tick_keeps | apply Keeps.ite | split)

theorem State.mcRecord_keeps {s0 : State} (s : State) (e : Eng) (code : Nat) (n : Option (Fin 8)) (stopped : Bool) (ia
    : Nat) (pa : Nat) (key : Nat) (hk : Keeps s0 s) : Keeps s0 (State.mcRecord s e code n stopped ia pa key) := by
  unfold State.mcRecord
  try dsimp only
  with_reducible repeat' (
    first | assumption | apply State.record_keeps)

theorem State.machineCheck_keeps {s0 : State} (s : State) (e : Eng) (code : Nat) (eaddr : Nat) (pa : Nat) (n : Option
    (Fin 8)) (ilen : BitVec 4) (key : Nat) (hk : Keeps s0 s) : Keeps s0 (State.machineCheck s e code eaddr pa n ilen
    key) := by
  unfold State.machineCheck
  try dsimp only
  with_reducible repeat' (
    first | assumption | apply State.modEng_keeps | apply State.mcRecord_keeps
             | apply State.fire_keeps | apply State.enterExc_keeps | apply Keeps.ite)

theorem State.deliver_keeps {s0 : State} (s : State) (e : Eng) (n : Fin 8) (x : Exc) (hk : Keeps s0 s) : Keeps s0
    (State.deliver s e n x) := by
  unfold State.deliver
  try dsimp only
  with_reducible repeat' (
    first | assumption | apply State.enterExc_keeps | apply State.machineCheck_keeps
             | split)

theorem State.raise_keeps {s0 : State} (s : State) (e : Eng) (n : Fin 8) (x : Exc) (hk : Keeps s0 s) : Keeps s0
    (State.raise s e n x) := by
  unfold State.raise
  try dsimp only
  with_reducible repeat' (
    first | assumption | apply State.modSlot_keeps | apply State.deliver_keeps
             | apply Keeps.ite)

theorem State.trapped_keeps {s0 : State} (s : State) (e : Eng) (n : Fin 8) (ilen : Nat) (x1 : Trap) (hk : Keeps s0 s)
    : Keeps s0 (State.trapped s e n ilen x1) := by
  unfold State.trapped
  try dsimp only
  with_reducible repeat' (
    first | assumption | apply State.raise_keeps | apply State.machineCheck_keeps | split)

theorem getBank_keeps {s0 : State} (c : Cx) : KM s0 (getBank c) := by
  unfold getBank
  try dsimp only
  with_reducible repeat' (
    first | apply KM.look)

theorem modBank_keeps {s0 : State} (c : Cx) (f : Bank → Bank) : KM s0 (modBank c f) := by
  unfold modBank
  try dsimp only
  with_reducible repeat' (
    first | apply State.modBank_keeps | apply KM.change | (intro))

theorem getG_keeps {s0 : State} (c : Cx) (r : BitVec 4) : KM s0 (getG c r) := by
  unfold getG
  try dsimp only
  with_reducible repeat' (
    first | apply getBank_keeps | apply KM.ret | apply KM.seq | (intro))

theorem setG_keeps {s0 : State} (c : Cx) (r : BitVec 4) (v : Word) : KM s0 (setG c r v) := by
  unfold setG
  try dsimp only
  with_reducible repeat' (
    first | apply modBank_keeps)

theorem getD'_keeps {s0 : State} (c : Cx) (r : BitVec 4) : KM s0 (getD' c r) := by
  unfold getD'
  try dsimp only
  with_reducible repeat' (
    first | apply getBank_keeps | apply KM.ret | apply KM.seq | (intro))

theorem setD_keeps {s0 : State} (c : Cx) (r : BitVec 4) (v : BitVec 256) : KM s0 (setD c r v) := by
  unfold setD
  try dsimp only
  with_reducible repeat' (
    first | apply modBank_keeps)

theorem getF_keeps {s0 : State} (c : Cx) (r : BitVec 4) : KM s0 (getF c r) := by
  unfold getF
  try dsimp only
  with_reducible repeat' (
    first | apply getBank_keeps | apply KM.ret | apply KM.seq | (intro))

theorem setF_keeps {s0 : State} (c : Cx) (r : BitVec 4) (v : BitVec 128) : KM s0 (setF c r v) := by
  unfold setF
  try dsimp only
  with_reducible repeat' (
    first | apply modBank_keeps)

theorem setCC_keeps {s0 : State} (c : Cx) (v : Nat) : KM s0 (setCC c v) := by
  unfold setCC
  try dsimp only
  with_reducible repeat' (
    first | apply modBank_keeps)

theorem getPsw_keeps {s0 : State} (c : Cx) : KM s0 (getPsw c) := by
  unfold getPsw
  try dsimp only
  with_reducible repeat' (
    first | apply getBank_keeps | apply KM.ret | apply KM.seq | (intro))

theorem fetchLines_keeps {s0 : State} (e : Eng) (ia : Nat) (x1 : List Nat) : KM s0 (fetchLines e ia x1) := by
  induction x1 generalizing e ia with
  | nil =>
    unfold fetchLines
    try dsimp only
    with_reducible repeat' (
      first | assumption | apply State.fetchLine_keeps | apply State.performBefore_keeps
               | exact Keeps.refl _ | apply KM.ret | apply KM.read | apply KM.readThen | apply KM.write
               | apply KM.each | (intro) | apply Keeps.ite)
  | cons y l ih =>
    unfold fetchLines
    try dsimp only
    with_reducible repeat' (
      first | assumption | apply ih | apply State.fetchLine_keeps
               | apply State.performBefore_keeps | apply KM.go | apply KM.trap | apply KM.look | apply KM.change
               | apply KM.ite | apply KM.seq | (intro))

theorem fetchFirst_keeps {s0 : State} (e : Eng) (slot : Nat) (ia : Nat) : KM s0 (fetchFirst e slot ia) := by
  unfold fetchFirst
  try dsimp only
  with_reducible repeat' (
    first | apply translateAll_keeps | apply KM.trap | apply KM.ite | apply KM.seq
             | (intro))

theorem fetchRest_keeps {s0 : State} (e : Eng) (slot : Nat) (ia : Nat) (len : Nat) (ps : List (Nat × Nat)) : KM s0
    (fetchRest e slot ia len ps) := by
  unfold fetchRest
  try dsimp only
  with_reducible repeat' (
    first | apply fetchLines_keeps | apply State.fetchAhead_keeps
             | apply translateAll_keeps | apply KM.ret | apply KM.trap | apply KM.change | apply KM.ite | apply KM.seq
             | (intro))

theorem fetch_keeps {s0 : State} (e : Eng) (slot : Nat) (ia : Nat) (len : Nat) (s : State) (hk : Keeps s0 s) : Keeps
    s0 (fetch e slot ia len s).2 := by
  unfold fetch
  try dsimp only
  with_reducible repeat' (
    first | assumption | apply fetchFirst_keeps | apply fetchRest_keeps
             | (refine Keeps.of_pair (by assumption) ?_) | apply KM.run | split)

theorem State.leave_keeps {s0 : State} (s : State) (e : Eng) (hk : Keeps s0 s) : Keeps s0 (State.leave s e) := by
  unfold State.leave
  try dsimp only
  with_reducible repeat' (
    first | assumption | apply State.modEng_keeps)

theorem State.seal_keeps {s0 : State} (s : State) (e : Eng) (discard : Bool) (hk : Keeps s0 s) : Keeps s0 (State.seal
    s e discard) := by
  unfold State.seal
  try dsimp only
  with_reducible repeat' (
    first | assumption | apply State.modEng_keeps)

theorem State.complete_keeps {s0 : State} (s : State) (c : Cx) (count : Nat) (d : Done) (hk : Keeps s0 s) : Keeps s0
    (State.complete s c count d) := by
  unfold State.complete
  try dsimp only
  with_reducible repeat' (
    first | assumption | apply State.cycles_keeps | apply State.tick_keeps
             | apply State.modBank_keeps | apply State.modEng_keeps | split)

theorem State.skip_keeps {s0 : State} (s : State) (c : Cx) (m : Macro) (hk : Keeps s0 s) : Keeps s0 (State.skip s c m)
    := by
  unfold State.skip
  try dsimp only
  with_reducible repeat' (
    first | assumption | apply State.cycles_keeps | apply State.tick_keeps
             | apply State.modBank_keeps)

theorem State.takePostCheck_keeps {s0 : State} (s : State) (e : Eng) (hk : Keeps s0 s) : Keeps s0 (State.takePostCheck
    s e) := by
  unfold State.takePostCheck
  try dsimp only
  with_reducible repeat' (
    first | assumption | apply State.machineCheck_keeps | apply State.modEng_keeps | split)

theorem State.takeWindow_keeps {s0 : State} (s : State) (e : Eng) (hk : Keeps s0 s) : Keeps s0 (State.takeWindow s e)
    := by
  unfold State.takeWindow
  try dsimp only
  with_reducible repeat' (
    first | assumption | apply State.modEng_keeps | apply Keeps.ite | split)

theorem State.trappedPoint_keeps {s0 : State} (s : State) (e : Eng) (n : Fin 8) (ilen : Nat) (t : Trap) (hk : Keeps s0
    s) : Keeps s0 (State.trappedPoint s e n ilen t) := by
  unfold State.trappedPoint
  try dsimp only
  with_reducible repeat' (
    first | assumption | apply State.takePostCheck_keeps | apply State.modSlot_keeps
             | apply State.trapped_keeps | split)

theorem State.finishWork_keeps {s0 : State} (s : State) (c : Cx) (count : Nat) (r : Except Trap Done × State)
    (hk : Keeps s0 r.2) : Keeps s0 (s.finishWork c count r) := by
  obtain ⟨x, s'⟩ := r
  unfold State.finishWork
  split
  all_goals
    rename_i h
    cases h
    dsimp only at hk ⊢
    with_reducible repeat' (
      first | exact hk | apply State.takePostCheck_keeps | apply State.trappedPoint_keeps | apply State.complete_keeps
            | apply State.cycles_keeps | apply State.seal_keeps | apply Keeps.ite)

theorem State.work_keeps {s0 : State} (s : State) (c : Cx) (m : Macro) (hm : ∀ c, KM s0 (m.body c)) (hk : Keeps s0 s) :
    Keeps s0 (s.work c m) := State.finishWork_keeps _ _ _ _ (hm c s hk)

theorem State.runMacro_keeps {s0 : State} (s : State) (e : Eng) (pred : BitVec 4) (len : Nat) (m : Macro)
    (hm : ∀ c, KM s0 (m.body c)) (hk : Keeps s0 s) : Keeps s0 (s.runMacro e pred len m) := by
  unfold State.runMacro
  split
  · exact hk
  · dsimp only
    split
    all_goals
      rename_i hf
      have h := Keeps.of_pair hf (fetch_keeps _ _ _ _ _ (State.modEng_keeps _ _ _ hk))
      with_reducible repeat' (
        first | exact h | exact hm | apply State.work_keeps | apply State.trapped_keeps | apply State.cycles_keeps
              | apply State.tick_keeps | apply State.modEng_keeps | apply State.skip_keeps | apply Keeps.ite)

theorem macroNext_keeps {s0 : State} (e : Eng) (pred : BitVec 4) (len : Len) (m : Macro) (s : State)
    (hm : ∀ c, KM s0 (m.body c)) (hk : Keeps s0 s) : KO s0 (macroNext e pred len m s) :=
  KO.next (State.runMacro_keeps _ _ _ _ _ hm hk)

theorem State.eret_keeps {s0 : State} (s : State) (e : Eng) (n : Fin 8) (hk : Keeps s0 s) : Keeps s0 (State.eret s e
    n) := by
  unfold State.eret
  try dsimp only
  with_reducible repeat' (
    first | assumption | apply State.modBank_keeps | apply State.modSlot_keeps
             | apply Keeps.ite)

end Sys2Proof.Machine
end

