-- ==== Sys2Proof/Laws/KeepsDomains.lean ====
section
/-! SUPPORT. What every function of Domains keeps. -/

namespace Sys2Proof.Machine

set_option linter.unusedVariables false

theorem Memory.zeroFrame_wf {m : Memory} (f : Nat) (h : m.wf = true) : (m.zeroFrame f).wf = true :=
  Memory.wf_mk (twf_tdrop _ (Memory.wf_bytes h)) (Memory.wf_keys h) (twf_tdrop _ (Memory.wf_poison h))
    (Memory.wf_keyPoison h) (twf_tdrop _ (Memory.wf_errs h)) (twf_tdrop _ (Memory.wf_stale h))

theorem State.setDomState_keeps {s0 : State} (s : State) (d : Nat) (x : DomState) (hk : Keeps s0 s) : Keeps s0
    (State.setDomState s d x) := by
  unfold State.setDomState
  try dsimp only
  with_reducible repeat' (
    first | assumption | apply State.fire_keeps | apply State.modDom_keeps
             | apply Keeps.ite)

theorem State.stopSlot_keeps {s0 : State} (s : State) (i : Nat) (hk : Keeps s0 s) : Keeps s0 (State.stopSlot s i) :=
    by
  unfold State.stopSlot
  try dsimp only
  with_reducible repeat' (
    first | assumption | apply State.leave_keeps | apply State.modSlot_keeps
             | apply Keeps.ite)

theorem State.startQuiesce_keeps {s0 : State} (s : State) (d : Nat) (hk : Keeps s0 s) : Keeps s0 (State.startQuiesce s
    d) := by
  unfold State.startQuiesce
  try dsimp only
  with_reducible repeat' (
    first | assumption | apply State.stopSlot_keeps | apply State.setDomState_keeps
             | apply Keeps.foldl | (intro) | apply Keeps.ite)

theorem State.setFlrActive_keeps {s0 : State} (s : State) (d : Nat) (b : Bool) (hk : Keeps s0 s) : Keeps s0
    (State.setFlrActive s d b) := by
  unfold State.setFlrActive
  try dsimp only
  with_reducible repeat' (
    first | assumption | apply State.setReg_keeps)

theorem State.performPosts_keeps {s0 : State} (s : State) (d : Nat) (hk : Keeps s0 s) : Keeps s0 (State.performPosts s
    d) := by
  unfold State.performPosts
  try dsimp only
  with_reducible repeat' (
    first | assumption | apply State.performQueue_keeps | apply Keeps.foldl | (intro)
             | apply Keeps.ite)

theorem State.finishFlr_keeps {s0 : State} (s : State) (d : Nat) (hk : Keeps s0 s) : Keeps s0 (State.finishFlr s d) :=
    by
  unfold State.finishFlr
  try dsimp only
  with_reducible repeat' (
    first | assumption | apply State.modDom_keeps | apply State.modFn_keeps
             | apply State.send_keeps | apply State.fire_keeps | apply State.setFlrActive_keeps
             | (refine Keeps.update ?_ rfl rfl rfl))

theorem State.eraseSlots_keeps {s0 : State} (s : State) (d : Nat) (hk : Keeps s0 s) : Keeps s0 (State.eraseSlots s d)
    := by
  unfold State.eraseSlots
  try dsimp only
  with_reducible repeat' (
    first | assumption | apply State.modSlot_keeps | apply State.modBank_keeps
             | apply Keeps.foldl | (intro))

theorem State.clearBtb_keeps {s0 : State} (s : State) (i : Nat) (hk : Keeps s0 s) : Keeps s0 (State.clearBtb s i) :=
    by
  unfold State.clearBtb
  try dsimp only
  with_reducible repeat' (
    first | assumption | apply State.modEng_keeps)

theorem State.newSecret_keeps {s0 : State} (s : State) (i : Nat) (hk : Keeps s0 s) : Keeps s0 (State.newSecret s i) :=
    by
  unfold State.newSecret
  try dsimp only
  with_reducible repeat' (
    first | assumption | apply State.draw_keeps | apply State.modSlot_keeps)

theorem State.erasePredictions_keeps {s0 : State} (s : State) (d : Nat) (hk : Keeps s0 s) : Keeps s0
    (State.erasePredictions s d) := by
  unfold State.erasePredictions
  try dsimp only
  with_reducible repeat' (
    first | assumption | apply State.tlbDrop_keeps | apply State.newSecret_keeps
             | apply State.clearBtb_keeps | apply Keeps.foldl | (intro))

theorem State.dropQueues_keeps {s0 : State} (s : State) (d : Nat) (hk : Keeps s0 s) : Keeps s0 (State.dropQueues s d)
    := by
  unfold State.dropQueues
  try dsimp only
  with_reducible repeat' (
    first | assumption | (refine Keeps.update ?_ rfl rfl rfl))

theorem State.eraseQueues_keeps {s0 : State} (s : State) (d : Nat) (hk : Keeps s0 s) : Keeps s0 (State.eraseQueues s
    d) := by
  unfold State.eraseQueues
  try dsimp only
  with_reducible repeat' (
    first | assumption | apply State.modDom_keeps | apply State.dropQueues_keeps)

theorem State.readKeys_keeps {s0 : State} (s : State) (hk : Keeps s0 s) : Keeps s0 (State.readKeys s) := by
  unfold State.readKeys
  try dsimp only
  with_reducible repeat' (
    first | assumption | apply State.demandRead_keeps | apply Keeps.foldl | (intro))

theorem State.zeroFrame_keeps {s0 : State} (s : State) (whole : Bool) (f : Nat) (hk : Keeps s0 s) :
    Keeps s0 (State.zeroFrame s whole f) := by
  have h1 : Keeps s0 ((upFrom (f * 64) 64).foldl State.dropCopies s) :=
    Keeps.foldl (fun _ _ h => State.dropCopies_keeps _ _ h) hk
  have h2 : Keeps s0 (if whole || ((upFrom (f * 64) 64).foldl State.dropCopies s).paClass (f * 4096) != .dram
      then (upFrom (f * 64) 64).foldl State.dropCopies s
      else (upFrom (f * 64) 64).foldl (fun s l => (s.writeIntent l).2) ((upFrom (f * 64) 64).foldl State.dropCopies s)) :=
    Keeps.ite h1 (Keeps.foldl (fun _ _ h => State.writeIntent_keeps _ _ h) h1)
  exact ⟨h2.pending, h2.nv, fun hm => Memory.zeroFrame_wf f (h2.mem hm)⟩

theorem State.untouch_keeps {s0 : State} (s : State) (m : Fin 2) (g : Nat) (hk : Keeps s0 s) : Keeps s0 (State.untouch
    s m g) := by
  unfold State.untouch
  try dsimp only
  with_reducible repeat' (
    first | assumption | apply State.modDmc_keeps)

theorem State.eraseFrames_keeps {s0 : State} (s : State) (d : Nat) (hk : Keeps s0 s) : Keeps s0 (State.eraseFrames s
    d) := by
  unfold State.eraseFrames
  try dsimp only
  with_reducible repeat' (
    first | assumption | apply State.zeroFrame_keeps | apply State.untouch_keeps
             | apply State.setKey_keeps | apply State.tlbDrop_keeps | apply State.logRec_keeps | apply Keeps.foldl
             | (intro))

theorem State.journalStep_keeps {s0 : State} (s : State) (step : Nat) (hk : Keeps s0 s) : Keeps s0 (State.journalStep
    s step) := by
  unfold State.journalStep
  try dsimp only
  with_reducible repeat' (
    first | assumption | (refine Keeps.update ?_ rfl rfl rfl))

theorem State.settleWrites_keeps {s0 : State} (s : State) (hk : Keeps s0 s) : Keeps s0 (State.settleWrites s) := by
  unfold State.settleWrites
  try dsimp only
  with_reducible repeat' (
    first | assumption | apply State.drain_keeps | apply State.performQueue_keeps
             | apply Keeps.foldl | (intro) | apply Keeps.ite)

theorem State.beginErase_keeps {s0 : State} (s : State) (d : Nat) (hk : Keeps s0 s) : Keeps s0 (State.beginErase s d)
    := by
  unfold State.beginErase
  try dsimp only
  with_reducible repeat' (
    first | assumption | apply State.journalStep_keeps | apply State.eraseQueues_keeps
             | apply State.erasePredictions_keeps | apply State.eraseSlots_keeps | apply State.setDomState_keeps
             | apply State.settleWrites_keeps)

theorem State.settle_keeps {s0 : State} (s : State) (d : Nat) (hk : Keeps s0 s) : Keeps s0 (State.settle s d) := by
  unfold State.settle
  try dsimp only
  with_reducible repeat' (
    first | assumption | apply State.setDomState_keeps | apply State.performPosts_keeps
             | apply State.finishFlr_keeps | apply State.beginErase_keeps | apply Keeps.ite)

theorem State.settleAll_keeps {s0 : State} (s : State) (hk : Keeps s0 s) : Keeps s0 (State.settleAll s) := by
  unfold State.settleAll
  try dsimp only
  with_reducible repeat' (
    first | assumption | apply State.settle_keeps | apply Keeps.foldl)

end Sys2Proof.Machine
end

