-- ==== Sys2Proof/Laws/KeepsCompass.lean ====
section
/-! SUPPORT. What every function of Compass keeps. -/

namespace Sys2Proof.Machine

set_option linter.unusedVariables false

theorem State.deliverHeld_keeps {s0 : State} (s : State) (e : Eng) (n : Fin 8) (hk : Keeps s0 s) : Keeps s0
    (State.deliverHeld s e n) := by
  unfold State.deliverHeld
  try dsimp only
  with_reducible repeat' (
    first | assumption | apply State.leave_keeps | apply State.displace_keeps
             | apply State.deliver_keeps | apply State.modSlot_keeps | apply Keeps.ite | split)

theorem State.enterEvent_keeps {s0 : State} (s : State) (e : Eng) (n : Fin 8) (v : Nat) (hk : Keeps s0 s) : Keeps s0
    (State.enterEvent s e n v) := by
  unfold State.enterEvent
  try dsimp only
  with_reducible repeat' (
    first | assumption | apply State.displace_keeps | apply State.leave_keeps
             | apply State.modSlot_keeps | apply State.modBank_keeps | apply State.modEng_keeps
             | apply State.cycles_keeps | apply State.tick_keeps | split)

theorem State.enterLevel_keeps {s0 : State} (s : State) (e : Eng) (n : Fin 8) (hk : Keeps s0 s) : Keeps s0
    (State.enterLevel s e n) := by
  unfold State.enterLevel
  try dsimp only
  with_reducible repeat' (
    first | assumption | apply State.deliverHeld_keeps | apply State.enterEvent_keeps
             | apply State.dropEvent_keeps | apply State.modSlot_keeps | apply Keeps.ite | split)

theorem State.lateArrival_keeps {s0 : State} (s : State) (late : Option (BitVec 8 × BitVec 6)) (hk : Keeps s0 s) :
    Keeps s0 (State.lateArrival s late) := by
  unfold State.lateArrival
  try dsimp only
  with_reducible repeat' (
    first | assumption | apply State.pendVector_keeps | split)

theorem execEventEntry_keeps {s0 : State} (e : Eng) (late : Option (BitVec 8 × BitVec 6)) (s : State) (hk : Keeps s0
    s) : KO s0 (execEventEntry e late s) := by
  unfold execEventEntry
  try dsimp only
  with_reducible repeat' (
    first | assumption | apply State.enterLevel_keeps | apply State.lateArrival_keeps
             | apply State.tick_keeps | apply KO.next | apply KO.ite | apply Keeps.ite | split)

theorem execEventRouted_keeps {s0 : State} (source : BitVec 20) (s : State) (hk : Keeps s0 s) : KO s0 (execEventRouted
    source s) := by
  unfold execEventRouted
  try dsimp only
  with_reducible repeat' (
    first | assumption | apply State.fire_keeps | apply KO.next)

theorem execHeldExceptionDelivery_keeps {s0 : State} (e : Eng) (s : State) (hk : Keeps s0 s) : KO s0
    (execHeldExceptionDelivery e s) := by
  unfold execHeldExceptionDelivery
  try dsimp only
  with_reducible repeat' (
    first | assumption | apply State.deliverHeld_keeps | apply KO.next | split)

theorem execDeferredPostingException_keeps {s0 : State} (e : Eng) (s : State) (hk : Keeps s0 s) : KO s0
    (execDeferredPostingException e s) := by
  unfold execDeferredPostingException
  try dsimp only
  with_reducible repeat' (
    first | assumption | apply State.deliverHeld_keeps | apply KO.next | apply Keeps.ite
             | split)

theorem execQstopSet_keeps {s0 : State} (e : Eng) (s : State) (hk : Keeps s0 s) : KO s0 (execQstopSet e s) := by
  unfold execQstopSet
  try dsimp only
  with_reducible repeat' (
    first | assumption | apply State.settleAll_keeps | apply State.settle_keeps
             | apply State.modSlot_keeps | apply State.leave_keeps | apply KO.next | apply KO.ite | split)

end Sys2Proof.Machine
end

