-- ==== Sys2Proof/Laws/KeepsOperands.lean ====
section
/-! SUPPORT. What every function of Operands keeps. -/

namespace Sys2Proof.Machine

set_option linter.unusedVariables false

theorem State.makeRoom_keeps {s0 : State} (s : State) (e : Eng) (hk : Keeps s0 s) : Keeps s0 (State.makeRoom s e) :=
    by
  unfold State.makeRoom
  try dsimp only
  with_reducible repeat' (
    first | assumption | apply State.tick_keeps | apply State.drainOne_keeps
             | apply State.waitTerm_keeps | (refine Keeps.update ?_ rfl rfl rfl))

theorem State.enterBlock_keeps {s0 : State} (s : State) (e : Eng) (pa : Nat) (l : List Byte) (held : Bool) (hk : Keeps
    s0 s) : Keeps s0 (State.enterBlock s e pa l held) := by
  unfold State.enterBlock
  try dsimp only
  with_reducible repeat' (
    first | assumption | apply State.modEng_keeps | apply State.makeRoom_keeps
             | apply Keeps.ite | split)

theorem State.enterStore_keeps {s0 : State} (s : State) (e : Eng) (held : Bool) (x1 : Nat) (x2 : Nat) (x3 : List Byte)
    (hk : Keeps s0 s) : Keeps s0 (State.enterStore s e held x1 x2 x3) := by
  induction x1 generalizing s e held x2 x3 hk with
  | zero =>
    unfold State.enterStore
    try dsimp only
    with_reducible repeat' (
      first | assumption | apply State.enterBlock_keeps | exact Keeps.refl _
               | apply Keeps.ite_snd)
  | succ n ih =>
    unfold State.enterStore
    try dsimp only
    with_reducible repeat' (
      first | assumption | apply ih | apply State.enterBlock_keeps | apply Keeps.ite)

theorem readPieces_keeps {s0 : State} (e : Eng) (ea : Nat) (ps : List (Nat × Nat)) : KM s0 (readPieces e ea ps) := by
  unfold readPieces
  try dsimp only
  with_reducible repeat' (
    first | assumption | apply State.performBefore_keeps | apply State.linesAccess_keeps
             | apply State.waitTerm_keeps | apply State.tick_keeps | apply State.drain_keeps | apply Keeps.foldl
             | apply KM.ret | apply KM.trap | apply KM.look | apply KM.readThen | apply KM.change | apply KM.ite
             | apply KM.seq | (intro) | split)

theorem writePieces_keeps {s0 : State} (e : Eng) (ps : List (Nat × Nat)) (l : List Byte) (held : Bool) (crossed :
    Bool) : KM s0 (writePieces e ps l held crossed) := by
  unfold writePieces
  try dsimp only
  with_reducible repeat' (
    first | assumption | apply State.linesAccess_keeps | apply State.enterStore_keeps
             | apply Keeps.foldl_fst | apply KM.change | apply KM.seq | (intro))

theorem engineFn_keeps {s0 : State} (c : Cx) : KM s0 (engineFn c) := by
  unfold engineFn
  try dsimp only
  with_reducible repeat' (
    first | apply getPsw_keeps | apply KM.ret | apply KM.seq | (intro))

theorem deviceOrder_keeps {s0 : State} (e : Eng) : KM s0 (deviceOrder e) := by
  unfold deviceOrder
  try dsimp only
  with_reducible repeat' (
    first | assumption | apply State.tick_keeps | apply State.drainAll_keeps
             | apply KM.change | (intro))

theorem State.issueLoad_keeps {s0 : State} (s : State) (e : Eng) (hk : Keeps s0 s) : Keeps s0 (State.issueLoad s e) :=
    by
  unfold State.issueLoad
  try dsimp only
  with_reducible repeat' (
    first | assumption | apply State.modEng_keeps | apply State.send_keeps
             | apply State.count_keeps | apply Keeps.ite | split)

theorem deviceLoad_keeps {s0 : State} (c : Cx) (ea : Nat) (pa : Nat) (n : Nat) (dest : LoadDest) : KM s0 (deviceLoad c
    ea pa n dest) := by
  unfold deviceLoad
  try dsimp only
  with_reducible repeat' (
    first | assumption | apply deviceOrder_keeps | apply State.waitTerm_keeps
             | apply State.tick_keeps | apply engineFn_keeps | apply State.issueLoad_keeps | apply State.modEng_keeps
             | apply State.hostRecord_keeps | apply KM.ret | apply KM.readThen | apply KM.change | apply KM.ite
             | apply KM.seq | (intro) | split)

theorem deviceStore_keeps {s0 : State} (c : Cx) (pa : Nat) (l : List Byte) : KM s0 (deviceStore c pa l) := by
  unfold deviceStore
  try dsimp only
  with_reducible repeat' (
    first | assumption | apply deviceOrder_keeps | apply State.csrWrite_keeps
             | apply State.waitTerm_keeps | apply State.tick_keeps | apply engineFn_keeps | apply State.send_keeps
             | apply State.count_keeps | apply State.hostRecord_keeps | apply KM.ret | apply KM.readThen
             | apply KM.change | apply KM.ite | apply KM.seq | (intro) | split)

theorem checkedPieces_keeps {s0 : State} (c : Cx) (acc : Acc) (ea : Nat) (n : Nat) (rule : DeviceRule) : KM s0
    (checkedPieces c acc ea n rule) := by
  unfold checkedPieces
  try dsimp only
  with_reducible repeat' (
    first | apply pieces_keeps | apply specification_keeps | apply KM.ret | apply KM.trap
             | apply KM.readThen | apply KM.ite | apply KM.seq | (intro) | split)

theorem load_keeps {s0 : State} (c : Cx) (ea : Nat) (n : Nat) (rule : DeviceRule) (dest : LoadDest) : KM s0 (load c ea
    n rule dest) := by
  unfold load
  try dsimp only
  with_reducible repeat' (
    first | apply State.awaitPosts_keeps | apply checkedPieces_keeps
             | apply deviceLoad_keeps | apply readPieces_keeps | apply KM.ret | apply KM.readThen | apply KM.change
             | apply KM.seq | (intro) | split)

theorem loadNormal_keeps {s0 : State} (c : Cx) (ea : Nat) (n : Nat) : KM s0 (loadNormal c ea n) := by
  unfold loadNormal
  try dsimp only
  with_reducible repeat' (
    first | apply State.awaitPosts_keeps | apply checkedPieces_keeps
             | apply readPieces_keeps | apply KM.change | apply KM.seq | (intro))

theorem store_keeps {s0 : State} (c : Cx) (ea : Nat) (l : List Byte) (rule : DeviceRule) : KM s0 (store c ea l rule)
    := by
  unfold store
  try dsimp only
  with_reducible repeat' (
    first | apply State.awaitPosts_keeps | apply checkedPieces_keeps
             | apply deviceStore_keeps | apply writePieces_keeps | apply KM.readThen | apply KM.change | apply KM.seq
             | (intro) | split)

theorem lengthIn_keeps {s0 : State} (l : Len) (ls : List Len) : KM s0 (lengthIn l ls) := by
  unfold lengthIn
  try dsimp only
  with_reducible repeat' (
    first | apply require_keeps)

theorem lowReg_keeps {s0 : State} (r : BitVec 4) : KM s0 (lowReg r) := by
  unfold lowReg
  try dsimp only
  with_reducible repeat' (
    first | apply require_keeps)

theorem zeroField_keeps {s0 : State} {n : Nat} (x : BitVec n) : KM s0 (zeroField x) := by
  unfold zeroField
  try dsimp only
  with_reducible repeat' (
    first | apply require_keeps)

theorem evenReg_keeps {s0 : State} (r : BitVec 4) : KM s0 (evenReg r) := by
  unfold evenReg
  try dsimp only
  with_reducible repeat' (
    first | apply require_keeps)

theorem src2_keeps {s0 : State} (c : Cx) (x : FmtA) (signExtend : Bool) : KM s0 (src2 c x signExtend) := by
  unfold src2
  try dsimp only
  with_reducible repeat' (
    first | apply getG_keeps | apply KM.ret | apply KM.ite)

theorem twoSource_keeps {s0 : State} (x : FmtA) : KM s0 (twoSource x) := by
  unfold twoSource
  try dsimp only
  with_reducible repeat' (
    first | apply lengthIn_keeps | apply zeroField_keeps | apply KM.ret | apply KM.ite
             | apply KM.seq | (intro))

theorem needPriv_keeps {s0 : State} (c : Cx) : KM s0 (needPriv c) := by
  unfold needPriv
  try dsimp only
  with_reducible repeat' (
    first | apply getPsw_keeps | apply privileged_keeps | apply KM.ret | apply KM.ite
             | apply KM.seq | (intro))

end Sys2Proof.Machine
end

