-- ==== Sys2Proof/Laws/KeepsStrings.lean ====
section
/-! SUPPORT. What every function of Strings keeps. -/

namespace Sys2Proof.Machine

set_option linter.unusedVariables false

theorem spend_keeps {s0 : State} (c : Cx) (n : Nat) : KM s0 (spend c n) := by
  unfold spend
  try dsimp only
  with_reducible repeat' (
    first | apply getPsw_keeps | apply State.cycles_keeps | apply KM.change | apply KM.seq
             | (intro))

theorem commitPoint_keeps {s0 : State} (c : Cx) (ips : Nat) (past : Nat) : KM s0 (commitPoint c ips past) := by
  unfold commitPoint
  try dsimp only
  with_reducible repeat' (
    first | assumption | apply modBank_keeps | apply State.tick_keeps
             | apply State.seal_keeps | apply spend_keeps | apply KM.change | apply KM.seq | (intro))

theorem segments_keeps {s0 : State} (c : Cx) (stop : Nat) (seg : M SegEnd) (x1 : Nat) (x2 : Nat) (h_seg : KM s0 seg) :
    KM s0 (segments c stop seg x1 x2) := by
  induction x1 generalizing c stop seg x2 with
  | zero =>
    unfold segments
    try dsimp only
    with_reducible repeat' (
      first | assumption | apply h_seg | apply commitPoint_keeps | exact Keeps.refl _
               | apply KM.ret | apply KM.trap | apply KM.write | apply KM.each | (intro) | apply Keeps.ite
               | dsimp only)
  | succ n ih =>
    unfold segments
    try dsimp only
    with_reducible repeat' (
      first | assumption | apply ih | apply State.tick_keeps | apply commitPoint_keeps
               | apply KM.go | apply KM.ret | apply KM.change | apply KM.ite | apply KM.seq | (intro) | split)

theorem resuming_keeps {s0 : State} (c : Cx) : KM s0 (resuming c) := by
  unfold resuming
  try dsimp only
  with_reducible repeat' (
    first | apply getPsw_keeps | apply KM.ret | apply KM.seq | (intro))

theorem resumeState_keeps {s0 : State} (c : Cx) : KM s0 (resumeState c) := by
  unfold resumeState
  try dsimp only
  with_reducible repeat' (
    first | apply getPsw_keeps | apply KM.ret | apply KM.seq | (intro))

theorem fixedTerm_keeps {s0 : State} (c : Cx) (n : Nat) : KM s0 (fixedTerm c n) := by
  unfold fixedTerm
  try dsimp only
  with_reducible repeat' (
    first | apply resuming_keeps | apply spend_keeps | apply KM.ret | apply KM.ite
             | apply KM.seq | (intro))

theorem perCycle_keeps {s0 : State} (c : Cx) (u : Nat) (f : Nat → Nat → M Unit) (x1 : Nat) (x2 : Nat) (x3 : Nat) (h_f
    : ∀ y0 y1, KM s0 (f y0 y1)) : KM s0 (perCycle c u f x1 x2 x3) := by
  induction x1 generalizing c u f x2 x3 with
  | zero =>
    unfold perCycle
    try dsimp only
    with_reducible repeat' (
      first | assumption | apply h_f | apply spend_keeps | exact Keeps.refl _
               | apply KM.ret | apply KM.trap | apply KM.each | (intro) | apply Keeps.ite)
  | succ n ih =>
    unfold perCycle
    try dsimp only
    with_reducible repeat' (
      first | assumption | apply ih | apply h_f | apply spend_keeps | apply KM.go
               | apply KM.ret | apply KM.ite | apply KM.seq | (intro))

theorem lenG_keeps {s0 : State} (c : Cx) (r : BitVec 4) : KM s0 (lenG c r) := by
  unfold lenG
  try dsimp only
  with_reducible repeat' (
    first | apply getG_keeps | apply KM.ret | apply KM.seq | (intro))

theorem putG_keeps {s0 : State} (c : Cx) (r : BitVec 4) (n : Nat) : KM s0 (putG c r n) := by
  unfold putG
  try dsimp only
  with_reducible repeat' (
    first | apply setG_keeps)

theorem addrG_keeps {s0 : State} (c : Cx) (r : BitVec 4) : KM s0 (addrG c r) := by
  unfold addrG
  try dsimp only
  with_reducible repeat' (
    first | apply getG_keeps | apply KM.ret | apply KM.seq | (intro))

theorem stringRegs_keeps {s0 : State} (x : FmtA) (pair : Bool) (extra : List (BitVec 4)) : KM s0 (stringRegs x pair
    extra) := by
  unfold stringRegs
  try dsimp only
  with_reducible repeat' (
    first | apply require_keeps | apply evenReg_keeps | apply KM.ite | apply KM.seq
             | (intro))

theorem allowedState_keeps {s0 : State} (c : Cx) (ok : List Nat) : KM s0 (allowedState c ok) := by
  unfold allowedState
  try dsimp only
  with_reducible repeat' (
    first | apply resumeState_keeps | apply require_keeps | apply KM.seq | (intro))

theorem stringPieces_keeps {s0 : State} (c : Cx) (acc : Acc) (x1 : List (Nat × Nat)) : KM s0 (stringPieces c acc x1)
    := by
  induction x1 generalizing c acc with
  | nil =>
    unfold stringPieces
    try dsimp only
    with_reducible repeat' (
      first | apply translate_keeps | exact Keeps.refl _ | apply KM.ret | apply KM.trap
               | apply KM.read | apply KM.change | apply KM.each | (intro) | apply Keeps.ite)
  | cons y l ih =>
    unfold stringPieces
    try dsimp only
    with_reducible repeat' (
      first | apply ih | apply translate_keeps | apply KM.go | apply KM.ret
               | apply KM.trap | apply KM.readThen | apply KM.ite | apply KM.seq | (intro))

theorem stringRead_keeps {s0 : State} (c : Cx) (va : Nat) (n : Nat) : KM s0 (stringRead c va n) := by
  unfold stringRead
  try dsimp only
  with_reducible repeat' (
    first | apply State.awaitPosts_keeps | apply stringPieces_keeps
             | apply readPieces_keeps | apply KM.change | apply KM.seq | (intro))

theorem stringByte_keeps {s0 : State} (c : Cx) (va : Nat) : KM s0 (stringByte c va) := by
  unfold stringByte
  try dsimp only
  with_reducible repeat' (
    first | apply stringRead_keeps | apply KM.ret | apply KM.seq | (intro))

theorem stringWrite_keeps {s0 : State} (c : Cx) (va : Nat) (l : List Byte) (held : Bool) : KM s0 (stringWrite c va l
    held) := by
  unfold stringWrite
  try dsimp only
  with_reducible repeat' (
    first | apply State.awaitPosts_keeps | apply stringPieces_keeps
             | apply writePieces_keeps | apply KM.change | apply KM.seq | (intro))

theorem tableBytes_keeps {s0 : State} (c : Cx) (table : Nat) (x1 : List Byte) : KM s0 (tableBytes c table x1) := by
  induction x1 generalizing c table with
  | nil =>
    unfold tableBytes
    try dsimp only
    with_reducible repeat' (
      first | apply stringByte_keeps | exact Keeps.refl _ | apply KM.ret | apply KM.trap
               | (intro) | apply Keeps.ite)
  | cons y l ih =>
    unfold tableBytes
    try dsimp only
    with_reducible repeat' (
      first | apply ih | apply stringByte_keeps | apply KM.go | apply KM.ret
               | apply KM.seq | (intro))

theorem mvsDescends_keeps {s0 : State} (c : Cx) (ra : BitVec 4) (rb : BitVec 4) (rc : BitVec 4) : KM s0 (mvsDescends c
    ra rb rc) := by
  unfold mvsDescends
  try dsimp only
  with_reducible repeat' (
    first | apply resuming_keeps | apply resumeState_keeps | apply addrG_keeps
             | apply lenG_keeps | apply KM.ret | apply KM.ite | apply KM.seq | (intro))

theorem mvsAdvance_keeps {s0 : State} (c : Cx) (ra : BitVec 4) (rb : BitVec 4) (rc : BitVec 4) (desc : Bool) (k : Nat)
    : KM s0 (mvsAdvance c ra rb rc desc k) := by
  unfold mvsAdvance
  try dsimp only
  with_reducible repeat' (
    first | apply lenG_keeps | apply putG_keeps | apply addrG_keeps | apply KM.ite
             | apply KM.seq | (intro))

theorem mvsEnd_keeps {s0 : State} (c : Cx) (rc : BitVec 4) (desc : Bool) : KM s0 (mvsEnd c rc desc) := by
  unfold mvsEnd
  try dsimp only
  with_reducible repeat' (
    first | apply lenG_keeps | apply KM.ret | apply KM.seq | (intro))

theorem mvsCycle_keeps {s0 : State} (c : Cx) (d : Nat) (a : Nat) (n : Nat) (desc : Bool) (held : Bool) (i : Nat) (k :
    Nat) : KM s0 (mvsCycle c d a n desc held i k) := by
  unfold mvsCycle
  try dsimp only
  with_reducible repeat' (
    first | apply stringRead_keeps | apply stringWrite_keeps | apply KM.seq | (intro))

theorem mvsSegment_keeps {s0 : State} (c : Cx) (x : FmtA) (desc : Bool) (held : Bool) : KM s0 (mvsSegment c x desc
    held) := by
  unfold mvsSegment
  try dsimp only
  with_reducible repeat' (
    first | apply addrG_keeps | apply lenG_keeps | apply perCycle_keeps
             | apply mvsCycle_keeps | apply mvsAdvance_keeps | apply mvsEnd_keeps | apply KM.seq | (intro))

theorem mvsByteStore_keeps {s0 : State} (c : Cx) (ra : BitVec 4) (rb : BitVec 4) (rc : BitVec 4) (desc : Bool) (pa :
    Nat) (b : Byte) : KM s0 (mvsByteStore c ra rb rc desc pa b) := by
  unfold mvsByteStore
  try dsimp only
  with_reducible repeat' (
    first | apply mvsAdvance_keeps | apply mvsEnd_keeps | apply deviceStore_keeps
             | apply State.awaitPosts_keeps | apply writePieces_keeps | apply KM.readThen | apply KM.change
             | apply KM.ite | apply KM.seq | (intro))

theorem mvsByteFrames_keeps {s0 : State} (c : Cx) (ra : BitVec 4) (rb : BitVec 4) (rc : BitVec 4) (desc : Bool) : KM
    s0 (mvsByteFrames c ra rb rc desc) := by
  unfold mvsByteFrames
  try dsimp only
  with_reducible repeat' (
    first | apply addrG_keeps | apply lenG_keeps | apply translate_keeps | apply KM.ret
             | apply KM.seq | (intro))

theorem mvsByteSegment_keeps {s0 : State} (c : Cx) (ra : BitVec 4) (rb : BitVec 4) (rc : BitVec 4) (desc : Bool) : KM
    s0 (mvsByteSegment c ra rb rc desc) := by
  unfold mvsByteSegment
  try dsimp only
  with_reducible repeat' (
    first | apply lenG_keeps | apply mvsAdvance_keeps | apply spend_keeps
             | apply State.awaitPosts_keeps | apply mvsByteFrames_keeps | apply deviceLoad_keeps
             | apply mvsByteStore_keeps | apply readPieces_keeps | apply KM.ret | apply KM.readThen | apply KM.change
             | apply KM.ite | apply KM.seq | (intro) | split)

theorem execMvs_keeps {s0 : State} (e : Eng) (x : FmtA) (stop : Nat) (s : State) (hk : Keeps s0 s) : KO s0 (execMvs e
    x stop s) := by
  unfold execMvs
  try dsimp only
  with_reducible repeat' (
    first | assumption | apply macroNext_keeps | apply lengthIn_keeps
             | apply zeroField_keeps | apply stringRegs_keeps | apply allowedState_keeps | apply lenG_keeps
             | apply addrG_keeps | apply addressRange_keeps | apply fixedTerm_keeps | apply mvsDescends_keeps
             | apply segments_keeps | apply mvsByteSegment_keeps | apply mvsSegment_keeps | apply KM.ite
             | apply KM.seq | (intro))

theorem mvsResume_keeps {s0 : State} (c : Cx) (ra : BitVec 4) (rb : BitVec 4) (rc : BitVec 4) (pd : Nat) (b : Byte) :
    KM s0 (mvsResume c ra rb rc pd b) := by
  unfold mvsResume
  try dsimp only
  with_reducible repeat' (
    first | apply lenG_keeps | apply mvsDescends_keeps | apply mvsByteStore_keeps
             | apply State.tick_keeps | apply commitPoint_keeps | apply segments_keeps | apply mvsByteSegment_keeps
             | apply KM.ret | apply KM.change | apply KM.seq | (intro) | split)

theorem mvpCycle_keeps {s0 : State} (c : Cx) (d : Nat) (a : Nat) (m : Nat) (pad : Byte) (i : Nat) (k : Nat) : KM s0
    (mvpCycle c d a m pad i k) := by
  unfold mvpCycle
  try dsimp only
  with_reducible repeat' (
    first | apply stringRead_keeps | apply stringWrite_keeps | apply KM.seq | (intro))

theorem mvpSegment_keeps {s0 : State} (c : Cx) (x : FmtA) : KM s0 (mvpSegment c x) := by
  unfold mvpSegment
  try dsimp only
  with_reducible repeat' (
    first | apply addrG_keeps | apply lenG_keeps | apply perCycle_keeps
             | apply mvpCycle_keeps | apply putG_keeps | apply KM.ret | apply KM.seq | (intro))

theorem execMvp_keeps {s0 : State} (e : Eng) (x : FmtA) (stop : Nat) (s : State) (hk : Keeps s0 s) : KO s0 (execMvp e
    x stop s) := by
  unfold execMvp
  try dsimp only
  with_reducible repeat' (
    first | assumption | apply macroNext_keeps | apply lengthIn_keeps
             | apply zeroField_keeps | apply stringRegs_keeps | apply allowedState_keeps | apply addrG_keeps
             | apply lenG_keeps | apply addressRange_keeps | apply require_keeps | apply fixedTerm_keeps
             | apply segments_keeps | apply mvpSegment_keeps | apply setCC_keeps | apply KM.ret | apply KM.ite
             | apply KM.seq | (intro))

theorem readOperands_keeps {s0 : State} (c : Cx) (n : Nat) (x1 : List Nat) : KM s0 (readOperands c n x1) := by
  induction x1 generalizing c n with
  | nil =>
    unfold readOperands
    try dsimp only
    with_reducible repeat' (
      first | apply stringRead_keeps | exact Keeps.refl _ | apply KM.ret | apply KM.trap
               | (intro) | apply Keeps.ite)
  | cons y l ih =>
    unfold readOperands
    try dsimp only
    with_reducible repeat' (
      first | apply ih | apply stringRead_keeps | apply KM.go | apply KM.ret
               | apply KM.seq | (intro))

theorem scanBytes_keeps {s0 : State} (ftm : Bool) (test : List Byte → M (Option Hit)) (data : List (List Byte)) (x1 :
    Nat) (x2 : Nat) (x3 : Nat) (x4 : Option (Nat × Hit)) (h_test : ∀ y0, KM s0 (test y0)) : KM s0 (scanBytes ftm test
    data x1 x2 x3 x4) := by
  induction x1 generalizing ftm test data x2 x3 x4 with
  | zero =>
    unfold scanBytes
    try dsimp only
    with_reducible repeat' (
      first | assumption | apply h_test | exact Keeps.refl _ | apply KM.ret
               | apply KM.trap | apply KM.each | (intro) | apply Keeps.ite)
  | succ n ih =>
    unfold scanBytes
    try dsimp only
    with_reducible repeat' (
      first | assumption | apply ih | apply h_test | apply KM.go | apply KM.ret
               | apply KM.ite | apply KM.seq | (intro))

theorem scanCycle_keeps {s0 : State} (c : Cx) (ftm : Bool) (addrs : List Nat) (test : List Byte → M (Option Hit)) (x1
    : Nat) (x2 : Nat) (x3 : Nat) (x4 : Option (Nat × Hit)) (h_test : ∀ y0, KM s0 (test y0)) : KM s0 (scanCycle c ftm
    addrs test x1 x2 x3 x4) := by
  induction x1 generalizing c ftm addrs test x2 x3 x4 with
  | zero =>
    unfold scanCycle
    try dsimp only
    with_reducible repeat' (
      first | assumption | apply h_test | apply scanBytes_keeps | exact Keeps.refl _
               | apply KM.ret | apply KM.trap | apply KM.each | (intro) | apply Keeps.ite)
  | succ n ih =>
    unfold scanCycle
    try dsimp only
    with_reducible repeat' (
      first | assumption | apply ih | apply readOperands_keeps | apply scanBytes_keeps
               | apply KM.go | apply KM.ret | apply KM.ite | apply KM.seq | (intro))

theorem scanUnits_keeps {s0 : State} (c : Cx) (ftm : Bool) (u : Nat) (addrs : List Nat) (test : List Byte → M (Option
    Hit)) (x1 : Nat) (x2 : Nat) (x3 : Nat) (x4 : Option (Nat × Hit)) (h_test : ∀ y0, KM s0 (test y0)) : KM s0
    (scanUnits c ftm u addrs test x1 x2 x3 x4) := by
  induction x1 generalizing c ftm u addrs test x2 x3 x4 with
  | zero =>
    unfold scanUnits
    try dsimp only
    with_reducible repeat' (
      first | assumption | apply h_test | apply scanCycle_keeps | exact Keeps.refl _
               | apply KM.ret | apply KM.trap | apply KM.each | (intro) | apply Keeps.ite)
  | succ n ih =>
    unfold scanUnits
    try dsimp only
    with_reducible repeat' (
      first | assumption | apply ih | apply spend_keeps | apply scanCycle_keeps
               | apply KM.go | apply KM.ret | apply KM.ite | apply KM.seq | (intro))

theorem addrsG_keeps {s0 : State} (c : Cx) (x1 : List (BitVec 4)) : KM s0 (addrsG c x1) := by
  induction x1 generalizing c with
  | nil =>
    unfold addrsG
    try dsimp only
    with_reducible repeat' (
      first | apply addrG_keeps | exact Keeps.refl _ | apply KM.ret | apply KM.trap
               | (intro) | apply Keeps.ite)
  | cons y l ih =>
    unfold addrsG
    try dsimp only
    with_reducible repeat' (
      first | apply ih | apply addrG_keeps | apply KM.go | apply KM.ret | apply KM.seq
               | (intro))

theorem scanSegment_keeps {s0 : State} (c : Cx) (rs : List (BitVec 4)) (rc : BitVec 4) (pair : Bool) (u : Nat) (test :
    List Byte → M (Option Hit)) (h_test : ∀ y0, KM s0 (test y0)) : KM s0 (scanSegment c rs rc pair u test) := by
  unfold scanSegment
  try dsimp only
  with_reducible repeat' (
    first | assumption | apply getPsw_keeps | apply addrsG_keeps | apply resumeState_keeps
             | apply lenG_keeps | apply getBank_keeps | apply setCC_keeps | apply scanUnits_keeps | apply addrG_keeps
             | apply putG_keeps | apply KM.ret | apply KM.ite | apply KM.each | apply KM.seq | (intro) | split)

theorem scanWork_keeps {s0 : State} (c : Cx) (stop : Nat) (fixed : Nat) (rc : BitVec 4) (seg : M SegEnd) (h_seg : KM
    s0 seg) : KM s0 (scanWork c stop fixed rc seg) := by
  unfold scanWork
  try dsimp only
  with_reducible repeat' (
    first | assumption | apply fixedTerm_keeps | apply lenG_keeps | apply segments_keeps
             | apply KM.seq | (intro))

theorem clsTest_keeps {s0 : State} (l : List Byte) : KM s0 (clsTest l) := by
  unfold clsTest
  try dsimp only
  with_reducible repeat' (
    first | apply KM.ret)

theorem scnTest_keeps {s0 : State} (v : Byte) (inv : Bool) (l : List Byte) : KM s0 (scnTest v inv l) := by
  unfold scnTest
  try dsimp only
  with_reducible repeat' (
    first | apply KM.ret)

theorem trtTest_keeps {s0 : State} (c : Cx) (table : Nat) (l : List Byte) : KM s0 (trtTest c table l) := by
  unfold trtTest
  try dsimp only
  with_reducible repeat' (
    first | apply stringByte_keeps | apply KM.ret | apply KM.seq | (intro))

theorem execCls_keeps {s0 : State} (e : Eng) (x : FmtA) (stop : Nat) (s : State) (hk : Keeps s0 s) : KO s0 (execCls e
    x stop s) := by
  unfold execCls
  try dsimp only
  with_reducible repeat' (
    first | assumption | apply macroNext_keeps | apply lengthIn_keeps
             | apply zeroField_keeps | apply stringRegs_keeps | apply allowedState_keeps | apply lenG_keeps
             | apply addrG_keeps | apply addressRange_keeps | apply scanWork_keeps | apply scanSegment_keeps
             | apply clsTest_keeps | apply KM.seq | (intro))

theorem execScn_keeps {s0 : State} (e : Eng) (x : FmtA) (stop : Nat) (s : State) (hk : Keeps s0 s) : KO s0 (execScn e
    x stop s) := by
  unfold execScn
  try dsimp only
  with_reducible repeat' (
    first | assumption | apply macroNext_keeps | apply lengthIn_keeps
             | apply zeroField_keeps | apply stringRegs_keeps | apply allowedState_keeps | apply addrG_keeps
             | apply lenG_keeps | apply addressRange_keeps | apply getG_keeps | apply scanWork_keeps
             | apply scanSegment_keeps | apply scnTest_keeps | apply KM.seq | (intro))

theorem execTrt_keeps {s0 : State} (e : Eng) (x : FmtA) (stop : Nat) (s : State) (hk : Keeps s0 s) : KO s0 (execTrt e
    x stop s) := by
  unfold execTrt
  try dsimp only
  with_reducible repeat' (
    first | assumption | apply macroNext_keeps | apply lengthIn_keeps
             | apply zeroField_keeps | apply stringRegs_keeps | apply allowedState_keeps | apply lenG_keeps
             | apply addrG_keeps | apply addressRange_keeps | apply scanWork_keeps | apply scanSegment_keeps
             | apply trtTest_keeps | apply KM.ite | apply KM.seq | (intro))

theorem clpUnits_keeps {s0 : State} (c : Cx) (a : Nat) (b : Nat) (n : Nat) (m : Nat) (pad : Byte) (x1 : Nat) (x2 :
    Nat) (x3 : Nat) (x4 : Nat) : KM s0 (clpUnits c a b n m pad x1 x2 x3 x4) := by
  induction x1 generalizing c a b n m pad x2 x3 x4 with
  | zero =>
    unfold clpUnits
    try dsimp only
    with_reducible repeat' (
      first | apply spend_keeps | apply stringRead_keeps | exact Keeps.refl _
               | apply KM.ret | apply KM.trap | apply KM.each | (intro) | apply Keeps.ite)
  | succ n ih =>
    unfold clpUnits
    try dsimp only
    with_reducible repeat' (
      first | apply ih | apply spend_keeps | apply stringRead_keeps | apply KM.go
               | apply KM.ret | apply KM.ite | apply KM.seq | (intro))

theorem clpSegment_keeps {s0 : State} (c : Cx) (x : FmtA) : KM s0 (clpSegment c x) := by
  unfold clpSegment
  try dsimp only
  with_reducible repeat' (
    first | apply addrG_keeps | apply lenG_keeps | apply resumeState_keeps
             | apply clpUnits_keeps | apply putG_keeps | apply setCC_keeps | apply KM.ret | apply KM.ite
             | apply KM.seq | (intro))

theorem execClp_keeps {s0 : State} (e : Eng) (x : FmtA) (stop : Nat) (s : State) (hk : Keeps s0 s) : KO s0 (execClp e
    x stop s) := by
  unfold execClp
  try dsimp only
  with_reducible repeat' (
    first | assumption | apply macroNext_keeps | apply lengthIn_keeps
             | apply zeroField_keeps | apply stringRegs_keeps | apply allowedState_keeps | apply lenG_keeps
             | apply addrG_keeps | apply addressRange_keeps | apply fixedTerm_keeps | apply segments_keeps
             | apply clpSegment_keeps | apply KM.seq | (intro))

theorem trnCycle_keeps {s0 : State} (c : Cx) (a : Nat) (table : Nat) (i : Nat) (k : Nat) : KM s0 (trnCycle c a table i
    k) := by
  unfold trnCycle
  try dsimp only
  with_reducible repeat' (
    first | apply stringRead_keeps | apply tableBytes_keeps | apply stringWrite_keeps
             | apply KM.seq | (intro))

theorem trnSegment_keeps {s0 : State} (c : Cx) (x : FmtA) (table : Nat) : KM s0 (trnSegment c x table) := by
  unfold trnSegment
  try dsimp only
  with_reducible repeat' (
    first | apply addrG_keeps | apply lenG_keeps | apply perCycle_keeps
             | apply trnCycle_keeps | apply putG_keeps | apply KM.ret | apply KM.seq | (intro))

theorem execTrn_keeps {s0 : State} (e : Eng) (x : FmtA) (stop : Nat) (s : State) (hk : Keeps s0 s) : KO s0 (execTrn e
    x stop s) := by
  unfold execTrn
  try dsimp only
  with_reducible repeat' (
    first | assumption | apply macroNext_keeps | apply lengthIn_keeps
             | apply zeroField_keeps | apply stringRegs_keeps | apply allowedState_keeps | apply addrG_keeps
             | apply lenG_keeps | apply addressRange_keeps | apply require_keeps | apply fixedTerm_keeps
             | apply segments_keeps | apply trnSegment_keeps | apply KM.ite | apply KM.seq | (intro))

theorem crcUnits_keeps {s0 : State} (c : Cx) (p : BitVec 32) (a : Nat) (x1 : Nat) (x2 : Nat) (x3 : Nat) (x4 : BitVec
    32) : KM s0 (crcUnits c p a x1 x2 x3 x4) := by
  induction x1 generalizing c p a x2 x3 x4 with
  | zero =>
    unfold crcUnits
    try dsimp only
    with_reducible repeat' (
      first | apply spend_keeps | apply stringRead_keeps | exact Keeps.refl _
               | apply KM.ret | apply KM.trap | apply KM.each | (intro) | apply Keeps.ite)
  | succ n ih =>
    unfold crcUnits
    try dsimp only
    with_reducible repeat' (
      first | apply ih | apply spend_keeps | apply stringRead_keeps | apply KM.go
               | apply KM.ret | apply KM.ite | apply KM.seq | (intro))

theorem crcSegment_keeps {s0 : State} (c : Cx) (x : FmtA) : KM s0 (crcSegment c x) := by
  unfold crcSegment
  try dsimp only
  with_reducible repeat' (
    first | apply addrG_keeps | apply lenG_keeps | apply getG_keeps | apply crcUnits_keeps
             | apply putG_keeps | apply setCC_keeps | apply KM.ret | apply KM.ite | apply KM.seq | (intro))

theorem execCrc_keeps {s0 : State} (e : Eng) (x : FmtA) (stop : Nat) (s : State) (hk : Keeps s0 s) : KO s0 (execCrc e
    x stop s) := by
  unfold execCrc
  try dsimp only
  with_reducible repeat' (
    first | assumption | apply macroNext_keeps | apply lengthIn_keeps
             | apply zeroField_keeps | apply stringRegs_keeps | apply allowedState_keeps | apply lenG_keeps
             | apply addrG_keeps | apply addressRange_keeps | apply fixedTerm_keeps | apply segments_keeps
             | apply crcSegment_keeps | apply KM.seq | (intro))

end Sys2Proof.Machine
end

