-- ==== Sys2Proof/Laws/KeepsCrypto.lean ====
section
/-! SUPPORT. What every function of Crypto keeps. -/

namespace Sys2Proof.Machine

set_option linter.unusedVariables false

theorem aesOp_keeps {s0 : State} (x : FmtXA) (f : Bool → List Nat → List Nat → List Nat) : ∀ c, KM s0 ((aesOp x
    f).body c) := by
  unfold aesOp
  try dsimp only
  with_reducible repeat' (
    first | apply lengthIn_keeps | apply zeroField_keeps | apply getF_keeps
             | apply setF_keeps | apply KM.ret | apply KM.seq | (intro))

theorem execAese_keeps {s0 : State} (e : Eng) (x : FmtXA) (s : State) (hk : Keeps s0 s) : KO s0 (execAese e x s) := by
  unfold execAese
  try dsimp only
  with_reducible repeat' (
    first | assumption | apply macroNext_keeps | apply aesOp_keeps)

theorem execAesd_keeps {s0 : State} (e : Eng) (x : FmtXA) (s : State) (hk : Keeps s0 s) : KO s0 (execAesd e x s) := by
  unfold execAesd
  try dsimp only
  with_reducible repeat' (
    first | assumption | apply macroNext_keeps | apply aesOp_keeps)

theorem execAesk_keeps {s0 : State} (e : Eng) (x : FmtXA) (s : State) (hk : Keeps s0 s) : KO s0 (execAesk e x s) := by
  unfold execAesk
  try dsimp only
  with_reducible repeat' (
    first | assumption | apply macroNext_keeps | apply lengthIn_keeps
             | apply zeroField_keeps | apply require_keeps | apply getF_keeps | apply setF_keeps | apply KM.ret
             | apply KM.ite | apply KM.seq | (intro))

theorem execGhmul_keeps {s0 : State} (e : Eng) (x : FmtXA) (s : State) (hk : Keeps s0 s) : KO s0 (execGhmul e x s) :=
    by
  unfold execGhmul
  try dsimp only
  with_reducible repeat' (
    first | assumption | apply macroNext_keeps | apply lengthIn_keeps
             | apply zeroField_keeps | apply getF_keeps | apply setF_keeps | apply KM.ret | apply KM.seq | (intro))

theorem crcOp_keeps {s0 : State} (x : FmtXA) (poly : Bool) : ∀ c, KM s0 ((crcOp x poly).body c) := by
  unfold crcOp
  try dsimp only
  with_reducible repeat' (
    first | apply lengthIn_keeps | apply getG_keeps | apply setG_keeps | apply KM.ret
             | apply KM.seq | (intro))

theorem execCrcg_keeps {s0 : State} (e : Eng) (x : FmtXA) (s : State) (hk : Keeps s0 s) : KO s0 (execCrcg e x s) := by
  unfold execCrcg
  try dsimp only
  with_reducible repeat' (
    first | assumption | apply macroNext_keeps | apply crcOp_keeps)

theorem execCrcgn_keeps {s0 : State} (e : Eng) (x : FmtXA) (s : State) (hk : Keeps s0 s) : KO s0 (execCrcgn e x s) :=
    by
  unfold execCrcgn
  try dsimp only
  with_reducible repeat' (
    first | assumption | apply macroNext_keeps | apply crcOp_keeps)

theorem blockFinish_keeps {s0 : State} (c : Cx) (xop : Nat) (ra : BitVec 4) (mode : Nat) (l : List Byte) : KM s0
    (blockFinish c xop ra mode l) := by
  unfold blockFinish
  try dsimp only
  with_reducible repeat' (
    first | apply getF_keeps | apply setF_keeps | apply KM.ret | apply KM.ite
             | apply KM.seq | (intro) | split)

theorem blockOp_keeps {s0 : State} (xop : Nat) (x : FmtXB) (mod0 : Bool) (mod2Bits : Bool) (ok : Bool) (count : Nat) :
    ∀ c, KM s0 ((blockOp xop x mod0 mod2Bits ok count).body c) := by
  unfold blockOp
  try dsimp only
  with_reducible repeat' (
    first | apply lengthIn_keeps | apply zeroField_keeps | apply require_keeps
             | apply getBank_keeps | apply load_keeps | apply blockFinish_keeps | apply KM.ret | apply KM.ite
             | apply KM.seq | (intro) | split)

theorem execAesb_keeps {s0 : State} (e : Eng) (x : FmtXB) (s : State) (hk : Keeps s0 s) : KO s0 (execAesb e x s) := by
  unfold execAesb
  try dsimp only
  with_reducible repeat' (
    first | assumption | apply macroNext_keeps | apply blockOp_keeps)

theorem execGhb_keeps {s0 : State} (e : Eng) (x : FmtXB) (s : State) (hk : Keeps s0 s) : KO s0 (execGhb e x s) := by
  unfold execGhb
  try dsimp only
  with_reducible repeat' (
    first | assumption | apply macroNext_keeps | apply blockOp_keeps)

theorem execShb_keeps {s0 : State} (e : Eng) (x : FmtXB) (s : State) (hk : Keeps s0 s) : KO s0 (execShb e x s) := by
  unfold execShb
  try dsimp only
  with_reducible repeat' (
    first | assumption | apply macroNext_keeps | apply blockOp_keeps)

theorem execTdb_keeps {s0 : State} (e : Eng) (x : FmtXB) (s : State) (hk : Keeps s0 s) : KO s0 (execTdb e x s) := by
  unfold execTdb
  try dsimp only
  with_reducible repeat' (
    first | assumption | apply macroNext_keeps | apply blockOp_keeps)

end Sys2Proof.Machine
end

