-- ==== Sys2Proof/Laws/KeepsInteger.lean ====
section
/-! SUPPORT. What every function of Integer keeps. -/

namespace Sys2Proof.Machine

set_option linter.unusedVariables false

theorem aluOp_keeps {s0 : State} (x : FmtA) (signExtend : Bool) (count : Nat) (f : Word → Word → Word × Option Nat) :
    ∀ c, KM s0 ((aluOp x signExtend count f).body c) := by
  unfold aluOp
  try dsimp only
  with_reducible repeat' (
    first | apply twoSource_keeps | apply getG_keeps | apply src2_keeps | apply setG_keeps
             | apply setCC_keeps | apply KM.ret | apply KM.seq | (intro) | split)

theorem execAdd_keeps {s0 : State} (e : Eng) (x : FmtA) (s : State) (hk : Keeps s0 s) : KO s0 (execAdd e x s) := by
  unfold execAdd
  try dsimp only
  with_reducible repeat' (
    first | assumption | apply macroNext_keeps | apply aluOp_keeps)

theorem execSub_keeps {s0 : State} (e : Eng) (x : FmtA) (s : State) (hk : Keeps s0 s) : KO s0 (execSub e x s) := by
  unfold execSub
  try dsimp only
  with_reducible repeat' (
    first | assumption | apply macroNext_keeps | apply aluOp_keeps)

theorem execAnd_keeps {s0 : State} (e : Eng) (x : FmtA) (s : State) (hk : Keeps s0 s) : KO s0 (execAnd e x s) := by
  unfold execAnd
  try dsimp only
  with_reducible repeat' (
    first | assumption | apply macroNext_keeps | apply aluOp_keeps)

theorem execOr_keeps {s0 : State} (e : Eng) (x : FmtA) (s : State) (hk : Keeps s0 s) : KO s0 (execOr e x s) := by
  unfold execOr
  try dsimp only
  with_reducible repeat' (
    first | assumption | apply macroNext_keeps | apply aluOp_keeps)

theorem execXor_keeps {s0 : State} (e : Eng) (x : FmtA) (s : State) (hk : Keeps s0 s) : KO s0 (execXor e x s) := by
  unfold execXor
  try dsimp only
  with_reducible repeat' (
    first | assumption | apply macroNext_keeps | apply aluOp_keeps)

theorem execShl_keeps {s0 : State} (e : Eng) (x : FmtA) (s : State) (hk : Keeps s0 s) : KO s0 (execShl e x s) := by
  unfold execShl
  try dsimp only
  with_reducible repeat' (
    first | assumption | apply macroNext_keeps | apply aluOp_keeps)

theorem execShr_keeps {s0 : State} (e : Eng) (x : FmtA) (s : State) (hk : Keeps s0 s) : KO s0 (execShr e x s) := by
  unfold execShr
  try dsimp only
  with_reducible repeat' (
    first | assumption | apply macroNext_keeps | apply aluOp_keeps)

theorem execSar_keeps {s0 : State} (e : Eng) (x : FmtA) (s : State) (hk : Keeps s0 s) : KO s0 (execSar e x s) := by
  unfold execSar
  try dsimp only
  with_reducible repeat' (
    first | assumption | apply macroNext_keeps | apply aluOp_keeps)

theorem execRol_keeps {s0 : State} (e : Eng) (x : FmtA) (s : State) (hk : Keeps s0 s) : KO s0 (execRol e x s) := by
  unfold execRol
  try dsimp only
  with_reducible repeat' (
    first | assumption | apply macroNext_keeps | apply aluOp_keeps)

theorem compareOp_keeps {s0 : State} (x : FmtA) (f : Word → Word → Nat) : ∀ c, KM s0 ((compareOp x f).body c) := by
  unfold compareOp
  try dsimp only
  with_reducible repeat' (
    first | apply twoSource_keeps | apply zeroField_keeps | apply getG_keeps
             | apply src2_keeps | apply setCC_keeps | apply KM.ret | apply KM.seq | (intro))

theorem execCmp_keeps {s0 : State} (e : Eng) (x : FmtA) (s : State) (hk : Keeps s0 s) : KO s0 (execCmp e x s) := by
  unfold execCmp
  try dsimp only
  with_reducible repeat' (
    first | assumption | apply macroNext_keeps | apply compareOp_keeps)

theorem execCmpu_keeps {s0 : State} (e : Eng) (x : FmtA) (s : State) (hk : Keeps s0 s) : KO s0 (execCmpu e x s) := by
  unfold execCmpu
  try dsimp only
  with_reducible repeat' (
    first | assumption | apply macroNext_keeps | apply compareOp_keeps)

theorem execCmpp_keeps {s0 : State} (e : Eng) (x : FmtA) (s : State) (hk : Keeps s0 s) : KO s0 (execCmpp e x s) := by
  unfold execCmpp
  try dsimp only
  with_reducible repeat' (
    first | assumption | apply macroNext_keeps | apply lengthIn_keeps
             | apply zeroField_keeps | apply lowReg_keeps | apply getG_keeps | apply src2_keeps
             | apply specification_keeps | apply modBank_keeps | apply KM.ret | apply KM.ite | apply KM.seq | (intro)
             | split)

theorem execMov_keeps {s0 : State} (e : Eng) (x : FmtA) (s : State) (hk : Keeps s0 s) : KO s0 (execMov e x s) := by
  unfold execMov
  try dsimp only
  with_reducible repeat' (
    first | assumption | apply macroNext_keeps | apply lengthIn_keeps
             | apply zeroField_keeps | apply setG_keeps | apply getG_keeps | apply KM.ret | apply KM.ite
             | apply KM.seq | (intro))

theorem execMvi_keeps {s0 : State} (e : Eng) (x : FmtA) (s : State) (hk : Keeps s0 s) : KO s0 (execMvi e x s) := by
  unfold execMvi
  try dsimp only
  with_reducible repeat' (
    first | assumption | apply macroNext_keeps | apply lengthIn_keeps
             | apply zeroField_keeps | apply getG_keeps | apply setG_keeps | apply KM.ret | apply KM.seq | (intro))

theorem execMul_keeps {s0 : State} (e : Eng) (x : FmtA) (s : State) (hk : Keeps s0 s) : KO s0 (execMul e x s) := by
  unfold execMul
  try dsimp only
  with_reducible repeat' (
    first | assumption | apply macroNext_keeps | apply aluOp_keeps)

theorem highProduct_keeps {s0 : State} (x : FmtA) (f : Word → Word → Word) : ∀ c, KM s0 ((highProduct x f).body c) :=
    by
  unfold highProduct
  try dsimp only
  with_reducible repeat' (
    first | apply lengthIn_keeps | apply zeroField_keeps | apply getG_keeps
             | apply setG_keeps | apply KM.ret | apply KM.seq | (intro))

theorem execMulh_keeps {s0 : State} (e : Eng) (x : FmtA) (s : State) (hk : Keeps s0 s) : KO s0 (execMulh e x s) := by
  unfold execMulh
  try dsimp only
  with_reducible repeat' (
    first | assumption | apply macroNext_keeps | apply highProduct_keeps)

theorem execMulhu_keeps {s0 : State} (e : Eng) (x : FmtA) (s : State) (hk : Keeps s0 s) : KO s0 (execMulhu e x s) :=
    by
  unfold execMulhu
  try dsimp only
  with_reducible repeat' (
    first | assumption | apply macroNext_keeps | apply highProduct_keeps)

theorem divideOp_keeps {s0 : State} (x : FmtA) (f : Word → Word → Word × Word × Nat) : ∀ c, KM s0 ((divideOp x f).body
    c) := by
  unfold divideOp
  try dsimp only
  with_reducible repeat' (
    first | apply lengthIn_keeps | apply zeroField_keeps | apply evenReg_keeps
             | apply getG_keeps | apply setG_keeps | apply setCC_keeps | apply KM.ret | apply KM.trap | apply KM.ite
             | apply KM.seq | (intro))

theorem execDiv_keeps {s0 : State} (e : Eng) (x : FmtA) (s : State) (hk : Keeps s0 s) : KO s0 (execDiv e x s) := by
  unfold execDiv
  try dsimp only
  with_reducible repeat' (
    first | assumption | apply macroNext_keeps | apply divideOp_keeps)

theorem execDivu_keeps {s0 : State} (e : Eng) (x : FmtA) (s : State) (hk : Keeps s0 s) : KO s0 (execDivu e x s) := by
  unfold execDivu
  try dsimp only
  with_reducible repeat' (
    first | assumption | apply macroNext_keeps | apply divideOp_keeps)

theorem loadOp_keeps {s0 : State} (x : FmtB) (signExtend : Bool) : ∀ c, KM s0 ((loadOp x signExtend).body c) := by
  unfold loadOp
  try dsimp only
  with_reducible repeat' (
    first | apply lengthIn_keeps | apply require_keeps | apply getBank_keeps
             | apply load_keeps | apply setG_keeps | apply KM.ret | apply KM.seq | (intro) | split)

theorem execLd_keeps {s0 : State} (e : Eng) (x : FmtB) (s : State) (hk : Keeps s0 s) : KO s0 (execLd e x s) := by
  unfold execLd
  try dsimp only
  with_reducible repeat' (
    first | assumption | apply macroNext_keeps | apply loadOp_keeps)

theorem execLds_keeps {s0 : State} (e : Eng) (x : FmtB) (s : State) (hk : Keeps s0 s) : KO s0 (execLds e x s) := by
  unfold execLds
  try dsimp only
  with_reducible repeat' (
    first | assumption | apply macroNext_keeps | apply loadOp_keeps)

theorem execSt_keeps {s0 : State} (e : Eng) (x : FmtB) (s : State) (hk : Keeps s0 s) : KO s0 (execSt e x s) := by
  unfold execSt
  try dsimp only
  with_reducible repeat' (
    first | assumption | apply macroNext_keeps | apply lengthIn_keeps | apply require_keeps
             | apply getBank_keeps | apply store_keeps | apply KM.ret | apply KM.seq | (intro))

theorem execLea_keeps {s0 : State} (e : Eng) (x : FmtB) (s : State) (hk : Keeps s0 s) : KO s0 (execLea e x s) := by
  unfold execLea
  try dsimp only
  with_reducible repeat' (
    first | assumption | apply macroNext_keeps | apply lengthIn_keeps
             | apply zeroField_keeps | apply getBank_keeps | apply setG_keeps | apply KM.ret | apply KM.seq | (intro))

theorem execSti_keeps {s0 : State} (e : Eng) (x : FmtD) (s : State) (hk : Keeps s0 s) : KO s0 (execSti e x s) := by
  unfold execSti
  try dsimp only
  with_reducible repeat' (
    first | assumption | apply macroNext_keeps | apply lengthIn_keeps
             | apply zeroField_keeps | apply getBank_keeps | apply store_keeps | apply KM.ret | apply KM.seq | (intro))

end Sys2Proof.Machine
end

