-- ==== Sys2Proof/Laws/KeepsControl.lean ====
section
/-! SUPPORT. What every function of Control keeps. -/

namespace Sys2Proof.Machine

set_option linter.unusedVariables false

theorem branchCost_keeps {s0 : State} (c : Cx) (target : Option Nat) : KM s0 (branchCost c target) := by
  unfold branchCost
  try dsimp only
  with_reducible repeat' (
    first | apply getPsw_keeps | apply State.modEng_keeps | apply State.tick_keeps
             | apply KM.ret | apply KM.look | apply KM.change | apply KM.ite | apply KM.seq | (intro) | split)

theorem registerTarget_keeps {s0 : State} (v : Nat) : KM s0 (registerTarget v) := by
  unfold registerTarget
  try dsimp only
  with_reducible repeat' (
    first | apply KM.ret | apply KM.trap | apply KM.ite | apply KM.seq | (intro))

theorem branchTarget_keeps {s0 : State} (c : Cx) (x : FmtE) : KM s0 (branchTarget c x) := by
  unfold branchTarget
  try dsimp only
  with_reducible repeat' (
    first | apply specification_keeps | apply getPsw_keeps | apply KM.ret | apply KM.trap
             | apply KM.ite | apply KM.seq | (intro))

theorem plainBranch_keeps {s0 : State} (x : FmtE) : KM s0 (plainBranch x) := by
  unfold plainBranch
  try dsimp only
  with_reducible repeat' (
    first | apply zeroField_keeps | apply KM.ret | apply KM.ite | apply KM.seq | (intro))

theorem branchTo.spendBranch_keeps {s0 : State} (c : Cx) (n : Nat) : KM s0 (branchTo.spendBranch c n) := by
  unfold branchTo.spendBranch
  try dsimp only
  with_reducible repeat' (
    first | apply getPsw_keeps | apply State.cycles_keeps | apply KM.change | apply KM.seq
             | (intro))

theorem branchTo_keeps {s0 : State} (c : Cx) (target : Option Nat) (extra : Nat) : KM s0 (branchTo c target extra) :=
    by
  unfold branchTo
  try dsimp only
  with_reducible repeat' (
    first | apply branchCost_keeps | apply branchTo.spendBranch_keeps | apply KM.ret
             | apply KM.seq | (intro) | split)

theorem branchMacro_keeps {s0 : State} (body : Cx → M Done) (h_body : ∀ y0, KM s0 (body y0)) : ∀ c, KM s0
    ((branchMacro body).body c) := by
  unfold branchMacro
  try dsimp only
  with_reducible repeat' (
    first | assumption)

theorem execPset_keeps {s0 : State} (e : Eng) (x : FmtA) (s : State) (hk : Keeps s0 s) : KO s0 (execPset e x s) := by
  unfold execPset
  try dsimp only
  with_reducible repeat' (
    first | assumption | apply macroNext_keeps | apply lengthIn_keeps | apply lowReg_keeps
             | apply getBank_keeps | apply zeroField_keeps | apply modBank_keeps | apply KM.ret | apply KM.ite
             | apply KM.seq | (intro))

theorem execB_keeps {s0 : State} (e : Eng) (x : FmtE) (s : State) (hk : Keeps s0 s) : KO s0 (execB e x s) := by
  unfold execB
  try dsimp only
  with_reducible repeat' (
    first | assumption | apply macroNext_keeps | apply branchMacro_keeps
             | apply lengthIn_keeps | apply zeroField_keeps | apply plainBranch_keeps | apply branchTarget_keeps
             | apply branchTo_keeps | apply KM.seq | (intro))

theorem execBc_keeps {s0 : State} (e : Eng) (x : FmtE) (s : State) (hk : Keeps s0 s) : KO s0 (execBc e x s) := by
  unfold execBc
  try dsimp only
  with_reducible repeat' (
    first | assumption | apply macroNext_keeps | apply branchMacro_keeps
             | apply lengthIn_keeps | apply plainBranch_keeps | apply getBank_keeps | apply branchTarget_keeps
             | apply branchTo_keeps | apply KM.ite | apply KM.seq | (intro))

theorem execBr_keeps {s0 : State} (e : Eng) (x : FmtA) (s : State) (hk : Keeps s0 s) : KO s0 (execBr e x s) := by
  unfold execBr
  try dsimp only
  with_reducible repeat' (
    first | assumption | apply macroNext_keeps | apply branchMacro_keeps
             | apply lengthIn_keeps | apply zeroField_keeps | apply getG_keeps | apply registerTarget_keeps
             | apply branchTo_keeps | apply KM.seq | (intro))

theorem execDbnz_keeps {s0 : State} (e : Eng) (x : FmtE) (s : State) (hk : Keeps s0 s) : KO s0 (execDbnz e x s) := by
  unfold execDbnz
  try dsimp only
  with_reducible repeat' (
    first | assumption | apply macroNext_keeps | apply branchMacro_keeps
             | apply lengthIn_keeps | apply getG_keeps | apply setG_keeps | apply branchTo_keeps
             | apply branchTarget_keeps | apply KM.ite | apply KM.seq | (intro))

theorem maskField_keeps {s0 : State} (x : FmtE) : KM s0 (maskField x) := by
  unfold maskField
  try dsimp only
  with_reducible repeat' (
    first | apply zeroField_keeps)

theorem stackFault_keeps {s0 : State} {α : Type} (code : Nat) (eaddr : Nat) : KM s0 (stackFault (α := α) code eaddr)
    := by
  unfold stackFault
  try dsimp only
  with_reducible repeat' (
    first | apply KM.trap)

theorem framePieces_keeps {s0 : State} (c : Cx) (acc : Acc) (code : Nat) (ea : Nat) (n : Nat) : KM s0 (framePieces c
    acc code ea n) := by
  unfold framePieces
  try dsimp only
  with_reducible repeat' (
    first | apply pieces_keeps | apply stackFault_keeps | apply KM.ret | apply KM.trap
             | apply KM.readThen | apply KM.ite | apply KM.handled | apply KM.seq | (intro) | split)

theorem callTo.putLink_keeps {s0 : State} (c : Cx) (ret : Nat) (new : Nat) : KM s0 (callTo.putLink c ret new) := by
  unfold callTo.putLink
  try dsimp only
  with_reducible repeat' (
    first | apply setG_keeps | apply KM.seq | (intro))

theorem callTo_keeps {s0 : State} (c : Cx) (mask : BitVec 16) (target : Nat) : KM s0 (callTo c mask target) := by
  unfold callTo
  try dsimp only
  with_reducible repeat' (
    first | apply getBank_keeps | apply State.awaitPosts_keeps | apply framePieces_keeps
             | apply writePieces_keeps | apply callTo.putLink_keeps | apply branchTo_keeps | apply stackFault_keeps
             | apply KM.change | apply KM.ite | apply KM.seq | (intro))

theorem execCall_keeps {s0 : State} (e : Eng) (x : FmtE) (s : State) (hk : Keeps s0 s) : KO s0 (execCall e x s) := by
  unfold execCall
  try dsimp only
  with_reducible repeat' (
    first | assumption | apply macroNext_keeps | apply branchMacro_keeps
             | apply lengthIn_keeps | apply zeroField_keeps | apply maskField_keeps | apply branchTarget_keeps
             | apply callTo_keeps | apply KM.ite | apply KM.seq | (intro))

theorem execCallr_keeps {s0 : State} (e : Eng) (x : FmtE) (s : State) (hk : Keeps s0 s) : KO s0 (execCallr e x s) :=
    by
  unfold execCallr
  try dsimp only
  with_reducible repeat' (
    first | assumption | apply macroNext_keeps | apply branchMacro_keeps
             | apply lengthIn_keeps | apply zeroField_keeps | apply maskField_keeps | apply getG_keeps
             | apply registerTarget_keeps | apply callTo_keeps | apply KM.seq | (intro))

theorem restoreRegs_keeps {s0 : State} (c : Cx) (x1 : List (BitVec 4)) (x2 : List Byte) : KM s0 (restoreRegs c x1 x2)
    := by
  induction x1 generalizing c x2 with
  | nil =>
    unfold restoreRegs
    try dsimp only
    with_reducible repeat' (
      first | apply setG_keeps | exact Keeps.refl _ | apply KM.ret | (intro)
               | apply Keeps.ite)
  | cons y l ih =>
    unfold restoreRegs
    try dsimp only
    with_reducible repeat' (
      first | apply ih | apply setG_keeps | apply KM.go | apply KM.seq | (intro))

theorem execRet_keeps {s0 : State} (e : Eng) (x : FmtE) (s : State) (hk : Keeps s0 s) : KO s0 (execRet e x s) := by
  unfold execRet
  try dsimp only
  with_reducible repeat' (
    first | assumption | apply macroNext_keeps | apply branchMacro_keeps
             | apply lengthIn_keeps | apply zeroField_keeps | apply maskField_keeps | apply getG_keeps
             | apply State.awaitPosts_keeps | apply framePieces_keeps | apply readPieces_keeps
             | apply restoreRegs_keeps | apply setG_keeps | apply branchTo_keeps | apply stackFault_keeps
             | apply KM.change | apply KM.ite | apply KM.seq | (intro))

theorem execSvc_keeps {s0 : State} (e : Eng) (x : FmtA) (s : State) (hk : Keeps s0 s) : KO s0 (execSvc e x s) := by
  unfold execSvc
  try dsimp only
  with_reducible repeat' (
    first | assumption | apply macroNext_keeps | apply lengthIn_keeps
             | apply zeroField_keeps | apply KM.ret | apply KM.ite | apply KM.seq | (intro))

theorem onlyRa_keeps {s0 : State} (x : FmtA) : KM s0 (onlyRa x) := by
  unfold onlyRa
  try dsimp only
  with_reducible repeat' (
    first | apply lengthIn_keeps | apply zeroField_keeps | apply KM.seq | (intro))

theorem execEret_keeps {s0 : State} (e : Eng) (x : FmtA) (s : State) (hk : Keeps s0 s) : KO s0 (execEret e x s) := by
  unfold execEret
  try dsimp only
  with_reducible repeat' (
    first | assumption | apply macroNext_keeps | apply onlyRa_keeps | apply zeroField_keeps
             | apply needPriv_keeps | apply getBank_keeps | apply require_keeps | apply State.cycles_keeps
             | apply State.tick_keeps | apply State.eret_keeps | apply privileged_keeps | apply KM.ret
             | apply KM.change | apply KM.ite | apply KM.seq | (intro))

theorem execSpsw_keeps {s0 : State} (e : Eng) (x : FmtA) (s : State) (hk : Keeps s0 s) : KO s0 (execSpsw e x s) := by
  unfold execSpsw
  try dsimp only
  with_reducible repeat' (
    first | assumption | apply macroNext_keeps | apply State.cycles_keeps
             | apply onlyRa_keeps | apply evenReg_keeps | apply getG_keeps | apply require_keeps | apply getPsw_keeps
             | apply privileged_keeps | apply modBank_keeps | apply KM.ret | apply KM.look | apply KM.change
             | apply KM.seq | (intro) | split)

theorem execGpsw_keeps {s0 : State} (e : Eng) (x : FmtA) (s : State) (hk : Keeps s0 s) : KO s0 (execGpsw e x s) := by
  unfold execGpsw
  try dsimp only
  with_reducible repeat' (
    first | assumption | apply macroNext_keeps | apply onlyRa_keeps | apply evenReg_keeps
             | apply getPsw_keeps | apply setG_keeps | apply KM.ret | apply KM.seq | (intro))

theorem entryFields_keeps {s0 : State} (c : Cx) (x : FmtA) : KM s0 (entryFields c x) := by
  unfold entryFields
  try dsimp only
  with_reducible repeat' (
    first | apply lengthIn_keeps | apply zeroField_keeps | apply needPriv_keeps
             | apply KM.seq | (intro))

theorem execGete_keeps {s0 : State} (e : Eng) (x : FmtA) (s : State) (hk : Keeps s0 s) : KO s0 (execGete e x s) := by
  unfold execGete
  try dsimp only
  with_reducible repeat' (
    first | assumption | apply macroNext_keeps | apply entryFields_keeps
             | apply getBank_keeps | apply setG_keeps | apply KM.ret | apply KM.seq | (intro))

theorem execSete_keeps {s0 : State} (e : Eng) (x : FmtA) (s : State) (hk : Keeps s0 s) : KO s0 (execSete e x s) := by
  unfold execSete
  try dsimp only
  with_reducible repeat' (
    first | assumption | apply macroNext_keeps | apply entryFields_keeps | apply getG_keeps
             | apply modBank_keeps | apply KM.ret | apply KM.seq | (intro))

theorem execKrs_keeps {s0 : State} (e : Eng) (x : FmtA) (s : State) (hk : Keeps s0 s) : KO s0 (execKrs e x s) := by
  unfold execKrs
  try dsimp only
  with_reducible repeat' (
    first | assumption | apply macroNext_keeps | apply onlyRa_keeps | apply getG_keeps
             | apply modBank_keeps | apply KM.ret | apply KM.seq | (intro))

theorem execKrg_keeps {s0 : State} (e : Eng) (x : FmtA) (s : State) (hk : Keeps s0 s) : KO s0 (execKrg e x s) := by
  unfold execKrg
  try dsimp only
  with_reducible repeat' (
    first | assumption | apply macroNext_keeps | apply onlyRa_keeps | apply getBank_keeps
             | apply setG_keeps | apply KM.ret | apply KM.seq | (intro))

theorem execSfpc_keeps {s0 : State} (e : Eng) (x : FmtA) (s : State) (hk : Keeps s0 s) : KO s0 (execSfpc e x s) := by
  unfold execSfpc
  try dsimp only
  with_reducible repeat' (
    first | assumption | apply macroNext_keeps | apply onlyRa_keeps | apply getG_keeps
             | apply require_keeps | apply modBank_keeps | apply KM.ret | apply KM.seq | (intro))

theorem execGfpc_keeps {s0 : State} (e : Eng) (x : FmtA) (s : State) (hk : Keeps s0 s) : KO s0 (execGfpc e x s) := by
  unfold execGfpc
  try dsimp only
  with_reducible repeat' (
    first | assumption | apply macroNext_keeps | apply onlyRa_keeps | apply getBank_keeps
             | apply setG_keeps | apply KM.ret | apply KM.seq | (intro))

theorem execTbr_keeps {s0 : State} (e : Eng) (x : FmtA) (s : State) (hk : Keeps s0 s) : KO s0 (execTbr e x s) := by
  unfold execTbr
  try dsimp only
  with_reducible repeat' (
    first | assumption | apply macroNext_keeps | apply onlyRa_keeps | apply setG_keeps
             | apply KM.ret | apply KM.look | apply KM.seq | (intro))

theorem wfeEnd_keeps {s0 : State} (c : Cx) (deadline : Option Word) : KM s0 (wfeEnd c deadline) := by
  unfold wfeEnd
  try dsimp only
  with_reducible repeat' (
    first | apply State.modSlot_keeps | apply setCC_keeps | apply KM.ret
             | apply KM.readThen | apply KM.change | apply KM.ite | apply KM.seq | (intro) | split)

theorem execWfe_keeps {s0 : State} (e : Eng) (x : FmtA) (s : State) (hk : Keeps s0 s) : KO s0 (execWfe e x s) := by
  unfold execWfe
  try dsimp only
  with_reducible repeat' (
    first | assumption | apply macroNext_keeps | apply lengthIn_keeps
             | apply zeroField_keeps | apply State.awaitPosts_keeps | apply wfeEnd_keeps | apply State.modEng_keeps
             | apply getG_keeps | apply KM.ret | apply KM.change | apply KM.ite | apply KM.seq | (intro) | split)

theorem execWuntil_keeps {s0 : State} (e : Eng) (x : FmtA) (s : State) (hk : Keeps s0 s) : KO s0 (execWuntil e x s) :=
    by
  unfold execWuntil
  try dsimp only
  with_reducible repeat' (
    first | assumption | apply macroNext_keeps | apply onlyRa_keeps
             | apply State.awaitPosts_keeps | apply getG_keeps | apply setCC_keeps | apply State.modEng_keeps
             | apply KM.ret | apply KM.readThen | apply KM.change | apply KM.ite | apply KM.seq | (intro))

theorem State.unwait_keeps {s0 : State} (s : State) (e : Eng) (hk : Keeps s0 s) : Keeps s0 (State.unwait s e) := by
  unfold State.unwait
  try dsimp only
  with_reducible repeat' (
    first | assumption | apply State.modEng_keeps)

theorem State.endWait_keeps {s0 : State} (s : State) (e : Eng) (f : Cx → M (Option Unit)) (hk : Keeps s0 s) (h_f : ∀
    y0, KM s0 (f y0)) : Keeps s0 (State.endWait s e f) := by
  unfold State.endWait
  try dsimp only
  with_reducible repeat' (
    first | assumption | apply h_f | apply State.unwait_keeps
             | apply State.takePostCheck_keeps | apply State.complete_keeps
             | (refine Keeps.of_pair (by assumption) ?_) | apply KM.run | split)

theorem execWfeComplete_keeps {s0 : State} (e : Eng) (s : State) (hk : Keeps s0 s) : KO s0 (execWfeComplete e s) := by
  unfold execWfeComplete
  try dsimp only
  with_reducible repeat' (
    first | assumption | apply State.endWait_keeps | apply wfeEnd_keeps | apply KO.next
             | (intro) | split)

theorem execWuntilComplete_keeps {s0 : State} (e : Eng) (s : State) (hk : Keeps s0 s) : KO s0 (execWuntilComplete e s)
    := by
  unfold execWuntilComplete
  try dsimp only
  with_reducible repeat' (
    first | assumption | apply State.endWait_keeps | apply setCC_keeps | apply KM.ret
             | apply KM.readThen | apply KM.ite | apply KM.seq | apply KO.next | (intro) | split)

theorem execSev_keeps {s0 : State} (e : Eng) (x : FmtA) (s : State) (hk : Keeps s0 s) : KO s0 (execSev e x s) := by
  unfold execSev
  try dsimp only
  with_reducible repeat' (
    first | assumption | apply macroNext_keeps | apply onlyRa_keeps | apply getG_keeps
             | apply getPsw_keeps | apply State.modEng_keeps | apply State.drainAll_keeps | apply privileged_keeps
             | apply KM.ret | apply KM.look | apply KM.change | apply KM.ite | apply KM.seq | (intro))

theorem execSevSend_keeps {s0 : State} (e : Eng) (s : State) (hk : Keeps s0 s) : KO s0 (execSevSend e s) := by
  unfold execSevSend
  try dsimp only
  with_reducible repeat' (
    first | assumption | apply State.takePostCheck_keeps | apply State.complete_keeps
             | apply State.pendVector_keeps | apply State.unwait_keeps | apply KO.next | split)

theorem execUnassignedOpcode_keeps {s0 : State} (e : Eng) (pred : BitVec 4) (len : Len) (op : BitVec 8) (xop : BitVec
    8) (s : State) (hk : Keeps s0 s) : KO s0 (execUnassignedOpcode e pred len op xop s) := by
  unfold execUnassignedOpcode
  try dsimp only
  with_reducible repeat' (
    first | assumption | apply macroNext_keeps | apply KM.trap | apply KO.next
             | apply KO.ite | (intro))

theorem execInstructionFetchFault_keeps {s0 : State} (e : Eng) (s : State) (hk : Keeps s0 s) : KO s0
    (execInstructionFetchFault e s) := by
  unfold execInstructionFetchFault
  try dsimp only
  with_reducible repeat' (
    first | assumption | apply fetch_keeps | apply State.trapped_keeps
             | (refine Keeps.of_pair (by assumption) ?_) | apply KO.next | split)

end Sys2Proof.Machine
end

