-- ==== Sys2Proof/Laws/KeepsDecimal.lean ====
section
/-! SUPPORT. What every function of Decimal keeps. -/

namespace Sys2Proof.Machine

set_option linter.unusedVariables false

theorem source_keeps {s0 : State} (operand : Nat) (x1 : Except (Nat × Nat) Int) : KM s0 (source operand x1) := by
  unfold source
  try dsimp only
  with_reducible repeat' (
    first | apply KM.ret | apply KM.trap | split)

theorem sourceD_keeps {s0 : State} (c : Cx) (operand : Nat) (r : BitVec 4) : KM s0 (sourceD c operand r) := by
  unfold sourceD
  try dsimp only
  with_reducible repeat' (
    first | apply getD'_keeps | apply source_keeps | apply KM.seq | (intro))

theorem finishM_keeps {s0 : State} (c : Cx) (r : Int) (n : Nat) (u : Bool) : KM s0 (finishM c r n u) := by
  unfold finishM
  try dsimp only
  with_reducible repeat' (
    first | apply getPsw_keeps | apply KM.ret | apply KM.trap | apply KM.seq | (intro)
             | split)

theorem putD_keeps {s0 : State} (c : Cx) (r : BitVec 4) (f : Finished) : KM s0 (putD c r f) := by
  unfold putD
  try dsimp only
  with_reducible repeat' (
    first | apply setD_keeps | apply setCC_keeps | apply KM.seq | (intro))

theorem limit63_keeps {s0 : State} (x : FmtA) : KM s0 (limit63 x) := by
  unfold limit63
  try dsimp only
  with_reducible repeat' (
    first | apply zeroField_keeps | apply require_keeps | apply KM.ret | apply KM.ite
             | apply KM.seq | (intro))

theorem sourceBytes_keeps {s0 : State} (operand : Nat) (l : List Byte) : KM s0 (sourceBytes operand l) := by
  unfold sourceBytes
  try dsimp only
  with_reducible repeat' (
    first | apply source_keeps)

theorem decimalAdd_keeps {s0 : State} (x : FmtA) (f : Int → Int → Int) : ∀ c, KM s0 ((decimalAdd x f).body c) := by
  unfold decimalAdd
  try dsimp only
  with_reducible repeat' (
    first | apply lengthIn_keeps | apply lowReg_keeps | apply zeroField_keeps
             | apply limit63_keeps | apply sourceD_keeps | apply finishM_keeps | apply putD_keeps | apply KM.ret
             | apply KM.seq | (intro))

theorem execDad_keeps {s0 : State} (e : Eng) (x : FmtA) (s : State) (hk : Keeps s0 s) : KO s0 (execDad e x s) := by
  unfold execDad
  try dsimp only
  with_reducible repeat' (
    first | assumption | apply macroNext_keeps | apply decimalAdd_keeps)

theorem execDsb_keeps {s0 : State} (e : Eng) (x : FmtA) (s : State) (hk : Keeps s0 s) : KO s0 (execDsb e x s) := by
  unfold execDsb
  try dsimp only
  with_reducible repeat' (
    first | assumption | apply macroNext_keeps | apply decimalAdd_keeps)

theorem execDzp_keeps {s0 : State} (e : Eng) (x : FmtA) (s : State) (hk : Keeps s0 s) : KO s0 (execDzp e x s) := by
  unfold execDzp
  try dsimp only
  with_reducible repeat' (
    first | assumption | apply macroNext_keeps | apply lengthIn_keeps | apply lowReg_keeps
             | apply zeroField_keeps | apply limit63_keeps | apply sourceD_keeps | apply finishM_keeps
             | apply putD_keeps | apply KM.ret | apply KM.seq | (intro))

theorem putPair_keeps {s0 : State} (c : Cx) (r : BitVec 4) (f : Finished) : KM s0 (putPair c r f) := by
  unfold putPair
  try dsimp only
  with_reducible repeat' (
    first | apply setD_keeps | apply setCC_keeps | apply KM.seq | (intro))

theorem execDmp_keeps {s0 : State} (e : Eng) (x : FmtA) (s : State) (hk : Keeps s0 s) : KO s0 (execDmp e x s) := by
  unfold execDmp
  try dsimp only
  with_reducible repeat' (
    first | assumption | apply macroNext_keeps | apply lengthIn_keeps | apply lowReg_keeps
             | apply zeroField_keeps | apply limit63_keeps | apply sourceD_keeps | apply finishM_keeps
             | apply putD_keeps | apply putPair_keeps | apply evenReg_keeps | apply KM.ret | apply KM.ite
             | apply KM.seq | (intro))

theorem execDdv_keeps {s0 : State} (e : Eng) (x : FmtA) (s : State) (hk : Keeps s0 s) : KO s0 (execDdv e x s) := by
  unfold execDdv
  try dsimp only
  with_reducible repeat' (
    first | assumption | apply macroNext_keeps | apply lengthIn_keeps | apply lowReg_keeps
             | apply evenReg_keeps | apply zeroField_keeps | apply getD'_keeps | apply source_keeps
             | apply sourceD_keeps | apply finishM_keeps | apply putD_keeps | apply setD_keeps | apply KM.ret
             | apply KM.trap | apply KM.ite | apply KM.seq | (intro))

theorem execDcp_keeps {s0 : State} (e : Eng) (x : FmtA) (s : State) (hk : Keeps s0 s) : KO s0 (execDcp e x s) := by
  unfold execDcp
  try dsimp only
  with_reducible repeat' (
    first | assumption | apply macroNext_keeps | apply lengthIn_keeps | apply lowReg_keeps
             | apply zeroField_keeps | apply sourceD_keeps | apply setCC_keeps | apply KM.ret | apply KM.seq | (intro))

theorem placesField_keeps {s0 : State} (c : Cx) (x : FmtA) : KM s0 (placesField c x) := by
  unfold placesField
  try dsimp only
  with_reducible repeat' (
    first | apply lengthIn_keeps | apply lowReg_keeps | apply zeroField_keeps
             | apply require_keeps | apply getG_keeps | apply KM.ret | apply KM.ite | apply KM.seq | (intro))

theorem execDsh_keeps {s0 : State} (e : Eng) (x : FmtA) (s : State) (hk : Keeps s0 s) : KO s0 (execDsh e x s) := by
  unfold execDsh
  try dsimp only
  with_reducible repeat' (
    first | assumption | apply macroNext_keeps | apply placesField_keeps
             | apply require_keeps | apply sourceD_keeps | apply finishM_keeps | apply putD_keeps | apply KM.ret
             | apply KM.seq | (intro))

theorem execDrn_keeps {s0 : State} (e : Eng) (x : FmtA) (s : State) (hk : Keeps s0 s) : KO s0 (execDrn e x s) := by
  unfold execDrn
  try dsimp only
  with_reducible repeat' (
    first | assumption | apply macroNext_keeps | apply placesField_keeps
             | apply require_keeps | apply sourceD_keeps | apply finishM_keeps | apply putD_keeps | apply KM.ret
             | apply KM.seq | (intro))

theorem convertFields_keeps {s0 : State} (x : FmtA) (d : BitVec 4) : KM s0 (convertFields x d) := by
  unfold convertFields
  try dsimp only
  with_reducible repeat' (
    first | apply lengthIn_keeps | apply lowReg_keeps | apply zeroField_keeps
             | apply KM.seq | (intro))

theorem execDtb_keeps {s0 : State} (e : Eng) (x : FmtA) (s : State) (hk : Keeps s0 s) : KO s0 (execDtb e x s) := by
  unfold execDtb
  try dsimp only
  with_reducible repeat' (
    first | assumption | apply macroNext_keeps | apply convertFields_keeps
             | apply sourceD_keeps | apply getPsw_keeps | apply setG_keeps | apply setCC_keeps | apply KM.ret
             | apply KM.trap | apply KM.ite | apply KM.seq | (intro))

theorem execBtd_keeps {s0 : State} (e : Eng) (x : FmtA) (s : State) (hk : Keeps s0 s) : KO s0 (execBtd e x s) := by
  unfold execBtd
  try dsimp only
  with_reducible repeat' (
    first | assumption | apply macroNext_keeps | apply convertFields_keeps
             | apply getG_keeps | apply finishM_keeps | apply putD_keeps | apply KM.ret | apply KM.seq | (intro))

theorem execDts_keeps {s0 : State} (e : Eng) (x : FmtDts) (s : State) (hk : Keeps s0 s) : KO s0 (execDts e x s) := by
  unfold execDts
  try dsimp only
  with_reducible repeat' (
    first | assumption | apply macroNext_keeps | apply lengthIn_keeps | apply lowReg_keeps
             | apply zeroField_keeps | apply getD'_keeps | apply setCC_keeps | apply getBank_keeps
             | apply loadNormal_keeps | apply KM.ret | apply KM.seq | (intro) | split)

theorem execDld_keeps {s0 : State} (e : Eng) (x : FmtB) (s : State) (hk : Keeps s0 s) : KO s0 (execDld e x s) := by
  unfold execDld
  try dsimp only
  with_reducible repeat' (
    first | assumption | apply macroNext_keeps | apply lengthIn_keeps | apply lowReg_keeps
             | apply zeroField_keeps | apply getBank_keeps | apply loadNormal_keeps | apply sourceBytes_keeps
             | apply setD_keeps | apply setCC_keeps | apply KM.ret | apply KM.ite | apply KM.seq | (intro))

theorem execDst_keeps {s0 : State} (e : Eng) (x : FmtB) (s : State) (hk : Keeps s0 s) : KO s0 (execDst e x s) := by
  unfold execDst
  try dsimp only
  with_reducible repeat' (
    first | assumption | apply macroNext_keeps | apply lengthIn_keeps | apply lowReg_keeps
             | apply zeroField_keeps | apply State.awaitPosts_keeps | apply getBank_keeps | apply checkedPieces_keeps
             | apply sourceD_keeps | apply finishM_keeps | apply writePieces_keeps | apply setCC_keeps | apply KM.ret
             | apply KM.change | apply KM.seq | (intro))

theorem zonedFields_keeps {s0 : State} (x : FmtB) : KM s0 (zonedFields x) := by
  unfold zonedFields
  try dsimp only
  with_reducible repeat' (
    first | apply lengthIn_keeps | apply lowReg_keeps | apply zeroField_keeps
             | apply require_keeps | apply specification_keeps | apply KM.ret | apply KM.seq | (intro) | split)

theorem execDpk_keeps {s0 : State} (e : Eng) (x : FmtB) (s : State) (hk : Keeps s0 s) : KO s0 (execDpk e x s) := by
  unfold execDpk
  try dsimp only
  with_reducible repeat' (
    first | assumption | apply macroNext_keeps | apply zonedFields_keeps
             | apply getBank_keeps | apply loadNormal_keeps | apply source_keeps | apply finishM_keeps
             | apply putD_keeps | apply KM.ret | apply KM.seq | (intro))

theorem execDup_keeps {s0 : State} (e : Eng) (x : FmtB) (s : State) (hk : Keeps s0 s) : KO s0 (execDup e x s) := by
  unfold execDup
  try dsimp only
  with_reducible repeat' (
    first | assumption | apply macroNext_keeps | apply zonedFields_keeps
             | apply State.awaitPosts_keeps | apply getBank_keeps | apply checkedPieces_keeps | apply sourceD_keeps
             | apply finishM_keeps | apply writePieces_keeps | apply setCC_keeps | apply KM.ret | apply KM.change
             | apply KM.seq | (intro))

theorem bothOperands_keeps {s0 : State} (c : Cx) (x : FmtC) (acc1 : Acc) (back : Bool) : KM s0 (bothOperands c x acc1
    back) := by
  unfold bothOperands
  try dsimp only
  with_reducible repeat' (
    first | apply lengthIn_keeps | apply getBank_keeps | apply addressRange_keeps
             | apply State.awaitPosts_keeps | apply checkedPieces_keeps | apply KM.ret | apply KM.change
             | apply KM.ite | apply KM.seq | (intro))

theorem memoryAdd_keeps {s0 : State} (x : FmtC) (f : Int → Int → Int) : ∀ c, KM s0 ((memoryAdd x f).body c) := by
  unfold memoryAdd
  try dsimp only
  with_reducible repeat' (
    first | apply bothOperands_keeps | apply readPieces_keeps | apply sourceBytes_keeps
             | apply finishM_keeps | apply writePieces_keeps | apply setCC_keeps | apply KM.ret | apply KM.seq
             | (intro))

theorem execDadm_keeps {s0 : State} (e : Eng) (x : FmtC) (s : State) (hk : Keeps s0 s) : KO s0 (execDadm e x s) := by
  unfold execDadm
  try dsimp only
  with_reducible repeat' (
    first | assumption | apply macroNext_keeps | apply memoryAdd_keeps)

theorem execDsbm_keeps {s0 : State} (e : Eng) (x : FmtC) (s : State) (hk : Keeps s0 s) : KO s0 (execDsbm e x s) := by
  unfold execDsbm
  try dsimp only
  with_reducible repeat' (
    first | assumption | apply macroNext_keeps | apply memoryAdd_keeps)

theorem execDcpm_keeps {s0 : State} (e : Eng) (x : FmtC) (s : State) (hk : Keeps s0 s) : KO s0 (execDcpm e x s) := by
  unfold execDcpm
  try dsimp only
  with_reducible repeat' (
    first | assumption | apply macroNext_keeps | apply bothOperands_keeps
             | apply readPieces_keeps | apply sourceBytes_keeps | apply setCC_keeps | apply KM.ret | apply KM.seq
             | (intro))

theorem execDzpm_keeps {s0 : State} (e : Eng) (x : FmtC) (s : State) (hk : Keeps s0 s) : KO s0 (execDzpm e x s) := by
  unfold execDzpm
  try dsimp only
  with_reducible repeat' (
    first | assumption | apply macroNext_keeps | apply bothOperands_keeps
             | apply readPieces_keeps | apply sourceBytes_keeps | apply finishM_keeps | apply writePieces_keeps
             | apply setCC_keeps | apply KM.ret | apply KM.seq | (intro))

end Sys2Proof.Machine
end

