-- ==== Sys2Proof/Laws/KeepsFloat.lean ====
section
/-! SUPPORT. What every function of Float keeps. -/

namespace Sys2Proof.Machine

set_option linter.unusedVariables false

theorem modeOf_keeps {s0 : State} (c : Cx) (code : Nat) : KM s0 (modeOf c code) := by
  unfold modeOf
  try dsimp only
  with_reducible repeat' (
    first | apply getBank_keeps | apply KM.ret | apply KM.seq | (intro))

theorem signal_keeps {s0 : State} (c : Cx) (code : Nat) (k : Conds) : KM s0 (signal c code k) := by
  unfold signal
  try dsimp only
  with_reducible repeat' (
    first | apply getBank_keeps | apply modBank_keeps | apply KM.trap | apply KM.seq
             | (intro) | split)

theorem getFV_keeps {s0 : State} (c : Cx) (code : Nat) (r : BitVec 4) : KM s0 (getFV c code r) := by
  unfold getFV
  try dsimp only
  with_reducible repeat' (
    first | apply getF_keeps | apply KM.ret | apply KM.seq | (intro))

theorem putF_keeps {s0 : State} (c : Cx) (code : Nat) (r : BitVec 4) (v : FVal × Conds) : KM s0 (putF c code r v) :=
    by
  unfold putF
  try dsimp only
  with_reducible repeat' (
    first | apply signal_keeps | apply setF_keeps | apply KM.seq | (intro))

theorem arithReg_keeps {s0 : State} (op : Nat) (x : FmtXA) : ∀ c, KM s0 ((arithReg op x).body c) := by
  unfold arithReg
  try dsimp only
  with_reducible repeat' (
    first | apply lengthIn_keeps | apply zeroField_keeps | apply modeOf_keeps
             | apply getFV_keeps | apply putF_keeps | apply KM.ret | apply KM.seq | (intro))

theorem arithFinish_keeps {s0 : State} (c : Cx) (op : Nat) (ra : BitVec 4) (k : Nat) (l : List Byte) : KM s0
    (arithFinish c op ra k l) := by
  unfold arithFinish
  try dsimp only
  with_reducible repeat' (
    first | apply getFV_keeps | apply modeOf_keeps | apply putF_keeps | apply KM.seq
             | (intro))

theorem arithMem_keeps {s0 : State} (op : Nat) (x : FmtXB) : ∀ c, KM s0 ((arithMem op x).body c) := by
  unfold arithMem
  try dsimp only
  with_reducible repeat' (
    first | apply lengthIn_keeps | apply zeroField_keeps | apply getBank_keeps
             | apply load_keeps | apply arithFinish_keeps | apply KM.ret | apply KM.seq | (intro) | split)

theorem arithNext_keeps {s0 : State} (op : Nat) (e : Eng) (x : FmtX) (s : State) (hk : Keeps s0 s) : KO s0 (arithNext
    op e x s) := by
  unfold arithNext
  try dsimp only
  with_reducible repeat' (
    first | assumption | apply macroNext_keeps | apply arithReg_keeps
             | apply arithMem_keeps | split)

theorem execFadd_keeps {s0 : State} (e : Eng) (x : FmtX) (s : State) (hk : Keeps s0 s) : KO s0 (execFadd e x s) := by
  unfold execFadd
  try dsimp only
  with_reducible repeat' (
    first | assumption | apply arithNext_keeps)

theorem execFsub_keeps {s0 : State} (e : Eng) (x : FmtX) (s : State) (hk : Keeps s0 s) : KO s0 (execFsub e x s) := by
  unfold execFsub
  try dsimp only
  with_reducible repeat' (
    first | assumption | apply arithNext_keeps)

theorem execFmul_keeps {s0 : State} (e : Eng) (x : FmtX) (s : State) (hk : Keeps s0 s) : KO s0 (execFmul e x s) := by
  unfold execFmul
  try dsimp only
  with_reducible repeat' (
    first | assumption | apply arithNext_keeps)

theorem execFdiv_keeps {s0 : State} (e : Eng) (x : FmtX) (s : State) (hk : Keeps s0 s) : KO s0 (execFdiv e x s) := by
  unfold execFdiv
  try dsimp only
  with_reducible repeat' (
    first | assumption | apply arithNext_keeps)

theorem execFma_keeps {s0 : State} (e : Eng) (x : FmtX) (s : State) (hk : Keeps s0 s) : KO s0 (execFma e x s) := by
  unfold execFma
  try dsimp only
  with_reducible repeat' (
    first | assumption | apply arithNext_keeps)

theorem execFsqrt_keeps {s0 : State} (e : Eng) (x : FmtXA) (s : State) (hk : Keeps s0 s) : KO s0 (execFsqrt e x s) :=
    by
  unfold execFsqrt
  try dsimp only
  with_reducible repeat' (
    first | assumption | apply macroNext_keeps | apply lengthIn_keeps | apply modeOf_keeps
             | apply getFV_keeps | apply putF_keeps | apply KM.ret | apply KM.seq | (intro))

theorem execFcmp_keeps {s0 : State} (e : Eng) (x : FmtXA) (s : State) (hk : Keeps s0 s) : KO s0 (execFcmp e x s) := by
  unfold execFcmp
  try dsimp only
  with_reducible repeat' (
    first | assumption | apply macroNext_keeps | apply lengthIn_keeps | apply getFV_keeps
             | apply signal_keeps | apply setCC_keeps | apply KM.ret | apply KM.seq | (intro))

theorem execFcmpp_keeps {s0 : State} (e : Eng) (x : FmtXA) (s : State) (hk : Keeps s0 s) : KO s0 (execFcmpp e x s) :=
    by
  unfold execFcmpp
  try dsimp only
  with_reducible repeat' (
    first | assumption | apply macroNext_keeps | apply lengthIn_keeps
             | apply zeroField_keeps | apply lowReg_keeps | apply getFV_keeps | apply specification_keeps
             | apply signal_keeps | apply modBank_keeps | apply KM.ret | apply KM.seq | (intro) | split)

theorem execFcvt_keeps {s0 : State} (e : Eng) (x : FmtXA) (s : State) (hk : Keeps s0 s) : KO s0 (execFcvt e x s) := by
  unfold execFcvt
  try dsimp only
  with_reducible repeat' (
    first | assumption | apply macroNext_keeps | apply lengthIn_keeps
             | apply zeroField_keeps | apply modeOf_keeps | apply getFV_keeps | apply putF_keeps | apply KM.ret
             | apply KM.seq | (intro))

theorem execFrnd_keeps {s0 : State} (e : Eng) (x : FmtXA) (s : State) (hk : Keeps s0 s) : KO s0 (execFrnd e x s) := by
  unfold execFrnd
  try dsimp only
  with_reducible repeat' (
    first | assumption | apply macroNext_keeps | apply lengthIn_keeps | apply modeOf_keeps
             | apply getFV_keeps | apply putF_keeps | apply KM.ret | apply KM.seq | (intro))

theorem integerFields_keeps {s0 : State} (x : FmtXA) : KM s0 (integerFields x) := by
  unfold integerFields
  try dsimp only
  with_reducible repeat' (
    first | apply lengthIn_keeps | apply zeroField_keeps | apply KM.seq | (intro))

theorem execFtog_keeps {s0 : State} (e : Eng) (x : FmtXA) (s : State) (hk : Keeps s0 s) : KO s0 (execFtog e x s) := by
  unfold execFtog
  try dsimp only
  with_reducible repeat' (
    first | assumption | apply macroNext_keeps | apply integerFields_keeps
             | apply modeOf_keeps | apply getFV_keeps | apply signal_keeps | apply setG_keeps | apply KM.ret
             | apply KM.seq | (intro))

theorem execGtof_keeps {s0 : State} (e : Eng) (x : FmtXA) (s : State) (hk : Keeps s0 s) : KO s0 (execGtof e x s) := by
  unfold execGtof
  try dsimp only
  with_reducible repeat' (
    first | assumption | apply macroNext_keeps | apply integerFields_keeps
             | apply getG_keeps | apply modeOf_keeps | apply putF_keeps | apply KM.ret | apply KM.seq | (intro))

theorem execFquant_keeps {s0 : State} (e : Eng) (x : FmtXA) (s : State) (hk : Keeps s0 s) : KO s0 (execFquant e x s)
    := by
  unfold execFquant
  try dsimp only
  with_reducible repeat' (
    first | assumption | apply macroNext_keeps | apply lengthIn_keeps
             | apply zeroField_keeps | apply require_keeps | apply modeOf_keeps | apply getFV_keeps | apply putF_keeps
             | apply KM.ret | apply KM.seq | (intro))

theorem fSize_keeps {s0 : State} (x : FmtB) : KM s0 (fSize x) := by
  unfold fSize
  try dsimp only
  with_reducible repeat' (
    first | apply lengthIn_keeps | apply require_keeps | apply KM.ret | apply KM.seq
             | (intro))

theorem execFld_keeps {s0 : State} (e : Eng) (x : FmtB) (s : State) (hk : Keeps s0 s) : KO s0 (execFld e x s) := by
  unfold execFld
  try dsimp only
  with_reducible repeat' (
    first | assumption | apply macroNext_keeps | apply fSize_keeps | apply getBank_keeps
             | apply load_keeps | apply setF_keeps | apply KM.ret | apply KM.seq | (intro) | split)

theorem execFst_keeps {s0 : State} (e : Eng) (x : FmtB) (s : State) (hk : Keeps s0 s) : KO s0 (execFst e x s) := by
  unfold execFst
  try dsimp only
  with_reducible repeat' (
    first | assumption | apply macroNext_keeps | apply fSize_keeps | apply getBank_keeps
             | apply getF_keeps | apply store_keeps | apply KM.ret | apply KM.seq | (intro))

theorem halfFields_keeps {s0 : State} (x : FmtA) : KM s0 (halfFields x) := by
  unfold halfFields
  try dsimp only
  with_reducible repeat' (
    first | apply lengthIn_keeps | apply zeroField_keeps | apply KM.seq | (intro))

theorem execFmvg_keeps {s0 : State} (e : Eng) (x : FmtA) (s : State) (hk : Keeps s0 s) : KO s0 (execFmvg e x s) := by
  unfold execFmvg
  try dsimp only
  with_reducible repeat' (
    first | assumption | apply macroNext_keeps | apply halfFields_keeps | apply getF_keeps
             | apply setG_keeps | apply KM.ret | apply KM.seq | (intro))

theorem execGmvf_keeps {s0 : State} (e : Eng) (x : FmtA) (s : State) (hk : Keeps s0 s) : KO s0 (execGmvf e x s) := by
  unfold execGmvf
  try dsimp only
  with_reducible repeat' (
    first | assumption | apply macroNext_keeps | apply halfFields_keeps | apply getG_keeps
             | apply getF_keeps | apply setF_keeps | apply KM.ret | apply KM.seq | (intro))

theorem execDtf_keeps {s0 : State} (e : Eng) (x : FmtA) (s : State) (hk : Keeps s0 s) : KO s0 (execDtf e x s) := by
  unfold execDtf
  try dsimp only
  with_reducible repeat' (
    first | assumption | apply macroNext_keeps | apply lengthIn_keeps | apply lowReg_keeps
             | apply zeroField_keeps | apply sourceD_keeps | apply getG_keeps | apply modeOf_keeps | apply putF_keeps
             | apply KM.ret | apply KM.seq | (intro))

theorem execFtd_keeps {s0 : State} (e : Eng) (x : FmtA) (s : State) (hk : Keeps s0 s) : KO s0 (execFtd e x s) := by
  unfold execFtd
  try dsimp only
  with_reducible repeat' (
    first | assumption | apply macroNext_keeps | apply lengthIn_keeps | apply lowReg_keeps
             | apply zeroField_keeps | apply getFV_keeps | apply setD_keeps | apply setG_keeps | apply signal_keeps
             | apply KM.ret | apply KM.seq | (intro) | split)

end Sys2Proof.Machine
end

