-- ==== Sys2Proof/Laws/KeepsMicro.lean ====
section
/-! SUPPORT. What every function of Micro keeps. -/

namespace Sys2Proof.Machine

set_option linter.unusedVariables false

theorem underMode_keeps {s0 : State} {α : Type} (c : Cx) (r : MicroRun) (act : M α) (h_act : KM s0 act) :
    KM s0 (underMode c r act) := by
  unfold underMode
  split
  · exact h_act
  · intro s hs
    exact State.modBank_keeps _ _ _ (h_act _ (State.modBank_keeps _ _ _ hs))

theorem bankedPieces_keeps {s0 : State} (c : Cx) (acc : Acc) (mbk : Byte) (a : BitVec 16) (n : Nat) : KM s0
    (bankedPieces c acc mbk a n) := by
  unfold bankedPieces
  try dsimp only
  with_reducible repeat' (
    first | apply getPsw_keeps | apply accessFault_keeps | apply KM.ret | apply KM.readThen
             | apply KM.ite | apply KM.seq | (intro) | split)

theorem lsuOp_keeps {s0 : State} (c : Cx) (k : Nat) (mbk : Byte) (p : UnitPorts) (t : BitVec 256) : KM s0 (lsuOp c k
    mbk p t) := by
  unfold lsuOp
  try dsimp only
  with_reducible repeat' (
    first | apply load_keeps | apply store_keeps | apply State.awaitPosts_keeps
             | apply bankedPieces_keeps | apply readPieces_keeps | apply writePieces_keeps | apply KM.ret
             | apply KM.change | apply KM.seq | (intro) | split)

theorem sendCheck_keeps {s0 : State} (c : Cx) (v : Word) : KM s0 (sendCheck c v) := by
  unfold sendCheck
  try dsimp only
  with_reducible repeat' (
    first | apply getPsw_keeps | apply privileged_keeps | apply KM.ret | apply KM.look
             | apply KM.ite | apply KM.seq | (intro))

theorem moveFault_keeps {s0 : State} (c : Cx) (x : FmtA) (w : Nat × BitVec 256) : KM s0 (moveFault c x w) := by
  unfold moveFault
  try dsimp only
  with_reducible repeat' (
    first | apply sendCheck_keeps | apply specification_keeps | apply KM.ret | apply KM.ite
             | apply KM.seq | (intro) | split)

theorem startUnits_keeps {s0 : State} (c : Cx) (mbk : Byte) (start : Nat) (x1 : List (Nat × BitVec 256)) (x2 :
    MicroRun) : KM s0 (startUnits c mbk start x1 x2) := by
  induction x1 generalizing c mbk start x2 with
  | nil =>
    unfold startUnits
    try dsimp only
    with_reducible repeat' (
      first | assumption | apply underMode_keeps | apply lsuOp_keeps
               | apply State.pendVector_keeps | apply State.drainAll_keeps | exact Keeps.refl _ | apply KM.ret
               | apply KM.change | apply KM.write | apply KM.ite | (intro) | apply Keeps.ite | dsimp only
               | apply Keeps.pending)
  | cons y l ih =>
    unfold startUnits
    try dsimp only
    with_reducible repeat' (
      first | assumption | apply ih | apply underMode_keeps | apply lsuOp_keeps
               | apply State.pendVector_keeps | apply State.drainAll_keeps | apply KM.go | apply KM.readThen
               | apply KM.change | apply KM.write | apply KM.seq | (intro) | split
               | (refine Keeps.update ?_ rfl rfl rfl))

theorem checkMoves_keeps {s0 : State} (c : Cx) (x : FmtA) (x1 : List (Nat × BitVec 256)) : KM s0 (checkMoves c x x1)
    := by
  induction x1 generalizing c x with
  | nil =>
    unfold checkMoves
    try dsimp only
    with_reducible repeat' (
      first | apply moveFault_keeps | exact Keeps.refl _ | apply KM.ret | (intro)
               | apply Keeps.ite)
  | cons y l ih =>
    unfold checkMoves
    try dsimp only
    with_reducible repeat' (
      first | apply ih | apply moveFault_keeps | apply KM.go | apply KM.seq | (intro))

theorem runMoves_keeps {s0 : State} (c : Cx) (r : MicroRun) (nano : BitVec 256) (start : Nat) : KM s0 (runMoves c r
    nano start) := by
  unfold runMoves
  try dsimp only
  with_reducible repeat' (
    first | apply checkMoves_keeps | apply startUnits_keeps | apply State.modEng_keeps
             | apply specification_keeps | apply KM.ret | apply KM.look | apply KM.change | apply KM.seq | (intro)
             | split)

theorem State.applyPending_keeps {s0 : State} (s : State) (c : Cx) (r : MicroRun) (hk : Keeps s0 s) : Keeps s0
    (State.applyPending s c r) := by
  unfold State.applyPending
  try dsimp only
  with_reducible repeat' (
    first | assumption | apply State.modBank_keeps | apply Keeps.foldl | (intro))

theorem State.microCommit_keeps {s0 : State} (s : State) (c : Cx) (r : MicroRun) (resume : BitVec 14) (hk : Keeps s0
    s) : Keeps s0 (State.microCommit s c r resume) := by
  unfold State.microCommit
  try dsimp only
  with_reducible repeat' (
    first | assumption | apply State.modBank_keeps | apply State.applyPending_keeps
             | apply State.modEng_keeps | apply State.tick_keeps | apply State.seal_keeps)

theorem State.microTime_keeps {s0 : State} (s : State) (c : Cx) (n : Nat) (hk : Keeps s0 s) : Keeps s0
    (State.microTime s c n) := by
  unfold State.microTime
  try dsimp only
  with_reducible repeat' (
    first | assumption | apply State.tick_keeps | apply State.cycles_keeps)

theorem State.microTrap_keeps {s0 : State} (s : State) (c : Cx) (t : Trap) (hk : Keeps s0 s) : Keeps s0
    (State.microTrap s c t) := by
  unfold State.microTrap
  try dsimp only
  with_reducible repeat' (
    first | assumption | apply State.takeWindow_keeps | apply State.trappedPoint_keeps
             | apply State.seal_keeps | apply State.modEng_keeps)

theorem State.atMicroPoint_keeps {s0 : State} (s : State) (c : Cx) (hk : Keeps s0 s) : Keeps s0 (State.atMicroPoint s
    c) := by
  unfold State.atMicroPoint
  try dsimp only
  with_reducible repeat' (
    first | assumption | apply State.takeWindow_keeps | apply State.takePostCheck_keeps)

theorem State.endRoutine_keeps {s0 : State} (s : State) (c : Cx) (r : MicroRun) (hk : Keeps s0 s) : Keeps s0
    (State.endRoutine s c r) := by
  unfold State.endRoutine
  try dsimp only
  with_reducible repeat' (
    first | assumption | apply State.seal_keeps | apply State.modEng_keeps
             | apply State.applyPending_keeps | apply State.atMicroPoint_keeps | apply State.complete_keeps)

theorem State.beginWait_keeps {s0 : State} (s : State) (c : Cx) (r : MicroRun) (w : Wait) (hk : Keeps s0 s) : Keeps s0
    (State.beginWait s c r w) := by
  unfold State.beginWait
  try dsimp only
  with_reducible repeat' (
    first | assumption | apply State.modEng_keeps | apply State.atMicroPoint_keeps
             | apply State.microCommit_keeps | apply Keeps.ite)

theorem State.closeWord_keeps {s0 : State} (s : State) (c : Cx) (r : MicroRun) (hk : Keeps s0 s) : Keeps s0
    (State.closeWord s c r) := by
  unfold State.closeWord
  try dsimp only
  with_reducible repeat' (
    first | assumption | apply State.modEng_keeps | apply State.atMicroPoint_keeps
             | apply State.microCommit_keeps | apply State.endRoutine_keeps | apply State.beginWait_keeps
             | apply Keeps.ite | split)

theorem State.parityCheck_keeps {s0 t : State} (s : State) (c : Cx) (r : MicroRun) (w : BitVec 32) (hk : Keeps s0 s)
    (h : s.parityCheck c r w = some t) : Keeps s0 t := by
  unfold State.parityCheck at h
  dsimp only at h
  split at h
  · cases h
  · cases h
    exact State.microTrap_keeps _ _ _ (Keeps.same hk rfl rfl rfl)

theorem State.evop_keeps {s0 : State} (s : State) (c : Cx) (r : MicroRun) (nano : BitVec 256) (hk : Keeps s0 s) :
    Keeps s0 (State.evop s c r nano).1 := by
  unfold State.evop
  try dsimp only
  with_reducible repeat' (
    first | assumption | apply State.modSlot_keeps | split)

theorem State.endOfWord_keeps {s0 : State} (s : State) (c : Cx) (from' : MicroRun) (r : MicroRun) (w : BitVec 32)
    (nano : BitVec 256) (start : Nat) (bubble : Nat) (hk : Keeps s0 s) : Keeps s0 (State.endOfWord s c from' r w nano
    start bubble) := by
  unfold State.endOfWord
  try dsimp only
  with_reducible repeat' (
    first | assumption | apply State.evop_keeps | apply State.closeWord_keeps
             | apply State.microTime_keeps)

theorem State.microStep_keeps {s0 : State} (s : State) (e : Eng) (seq : BitVec 4) (close : Cx →   MicroRun →
    MicroRun → State → BitVec 32 → BitVec 256 → Nat → State) (hk : Keeps s0 s) (h_close : ∀ y0 y1 y2 y3 y4 y5 y6,
    Keeps s0 y3 → Keeps s0 (close y0 y1 y2 y3 y4 y5 y6)) : Keeps s0 (State.microStep s e seq close) := by
  unfold State.microStep
  try dsimp only
  with_reducible repeat' (
    first | assumption | apply h_close
             | (refine State.parityCheck_keeps _ _ _ _ ?_ (by assumption)) | apply runMoves_keeps
             | apply State.microTrap_keeps | apply State.microTime_keeps | (refine Keeps.of_pair (by assumption) ?_)
             | apply KM.run | apply Keeps.ite | split)

theorem State.microRow_keeps {s0 : State} (s : State) (e : Eng) (seq : BitVec 4) (after : MicroRun →   MicroRun →
    Vector Word 32 → BitVec 15 → BitVec 256 → Except Trap Onward) (hk : Keeps s0 s) : Keeps s0 (State.microRow s e seq
    after) := by
  unfold State.microRow
  try dsimp only
  with_reducible repeat' (
    first | assumption | apply State.microStep_keeps | apply State.microTrap_keeps
             | apply State.microTime_keeps | apply State.endOfWord_keeps | apply State.modEng_keeps | (intro) | split)

theorem execNext_keeps {s0 : State} (e : Eng) (s : State) (hk : Keeps s0 s) : KO s0 (execNext e s) := by
  unfold execNext
  try dsimp only
  with_reducible repeat' (
    first | assumption | apply State.microRow_keeps | apply KO.next)

theorem execJump_keeps {s0 : State} (e : Eng) (s : State) (hk : Keeps s0 s) : KO s0 (execJump e s) := by
  unfold execJump
  try dsimp only
  with_reducible repeat' (
    first | assumption | apply State.microRow_keeps | apply KO.next)

theorem execBt_keeps {s0 : State} (e : Eng) (s : State) (hk : Keeps s0 s) : KO s0 (execBt e s) := by
  unfold execBt
  try dsimp only
  with_reducible repeat' (
    first | assumption | apply State.microRow_keeps | apply KO.next)

theorem execBf_keeps {s0 : State} (e : Eng) (s : State) (hk : Keeps s0 s) : KO s0 (execBf e s) := by
  unfold execBf
  try dsimp only
  with_reducible repeat' (
    first | assumption | apply State.microRow_keeps | apply KO.next)

theorem execMicroCall_keeps {s0 : State} (e : Eng) (s : State) (hk : Keeps s0 s) : KO s0 (execMicroCall e s) := by
  unfold execMicroCall
  try dsimp only
  with_reducible repeat' (
    first | assumption | apply State.microRow_keeps | apply KO.next)

theorem execMicroRet_keeps {s0 : State} (e : Eng) (s : State) (hk : Keeps s0 s) : KO s0 (execMicroRet e s) := by
  unfold execMicroRet
  try dsimp only
  with_reducible repeat' (
    first | assumption | apply State.microRow_keeps | apply KO.next)

theorem execDisp_keeps {s0 : State} (e : Eng) (s : State) (hk : Keeps s0 s) : KO s0 (execDisp e s) := by
  unfold execDisp
  try dsimp only
  with_reducible repeat' (
    first | assumption | apply State.microRow_keeps | apply KO.next)

theorem State.microWait_keeps {s0 : State} (s : State) (e : Eng) (seq : BitVec 4) (wait : State → BitVec 15 → Wait)
    (hk : Keeps s0 s) : Keeps s0 (State.microWait s e seq wait) := by
  unfold State.microWait
  try dsimp only
  with_reducible repeat' (
    first | assumption | apply State.microStep_keeps | apply State.closeWord_keeps
             | apply State.microTime_keeps | (intro))

theorem execWaitev_keeps {s0 : State} (e : Eng) (s : State) (hk : Keeps s0 s) : KO s0 (execWaitev e s) := by
  unfold execWaitev
  try dsimp only
  with_reducible repeat' (
    first | assumption | apply State.microWait_keeps | apply KO.next)

theorem execWaittb_keeps {s0 : State} (e : Eng) (s : State) (hk : Keeps s0 s) : KO s0 (execWaittb e s) := by
  unfold execWaittb
  try dsimp only
  with_reducible repeat' (
    first | assumption | apply State.microWait_keeps | apply KO.next)

theorem State.endMicroWait_keeps {s0 : State} (s : State) (e : Eng) (hk : Keeps s0 s) : Keeps s0 (State.endMicroWait s
    e) := by
  unfold State.endMicroWait
  try dsimp only
  with_reducible repeat' (
    first | assumption | apply State.unwait_keeps | apply State.endOfWord_keeps | split)

theorem execWaitevEnd_keeps {s0 : State} (e : Eng) (s : State) (hk : Keeps s0 s) : KO s0 (execWaitevEnd e s) := by
  unfold execWaitevEnd
  try dsimp only
  with_reducible repeat' (
    first | assumption | apply State.modSlot_keeps | apply State.endMicroWait_keeps
             | apply KO.next | apply Keeps.ite | split)

theorem execWaittbEnd_keeps {s0 : State} (e : Eng) (s : State) (hk : Keeps s0 s) : KO s0 (execWaittbEnd e s) := by
  unfold execWaittbEnd
  try dsimp only
  with_reducible repeat' (
    first | assumption | apply State.endMicroWait_keeps | apply KO.next | apply Keeps.ite
             | split)

theorem execEndWord_keeps {s0 : State} (e : Eng) (s : State) (hk : Keeps s0 s) : KO s0 (execEndWord e s) := by
  unfold execEndWord
  try dsimp only
  with_reducible repeat' (
    first | assumption | apply State.microStep_keeps | apply State.evop_keeps
             | apply State.closeWord_keeps | apply State.microTime_keeps | apply KO.next | (intro))

theorem execExc_keeps {s0 : State} (e : Eng) (s : State) (hk : Keeps s0 s) : KO s0 (execExc e s) := by
  unfold execExc
  try dsimp only
  with_reducible repeat' (
    first | assumption | (refine State.parityCheck_keeps _ _ _ _ ?_ (by assumption))
             | apply State.microTrap_keeps | apply State.microTime_keeps | apply KO.next | apply KO.ite | split)

theorem execMicroRunaway_keeps {s0 : State} (e : Eng) (s : State) (hk : Keeps s0 s) : KO s0 (execMicroRunaway e s) :=
    by
  unfold execMicroRunaway
  try dsimp only
  with_reducible repeat' (
    first | assumption | apply State.microTrap_keeps | apply KO.next | apply Keeps.ite
             | split)

theorem execMcall_keeps {s0 : State} (e : Eng) (x : FmtA) (s : State) (hk : Keeps s0 s) : KO s0 (execMcall e x s) :=
    by
  unfold execMcall
  try dsimp only
  with_reducible repeat' (
    first | assumption | apply macroNext_keeps | apply lengthIn_keeps | apply getBank_keeps
             | apply require_keeps | apply State.modEng_keeps | apply State.cycles_keeps | apply State.tick_keeps
             | apply KM.ret | apply KM.trap | apply KM.look | apply KM.change | apply KM.ite | apply KM.seq | (intro)
             | (refine Keeps.update ?_ rfl rfl rfl))

end Sys2Proof.Machine
end

