-- ==== Sys2Proof/Laws/KeepsHostIf.lean ====
section
/-! SUPPORT. What every function of HostIf keeps. -/

namespace Sys2Proof.Machine

set_option linter.unusedVariables false

theorem State.aerLog_keeps {s0 : State} (s : State) (fn : Nat) (error : Nat) (hk : Keeps s0 s) : Keeps s0
    (State.aerLog s fn error) := by
  unfold State.aerLog
  try dsimp only
  with_reducible repeat' (
    first | assumption | apply State.modFn_keeps | apply State.setReg_keeps
             | (refine Keeps.update ?_ rfl rfl rfl))

theorem State.issueMore_keeps {s0 : State} (s : State) (hk : Keeps s0 s) : Keeps s0 (State.issueMore s) := by
  unfold State.issueMore
  try dsimp only
  with_reducible repeat' (
    first | assumption | apply State.issueLoad_keeps | apply State.startCopy_keeps
             | apply Keeps.foldl | (intro))

theorem State.requestFailed_keeps {s0 : State} (s : State) (fn : Nat) (outcome : Nat) (hk : Keeps s0 s) : Keeps s0
    (State.requestFailed s fn outcome) := by
  unfold State.requestFailed
  try dsimp only
  with_reducible repeat' (
    first | assumption | apply State.countErr_keeps | apply State.aerLog_keeps | split)

theorem finishLoad_keeps {s0 : State} (c : Cx) (d : LoadDest) (l : List Byte) : KM s0 (finishLoad c d l) := by
  unfold finishLoad
  try dsimp only
  with_reducible repeat' (
    first | apply setG_keeps | apply setF_keeps | apply mvsResume_keeps
             | apply arithFinish_keeps | apply blockFinish_keeps | apply KM.ret | apply KM.seq | (intro) | split)

theorem State.finishLsu_keeps {s0 : State} (s : State) (e : Eng) (n : Fin 8) (l : List Byte) (hk : Keeps s0 s) : Keeps
    s0 (State.finishLsu s e n l) := by
  unfold State.finishLsu
  try dsimp only
  with_reducible repeat' (
    first | assumption | apply State.unwait_keeps | apply State.closeWord_keeps | split)

theorem State.hostWait_keeps {s0 : State} (s : State) (e : Eng) (h : HostLoad) (hk : Keeps s0 s) : Keeps s0
    (State.hostWait s e h) := by
  unfold State.hostWait
  try dsimp only
  with_reducible repeat' (
    first | assumption | apply State.waitTerm_keeps)

theorem State.loadEnds_keeps {s0 : State} (s : State) (e : Eng) (n : Fin 8) (h : HostLoad) (l : List Byte) (hk : Keeps
    s0 s) : Keeps s0 (State.loadEnds s e n h l) := by
  unfold State.loadEnds
  try dsimp only
  with_reducible repeat' (
    first | assumption | apply State.hostWait_keeps | apply State.finishLsu_keeps
             | apply State.tick_keeps | apply State.unwait_keeps | apply State.takeWindow_keeps
             | apply State.finishWork_keeps | apply finishLoad_keeps | apply KM.run | split)

theorem State.loadData_keeps {s0 : State} (s : State) (e : Eng) (n : Fin 8) (h : HostLoad) (l : List Byte) (hk : Keeps
    s0 s) : Keeps s0 (State.loadData s e n h l) := by
  unfold State.loadData
  try dsimp only
  with_reducible repeat' (
    first | assumption | apply State.loadEnds_keeps | apply State.issueLoad_keeps
             | apply State.modEng_keeps | apply Keeps.ite)

theorem State.loadPoisoned_keeps {s0 : State} (s : State) (e : Eng) (n : Fin 8) (h : HostLoad) (hk : Keeps s0 s) :
    Keeps s0 (State.loadPoisoned s e n h) := by
  unfold State.loadPoisoned
  try dsimp only
  with_reducible repeat' (
    first | assumption | apply State.microTrap_keeps | apply State.hostWait_keeps)

theorem State.loadFails_keeps {s0 : State} (s : State) (e : Eng) (n : Fin 8) (h : HostLoad) (outcome : Nat) (hk :
    Keeps s0 s) : Keeps s0 (State.loadFails s e n h outcome) := by
  unfold State.loadFails
  try dsimp only
  with_reducible repeat' (
    first | assumption | apply State.loadEnds_keeps | apply State.hostRecord_keeps
             | apply State.requestFailed_keeps)

theorem execPcieCompletion_keeps {s0 : State} (e : Eng) (result : Completion) (s : State) (hk : Keeps s0 s) : KO s0
    (execPcieCompletion e result s) := by
  unfold execPcieCompletion
  try dsimp only
  with_reducible repeat' (
    first | assumption | apply State.issueMore_keeps | apply State.settle_keeps
             | apply State.loadData_keeps | apply State.loadFails_keeps | apply State.loadPoisoned_keeps
             | apply State.hostRecord_keeps | apply State.requestFailed_keeps | apply KO.next | apply KO.ite
             | apply Keeps.ite | split)

theorem State.copyFailed_keeps {s0 : State} (s : State) (qid : Nat) (r : SqRead) (outcome : Nat) (hk : Keeps s0 s) :
    Keeps s0 (State.copyFailed s qid r outcome) := by
  unfold State.copyFailed
  try dsimp only
  with_reducible repeat' (
    first | assumption | apply State.queueError_keeps | apply State.hostRecord_keeps
             | apply State.requestFailed_keeps)

theorem State.copyLands_keeps {s0 : State} (s : State) (id : Nat) (k : Nat) (r : SqRead) (l : List Byte) (hk : Keeps
    s0 s) : Keeps s0 (State.copyLands s id k r l) := by
  unfold State.copyLands
  try dsimp only
  with_reducible repeat' (
    first | assumption | apply State.landEntries_keeps | apply State.queueError_keeps
             | apply State.countMove_keeps | apply State.modQueue_keeps | apply State.queueEvent_keeps
             | (refine Keeps.of_pair (by assumption) ?_) | apply Keeps.ite | split)

theorem execSqCopyCompletion_keeps {s0 : State} (qid : BitVec 16) (k : Nat) (result : Completion) (s : State) (hk :
    Keeps s0 s) : KO s0 (execSqCopyCompletion qid k result s) := by
  unfold execSqCopyCompletion
  try dsimp only
  with_reducible repeat' (
    first | assumption | apply State.issueMore_keeps | apply State.settle_keeps
             | apply State.copyFailed_keeps | apply State.copyLands_keeps | apply KO.next | apply KO.ite
             | apply Keeps.ite | split)

theorem execHifCompletionTimeout_keeps {s0 : State} (r : HostReq) (s : State) (hk : Keeps s0 s) : KO s0
    (execHifCompletionTimeout r s) := by
  unfold execHifCompletionTimeout
  try dsimp only
  with_reducible repeat' (
    first | assumption | apply State.issueMore_keeps | apply State.settle_keeps
             | apply State.loadFails_keeps | apply State.copyFailed_keeps | apply KO.next | apply Keeps.ite | split)

theorem execMsixPendingSend_keeps {s0 : State} (fn : BitVec 8) (vec : Fin 8) (s : State) (hk : Keeps s0 s) : KO s0
    (execMsixPendingSend fn vec s) := by
  unfold execMsixPendingSend
  try dsimp only
  with_reducible repeat' (
    first | assumption | apply State.msixSend_keeps | apply State.modFn_keeps
             | apply KO.next | apply KO.ite)

theorem execFunctionLevelReset_keeps {s0 : State} (fn : BitVec 8) (s : State) (hk : Keeps s0 s) : KO s0
    (execFunctionLevelReset fn s) := by
  unfold execFunctionLevelReset
  try dsimp only
  with_reducible repeat' (
    first | assumption | apply State.countErr_keeps | apply State.send_keeps
             | apply State.fire_keeps | apply State.modFn_keeps | apply State.settle_keeps
             | apply State.startQuiesce_keeps | apply State.setFlrActive_keeps | apply State.finishFlr_keeps
             | apply KO.next | apply KO.ite | split)

theorem State.configure_keeps {s0 : State} (s : State) (w : CfgWrite) (hk : Keeps s0 s) : Keeps s0 (State.configure s
    w) := by
  unfold State.configure
  try dsimp only
  with_reducible repeat' (
    first | assumption | apply State.modFn_keeps | apply Keeps.ite | split
             | (refine Keeps.update ?_ rfl rfl rfl))

theorem execPcieConfigurationWrite_keeps {s0 : State} (w : CfgWrite) (s : State) (hk : Keeps s0 s) : KO s0
    (execPcieConfigurationWrite w s) := by
  unfold execPcieConfigurationWrite
  try dsimp only
  with_reducible repeat' (
    first | assumption | apply State.configure_keeps | apply State.startCopies_keeps
             | apply Keeps.foldl | apply KO.next | apply KO.ite)

end Sys2Proof.Machine
end

