-- ==== Sys2Proof/Laws/KeepsLink.lean ====
section
/-! SUPPORT. What every function of Link keeps. -/

namespace Sys2Proof.Machine

set_option linter.unusedVariables false

theorem State.nlkSat_keeps {s0 : State} (s : State) (r : RingId) (o : Nat) (lo : Nat) (w : Nat) (ovf : Nat) (n : Nat)
    (hk : Keeps s0 s) : Keeps s0 (State.nlkSat s r o lo w ovf n) := by
  unfold State.nlkSat
  try dsimp only
  with_reducible repeat' (
    first | assumption | apply State.setReg_keeps)

theorem State.nlkWrap_keeps {s0 : State} (s : State) (r : RingId) (o : Nat) (lo : Nat) (hk : Keeps s0 s) : Keeps s0
    (State.nlkWrap s r o lo) := by
  unfold State.nlkWrap
  try dsimp only
  with_reducible repeat' (
    first | assumption | apply State.setReg_keeps)

theorem State.ringStatus_keeps {s0 : State} (s : State) (r : RingId) (hk : Keeps s0 s) : Keeps s0 (State.ringStatus s
    r) := by
  unfold State.ringStatus
  try dsimp only
  with_reducible repeat' (
    first | assumption | apply State.fire_keeps)

theorem State.passEnded_keeps {s0 : State} (s : State) (qid : Nat) (hk : Keeps s0 s) : Keeps s0 (State.passEnded s
    qid) := by
  unfold State.passEnded
  try dsimp only
  with_reducible repeat' (
    first | assumption | apply State.modQueue_keeps | apply State.queueEvent_keeps
             | apply Keeps.foldl | (intro))

theorem State.endEntry_keeps {s0 : State} (s : State) (qid : Nat) (index : BitVec 16) (status : Nat) (stamp : BitVec
    32) (hk : Keeps s0 s) : Keeps s0 (State.endEntry s qid index status stamp) := by
  unfold State.endEntry
  try dsimp only
  with_reducible repeat' (
    first | assumption | apply State.moveWrites_keeps | apply State.queueError_keeps
             | apply State.passEnded_keeps | apply State.modQueue_keeps | (refine Keeps.of_pair (by assumption) ?_)
             | apply Keeps.ite | split)

theorem State.endRequest_keeps {s0 : State} (s : State) (g : Nat) (c : Nat) (xid : BitVec 16) (hk : Keeps s0 s) :
    Keeps s0 (State.endRequest s g c xid) := by
  unfold State.endRequest
  try dsimp only
  with_reducible repeat' (
    first | assumption | apply State.modPair_keeps | apply Keeps.ite | split)

theorem State.endFrame_keeps {s0 : State} (s : State) (r : RingId) (a : Nat) (f : OutFrame) (status : Nat) (hk : Keeps
    s0 s) : Keeps s0 (State.endFrame s r a f status) := by
  unfold State.endFrame
  try dsimp only
  with_reducible repeat' (
    first | assumption | apply State.endEntry_keeps | apply State.endRequest_keeps
             | apply Keeps.ite)

theorem State.failLink_keeps {s0 : State} (s : State) (r : RingId) (a : Nat) (hk : Keeps s0 s) : Keeps s0
    (State.failLink s r a) := by
  unfold State.failLink
  try dsimp only
  with_reducible repeat' (
    first | assumption | apply State.modRing_keeps | apply State.nlkSat_keeps
             | apply State.endFrame_keeps | apply Keeps.foldl | (intro))

theorem State.resetLinks_keeps {s0 : State} (s : State) (r : RingId) (a : Nat) (hk : Keeps s0 s) : Keeps s0
    (State.resetLinks s r a) := by
  unfold State.resetLinks
  try dsimp only
  with_reducible repeat' (
    first | assumption | apply State.modRing_keeps | apply State.failLink_keeps)

theorem State.dropStation_keeps {s0 : State} (s : State) (r : RingId) (a : Nat) (st : BitVec 2) (hk : Keeps s0 s) :
    Keeps s0 (State.dropStation s r a st) := by
  unfold State.dropStation
  try dsimp only
  with_reducible repeat' (
    first | assumption | apply State.endEntry_keeps | apply State.modRing_keeps
             | apply State.ringStatus_keeps | apply Keeps.foldl | (intro) | apply Keeps.ite)

theorem State.leaveStations_keeps {s0 : State} (s : State) (r : RingId) (hk : Keeps s0 s) : Keeps s0
    (State.leaveStations s r) := by
  unfold State.leaveStations
  try dsimp only
  with_reducible repeat' (
    first | assumption | apply State.failLink_keeps | apply State.modRing_keeps
             | apply State.ringStatus_keeps | apply Keeps.foldl | (intro) | apply Keeps.ite)

end Sys2Proof.Machine
end

