-- ==== Sys2Proof/Laws/KeepsLine.lean ====
section
/-! SUPPORT. What every function of Line keeps. -/

namespace Sys2Proof.Machine

set_option linter.unusedVariables false

theorem State.receive_keeps {s0 : State} (s : State) (r : RingId) (side : Side) (groups : List (BitVec 10)) (hk :
    Keeps s0 s) : Keeps s0 (State.receive s r side groups).1 := by
  unfold State.receive
  try dsimp only
  with_reducible repeat' (
    first | assumption | apply State.modRing_keeps | apply State.nlkSat_keeps
             | apply Keeps.ite | (refine Keeps.update ?_ rfl rfl rfl))

theorem State.drive_keeps {s0 : State} (s : State) (r : RingId) (side : Side) (l : List LineChar) (hk : Keeps s0 s) :
    Keeps s0 (State.drive s r side l) := by
  unfold State.drive
  try dsimp only
  with_reducible repeat' (
    first | assumption | apply State.send_keeps | apply State.modRing_keeps)

theorem State.emit_keeps {s0 : State} (s : State) (r : RingId) (dir : Dir) (l : List LineChar) (hk : Keeps s0 s) :
    Keeps s0 (State.emit s r dir l) := by
  unfold State.emit
  try dsimp only
  with_reducible repeat' (
    first | assumption | apply State.drive_keeps | apply State.modRing_keeps
             | apply Keeps.ite)

theorem State.forward_keeps {s0 : State} (s : State) (r : RingId) (dir : Dir) (t : Received) (hk : Keeps s0 s) : Keeps
    s0 (State.forward s r dir t) := by
  unfold State.forward
  try dsimp only
  with_reducible repeat' (
    first | assumption | apply State.emit_keeps | split)

theorem State.tickPort_keeps {s0 : State} (s : State) (r : RingId) (side : Side) (hk : Keeps s0 s) : Keeps s0
    (State.tickPort s r side) := by
  unfold State.tickPort
  try dsimp only
  with_reducible repeat' (
    first | assumption | apply State.modRing_keeps | apply State.drive_keeps
             | apply Keeps.ite | split)

end Sys2Proof.Machine
end

