-- ==== Sys2Proof/Laws/KeepsRing.lean ====
section
/-! SUPPORT. What every function of Ring keeps. -/

namespace Sys2Proof.Machine

set_option linter.unusedVariables false

theorem State.ringPin_keeps {s0 : State} (s : State) (r : RingId) (low : Bool) (hk : Keeps s0 s) : Keeps s0
    (State.ringPin s r low) := by
  unfold State.ringPin
  try dsimp only
  with_reducible repeat' (
    first | assumption | (refine Keeps.update ?_ rfl rfl rfl))

theorem State.leaveRing_keeps {s0 : State} (s : State) (r : RingId) (st : RingState) (hk : Keeps s0 s) : Keeps s0
    (State.leaveRing s r st) := by
  unfold State.leaveRing
  try dsimp only
  with_reducible repeat' (
    first | assumption | apply State.modRing_keeps | apply State.ringPin_keeps
             | apply State.leaveStations_keeps)

theorem State.holderChange_keeps {s0 : State} (s : State) (r : RingId) (hk : Keeps s0 s) : Keeps s0
    (State.holderChange s r) := by
  unfold State.holderChange
  try dsimp only
  with_reducible repeat' (
    first | assumption | apply State.ringStatus_keeps | apply State.nlkSat_keeps)

theorem State.takeBeacon_keeps {s0 : State} (s : State) (r : RingId) (hk : Keeps s0 s) : Keeps s0 (State.takeBeacon s
    r) := by
  unfold State.takeBeacon
  try dsimp only
  with_reducible repeat' (
    first | assumption | apply State.holderChange_keeps | apply State.modRing_keeps)

theorem State.yieldBeacon_keeps {s0 : State} (s : State) (r : RingId) (hk : Keeps s0 s) : Keeps s0 (State.yieldBeacon
    s r) := by
  unfold State.yieldBeacon
  try dsimp only
  with_reducible repeat' (
    first | assumption | apply State.holderChange_keeps | apply State.modRing_keeps
             | apply State.leaveStations_keeps)

theorem State.adoptPlan_keeps {s0 : State} (s : State) (hk : Keeps s0 s) : Keeps s0 (State.adoptPlan s) := by
  unfold State.adoptPlan
  try dsimp only
  with_reducible repeat' (
    first | assumption | split | (refine Keeps.update ?_ rfl rfl rfl))

theorem State.handoffStep_keeps {s0 : State} (s : State) (r : RingId) (hk : Keeps s0 s) : Keeps s0 (State.handoffStep
    s r) := by
  unfold State.handoffStep
  try dsimp only
  with_reducible repeat' (
    first | assumption | apply State.modRing_keeps | apply State.yieldBeacon_keeps
             | apply State.leaveRing_keeps | split)

theorem State.planAnnounce_keeps {s0 : State} (s : State) (hk : Keeps s0 s) : Keeps s0 (State.planAnnounce s) := by
  unfold State.planAnnounce
  try dsimp only
  with_reducible repeat' (
    first | assumption | apply Keeps.ite | split | (refine Keeps.update ?_ rfl rfl rfl))

theorem State.cycleStart_keeps {s0 : State} (s : State) (r : RingId) (hk : Keeps s0 s) : Keeps s0 (State.cycleStart s
    r) := by
  unfold State.cycleStart
  try dsimp only
  with_reducible repeat' (
    first | assumption | apply State.modRing_keeps | apply State.planAnnounce_keeps
             | apply State.takeBeacon_keeps | apply State.handoffStep_keeps | apply State.adoptPlan_keeps
             | apply Keeps.ite | (refine Keeps.update ?_ rfl rfl rfl))

theorem State.sendBeacon_keeps {s0 : State} (s : State) (r : RingId) (measured : Option (BitVec 16)) (hk : Keeps s0 s) :
    Keeps s0 (State.sendBeacon s r measured) := by
  unfold State.sendBeacon
  try dsimp only
  with_reducible repeat' (
    first | assumption | apply State.modRing_keeps | apply State.emit_keeps
             | apply Keeps.foldl | (intro))

theorem execBeaconSend_keeps {s0 : State} (r : RingId) (measured : Option (BitVec 16)) (s : State) (hk : Keeps s0 s) :
    KO s0 (execBeaconSend r measured s) := by
  unfold execBeaconSend
  try dsimp only
  with_reducible repeat' (
    first | assumption | apply State.cycleStart_keeps | apply State.sendBeacon_keeps
             | apply KO.next | apply KO.ite | apply Keeps.ite)

theorem State.noteWrp_keeps {s0 : State} (s : State) (r : RingId) (wrp : Bool) (hk : Keeps s0 s) : Keeps s0
    (State.noteWrp s r wrp) := by
  unfold State.noteWrp
  try dsimp only
  with_reducible repeat' (
    first | assumption | apply State.modRing_keeps | apply State.ringStatus_keeps
             | apply Keeps.ite)

theorem State.followBeacon_keeps {s0 : State} (s : State) (r : RingId) (dir : Dir) (id : OrderedSet) (b : Beacon) (rt
    : BitVec 15) (hk : Keeps s0 s) : Keeps s0 (State.followBeacon s r dir id b rt) := by
  unfold State.followBeacon
  try dsimp only
  with_reducible repeat' (
    first | assumption | apply State.noteWrp_keeps | apply State.modRing_keeps
             | apply State.emit_keeps | apply Keeps.ite)

theorem State.duel_keeps {s0 : State} (s : State) (r : RingId) (hk : Keeps s0 s) : Keeps s0 (State.duel s r) := by
  unfold State.duel
  try dsimp only
  with_reducible repeat' (
    first | assumption | apply State.nlkSat_keeps)

theorem State.otherBeacon_keeps {s0 : State} (s : State) (r : RingId) (dir : Dir) (id : OrderedSet) (b : Beacon) (rt :
    BitVec 15) (hk : Keeps s0 s) : Keeps s0 (State.otherBeacon s r dir id b rt) := by
  unfold State.otherBeacon
  try dsimp only
  with_reducible repeat' (
    first | assumption | apply State.followBeacon_keeps | apply State.yieldBeacon_keeps
             | apply State.duel_keeps | apply Keeps.ite)

theorem State.ownBeacon_keeps {s0 : State} (s : State) (r : RingId) (b : Beacon) (hk : Keeps s0 s) :
    Keeps s0 (State.ownBeacon s r b) := by
  unfold State.ownBeacon
  try dsimp only
  with_reducible repeat' (
    first | assumption | apply State.noteWrp_keeps | apply State.modRing_keeps)

theorem State.takeArrival_keeps {s0 : State} (s : State) (r : RingId) (dir : Dir) (id : OrderedSet) (body : Option
    Beacon) (rt : BitVec 15) (hk : Keeps s0 s) : Keeps s0 (State.takeArrival s r dir id body rt) := by
  unfold State.takeArrival
  try dsimp only
  with_reducible repeat' (
    first | assumption | apply State.duel_keeps | apply State.ownBeacon_keeps
             | apply State.cycleStart_keeps | apply State.otherBeacon_keeps | apply Keeps.ite | split)

theorem execBeaconReceive_keeps {s0 : State} (r : RingId) (dir : Dir) (groups : List (BitVec 10)) (rt : BitVec 15) (s
    : State) (hk : Keeps s0 s) : KO s0 (execBeaconReceive r dir groups rt s) := by
  unfold execBeaconReceive
  try dsimp only
  with_reducible repeat' (
    first | assumption | apply State.receive_keeps | apply State.takeArrival_keeps
             | apply KO.next | split)

theorem execBeaconMissing_keeps {s0 : State} (r : RingId) (s : State) (hk : Keeps s0 s) : KO s0 (execBeaconMissing r
    s) := by
  unfold execBeaconMissing
  try dsimp only
  with_reducible repeat' (
    first | assumption | apply State.modRing_keeps | apply KO.next | apply KO.ite)

theorem execSideFailure_keeps {s0 : State} (r : RingId) (side : Side) (cause : SideCause) (s : State) (hk : Keeps s0
    s) : KO s0 (execSideFailure r side cause s) := by
  unfold execSideFailure
  try dsimp only
  with_reducible repeat' (
    first | assumption | apply State.send_keeps | apply State.modRing_keeps
             | apply State.nlkSat_keeps | apply KO.next | apply KO.ite | split)

theorem execSideRecovery_keeps {s0 : State} (r : RingId) (side : Side) (s : State) (hk : Keeps s0 s) : KO s0
    (execSideRecovery r side s) := by
  unfold execSideRecovery
  try dsimp only
  with_reducible repeat' (
    first | assumption | apply State.send_keeps | apply State.modRing_keeps | apply KO.next
             | apply KO.ite)

theorem execWrap_keeps {s0 : State} (r : RingId) (side : Side) (s : State) (hk : Keeps s0 s) : KO s0 (execWrap r side
    s) := by
  unfold execWrap
  try dsimp only
  with_reducible repeat' (
    first | assumption | apply State.ringStatus_keeps | apply State.nlkSat_keeps
             | apply State.modRing_keeps | apply KO.next | apply KO.ite)

theorem execUnwrap_keeps {s0 : State} (r : RingId) (side : Side) (s : State) (hk : Keeps s0 s) : KO s0 (execUnwrap r
    side s) := by
  unfold execUnwrap
  try dsimp only
  with_reducible repeat' (
    first | assumption | apply State.ringStatus_keeps | apply State.modRing_keeps
             | apply KO.next | apply KO.ite)

theorem execScheduleSwitch_keeps {s0 : State} (r : RingId) (s : State) (hk : Keeps s0 s) : KO s0 (execScheduleSwitch r
    s) := by
  unfold execScheduleSwitch
  try dsimp only
  with_reducible repeat' (
    first | assumption | apply State.cycleStart_keeps | apply KO.next | apply KO.ite)

end Sys2Proof.Machine
end

