-- ==== Sys2Proof/Laws/KeepsMessage.lean ====
section
/-! SUPPORT. What every function of Message keeps. -/

namespace Sys2Proof.Machine

set_option linter.unusedVariables false

theorem State.iqWrite_keeps {s0 : State} (s : State) (qid : Nat) (desc : List Byte) (payload : List Byte) (hk : Keeps
    s0 s) : Keeps s0 (State.iqWrite s qid desc payload).2 := by
  unfold State.iqWrite
  try dsimp only
  with_reducible repeat' (
    first | assumption | apply State.moveWrite_keeps | apply State.moveRead_keeps
             | apply State.moveWrites_keeps | (refine Keeps.of_pair (by assumption) ?_) | apply Keeps.ite_snd | split)

theorem State.deliverIq_keeps {s0 : State} (s : State) (r : RingId) (qid : Nat) (g : Nat) (c : Nat) (typ : Nat)
    (payload : List Byte) (hk : Keeps s0 s) : Keeps s0 (State.deliverIq s r qid g c typ payload).1 := by
  unfold State.deliverIq
  try dsimp only
  with_reducible repeat' (
    first | assumption | apply State.nlkSat_keeps | apply State.iqWrite_keeps
             | apply State.queueError_keeps | apply State.queueEvent_keeps | apply State.modQueue_keeps
             | apply State.count_keeps | apply State.countMove_keeps | (refine Keeps.of_pair (by assumption) ?_)
             | split)

theorem State.reload_keeps {s0 : State} (s : State) (r : RingId) (a : Nat) (t : Bool) (hk : Keeps s0 s) : Keeps s0
    (State.reload s r a t) := by
  unfold State.reload
  try dsimp only
  with_reducible repeat' (
    first | assumption | apply State.modRing_keeps | apply State.dropStation_keeps
             | apply Keeps.ite | split)

theorem State.join_keeps {s0 : State} (s : State) (r : RingId) (a : Nat) (vmin : Byte) (vmax : Byte) (hk : Keeps s0 s)
    : Keeps s0 (State.join s r a vmin vmax) := by
  unfold State.join
  try dsimp only
  with_reducible repeat' (
    first | assumption | apply State.resetLinks_keeps | apply State.modRing_keeps
             | apply State.ringStatus_keeps | apply State.dropStation_keeps | apply State.setReg_keeps
             | apply Keeps.ite)

theorem State.tblok_keeps {s0 : State} (s : State) (r : RingId) (a : Nat) (t : Bool) (crc : BitVec 16) (hk : Keeps s0
    s) : Keeps s0 (State.tblok s r a t crc) := by
  unfold State.tblok
  try dsimp only
  with_reducible repeat' (
    first | assumption | apply State.modRing_keeps | apply State.ringStatus_keeps
             | apply Keeps.ite)

theorem State.manage_keeps {s0 : State} (s : State) (r : RingId) (a : Nat) (l : List Byte) (hk : Keeps s0 s) : Keeps
    s0 (State.manage s r a l) := by
  unfold State.manage
  try dsimp only
  with_reducible repeat' (
    first | assumption | apply State.join_keeps | apply State.tblok_keeps
             | apply State.reload_keeps | apply State.dropStation_keeps | split)

theorem execMinislotSend_keeps {s0 : State} (r : RingId) (k : Fin 10) (s : State) (hk : Keeps s0 s) : KO s0
    (execMinislotSend r k s) := by
  unfold execMinislotSend
  try dsimp only
  with_reducible repeat' (
    first | assumption | apply State.modRing_keeps | apply State.emit_keeps | apply KO.next
             | split)

theorem State.loseMinislot_keeps {s0 : State} (s : State) (r : RingId) (hk : Keeps s0 s) : Keeps s0
    (State.loseMinislot s r) := by
  unfold State.loseMinislot
  try dsimp only
  with_reducible repeat' (
    first | assumption | apply State.nlkSat_keeps | apply State.modRing_keeps)

theorem State.urgent_keeps {s0 : State} (s : State) (r : RingId) (l : List Byte) (hk : Keeps s0 s) : Keeps s0
    (State.urgent s r l) := by
  unfold State.urgent
  try dsimp only
  with_reducible repeat' (
    first | assumption | apply State.nlkSat_keeps | apply State.nlkWrap_keeps
             | apply State.fire_keeps | apply State.manage_keeps | apply State.deliverIq_keeps | apply Keeps.ite
             | split)

theorem State.takeMinislot_keeps {s0 : State} (s : State) (r : RingId) (bytes : List Byte) (hk : Keeps s0 s) : Keeps
    s0 (State.takeMinislot s r bytes) := by
  unfold State.takeMinislot
  try dsimp only
  with_reducible repeat' (
    first | assumption | apply State.loseMinislot_keeps | apply State.modRing_keeps
             | apply State.urgent_keeps | apply Keeps.foldl | (intro) | apply Keeps.ite)

theorem execMinislotReturn_keeps {s0 : State} (r : RingId) (groups : List (BitVec 10)) (s : State) (hk : Keeps s0 s) :
    KO s0 (execMinislotReturn r groups s) := by
  unfold execMinislotReturn
  try dsimp only
  with_reducible repeat' (
    first | assumption | apply State.receive_keeps | apply State.forward_keeps
             | apply State.takeMinislot_keeps | apply KO.next | apply KO.ite)

theorem execMinislotLost_keeps {s0 : State} (r : RingId) (s : State) (hk : Keeps s0 s) : KO s0 (execMinislotLost r s)
    := by
  unfold execMinislotLost
  try dsimp only
  with_reducible repeat' (
    first | assumption | apply State.loseMinislot_keeps | apply KO.next | apply KO.ite)

theorem execTableExtractResend_keeps {s0 : State} (r : RingId) (a : BitVec 6) (s : State) (hk : Keeps s0 s) : KO s0
    (execTableExtractResend r a s) := by
  unfold execTableExtractResend
  try dsimp only
  with_reducible repeat' (
    first | assumption | apply State.reload_keeps | apply KO.next | split)

theorem execStationLost_keeps {s0 : State} (r : RingId) (a : BitVec 6) (s : State) (hk : Keeps s0 s) : KO s0
    (execStationLost r a s) := by
  unfold execStationLost
  try dsimp only
  with_reducible repeat' (
    first | assumption | apply State.dropStation_keeps | apply KO.next | apply KO.ite)

theorem State.recordHeader_keeps {s0 : State} (s : State) (r : RingId) (l : List Byte) (why : BitVec 8) (hk : Keeps s0
    s) : Keeps s0 (State.recordHeader s r l why) := by
  unfold State.recordHeader
  try dsimp only
  with_reducible repeat' (
    first | assumption | apply State.setReg_keeps)

theorem State.applyAck_keeps {s0 : State} (s : State) (r : RingId) (a : Nat) (h : Header) (hk : Keeps s0 s) : Keeps s0
    (State.applyAck s r a h) := by
  unfold State.applyAck
  try dsimp only
  with_reducible repeat' (
    first | assumption | apply State.modRing_keeps | apply State.endEntry_keeps
             | apply State.modPair_keeps | apply Keeps.foldl | (intro) | apply Keeps.ite)

theorem State.noMap_keeps {s0 : State} (s : State) (r : RingId) (l : List Byte) (hk : Keeps s0 s) : Keeps s0
    (State.noMap s r l) := by
  unfold State.noMap
  try dsimp only
  with_reducible repeat' (
    first | assumption | apply State.recordHeader_keeps | apply State.nlkSat_keeps)

theorem State.deliverFrame_keeps {s0 : State} (s : State) (r : RingId) (h : Header) (l : List Byte) (payload : List
    Byte) (hk : Keeps s0 s) : Keeps s0 (State.deliverFrame s r h l payload) := by
  unfold State.deliverFrame
  try dsimp only
  with_reducible repeat' (
    first | assumption | apply State.modPair_keeps | apply State.noMap_keeps
             | apply State.deliverIq_keeps | apply State.endRequest_keeps | apply State.nlkSat_keeps | apply Keeps.ite
             | split)

theorem State.takeConsuming_keeps {s0 : State} (s : State) (r : RingId) (h : Header) (l : List Byte) (payload : List
    Byte) (hk : Keeps s0 s) : Keeps s0 (State.takeConsuming s r h l payload) := by
  unfold State.takeConsuming
  try dsimp only
  with_reducible repeat' (
    first | assumption | apply State.modRing_keeps | apply State.deliverFrame_keeps
             | apply State.nlkWrap_keeps | apply State.nlkSat_keeps | split)

theorem State.takeFrame_keeps {s0 : State} (s : State) (r : RingId) (l : List Byte) (codeError : Bool) (hk : Keeps s0
    s) : Keeps s0 (State.takeFrame s r l codeError) := by
  unfold State.takeFrame
  try dsimp only
  with_reducible repeat' (
    first | assumption | apply State.recordHeader_keeps | apply State.nlkSat_keeps
             | apply State.applyAck_keeps | apply State.takeConsuming_keeps | apply Keeps.ite | split
             | (refine Keeps.update ?_ rfl rfl rfl))

theorem State.standbyFrame_keeps {s0 : State} (s : State) (r : RingId) (l : List Byte) (codeError : Bool) (hk : Keeps
    s0 s) : Keeps s0 (State.standbyFrame s r l codeError) := by
  unfold State.standbyFrame
  try dsimp only
  with_reducible repeat' (
    first | assumption | apply State.modRing_keeps | apply Keeps.ite)

theorem State.takeArrived_keeps {s0 : State} (s : State) (r : RingId) (dir : Dir) (t : Received) (hk : Keeps s0 s) :
    Keeps s0 (State.takeArrived s r dir t) := by
  unfold State.takeArrived
  try dsimp only
  with_reducible repeat' (
    first | assumption | apply State.takeFrame_keeps | apply State.standbyFrame_keeps
             | apply State.forward_keeps | apply Keeps.ite)

theorem execFrameReceive_keeps {s0 : State} (r : RingId) (dir : Dir) (groups : List (BitVec 10)) (s : State) (hk :
    Keeps s0 s) : KO s0 (execFrameReceive r dir groups s) := by
  unfold execFrameReceive
  try dsimp only
  with_reducible repeat' (
    first | assumption | apply State.receive_keeps | apply State.takeArrived_keeps
             | apply KO.next | apply KO.ite)

theorem State.skipSlot_keeps {s0 : State} (s : State) (r : RingId) (hk : Keeps s0 s) : Keeps s0 (State.skipSlot s r)
    := by
  unfold State.skipSlot
  try dsimp only
  with_reducible repeat' (
    first | assumption | apply State.nlkSat_keeps)

theorem State.sendFrame_keeps {s0 : State} (s : State) (r : RingId) (u : SlotUse) (a : Nat) (cls : Nat) (typ : Nat)
    (rsyn : Bool) (seq : Nat) (rtx : Bool) (xid : Nat) (payload : List Byte) (hk : Keeps s0 s) : Keeps s0
    (State.sendFrame s r u a cls typ rsyn seq rtx xid payload) := by
  unfold State.sendFrame
  try dsimp only
  with_reducible repeat' (
    first | assumption | apply State.modRing_keeps | apply State.emit_keeps
             | apply Keeps.ite)

theorem State.sendAgain_keeps {s0 : State} (s : State) (r : RingId) (a : Nat) (u : SlotUse) (f : OutFrame) (hk : Keeps
    s0 s) : Keeps s0 (State.sendAgain s r a u f) := by
  unfold State.sendAgain
  try dsimp only
  with_reducible repeat' (
    first | assumption | apply State.modRing_keeps | apply State.nlkSat_keeps
             | apply State.sendFrame_keeps)

theorem State.nextEntry_keeps {s0 : State} (s : State) (r : RingId) (a : Nat) (c : Nat) (qid : Nat) (x1 : Nat) (hk :
    Keeps s0 s) : Keeps s0 (State.nextEntry s r a c qid x1).1 := by
  induction x1 generalizing s r a c qid hk with
  | zero =>
    unfold State.nextEntry
    try dsimp only
    with_reducible repeat' (
      first | assumption | apply State.moveRead_keeps | apply State.queueError_keeps
               | apply State.endEntry_keeps | exact Keeps.refl _ | (refine Keeps.of_pair' (by assumption) ?_) | split
               | dsimp only)
  | succ n ih =>
    unfold State.nextEntry
    try dsimp only
    with_reducible repeat' (
      first | assumption | apply ih | apply State.moveRead_keeps
               | apply State.queueError_keeps | apply State.endEntry_keeps | (refine Keeps.of_pair (by assumption) ?_)
               | apply Keeps.ite_fst | split)

theorem State.candidates_keeps {s0 : State} (s : State) (r : RingId) (a : Nat) (e : SlotEntry) (hk : Keeps s0 s) :
    Keeps s0 (State.candidates s r a e).1 := by
  unfold State.candidates
  try dsimp only
  with_reducible repeat' (
    first | assumption | apply State.nextEntry_keeps | apply Keeps.foldl_fst | (intro))

theorem State.sendEntry_keeps {s0 : State} (s : State) (r : RingId) (a : Nat) (u : SlotUse) (x : Ready) (hk : Keeps s0
    s) : Keeps s0 (State.sendEntry s r a u x) := by
  unfold State.sendEntry
  try dsimp only
  with_reducible repeat' (
    first | assumption | apply State.moveRead_keeps | apply State.queueError_keeps
             | apply State.modRing_keeps | apply State.modQueue_keeps | apply State.modPair_keeps
             | apply State.countMove_keeps | apply State.count_keeps | apply State.nlkWrap_keeps
             | apply State.sendFrame_keeps | (refine Keeps.of_pair (by assumption) ?_) | split)

theorem State.inTime_keeps {s0 : State} (s : State) (r : RingId) (u : SlotUse) (n : Nat) (go : State → State) (hk :
    Keeps s0 s) (h_go : ∀ y0, Keeps s0 y0 → Keeps s0 (go y0)) : Keeps s0 (State.inTime s r u n go) := by
  unfold State.inTime
  try dsimp only
  with_reducible repeat' (
    first | assumption | apply h_go | apply State.skipSlot_keeps | apply Keeps.ite)

theorem State.sendStandby_keeps {s0 : State} (s : State) (r : RingId) (u : SlotUse) (hk : Keeps s0 s) : Keeps s0
    (State.sendStandby s r u) := by
  unfold State.sendStandby
  try dsimp only
  with_reducible repeat' (
    first | assumption | apply State.inTime_keeps | apply State.modRing_keeps
             | apply State.sendFrame_keeps | (intro) | split)

theorem State.sendOther_keeps {s0 : State} (s : State) (r : RingId) (a : Nat) (u : SlotUse) (hk : Keeps s0 s) : Keeps
    s0 (State.sendOther s r a u) := by
  unfold State.sendOther
  try dsimp only
  with_reducible repeat' (
    first | assumption | apply State.inTime_keeps | apply State.sendFrame_keeps
             | apply State.modRing_keeps | apply State.sendStandby_keeps | (intro) | apply Keeps.ite | split)

theorem State.useSlot_keeps {s0 : State} (s : State) (r : RingId) (a : Nat) (u : SlotUse) (hk : Keeps s0 s) : Keeps s0
    (State.useSlot s r a u) := by
  unfold State.useSlot
  try dsimp only
  with_reducible repeat' (
    first | assumption | apply State.inTime_keeps | apply State.sendAgain_keeps
             | apply State.candidates_keeps | apply State.sendEntry_keeps | apply State.sendOther_keeps | (intro)
             | split)

theorem State.startSlot_keeps {s0 : State} (s : State) (r : RingId) (e : SlotEntry) (start : Word) (hk : Keeps s0 s) :
    Keeps s0 (State.startSlot s r e start) := by
  unfold State.startSlot
  try dsimp only
  with_reducible repeat' (
    first | assumption | apply State.useSlot_keeps)

theorem execDataSlot_keeps {s0 : State} (r : RingId) (slot : Nat) (s : State) (hk : Keeps s0 s) : KO s0 (execDataSlot
    r slot s) := by
  unfold execDataSlot
  try dsimp only
  with_reducible repeat' (
    first | assumption | apply State.modRing_keeps | apply State.startSlot_keeps
             | apply State.skipSlot_keeps | apply KO.next | apply KO.ite | apply Keeps.ite | split)

theorem State.tickSlot_keeps {s0 : State} (s : State) (r : RingId) (side : Side) (hk : Keeps s0 s) : Keeps s0
    (State.tickSlot s r side) := by
  unfold State.tickSlot
  try dsimp only
  with_reducible repeat' (
    first | assumption | apply State.modRing_keeps | apply State.startSlot_keeps | split)

theorem execAcknowledgementWaitExpiry_keeps {s0 : State} (r : RingId) (a : BitVec 6) (s : State) (hk : Keeps s0 s) :
    KO s0 (execAcknowledgementWaitExpiry r a s) := by
  unfold execAcknowledgementWaitExpiry
  try dsimp only
  with_reducible repeat' (
    first | assumption | apply State.failLink_keeps | apply State.modRing_keeps
             | apply KO.next | apply KO.ite | split)

theorem State.entryTimeout_keeps {s0 : State} (s : State) (r : RingId) (a : Nat) (oq : BitVec 16) (index : BitVec 16)
    (hk : Keeps s0 s) : Keeps s0 (State.entryTimeout s r a oq index) := by
  unfold State.entryTimeout
  try dsimp only
  with_reducible repeat' (
    first | assumption | apply State.nlkSat_keeps | apply State.endEntry_keeps
             | apply State.modRing_keeps | apply State.endFrame_keeps | apply Keeps.ite | split)

theorem State.requestTimeout_keeps {s0 : State} (s : State) (r : RingId) (a : Nat) (c : Nat) (hk : Keeps s0 s) : Keeps
    s0 (State.requestTimeout s r a c) := by
  unfold State.requestTimeout
  try dsimp only
  with_reducible repeat' (
    first | assumption | apply State.modPair_keeps | apply State.nlkSat_keeps
             | apply State.deliverIq_keeps | apply Keeps.ite | split)

theorem execTransactionTimeout_keeps {s0 : State} (t : TimerOf) (s : State) (hk : Keeps s0 s) : KO s0
    (execTransactionTimeout t s) := by
  unfold execTransactionTimeout
  try dsimp only
  with_reducible repeat' (
    first | assumption | apply State.entryTimeout_keeps | apply State.requestTimeout_keeps
             | apply KO.next | apply KO.ite | split)

end Sys2Proof.Machine
end

