-- ==== Sys2Proof/Laws/KeepsKeeper.lean ====
section
/-! SUPPORT. What every function of Keeper keeps. -/

namespace Sys2Proof.Machine

set_option linter.unusedVariables false

@[simp] theorem after_look {α : Type} (f : State → α) (s : State) : after (look f) s = (.ok (f s), s) := rfl

@[simp] theorem after_alter (f : State → State) (s : State) : after (alter f) s = (.ok (), f s) := rfl

theorem after_check (ok : Bool) (f : Failure) (s : State) :
    after (check ok f) s = if ok then (.ok (), s) else (.error f, s) := by
  cases ok <;> rfl

theorem after_demand (ok : Bool) (pos : Nat) (s : State) :
    after (demand ok pos) s = if ok then (.ok (), s) else (.error (failAt badParam pos), s) := after_check _ _ _

theorem after_permit (ok : Bool) (s : State) :
    after (permit ok) s = if ok then (.ok (), s) else (.error (fail wrongState), s) := after_check _ _ _

theorem State.takeUp_keeps {s0 t : State} (s : State) (x : Submitted) (hk : Keeps s0 s) (h : s.takeUp = some (t, x)) :
    Keeps s0 t := by
  unfold State.takeUp at h
  split at h
  · cases h
  · cases h
    exact Keeps.same hk rfl rfl rfl

theorem State.smbusExec_keeps {s0 : State} (s : State) (hk : Keeps s0 s) : Keeps s0 (State.smbusExec s).1 := by
  unfold State.smbusExec
  try dsimp only
  with_reducible repeat' (
    first | assumption | apply State.count_keeps | (refine Keeps.update ?_ rfl rfl rfl))

theorem State.accept_keeps {s0 t : State} (s : State) (via : Via) (x : Submitted) (hk : Keeps s0 s)
    (h : s.accept via = some (t, x)) : Keeps s0 t := by
  unfold State.accept at h
  split at h
  · cases h
  · split at h
    · exact State.takeUp_keeps _ _ hk h
    · split at h
      · cases h
      · exact State.takeUp_keeps _ _ (State.goWrite_keeps _ hk) h
    · split at h
      · cases h
      · cases h
        exact State.smbusExec_keeps _ hk

theorem look_keeps {s0 : State} {α : Type} (f : State → α) : KM s0 (look (α := α) f) := by
  unfold look
  try dsimp only
  with_reducible repeat' (
    first | apply KM.ret | apply KM.readThen | (intro))

theorem alter_keeps {s0 : State} (f : State → State) (h_f : ∀ y0, Keeps s0 y0 → Keeps s0 (f y0)) : KM s0 (alter f) :=
    by
  unfold alter
  try dsimp only
  with_reducible repeat' (
    first | assumption | apply KM.change)

theorem check_keeps {s0 : State} (ok : Bool) (f : Failure) : KM s0 (check ok f) := by
  unfold check
  try dsimp only
  with_reducible repeat' (
    first | apply KM.ret | apply KM.trap | apply KM.ite)

theorem demand_keeps {s0 : State} (ok : Bool) (pos : Nat) : KM s0 (demand ok pos) := by
  unfold demand
  try dsimp only
  with_reducible repeat' (
    first | apply check_keeps)

theorem permit_keeps {s0 : State} (ok : Bool) : KM s0 (permit ok) := by
  unfold permit
  try dsimp only
  with_reducible repeat' (
    first | apply check_keeps)

theorem journal_keeps {s0 : State} (step : Nat) (prog : Nat) : KM s0 (journal step prog) := by
  unfold journal
  try dsimp only
  with_reducible repeat' (
    first | assumption | apply alter_keeps | (intro) | (refine Keeps.update ?_ rfl rfl rfl))

theorem State.openJournal_keeps {s0 : State} (s : State) (opcode : Nat) (params : List Byte) (hk : Keeps s0 s) : Keeps
    s0 (State.openJournal s opcode params) := by
  unfold State.openJournal
  try dsimp only
  with_reducible repeat' (
    first | assumption | (refine Keeps.update ?_ rfl rfl rfl))

theorem State.runs_keeps {s0 : State} (s : State) (x : Submitted) (opened : Bool) (status : Nat) (reply : List Byte)
    (hk : Keeps s0 s) : Keeps s0 (State.runs s x opened status reply) := by
  unfold State.runs
  try dsimp only
  with_reducible repeat' (
    first | assumption | (refine Keeps.update ?_ rfl rfl rfl))

theorem State.failsWith_keeps {s0 : State} (s : State) (x : Submitted) (f : Failure) (hk : Keeps s0 s) : Keeps s0
    (State.failsWith s x f) := by
  unfold State.failsWith
  try dsimp only
  with_reducible repeat' (
    first | assumption | apply State.runs_keeps)

theorem State.journalOf_keeps {s0 : State} (s : State) (old : State) (hk : Keeps s0 s) (hk_old : Keeps s0 old) : Keeps
    s0 (State.journalOf s old) := by
  unfold State.journalOf
  try dsimp only
  with_reducible repeat' (
    first | assumption | (refine Keeps.update ?_ rfl rfl rfl))

theorem State.serve_keeps {s0 : State} (s : State) (x : Submitted) (work : List Byte → K (Nat × List Byte)) (hk :
    Keeps s0 s) (h_work : ∀ y0, KM s0 (work y0)) : Keeps s0 (State.serve s x work) := by
  unfold State.serve
  try dsimp only
  with_reducible repeat' (
    first | assumption | apply h_work | apply State.failsWith_keeps
             | apply State.openJournal_keeps | apply State.runs_keeps | apply State.journalOf_keeps
             | (refine Keeps.of_pair (by assumption) ?_) | apply KM.go | apply Keeps.ite | split)

theorem State.keeperRow_keeps {s0 : State} (s : State) (via : Via) (opcode : Nat) (mine : List Byte → Bool) (work :
    List Byte → K (Nat × List Byte)) (hk : Keeps s0 s) (h_work : ∀ y0, KM s0 (work y0)) : Keeps s0 (State.keeperRow s
    via opcode mine work) := by
  unfold State.keeperRow
  try dsimp only
  with_reducible repeat' (
    first | assumption | (refine State.accept_keeps _ _ _ ?_ (by assumption))
             | apply State.serve_keeps | apply Keeps.ite | split)

theorem keeperNext_keeps {s0 : State} (via : Via) (opcode : Nat) (work : List Byte → K (List Byte)) (s : State)
    (h_work : ∀ y0, KM s0 (work y0)) (hk : Keeps s0 s) : KO s0 (keeperNext via opcode work s) := by
  unfold keeperNext
  try dsimp only
  with_reducible repeat' (
    first | assumption | apply h_work | apply State.keeperRow_keeps | apply KM.ret
             | apply KM.seq | apply KO.next | (intro))

theorem State.keeperRecord_keeps {s0 : State} (s : State) (line : Nat) (hk : Keeps s0 s) : Keeps s0
    (State.keeperRecord s line) := by
  unfold State.keeperRecord
  try dsimp only
  with_reducible repeat' (
    first | assumption | apply State.record_keeps)

theorem readKey_keeps {s0 : State} (pa : Nat) (pos : Nat) : KM s0 (readKey pa pos) := by
  unfold readKey
  try dsimp only
  with_reducible repeat' (
    first | apply alter_keeps | apply State.keyRead_keeps | apply look_keeps
             | apply State.keeperRecord_keeps | apply KM.trap | apply KM.ite | apply KM.seq | (intro))

theorem execMalformedCommand_keeps {s0 : State} (via : Via) (s : State) (hk : Keeps s0 s) : KO s0
    (execMalformedCommand via s) := by
  unfold execMalformedCommand
  try dsimp only
  with_reducible repeat' (
    first | assumption | (refine State.accept_keeps _ _ _ ?_ (by assumption))
             | apply State.failsWith_keeps | apply KO.next | split)

theorem execSubmissionWhileBusy_keeps {s0 : State} (via : Via) (s : State) (hk : Keeps s0 s) : KO s0
    (execSubmissionWhileBusy via s) := by
  unfold execSubmissionWhileBusy
  try dsimp only
  with_reducible repeat' (
    first | assumption | apply State.countErr_keeps | apply KO.next | apply KO.ite)

theorem State.smbusTransaction_keeps {s0 : State} (s : State) (pecOk : Bool) (f : State → State) (hk : Keeps s0 s)
    (h_f : ∀ y0, Keeps s0 y0 → Keeps s0 (f y0)) : Keeps s0 (State.smbusTransaction s pecOk f) := by
  unfold State.smbusTransaction
  try dsimp only
  with_reducible repeat' (
    first | assumption | apply h_f | apply State.count_keeps | apply State.countErr_keeps
             | apply Keeps.ite)

theorem State.smbAlert_keeps {s0 : State} (s : State) (low : Bool) (hk : Keeps s0 s) : Keeps s0 (State.smbAlert s low)
    := by
  unfold State.smbAlert
  try dsimp only
  with_reducible repeat' (
    first | assumption | (refine Keeps.update ?_ rfl rfl rfl))

theorem execSmbusBlockWrite_keeps {s0 : State} (bytes : List Byte) (pecOk : Bool) (s : State) (hk : Keeps s0 s) : KO
    s0 (execSmbusBlockWrite bytes pecOk s) := by
  unfold execSmbusBlockWrite
  try dsimp only
  with_reducible repeat' (
    first | assumption | apply State.smbusTransaction_keeps | apply KO.next | (intro)
             | (refine Keeps.update ?_ rfl rfl rfl))

theorem execSmbusBlockRead_keeps {s0 : State} (count : Nat) (pecOk : Bool) (s : State) (hk : Keeps s0 s) : KO s0
    (execSmbusBlockRead count pecOk s) := by
  unfold execSmbusBlockRead
  try dsimp only
  with_reducible repeat' (
    first | assumption | apply State.smbusTransaction_keeps | apply State.send_keeps
             | apply State.smbAlert_keeps | apply KO.next | (intro) | (refine Keeps.update ?_ rfl rfl rfl))

theorem execSmbusBufferReset_keeps {s0 : State} (pecOk : Bool) (s : State) (hk : Keeps s0 s) : KO s0
    (execSmbusBufferReset pecOk s) := by
  unfold execSmbusBufferReset
  try dsimp only
  with_reducible repeat' (
    first | assumption | apply State.smbusTransaction_keeps | apply KO.next | (intro)
             | (refine Keeps.update ?_ rfl rfl rfl))

theorem execSmbusAlertResponse_keeps {s0 : State} (s : State) (hk : Keeps s0 s) : KO s0 (execSmbusAlertResponse s) :=
    by
  unfold execSmbusAlertResponse
  try dsimp only
  with_reducible repeat' (
    first | assumption | apply State.smbAlert_keeps | apply KO.next)

theorem State.deliverReply_keeps {s0 : State} (s : State) (r : Running) (hk : Keeps s0 s) : Keeps s0
    (State.deliverReply s r) := by
  unfold State.deliverReply
  try dsimp only
  with_reducible repeat' (
    first | assumption | apply State.smbAlert_keeps | apply State.msix_keeps
             | apply Keeps.ite | (refine Keeps.update ?_ rfl rfl rfl))

theorem State.closePort_keeps {s0 : State} (s : State) (r : Running) (hk : Keeps s0 s) : Keeps s0 (State.closePort s
    r) := by
  unfold State.closePort
  try dsimp only
  with_reducible repeat' (
    first | assumption | split | (refine Keeps.update ?_ rfl rfl rfl))

theorem State.endCommand_keeps {s0 : State} (s : State) (r : Running) (hk : Keeps s0 s) : Keeps s0 (State.endCommand s
    r) := by
  unfold State.endCommand
  try dsimp only
  with_reducible repeat' (
    first | assumption | apply State.fire_keeps | apply State.deliverReply_keeps
             | apply State.closePort_keeps)

end Sys2Proof.Machine
end

