-- ==== Sys2Proof/Laws/KeepsKeeperInfo.lean ====
section
/-! SUPPORT. What every function of KeeperInfo keeps. -/

namespace Sys2Proof.Machine

set_option linter.unusedVariables false

theorem execIdentify_keeps {s0 : State} (via : Via) (s : State) (hk : Keeps s0 s) : KO s0 (execIdentify via s) := by
  unfold execIdentify
  try dsimp only
  with_reducible repeat' (
    first | assumption | apply keeperNext_keeps | apply look_keeps | apply alter_keeps
             | apply KM.ret | apply KM.seq | (intro) | (refine Keeps.update ?_ rfl rfl rfl))

theorem execStatus_keeps {s0 : State} (via : Via) (s : State) (hk : Keeps s0 s) : KO s0 (execStatus via s) := by
  unfold execStatus
  try dsimp only
  with_reducible repeat' (
    first | assumption | apply State.keeperRow_keeps | apply look_keeps | apply KM.ret
             | apply KM.seq | apply KO.next | (intro))

theorem execVersions_keeps {s0 : State} (via : Via) (s : State) (hk : Keeps s0 s) : KO s0 (execVersions via s) := by
  unfold execVersions
  try dsimp only
  with_reducible repeat' (
    first | assumption | apply keeperNext_keeps | apply look_keeps | (intro))

theorem execLogRead_keeps {s0 : State} (via : Via) (s : State) (hk : Keeps s0 s) : KO s0 (execLogRead via s) := by
  unfold execLogRead
  try dsimp only
  with_reducible repeat' (
    first | assumption | apply keeperNext_keeps | apply demand_keeps | apply look_keeps
             | apply KM.ret | apply KM.seq | (intro))

theorem execScrubSet_keeps {s0 : State} (via : Via) (s : State) (hk : Keeps s0 s) : KO s0 (execScrubSet via s) := by
  unfold execScrubSet
  try dsimp only
  with_reducible repeat' (
    first | assumption | apply keeperNext_keeps | apply demand_keeps | apply alter_keeps
             | apply State.modDmc_keeps | apply Keeps.foldl | apply KM.ret | apply KM.seq | (intro))

theorem execFuseRead_keeps {s0 : State} (via : Via) (s : State) (hk : Keeps s0 s) : KO s0 (execFuseRead via s) := by
  unfold execFuseRead
  try dsimp only
  with_reducible repeat' (
    first | assumption | apply keeperNext_keeps | apply look_keeps | (intro))

theorem permitThen_keeps {s0 : State} {β : Type} {g : State → Bool} {f : PUnit → K β}
    (h : ∀ s, Keeps s0 s → g s = true → Keeps s0 (after (f ⟨⟩) s).2) :
    KM s0 (look g >>= fun b => permit b >>= f) := by
  intro s hs
  rw [after_bind, after_look]
  dsimp only
  rw [after_bind, after_permit]
  cases hg : g s
  · exact hs
  · exact h s hs hg

theorem execKeyEnroll_keeps {s0 : State} (via : Via) (s : State) (hk : Keeps s0 s) : KO s0 (execKeyEnroll via s) := by
  unfold execKeyEnroll
  refine keeperNext_keeps _ _ _ _ (fun p => ?_) hk
  refine KM.seq (demand_keeps _ _) fun _ => permitThen_keeps fun u hu hen => ?_
  rw [after_bind, after_demand]
  cases (keyPoint (p.take 96)).isSome
  · exact hu
  · simp only [if_true]
    rw [after_bind, after_look]
    dsimp only
    rw [after_bind, after_check]
    generalize (u.nv.custHash == 0 || _ : Bool) = ok
    cases ok
    · exact hu
    · refine ⟨hu.pending, ⟨hu.nv.1, fun he => ?_⟩, hu.mem⟩
      have := (hu.nv.2 he).1
      simp [this] at hen

end Sys2Proof.Machine
end

