-- ==== Sys2Proof/Laws/KeepsKeeperImages.lean ====
section
/-! SUPPORT. What every function of KeeperImages keeps. -/

namespace Sys2Proof.Machine

set_option linter.unusedVariables false

theorem NonVolatile.program_kept {a v : NonVolatile} (off size : Nat) (l : List Byte) (h : FusesKept a v) :
    FusesKept a (v.program off size l) := h

theorem NonVolatile.selectOther_kept {a v : NonVolatile} (kind : Nat) (h : FusesKept a v) :
    FusesKept a (v.selectOther kind) := h

theorem State.loadCustomer_keeps {s0 : State} (s : State) (i : Image) (hk : Keeps s0 s) : Keeps s0 (State.loadCustomer
    s i) := by
  unfold State.loadCustomer
  try dsimp only
  with_reducible repeat' (
    first | assumption | apply State.modEngines_keeps)

theorem State.loadPlan_keeps {s0 : State} (s : State) (i : Image) (hk : Keeps s0 s) : Keeps s0 (State.loadPlan s i) :=
    by
  unfold State.loadPlan
  try dsimp only
  with_reducible repeat' (
    first | assumption | apply State.adoptPlan_keeps | (refine Keeps.update ?_ rfl rfl rfl))

theorem State.putInForce_keeps {s0 : State} (s : State) (kind : Nat) (i : Image) (hk : Keeps s0 s) : Keeps s0
    (State.putInForce s kind i) := by
  unfold State.putInForce
  try dsimp only
  with_reducible repeat' (
    first | assumption | apply State.loadCustomer_keeps | apply State.loadPlan_keeps
             | apply Keeps.ite | (refine Keeps.update ?_ rfl rfl rfl))

theorem State.putHeld_keeps {s0 : State} (s : State) (kind : Nat) (i : Option Image) (hk : Keeps s0 s) : Keeps s0
    (State.putHeld s kind i) := by
  unfold State.putHeld
  try dsimp only
  with_reducible repeat' (
    first | assumption | (refine Keeps.update ?_ rfl rfl rfl))

theorem State.keeperReads_keeps {s0 : State} (s : State) (addr : Nat) (n : Nat) (hk : Keeps s0 s) : Keeps s0
    (State.keeperReads s addr n) := by
  unfold State.keeperReads
  try dsimp only
  with_reducible repeat' (
    first | assumption | apply State.send_keeps | apply State.count_keeps
             | apply Keeps.foldl | (intro))

theorem hostImage_keeps {s0 : State} (addr : Nat) (n : Nat) (host : KeeperRead) : KM s0 (hostImage addr n host) := by
  unfold hostImage
  try dsimp only
  with_reducible repeat' (
    first | assumption | apply alter_keeps | apply State.hostRecord_keeps
             | apply State.requestFailed_keeps | apply look_keeps | apply State.keeperReads_keeps | apply KM.ret
             | apply KM.trap | apply KM.ite | apply KM.seq | (intro) | apply Keeps.ite | split)

theorem imageBytes_keeps {s0 : State} (kind : Nat) (source : Nat) (addr : Nat) (n : Nat) (host : KeeperRead) : KM s0
    (imageBytes kind source addr n host) := by
  unfold imageBytes
  try dsimp only
  with_reducible repeat' (
    first | apply hostImage_keeps | apply look_keeps | apply KM.ite)

theorem execImageLoad_keeps {s0 : State} (via : Via) (host : KeeperRead) (s : State) (hk : Keeps s0 s) : KO s0
    (execImageLoad via host s) := by
  unfold execImageLoad
  try dsimp only
  with_reducible repeat' (
    first | assumption | apply State.keeperRow_keeps | apply demand_keeps
             | apply look_keeps | apply check_keeps | apply permit_keeps | apply imageBytes_keeps | apply alter_keeps
             | apply State.putHeld_keeps | apply State.putInForce_keeps | apply KM.ret | apply KM.trap | apply KM.seq
             | apply KO.next | (intro) | apply Keeps.ite | split)

theorem execImageVerify_keeps {s0 : State} (via : Via) (s : State) (hk : Keeps s0 s) : KO s0 (execImageVerify via s)
    := by
  unfold execImageVerify
  try dsimp only
  with_reducible repeat' (
    first | assumption | apply keeperNext_keeps | apply demand_keeps | apply look_keeps
             | apply KM.seq | (intro))

theorem State.programSlot_keeps {s0 : State} (s : State) (kind : Nat) (l : List Byte) (ok : Bool) (hk : Keeps s0 s) :
    Keeps s0 (State.programSlot s kind l ok) := by
  unfold State.programSlot
  try dsimp only
  with_reducible repeat' (
    first | assumption | apply NonVolatile.program_kept | (intro) | apply Keeps.ite
             | apply Keeps.pending | apply Keeps.nv | apply Keeps.mem | apply Keeps.fields)

theorem execImageCommit_keeps {s0 : State} (via : Via) (programmed : Bool) (s : State) (hk : Keeps s0 s) : KO s0
    (execImageCommit via programmed s) := by
  unfold execImageCommit
  try dsimp only
  with_reducible repeat' (
    first | assumption | apply keeperNext_keeps | apply demand_keeps | apply look_keeps
             | apply alter_keeps | apply State.programSlot_keeps | apply journal_keeps | apply check_keeps
             | apply KM.ret | apply KM.trap | apply KM.seq | (intro) | split)

theorem State.startReload_keeps {s0 : State} (s : State) (cs : CStore) (hk : Keeps s0 s) : Keeps s0 (State.startReload
    s cs) := by
  unfold State.startReload
  try dsimp only
  with_reducible repeat' (
    first | assumption | apply State.modEng_keeps | apply State.takeWindow_keeps
             | apply Keeps.foldl | (intro) | (refine Keeps.update ?_ rfl rfl rfl))

theorem State.endReload_keeps {s0 : State} (s : State) (hk : Keeps s0 s) : Keeps s0 (State.endReload s) := by
  unfold State.endReload
  try dsimp only
  with_reducible repeat' (
    first | assumption | apply State.putHeld_keeps | split
             | (refine Keeps.update ?_ rfl rfl rfl))

theorem execCstoreReload_keeps {s0 : State} (via : Via) (s : State) (hk : Keeps s0 s) : KO s0 (execCstoreReload via s)
    := by
  unfold execCstoreReload
  try dsimp only
  with_reducible repeat' (
    first | assumption | apply keeperNext_keeps | apply look_keeps | apply permit_keeps
             | apply alter_keeps | apply State.startReload_keeps | apply KM.ret | apply KM.trap | apply KM.seq
             | (intro) | split)

end Sys2Proof.Machine
end

