-- ==== Sys2Proof/Laws/KeepsKeeperDomains.lean ====
section
/-! SUPPORT. What every function of KeeperDomains keeps. -/

namespace Sys2Proof.Machine

set_option linter.unusedVariables false

theorem Memory.zeroDram_wf {m : Memory} (h : m.wf = true) : m.zeroDram.wf = true :=
  Memory.wf_mk (twf_tdrop _ (Memory.wf_bytes h)) (twf_tdrop _ (Memory.wf_keys h)) (twf_tdrop _ (Memory.wf_poison h))
    twf_nil (Memory.wf_errs h) twf_nil

theorem queueFrame_keeps {s0 : State} (d : Nat) (f : Nat) : KM s0 (queueFrame d f) := by
  unfold queueFrame
  try dsimp only
  with_reducible repeat' (
    first | apply look_keeps | apply demand_keeps | apply readKey_keeps | apply KM.seq
             | (intro))

theorem State.createDomain_keeps {s0 : State} (s : State) (a : CreateArgs) (hk : Keeps s0 s) : Keeps s0
    (State.createDomain s a) := by
  unfold State.createDomain
  try dsimp only
  with_reducible repeat' (
    first | assumption | apply State.tlbDrop_keeps | apply State.modDom_keeps
             | apply State.clearBtb_keeps | apply State.newSecret_keeps | apply State.modSlot_keeps
             | apply State.modBank_keeps | apply State.dropQueues_keeps | apply State.setDomState_keeps
             | apply Keeps.foldl | (intro) | apply Keeps.ite)

theorem execDomainCreate_keeps {s0 : State} (via : Via) (s : State) (hk : Keeps s0 s) : KO s0 (execDomainCreate via s)
    := by
  unfold execDomainCreate
  try dsimp only
  with_reducible repeat' (
    first | assumption | apply keeperNext_keeps | apply look_keeps | apply permit_keeps
             | apply demand_keeps | apply queueFrame_keeps | apply alter_keeps | apply State.createDomain_keeps
             | apply KM.ret | apply KM.trap | apply KM.each | apply KM.seq | (intro) | split)

theorem tenant_keeps {s0 : State} (p : List Byte) : KM s0 (tenant p) := by
  unfold tenant
  try dsimp only
  with_reducible repeat' (
    first | apply demand_keeps | apply KM.ret | apply KM.seq | (intro))

theorem State.quiesceDomain_keeps {s0 : State} (s : State) (d : Nat) (hk : Keeps s0 s) : Keeps s0 (State.quiesceDomain
    s d) := by
  unfold State.quiesceDomain
  try dsimp only
  with_reducible repeat' (
    first | assumption | apply State.startQuiesce_keeps | apply Keeps.ite)

theorem State.settleAfter_keeps {s0 : State} (s s' : State) (hk : Keeps s0 s') : Keeps s0 (s.settleAfter s') := by
  unfold State.settleAfter
  split
  · exact State.settle_keeps _ _ hk
  · exact hk

theorem execDomainQuiesce_keeps {s0 : State} (via : Via) (s : State) (hk : Keeps s0 s) : KO s0 (execDomainQuiesce via
    s) := by
  unfold execDomainQuiesce
  try dsimp only
  with_reducible repeat' (
    first | assumption | apply State.settleAfter_keeps | apply State.keeperRow_keeps
             | apply tenant_keeps | apply demand_keeps | apply look_keeps | apply permit_keeps | apply alter_keeps
             | apply State.quiesceDomain_keeps | apply KM.ret | apply KM.seq | apply KO.next | (intro))

theorem State.resumeDomain_keeps {s0 : State} (s : State) (d : Nat) (hk : Keeps s0 s) : Keeps s0 (State.resumeDomain s
    d) := by
  unfold State.resumeDomain
  try dsimp only
  with_reducible repeat' (
    first | assumption | apply State.modSlot_keeps | apply State.startCopies_keeps
             | apply State.setDomState_keeps | apply State.modDom_keeps | apply Keeps.foldl | (intro))

theorem execDomainResume_keeps {s0 : State} (via : Via) (s : State) (hk : Keeps s0 s) : KO s0 (execDomainResume via s)
    := by
  unfold execDomainResume
  try dsimp only
  with_reducible repeat' (
    first | assumption | apply State.keeperRow_keeps | apply tenant_keeps
             | apply demand_keeps | apply look_keeps | apply permit_keeps | apply alter_keeps
             | apply State.resumeDomain_keeps | apply KM.ret | apply KM.seq | apply KO.next | (intro))

theorem execDomainDestroy_keeps {s0 : State} (via : Via) (s : State) (hk : Keeps s0 s) : KO s0 (execDomainDestroy via
    s) := by
  unfold execDomainDestroy
  try dsimp only
  with_reducible repeat' (
    first | assumption | apply State.settleAfter_keeps | apply State.keeperRow_keeps
             | apply tenant_keeps | apply look_keeps | apply permit_keeps | apply alter_keeps
             | apply State.beginErase_keeps | apply State.quiesceDomain_keeps | apply KM.ret | apply KM.seq
             | apply KO.next | (intro) | apply Keeps.ite)

theorem rangeCheck_keeps {s0 : State} (r : KeyRange) (pos : Nat) : KM s0 (rangeCheck r pos) := by
  unfold rangeCheck
  try dsimp only
  with_reducible repeat' (
    first | apply look_keeps | apply demand_keeps | apply check_keeps | apply alter_keeps
             | apply State.keeperRecord_keeps | apply KM.ret | apply KM.trap | apply KM.seq | (intro) | split)

theorem State.keeperKey_keeps {s0 : State} (s : State) (f : Nat) (k : Key) (hk : Keeps s0 s) : Keeps s0
    (State.keeperKey s f k) := by
  unfold State.keeperKey
  try dsimp only
  with_reducible repeat' (
    first | assumption | apply State.writeIntent_keeps | apply State.dramAwake_keeps
             | apply State.recall_keeps | apply State.setKey_keeps | apply Keeps.ite)

theorem State.setRange_keeps {s0 : State} (s : State) (r : KeyRange) (hk : Keeps s0 s) : Keeps s0 (State.setRange s r)
    := by
  unfold State.setRange
  try dsimp only
  with_reducible repeat' (
    first | assumption | apply State.keeperKey_keeps | apply State.tlbDrop_keeps
             | apply Keeps.foldl | (intro))

theorem execDomainKeys_keeps {s0 : State} (via : Via) (s : State) (hk : Keeps s0 s) : KO s0 (execDomainKeys via s) :=
    by
  unfold execDomainKeys
  try dsimp only
  with_reducible repeat' (
    first | assumption | apply keeperNext_keeps | apply demand_keeps
             | apply rangeCheck_keeps | apply alter_keeps | apply State.setRange_keeps | apply journal_keeps
             | apply Keeps.foldl | apply KM.ret | apply KM.each | apply KM.seq | (intro))

theorem State.initMemory_keeps {s0 : State} (s : State) (hk : Keeps s0 s) : Keeps s0 (State.initMemory s) := by
  unfold State.initMemory
  try dsimp only
  with_reducible repeat' (
    first | assumption | apply Memory.zeroDram_wf | apply State.demandRead_keeps
             | apply State.setReg_keeps | apply State.modDmc_keeps | apply Keeps.foldl | (intro) | apply Keeps.pending
             | apply Keeps.nv | apply Keeps.mem | apply Keeps.fields)

theorem execMemInit_keeps {s0 : State} (via : Via) (s : State) (hk : Keeps s0 s) : KO s0 (execMemInit via s) := by
  unfold execMemInit
  try dsimp only
  with_reducible repeat' (
    first | assumption | apply keeperNext_keeps | apply look_keeps | apply permit_keeps
             | apply alter_keeps | apply State.initMemory_keeps | apply journal_keeps | apply KM.ret | apply KM.seq
             | (intro))

theorem State.dropTenants_keeps {s0 : State} (s : State) (hk : Keeps s0 s) : Keeps s0 (State.dropTenants s) := by
  unfold State.dropTenants
  try dsimp only
  with_reducible repeat' (
    first | assumption | apply State.modDom_keeps | apply State.setDomState_keeps
             | apply Keeps.foldl | (intro))

theorem State.eraseChip_keeps {s0 : State} (s : State) (hk : Keeps s0 s) : Keeps s0 (State.eraseChip s) := by
  unfold State.eraseChip
  try dsimp only
  with_reducible repeat' (
    first | assumption | (intro) | apply Keeps.pending | apply Keeps.nv | apply Keeps.mem
             | apply Keeps.fields | apply twf_nil | apply Memory.wf_errs | apply Memory.wf_mk)

theorem State.gateClusters_keeps {s0 : State} (s : State) (hk : Keeps s0 s) : Keeps s0 (State.gateClusters s) := by
  unfold State.gateClusters
  try dsimp only
  with_reducible repeat' (
    first | assumption | (refine Keeps.update ?_ rfl rfl rfl))

theorem execZeroize_keeps {s0 : State} (via : Via) (s : State) (hk : Keeps s0 s) : KO s0 (execZeroize via s) := by
  unfold execZeroize
  try dsimp only
  with_reducible repeat' (
    first | assumption | apply keeperNext_keeps | apply demand_keeps | apply alter_keeps
             | apply State.leaveRing_keeps | apply State.gateClusters_keeps | apply State.eraseChip_keeps
             | apply State.dropTenants_keeps | apply journal_keeps | apply Keeps.foldl | apply KM.ret | apply KM.seq
             | (intro))

end Sys2Proof.Machine
end

