-- ==== Sys2Proof/Laws/KeepsKeeperRings.lean ====
section
/-! SUPPORT. What every function of KeeperRings keeps. -/

namespace Sys2Proof.Machine

set_option linter.unusedVariables false

theorem ringOf_keeps {s0 : State} (p : List Byte) : KM s0 (ringOf p) := by
  unfold ringOf
  try dsimp only
  with_reducible repeat' (
    first | apply demand_keeps | apply KM.ret | apply KM.seq | (intro))

theorem State.readCages_keeps {s0 : State} (s : State) (r : RingId) (hk : Keeps s0 s) : Keeps s0 (State.readCages s r)
    := by
  unfold State.readCages
  try dsimp only
  with_reducible repeat' (
    first | assumption | apply State.send_keeps)

theorem execRingStart_keeps {s0 : State} (via : Via) (modules : Option (List Byte) × Option (List Byte)) (trained
    : Bool) (s : State) (hk : Keeps s0 s) : KO s0 (execRingStart via modules trained s) := by
  unfold execRingStart
  try dsimp only
  with_reducible repeat' (
    first | assumption | apply keeperNext_keeps | apply ringOf_keeps | apply demand_keeps
             | apply look_keeps | apply permit_keeps | apply alter_keeps | apply State.readCages_keeps
             | apply check_keeps | apply State.modRing_keeps | apply KM.ret | apply KM.trap | apply KM.seq | (intro)
             | split)

theorem execRingStop_keeps {s0 : State} (via : Via) (s : State) (hk : Keeps s0 s) : KO s0 (execRingStop via s) := by
  unfold execRingStop
  try dsimp only
  with_reducible repeat' (
    first | assumption | apply keeperNext_keeps | apply ringOf_keeps | apply alter_keeps
             | apply State.leaveRing_keeps | apply KM.ret | apply KM.seq | (intro))

theorem State.insertRing_keeps {s0 : State} (s : State) (r : RingId) (other : Option Beacon) (hk : Keeps s0 s) : Keeps
    s0 (State.insertRing s r other) := by
  unfold State.insertRing
  try dsimp only
  with_reducible repeat' (
    first | assumption | apply State.modRing_keeps | apply State.ringPin_keeps)

theorem State.sendIdle_keeps {s0 : State} (s : State) (r : RingId) (hk : Keeps s0 s) : Keeps s0 (State.sendIdle s r)
    := by
  unfold State.sendIdle
  try dsimp only
  with_reducible repeat' (
    first | assumption | apply State.send_keeps)

theorem execRingInsert_keeps {s0 : State} (via : Via) (aligned : List Bool × List Bool) (other : Option Beacon) (s
    : State) (hk : Keeps s0 s) : KO s0 (execRingInsert via aligned other s) := by
  unfold execRingInsert
  try dsimp only
  with_reducible repeat' (
    first | assumption | apply keeperNext_keeps | apply ringOf_keeps | apply look_keeps
             | apply permit_keeps | apply check_keeps | apply alter_keeps | apply State.insertRing_keeps
             | apply State.sendIdle_keeps | apply journal_keeps | apply KM.ret | apply KM.seq | (intro))

theorem execRingBypass_keeps {s0 : State} (via : Via) (s : State) (hk : Keeps s0 s) : KO s0 (execRingBypass via s) :=
    by
  unfold execRingBypass
  try dsimp only
  with_reducible repeat' (
    first | assumption | apply keeperNext_keeps | apply ringOf_keeps | apply look_keeps
             | apply permit_keeps | apply alter_keeps | apply State.modRing_keeps | apply State.leaveRing_keeps
             | apply KM.ret | apply KM.seq | (intro) | apply Keeps.ite)

theorem execPlanSwitch_keeps {s0 : State} (via : Via) (s : State) (hk : Keeps s0 s) : KO s0 (execPlanSwitch via s) :=
    by
  unfold execPlanSwitch
  try dsimp only
  with_reducible repeat' (
    first | assumption | apply State.keeperRow_keeps | apply look_keeps
             | apply permit_keeps | apply alter_keeps | apply State.modRing_keeps | apply journal_keeps
             | apply State.planAnnounce_keeps | apply Keeps.foldl | apply KM.ret | apply KM.trap | apply KM.seq
             | apply KO.next | (intro) | apply Keeps.ite | split)

theorem State.planInForce_keeps {s0 : State} (s : State) (i : Image) (p : Plan) (hk : Keeps s0 s) : Keeps s0
    (State.planInForce s i p) := by
  unfold State.planInForce
  try dsimp only
  with_reducible repeat' (
    first | assumption | (refine Keeps.update ?_ rfl rfl rfl))

theorem State.planAwaits_keeps {s0 : State} (s : State) (hk : Keeps s0 s) : Keeps s0 (State.planAwaits s) := by
  unfold State.planAwaits
  try dsimp only
  with_reducible repeat' (
    first | assumption | apply State.adoptPlan_keeps | apply Keeps.ite
             | (refine Keeps.update ?_ rfl rfl rfl))

theorem State.switchPlan_keeps {s0 : State} (s : State) (hk : Keeps s0 s) : Keeps s0 (State.switchPlan s) := by
  unfold State.switchPlan
  try dsimp only
  with_reducible repeat' (
    first | assumption | apply State.planAwaits_keeps | apply State.modRing_keeps
             | apply State.planInForce_keeps | apply Keeps.foldl | (intro) | split)

theorem State.ringInserted_keeps {s0 : State} (s : State) (r : RingId) (hk : Keeps s0 s) : Keeps s0
    (State.ringInserted s r) := by
  unfold State.ringInserted
  try dsimp only
  with_reducible repeat' (
    first | assumption | apply State.modRing_keeps)

end Sys2Proof.Machine
end

