-- ==== Sys2Proof/Laws/KeepsPower.lean ====
section
/-! SUPPORT. What every function of Power keeps. -/

namespace Sys2Proof.Machine

set_option linter.unusedVariables false

theorem State.follow_keeps {s0 : State} (s : State) (hk : Keeps s0 s) : Keeps s0 (State.follow s) := by
  unfold State.follow
  try dsimp only
  with_reducible repeat' (
    first | assumption | apply Keeps.ite | (refine Keeps.update ?_ rfl rfl rfl))

theorem State.setModes_keeps {s0 : State} (s : State) (hk : Keeps s0 s) : Keeps s0 (State.setModes s) := by
  unfold State.setModes
  try dsimp only
  with_reducible repeat' (
    first | assumption | split | (refine Keeps.update ?_ rfl rfl rfl))

theorem State.leaveHeld_keeps {s0 : State} (s : State) (hk : Keeps s0 s) : Keeps s0 (State.leaveHeld s) := by
  unfold State.leaveHeld
  try dsimp only
  with_reducible repeat' (
    first | assumption | apply State.setModes_keeps | apply Keeps.ite
             | (refine Keeps.update ?_ rfl rfl rfl))

theorem State.applyTarget_keeps {s0 : State} (s : State) (t : Vector CState 4) (hk : Keeps s0 s) : Keeps s0
    (State.applyTarget s t) := by
  unfold State.applyTarget
  try dsimp only
  with_reducible repeat' (
    first | assumption | apply State.leaveHeld_keeps | (refine Keeps.update ?_ rfl rfl rfl))

theorem execPowerSet_keeps {s0 : State} (via : Via) (s : State) (hk : Keeps s0 s) : KO s0 (execPowerSet via s) := by
  unfold execPowerSet
  try dsimp only
  with_reducible repeat' (
    first | assumption | apply keeperNext_keeps | apply look_keeps | apply permit_keeps
             | apply alter_keeps | apply State.applyTarget_keeps | apply KM.ret | apply KM.trap | apply KM.seq
             | apply KO.next | apply KO.ite | (intro) | apply Keeps.ite | split)

theorem State.setArm_keeps {s0 : State} (s : State) (i : Fin 8) (a : Option Arm) (hk : Keeps s0 s) : Keeps s0
    (State.setArm s i a) := by
  unfold State.setArm
  try dsimp only
  with_reducible repeat' (
    first | assumption | (refine Keeps.update ?_ rfl rfl rfl))

theorem execArmWake_keeps {s0 : State} (via : Via) (s : State) (hk : Keeps s0 s) : KO s0 (execArmWake via s) := by
  unfold execArmWake
  try dsimp only
  with_reducible repeat' (
    first | assumption | apply keeperNext_keeps | apply demand_keeps | apply look_keeps
             | apply alter_keeps | apply State.setArm_keeps | apply KM.ret | apply KM.trap | apply KM.seq | (intro)
             | split)

theorem execDisarm_keeps {s0 : State} (via : Via) (s : State) (hk : Keeps s0 s) : KO s0 (execDisarm via s) := by
  unfold execDisarm
  try dsimp only
  with_reducible repeat' (
    first | assumption | apply keeperNext_keeps | apply demand_keeps | apply alter_keeps
             | apply State.setArm_keeps | apply Keeps.foldl | apply KM.ret | apply KM.seq | (intro) | apply Keeps.ite)

theorem State.logArm_keeps {s0 : State} (s : State) (i : Fin 8) (a : Arm) (idle' : Bool) (hk : Keeps s0 s) : Keeps s0
    (State.logArm s i a idle') := by
  unfold State.logArm
  try dsimp only
  with_reducible repeat' (
    first | assumption | apply State.logRec_keeps)

theorem State.markNoEffect_keeps {s0 : State} (s : State) (i : Fin 8) (b : Bool) (hk : Keeps s0 s) : Keeps s0
    (State.markNoEffect s i b) := by
  unfold State.markNoEffect
  try dsimp only
  with_reducible repeat' (
    first | assumption | apply Keeps.ite | (refine Keeps.update ?_ rfl rfl rfl))

theorem State.applyArm_keeps {s0 : State} (s : State) (i : Fin 8) (a : Arm) (woke : Bool) (hk : Keeps s0 s) : Keeps s0
    (State.applyArm s i a woke) := by
  unfold State.applyArm
  try dsimp only
  with_reducible repeat' (
    first | assumption | apply State.logArm_keeps | apply State.markNoEffect_keeps
             | apply State.applyTarget_keeps | apply Keeps.ite)

theorem State.runArm_keeps {s0 : State} (s : State) (hk : Keeps s0 s) : Keeps s0 (State.runArm s) := by
  unfold State.runArm
  try dsimp only
  with_reducible repeat' (
    first | assumption | apply State.applyArm_keeps | apply Keeps.ite | split
             | (refine Keeps.update ?_ rfl rfl rfl))

theorem State.runArms_keeps {s0 : State} (s : State) (hk : Keeps s0 s) : Keeps s0 (State.runArms s) := by
  unfold State.runArms
  try dsimp only
  with_reducible repeat' (
    first | assumption | apply State.runArm_keeps | apply Keeps.foldl | (intro))

theorem State.dropArms_keeps {s0 : State} (s : State) (hk : Keeps s0 s) : Keeps s0 (State.dropArms s) := by
  unfold State.dropArms
  try dsimp only
  with_reducible repeat' (
    first | assumption | apply State.logArm_keeps | apply State.markNoEffect_keeps
             | apply Keeps.foldl | (intro) | (refine Keeps.update ?_ rfl rfl rfl))

theorem State.wakeBy_keeps {s0 : State} (s : State) (i : Fin 8) (a : Arm) (hk : Keeps s0 s) : Keeps s0 (State.wakeBy s
    i a) := by
  unfold State.wakeBy
  try dsimp only
  with_reducible repeat' (
    first | assumption | (refine Keeps.update ?_ rfl rfl rfl))

theorem execArmFire_keeps {s0 : State} (i : Fin 8) (s : State) (hk : Keeps s0 s) : KO s0 (execArmFire i s) := by
  unfold execArmFire
  try dsimp only
  with_reducible repeat' (
    first | assumption | apply State.setArm_keeps | apply State.wakeBy_keeps
             | apply State.runArms_keeps | apply KO.next | apply KO.ite | apply Keeps.ite | split
             | (refine Keeps.update ?_ rfl rfl rfl))

theorem State.armTimer_keeps {s0 : State} (s : State) (t : Nat) (hk : Keeps s0 s) : Keeps s0 (State.armTimer s t) :=
    by
  unfold State.armTimer
  try dsimp only
  with_reducible repeat' (
    first | assumption | apply Keeps.ite | (refine Keeps.update ?_ rfl rfl rfl))

theorem execTimerFire_keeps {s0 : State} (t : Fin 32) (s : State) (hk : Keeps s0 s) : KO s0 (execTimerFire t s) := by
  unfold execTimerFire
  try dsimp only
  with_reducible repeat' (
    first | assumption | apply State.fire_keeps | apply State.armTimer_keeps
             | apply KO.next | apply KO.ite | (refine Keeps.update ?_ rfl rfl rfl))

theorem State.stopEngines_keeps {s0 : State} (s : State) (c : Fin 4) (hk : Keeps s0 s) : Keeps s0 (State.stopEngines s
    c) := by
  unfold State.stopEngines
  try dsimp only
  with_reducible repeat' (
    first | assumption | apply State.awaitPosts_keeps | apply State.drainAll_keeps
             | apply Keeps.foldl | (intro))

theorem State.gateCluster_keeps {s0 : State} (s : State) (c : Fin 4) (hk : Keeps s0 s) : Keeps s0 (State.gateCluster s
    c) := by
  unfold State.gateCluster
  try dsimp only
  with_reducible repeat' (
    first | assumption | apply State.wroteBack_keeps | apply State.modEng_keeps
             | apply Keeps.foldl | (intro) | (refine Keeps.update ?_ rfl rfl rfl))

theorem State.seedLfsr_keeps {s0 : State} (s : State) (e : Eng) (hk : Keeps s0 s) : Keeps s0 (State.seedLfsr s e) :=
    by
  unfold State.seedLfsr
  try dsimp only
  with_reducible repeat' (
    first | assumption | apply State.draw_keeps | apply State.modEng_keeps)

theorem State.ungateCluster_keeps {s0 : State} (s : State) (c : Fin 4) (hk : Keeps s0 s) : Keeps s0
    (State.ungateCluster s c) := by
  unfold State.ungateCluster
  try dsimp only
  with_reducible repeat' (
    first | assumption | apply State.seedLfsr_keeps | apply Keeps.foldl
             | (refine Keeps.update ?_ rfl rfl rfl))

theorem State.clusterReached_keeps {s0 : State} (s : State) (c : Fin 4) (t : CState) (hk : Keeps s0 s) : Keeps s0
    (State.clusterReached s c t) := by
  unfold State.clusterReached
  try dsimp only
  with_reducible repeat' (
    first | assumption | apply State.follow_keeps | apply State.runArms_keeps
             | (refine Keeps.update ?_ rfl rfl rfl))

theorem execClusterTransitionComplete_keeps {s0 : State} (c : Fin 4) (s : State) (hk : Keeps s0 s) : KO s0
    (execClusterTransitionComplete c s) := by
  unfold execClusterTransitionComplete
  try dsimp only
  with_reducible repeat' (
    first | assumption | apply State.stopEngines_keeps | apply State.gateCluster_keeps
             | apply State.ungateCluster_keeps | apply State.clusterReached_keeps | apply KO.next | apply KO.ite
             | apply Keeps.ite | split)

end Sys2Proof.Machine
end

