-- ==== Sys2Proof/Laws/KeepsSextant.lean ====
section
/-! SUPPORT. What every function of Sextant keeps. -/

namespace Sys2Proof.Machine

set_option linter.unusedVariables false

theorem Memory.zeroSram_wf {m : Memory} (c : Nat) (h : m.wf = true) : (m.zeroSram c).wf = true :=
  Memory.wf_mk (twf_tdrop _ (Memory.wf_bytes h)) (Memory.wf_keys h) (twf_tdrop _ (Memory.wf_poison h))
    (Memory.wf_keyPoison h) (twf_tdrop _ (Memory.wf_errs h)) (Memory.wf_stale h)

theorem State.setRail_keeps {s0 : State} (s : State) (v : Nat) (hk : Keeps s0 s) : Keeps s0 (State.setRail s v) := by
  unfold State.setRail
  try dsimp only
  with_reducible repeat' (
    first | assumption | apply State.send_keeps | apply Keeps.foldl | (intro)
             | apply Keeps.ite | (refine Keeps.update ?_ rfl rfl rfl))

theorem State.railRecord_keeps {s0 : State} (s : State) (hk : Keeps s0 s) : Keeps s0 (State.railRecord s) := by
  unfold State.railRecord
  try dsimp only
  with_reducible repeat' (
    first | assumption | apply State.logRec_keeps)

theorem State.applyPlan_keeps {s0 : State} (s : State) (k : BitVec 2) (hk : Keeps s0 s) : Keeps s0 (State.applyPlan s
    k) := by
  unfold State.applyPlan
  try dsimp only
  with_reducible repeat' (
    first | assumption | apply State.setRail_keeps | (refine Keeps.update ?_ rfl rfl rfl))

theorem applyByCommand_keeps {s0 : State} (k : BitVec 2) (avsOk : Bool) : KM s0 (applyByCommand k avsOk) := by
  unfold applyByCommand
  try dsimp only
  with_reducible repeat' (
    first | assumption | apply look_keeps | apply alter_keeps | apply State.applyPlan_keeps
             | apply State.railRecord_keeps | apply State.setRail_keeps | apply KM.trap | apply KM.ite | apply KM.seq
             | (intro))

theorem State.applySelected_keeps {s0 : State} (s : State) (hk : Keeps s0 s) : Keeps s0 (State.applySelected s) := by
  unfold State.applySelected
  try dsimp only
  with_reducible repeat' (
    first | assumption | apply State.applyPlan_keeps)

theorem State.flagChange_keeps {s0 : State} (s : State) (s' : State) (hk : Keeps s0 s) (hk_s_ : Keeps s0 s') : Keeps
    s0 (State.flagChange s s') := by
  unfold State.flagChange
  try dsimp only
  with_reducible repeat' (
    first | assumption | apply State.fire_keeps | apply Keeps.ite)

theorem execSxtReport_keeps {s0 : State} (via : Via) (s : State) (hk : Keeps s0 s) : KO s0 (execSxtReport via s) := by
  unfold execSxtReport
  try dsimp only
  with_reducible repeat' (
    first | assumption | apply keeperNext_keeps | apply look_keeps | apply alter_keeps
             | apply State.flagChange_keeps | apply KM.ret | apply KM.seq | (intro)
             | (refine Keeps.update ?_ rfl rfl rfl))

theorem execReplan_keeps {s0 : State} (via : Via) (found : PlanFound) (avsOk : Bool) (s : State) (hk : Keeps s0 s) :
    KO s0 (execReplan via found avsOk s) := by
  unfold execReplan
  try dsimp only
  with_reducible repeat' (
    first | assumption | apply keeperNext_keeps | apply demand_keeps | apply look_keeps
             | apply permit_keeps | apply journal_keeps | apply alter_keeps | apply applyByCommand_keeps
             | apply KM.ret | apply KM.ite | apply KM.seq | apply KO.next | apply KO.ite | (intro)
             | (refine Keeps.update ?_ rfl rfl rfl))

theorem execPlanRevert_keeps {s0 : State} (via : Via) (avsOk : Bool) (s : State) (hk : Keeps s0 s) : KO s0
    (execPlanRevert via avsOk s) := by
  unfold execPlanRevert
  try dsimp only
  with_reducible repeat' (
    first | assumption | apply keeperNext_keeps | apply demand_keeps | apply look_keeps
             | apply permit_keeps | apply applyByCommand_keeps | apply alter_keeps | apply KM.ret | apply KM.ite
             | apply KM.seq | (intro) | (refine Keeps.update ?_ rfl rfl rfl))

theorem State.sxtRecord_keeps {s0 : State} (s : State) (detail : List Byte) (hk : Keeps s0 s) : Keeps s0
    (State.sxtRecord s detail) := by
  unfold State.sxtRecord
  try dsimp only
  with_reducible repeat' (
    first | assumption | apply State.logRec_keeps)

theorem State.freeze_keeps {s0 : State} (s : State) (hk : Keeps s0 s) : Keeps s0 (State.freeze s) := by
  unfold State.freeze
  try dsimp only
  with_reducible repeat' (
    first | assumption | apply State.applyPlan_keeps | apply Keeps.ite
             | (refine Keeps.update ?_ rfl rfl rfl))

theorem State.takeSample_keeps {s0 : State} (s : State) (i : Nat) (v : BitVec 16) (hk : Keeps s0 s) : Keeps s0
    (State.takeSample s i v) := by
  unfold State.takeSample
  try dsimp only
  with_reducible repeat' (
    first | assumption | apply State.setReg_keeps | split
             | (refine Keeps.update ?_ rfl rfl rfl))

theorem State.singleDisagreement_keeps {s0 : State} (s : State) (i : Nat) (hk : Keeps s0 s) : Keeps s0
    (State.singleDisagreement s i) := by
  unfold State.singleDisagreement
  try dsimp only
  with_reducible repeat' (
    first | assumption | apply State.setReg_keeps | apply State.corrected_keeps
             | (refine Keeps.update ?_ rfl rfl rfl))

theorem State.totalDisagreement_keeps {s0 : State} (s : State) (i : Nat) (hk : Keeps s0 s) : Keeps s0
    (State.totalDisagreement s i) := by
  unfold State.totalDisagreement
  try dsimp only
  with_reducible repeat' (
    first | assumption | apply State.setReg_keeps | apply State.freeze_keeps
             | apply State.sxtRecord_keeps)

theorem execMonitorSample_keeps {s0 : State} (i : Fin 96) (c0 : BitVec 16) (c1 : BitVec 16) (c2 : BitVec 16) (s :
    State) (hk : Keeps s0 s) : KO s0 (execMonitorSample i c0 c1 c2 s) := by
  unfold execMonitorSample
  try dsimp only
  with_reducible repeat' (
    first | assumption | apply State.flagChange_keeps | apply State.totalDisagreement_keeps
             | apply State.takeSample_keeps | apply State.singleDisagreement_keeps | apply KO.next | apply KO.ite
             | apply Keeps.ite | split)

theorem execSextantHourly_keeps {s0 : State} (hours : Vector (BitVec 32) 10) (s : State) (hk : Keeps s0 s) : KO s0
    (execSextantHourly hours s) := by
  unfold execSextantHourly
  try dsimp only
  with_reducible repeat' (
    first | assumption | apply State.fire_keeps | apply KO.next | apply KO.ite | split
             | (refine Keeps.update ?_ rfl rfl rfl))

theorem execDelayRegisterFault_keeps {s0 : State} (c : Fin 4) (j : Fin 32) (s : State) (hk : Keeps s0 s) : KO s0
    (execDelayRegisterFault c j s) := by
  unfold execDelayRegisterFault
  try dsimp only
  with_reducible repeat' (
    first | assumption | apply State.sxtRecord_keeps | apply State.corrected_keeps
             | apply State.freeze_keeps | apply State.fire_keeps | apply KO.next | apply KO.ite | apply Keeps.ite
             | split | (refine Keeps.update ?_ rfl rfl rfl))

theorem execThermalSample_keeps {s0 : State} (sensors : Vector (BitVec 16) 5) (s : State) (hk : Keeps s0 s) : KO s0
    (execThermalSample sensors s) := by
  unfold execThermalSample
  try dsimp only
  with_reducible repeat' (
    first | assumption | apply State.fire_keeps | apply State.flagChange_keeps
             | apply KO.next | apply KO.ite | apply Keeps.ite | (refine Keeps.update ?_ rfl rfl rfl))

theorem execLinkRecovery_keeps {s0 : State} (s : State) (hk : Keeps s0 s) : KO s0 (execLinkRecovery s) := by
  unfold execLinkRecovery
  try dsimp only
  with_reducible repeat' (
    first | assumption | apply KO.next | apply KO.ite
             | (refine Keeps.update ?_ rfl rfl rfl))

theorem State.thaw_keeps {s0 : State} (s : State) (hk : Keeps s0 s) : Keeps s0 (State.thaw s) := by
  unfold State.thaw
  try dsimp only
  with_reducible repeat' (
    first | assumption | apply State.setReg_keeps | apply Keeps.foldl | (intro)
             | (refine Keeps.update ?_ rfl rfl rfl))

theorem execSelftest_keeps {s0 : State} (via : Via) (pass : BitVec 8) (s : State) (hk : Keeps s0 s) : KO s0
    (execSelftest via pass s) := by
  unfold execSelftest
  try dsimp only
  with_reducible repeat' (
    first | assumption | apply keeperNext_keeps | apply demand_keeps | apply look_keeps
             | apply permit_keeps | apply alter_keeps | apply Memory.zeroSram_wf | apply State.countErr_keeps
             | apply State.flagChange_keeps | apply State.thaw_keeps | apply Keeps.foldl | apply KM.ret | apply KM.seq
             | (intro) | apply Keeps.ite | apply Keeps.pending | apply Keeps.nv | apply Keeps.mem | apply Keeps.fields)

end Sys2Proof.Machine
end

