-- ==== Sys2Proof/Laws/KeepsReset.lean ====
section
/-! SUPPORT. What every function of Reset keeps. -/

namespace Sys2Proof.Machine

set_option linter.unusedVariables false

theorem Memory.dramOnly_wf {m : Memory} (h : m.wf = true) : m.dramOnly.wf = true :=
  Memory.wf_mk (twf_tdrop _ (Memory.wf_bytes h)) (twf_tdrop _ (Memory.wf_keys h)) (twf_tdrop _ (Memory.wf_poison h))
    (Memory.wf_keyPoison h) (twf_tdrop _ (Memory.wf_errs h)) twf_nil

theorem twf_tmapKeys {α : Type} [DecidableEq α] {d : α} (t : Tbl α) (f : Nat → Option Nat) :
    twf d (tmapKeys d t f) = true := by
  unfold tmapKeys
  refine twf_foldl _ ?_ _ twf_nil
  intro r p h
  split
  · exact h
  · exact twf_tset _ _ h

theorem State.restoreLine_keeps {s0 : State} (s : State) (p : Nat × Option (List Byte)) (hk : Keeps s0 s) : Keeps s0
    (State.restoreLine s p) := by
  unfold State.restoreLine
  try dsimp only
  with_reducible repeat' (
    first | assumption | apply State.putMem_keeps | apply State.setKey_keeps
             | apply Keeps.foldl | (intro) | apply Keeps.ite | split)

theorem State.untouchAll_keeps {s0 : State} (s : State) (hk : Keeps s0 s) : Keeps s0 (State.untouchAll s) := by
  unfold State.untouchAll
  try dsimp only
  with_reducible repeat' (
    first | assumption | apply Memory.zeroDram_wf | (intro) | apply Keeps.pending
             | apply Keeps.nv | apply Keeps.mem | apply Keeps.fields | apply twf_nil | apply Memory.wf_bytes
             | apply Memory.wf_keys | apply Memory.wf_poison | apply Memory.wf_keyPoison | apply Memory.wf_stale
             | apply Memory.wf_mk)

theorem State.dramLeft_wf {s0 s : State} (hk : Keeps s0 s) (h : s0.mem.wf = true) : s.dramLeft.wf = true :=
  Memory.dramOnly_wf ((Keeps.foldl (f := State.restoreLine) (fun _ _ h => State.restoreLine_keeps _ _ h) hk).mem h)

theorem State.coreLost_keeps {s0 : State} (s : State) (hk : Keeps s0 s) : Keeps s0 s.coreLost := by
  have hd := State.dropArms_keeps _ hk
  unfold State.coreLost
  refine Keeps.ite (State.untouchAll_keeps _ ?_) ?_ <;>
    exact Keeps.fields hd.pending hd.nv fun h => State.dramLeft_wf hd h

theorem State.startReset_keeps {s0 : State} (s : State) (hk : Keeps s0 s) : Keeps s0 (State.startReset s) := by
  unfold State.startReset
  try dsimp only
  with_reducible repeat' (
    first | assumption | apply State.coreLost_keeps | (refine Keeps.update ?_ rfl rfl rfl))

theorem execPowerOnReset_keeps {s0 : State} (s : State) (hk : Keeps s0 s) : KO s0 (execPowerOnReset s) :=
  KO.next (Keeps.fields hk.pending hk.nv fun _ => Memory.wf_reset)

theorem execResetN_keeps {s0 : State} (s : State) (hk : Keeps s0 s) : KO s0 (execResetN s) := by
  unfold execResetN
  try dsimp only
  with_reducible repeat' (
    first | assumption | apply State.startReset_keeps | apply KO.next | apply KO.ite
             | (refine Keeps.update ?_ rfl rfl rfl))

theorem execPerstN_keeps {s0 : State} (s : State) (hk : Keeps s0 s) : KO s0 (execPerstN s) := by
  unfold execPerstN
  try dsimp only
  with_reducible repeat' (
    first | assumption | apply State.startReset_keeps | apply KO.next | apply KO.ite
             | (refine Keeps.update ?_ rfl rfl rfl))

theorem execResetPart_keeps {s0 : State} (via : Via) (s : State) (hk : Keeps s0 s) : KO s0 (execResetPart via s) := by
  unfold execResetPart
  try dsimp only
  with_reducible repeat' (
    first | assumption | apply keeperNext_keeps | apply demand_keeps | apply KM.ret
             | apply KM.seq | (intro))

theorem execResetDeassertion_keeps {s0 : State} (s : State) (hk : Keeps s0 s) : KO s0 (execResetDeassertion s) := by
  unfold execResetDeassertion
  try dsimp only
  with_reducible repeat' (
    first | assumption | apply KO.next | apply KO.ite
             | (refine Keeps.update ?_ rfl rfl rfl))

theorem State.relocate_keeps {s0 : State} (new : State) (old : State) (hk : Keeps s0 new) (hk_old : Keeps s0 old) :
    Keeps s0 (State.relocate new old) := by
  unfold State.relocate
  try dsimp only
  with_reducible repeat' (
    first | assumption | apply twf_tmapKeys | (intro) | apply Keeps.pending
             | apply Keeps.nv | apply Keeps.mem | apply Keeps.fields | apply Memory.wf_keyPoison
             | apply Memory.wf_stale | apply Memory.wf_mk)

theorem State.trainDram_keeps {s0 : State} (s : State) (v : BootEnv) (hk : Keeps s0 s) : Keeps s0 (State.trainDram s
    v) := by
  unfold State.trainDram
  try dsimp only
  with_reducible repeat' (
    first | assumption | apply State.modDmc_keeps | apply State.relocate_keeps
             | apply Keeps.ite | (refine Keeps.update ?_ rfl rfl rfl))

theorem State.bootImage_keeps {s0 : State} (s : State) (kind : Nat) (pass : Bool → Option Image) (hk : Keeps s0 s) :
    Keeps s0 (State.bootImage s kind pass) := by
  unfold State.bootImage
  try dsimp only
  with_reducible repeat' (
    first | assumption | apply State.putInForce_keeps | split
             | (refine Keeps.update ?_ rfl rfl rfl))

theorem State.bootFirmware_keeps {s0 : State} (s : State) (hk : Keeps s0 s) : Keeps s0 (State.bootFirmware s) := by
  unfold State.bootFirmware
  try dsimp only
  with_reducible repeat' (
    first | assumption | apply State.applySelected_keeps | apply State.bootImage_keeps
             | (refine Keeps.update ?_ rfl rfl rfl))

theorem State.readJournal_keeps {s0 : State} (s : State) (hk : Keeps s0 s) : Keeps s0 (State.readJournal s) := by
  unfold State.readJournal
  try dsimp only
  with_reducible repeat' (
    first | assumption | split | (refine Keeps.update ?_ rfl rfl rfl))

theorem State.bootImages_keeps {s0 : State} (s : State) (hk : Keeps s0 s) : Keeps s0 (State.bootImages s) := by
  unfold State.bootImages
  try dsimp only
  with_reducible repeat' (
    first | assumption | apply State.bootImage_keeps | apply Keeps.ite)

theorem State.recover_keeps {s0 : State} (s : State) (hk : Keeps s0 s) : Keeps s0 (State.recover s) := by
  unfold State.recover
  try dsimp only
  with_reducible repeat' (
    first | assumption | (refine Keeps.update ?_ rfl rfl rfl))

theorem State.up_keeps {s0 : State} (s : State) (part : PState) (step : BitVec 4) (hk : Keeps s0 s) : Keeps s0
    (State.up s part step) := by
  unfold State.up
  try dsimp only
  with_reducible repeat' (
    first | assumption | (refine Keeps.update ?_ rfl rfl rfl))

theorem execBootComplete_keeps {s0 : State} (env : BootEnv) (s : State) (hk : Keeps s0 s) : KO s0 (execBootComplete
    env s) := by
  unfold execBootComplete
  try dsimp only
  with_reducible repeat' (
    first | assumption | apply State.bootFirmware_keeps | apply State.readJournal_keeps
             | apply State.recover_keeps | apply State.untouchAll_keeps | apply State.up_keeps
             | apply State.bootImages_keeps | apply State.trainDram_keeps | apply KO.next | apply KO.ite
             | apply Keeps.ite | split | dsimp only | (refine Keeps.update ?_ rfl rfl rfl))

theorem execDormantEntry_keeps {s0 : State} (s : State) (hk : Keeps s0 s) : KO s0 (execDormantEntry s) := by
  unfold execDormantEntry
  try dsimp only
  with_reducible repeat' (
    first | assumption | apply State.coreLost_keeps | apply KO.next | apply KO.ite
             | (refine Keeps.update ?_ rfl rfl rfl))

theorem execWakeComplete_keeps {s0 : State} (env : BootEnv) (s : State) (hk : Keeps s0 s) : KO s0 (execWakeComplete
    env s) := by
  unfold execWakeComplete
  try dsimp only
  with_reducible repeat' (
    first | assumption | apply State.readJournal_keeps | apply State.bootFirmware_keeps
             | apply State.recover_keeps | apply State.dropArms_keeps | apply State.up_keeps
             | apply State.setModes_keeps | apply State.bootImages_keeps | apply State.trainDram_keeps
             | apply State.runArms_keeps | apply State.applyArm_keeps | apply KO.next | apply KO.ite | split
             | (refine Keeps.update ?_ rfl rfl rfl))

theorem State.discardPosts_keeps {s0 : State} (s : State) (e : Eng) (hk : Keeps s0 s) : Keeps s0 (State.discardPosts s
    e) := by
  unfold State.discardPosts
  try dsimp only
  with_reducible repeat' (
    first | assumption | apply State.modEng_keeps | apply State.performQueue_keeps
             | apply Keeps.foldl | (intro))

theorem State.resetEngine_keeps {s0 : State} (s : State) (e : Eng) (hk : Keeps s0 s) : Keeps s0 (State.resetEngine s
    e) := by
  unfold State.resetEngine
  try dsimp only
  with_reducible repeat' (
    first | assumption | apply State.discardPosts_keeps | apply State.drainAll_keeps
             | apply State.wroteBack_keeps | apply State.seedLfsr_keeps | apply State.modEng_keeps
             | apply State.modSlot_keeps | apply State.modBank_keeps | apply State.newSecret_keeps | apply Keeps.foldl
             | (intro) | apply Keeps.ite)

theorem execEngineReset_keeps {s0 : State} (via : Via) (s : State) (hk : Keeps s0 s) : KO s0 (execEngineReset via s)
    := by
  unfold execEngineReset
  try dsimp only
  with_reducible repeat' (
    first | assumption | apply keeperNext_keeps | apply demand_keeps | apply look_keeps
             | apply permit_keeps | apply alter_keeps | apply State.resetEngine_keeps | apply KM.ret | apply KM.seq
             | (intro))

theorem State.linkDown_keeps {s0 : State} (s : State) (hk : Keeps s0 s) : Keeps s0 (State.linkDown s) := by
  unfold State.linkDown
  try dsimp only
  with_reducible repeat' (
    first | assumption | (refine Keeps.update ?_ rfl rfl rfl))

theorem execThermtrip_keeps {s0 : State} (sensor : Fin 5) (s : State) (hk : Keeps s0 s) : KO s0 (execThermtrip sensor
    s) := by
  unfold execThermtrip
  try dsimp only
  with_reducible repeat' (
    first | assumption | apply State.linkDown_keeps | apply KO.next | apply KO.ite
             | (refine Keeps.update ?_ rfl rfl rfl))

theorem State.clockError_keeps {s0 : State} (s : State) (code : Nat) (pll : Nat) (hk : Keeps s0 s) : Keeps s0
    (State.clockError s code pll) := by
  unfold State.clockError
  try dsimp only
  with_reducible repeat' (
    first | assumption | apply State.fatalError_keeps | apply State.linkDown_keeps
             | apply Keeps.ite)

theorem execRclkLoss_keeps {s0 : State} (s : State) (hk : Keeps s0 s) : KO s0 (execRclkLoss s) := by
  unfold execRclkLoss
  try dsimp only
  with_reducible repeat' (
    first | assumption | apply State.clockError_keeps | apply KO.next | apply KO.ite
             | (refine Keeps.update ?_ rfl rfl rfl))

theorem execRefclkLoss_keeps {s0 : State} (s : State) (hk : Keeps s0 s) : KO s0 (execRefclkLoss s) := by
  unfold execRefclkLoss
  try dsimp only
  with_reducible repeat' (
    first | assumption | apply State.linkDown_keeps | apply KO.next
             | (refine Keeps.update ?_ rfl rfl rfl))

theorem execXtal32Loss_keeps {s0 : State} (s : State) (hk : Keeps s0 s) : KO s0 (execXtal32Loss s) := by
  unfold execXtal32Loss
  try dsimp only
  with_reducible repeat' (
    first | assumption | apply KO.next | (refine Keeps.update ?_ rfl rfl rfl))

theorem execPllLockLoss_keeps {s0 : State} (pll : Fin 7) (s : State) (hk : Keeps s0 s) : KO s0 (execPllLockLoss pll s)
    := by
  unfold execPllLockLoss
  try dsimp only
  with_reducible repeat' (
    first | assumption | apply State.clockError_keeps | apply KO.next | apply KO.ite
             | (refine Keeps.update ?_ rfl rfl rfl))

theorem execFabricTimeout_keeps {s0 : State} (requester : Byte) (pa : BitVec 46) (s : State) (hk : Keeps s0 s) : KO s0
    (execFabricTimeout requester pa s) := by
  unfold execFabricTimeout
  try dsimp only
  with_reducible repeat' (
    first | assumption | apply State.fatalError_keeps | apply KO.next | apply KO.ite)

theorem execClockInputRestored_keeps {s0 : State} (c : ClockIn) (s : State) (hk : Keeps s0 s) : KO s0
    (execClockInputRestored c s) := by
  unfold execClockInputRestored
  try dsimp only
  with_reducible repeat' (
    first | assumption | apply KO.next | apply KO.ite | split
             | (refine Keeps.update ?_ rfl rfl rfl))

theorem execCoreRailLow_keeps {s0 : State} (rail : RailLow) (s : State) (hk : Keeps s0 s) : KO s0 (execCoreRailLow
    rail s) := by
  unfold execCoreRailLow
  try dsimp only
  with_reducible repeat' (
    first | assumption | apply KO.next | split | (refine Keeps.update ?_ rfl rfl rfl))

end Sys2Proof.Machine
end

