-- ==== Sys2Proof/Laws/KeepsComplete.lean ====
section
/-! SUPPORT. What every function of Complete keeps. -/

namespace Sys2Proof.Machine

set_option linter.unusedVariables false

theorem NonVolatile.enroll_kept {a v : NonVolatile} (h : FusesKept a v) :
    FusesKept a { flash := v.flash, custHash := v.custHash, enrolled := true, fuses := v.fuses } :=
  ⟨h.1, fun x => ⟨rfl, (h.2 x).2⟩⟩

theorem State.endDestroy_keeps {s0 : State} (s : State) (r : Running) (hk : Keeps s0 s) : Keeps s0 (State.endDestroy s
    r).1 := by
  unfold State.endDestroy
  try dsimp only
  with_reducible repeat' (
    first | assumption | apply State.readKeys_keeps | apply State.modDom_keeps
             | apply State.setDomState_keeps | apply State.eraseFrames_keeps)

theorem State.backToHeld_keeps {s0 : State} (s : State) (hk : Keeps s0 s) : Keeps s0 (State.backToHeld s) := by
  unfold State.backToHeld
  try dsimp only
  with_reducible repeat' (
    first | assumption | (refine Keeps.update ?_ rfl rfl rfl))

theorem State.lastWork_keeps {s0 : State} (s : State) (r : Running) (hk : Keeps s0 s) : Keeps s0 (State.lastWork s
    r).1 := by
  unfold State.lastWork
  try dsimp only
  with_reducible repeat' (
    first | assumption | apply NonVolatile.selectOther_kept | apply State.endReload_keeps
             | apply State.endDestroy_keeps | apply State.backToHeld_keeps | apply State.ringInserted_keeps
             | apply State.switchPlan_keeps | apply NonVolatile.enroll_kept | (intro) | apply Keeps.ite
             | apply Keeps.ite_fst | split | dsimp only | (refine Keeps.update ?_ rfl rfl rfl) | apply Keeps.pending
             | apply Keeps.nv | apply Keeps.mem | apply Keeps.fields)

theorem State.resetAfter_keeps {s0 : State} (s : State) (r : Running) (hk : Keeps s0 s) : Keeps s0 (State.resetAfter s
    r) := by
  unfold State.resetAfter
  try dsimp only
  with_reducible repeat' (
    first | assumption | apply State.startReset_keeps | apply Keeps.ite)

theorem execCommandComplete_keeps {s0 : State} (s : State) (hk : Keeps s0 s) : KO s0 (execCommandComplete s) := by
  unfold execCommandComplete
  try dsimp only
  with_reducible repeat' (
    first | assumption | apply State.planAnnounce_keeps | apply State.lastWork_keeps
             | apply State.runArms_keeps | apply State.resetAfter_keeps | apply State.endCommand_keeps | apply KO.next
             | apply KO.ite | split)

end Sys2Proof.Machine
end

