-- ==== Sys2Proof/Laws/KeepsEdit.lean ====
section
/-! SUPPORT. What every function of Edit keeps. -/

namespace Sys2Proof.Machine

set_option linter.unusedVariables false

theorem editUnits_keeps {s0 : State} (c : Cx) (h : PlanHeader) (mode : EditMode) (v : Int) (r : Nat) (plan : Nat) (i0
    : Nat) (x1 : Nat) (x2 : Nat) (x3 : Bool) (x4 : Summary) : KM s0 (editUnits c h mode v r plan i0 x1 x2 x3 x4) := by
  induction x1 generalizing c h mode v r plan i0 x2 x3 x4 with
  | zero =>
    unfold editUnits
    try dsimp only
    with_reducible repeat' (
      first | apply spend_keeps | apply stringWrite_keeps | apply stringRead_keeps
               | apply specification_keeps | exact Keeps.refl _ | apply KM.ret | (intro) | apply Keeps.ite
               | dsimp only)
  | succ n ih =>
    unfold editUnits
    try dsimp only
    with_reducible repeat' (
      first | apply ih | apply spend_keeps | apply stringWrite_keeps
               | apply stringRead_keeps | apply specification_keeps | apply KM.go | apply KM.seq | (intro) | split)

theorem editSegment_keeps {s0 : State} (c : Cx) (x : FmtA) (edk : Bool) (h : PlanHeader) (v : Int) : KM s0
    (editSegment c x edk h v) := by
  unfold editSegment
  try dsimp only
  with_reducible repeat' (
    first | apply resuming_keeps | apply resumeState_keeps | apply addrG_keeps
             | apply editUnits_keeps | apply putG_keeps | apply setCC_keeps | apply getG_keeps | apply lenG_keeps
             | apply KM.ret | apply KM.ite | apply KM.seq | (intro))

theorem editOp_keeps {s0 : State} (x : FmtA) (stop : Nat) (edk : Bool) : ∀ c, KM s0 ((editOp x stop edk).body c) := by
  unfold editOp
  try dsimp only
  with_reducible repeat' (
    first | apply lengthIn_keeps | apply zeroField_keeps | apply stringRegs_keeps
             | apply allowedState_keeps | apply addrG_keeps | apply addressRange_keeps | apply fixedTerm_keeps
             | apply sourceD_keeps | apply stringRead_keeps | apply specification_keeps | apply resuming_keeps
             | apply require_keeps | apply segments_keeps | apply editSegment_keeps | apply lenG_keeps | apply KM.ret
             | apply KM.ite | apply KM.seq | (intro) | split)

theorem execEdt_keeps {s0 : State} (e : Eng) (x : FmtA) (stop : Nat) (s : State) (hk : Keeps s0 s) : KO s0 (execEdt e
    x stop s) := by
  unfold execEdt
  try dsimp only
  with_reducible repeat' (
    first | assumption | apply macroNext_keeps | apply editOp_keeps)

theorem execEdk_keeps {s0 : State} (e : Eng) (x : FmtA) (stop : Nat) (s : State) (hk : Keeps s0 s) : KO s0 (execEdk e
    x stop s) := by
  unfold execEdk
  try dsimp only
  with_reducible repeat' (
    first | assumption | apply macroNext_keeps | apply editOp_keeps)

end Sys2Proof.Machine
end

