-- ==== Sys2Proof/Laws/KeepsUpset.lean ====
section
/-! SUPPORT. What every function of Upset keeps. -/

namespace Sys2Proof.Machine

set_option linter.unusedVariables false

theorem State.bankUpset_keeps {s0 : State} (s : State) (i : Fin 256) (structure' : Nat) (hk : Keeps s0 s) : Keeps s0
    (State.bankUpset s i structure') := by
  unfold State.bankUpset
  try dsimp only
  with_reducible repeat' (
    first | assumption | apply State.record_keeps | apply State.machineCheck_keeps
             | apply Keeps.ite)

theorem State.contextUpset_keeps {s0 : State} (s : State) (qid : Nat) (hk : Keeps s0 s) : Keeps s0 (State.contextUpset
    s qid) := by
  unfold State.contextUpset
  try dsimp only
  with_reducible repeat' (
    first | assumption | apply State.modQueue_keeps | apply State.record_keeps
             | apply State.countErr_keeps)

theorem State.upset_keeps {s0 : State} (s : State) (x1 : Upset) (hk : Keeps s0 s) : Keeps s0 (State.upset s x1) := by
  unfold State.upset
  try dsimp only
  with_reducible repeat' (
    first | assumption | apply State.modL2Set_keeps | apply State.modDcSet_keeps
             | apply State.modEng_keeps | apply State.bankUpset_keeps | apply State.corrected_keeps
             | apply State.countErr_keeps | apply State.contextUpset_keeps | apply State.fatalError_keeps
             | apply State.modFn_keeps | (intro) | apply Keeps.ite | split | apply Keeps.pending | apply Keeps.nv
             | apply Keeps.mem | apply Keeps.fields | apply twf_tset | apply Memory.wf_bytes | apply Memory.wf_keys
             | apply Memory.wf_poison | apply Memory.wf_keyPoison | apply Memory.wf_errs | apply Memory.wf_stale
             | apply Memory.wf_mk)

theorem State.drawUpset_keeps {s0 : State} (s : State) (hk : Keeps s0 s) : Keeps s0 (State.drawUpset s) := by
  unfold State.drawUpset
  try dsimp only
  with_reducible repeat' (
    first | assumption | apply State.upset_keeps | apply Keeps.ite | split
             | (refine Keeps.update ?_ rfl rfl rfl))

end Sys2Proof.Machine
end

