-- ==== Sys2Proof/Laws/KeepsIdle.lean ====
section
/-! SUPPORT. What every function of Idle keeps. -/

namespace Sys2Proof.Machine

set_option linter.unusedVariables false

theorem State.tickPorts_keeps {s0 : State} (s : State) (r : RingId) (hk : Keeps s0 s) : Keeps s0 (State.tickPorts s r)
    := by
  unfold State.tickPorts
  try dsimp only
  with_reducible repeat' (
    first | assumption | apply State.tickSlot_keeps | apply State.tickPort_keeps
             | apply Keeps.foldl | (intro) | apply Keeps.ite)

theorem State.tickRing_keeps {s0 : State} (s : State) (r : RingId) (hk : Keeps s0 s) : Keeps s0 (State.tickRing s r)
    := by
  unfold State.tickRing
  try dsimp only
  with_reducible repeat' (
    first | assumption | apply State.tickPorts_keeps | apply State.modRing_keeps
             | apply State.cycleStart_keeps | apply Keeps.ite)

theorem State.tickWait_keeps {s0 : State} (s : State) (e : Eng) (hk : Keeps s0 s) : Keeps s0 (State.tickWait s e) :=
    by
  unfold State.tickWait
  try dsimp only
  with_reducible repeat' (
    first | assumption | apply State.tick_keeps | apply State.cycles_keeps
             | apply Keeps.ite | split)

theorem idle_keeps {s0 : State} (s : State) (hk : Keeps s0 s) : Keeps s0 (idle s) := by
  unfold idle
  try dsimp only
  with_reducible repeat' (
    first | assumption | apply State.drawUpset_keeps | apply State.tickWait_keeps
             | apply State.tickRing_keeps | apply Keeps.foldl | (refine Keeps.update ?_ rfl rfl rfl))

end Sys2Proof.Machine
end

