-- ==== Sys2Proof/Laws/KeepsPosting.lean ====
section
/-! SUPPORT. What every function of Posting keeps. -/

namespace Sys2Proof.Machine

set_option linter.unusedVariables false

theorem postTarget_keeps {s0 : State} (c : Cx) (ea : Nat) (len : Nat) (acc : Acc) : KM s0 (postTarget c ea len acc) :=
    by
  unfold postTarget
  try dsimp only
  with_reducible repeat' (
    first | apply require_keeps | apply pieces_keeps | apply specification_keeps
             | apply KM.ret | apply KM.readThen | apply KM.ite | apply KM.seq | (intro) | split)

theorem State.postRoom_keeps {s0 : State} (s : State) (e : Eng) (hk : Keeps s0 s) : Keeps s0 (State.postRoom s e) :=
    by
  unfold State.postRoom
  try dsimp only
  with_reducible repeat' (
    first | assumption | apply State.performQueue_keeps | apply State.waitPost_keeps
             | apply State.modEng_keeps | apply State.unwaitedReply_keeps | apply State.countTerm_keeps
             | apply Keeps.ite | split)

theorem issue_keeps {s0 : State} (c : Cx) (n : Nat) (p : Post) : KM s0 (issue c n p) := by
  unfold issue
  try dsimp only
  with_reducible repeat' (
    first | assumption | apply State.drainAll_keeps | apply State.tick_keeps
             | apply State.modEng_keeps | apply State.awaitPosts_keeps | apply State.postRoom_keeps | apply KM.ret
             | apply KM.readThen | apply KM.change | apply KM.ite | apply KM.seq | (intro) | split
             | (refine Keeps.update ?_ rfl rfl rfl))

theorem mkPost_keeps {s0 : State} (c : Cx) (kind : PostKind) (ra : BitVec 4) (ea : Nat) (pa : Nat) (len : Nat) (home :
    Fin 40) : KM s0 (mkPost c kind ra ea pa len home) := by
  unfold mkPost
  try dsimp only
  with_reducible repeat' (
    first | apply getPsw_keeps | apply KM.ret | apply KM.seq | (intro))

theorem execPst_keeps {s0 : State} (e : Eng) (x : FmtB) (s : State) (hk : Keeps s0 s) : KO s0 (execPst e x s) := by
  unfold execPst
  try dsimp only
  with_reducible repeat' (
    first | assumption | apply macroNext_keeps | apply lengthIn_keeps | apply lowReg_keeps
             | apply zeroField_keeps | apply getBank_keeps | apply postTarget_keeps | apply sourceD_keeps
             | apply getD'_keeps | apply mkPost_keeps | apply issue_keeps | apply KM.seq | (intro))

theorem execPsx_keeps {s0 : State} (e : Eng) (x : FmtB) (s : State) (hk : Keeps s0 s) : KO s0 (execPsx e x s) := by
  unfold execPsx
  try dsimp only
  with_reducible repeat' (
    first | assumption | apply macroNext_keeps | apply lengthIn_keeps | apply lowReg_keeps
             | apply evenReg_keeps | apply zeroField_keeps | apply getBank_keeps | apply postTarget_keeps
             | apply sourceD_keeps | apply finishM_keeps | apply getD'_keeps | apply mkPost_keeps | apply issue_keeps
             | apply KM.seq | (intro))

theorem execPrd_keeps {s0 : State} (e : Eng) (x : FmtB) (s : State) (hk : Keeps s0 s) : KO s0 (execPrd e x s) := by
  unfold execPrd
  try dsimp only
  with_reducible repeat' (
    first | assumption | apply macroNext_keeps | apply lengthIn_keeps | apply lowReg_keeps
             | apply zeroField_keeps | apply getBank_keeps | apply postTarget_keeps | apply mkPost_keeps
             | apply issue_keeps | apply KM.seq | (intro))

theorem execPbn_keeps {s0 : State} (e : Eng) (x : FmtB) (s : State) (hk : Keeps s0 s) : KO s0 (execPbn e x s) := by
  unfold execPbn
  try dsimp only
  with_reducible repeat' (
    first | assumption | apply macroNext_keeps | apply lengthIn_keeps
             | apply zeroField_keeps | apply getBank_keeps | apply require_keeps | apply postTarget_keeps
             | apply getG_keeps | apply mkPost_keeps | apply issue_keeps | apply KM.seq | (intro))

theorem fence_keeps {s0 : State} (x : FmtA) (count : Nat) (after : Cx → State → State) (h_after : ∀ y0 y1, Keeps s0 y1
    → Keeps s0 (after y0 y1)) : ∀ c, KM s0 ((fence x count after).body c) := by
  unfold fence
  try dsimp only
  with_reducible repeat' (
    first | assumption | apply h_after | apply lengthIn_keeps | apply zeroField_keeps
             | apply State.awaitPosts_keeps | apply State.drainAll_keeps | apply KM.ret | apply KM.change
             | apply KM.seq | (intro))

theorem execSync_keeps {s0 : State} (e : Eng) (x : FmtA) (s : State) (hk : Keeps s0 s) : KO s0 (execSync e x s) := by
  unfold execSync
  try dsimp only
  with_reducible repeat' (
    first | assumption | apply macroNext_keeps | apply fence_keeps | (intro))

theorem execSyncw_keeps {s0 : State} (e : Eng) (x : FmtA) (s : State) (hk : Keeps s0 s) : KO s0 (execSyncw e x s) :=
    by
  unfold execSyncw
  try dsimp only
  with_reducible repeat' (
    first | assumption | apply macroNext_keeps | apply fence_keeps | (intro))

theorem execSyncr_keeps {s0 : State} (e : Eng) (x : FmtA) (s : State) (hk : Keeps s0 s) : KO s0 (execSyncr e x s) :=
    by
  unfold execSyncr
  try dsimp only
  with_reducible repeat' (
    first | assumption | apply macroNext_keeps | apply fence_keeps
             | apply State.modEng_keeps | (intro))

theorem execStoreBufferDrain_keeps {s0 : State} (e : Eng) (s : State) (hk : Keeps s0 s) : KO s0 (execStoreBufferDrain
    e s) := by
  unfold execStoreBufferDrain
  try dsimp only
  with_reducible repeat' (
    first | assumption | apply State.drainOne_keeps | apply KO.next | apply Keeps.ite
             | split)

theorem execPostPerform_keeps {s0 : State} (unit : Fin 40) (s : State) (hk : Keeps s0 s) : KO s0 (execPostPerform unit
    s) := by
  unfold execPostPerform
  try dsimp only
  with_reducible repeat' (
    first | assumption | apply State.performAt_keeps | apply KO.next)

theorem postWrites_keeps {s0 : State} (c : Cx) (p : Post) (cc : Option (BitVec 2)) (d : Option (BitVec 256)) (g :
    Option Word) : KM s0 (postWrites c p cc d g) := by
  unfold postWrites
  try dsimp only
  with_reducible repeat' (
    first | apply setG_keeps | apply setD_keeps | apply setCC_keeps | apply KM.ret
             | apply KM.seq | (intro) | split)

theorem waitedReply_keeps {s0 : State} (c : Cx) (p : Post) (x1 : PostResult) : KM s0 (waitedReply c p x1) := by
  unfold waitedReply
  try dsimp only
  with_reducible repeat' (
    first | apply postWrites_keeps | apply KM.trap | split)

theorem execPostReply_keeps {s0 : State} (e : Eng) (s : State) (hk : Keeps s0 s) : KO s0 (execPostReply e s) := by
  unfold execPostReply
  try dsimp only
  with_reducible repeat' (
    first | assumption | apply State.modEng_keeps | apply State.countTerm_keeps
             | apply State.waitPost_keeps | apply State.finishWork_keeps | apply waitedReply_keeps
             | apply State.unwaitedReply_keeps | apply State.takePostCheck_keeps | apply KM.run | apply KO.next
             | apply KO.ite | apply Keeps.ite | split)

end Sys2Proof.Machine
end

