-- ==== Sys2Proof/Laws/KeepsTap.lean ====
section
/-! SUPPORT. What every function of Tap keeps. -/

namespace Sys2Proof.Machine

set_option linter.unusedVariables false

theorem State.loadIr_keeps {s0 : State} (s : State) (ir : BitVec 8) (out : List Bool) (hk : Keeps s0 s) : Keeps s0
    (State.loadIr s ir out) := by
  unfold State.loadIr
  try dsimp only
  with_reducible repeat' (
    first | assumption | (refine Keeps.update ?_ rfl rfl rfl))

theorem State.shiftBoundary_keeps {s0 : State} (s : State) (ir : BitVec 8) (captured : List Bool) (bits : List Bool)
    (hk : Keeps s0 s) : Keeps s0 (State.shiftBoundary s ir captured bits) := by
  unfold State.shiftBoundary
  try dsimp only
  with_reducible repeat' (
    first | assumption | apply State.loadIr_keeps | (refine Keeps.update ?_ rfl rfl rfl))

theorem State.shiftBypass_keeps {s0 : State} (s : State) (ir : BitVec 8) (bits : List Bool) (hk : Keeps s0 s) : Keeps
    s0 (State.shiftBypass s ir bits) := by
  unfold State.shiftBypass
  try dsimp only
  with_reducible repeat' (
    first | assumption | apply State.loadIr_keeps)

theorem State.externalTest_keeps {s0 : State} (s : State) (ir : BitVec 8) (bits : List Bool) (hk : Keeps s0 s) : Keeps
    s0 (State.externalTest s ir bits) := by
  unfold State.externalTest
  try dsimp only
  with_reducible repeat' (
    first | assumption | apply State.shiftBoundary_keeps | apply State.shiftBypass_keeps
             | apply Keeps.ite | (refine Keeps.update ?_ rfl rfl rfl))

theorem execTapReset_keeps {s0 : State} (s : State) (hk : Keeps s0 s) : KO s0 (execTapReset s) := by
  unfold execTapReset
  try dsimp only
  with_reducible repeat' (
    first | assumption | apply KO.next | (refine Keeps.update ?_ rfl rfl rfl))

theorem execExtest_keeps {s0 : State} (shift : List Bool) (s : State) (hk : Keeps s0 s) : KO s0 (execExtest shift s)
    := by
  unfold execExtest
  try dsimp only
  with_reducible repeat' (
    first | assumption | apply State.externalTest_keeps | apply KO.next)

theorem execIdcode_keeps {s0 : State} (s : State) (hk : Keeps s0 s) : KO s0 (execIdcode s) := by
  unfold execIdcode
  try dsimp only
  with_reducible repeat' (
    first | assumption | apply State.loadIr_keeps | apply KO.next)

theorem execSamplePreload_keeps {s0 : State} (balls : List Bool) (shift : List Bool) (s : State) (hk : Keeps s0 s) :
    KO s0 (execSamplePreload balls shift s) := by
  unfold execSamplePreload
  try dsimp only
  with_reducible repeat' (
    first | assumption | apply State.shiftBoundary_keeps | apply KO.next | apply KO.ite)

theorem execClamp_keeps {s0 : State} (s : State) (hk : Keeps s0 s) : KO s0 (execClamp s) := by
  unfold execClamp
  try dsimp only
  with_reducible repeat' (
    first | assumption | apply State.loadIr_keeps | apply KO.next)

theorem execHighz_keeps {s0 : State} (s : State) (hk : Keeps s0 s) : KO s0 (execHighz s) := by
  unfold execHighz
  try dsimp only
  with_reducible repeat' (
    first | assumption | apply State.loadIr_keeps | apply KO.next)

theorem execExtestPulse_keeps {s0 : State} (shift : List Bool) (s : State) (hk : Keeps s0 s) : KO s0 (execExtestPulse
    shift s) := by
  unfold execExtestPulse
  try dsimp only
  with_reducible repeat' (
    first | assumption | apply State.externalTest_keeps | apply KO.next)

theorem execExtestTrain_keeps {s0 : State} (shift : List Bool) (s : State) (hk : Keeps s0 s) : KO s0 (execExtestTrain
    shift s) := by
  unfold execExtestTrain
  try dsimp only
  with_reducible repeat' (
    first | assumption | apply State.externalTest_keeps | apply KO.next)

theorem execBypass_keeps {s0 : State} (s : State) (hk : Keeps s0 s) : KO s0 (execBypass s) := by
  unfold execBypass
  try dsimp only
  with_reducible repeat' (
    first | assumption | apply State.loadIr_keeps | apply KO.next
             | (refine Keeps.update ?_ rfl rfl rfl))

end Sys2Proof.Machine
end

