-- ==== Sys2Proof/Laws/KeepsTumbler.lean ====
section
/-! SUPPORT. What every function of Tumbler keeps. -/

namespace Sys2Proof.Machine

set_option linter.unusedVariables false

theorem needKeyZero_keeps {s0 : State} (c : Cx) : KM s0 (needKeyZero c) := by
  unfold needKeyZero
  try dsimp only
  with_reducible repeat' (
    first | apply getPsw_keeps | apply privileged_keeps | apply KM.ret | apply KM.ite
             | apply KM.seq | (intro))

theorem syncWait_keeps {s0 : State} (c : Cx) : KM s0 (syncWait c) := by
  unfold syncWait
  try dsimp only
  with_reducible repeat' (
    first | assumption | apply State.awaitPosts_keeps | apply State.drainAll_keeps
             | apply KM.change | (intro))

theorem State.writeKeyLine_keeps {s0 : State} (s : State) (e : Eng) (line : Nat) (hk : Keeps s0 s) : Keeps s0
    (State.writeKeyLine s e line) := by
  unfold State.writeKeyLine
  try dsimp only
  with_reducible repeat' (
    first | assumption | apply State.cacheAccess_keeps | apply State.noteStale_keeps
             | apply State.waitTerm_keeps | apply State.countTerm_keeps)

theorem execKset_keeps {s0 : State} (e : Eng) (x : FmtA) (s : State) (hk : Keeps s0 s) : KO s0 (execKset e x s) := by
  unfold execKset
  try dsimp only
  with_reducible repeat' (
    first | assumption | apply macroNext_keeps | apply lengthIn_keeps
             | apply zeroField_keeps | apply needKeyZero_keeps | apply getG_keeps | apply require_keeps
             | apply syncWait_keeps | apply State.writeKeyLine_keeps | apply State.tlbDrop_keeps
             | apply State.setKey_keeps | apply accessFault_keeps | apply specification_keeps
             | apply State.keyRead_keeps | apply KM.ret | apply KM.trap | apply KM.readThen | apply KM.change
             | apply KM.ite | apply KM.seq | (intro) | apply Keeps.ite | split)

theorem execKget_keeps {s0 : State} (e : Eng) (x : FmtA) (s : State) (hk : Keeps s0 s) : KO s0 (execKget e x s) := by
  unfold execKget
  try dsimp only
  with_reducible repeat' (
    first | assumption | apply macroNext_keeps | apply lengthIn_keeps
             | apply zeroField_keeps | apply getG_keeps | apply addressRange_keeps | apply translate_keeps
             | apply setG_keeps | apply KM.ret | apply KM.seq | (intro))

theorem execTlbia_keeps {s0 : State} (e : Eng) (x : FmtA) (s : State) (hk : Keeps s0 s) : KO s0 (execTlbia e x s) :=
    by
  unfold execTlbia
  try dsimp only
  with_reducible repeat' (
    first | assumption | apply macroNext_keeps | apply lengthIn_keeps
             | apply zeroField_keeps | apply needPriv_keeps | apply getG_keeps | apply getPsw_keeps
             | apply syncWait_keeps | apply State.tlbDrop_keeps | apply KM.ret | apply KM.change | apply KM.seq
             | (intro))

theorem execTlbid_keeps {s0 : State} (e : Eng) (x : FmtA) (s : State) (hk : Keeps s0 s) : KO s0 (execTlbid e x s) :=
    by
  unfold execTlbid
  try dsimp only
  with_reducible repeat' (
    first | assumption | apply macroNext_keeps | apply lengthIn_keeps
             | apply zeroField_keeps | apply getG_keeps | apply getPsw_keeps | apply needPriv_keeps
             | apply syncWait_keeps | apply State.tlbDrop_keeps | apply needKeyZero_keeps | apply KM.ret
             | apply KM.change | apply KM.ite | apply KM.seq | (intro))

theorem execTlbix_keeps {s0 : State} (e : Eng) (x : FmtA) (s : State) (hk : Keeps s0 s) : KO s0 (execTlbix e x s) :=
    by
  unfold execTlbix
  try dsimp only
  with_reducible repeat' (
    first | assumption | apply macroNext_keeps | apply lengthIn_keeps
             | apply zeroField_keeps | apply needKeyZero_keeps | apply syncWait_keeps | apply State.tlbDrop_keeps
             | apply KM.ret | apply KM.change | apply KM.seq | (intro))

end Sys2Proof.Machine
end

