-- ==== Sys2Proof/Laws/KeepsUpkeep.lean ====
section
/-! SUPPORT. What every function of Upkeep keeps. -/

namespace Sys2Proof.Machine

set_option linter.unusedVariables false

theorem State.dmcTick_keeps {s0 : State} (s : State) (m : Fin 2) (k : Nat) (hk : Keeps s0 s) : Keeps s0 (State.dmcTick
    s m k) := by
  unfold State.dmcTick
  try dsimp only
  with_reducible repeat' (
    first | assumption | apply State.count_keeps)

theorem State.endFills_keeps {s0 : State} (s : State) (m : Fin 2) (hk : Keeps s0 s) : Keeps s0 (State.endFills s m) :=
    by
  unfold State.endFills
  try dsimp only
  with_reducible repeat' (
    first | assumption | apply State.endFill_keeps | apply Keeps.foldl | (intro))

theorem execSelfRefreshEntry_keeps {s0 : State} (m : Fin 2) (s : State) (hk : Keeps s0 s) : KO s0
    (execSelfRefreshEntry m s) := by
  unfold execSelfRefreshEntry
  try dsimp only
  with_reducible repeat' (
    first | assumption | apply State.dmcTick_keeps | apply State.modDmc_keeps
             | apply State.endFills_keeps | apply KO.next | apply KO.ite)

theorem execDramRefresh_keeps {s0 : State} (m : Fin 2) (s : State) (hk : Keeps s0 s) : KO s0 (execDramRefresh m s) :=
    by
  unfold execDramRefresh
  try dsimp only
  with_reducible repeat' (
    first | assumption | apply State.send_keeps | apply State.dmcTick_keeps | apply KO.next
             | apply KO.ite)

theorem State.scrub_keeps {s0 : State} (s : State) (m : Fin 2) (line : Nat) (hk : Keeps s0 s) : Keeps s0 (State.scrub
    s m line) := by
  unfold State.scrub
  try dsimp only
  with_reducible repeat' (
    first | assumption | apply State.dmcTick_keeps | apply State.dramAwake_keeps
             | apply State.correctedLine_keeps | apply State.dropErrs_keeps | apply State.arrayRead_keeps
             | apply State.record_keeps | apply State.dmcUe_keeps | apply State.poisonLine_keeps
             | (refine Keeps.of_quad (by assumption) ?_) | apply Keeps.ite | split)

theorem execPatrolScrubRead_keeps {s0 : State} (m : Fin 2) (s : State) (hk : Keeps s0 s) : KO s0 (execPatrolScrubRead
    m s) := by
  unfold execPatrolScrubRead
  try dsimp only
  with_reducible repeat' (
    first | assumption | apply State.modDmc_keeps | apply State.scrub_keeps | apply KO.next
             | apply KO.ite | split)

theorem execFillTrackerStep_keeps {s0 : State} (m : Fin 2) (k : Nat) (s : State) (hk : Keeps s0 s) : KO s0
    (execFillTrackerStep m k s) := by
  unfold execFillTrackerStep
  try dsimp only
  with_reducible repeat' (
    first | assumption | apply State.modDmc_keeps | apply State.dmcTick_keeps
             | apply State.dropErrs_keeps | apply KO.next | apply KO.ite | split)

theorem State.flushCorrected_keeps {s0 : State} (s : State) (origin : Byte) (c : Corrected) (hk : Keeps s0 s) : Keeps
    s0 (State.flushCorrected s origin c) := by
  unfold State.flushCorrected
  try dsimp only
  with_reducible repeat' (
    first | assumption | apply State.logRec_keeps | (refine Keeps.update ?_ rfl rfl rfl))

theorem execCorrectedRecordFlush_keeps {s0 : State} (origin : Byte) (s : State) (hk : Keeps s0 s) : KO s0
    (execCorrectedRecordFlush origin s) := by
  unfold execCorrectedRecordFlush
  try dsimp only
  with_reducible repeat' (
    first | assumption | apply State.flushCorrected_keeps | apply KO.next | apply KO.ite
             | split)

end Sys2Proof.Machine
end

