-- ==== Sys2Proof/Laws/KeepsXcode.lean ====
section
/-! SUPPORT. What every function of Xcode keeps. -/

namespace Sys2Proof.Machine

set_option linter.unusedVariables false

theorem faultAt_keeps {s0 : State} {α : Type} (c : Cx) (n : Nat) (m : M α) (h_m : KM s0 m) : KM s0 (faultAt (α := α) c
    n m) := by
  unfold faultAt
  try dsimp only
  with_reducible repeat' (
    first | assumption | apply spend_keeps | apply KM.trap | apply KM.handled
             | apply KM.seq | (intro))

theorem unitByte_keeps {s0 : State} (c : Cx) (a : Nat) (room : Nat) (k : Nat) : KM s0 (unitByte c a room k) := by
  unfold unitByte
  try dsimp only
  with_reducible repeat' (
    first | apply stringByte_keeps | apply faultAt_keeps | apply KM.ret | apply KM.ite
             | apply KM.handled | apply KM.seq | (intro))

theorem utf8Rest_keeps {s0 : State} (c : Cx) (a : Nat) (first : Nat) (len : Nat) (rem : Nat) (room : Nat) (x1 : Nat)
    (x2 : Nat) (x3 : Nat) : KM s0 (utf8Rest c a first len rem room x1 x2 x3) := by
  induction x1 generalizing c a first len rem room x2 x3 with
  | zero =>
    unfold utf8Rest
    try dsimp only
    with_reducible repeat' (
      first | apply unitByte_keeps | exact Keeps.refl _ | apply KM.ret | apply KM.trap
               | apply KM.each | (intro) | apply Keeps.ite | dsimp only)
  | succ n ih =>
    unfold utf8Rest
    try dsimp only
    with_reducible repeat' (
      first | apply ih | apply unitByte_keeps | apply KM.go | apply KM.ret | apply KM.ite
               | apply KM.seq | (intro) | split)

theorem utf8Unit_keeps {s0 : State} (c : Cx) (a : Nat) (rem : Nat) (room : Nat) : KM s0 (utf8Unit c a rem room) := by
  unfold utf8Unit
  try dsimp only
  with_reducible repeat' (
    first | apply faultAt_keeps | apply stringByte_keeps | apply utf8Rest_keeps
             | apply KM.ret | apply KM.ite | apply KM.seq | (intro))

theorem unit16_keeps {s0 : State} (c : Cx) (a : Nat) (room : Nat) (k : Nat) : KM s0 (unit16 c a room k) := by
  unfold unit16
  try dsimp only
  with_reducible repeat' (
    first | apply unitByte_keeps | apply KM.ret | apply KM.seq | (intro) | split)

theorem utf16Unit_keeps {s0 : State} (c : Cx) (a : Nat) (rem : Nat) (room : Nat) : KM s0 (utf16Unit c a rem room) :=
    by
  unfold utf16Unit
  try dsimp only
  with_reducible repeat' (
    first | apply unit16_keeps | apply KM.ret | apply KM.ite | apply KM.seq | (intro)
             | split)

theorem tableUnit_keeps {s0 : State} (c : Cx) (table : Nat) (a : Nat) : KM s0 (tableUnit c table a) := by
  unfold tableUnit
  try dsimp only
  with_reducible repeat' (
    first | apply faultAt_keeps | apply stringByte_keeps | apply stringRead_keeps
             | apply KM.ret | apply KM.seq | (intro))

theorem tableOut_keeps {s0 : State} (c : Cx) (table : Nat) (nb : Nat) (v : Nat) : KM s0 (tableOut c table nb v) := by
  unfold tableOut
  try dsimp only
  with_reducible repeat' (
    first | apply stringRead_keeps | apply specification_keeps | apply KM.ret
             | apply KM.ite | apply KM.seq | (intro))

theorem readUnit_keeps {s0 : State} (c : Cx) (f : XFields) (table : Nat) (a : Nat) (rem : Nat) (room : Nat) : KM s0
    (readUnit c f table a rem room) := by
  unfold readUnit
  try dsimp only
  with_reducible repeat' (
    first | apply utf8Unit_keeps | apply utf16Unit_keeps | apply faultAt_keeps
             | apply stringByte_keeps | apply tableUnit_keeps | apply KM.ret | apply KM.seq | (intro) | split)

theorem encodeUnit_keeps {s0 : State} (c : Cx) (f : XFields) (table : Nat) (nb : Nat) (v : Nat) : KM s0 (encodeUnit c
    f table nb v) := by
  unfold encodeUnit
  try dsimp only
  with_reducible repeat' (
    first | apply tableOut_keeps | apply KM.ret | split)

theorem xcdUnits_keeps {s0 : State} (c : Cx) (f : XFields) (table : Nat) (nb : Nat) (d : Nat) (a : Nat) (n : Nat) (m :
    Nat) (x1 : Nat) (x2 : Nat) (x3 : Nat) : KM s0 (xcdUnits c f table nb d a n m x1 x2 x3) := by
  induction x1 generalizing c f table nb d a n m x2 x3 with
  | zero =>
    unfold xcdUnits
    try dsimp only
    with_reducible repeat' (
      first | apply readUnit_keeps | apply spend_keeps | apply stringWrite_keeps
               | apply encodeUnit_keeps | exact Keeps.refl _ | apply KM.ret | apply KM.trap | apply KM.each | (intro)
               | apply Keeps.ite | dsimp only)
  | succ n ih =>
    unfold xcdUnits
    try dsimp only
    with_reducible repeat' (
      first | apply ih | apply readUnit_keeps | apply spend_keeps
               | apply stringWrite_keeps | apply encodeUnit_keeps | apply KM.go | apply KM.ret | apply KM.ite
               | apply KM.seq | (intro) | split)

theorem xcdSegment_keeps {s0 : State} (c : Cx) (x : FmtA) (f : XFields) (table : Nat) (nb : Nat) : KM s0 (xcdSegment c
    x f table nb) := by
  unfold xcdSegment
  try dsimp only
  with_reducible repeat' (
    first | apply addrG_keeps | apply lenG_keeps | apply xcdUnits_keeps | apply putG_keeps
             | apply setCC_keeps | apply KM.ret | apply KM.seq | (intro) | split)

theorem tableHeader_keeps {s0 : State} (c : Cx) (table : Nat) : KM s0 (tableHeader c table) := by
  unfold tableHeader
  try dsimp only
  with_reducible repeat' (
    first | apply addressRange_keeps | apply stringRead_keeps | apply require_keeps
             | apply KM.ret | apply KM.seq | (intro))

theorem execXcd_keeps {s0 : State} (e : Eng) (x : FmtA) (stop : Nat) (s : State) (hk : Keeps s0 s) : KO s0 (execXcd e
    x stop s) := by
  unfold execXcd
  try dsimp only
  with_reducible repeat' (
    first | assumption | apply macroNext_keeps | apply lengthIn_keeps
             | apply zeroField_keeps | apply stringRegs_keeps | apply require_keeps | apply allowedState_keeps
             | apply addrG_keeps | apply lenG_keeps | apply addressRange_keeps | apply fixedTerm_keeps
             | apply segments_keeps | apply xcdSegment_keeps | apply tableHeader_keeps | apply KM.ret | apply KM.ite
             | apply KM.seq | (intro))

end Sys2Proof.Machine
end

