-- ==== Sys2Proof/Laws/Seen.lean ====
section
/-! SUPPORT. What an engine reads and writes through its store buffer: a drained entry reads as before, a store is read back,
and every other byte reads as before. -/

namespace Sys2Proof.Machine

/-! ### Fields of a bit vector -/

theorem getLsbD_mask (n lo w i : Nat) : ((BitVec.ofNat n (2 ^ w - 1)) <<< lo).getLsbD i =
    (decide (i < n) && decide (lo ≤ i) && decide (i < lo + w)) := by
  rw [BitVec.getLsbD_shiftLeft]
  by_cases h1 : i < n
  · by_cases h2 : i < lo
    · simp [h1, h2] <;> omega
    · rw [BitVec.getLsbD_ofNat, Nat.testBit_two_pow_sub_one]
      simp [h1, h2]
      rw [Bool.eq_iff_iff]
      simp
      omega
  · simp [h1]

/-- A bit of a bit vector after a field of it is replaced. -/
theorem getLsbD_setField {n : Nat} (x : BitVec n) (lo w v i : Nat) : (setField x lo w v).getLsbD i =
    if lo ≤ i ∧ i < lo + w then decide (i < n) && v.testBit (i - lo) else x.getLsbD i := by
  unfold setField
  dsimp only
  rw [BitVec.getLsbD_or, BitVec.getLsbD_and, BitVec.getLsbD_and, BitVec.getLsbD_not, getLsbD_mask, BitVec.getLsbD_shiftLeft,
    BitVec.getLsbD_ofNat]
  by_cases h : lo ≤ i ∧ i < lo + w
  · rw [if_pos h]
    by_cases h1 : i < n
    · have h2 : i - lo < n := by omega
      simp [h1, h.1, h.2, h2]
    · simp [h1]
  · rw [if_neg h]
    by_cases h1 : i < n
    · have : (decide (lo ≤ i) && decide (i < lo + w)) = false := by
        rw [Bool.eq_false_iff]
        simp
        omega
      simp [h1, this]
    · simp [h1, BitVec.getLsbD_of_ge _ _ (Nat.le_of_not_lt h1)]

/-- The byte of a bit vector that another byte of it does not touch, or the byte itself. -/
theorem field_setField_byte {n : Nat} (x : BitVec n) (j k v : Nat) (hj : 8 * j + 8 ≤ n) :
    field (setField x (8 * k) 8 v) (8 * j) 8 = if j = k then BitVec.ofNat 8 v else field x (8 * j) 8 := by
  apply BitVec.eq_of_getLsbD_eq
  intro i hi
  have e : ∀ y : BitVec n, (field y (8 * j) 8).getLsbD i = y.getLsbD (8 * j + i) := by
    intro y
    unfold field
    simp [hi]
  rw [e, getLsbD_setField]
  by_cases h : j = k
  · subst h
    rw [if_pos rfl, if_pos (by omega), BitVec.getLsbD_ofNat]
    simp [hi]
    omega
  · rw [if_neg h, if_neg (by omega), e]

theorem bit_setField_one {n : Nat} (x : BitVec n) (j k : Nat) (hj : j < n) :
    bit (setField x k 1 1) j = if j = k then true else bit x j := by
  unfold bit
  rw [getLsbD_setField]
  by_cases h : j = k
  · subst h
    simp [hj]
  · rw [if_neg (by omega), if_neg h]

/-! ### Entries of the store buffer -/

/-- The byte that a list of entries holds for an address: the last that was stored. -/
def storedIn (l : List SbEntry) (a : Nat) : Option Byte :=
  l.foldl (fun r y => if y.holds a then some (y.byte a) else r) none

theorem storedIn_append (l : List SbEntry) (y : SbEntry) (a : Nat) :
    storedIn (l ++ [y]) a = if y.holds a then some (y.byte a) else storedIn l a := by
  unfold storedIn
  rw [List.foldl_append]
  rfl

theorem foldl_stored (l : List SbEntry) (a : Nat) (o : Option Byte) :
    l.foldl (fun r y => if y.holds a then some (y.byte a) else r) o = (storedIn l a).or o := by
  induction l generalizing o with
  | nil => rfl
  | cons y r ih =>
    unfold storedIn
    simp only [List.foldl_cons]
    rw [ih, ih (if y.holds a = true then some (y.byte a) else none)]
    cases storedIn r a with
    | some v => rfl
    | none => by_cases h : y.holds a = true <;> simp [h]

theorem storedIn_cons (y : SbEntry) (l : List SbEntry) (a : Nat) :
    storedIn (y :: l) a = (storedIn l a).or (if y.holds a then some (y.byte a) else none) := foldl_stored l a _

theorem storedIn_map (l : List SbEntry) (f : SbEntry → SbEntry) (a : Nat)
    (hf : ∀ y, (f y).holds a = y.holds a ∧ (f y).byte a = y.byte a) : storedIn (l.map f) a = storedIn l a := by
  induction l with
  | nil => rfl
  | cons y r ih => rw [List.map_cons, storedIn_cons, storedIn_cons, ih, (hf y).1, (hf y).2]

theorem Engine.stored_eq (x : Engine) (a : Nat) : x.stored a = storedIn x.sb a := rfl

/-- An entry with `n` bytes of a list entered from its byte `o` up. -/
def SbEntry.enter (y : SbEntry) (o : Nat) (l : List Byte) (n : Nat) : SbEntry :=
  (List.range n).foldl (fun y i =>
    let k := o + i
    { y with data := setField y.data (8 * k) 8 (lget 0 l i).toNat, mask := setField y.mask k 1 1 }) y

theorem SbEntry.enter_succ (y : SbEntry) (o : Nat) (l : List Byte) (n : Nat) :
    y.enter o l (n + 1) = { y.enter o l n with
      data := setField (y.enter o l n).data (8 * (o + n)) 8 (lget 0 l n).toNat,
      mask := setField (y.enter o l n).mask (o + n) 1 1 } := by
  unfold SbEntry.enter
  rw [List.range_succ, List.foldl_append]
  rfl

theorem SbEntry.enter_block (y : SbEntry) (o : Nat) (l : List Byte) (n : Nat) : (y.enter o l n).block = y.block := by
  induction n with
  | zero => rfl
  | succ n ih => rw [SbEntry.enter_succ]; exact ih

theorem SbEntry.enter_err (y : SbEntry) (o : Nat) (l : List Byte) (n : Nat) : (y.enter o l n).err = y.err := by
  induction n with
  | zero => rfl
  | succ n ih => rw [SbEntry.enter_succ]; exact ih

/-- A new entry of the block of an address. -/
def SbEntry.fresh (pa : Nat) (held : Bool) : SbEntry := ⟨pa / 16, 0, 0, true, held, []⟩

/-- The bytes that an entry holds after a list is entered. -/
theorem SbEntry.enter_holds (y : SbEntry) (o : Nat) (l : List Byte) (n a : Nat) :
    (y.enter o l n).holds a = (y.holds a || (y.block == a / 16 && decide (o ≤ a % 16) && decide (a % 16 < o + n))) := by
  induction n with
  | zero =>
    have : (decide (o ≤ a % 16) && decide (a % 16 < o + 0)) = false := by
      rw [Bool.eq_false_iff]
      simp
    rw [Bool.and_assoc, this]
    simp [SbEntry.enter]
  | succ n ih =>
    rw [SbEntry.enter_succ]
    unfold SbEntry.holds at ih ⊢
    dsimp only
    rw [SbEntry.enter_block] at ih ⊢
    rw [bit_setField_one _ _ _ (by omega)]
    by_cases hb : (y.block == a / 16) = true
    · rw [hb] at ih ⊢
      simp only [Bool.true_and] at ih ⊢
      by_cases h : a % 16 = o + n
      · rw [if_pos h]
        simp [h]
      · rw [if_neg h, ih]
        congr 1
        rw [Bool.eq_iff_iff]
        simp
        omega
    · rw [Bool.not_eq_true] at hb
      rw [hb]
      simp

theorem SbEntry.enter_byte (y : SbEntry) (o : Nat) (l : List Byte) (n a : Nat) :
    (y.enter o l n).byte a = if o ≤ a % 16 ∧ a % 16 < o + n then lget 0 l (a % 16 - o) else y.byte a := by
  induction n with
  | zero =>
    rw [if_neg (by omega)]
    rfl
  | succ n ih =>
    rw [SbEntry.enter_succ]
    unfold SbEntry.byte at ih ⊢
    dsimp only
    rw [field_setField_byte _ _ _ _ (by omega)]
    by_cases h : a % 16 = o + n
    · rw [if_pos h, if_pos (by omega), h]
      simp
    · rw [if_neg h, ih]
      by_cases h1 : o ≤ a % 16 ∧ a % 16 < o + n
      · rw [if_pos h1, if_pos (by omega)]
      · rw [if_neg h1, if_neg (by omega)]

/-! ### Memory that takes an entry -/

theorem tget_putEntry (t : Tbl Byte) (y : SbEntry) (a : Nat) :
    tget 0 (putEntry t y) a = if y.holds a then y.byte a else tget 0 t a := by
  have h : ∀ n, n ≤ 16 → tget 0 ((List.range n).foldl (fun t i => if bit y.mask i then tset 0 t (16 * y.block + i) (y.byte i)
      else t) t) a = if y.holds a = true ∧ a % 16 < n then y.byte a else tget 0 t a := by
    intro n hn
    induction n with
    | zero => simp
    | succ n ih =>
      rw [List.range_succ, List.foldl_append, List.foldl_cons, List.foldl_nil]
      have ih := ih (by omega)
      by_cases hm : bit y.mask n = true
      · rw [if_pos hm]
        by_cases ha : a = 16 * y.block + n
        · have h1 : a % 16 = n := by omega
          have h2 : a / 16 = y.block := by omega
          rw [ha, tget_tset_self, ← ha, if_pos]
          · unfold SbEntry.byte
            rw [h1, Nat.mod_eq_of_lt (by omega)]
          · refine ⟨?_, by omega⟩
            unfold SbEntry.holds
            rw [h1, h2, hm]
            simp
        · rw [tget_tset_ne _ _ _ _ _ _ ha, ih]
          by_cases hh : y.holds a = true
          · have hb : y.block = a / 16 := by
              unfold SbEntry.holds at hh
              simp at hh
              exact hh.1
            have : a % 16 ≠ n := by omega
            by_cases h1 : a % 16 < n
            · rw [if_pos ⟨hh, h1⟩, if_pos ⟨hh, by omega⟩]
            · rw [if_neg (fun h => h1 h.2), if_neg (fun h => by have := h.2; omega)]
          · rw [if_neg (fun h => hh h.1), if_neg (fun h => hh h.1)]
      · rw [if_neg hm, ih]
        by_cases hh : y.holds a = true
        · have : a % 16 ≠ n := by
            intro e
            unfold SbEntry.holds at hh
            rw [e] at hh
            simp only [Bool.and_eq_true] at hh
            exact hm hh.2
          by_cases h1 : a % 16 < n
          · rw [if_pos ⟨hh, h1⟩, if_pos ⟨hh, by omega⟩]
          · rw [if_neg (fun h => h1 h.2), if_neg (fun h => by have := h.2; omega)]
        · rw [if_neg (fun h => hh h.1), if_neg (fun h => hh h.1)]
  unfold putEntry
  rw [h 16 (by omega)]
  have : a % 16 < 16 := by omega
  simp [this]

/-! ### What an engine sees -/

theorem Calm.seen {s t : State} (h : Calm none s t) (e : Eng) (a : Nat) : t.seen e a = s.seen e a := by
  unfold State.seen State.byteAt
  rw [Engine.stored_eq, Engine.stored_eq, h.buffers e (by simp), h.bytes rfl]

theorem performQueue_none (s : State) (u : Fin 40) (h : ∀ u, tget [] s.homes u = []) : s.performQueue u = s := by
  unfold State.performQueue
  rw [h]
  rfl

theorem performBefore_none (s : State) (pa n : Nat) (h : ∀ u, tget [] s.homes u = []) : s.performBefore pa n = s := by
  unfold State.performBefore
  have : ∀ l : List Nat, l.foldl (fun s line => match s.homeOf (max pa (line * 64)) with
      | none => s
      | some u => s.performQueue u) s = s := by
    intro l
    induction l with
    | nil => rfl
    | cons x r ih =>
      rw [List.foldl_cons]
      split
      · exact ih
      · rw [performQueue_none s _ h]
        exact ih
  exact this _

/-- A store that is performed with no bytes of its own only changes caches. -/
theorem State.performStore_calm {b : Option Eng} {s0 s : State} (e : Eng) (pa : Nat) (h : CQ b s0 s) :
    CQ b s0 (s.performStore e pa []) := by
  have hp : ∀ t : State, t.putMem pa [] = t := fun _ => rfl
  unfold State.performStore
  dsimp only
  rw [hp]
  with_reducible repeat' (
    first | assumption | apply State.noteStale_calm | apply State.cacheAccess_calm | apply CQ.ite)

theorem Engine.Undamaged.ownSb {x y : Engine} (h : x.Undamaged) (hd : y.dcache = x.dcache) (hi : y.icErr = x.icErr)
    (hb : ∀ z ∈ y.sb, z.err = []) : y.Undamaged := ⟨by rw [hd]; exact h.dcache, by rw [hi]; exact h.icache, hb⟩

/-- The engine's own store buffer replaced. -/
theorem Calm.ownSb {s0 s : State} (e : Eng) (f : Engine → Engine) (h : Calm (some e) s0 s)
    (hf : (f (s.eng e)).arch = (s.eng e).arch) (hu : (s.eng e).Undamaged → (f (s.eng e)).Undamaged) :
    Calm (some e) s0 (s.modEng e f) := by
  refine h.trans ?_
  constructor <;> intros <;> try first | rfl | assumption
  · rename_i d
    by_cases hd : d = e
    · rw [hd, State.eng_modEng, hf]
    · rw [State.eng_modEng_ne _ _ _ _ hd]
  · rename_i d hd
    rw [State.eng_modEng_ne _ _ _ _ (fun e' => hd (by rw [e']))]
  · rename_i k
    refine ⟨fun d => ?_, k.l2⟩
    by_cases hd : d = e
    · rw [hd, State.eng_modEng]
      exact hu (k.engines e)
    · rw [State.eng_modEng_ne _ _ _ _ hd]
      exact k.engines d

/-- The store buffer of a state with no damaged copy, less its oldest entry. -/
theorem Calm.popSb {s0 s : State} {e : Eng} {y : SbEntry} {r : List SbEntry} (h : Calm (some e) s0 s)
    (hb : (s.eng e).sb = y :: r) : Calm (some e) s0 (s.modEng e fun x => { x with sb := r }) :=
  h.ownSb e _ rfl fun k => k.ownSb rfl rfl fun z hz => k.buffer z (by rw [hb]; exact List.mem_cons_of_mem _ hz)

theorem Quiet.erasing {s : State} (q : Quiet s) (pa : Nat) : s.erasing pa = false := by
  unfold State.erasing
  dsimp only
  rw [beq_eq_false_iff_ne.mpr (q.standing _), Bool.and_false]

theorem Quiet.entry {s : State} (q : Quiet s) (t : State) {e : Eng} {y : SbEntry} (hy : y ∈ (s.eng e).sb) : t.entryCheck e y = t := by
  unfold State.entryCheck
  rw [(q.undamaged.engines e).buffer y hy]
  rfl

/-- The oldest entry drains: memory takes its bytes, and its engine reads what it read before. -/
theorem State.drainOne_calm {s0 s : State} (e : Eng) (h : CQ (some e) s0 s) (q : Quiet s0) :
    Calm (some e) s0 (s.drainOne e) ∧ ∀ a, (s.drainOne e).seen e a = s.seen e a := by
  unfold State.drainOne
  cases hb : (s.eng e).sb with
  | nil => exact ⟨h q, fun _ => rfl⟩
  | cons y r =>
    dsimp only
    unfold State.performEntry
    have h1 := (h q).popSb hb
    have hy := fun u => ((q.keep (h q)).entry u (e := e) (y := y) (by rw [hb]; exact List.mem_cons_self))
    generalize hs1 : (s.modEng e fun x => { x with sb := r }) = s1 at h1
    have q1 := q.keep h1
    rw [q1.erasing, if_neg Bool.false_ne_true, performBefore_none _ _ _ q1.homes]
    dsimp only
    have hc : Calm none s1 (s1.performStore e (16 * y.block) []) :=
      State.performStore_calm e _ (CQ.refl none s1) q1
    generalize (s1.performStore e (16 * y.block) []) = s2 at hc
    rw [hy]
    refine ⟨h1.trans ((hc.loosen e).trans ?_), fun a => ?_⟩
    · constructor <;> intros <;> first | rfl | assumption | (rename_i k; exact ⟨k.engines, k.l2⟩) | (rename_i hn; cases hn)
    · unfold State.seen State.byteAt
      dsimp only
      have e2 : (({ s2 with mem := { s2.mem with bytes := putEntry s2.mem.bytes y } } : State).eng e).stored a
          = storedIn r a := by
        have : ((s2.eng e).sb) = r := by
          rw [hc.buffers e (by simp), ← hs1, State.eng_modEng]
        rw [Engine.stored_eq]
        exact congrArg (storedIn · a) this
      rw [e2, Engine.stored_eq, hb, storedIn_cons, tget_putEntry, hc.bytes rfl]
      have : s1.mem.bytes = s.mem.bytes := by rw [← hs1]; rfl
      rw [this]
      cases storedIn r a with
      | some v => rfl
      | none => by_cases hh : y.holds a = true <;> simp [hh]

/-- What keeps an engine's view and is calm but for its own store buffer. -/
def Unseen (e : Eng) (s0 s t : State) : Prop := Calm (some e) s0 t ∧ ∀ a, t.seen e a = s.seen e a

theorem Unseen.of_calm {e : Eng} {s0 s t : State} (h : Calm (some e) s0 s) (k : Calm none s t) : Unseen e s0 s t :=
  ⟨h.trans (k.loosen e), fun a => k.seen e a⟩

theorem Unseen.trans {e : Eng} {s0 s t u : State} (h : Unseen e s0 s t) (k : Unseen e s0 t u) : Unseen e s0 s u :=
  ⟨k.1, fun a => (k.2 a).trans (h.2 a)⟩

/-- A calm change after one that keeps the view. -/
theorem Unseen.calm {e : Eng} {s0 s t u : State} (h : Unseen e s0 s t) (k : Calm none t u) : Unseen e s0 s u :=
  h.trans (Unseen.of_calm h.1 k)

theorem State.drain_unseen {s0 s : State} (e : Eng) (n : Nat) (h : Calm (some e) s0 s) (q : Quiet s0) :
    Unseen e s0 s (s.drain e n) := by
  induction n generalizing s with
  | zero => exact ⟨h, fun _ => rfl⟩
  | succ n ih =>
    have h1 := State.drainOne_calm e (fun _ => h) q
    exact Unseen.trans h1 (ih h1.1)

theorem State.makeRoom_unseen {s0 s : State} (e : Eng) (h : Calm (some e) s0 s) (q : Quiet s0) :
    Unseen e s0 s (s.makeRoom e) := by
  unfold State.makeRoom
  dsimp only
  have h0 : Calm none s { s with draws := s.draws + 1 } := by constructor <;> intros <;> first | rfl | assumption | (rename_i k; exact ⟨k.engines, k.l2⟩)
  have h1 : Calm (some e) s0 { s with draws := s.draws + 1 } := h.trans (h0.loosen e)
  have h2 := State.drainOne_calm e (fun _ => h1) q
  refine (Unseen.trans (Unseen.of_calm h h0) h2).calm ?_
  exact State.waitTerm_calm _ _ (State.tick_calm _ _ _ (by omega) (CQ.refl none _)) (q.keep h2.1)

theorem State.seen_modEng (s : State) (e : Eng) (f : Engine → Engine) (a : Nat) :
    (s.modEng e f).seen e a = (storedIn (f (s.eng e)).sb a).getD (s.byteAt a) := by
  unfold State.seen
  rw [State.eng_modEng]
  rfl

theorem State.seen_eq (s : State) (e : Eng) (a : Nat) : s.seen e a = (storedIn (s.eng e).sb a).getD (s.byteAt a) := rfl

/-- What is read at `a` after a list is written from `pa` up over what `f` reads. -/
def laid (f : Nat → Byte) (pa : Nat) (l : List Byte) (a : Nat) : Byte :=
  if pa ≤ a ∧ a < pa + l.length then lget 0 l (a - pa) else f a

theorem enter_getD (y : SbEntry) (pa : Nat) (l : List Byte) (a : Nat) (m : Option Byte) (b : Byte) (hl : pa % 16 + l.length ≤ 16)
    (hb : y.block = pa / 16) (hy : y.holds a = true → m = some (y.byte a)) :
    ((if (y.enter (pa % 16) l l.length).holds a then some ((y.enter (pa % 16) l l.length).byte a) else m).getD b) =
      laid (fun _ => m.getD b) pa l a := by
  rw [SbEntry.enter_holds, SbEntry.enter_byte]
  unfold laid
  by_cases h : pa ≤ a ∧ a < pa + l.length
  · have h1 : a / 16 = pa / 16 := by omega
    have h2 : pa % 16 ≤ a % 16 ∧ a % 16 < pa % 16 + l.length := by omega
    rw [if_pos h, if_pos h2, hb, h1]
    simp only [h2.1, h2.2, beq_self_eq_true, decide_true, Bool.and_self, Bool.or_true, if_true, Option.getD_some]
    congr 1
    omega
  · rw [if_neg h]
    by_cases hh : y.holds a = true
    · have hba : y.block = a / 16 := by
        unfold SbEntry.holds at hh
        simp at hh
        exact hh.1
      have hc : ¬ (pa % 16 ≤ a % 16 ∧ a % 16 < pa % 16 + l.length) := by
        have : a / 16 = pa / 16 := hba.symm.trans hb
        omega
      rw [if_neg hc, hh, Bool.true_or, if_pos rfl]
      exact congrArg (Option.getD · b) (hy hh).symm
    · have : (y.block == a / 16 && decide (pa % 16 ≤ a % 16) && decide (a % 16 < pa % 16 + l.length)) = false := by
        rw [Bool.eq_false_iff]
        simp
        omega
      rw [this, Bool.not_eq_true] at *
      rw [hh]
      simp

theorem dropLast_getLast {l : List SbEntry} {y : SbEntry} (h : l.getLast? = some y) : l = l.dropLast ++ [y] := by
  have hn : l ≠ [] := by
    intro e
    rw [e] at h
    cases h
  rw [List.getLast?_eq_some_getLast hn] at h
  cases h
  exact (List.dropLast_concat_getLast hn).symm

/-- Bytes entered in one block are read there, and every other byte reads as before. -/
theorem State.enterBlock_seen {s0 s : State} (e : Eng) (pa : Nat) (l : List Byte) (held : Bool) (h : Calm (some e) s0 s)
    (q : Quiet s0) (hl : pa % 16 + l.length ≤ 16) :
    Calm (some e) s0 (s.enterBlock e pa l held) ∧
      ∀ a, (s.enterBlock e pa l held).seen e a = laid (s.seen e) pa l a := by
  have new : ∀ (t : State) (hh : Calm (some e) s0 t), Calm (some e) s0 (t.modEng e fun x =>
        { x with sb := x.sb ++ [(SbEntry.fresh pa held).enter (pa % 16) l l.length] }) ∧
      ∀ a, (t.modEng e fun x => { x with sb := x.sb ++ [(SbEntry.fresh pa held).enter (pa % 16) l l.length] }).seen e a
        = laid (t.seen e) pa l a := by
    intro t hh
    refine ⟨hh.ownSb e _ rfl fun k => k.ownSb rfl rfl fun z hz => ?_, fun a => ?_⟩
    · rcases List.mem_append.mp hz with hz | hz
      · exact k.buffer z hz
      · rw [List.mem_singleton.mp hz, SbEntry.enter_err]
        rfl
    rw [State.seen_modEng, storedIn_append, enter_getD _ pa l a _ _ hl rfl (by simp [SbEntry.fresh, SbEntry.holds, bit])]
    rfl
  unfold State.enterBlock
  dsimp only
  cases hb : (s.eng e).sb.getLast? with
  | none =>
    have he : (s.eng e).sb = [] := List.getLast?_eq_none_iff.mp hb
    dsimp only
    refine ⟨h.ownSb e _ rfl fun k => k.ownSb rfl rfl fun z hz => ?_, fun a => ?_⟩
    · rw [List.mem_singleton.mp hz]
      exact SbEntry.enter_err (SbEntry.fresh pa held) (pa % 16) l l.length
    rw [State.seen_modEng]
    have := enter_getD (SbEntry.fresh pa held) pa l a none (s.byteAt a) hl rfl (by simp [SbEntry.fresh, SbEntry.holds, bit])
    refine Eq.trans ?_ (this.trans ?_)
    · rfl
    · unfold laid
      rw [State.seen_eq, he]
      rfl
  | some y =>
    have hs := dropLast_getLast hb
    dsimp only
    by_cases hj : (y.opened && y.block == pa / 16) = true
    · rw [if_pos hj]
      simp only [Bool.and_eq_true, beq_iff_eq] at hj
      refine ⟨h.ownSb e _ rfl fun k => k.ownSb rfl rfl fun z hz => ?_, fun a => ?_⟩
      · rcases List.mem_append.mp hz with hz | hz
        · exact k.buffer z (List.dropLast_subset _ hz)
        · rw [List.mem_singleton.mp hz]
          exact (SbEntry.enter_err y (pa % 16) l l.length).trans
            (k.buffer y (by rw [hs]; exact List.mem_append_right _ (List.mem_singleton.mpr rfl)))
      rw [State.seen_modEng]
      dsimp only
      rw [storedIn_append]
      have e1 : storedIn (s.eng e).sb a = if y.holds a then some (y.byte a) else storedIn (s.eng e).sb.dropLast a := by
        conv => lhs; rw [hs]
        exact storedIn_append _ _ _
      have := enter_getD y pa l a (storedIn (s.eng e).sb a) (s.byteAt a) hl hj.2 (fun hh => by rw [e1, if_pos hh])
      unfold laid at this ⊢
      rw [State.seen_eq, ← this]
      congr 1
      by_cases hh : (y.enter (pa % 16) l l.length).holds a = true
      · rw [if_pos hh]
        exact if_pos hh
      · rw [if_neg hh]
        refine (if_neg hh).trans ?_
        rw [e1, if_neg]
        intro hy
        rw [SbEntry.enter_holds, hy] at hh
        exact hh rfl
    · rw [if_neg hj]
      have h1 : Unseen e s0 s (s.modEng e fun x => { x with sb := x.sb.map fun y => { y with opened := false } }) := by
        refine ⟨h.ownSb e _ rfl fun k => k.ownSb rfl rfl fun z hz => ?_, fun a => ?_⟩
        · obtain ⟨w, hw, rfl⟩ := List.mem_map.mp hz
          exact k.buffer w hw
        rw [State.seen_modEng, State.seen_eq]
        congr 1
        exact storedIn_map _ _ _ fun y => ⟨rfl, rfl⟩
      split
      · obtain ⟨a1, a2⟩ := new _ h1.1
        refine ⟨a1, fun a => (a2 a).trans ?_⟩
        unfold laid
        rw [h1.2]
      · have h2 := h1.trans (State.makeRoom_unseen e h1.1 q)
        obtain ⟨a1, a2⟩ := new _ h2.1
        refine ⟨a1, fun a => (a2 a).trans ?_⟩
        unfold laid
        rw [h2.2]

theorem over_split (f : Nat → Byte) (pa k : Nat) (l : List Byte) (a : Nat) (hk : k ≤ l.length) :
    laid (laid f pa (l.take k)) (pa + k) (l.drop k) a = laid f pa l a := by
  unfold laid
  rw [List.length_drop, List.length_take, Nat.min_eq_left hk]
  by_cases h1 : pa + k ≤ a ∧ a < pa + k + (l.length - k)
  · rw [if_pos h1, if_pos (by omega)]
    unfold lget
    rw [List.getD_eq_getElem?_getD, List.getD_eq_getElem?_getD, List.getElem?_drop]
    congr 2
    omega
  · rw [if_neg h1]
    by_cases h2 : pa ≤ a ∧ a < pa + k
    · rw [if_pos h2, if_pos (by omega)]
      unfold lget
      rw [List.getD_eq_getElem?_getD, List.getD_eq_getElem?_getD, List.getElem?_take_of_lt (by omega)]
    · rw [if_neg h2, if_neg (by omega)]

/-- Bytes stored from an address up are read there, and every other byte reads as before. -/
theorem State.enterStore_seen {s0 : State} (e : Eng) (held : Bool) (q : Quiet s0) (fuel : Nat) :
    ∀ (s : State) (pa : Nat) (l : List Byte), Calm (some e) s0 s → l.length ≤ 16 - pa % 16 + 16 * (fuel - 1) → 0 < fuel →
      Calm (some e) s0 (s.enterStore e held fuel pa l) ∧ ∀ a, (s.enterStore e held fuel pa l).seen e a = laid (s.seen e) pa l a := by
  induction fuel with
  | zero => intro _ _ _ _ _ hf; omega
  | succ n ih =>
    intro s pa l h hl _
    unfold State.enterStore
    by_cases h0 : l = []
    · rw [if_pos h0]
      refine ⟨h, fun a => ?_⟩
      unfold laid
      rw [h0, if_neg]
      simp only [List.length_nil]
      omega
    · rw [if_neg h0]
      dsimp only
      obtain ⟨a1, a2⟩ := State.enterBlock_seen e pa (l.take (16 - pa % 16)) held h q (by rw [List.length_take]; omega)
      by_cases hn : n = 0
      · have ht : l.take (16 - pa % 16) = l := List.take_of_length_le (by omega)
        rw [hn]
        rw [ht] at a1 a2 ⊢
        exact ⟨a1, a2⟩
      · obtain ⟨b1, b2⟩ := ih (s.enterBlock e pa (l.take (16 - pa % 16)) held) (pa + (16 - pa % 16)) (l.drop (16 - pa % 16)) a1
          (by
            have : (pa + (16 - pa % 16)) % 16 = 0 := by omega
            rw [List.length_drop, this]
            omega) (by omega)
        refine ⟨b1, fun a => (b2 a).trans ?_⟩
        by_cases hk : 16 - pa % 16 ≤ l.length
        · rw [← over_split _ _ _ l a hk]
          unfold laid
          rw [a2]
          rfl
        · have hd : l.drop (16 - pa % 16) = [] := List.drop_of_length_le (by omega)
          have ht : l.take (16 - pa % 16) = l := List.take_of_length_le (by omega)
          unfold laid
          rw [hd, if_neg (by simp only [List.length_nil]; omega), a2, ht]
          rfl

/-! ### Reads and writes of operands -/

theorem storedIn_none (l : List SbEntry) (a : Nat) (h : ∀ y ∈ l, y.holds a = false) : storedIn l a = none := by
  induction l with
  | nil => rfl
  | cons y r ih =>
    rw [storedIn_cons, ih fun z hz => h z (List.mem_cons_of_mem _ hz), h y List.mem_cons_self]
    rfl

/-- What `youngest` answers: the last entry that holds one of the addresses. -/
theorem youngest_some (addrs : List Nat) (l : List SbEntry) (k i : Nat) (y : SbEntry) (h : youngest addrs l k = some (i, y)) :
    ∃ j, i = k + j ∧ (∀ z ∈ l.drop (j + 1), addrs.any z.holds = false)
      ∧ (∀ a ∈ addrs, y.holds a = true → storedIn l a = some (y.byte a)) ∧ y ∈ l := by
  induction l generalizing k with
  | nil => cases h
  | cons x r ih =>
    unfold youngest at h
    cases hr : youngest addrs r (k + 1) with
    | some z =>
      rw [hr] at h
      cases h
      obtain ⟨j, h1, h2, h3, h4⟩ := ih (k + 1) hr
      refine ⟨j + 1, by omega, by simpa using h2, fun a ha hy => ?_, List.mem_cons_of_mem _ h4⟩
      rw [storedIn_cons, h3 a ha hy]
      rfl
    | none =>
      rw [hr] at h
      dsimp only at h
      split at h
      · cases h
        have none' : ∀ (l : List SbEntry) k, youngest addrs l k = none → ∀ z ∈ l, addrs.any z.holds = false := by
          intro l
          induction l with
          | nil => intro _ _ z hz; cases hz
          | cons w l ihl =>
            intro k hk z hz
            unfold youngest at hk
            cases hw : youngest addrs l (k + 1) with
            | some v => rw [hw] at hk; cases hk
            | none =>
              rw [hw] at hk
              dsimp only at hk
              split at hk
              · cases hk
              · rename_i hh
                rcases List.mem_cons.mp hz with rfl | hz
                · simpa using hh
                · exact ihl _ hw z hz
        refine ⟨0, by omega, fun z hz => none' _ _ hr z (by simpa using hz), fun a ha hy => ?_, List.mem_cons_self⟩
        rw [storedIn_cons, storedIn_none r a, hy]
        · rfl
        · intro z hz
          have := none' _ _ hr z hz
          rw [List.any_eq_false] at this
          simpa using this a ha
      · cases h

theorem youngest_none (addrs : List Nat) (l : List SbEntry) (k : Nat) (h : youngest addrs l k = none) (a : Nat)
    (ha : a ∈ addrs) : storedIn l a = none := by
  induction l generalizing k with
  | nil => rfl
  | cons x r ih =>
    unfold youngest at h
    cases hr : youngest addrs r (k + 1) with
    | some z => rw [hr] at h; cases h
    | none =>
      rw [hr] at h
      dsimp only at h
      split at h
      · cases h
      · rename_i hh
        rw [storedIn_cons, ih _ hr]
        have : x.holds a = false := by
          rw [Bool.not_eq_true, List.any_eq_false] at hh
          simpa using hh a ha
        rw [this]
        rfl

/-- A drained entry has left the store buffer. -/
theorem State.drainOne_sb {s0 s : State} (e : Eng) (h : Calm (some e) s0 s) (q : Quiet s0) :
    ((s.drainOne e).eng e).sb = (s.eng e).sb.drop 1 := by
  unfold State.drainOne
  cases hb : (s.eng e).sb with
  | nil => exact hb
  | cons y r =>
    dsimp only
    unfold State.performEntry
    have h1 := h.popSb hb
    have hy := fun u => ((q.keep h).entry u (e := e) (y := y) (by rw [hb]; exact List.mem_cons_self))
    rw [(q.keep h1).erasing, if_neg Bool.false_ne_true, performBefore_none _ _ _ (q.keep h1).homes]
    dsimp only
    rw [hy]
    have hc := State.performStore_calm e (16 * y.block) (CQ.refl none (s.modEng e fun x => { x with sb := r })) (q.keep h1)
    refine (hc.buffers e (by simp)).trans ?_
    rw [State.eng_modEng]
    rfl

theorem State.drain_sb {s0 s : State} (e : Eng) (n : Nat) (h : Calm (some e) s0 s) (q : Quiet s0) :
    ((s.drain e n).eng e).sb = (s.eng e).sb.drop n := by
  induction n generalizing s with
  | zero => rfl
  | succ n ih =>
    have h1 := State.drainOne_calm e (fun _ => h) q
    unfold State.drain
    rw [ih h1.1, State.drainOne_sb e h q, List.drop_drop, Nat.add_comm]

theorem performAll_none (s : State) (ps : List (Nat × Nat)) (h : ∀ u, tget [] s.homes u = []) :
    ps.foldl (fun s p => s.performBefore p.1 p.2) s = s := by
  induction ps with
  | nil => rfl
  | cons p r ih => rw [List.foldl_cons, performBefore_none s _ _ h, ih]

/-- The part of a read after the store buffer: what it leaves, and what it answers. -/
theorem readRest {s0 s t : State} {e : Eng} {ea : Nat} {ps : List (Nat × Nat)} {l : List Byte} (h : Calm (some e) s0 s)
    (q : Quiet s0)
    (hr : M.exec (do
      modify fun s => ps.foldl (fun s p => s.performBefore p.1 p.2) s
      modify (·.linesAccess e (linesOfPieces ps) false false)
      match ← ask (fun s => (linesOfPieces ps).find? fun l => tget false s.mem.poison l) with
      | some l => throw (.mcheck 0x10 ea (l * 64))
      | none => pure ()
      ask fun s => (addrsOf ps).map s.byteAt) s = (.ok l, t)) :
    Calm none s t ∧ l = (addrsOf ps).map s.byteAt := by
  have hp : ps.foldl (fun s p => s.performBefore p.1 p.2) s = s :=
    performAll_none s ps fun u => by rw [h.homes]; exact q.homes u
  simp only [M.exec_bind, M.exec_modify, M.exec_ask, hp] at hr
  generalize hs : s.linesAccess e (linesOfPieces ps) false false = s2 at hr
  have hc : Calm none s s2 := by
    rw [← hs]
    exact State.linesAccess_calm _ _ _ _ (CQ.refl none s) (q.keep h)
  cases hf : (linesOfPieces ps).find? (fun l => tget false s2.mem.poison l) with
  | some k => rw [hf] at hr; simp at hr
  | none =>
    rw [hf] at hr
    simp only at hr
    obtain ⟨rfl, rfl⟩ := hr
    refine ⟨hc, ?_⟩
    apply List.map_congr_left
    intro a _
    unfold State.byteAt
    rw [hc.bytes rfl]

/-- A read of normal memory answers what its engine sees, and leaves all of it as it was (R102, R210, R226). -/
theorem readPieces_seen {s0 s t : State} {e : Eng} {ea : Nat} {ps : List (Nat × Nat)} {l : List Byte}
    (h : Calm (some e) s0 s) (q : Quiet s0) (hr : M.exec (readPieces e ea ps) s = (.ok l, t)) :
    Unseen e s0 s t ∧ l = (addrsOf ps).map (s.seen e) := by
  unfold readPieces at hr
  dsimp only at hr
  rw [M.exec_bind, M.exec_get] at hr
  dsimp only at hr
  cases hy : youngest (addrsOf ps) (s.eng e).sb 0 with
  | none =>
    rw [hy] at hr
    simp only [M.exec_bind] at hr
    simp only [← M.exec_bind] at hr
    obtain ⟨h1, h2⟩ := readRest h q hr
    refine ⟨Unseen.of_calm h h1, h2.trans (List.map_congr_left fun a ha => ?_)⟩
    rw [State.seen_eq, youngest_none _ _ _ hy a ha]
    rfl
  | some z =>
    obtain ⟨i, y⟩ := z
    obtain ⟨j, hj, h1, h2, h3⟩ := youngest_some _ _ _ _ _ hy
    have hm : (secded8 y.err != .uncorrectable) = true := by rw [((q.keep h).undamaged.engines e).buffer y h3]; rfl
    rw [hy] at hr
    dsimp only at hr
    rw [hm, Bool.and_true] at hr
    by_cases ha : (addrsOf ps).all y.holds = true
    · rw [if_pos ha] at hr
      cases hr
      refine ⟨⟨h, fun _ => rfl⟩, List.map_congr_left fun a hm => ?_⟩
      rw [State.seen_eq, h2 a hm (List.all_eq_true.mp ha a hm)]
      rfl
    · rw [if_neg ha] at hr
      simp only [M.exec_bind, M.exec_modify] at hr
      simp only [← M.exec_bind] at hr
      have hd := State.drain_unseen e (i + 1) h q
      generalize hu : ((s.drain e (i + 1)).tick e 17 (4 * (i + 1))).waitTerm e (4 * (i + 1)) = u at hr
      have hc : Calm none (s.drain e (i + 1)) u := by
        rw [← hu]
        exact State.waitTerm_calm _ _ (State.tick_calm _ _ _ (by omega) (CQ.refl none _)) (q.keep hd.1)
      have hu' := hd.calm hc
      obtain ⟨k1, k2⟩ := readRest hu'.1 q hr
      refine ⟨hu'.calm k1, k2.trans (List.map_congr_left fun a hm => ?_)⟩
      rw [← hu'.2 a, State.seen_eq]
      have : storedIn (u.eng e).sb a = none := by
        rw [hc.buffers e (by simp), State.drain_sb e _ h q, hj, Nat.zero_add]
        refine storedIn_none _ _ fun z hz => ?_
        have := h1 z hz
        rw [List.any_eq_false] at this
        simpa using this a hm
      rw [this]
      rfl

/-- What is read after a list is written piece by piece. -/
def overs (f : Nat → Byte) : List (Nat × Nat) → List Byte → Nat → Byte
  | [], _ => f
  | p :: r, l => overs (laid f p.1 (l.take p.2)) r (l.drop p.2)

theorem overs_congr {f g : Nat → Byte} (h : ∀ a, f a = g a) (ps : List (Nat × Nat)) (l : List Byte) (a : Nat) :
    overs f ps l a = overs g ps l a := by
  rw [funext h]

theorem mem_upFrom (pa n a : Nat) : a ∈ upFrom pa n ↔ pa ≤ a ∧ a < pa + n := by
  induction n generalizing pa with
  | zero =>
    simp [upFrom]
  | succ n ih =>
    rw [upFrom, List.mem_cons, ih]
    omega

/-- A byte that no piece holds reads as before. -/
theorem overs_other (f : Nat → Byte) (ps : List (Nat × Nat)) (l : List Byte) (a : Nat) (h : a ∉ addrsOf ps) :
    overs f ps l a = f a := by
  induction ps generalizing f l with
  | nil => rfl
  | cons p r ih =>
    have h' : addrsOf (p :: r) = upFrom p.1 p.2 ++ addrsOf r := rfl
    rw [h', List.mem_append, mem_upFrom] at h
    unfold overs
    rw [ih _ _ (fun hr => h (Or.inr hr))]
    unfold laid
    rw [if_neg]
    intro hh
    have := hh.2
    rw [List.length_take] at this
    exact h (Or.inl ⟨hh.1, by omega⟩)

theorem map_over_upFrom (f : Nat → Byte) (pa : Nat) (l : List Byte) : (upFrom pa l.length).map (laid f pa l) = l := by
  have : ∀ (m : List Byte) (k : Nat), l.drop k = m → (upFrom (pa + k) m.length).map (laid f pa l) = m := by
    intro m
    induction m with
    | nil => intro _ _; rfl
    | cons b r ih =>
      intro k hk
      have hl : k < l.length := by
        rcases Nat.lt_or_ge k l.length with h | h
        · exact h
        · rw [List.drop_of_length_le h] at hk
          cases hk
      rw [List.length_cons, upFrom, List.map_cons, Nat.add_assoc, ih (k + 1) (by rw [← List.drop_drop, hk]; rfl)]
      congr 1
      unfold laid lget
      rw [if_pos (by omega), Nat.add_sub_cancel_left, List.getD_eq_getElem?_getD]
      have : l[k]? = some b := by
        have : (l.drop k)[0]? = some b := by rw [hk]; rfl
        rwa [List.getElem?_drop, Nat.add_zero] at this
      rw [this]
      rfl
  exact this l 0 rfl

/-- What was written piece by piece is read back, when the pieces do not overlap. -/
theorem overs_same (f : Nat → Byte) (ps : List (Nat × Nat)) (l : List Byte) (hl : l.length = (addrsOf ps).length)
    (hn : (addrsOf ps).Nodup) : (addrsOf ps).map (overs f ps l) = l := by
  have lenUp : ∀ pa n, (upFrom pa n).length = n := by
    intro pa n
    induction n generalizing pa with
    | zero => rfl
    | succ n ih => rw [upFrom, List.length_cons, ih]
  induction ps generalizing f l with
  | nil =>
    have : l = [] := List.length_eq_zero_iff.mp hl
    rw [this]
    rfl
  | cons p r ih =>
    have h' : addrsOf (p :: r) = upFrom p.1 p.2 ++ addrsOf r := rfl
    rw [h'] at hl hn ⊢
    rw [List.length_append, lenUp] at hl
    obtain ⟨_, n2, n3⟩ := List.nodup_append.mp hn
    rw [List.map_append]
    unfold overs
    rw [ih _ _ (by rw [List.length_drop]; omega) n2]
    have e : (upFrom p.1 p.2).map (overs (laid f p.1 (l.take p.2)) r (l.drop p.2)) = l.take p.2 := by
      have : (upFrom p.1 p.2).map (overs (laid f p.1 (l.take p.2)) r (l.drop p.2))
          = (upFrom p.1 p.2).map (laid f p.1 (l.take p.2)) :=
        List.map_congr_left fun a ha => overs_other _ _ _ _ fun hr => n3 a ha a hr rfl
      rw [this]
      have hk : (l.take p.2).length = p.2 := by rw [List.length_take]; omega
      have := map_over_upFrom f p.1 (l.take p.2)
      rwa [hk] at this
    rw [e, List.take_append_drop]

/-- A write of normal memory: every piece reads what was written, every other byte as before (R102). -/
theorem writePieces_seen {s0 s : State} {e : Eng} {ps : List (Nat × Nat)} {l : List Byte} (held crossed : Bool)
    (h : Calm (some e) s0 s) (q : Quiet s0) (hl : l.length = (addrsOf ps).length) :
    ∃ t, M.exec (writePieces e ps l held crossed) s = (.ok (), t) ∧ Calm (some e) s0 t
      ∧ ∀ a, t.seen e a = overs (s.seen e) ps l a := by
  have lenUp : ∀ pa n, (upFrom pa n).length = n := by
    intro pa n
    induction n generalizing pa with
    | zero => rfl
    | succ n ih => rw [upFrom, List.length_cons, ih]
  have fold : ∀ (ps : List (Nat × Nat)) (l : List Byte) (s : State), Calm (some e) s0 s → l.length = (addrsOf ps).length →
      let r := ps.foldl (fun (a : State × List Byte) p =>
        (a.1.enterStore e held (p.2 / 16 + 2) p.1 (a.2.take p.2), a.2.drop p.2)) (s, l)
      Calm (some e) s0 r.1 ∧ ∀ a, r.1.seen e a = overs (s.seen e) ps l a := by
    intro ps
    induction ps with
    | nil => intro l s hs _; exact ⟨hs, fun _ => rfl⟩
    | cons p r ih =>
      intro l s hs hl
      have h' : addrsOf (p :: r) = upFrom p.1 p.2 ++ addrsOf r := rfl
      rw [h', List.length_append, lenUp] at hl
      obtain ⟨c1, c2⟩ := State.enterStore_seen e held q (p.2 / 16 + 2) s p.1 (l.take p.2) hs
        (by rw [List.length_take]; omega) (by omega)
      obtain ⟨d1, d2⟩ := ih (l.drop p.2) (s.enterStore e held (p.2 / 16 + 2) p.1 (l.take p.2)) c1
        (by rw [List.length_drop]; omega)
      exact ⟨d1, fun a => (d2 a).trans (overs_congr c2 _ _ _)⟩
  have hc : Calm none s (s.linesAccess e (linesOfPieces ps) true crossed) :=
    State.linesAccess_calm _ _ _ _ (CQ.refl none s) (q.keep h)
  obtain ⟨f1, f2⟩ := fold ps l _ (h.trans (hc.loosen e)) hl
  exact ⟨_, rfl, f1, fun a => (f2 a).trans (overs_congr (fun b => hc.seen e b) _ _ _)⟩

/-! ### What begins an access -/

theorem awaitPosts_none (s : State) (e : Eng) (h : (s.eng e).posts = []) : s.awaitPosts e = s := by
  unfold State.awaitPosts
  rw [h]
  rfl

/-- The pieces of an operand in normal memory. -/
theorem checkedPieces_normal {c : Cx} {acc : Acc} {ea n : Nat} {rule : DeviceRule} {s t : State} {ps : List (Nat × Nat)}
    (h : M.exec (pieces c.e c.slot acc ea n) s = (.ok ps, t)) (hd : t.anyDevice ps = false) :
    M.exec (checkedPieces c acc ea n rule) s = (.ok ps, t) := by
  unfold checkedPieces
  rw [M.exec_bind, h]
  simp only [M.exec_bind, M.exec_get]
  rw [hd]
  rfl

/-- The pieces of an operand are found without a change but in caches and TLBs. -/
theorem pieces_calm_run {c : Cx} {acc : Acc} {ea n : Nat} {s t : State} {ps : List (Nat × Nat)} (q : Quiet s)
    (h : M.exec (pieces c.e c.slot acc ea n) s = (.ok ps, t)) : Calm none s t := by
  have := pieces_calm (b := none) (s0 := s) c.e c.slot acc ea n s (CQ.refl none s) q
  change Calm none s (M.exec (pieces c.e c.slot acc ea n) s).2 at this
  rw [h] at this
  exact this

/-- A read of pieces whose lines are not poisoned answers. -/
theorem readPieces_answers {s0 s : State} {e : Eng} (ea : Nat) {ps : List (Nat × Nat)} (h : Calm (some e) s0 s) (q : Quiet s0)
    (hp : ∀ l ∈ linesOfPieces ps, tget false s.mem.poison l = false) :
    ∃ l t, M.exec (readPieces e ea ps) s = (.ok l, t) := by
  have rest : ∀ u : State, Calm (some e) s0 u → u.mem.poison = s.mem.poison → ∃ l t, M.exec (do
      modify fun s => ps.foldl (fun s p => s.performBefore p.1 p.2) s
      modify (·.linesAccess e (linesOfPieces ps) false false)
      match ← ask (fun s => (linesOfPieces ps).find? fun l => tget false s.mem.poison l) with
      | some l => throw (.mcheck 0x10 ea (l * 64))
      | none => pure ()
      ask fun s => (addrsOf ps).map s.byteAt) u = (.ok l, t) := by
    intro u hu hpu
    have hn : ps.foldl (fun s p => s.performBefore p.1 p.2) u = u :=
      performAll_none u ps fun k => by rw [hu.homes]; exact q.homes k
    simp only [M.exec_bind, M.exec_modify, M.exec_ask, hn]
    have hc : Calm none u (u.linesAccess e (linesOfPieces ps) false false) :=
      State.linesAccess_calm _ _ _ _ (CQ.refl none u) (q.keep hu)
    rw [hc.poison, hpu]
    have hf : (linesOfPieces ps).find? (fun l => tget false s.mem.poison l) = none := by
      rw [List.find?_eq_none]
      intro l hl
      rw [hp l hl]
      exact Bool.false_ne_true
    rw [hf]
    exact ⟨_, _, rfl⟩
  unfold readPieces
  dsimp only
  rw [M.exec_bind, M.exec_get]
  dsimp only
  cases youngest (addrsOf ps) (s.eng e).sb 0 with
  | none =>
    simp only [M.exec_bind]
    simp only [← M.exec_bind]
    exact rest s h rfl
  | some z =>
    obtain ⟨i, y⟩ := z
    dsimp only
    by_cases ha : ((addrsOf ps).all y.holds && secded8 y.err != .uncorrectable) = true
    · rw [if_pos ha]
      exact ⟨_, _, rfl⟩
    · rw [if_neg ha]
      simp only [M.exec_bind, M.exec_modify]
      simp only [← M.exec_bind]
      have hd := State.drain_unseen e (i + 1) h q
      have hc : Calm none (s.drain e (i + 1)) (((s.drain e (i + 1)).tick e 17 (4 * (i + 1))).waitTerm e (4 * (i + 1))) :=
        State.waitTerm_calm _ _ (State.tick_calm _ _ _ (by omega) (CQ.refl none _)) (q.keep hd.1)
      have hd0 : (s.drain e (i + 1)).mem.poison = s.mem.poison := hd.1.poison.trans h.poison.symm
      exact rest _ (hd.calm hc).1 (hc.poison.trans hd0)

end Sys2Proof.Machine
end

