-- ==== Sys2Proof/WellFormed.lean ====
section
/-! DEFINITION. Which terms of Instr a part can receive: fields that a form does not carry are zero, and counts and byte
lists stay within what the interfaces carry. -/

namespace Sys2Proof

/-- Format A: IMM16 only in 6 bytes (R89). -/
def FmtA.wf (x : FmtA) : Bool := x.len == .l6 || x.imm == 0

/-- Format B: 20 bits of DISP and no more in 6 and 8 bytes, MOD's low bits and MOD2 only where the form has them (R89). -/
def FmtB.wf (x : FmtB) : Bool :=
  match x.len with
  | .l4 => x.disp == 0 && x.mod2 == 0
  | .l6 => decide (x.disp.toNat < 2 ^ 20) && field x.mod 0 4 == 0 && x.mod2 == 0
  | .l8 => decide (x.disp.toNat < 2 ^ 20) && decide (x.mod2.toNat < 2 ^ 12)
  | .l12 => true

/-- Format C: the displacements stand only in 12 bytes (R89). -/
def FmtC.wf (x : FmtC) : Bool := x.len == .l12 || (x.dp1 == 0 && x.dp2 == 0)

/-- Format D: 20 bits of DISP and 12 of the immediate in 8 bytes (R89). -/
def FmtD.wf (x : FmtD) : Bool :=
  match x.len with
  | .l8 => decide (x.disp.toNat < 2 ^ 20) && decide (x.imm.toNat < 2 ^ 12)
  | .l12 => true
  | _ => x.disp == 0 && x.imm == 0

/-- Format E: 14 bits of OFF in 4 and 12 bytes; MASK in 8 and 12, TGT in 12 (R89). -/
def FmtE.wf (x : FmtE) : Bool :=
  match x.len with
  | .l4 => decide (x.off.toNat < 2 ^ 14) && x.mask == 0 && x.tgt == 0
  | .l6 => x.mask == 0 && x.tgt == 0
  | .l8 => x.tgt == 0
  | .l12 => decide (x.off.toNat < 2 ^ 14)

/-- Format X-A: RC and MOD2 only in 6 bytes (R89). -/
def FmtXA.wf (x : FmtXA) : Bool := x.len == .l6 || (x.rc == 0 && x.mod2 == 0)

/-- Format X-B: 20 bits of DISP and 12 of MOD2 in 8 bytes (R89). -/
def FmtXB.wf (x : FmtXB) : Bool :=
  match x.len with
  | .l8 => decide (x.disp.toNat < 2 ^ 20) && decide (x.mod2.toNat < 2 ^ 12)
  | .l12 => true
  | _ => x.disp == 0 && x.mod2 == 0

/-- Either form of an operation of R179. -/
def FmtX.wf : FmtX → Bool
  | .reg x => x.wf
  | .mem x => x.wf

/-- Either form of DTS. -/
def FmtDts.wf : FmtDts → Bool
  | .reg x => x.wf
  | .mem x => x.wf

/-- A register access is of 1, 2, 4 or 8 bytes (R551). -/
def sizeOk (n : Nat) : Bool := n == 1 || n == 2 || n == 4 || n == 8

/-- Code groups that a receiver can see in one go: at least an ordered set, at most a cycle of 31,250 BT (R397, R402). -/
def trainOk (l : List (BitVec 10)) : Bool := decide (2 ≤ l.length) && decide (l.length ≤ 31250)

/-- A term that a part can receive. -/
def Instr.wf : Instr → Bool
  | .add _ x | .sub _ x | .and _ x | .or _ x | .xor _ x | .shl _ x | .shr _ x | .sar _ x | .rol _ x | .cmp _ x
  | .cmpu _ x | .cmpp _ x | .mov _ x | .mvi _ x | .mul _ x | .mulh _ x | .mulhu _ x | .div _ x | .divu _ x
  | .dad _ x | .dsb _ x | .dzp _ x | .dmp _ x | .ddv _ x | .dcp _ x | .dsh _ x | .drn _ x | .dtb _ x | .btd _ x
  | .mvs _ x _ | .mvp _ x _ | .cls _ x _ | .clp _ x _ | .trn _ x _ | .trt _ x _ | .scn _ x _ | .xcd _ x _ | .edt _ x _
  | .edk _ x _ | .crc _ x _ | .sync _ x | .syncw _ x | .syncr _ x | .fmvg _ x | .gmvf _ x | .dtf _ x | .ftd _ x
  | .pset _ x | .br _ x | .svc _ x | .eret _ x | .spsw _ x | .gpsw _ x | .gete _ x | .sete _ x | .krs _ x | .krg _ x
  | .sfpc _ x | .gfpc _ x | .kset _ x | .kget _ x | .tlbia _ x | .tlbid _ x | .tlbix _ x | .wfe _ x | .wuntil _ x
  | .sev _ x | .tbr _ x | .mcall _ x => x.wf
  | .ld _ x | .lds _ x | .st _ x | .lea _ x | .dld _ x | .dst _ x | .dpk _ x | .dup _ x | .pst _ x | .psx _ x | .prd _ x
  | .pbn _ x | .fld _ x | .fst _ x => x.wf
  | .sti _ x => x.wf
  | .dts _ x => x.wf
  | .dadm _ x | .dsbm _ x | .dcpm _ x | .dzpm _ x => x.wf
  | .fadd _ x | .fsub _ x | .fmul _ x | .fdiv _ x | .fma _ x => x.wf
  | .fsqrt _ x | .fcmp _ x | .fcmpp _ x | .fcvt _ x | .frnd _ x | .ftog _ x | .gtof _ x | .fquant _ x | .aese _ x
  | .aesd _ x | .aesk _ x | .ghmul _ x | .crcg _ x | .crcgn _ x => x.wf
  | .b _ x | .bc _ x | .call _ x | .callr _ x | .ret _ x | .dbnz _ x => x.wf
  | .aesb _ x | .ghb _ x | .shb _ x | .tdb _ x => x.wf
  | .csrWrite _ _ n _ => sizeOk n
  | .minislotReturn _ l => trainOk l
  | .frameReceive _ _ l => trainOk l
  | .beaconReceive _ _ l _ => trainOk l
  | .smbusBlockWrite l _ => decide (1 ≤ l.length) && decide (l.length ≤ 240)
  | .samplePreload balls _ => balls.length == 1118
  | .smbusBlockRead n _ => decide (1 ≤ n) && decide (n ≤ 240)
  | _ => true

end Sys2Proof
end

