-- ==== Sys2Proof/Tests/Slice0.lean ====
section
/-! SUPPORT. Small tests of the model: what WellFormed refuses, results worked out by hand from the spec's rules, and for each
statement a state and operands that meet its hypotheses. -/

namespace Sys2Proof.Tests

open Sys2Proof Sys2Proof.Machine

set_option maxRecDepth 8000
set_option Elab.async false

/-- A part in ACTIVE with every cluster in RUN and every clock present, 32 GiB of DRAM, a posting region in SRAM, and the vector tables of engine 0
VALID throughout. -/
def running : State :=
  let s := State.reset
  let md : Module := { typ := .rdimm, ranks := 1, width := 8, density := 16, rate := 5600, gib := 16 }
  { s with power := { s.power with part := .active, powerOn := false, modesSet := true, clusters := Vector.replicate 4 { st := .run, target := none } },
           pcm := { s.pcm with rclkOk := true, refclkOk := true, xtalOk := true, fpll := true, dpll := true, kpll := true, cpll := 15 },
           dmcs := Vector.replicate 2 { Dmc.reset with module := some md, kept := some md, enabled := true, rate := 2 },
           plan := some { (default : Plan) with regions := [{ base := 0x200000000000, frames := 1, unit := 0 }] },
           vectors := (List.range 512).map fun v => (v, 0x0001210000001001#64),
           keeper := { s.keeper with busy := false } }

/-- Level 0 of engine 0 runs in LD0, privileged, at the start of the engine's own local store. -/
def at0 (f : Bank → Bank) : State :=
  let b : Bank := { (default : Bank) with psw := mkPsw 0x210000000000 0 0 true false false false 0 }
  (running.modBank 0 fun _ => f b).modSlot 0 fun x => { x with state := .active }

/-- An instruction of `n` bytes of engine 0 at level 0. -/
def cx (n : Nat) : Cx := { e := 0, n := 0, len := n }

/-- The state that the fetch of an instruction leaves. -/
def fetched (s : State) (c : Cx) : State := (fetch c.e c.slot (pswIA (s.bank c.slot).psw) c.len (s.noted c)).2

/-- What `Begins` asks, as a computation. -/
def begins (s : State) (c : Cx) (pred : BitVec 4) : Bool :=
  s.ready c.e == some c.n && (fetch c.e c.slot (pswIA (s.bank c.slot).psw) c.len (s.noted c)).1.isOk && !pswIPR (s.bank c.slot).psw
    && predicate ((fetched s c).bank c.slot) pred && ((fetched s c).eng c.e).postCheck.isNone

theorem ok_pair {ε α : Type} {r : Except ε Unit × α} (h : r.1.isOk = true) : r = (.ok (), r.2) := by
  obtain ⟨a, b⟩ := r
  cases a with
  | error _ => cases h
  | ok _ => rfl

theorem begins_of {s : State} {c : Cx} {pred : BitVec 4} (h : begins s c pred = true) : Begins s c pred (fetched s c) := by
  unfold begins at h
  simp only [Bool.and_eq_true, beq_iff_eq, Bool.not_eq_true', Option.isNone_iff_eq_none] at h
  obtain ⟨⟨⟨⟨h1, h2⟩, h3⟩, h4⟩, h5⟩ := h
  exact ⟨h1, ok_pair h2, h3, h4, h5⟩

/-- A bank with G registers set, D0 to D6 worth 0 and D7 worth 1. -/
def bk (g : List (Nat × Word)) (b : Bank) : Bank :=
  { b with d := (Vector.replicate 8 0xC).set 7 0x1C, g := Vector.ofFn fun i => (g.lookup i.val).getD 0 }

/-- An address in the local store of engine 0, where memory holds what `putMem` puts. -/
def base : Word := 0x210000001000

def fa (len : Len) (ra rb rc : BitVec 4) (mod : BitVec 6) (imm : BitVec 16) : FmtA :=
  { pred := 0, len := len, ra := ra, rb := rb, rc := rc, mod := mod, imm := imm }

def fb (len : Len) (ra bs ix : BitVec 4) (mod : BitVec 6) (disp mod2 : BitVec 32) : FmtB :=
  { pred := 0, len := len, ra := ra, bs := bs, ix := ix, mod := mod, disp := disp, mod2 := mod2 }

def fe (len : Len) (m : BitVec 4) (off : BitVec 30) (mask : BitVec 16) (tgt : BitVec 48) : FmtE :=
  { pred := 0, len := len, m := m, off := off, mask := mask, tgt := tgt }

def fxa (len : Len) (ra rb rc : BitVec 4) (mod : BitVec 2) (mod2 : BitVec 12) : FmtXA :=
  { pred := 0, len := len, ra := ra, rb := rb, mod := mod, rc := rc, mod2 := mod2 }

def fxb (len : Len) (ra bs : BitVec 4) (mod : BitVec 2) (disp mod2 : BitVec 32) : FmtXB :=
  { pred := 0, len := len, ra := ra, bs := bs, mod := mod, disp := disp, mod2 := mod2 }

/-- The state after the fetch of an instruction of `n` bytes whose level has bank `f`. -/
def go (f : Bank → Bank) (n : Nat) : State := fetched (at0 f) (cx n)

/-- Memory of the part with bytes put at an address. -/
def putMem (s : State) (a : Nat) (l : List Byte) : State :=
  { s with mem := { s.mem with bytes := (l.zipIdx).foldl (fun t p => tset 0 t (a + p.2) p.1) s.mem.bytes } }

/-- Whether a computation ends without a trap, in a state and with a result that satisfy `p`. -/
def ends {α : Type} (m : M α) (s : State) (p : α → State → Bool) : Bool :=
  match m.exec s with
  | (.ok a, t) => p a t
  | (.error _, _) => false

theorem ends_of {α : Type} {m : M α} {s : State} {p : α → State → Bool} (h : ends m s p = true) :
    ∃ a t, m.exec s = (.ok a, t) ∧ p a t = true := by
  unfold ends at h
  split at h
  · exact ⟨_, _, by assumption, h⟩
  · cases h


theorem some_of {α : Type} {m : M (Option α)} {s : State} {q : State → Bool} (h : ends m s (fun a t => a.isSome && q t) = true) :
    ∃ a t, m.exec s = (.ok (some a), t) ∧ q t = true := by
  obtain ⟨a, t, h, h'⟩ := ends_of h
  cases a with
  | none => simp at h'
  | some a => exact ⟨a, t, h, by simpa using h'⟩

/-- A computation that ends without a trap, by its result. -/
theorem exec_of {α : Type} {m : M α} {s : State} {p : α → State → Bool} (h : ends m s p = true) :
    ∃ a, m.exec s = (.ok a, (m.exec s).2) ∧ p a (m.exec s).2 = true := by
  obtain ⟨a, t, h, h'⟩ := ends_of h
  exact ⟨a, by rw [h], by rw [h]; exact h'⟩

/-- No poisoned post of engine 0 waits. -/
def noCheck (s : State) : Bool := (s.eng 0).postCheck.isNone

theorem none_of {s : State} (h : noCheck s = true) : (s.eng 0).postCheck = none := by simpa [noCheck] using h

/-- A part in which nothing waits behind memory. -/
theorem quiet0 (f : Bank → Bank) : Quiet (at0 f) where
  posts _ := rfl
  homes _ := rfl
  errs _ := rfl
  undamaged := ⟨fun _ => ⟨fun _ _ h => (by cases h), fun _ => rfl, fun _ h => (by cases h)⟩, fun _ _ h => (by cases h)⟩
  standing d := show (Domain.initial d).state ≠ _ from by unfold Domain.initial; split <;> decide

theorem inMemory_of {c : Cx} {acc : Acc} {ea n : Nat} {s : State} {ps : List (Nat × Nat)}
    (h : ends (pieces c.e c.slot acc ea n) s (fun a t => a == ps && !t.anyDevice ps && (addrsOf ps).length == n) = true) :
    InMemory c acc ea n s ps := by
  obtain ⟨a, t, h, h'⟩ := ends_of h
  simp only [Bool.and_eq_true, beq_iff_eq, Bool.not_eq_true'] at h'
  exact ⟨t, h'.1.1 ▸ h, h'.1.2, h'.2⟩

/-- The running part with bytes at `base`. -/
def at1 (f : Bank → Bank) (l : List Byte) : State := putMem (at0 f) base.toNat l

/-- The running part with bytes at `base`, after the fetch of an instruction of `n` bytes. -/
def go1 (f : Bank → Bank) (l : List Byte) (n : Nat) : State := fetched (at1 f l) (cx n)

/-- What a computation leaves. -/
def after {α : Type} (m : M α) (s : State) : State := (m.exec s).2

theorem after_of {α : Type} [DecidableEq α] {m : M α} {s : State} {v : α} (h : ends m s (fun a _ => a == v) = true) :
    m.exec s = (.ok v, after m s) := by
  obtain ⟨a, h, h'⟩ := exec_of h
  rw [beq_iff_eq] at h'
  exact h' ▸ h

/-- What the fetch of an interruptible instruction leaves once its fixed term is counted, in the part with bytes at `base`. -/
def work (f : Bank → Bank) (l : List Byte) (n fixed : Nat) : State := (go1 f l n).cycles 0 (pswFTM ((go1 f l n).bank 0).psw) fixed

theorem works_of {f : Bank → Bank} {l : List Byte} {n fixed : Nat}
    (h : (begins (at1 f l) (cx n) 0 && !pswIPR ((go1 f l n).bank 0).psw) = true) : Works (at1 f l) (cx n) 0 fixed (work f l n fixed) := by
  rw [Bool.and_eq_true, Bool.not_eq_true'] at h
  exact .inl ⟨go1 f l n, begins_of h.1, h.2, rfl⟩

/-- The bank of an instruction to be resumed with IPS `n`. -/
def resuming (f : Bank → Bank) (n : Nat) (b : Bank) : Bank := { f b with psw := withIP b.psw true n }

/-- What the resume of an instruction leaves before its first access. -/
def resume (f : Bank → Bank) (l : List Byte) (n : Nat) : State :=
  ((go1 f l n).tick 0 25 1).cycles 0 (pswFTM ((at1 f l).bank 0).psw) 3

theorem resumes_of {f : Bank → Bank} {l : List Byte} {n : Nat}
    (h : ((at1 f l).ready 0 == some 0 && pswIPR ((at1 f l).bank 0).psw && (fetch 0 0 (pswIA ((at1 f l).bank 0).psw) n ((at1 f l).noted (cx n))).1.isOk) = true) :
    Resumes (at1 f l) (cx n) (resume f l n) := by
  rw [Bool.and_eq_true, Bool.and_eq_true, beq_iff_eq] at h
  exact ⟨h.1.1, h.1.2, _, ok_pair h.2, rfl⟩

/-- Engine 0 has no poisoned post, and the bank of its level 0 is as in `s`. -/
def kept (s t : State) : Bool := noCheck t && t.bank 0 == s.bank 0

theorem runs_of {α : Type} [DecidableEq α] {m : M α} {s : State} {v : α} (h : ends m s (fun a t => a == v && kept s t) = true) :
    ∃ t, m.exec s = (.ok v, t) ∧ (t.eng 0).postCheck = none ∧ t.bank 0 = s.bank 0 := by
  obtain ⟨a, t, h, h'⟩ := ends_of h
  simp only [kept, noCheck, Bool.and_eq_true, beq_iff_eq, Option.isNone_iff_eq_none] at h'
  exact ⟨t, h'.1 ▸ h, h'.2.1, h'.2.2⟩

theorem answers_of {α : Type} {m : M α} {s : State} (h : ends m s (fun _ t => kept s t) = true) :
    ∃ v t, m.exec s = (.ok v, t) ∧ (t.eng 0).postCheck = none ∧ t.bank 0 = s.bank 0 := by
  obtain ⟨a, t, h, h'⟩ := ends_of h
  simp only [kept, noCheck, Bool.and_eq_true, beq_iff_eq, Option.isNone_iff_eq_none] at h'
  exact ⟨a, t, h, h'.1, h'.2⟩

theorem witness_TwoSourceResults :
    (∃ (s s1 : State) (c : Cx) (x : FmtA), x.len = .l4 ∧ TwoSource x ∧ c.len = x.len.bytes ∧ Begins s c x.pred s1)
    ∧ ∃ (s s1 : State) (c : Cx) (x : FmtA), x.len = .l6 ∧ TwoSource x ∧ c.len = x.len.bytes ∧ Begins s c x.pred s1 :=
  ⟨⟨at0 id, go id 4, cx 4, fa .l4 1 2 3 0 0, rfl, ⟨.inl rfl, rfl⟩, rfl, begins_of (by decide +kernel)⟩,
    at0 id, go id 6, cx 6, fa .l6 1 2 0 0 0x8000, rfl, ⟨.inr ⟨rfl, rfl⟩, rfl⟩, rfl, begins_of (by decide +kernel)⟩

theorem witness_CompareResults :
    (∃ (s s1 : State) (c : Cx) (x : FmtA), c.len = x.len.bytes ∧ Begins s c x.pred s1 ∧ TwoSource x ∧ x.ra = 0)
    ∧ ∃ (s s1 : State) (c : Cx) (x : FmtA), c.len = x.len.bytes ∧ Begins s c x.pred s1 ∧ (x.len = .l4 ∨ x.len = .l6 ∧ x.rc = 0) ∧ field x.mod 4 2 = (0 : BitVec 2)
      ∧ x.ra.toNat ≤ 7 ∧ field x.mod 0 3 = BitVec.ofNat 3 (5 : Fin 6).val :=
  ⟨⟨at0 id, go id 4, cx 4, fa .l4 0 2 3 0 0, rfl, begins_of (by decide +kernel), ⟨.inl rfl, rfl⟩, rfl⟩,
    at0 id, go id 6, cx 6, fa .l6 7 2 0 0xD 1, rfl, begins_of (by decide +kernel), .inr ⟨rfl, rfl⟩, by decide, by decide, by decide⟩

theorem witness_MoveResults :
    (∃ (s s1 : State) (c : Cx) (x : FmtA), c.len = x.len.bytes ∧ Begins s c x.pred s1 ∧ x.mod = 0 ∧ x.rc = 0 ∧ x.len = .l4)
    ∧ (∃ (s s1 : State) (c : Cx) (x : FmtA), c.len = x.len.bytes ∧ Begins s c x.pred s1 ∧ x.mod = 0 ∧ x.rc = 0 ∧ x.len = .l6 ∧ x.rb = 0)
    ∧ (∃ (s s1 : State) (c : Cx) (x : FmtA), c.len = x.len.bytes ∧ Begins s c x.pred s1 ∧ x.len = .l6 ∧ field x.mod 3 3 = (0 : BitVec 3) ∧ x.rb = 0 ∧ x.rc = 0)
    ∧ ∃ (s s1 : State) (c : Cx) (x : FmtB), c.len = x.len.bytes ∧ Begins s c x.pred s1 ∧ x.len ≠ .l4 ∧ x.mod = 0 ∧ x.mod2 = 0 :=
  ⟨⟨at0 id, go id 4, cx 4, fa .l4 1 2 0 0 0, rfl, begins_of (by decide +kernel), rfl, rfl, rfl⟩,
    ⟨at0 id, go id 6, cx 6, fa .l6 1 0 0 0 7, rfl, begins_of (by decide +kernel), rfl, rfl, rfl, rfl⟩,
    ⟨at0 id, go id 6, cx 6, fa .l6 1 0 0 7 7, rfl, begins_of (by decide +kernel), rfl, by decide, rfl, rfl⟩,
    at0 id, go id 12, cx 12, fb .l12 1 2 3 0 0xFFFFFFFF 0, rfl, begins_of (by decide +kernel), by decide, rfl, rfl⟩

theorem witness_DivideResults : ∃ (s s1 : State) (c : Cx) (x : FmtA), x.len = .l4 ∧ x.mod = 0 ∧ bit x.ra 0 = false ∧ c.len = 4 ∧ Begins s c x.pred s1
    ∧ (s1.bank c.slot).getG x.rc ≠ 0 :=
  ⟨at0 (bk [(2, 7), (3, 2)]), go (bk [(2, 7), (3, 2)]) 4, cx 4, fa .l4 4 2 3 0 0, rfl, rfl, by decide, rfl, begins_of (by decide +kernel),
    by decide +kernel⟩

/-- The packed zero of any number of digits. -/
theorem zero63 : PackedValue 63 0xC 0 := by refine ⟨by decide, by decide, by decide⟩

theorem witness_DecimalRules : PackedValue 63 0xC 0 ∧ PackedValue 1 0x1D (-1) ∧ (5 : Int).natAbs < 10 ^ 1 ∧ 10 ^ 1 ≤ (10 : Int).natAbs :=
  ⟨zero63, by refine ⟨by decide, by decide, by decide⟩, by decide, by decide⟩

theorem witness_DecimalResults : ∃ (s s1 : State) (c : Cx) (x : FmtA), c.len = x.len.bytes ∧ Begins s c x.pred s1 ∧ x.ra.toNat ≤ 7 ∧ x.rb.toNat ≤ 7 ∧ x.rc.toNat ≤ 7
    ∧ PackedValue 63 ((s1.bank c.slot).getD x.rb).toNat 0 ∧ PackedValue 63 ((s1.bank c.slot).getD x.rc).toNat 0
    ∧ LimitOf x 63 ∧ field x.mod 1 5 = (0 : BitVec 5) ∧ x.len = .l4 ∧ bit x.ra 0 = false ∧ x.mod = 0 ∧ x.ra = 0 ∧ x.rc = 0
    ∧ ∃ f, finish (pswDOE (s1.bank c.slot).psw) 0 63 (bit x.mod 0) = .ok f :=
  ⟨at0 (bk []), go (bk []) 4, cx 4, fa .l4 0 6 0 0 0, rfl, begins_of (by decide +kernel), by decide, by decide, by decide,
    by have h : (((go (bk []) 4).bank (cx 4).slot).getD 6).toNat = 0xC := by decide +kernel
       exact h ▸ zero63,
    by have h : (((go (bk []) 4).bank (cx 4).slot).getD 0).toNat = 0xC := by decide +kernel
       exact h ▸ zero63, .inl ⟨rfl, rfl⟩, by decide, rfl, by decide, rfl, rfl, rfl, _, rfl⟩


theorem one63 : PackedValue 63 0x1C 1 := by refine ⟨by decide, by decide, by decide⟩

theorem witness_DecimalDivideAndShift :
    (∃ (s s1 : State) (c : Cx) (x : FmtA) (f : Finished), x.len = .l4 ∧ c.len = 4 ∧ Begins s c x.pred s1 ∧ x.ra.toNat ≤ 7 ∧ x.rb.toNat ≤ 7 ∧ x.rc.toNat ≤ 7
      ∧ bit x.ra 0 = false ∧ bit x.rb 0 = false ∧ field x.mod 1 5 = (0 : BitVec 5)
      ∧ PackedValue 63 (((s1.bank c.slot).getD x.rb).toNat / 16 * 16 + 0xC) 0 ∧ PackedValue 63 (((s1.bank c.slot).getD (x.rb + 1)).toNat / 16 * 16 + 0xC) 0
      ∧ 10 ≤ ((s1.bank c.slot).getD (x.rb + 1)).toNat % 16 ∧ PackedValue 63 ((s1.bank c.slot).getD x.rc).toNat 1 ∧ (1 : Int) ≠ 0
      ∧ finish (pswDOE (s1.bank c.slot).psw) ((0 * 10 ^ 63 + 0 : Int).tdiv 1) 63 (bit x.mod 0) = .ok f)
    ∧ ∃ (s s1 : State) (c : Cx) (x : FmtA) (v : BitVec 8) (f : Finished), c.len = x.len.bytes ∧ Begins s c x.pred s1 ∧ x.ra.toNat ≤ 7 ∧ x.rb.toNat ≤ 7
      ∧ field x.mod 4 2 = (0 : BitVec 2) ∧ (field x.mod 0 3 : BitVec 3).toNat < 7 ∧ PackedValue 63 ((s1.bank c.slot).getD x.rb).toNat 0
      ∧ x.len = .l6 ∧ x.rc = 0 ∧ x.imm = v.zeroExtend 16 ∧ v.toNat ≤ 63 ∧ v.toInt ≤ 63 ∧ -63 ≤ v.toInt
      ∧ finish (pswDOE (s1.bank c.slot).psw) (0 * 10 ^ v.toInt.toNat) 63 (bit x.mod 3) = .ok f :=
  ⟨⟨at0 (bk []), go (bk []) 4, cx 4, fa .l4 2 4 7 0 0, _, rfl, rfl, begins_of (by decide +kernel), by decide, by decide, by decide, by decide, by decide,
      by decide, by have h : ((((go (bk []) 4).bank (cx 4).slot).getD 4).toNat / 16 * 16 + 0xC) = 0xC := by decide +kernel
                    exact h ▸ zero63,
      by have h : ((((go (bk []) 4).bank (cx 4).slot).getD (4 + 1)).toNat / 16 * 16 + 0xC) = 0xC := by decide +kernel
         exact h ▸ zero63, by decide +kernel,
      by have h : (((go (bk []) 4).bank (cx 4).slot).getD 7).toNat = 0x1C := by decide +kernel
         exact h ▸ one63, by decide, rfl⟩,
    at0 (bk []), go (bk []) 6, cx 6, fa .l6 2 4 0 6 63, 63, _, rfl, begins_of (by decide +kernel), by decide, by decide, by decide, by decide,
      by have h : ((((go (bk []) 6).bank (cx 6).slot).getD 4).toNat) = 0xC := by decide +kernel
         exact h ▸ zero63, rfl, rfl, by decide, by decide, by decide, by decide, rfl⟩

theorem witness_DecimalConversions : ∃ (s s1 : State) (c : Cx) (x : FmtA), x.len = .l4 ∧ c.len = 4 ∧ Begins s c x.pred s1 ∧ x.rc = 0
    ∧ field x.mod 1 5 = (0 : BitVec 5) ∧ x.mod = 0 ∧ x.ra = 0 ∧ x.rb.toNat ≤ 7 ∧ x.ra.toNat ≤ 7 ∧ PackedValue 63 ((s1.bank c.slot).getD x.rb).toNat 1
    ∧ ∃ f, finish (pswDOE (s1.bank c.slot).psw) ((s1.bank c.slot).getG x.rb).toInt 63 (bit x.mod 0) = .ok f :=
  ⟨at0 (bk []), go (bk []) 4, cx 4, fa .l4 0 7 0 0 0, rfl, rfl, begins_of (by decide +kernel), rfl, by decide, rfl, rfl, by decide, by decide,
    by have h : (((go (bk []) 4).bank (cx 4).slot).getD 7).toNat = 0x1C := by decide +kernel
       exact h ▸ one63,
    by have h : (((go (bk []) 4).bank (cx 4).slot).getG 7).toInt = 0 := by decide +kernel
       have h2 : pswDOE ((go (bk []) 4).bank (cx 4).slot).psw = false := by decide +kernel
       simp only [show (fa .l4 0 7 0 0 0).rb = 7 from rfl, h, h2]
       exact ⟨_, rfl⟩⟩

theorem witness_FetchFrame : ∃ (s s1 : State) (c : Cx) (pred : BitVec 4), Quiet s ∧ Begins s c pred s1 :=
  ⟨at0 id, go id 12, cx 12, 0, quiet0 _, begins_of (by decide +kernel)⟩

/-- Bytes in two pages of the local store: the last of one and the first of the next. -/
theorem witness_NormalAccess :
    (∃ (s : State) (c : Cx) (ea n : Nat) (ps : List (Nat × Nat)), Quiet s ∧ InMemory c .read ea n s ps ∧ ∀ l ∈ linesOfPieces ps, tget false s.mem.poison l = false)
    ∧ ∃ (s : State) (c : Cx) (ea : Nat) (l : List Byte) (ps : List (Nat × Nat)), Quiet s ∧ InMemory c .write ea l.length s ps ∧ (addrsOf ps).Nodup :=
  ⟨⟨at0 id, cx 4, 0x210000001FFC, 8, [(0x210000001FFC, 4), (0x210000002000, 4)], quiet0 _, inMemory_of (by decide +kernel), fun _ _ => rfl⟩,
    at0 id, cx 4, 0x210000001FFC, [1, 2, 3, 4, 5, 6, 7, 8], [(0x210000001FFC, 4), (0x210000002000, 4)], quiet0 _, inMemory_of (by decide +kernel),
    by decide⟩

theorem witness_LoadStoreResults :
    (∃ (s s1 s2 : State) (c : Cx) (x : FmtB) (l : List Byte), (s2.eng c.e).postCheck = none ∧ c.len = x.len.bytes ∧ Begins s c x.pred s1 ∧ SizeOf x 3
      ∧ (load c (addressOf x.bs x.ix x.disp x.len (s1.bank c.slot)) 8 (.aligned 8) (.g x.ra 8 false)).exec s1 = (.ok (some l), s2))
    ∧ (∃ (s s1 s2 : State) (c : Cx) (x : FmtB), (s2.eng c.e).postCheck = none ∧ c.len = x.len.bytes ∧ Begins s c x.pred s1 ∧ SizeOf x 0
      ∧ (store c (addressOf x.bs x.ix x.disp x.len (s1.bank c.slot)) (natLE 1 ((s1.bank c.slot).getG x.ra).toNat) (.aligned 1)).exec s1 = (.ok (), s2))
    ∧ ∃ (s s1 s2 : State) (c : Cx) (x : FmtD), (s2.eng c.e).postCheck = none ∧ c.len = x.len.bytes ∧ Begins s c x.pred s1 ∧ x.len = .l8 ∧ x.mod = 0
      ∧ (store c (addressOf x.bs x.ix x.disp x.len (s1.bank c.slot)) (natLE (2 ^ x.sz.toNat) ((x.imm.truncate 12).signExtend 64 : Word).toNat)
          (.aligned (2 ^ x.sz.toNat))).exec s1 = (.ok (), s2) := by
  refine ⟨?_, ?_, ?_⟩
  · obtain ⟨l, t, h, h'⟩ := some_of (m := load (cx 6) (addressOf 2 0 0 .l6 ((go (bk [(2, base)]) 6).bank (cx 6).slot)) 8 (.aligned 8) (.g 1 8 false))
      (s := go (bk [(2, base)]) 6) (q := noCheck) (by decide +kernel)
    exact ⟨at0 (bk [(2, base)]), _, t, cx 6, fb .l6 1 2 0 0x30 0 0, l, none_of h', rfl, begins_of (by decide +kernel), .inl ⟨rfl, by decide⟩, h⟩
  · obtain ⟨_, t, h, h'⟩ := ends_of (m := store (cx 12) (addressOf 2 0 0xFFFFFFFF .l12 ((go (bk [(2, base)]) 12).bank (cx 12).slot))
      (natLE 1 (((go (bk [(2, base)]) 12).bank (cx 12).slot).getG 1).toNat) (.aligned 1)) (s := go (bk [(2, base)]) 12) (p := fun _ => noCheck) (by decide +kernel)
    exact ⟨at0 (bk [(2, base)]), _, t, cx 12, fb .l12 1 2 0 0 0xFFFFFFFF 0, none_of h', rfl, begins_of (by decide +kernel),
      .inr ⟨.inr rfl, by decide, rfl, by decide⟩, h⟩
  · let x : FmtD := { pred := 0, len := .l8, bs := 2, ix := 0, sz := 3, mod := 0, disp := 0, imm := 0xFFF }
    obtain ⟨_, t, h, h'⟩ := ends_of (m := store (cx 8) (addressOf x.bs x.ix x.disp x.len ((go (bk [(2, base)]) 8).bank (cx 8).slot))
      (natLE (2 ^ x.sz.toNat) ((x.imm.truncate 12).signExtend 64 : Word).toNat) (.aligned (2 ^ x.sz.toNat)))
      (s := go (bk [(2, base)]) 8) (p := fun _ => noCheck) (by decide +kernel)
    exact ⟨at0 (bk [(2, base)]), _, t, cx 8, x, none_of h', rfl, begins_of (by decide +kernel), rfl, rfl, h⟩

theorem witness_DecimalMemory :
    (∃ (s s1 s2 : State) (c : Cx) (x : FmtB) (l : List Byte) (v : Int), c.len = x.len.bytes ∧ Begins s c x.pred s1 ∧ (s2.eng c.e).postCheck = none ∧ PackedLen x 1
      ∧ x.ra = 0 ∧ bit x.mod 5 = false ∧ (loadNormal c (addressOf x.bs x.ix x.disp x.len (s1.bank c.slot)) 1).exec s1 = (.ok l, s2)
      ∧ PackedValue (2 * l.length - 1) (beNat l) v)
    ∧ (∃ (s s1 s2 : State) (c : Cx) (x : FmtB) (l : List Byte) (v : Int) (f : Finished), c.len = x.len.bytes ∧ Begins s c x.pred s1
      ∧ (s2.eng c.e).postCheck = none ∧ Zoned x 63 .none
      ∧ (loadNormal c (addressOf x.bs x.ix x.disp x.len (s1.bank c.slot)) (zonedBytes 63 .none)).exec s1 = (.ok l, s2) ∧ checkZoned .none l = .ok v
      ∧ finish (pswDOE (s2.bank c.slot).psw) v 63 true = .ok f)
    ∧ (∃ (s s1 s2 s3 : State) (c : Cx) (x : FmtB) (ps : List (Nat × Nat)) (f : Finished), c.len = x.len.bytes ∧ Begins s c x.pred s1
      ∧ (s3.eng c.e).postCheck = none ∧ x.ra.toNat ≤ 7 ∧ PackedValue 63 ((s2.bank c.slot).getD x.ra).toNat 1 ∧ PackedLen x 32
      ∧ WritesTo c (addressOf x.bs x.ix x.disp x.len ((s1.awaitPosts c.e).bank c.slot)) 32 s1 s2 ps
      ∧ finish (pswDOE (s2.bank c.slot).psw) 1 63 (x.len ≠ .l6 ∧ bit x.mod 5 = true) = .ok f
      ∧ M.exec (writePieces c.e ps (f.packed 32) false false) s2 = (.ok (), s3))
    ∧ (∃ (s s1 s2 s3 : State) (c : Cx) (x : FmtB) (ps : List (Nat × Nat)) (f : Finished), c.len = x.len.bytes ∧ Begins s c x.pred s1
      ∧ (s3.eng c.e).postCheck = none ∧ x.ra.toNat ≤ 7 ∧ PackedValue 63 ((s2.bank c.slot).getD x.ra).toNat 1 ∧ Zoned x 1 .trailing
      ∧ WritesTo c (addressOf x.bs x.ix x.disp x.len ((s1.awaitPosts c.e).bank c.slot)) (zonedBytes 1 .trailing) s1 s2 ps
      ∧ finish (pswDOE (s2.bank c.slot).psw) 1 1 false = .ok f ∧ M.exec (writePieces c.e ps (zonedOut f 1 .trailing) false false) s2 = (.ok (), s3))
    ∧ (∃ (s s1 s2 s3 s4 s5 : State) (c : Cx) (x : FmtC) (a1 a2 : Nat) (p1 p2 : List (Nat × Nat)) (l1 l2 : List Byte) (v1 v2 : Int) (f : Finished),
      x.len = .l12 ∧ c.len = 12 ∧ Begins s c x.pred s1 ∧ PackedValue (2 * l2.length - 1) (beNat l2) v2
      ∧ M.exec (bothOperands c x .read true) s1 = (.ok (a1, p1, a2, p2), s2) ∧ M.exec (readPieces c.e a1 p1) s2 = (.ok l1, s3)
      ∧ M.exec (readPieces c.e a2 p2) s3 = (.ok l2, s4) ∧ PackedValue (2 * l1.length - 1) (beNat l1) v1
      ∧ finish (pswDOE (s4.bank c.slot).psw) (v1 + v2) 1 false = .ok f ∧ M.exec (writePieces c.e p1 (f.packed 1) false true) s4 = (.ok (), s5)
      ∧ (s5.eng c.e).postCheck = none)
    ∧ ∃ (s s1 s2 s4 s5 : State) (c : Cx) (x : FmtC) (a1 a2 : Nat) (p1 p2 : List (Nat × Nat)) (l2 : List Byte) (v2 : Int) (f : Finished),
      x.len = .l12 ∧ c.len = 12 ∧ Begins s c x.pred s1 ∧ PackedValue (2 * l2.length - 1) (beNat l2) v2
      ∧ M.exec (bothOperands c x .write false) s1 = (.ok (a1, p1, a2, p2), s2) ∧ M.exec (readPieces c.e a2 p2) s2 = (.ok l2, s4)
      ∧ finish (pswDOE (s4.bank c.slot).psw) v2 1 false = .ok f ∧ M.exec (writePieces c.e p1 (f.packed 1) false false) s4 = (.ok (), s5)
      ∧ (s5.eng c.e).postCheck = none := by
  have one : PackedValue (2 * [(0x1C : Byte)].length - 1) (beNat [(0x1C : Byte)]) 1 := by refine ⟨by decide, by decide, by decide⟩
  refine ⟨?_, ?_, ?_, ?_, ?_, ?_⟩
  · let f := bk [(2, base)]
    have h := after_of (m := loadNormal (cx 8) (addressOf 2 0 0 .l8 ((go1 f [0x1C] 8).bank (cx 8).slot)) 1) (s := go1 f [0x1C] 8) (v := [0x1C]) (by decide +kernel)
    exact ⟨at1 f [0x1C], _, _, cx 8, fb .l8 0 2 0 0 0 0, _, _, rfl, begins_of (by decide +kernel), none_of (by decide +kernel), ⟨rfl, .inr ⟨.inl rfl, by decide⟩⟩,
      rfl, by decide, h, one⟩
  · let f := bk [(2, base)]
    let l : List Byte := List.replicate 63 0x39
    have h := after_of (m := loadNormal (cx 8) (addressOf 2 0 0 .l8 ((go1 f l 8).bank (cx 8).slot)) 63) (s := go1 f l 8) (v := l) (by decide +kernel)
    have hd : pswDOE ((after (loadNormal (cx 8) (addressOf 2 0 0 .l8 ((go1 f l 8).bank (cx 8).slot)) 63) (go1 f l 8)).bank (cx 8).slot).psw = false := by
      decide +kernel
    exact ⟨at1 f l, _, _, cx 8, fb .l8 7 2 0 62 0 0, l, 10 ^ 63 - 1, _, rfl, begins_of (by decide +kernel), none_of (by decide +kernel),
      ⟨.inl rfl, by decide, by decide, by decide, by decide, by decide⟩, h, by decide +kernel, by rw [hd]; rfl⟩
  · let f := bk [(2, base)]
    let ea := addressOf 2 0 0 .l8 (((go f 8).awaitPosts 0).bank (cx 8).slot)
    let m : M (List (Nat × Nat)) := do modify (·.awaitPosts 0); checkedPieces (cx 8) .write ea 32 .never
    have h := after_of (m := m) (s := go f 8) (v := [(0x210000001000, 32)]) (by decide +kernel)
    have hd : pswDOE ((after m (go f 8)).bank (cx 8).slot).psw = false := by decide +kernel
    have hv : (((after m (go f 8)).bank (cx 8).slot).getD 7).toNat = 0x1C := by decide +kernel
    have hw := after_of (m := writePieces 0 [(0x210000001000, 32)] (({ mag := 1, sign := 0xC, cc := 2 } : Finished).packed 32) false false) (s := after m (go f 8))
      (v := ()) (by decide +kernel)
    exact ⟨at0 f, _, _, _, cx 8, fb .l8 7 2 0 0x1F 0 0, _, _, rfl, begins_of (by decide +kernel), none_of (by decide +kernel), by decide, hv ▸ one63,
      ⟨rfl, .inr ⟨.inl rfl, by decide⟩⟩, h, by rw [hd]; rfl, hw⟩
  · let f := bk [(2, base)]
    let ea := addressOf 2 0 0 .l8 (((go f 8).awaitPosts 0).bank (cx 8).slot)
    let m : M (List (Nat × Nat)) := do modify (·.awaitPosts 0); checkedPieces (cx 8) .write ea 2 .never
    have h := after_of (m := m) (s := go f 8) (v := [(0x210000001000, 2)]) (by decide +kernel)
    have hd : pswDOE ((after m (go f 8)).bank (cx 8).slot).psw = false := by decide +kernel
    have hv : (((after m (go f 8)).bank (cx 8).slot).getD 7).toNat = 0x1C := by decide +kernel
    have hw := after_of (m := writePieces 0 [(0x210000001000, 2)] (zonedOut ({ mag := 1, sign := 0xC, cc := 2 } : Finished) 1 .trailing) false false)
      (s := after m (go f 8)) (v := ()) (by decide +kernel)
    exact ⟨at0 f, _, _, _, cx 8, fb .l8 7 2 0 0 0 2, _, _, rfl, begins_of (by decide +kernel), none_of (by decide +kernel), by decide, hv ▸ one63,
      ⟨.inl rfl, by decide, by decide, by decide, by decide, by decide⟩, h, by rw [hd]; rfl, hw⟩
  · let f := bk [(2, base)]
    let x : FmtC := { pred := 0, len := .l12, b1 := 2, b2 := 2, l1 := 0, l2 := 0, dp1 := 0, dp2 := 0 }
    let m := bothOperands (cx 12) x .read true
    let r := readPieces 0 0x210000001000 [(0x210000001000, 1)]
    let s2 := after m (go1 f [0x1C] 12)
    have h := after_of (m := m) (s := go1 f [0x1C] 12) (v := (0x210000001000, [(0x210000001000, 1)], 0x210000001000, [(0x210000001000, 1)])) (by decide +kernel)
    have h1 := after_of (m := r) (s := s2) (v := [0x1C]) (by decide +kernel)
    have h2 := after_of (m := r) (s := after r s2) (v := [0x1C]) (by decide +kernel)
    have hd : pswDOE ((after r (after r s2)).bank (cx 12).slot).psw = false := by decide +kernel
    have hw := after_of (m := writePieces 0 [(0x210000001000, 1)] (({ mag := 2, sign := 0xC, cc := 2 } : Finished).packed 1) false true) (s := after r (after r s2))
      (v := ()) (by decide +kernel)
    exact ⟨at1 f [0x1C], _, _, _, _, _, cx 12, x, _, _, _, _, _, _, 1, 1, _, rfl, rfl, begins_of (by decide +kernel), one, h, h1, h2, one, by rw [hd]; rfl, hw,
      none_of (by decide +kernel)⟩
  · let f := bk [(2, base)]
    let x : FmtC := { pred := 0, len := .l12, b1 := 2, b2 := 2, l1 := 0, l2 := 0, dp1 := 0, dp2 := 0 }
    let m := bothOperands (cx 12) x .write false
    let r := readPieces 0 0x210000001000 [(0x210000001000, 1)]
    let s2 := after m (go1 f [0x1C] 12)
    have h := after_of (m := m) (s := go1 f [0x1C] 12) (v := (0x210000001000, [(0x210000001000, 1)], 0x210000001000, [(0x210000001000, 1)])) (by decide +kernel)
    have h2 := after_of (m := r) (s := s2) (v := [0x1C]) (by decide +kernel)
    have hd : pswDOE ((after r s2).bank (cx 12).slot).psw = false := by decide +kernel
    have hw := after_of (m := writePieces 0 [(0x210000001000, 1)] (({ mag := 1, sign := 0xC, cc := 2 } : Finished).packed 1) false false) (s := after r s2)
      (v := ()) (by decide +kernel)
    exact ⟨at1 f [0x1C], _, _, _, _, cx 12, x, _, _, _, _, _, 1, _, rfl, rfl, begins_of (by decide +kernel), one, h, h2, by rw [hd]; rfl, hw,
      none_of (by decide +kernel)⟩

theorem witness_FloatArithmetic :
    (∃ (s s1 : State) (c : Cx) (x : FmtXA), c.len = 6 ∧ x.len = .l6 ∧ Begins s c x.pred s1 ∧ x.mod2 = 0 ∧
      let b := s1.bank c.slot
      let k := x.mod.toNat
      let f := fmtOf k
      let m := roundingMode k b
      let p := datum k x.rb b
      let q := datum k x.rc b
      let r := datum k x.ra b
      Masked (addF f m p q).2 b ∧ Masked (subF f m p q).2 b ∧ Masked (mulF f m p q).2 b ∧ Masked (divF f m p q).2 b ∧ Masked (fmaF f m p q r).2 b)
    ∧ ∃ (s s1 s2 : State) (c : Cx) (x : FmtXB) (l : List Byte), c.len = x.len.bytes ∧ x.len = .l12 ∧ Begins s c x.pred s1 ∧ x.mod2 = 0
      ∧ (load c (addressOf x.bs 0 x.disp x.len (s1.bank c.slot)) 16 (.aligned 16) (.fop 0 x.ra 3)).exec s1 = (.ok (some l), s2)
      ∧ (s2.eng c.e).postCheck = none ∧ x.mod.toNat = 3
      ∧ Masked (addF (fmtOf 3) (roundingMode 3 (s2.bank c.slot)) (datum 3 x.ra (s2.bank c.slot)) (decodeF 3 (leNat l))).2 (s2.bank c.slot) := by
  refine ⟨⟨at0 id, go id 6, cx 6, fxa .l6 1 2 3 0 0, rfl, rfl, begins_of (by decide +kernel), rfl, ?_⟩, ?_⟩
  · have h (w : Conds) : Masked w ((go id 6).bank (cx 6).slot) := by
      have : (field ((go id 6).bank (cx 6).slot).fpc 8 5 : BitVec 5).toNat = 0 := by decide +kernel
      unfold Masked; rw [this, Nat.and_zero]
    exact ⟨h _, h _, h _, h _, h _⟩
  · let f := bk [(2, base)]
    let m := load (cx 12) (addressOf 2 0 0 .l12 ((go f 12).bank (cx 12).slot)) 16 (.aligned 16) (.fop 0 1 3)
    have h := after_of (m := m) (s := go f 12) (v := some (List.replicate 16 0)) (by decide +kernel)
    refine ⟨at0 f, _, _, cx 12, fxb .l12 1 2 3 0 0, _, rfl, rfl, begins_of (by decide +kernel), rfl, h, none_of (by decide +kernel), rfl, ?_⟩
    have : (field ((after m (go f 12)).bank (cx 12).slot).fpc 8 5 : BitVec 5).toNat = 0 := by decide +kernel
    unfold Masked; rw [this, Nat.and_zero]

theorem witness_FloatOperations :
    (∃ (s s1 : State) (c : Cx) (x : FmtXA), c.len = x.len.bytes ∧ Begins s c x.pred s1 ∧ x.len = .l4 ∧ ∀ w, Masked w (s1.bank c.slot))
    ∧ (∃ (s s1 : State) (c : Cx) (x : FmtXA), c.len = x.len.bytes ∧ Begins s c x.pred s1 ∧ x.len = .l6 ∧ x.mod2 = 0 ∧ 2 ≤ x.mod.toNat ∧ x.rc = 0 ∧ x.ra.toNat ≤ 7
      ∧ ∀ w, Masked w (s1.bank c.slot))
    ∧ (∃ (s s1 s2 : State) (c : Cx) (x : FmtB) (l : List Byte), c.len = x.len.bytes ∧ Begins s c x.pred s1 ∧ SizeOf x 2 ∧ (s2.eng c.e).postCheck = none
      ∧ (load c (addressOf x.bs x.ix x.disp x.len (s1.bank c.slot)) 16 (.aligned 16) (.f x.ra 16)).exec s1 = (.ok (some l), s2))
    ∧ (∃ (s s1 s2 : State) (c : Cx) (x : FmtB), c.len = x.len.bytes ∧ Begins s c x.pred s1 ∧ SizeOf x 2 ∧ (s2.eng c.e).postCheck = none
      ∧ (store c (addressOf x.bs x.ix x.disp x.len (s1.bank c.slot)) (natLE 16 ((s1.bank c.slot).getF x.ra).toNat) (.aligned 16)).exec s1 = (.ok (), s2))
    ∧ (∃ (s s1 : State) (c : Cx) (x : FmtA), x.len = .l4 ∧ c.len = 4 ∧ Begins s c x.pred s1 ∧ x.rc = 0 ∧ x.mod = 0 ∧ x.rb.toNat ≤ 7
      ∧ PackedValue 63 ((s1.bank c.slot).getD x.rb).toNat 1 ∧ datum 3 x.ra (s1.bank c.slot) = .fin false 0 (-6176) ∧ ∀ w, Masked w (s1.bank c.slot))
    ∧ ∃ (s s1 : State) (c : Cx) (x : FmtA), x.len = .l4 ∧ c.len = 4 ∧ Begins s c x.pred s1 ∧ x.mod = 0 ∧ x.rb.toNat ≤ 7
      ∧ (∀ neg coef q, datum 3 x.ra (s1.bank c.slot) ≠ .fin neg coef q) ∧ bit (s1.bank c.slot).fpc 8 = false := by
  have mask {n : Nat} {f : Bank → Bank} (h : (field ((go f n).bank (cx n).slot).fpc 8 5 : BitVec 5).toNat = 0) (w : Conds) : Masked w ((go f n).bank (cx n).slot) := by
    unfold Masked; rw [h, Nat.and_zero]
  refine ⟨⟨at0 id, go id 4, cx 4, fxa .l4 1 2 0 3 0, rfl, begins_of (by decide +kernel), rfl, mask (by decide +kernel)⟩,
    ⟨at0 id, go id 6, cx 6, fxa .l6 1 2 0 3 0, rfl, begins_of (by decide +kernel), rfl, rfl, by decide, rfl, by decide, mask (by decide +kernel)⟩, ?_, ?_, ?_, ?_⟩
  · let f := bk [(2, base)]
    have h := after_of (m := load (cx 6) (addressOf 2 0 0 .l6 ((go f 6).bank (cx 6).slot)) 16 (.aligned 16) (.f 1 16)) (s := go f 6)
      (v := some (List.replicate 16 0)) (by decide +kernel)
    exact ⟨at0 f, _, _, cx 6, fb .l6 1 2 0 0x20 0 0, _, rfl, begins_of (by decide +kernel), .inl ⟨rfl, by decide⟩, none_of (by decide +kernel), h⟩
  · let f := bk [(2, base)]
    have h := after_of (m := store (cx 6) (addressOf 2 0 0 .l6 ((go f 6).bank (cx 6).slot)) (natLE 16 (((go f 6).bank (cx 6).slot).getF 1).toNat) (.aligned 16))
      (s := go f 6) (v := ()) (by decide +kernel)
    exact ⟨at0 f, _, _, cx 6, fb .l6 1 2 0 0x20 0 0, rfl, begins_of (by decide +kernel), .inl ⟨rfl, by decide⟩, none_of (by decide +kernel), h⟩
  · have hv : (((go (bk []) 4).bank (cx 4).slot).getD 7).toNat = 0x1C := by decide +kernel
    exact ⟨at0 (bk []), go (bk []) 4, cx 4, fa .l4 1 7 0 0 0, rfl, rfl, begins_of (by decide +kernel), rfl, rfl, by decide, hv ▸ one63, by decide +kernel,
      mask (by decide +kernel)⟩
  · let f : Bank → Bank := fun b => { b with f := b.f.set 1 0x78000000000000000000000000000000 }
    have hd : datum 3 1 ((go f 4).bank (cx 4).slot) = .inf false := by decide +kernel
    exact ⟨at0 f, go f 4, cx 4, fa .l4 1 7 2 0 0, rfl, rfl, begins_of (by decide +kernel), rfl, by decide,
      fun neg coef q h => FVal.noConfusion (hd.symm.trans h), by decide +kernel⟩

theorem witness_StatusResults :
    (∃ (s s1 : State) (c : Cx) (x : FmtA), c.len = x.len.bytes ∧ Begins s c x.pred s1 ∧ x.len = .l4 ∧ x.ra.toNat ≤ 7 ∧ field x.mod 4 2 = (0 : BitVec 2)
      ∧ x.rb = 0 ∧ x.rc = 0)
    ∧ (∀ k : Fin 3, ∃ (s s1 : State) (c : Cx) (x : FmtA), c.len = x.len.bytes ∧ Begins s c x.pred s1 ∧ x.len = .l4 ∧ x.ra.toNat ≤ 7 ∧ x.rb.toNat ≤ 7
      ∧ x.rc.toNat ≤ 7 ∧ bit x.mod 3 = false ∧ field x.mod 4 2 = BitVec.ofNat 2 (k.val + 1))
    ∧ (∃ (s s1 : State) (c : Cx) (x : FmtA), c.len = x.len.bytes ∧ Begins s c x.pred s1 ∧ OnlyRa x ∧ bit x.ra 0 = false ∧
      let b := s1.bank c.slot
      let want : BitVec 128 := b.getG (x.ra + 1) ++ b.getG x.ra
      field want 62 2 = (0 : BitVec 2) ∧ field want 72 56 = (0 : BitVec 56) ∧ pswPRIV b.psw = true ∧ pswKEY b.psw = 0 ∧ pswKEY want = 255 ∧ pswPRIV want = true
      ∧ FpcValue (field (b.getG 3) 0 32))
    ∧ ∀ m : Fin 4, ∃ (s s1 : State) (c : Cx) (x : FmtA), c.len = x.len.bytes ∧ Begins s c x.pred s1 ∧ x.len = .l4 ∧ x.rb = 0 ∧ x.rc = 0
      ∧ pswPRIV (s1.bank c.slot).psw = true ∧ x.mod = BitVec.ofNat 6 m.val := by
  refine ⟨⟨at0 id, go id 4, cx 4, fa .l4 7 0 0 15 0, rfl, begins_of (by decide +kernel), rfl, by decide, by decide, rfl, rfl⟩, fun k => ?_, ?_, fun m => ?_⟩
  · exact ⟨at0 id, go id 4, cx 4, fa .l4 7 7 0 (BitVec.ofNat 6 (16 * (k.val + 1) + 7)) 0, rfl, begins_of (pred := 0) (by decide +kernel), rfl,
      show (7 : BitVec 4).toNat ≤ 7 by decide, show (7 : BitVec 4).toNat ≤ 7 by decide, show (0 : BitVec 4).toNat ≤ 7 by decide,
      by revert k; decide, by revert k; decide⟩
  · exact ⟨at0 (bk [(2, 0x08FF000000000000), (3, 0)]), go (bk [(2, 0x08FF000000000000), (3, 0)]) 4, cx 4, fa .l4 2 0 0 0 0, rfl, begins_of (by decide +kernel),
      ⟨rfl, rfl, rfl, rfl⟩, by decide, by decide +kernel, by decide +kernel, by decide +kernel, by decide +kernel, by decide +kernel, by decide +kernel,
      by unfold FpcValue; decide +kernel⟩
  · exact ⟨at0 id, go id 4, cx 4, fa .l4 1 0 0 (BitVec.ofNat 6 m.val) 0, rfl, begins_of (pred := 0) (by decide +kernel), rfl, rfl, rfl, by decide +kernel, rfl⟩

/-- The farthest target forward of each form, and a target of 12 bytes. -/
theorem witness_BranchResults :
    (∃ (s s1 : State) (c : Cx) (x : FmtE) (t : Nat), c.len = x.len.bytes ∧ Begins s c x.pred s1 ∧ (x.len = .l12 → x.mask = 0 ∧ x.off = 0) ∧ x.mask = 0
      ∧ x.len = .l4 ∧ x.m = 0 ∧ (s1.bank c.slot).getG x.m ≠ 1 ∧ TargetOf x (pswIA (s1.bank c.slot).psw) t)
    ∧ (∃ (s s1 : State) (c : Cx) (x : FmtE) (t : Nat), c.len = x.len.bytes ∧ Begins s c x.pred s1 ∧ (x.len = .l12 → x.mask = 0 ∧ x.off = 0) ∧ x.mask = 0
      ∧ x.len = .l12 ∧ bit x.m (3 - (s1.bank c.slot).cc.toNat) = true ∧ TargetOf x (pswIA (s1.bank c.slot).psw) t)
    ∧ (∃ (s s1 : State) (c : Cx) (x : FmtE), c.len = x.len.bytes ∧ Begins s c x.pred s1 ∧ x.len = .l6 ∧ x.mask = 0 ∧ bit x.m (3 - (s1.bank c.slot).cc.toNat) = false
      ∧ (s1.bank c.slot).getG x.m = 1)
    ∧ ∃ (s s1 : State) (c : Cx) (x : FmtA) (t : Nat), OnlyRa x ∧ c.len = 4 ∧ Begins s c x.pred s1 ∧ t = ((s1.bank c.slot).getG x.ra).toNat ∧ t % 2 = 0 ∧ t < 2 ^ 48 := by
  refine ⟨⟨at0 id, go id 4, cx 4, fe .l4 0 0x1FFF 0 0, 0x210000003FFE, rfl, begins_of (by decide +kernel), nofun, rfl, rfl, rfl, by decide +kernel, ?_⟩, ?_, ?_, ?_⟩
  · have h : pswIA ((go id 4).bank (cx 4).slot).psw = 0x210000000000 := by decide +kernel
    rw [h]; exact .inr ⟨nofun, by decide, by decide⟩
  · exact ⟨at0 id, go id 12, cx 12, fe .l12 8 0 0 0xFFFFFFFFFFFE, 0xFFFFFFFFFFFE, rfl, begins_of (by decide +kernel), fun _ => ⟨rfl, rfl⟩, rfl, rfl, by decide +kernel,
      .inl ⟨rfl, rfl, by decide⟩⟩
  · exact ⟨at0 (bk [(7, 1)]), go (bk [(7, 1)]) 6, cx 6, fe .l6 7 0 0 0, rfl, begins_of (by decide +kernel), rfl, rfl, by decide +kernel, by decide +kernel⟩
  · exact ⟨at0 (bk [(2, 0xFFFFFFFFFFFE)]), go (bk [(2, 0xFFFFFFFFFFFE)]) 4, cx 4, fa .l4 2 0 0 0 0, 0xFFFFFFFFFFFE, ⟨rfl, rfl, rfl, rfl⟩, rfl, begins_of (by decide +kernel),
      by decide +kernel, by decide, by decide⟩

/-- A frame of one register, and the frame of none. -/
theorem witness_CallResults :
    (∃ (s s1 s2 s3 : State) (c : Cx) (x : FmtE) (ps : List (Nat × Nat)) (t : Nat), c.len = x.len.bytes ∧ Begins s c x.pred s1 ∧ RegsOf x.mask [14]
      ∧ (s3.eng c.e).postCheck = none ∧ ((s1.bank c.slot).getG 15).toNat % 8 = 0 ∧
      let b := s1.bank c.slot
      let ret := (pswIA b.psw + c.len) % 2 ^ 48
      let frame := (ret + 2 ^ 48 * x.mask.toNat) :: [14].map fun r => (b.getG r).toNat
      M.exec (framePieces c .write 1 (b.getG 15 - BitVec.ofNat 64 16).toNat 16) (s1.awaitPosts c.e) = (.ok ps, s2)
      ∧ M.exec (writePieces c.e ps (frame.flatMap (natLE 8)) false false) s2 = (.ok (), s3)
      ∧ x.m = 0 ∧ x.len = .l8 ∧ x.off = 0 ∧ TargetOf x (pswIA b.psw) t ∧ (b.getG x.m).toNat % 2 = 0 ∧ (b.getG x.m).toNat < 2 ^ 48)
    ∧ ∃ (s s1 s2 s3 : State) (c : Cx) (x : FmtE) (ps : List (Nat × Nat)) (t : Nat) (l : List Byte), c.len = x.len.bytes ∧ Begins s c x.pred s1 ∧ RegsOf x.mask []
      ∧ (s3.eng c.e).postCheck = none ∧ ((s1.bank c.slot).getG 15).toNat % 8 = 0
      ∧ M.exec (framePieces c .read 2 ((s1.bank c.slot).getG 15).toNat 8) (s1.awaitPosts c.e) = (.ok ps, s2)
      ∧ M.exec (readPieces c.e ((s1.bank c.slot).getG 15).toNat ps) s2 = (.ok l, s3) ∧ x.len = .l8 ∧ x.m = 0 ∧ x.off = 0
      ∧ leNat (l.take 8) = t + 2 ^ 48 * x.mask.toNat ∧ t % 2 = 0 ∧ t < 2 ^ 48 := by
  constructor
  · let f := bk [(15, base)]
    let b := (go f 8).bank (cx 8).slot
    let words : List Nat := ((pswIA b.psw + 8) % 2 ^ 48 + 2 ^ 48 * (0x4000 : BitVec 16).toNat) :: [(14 : BitVec 4)].map fun r => (b.getG r).toNat
    have h := after_of (m := framePieces (cx 8) .write 1 (b.getG 15 - BitVec.ofNat 64 16).toNat 16) (s := (go f 8).awaitPosts 0) (v := [(0x210000000FF0, 16)])
      (by decide +kernel)
    have hw := after_of (m := writePieces 0 [(0x210000000FF0, 16)] (words.flatMap (natLE 8)) false false)
      (s := after (framePieces (cx 8) .write 1 (b.getG 15 - BitVec.ofNat 64 16).toNat 16) ((go f 8).awaitPosts 0)) (v := ()) (by decide +kernel)
    have hi : pswIA ((go f 8).bank (cx 8).slot).psw = 0x210000000000 := by decide +kernel
    exact ⟨at0 f, go f 8, _, _, cx 8, fe .l8 0 0 0x4000 0, _, 0x210000000000, rfl, begins_of (by decide +kernel), ⟨by decide, by decide⟩, none_of (by decide +kernel),
      by decide +kernel, h, hw, rfl, rfl, rfl, .inr ⟨nofun, by rw [hi]; decide, by decide⟩, by decide +kernel, by decide +kernel⟩
  · let f := bk [(15, base)]
    let l : List Byte := natLE 8 0x210000000010
    have h := after_of (m := framePieces (cx 8) .read 2 (((go1 f l 8).bank (cx 8).slot).getG 15).toNat 8) (s := (go1 f l 8).awaitPosts 0) (v := [(0x210000001000, 8)])
      (by decide +kernel)
    have hr := after_of (m := readPieces 0 (((go1 f l 8).bank (cx 8).slot).getG 15).toNat [(0x210000001000, 8)])
      (s := after (framePieces (cx 8) .read 2 (((go1 f l 8).bank (cx 8).slot).getG 15).toNat 8) ((go1 f l 8).awaitPosts 0)) (v := l) (by decide +kernel)
    exact ⟨at1 f l, go1 f l 8, _, _, cx 8, fe .l8 0 0 0 0, _, 0x210000000010, l, rfl, begins_of (by decide +kernel), ⟨by decide, by decide⟩, none_of (by decide +kernel),
      by decide +kernel, h, hr, rfl, rfl, rfl, by decide, by decide, by decide⟩

/-- Level 1 of engine 0, under LD0, whose fault level is 0: its own vector is VALID or not, and so are the entries of level 0. -/
theorem witness_ExceptionDelivery :
    let bare : State := { running with vectors := [] }
    let nested : State := running.modSlot 1 fun y => { y with nest := true }
    let full : State := bare.modSlot 0 fun y => { y with state := .active }
    let x (cause : BitVec 8) : Exc := { cause := cause, detail := 0, eaddr := 0, ilen := 0 }
    (∀ s : State, s = bare ∨ s = nested ∨ s = full → (0 : Fin 8) = Fin.ofNat 8 (s.dom (s.owner (slotOf 0 1))).faultlvl.toNat)
    ∧ ((x 0x20).cause.toNat, 1) ∈ causeVectors ∧ ((x 0x3A).cause.toNat, 14) ∈ causeVectors ∧ (x 0x20).cause ≠ 0x3A ∧ OwnTarget running 0 1 1
    ∧ ¬ OwnTarget nested 0 1 1 ∧ (0 : Fin 8) < 1 ∧ FreeTarget nested 0 0 15 ∧ FreeTarget running 0 0 14
    ∧ ¬ OwnTarget full 0 1 1 ∧ ¬ FreeTarget full 0 0 15 ∧ ¬ FreeTarget full 0 0 14 := by
  refine ⟨?_, by decide, by decide, by decide, ?_, ?_, by decide, ?_, ?_, ?_, ?_, ?_⟩
  · rintro s (rfl | rfl | rfl) <;> decide +kernel
  all_goals first | unfold OwnTarget | unfold FreeTarget
  all_goals decide +kernel

theorem witness_ExceptionCauses :
    (∃ (s s1 : State) (c : Cx), c.len = Len.l4.bytes ∧ Begins s c 0 s1)
    ∧ (∃ (s s1 : State) (c : Cx) (x : FmtA), x.len = .l4 ∧ c.len = 4 ∧ Begins s c x.pred s1 ∧ x.rb = 0 ∧ x.rc = 0 ∧ pswPRIV (s1.bank c.slot).psw = false
      ∧ field x.mod 2 4 = (0 : BitVec 4) ∧ x.ra = 0 ∧ x.mod = 0)
    ∧ (∃ (s s1 : State) (c : Cx) (x : FmtA), x.len = .l4 ∧ c.len = 4 ∧ Begins s c x.pred s1 ∧ x.rb = 0 ∧ x.rc = 0 ∧ x.mod = 0 ∧ ((s1.bank c.slot).getG x.ra).toNat % 2 = 1
      ∧ 2 ^ 48 ≤ ((s1.bank c.slot).getG 3).toNat ∧ ((s1.bank c.slot).getG 3).toNat % 2 = 0)
    ∧ (∃ (s s1 : State) (c : Cx) (x : FmtA), x.len = .l4 ∧ c.len = 4 ∧ Begins s c x.pred s1 ∧ x.mod = 0 ∧ bit x.ra 0 = false ∧ (s1.bank c.slot).getG x.rc = 0)
    ∧ (∃ (s s1 : State) (c : Cx) (x : FmtA), x.len = .l4 ∧ c.len = 4 ∧ Begins s c x.pred s1 ∧ x.ra.toNat ≤ 7 ∧ x.rb.toNat ≤ 7 ∧ x.rc.toNat ≤ 7
      ∧ field x.mod 1 5 = (0 : BitVec 5) ∧ ∃ k p, checkPacked 63 ((s1.bank c.slot).getD x.rb).toNat = .error (k, p))
    ∧ (∃ (s : State) (e : Eng) (n : Fin 8), s.ready e = some n ∧ 2 ^ 48 < pswIA (s.bank (slotOf e n.val)).psw + 4)
    ∧ ∃ (s s1 : State) (e : Eng) (n : Fin 8), s.ready e = some n ∧
      (fetchFirst e (slotOf e n.val) (pswIA (s.bank (slotOf e n.val)).psw)).exec s = (.error (.exc 0x25 0x2D 0x220000000000), s1) ∧ (0x25, 4) ∈ causeVectors
      ∧ s1.dueLevel e = none ∧ (s1.dom (s1.owner (slotOf e n.val))).state ≠ .quiescing ∧ OwnTarget s1 e n 4 := by
  let user : Bank → Bank := fun b => { b with psw := setField b.psw 59 1 0 }
  let high : Bank → Bank := fun b => { b with psw := withIA b.psw 0xFFFFFFFFFFFE }
  let hole : Bank → Bank := fun b => { b with psw := withIA b.psw 0x220000000000 }
  refine ⟨⟨at0 id, go id 4, cx 4, rfl, begins_of (by decide +kernel)⟩,
    ⟨at0 user, go user 4, cx 4, fa .l4 0 0 0 0 0, rfl, rfl, begins_of (by decide +kernel), rfl, rfl, by decide +kernel, by decide, rfl, rfl⟩,
    ⟨at0 (bk [(2, 1), (3, 2 ^ 48)]), go (bk [(2, 1), (3, 2 ^ 48)]) 4, cx 4, fa .l4 2 0 0 0 0, rfl, rfl, begins_of (by decide +kernel), rfl, rfl, rfl, by decide +kernel,
      by decide +kernel, by decide +kernel⟩,
    ⟨at0 id, go id 4, cx 4, fa .l4 2 1 3 0 0, rfl, rfl, begins_of (by decide +kernel), rfl, by decide, by decide +kernel⟩,
    ⟨at0 id, go id 4, cx 4, fa .l4 2 1 3 0 0, rfl, rfl, begins_of (by decide +kernel), by decide, by decide, by decide, by decide, ?_⟩,
    ⟨at0 high, 0, 0, by decide +kernel, by decide +kernel⟩, ?_⟩
  · have h : (((go id 4).bank (cx 4).slot).getD 1).toNat = 0 := by decide +kernel
    show ∃ k p, checkPacked 63 (((go id 4).bank (cx 4).slot).getD 1).toNat = .error (k, p)
    rw [h]; exact ⟨_, _, rfl⟩
  · refine ⟨at0 hole, ((fetchFirst 0 0 0x220000000000).exec (at0 hole)).2, 0, 0, by decide +kernel, ?_, by decide, by decide +kernel, by decide +kernel, ?_⟩
    · have h : ((fetchFirst 0 0 0x220000000000).exec (at0 hole)).1 = .error (.exc 0x25 0x2D 0x220000000000) := by decide +kernel
      have hi : pswIA ((at0 hole).bank (slotOf 0 0)).psw = 0x220000000000 := by decide +kernel
      show (fetchFirst 0 0 (pswIA ((at0 hole).bank (slotOf 0 0)).psw)).exec (at0 hole) = _
      rw [hi]; exact Prod.ext h rfl
    · unfold OwnTarget; decide +kernel

theorem witness_SupervisorCall :
    (∃ (s s1 : State) (c : Cx) (x : FmtA) (code : Nat), c.len = x.len.bytes ∧ Begins s c x.pred s1 ∧ x.ra = 0 ∧ x.rb = 0 ∧ x.rc = 0 ∧ x.len = .l4 ∧ code = x.mod.toNat
      ∧ code = 63)
    ∧ ∃ (s s1 : State) (c : Cx) (x : FmtA) (code : Nat), c.len = x.len.bytes ∧ Begins s c x.pred s1 ∧ x.ra = 0 ∧ x.rb = 0 ∧ x.rc = 0 ∧ x.len = .l6 ∧ x.mod = 0
      ∧ code = x.imm.toNat ∧ code = 65535 :=
  ⟨⟨at0 id, go id 4, cx 4, fa .l4 0 0 0 63 0, 63, rfl, begins_of (by decide +kernel), rfl, rfl, rfl, rfl, rfl, rfl⟩,
    at0 id, go id 6, cx 6, fa .l6 0 0 0 0 0xFFFF, 65535, rfl, begins_of (by decide +kernel), rfl, rfl, rfl, rfl, rfl, rfl, rfl⟩

/-- SVC enters its own level at vector 12, with IA of the next instruction in EPSW and its code in ESTAT (R203, R286). -/
theorem test_svc_enters : ∃ u, exec (.svc 0 (fa .l4 0 0 0 5 0)) (at0 id) = .next u ∧ (u.slot 0).nest = true
    ∧ pswIA (u.bank 0).epsw = 0x210000000004 ∧ pswIA (u.bank 0).psw = 0x210000001000 ∧ (u.bank 0).estat = 0x000C000000050438 := by
  have h : (match exec (.svc 0 (fa .l4 0 0 0 5 0)) (at0 id) with
    | .next u => (u.slot 0).nest && pswIA (u.bank 0).epsw == 0x210000000004 && pswIA (u.bank 0).psw == 0x210000001000 && (u.bank 0).estat == 0x000C000000050438
    | _ => false) = true := by decide +kernel
  split at h
  · simp only [Bool.and_eq_true, beq_iff_eq] at h
    exact ⟨_, by assumption, h.1.1.1, h.1.1.2, h.1.2, h.2⟩
  · cases h

theorem witness_Return : ∃ (s s1 : State) (c : Cx) (x : FmtA), OnlyRa x ∧ x.ra = 0 ∧ c.len = 4 ∧ Begins s c x.pred s1 ∧ (s1.slot c.slot).nest = true
    ∧ pswPRIV (s1.bank c.slot).psw = true ∧ field (s1.bank c.slot).epsw 62 2 = (0 : BitVec 2) ∧ field (s1.bank c.slot).epsw 72 56 = (0 : BitVec 56)
    ∧ bit (s1.bank c.slot).epsw 0 = false ∧ pswKEY (s1.bank c.slot).psw = 0 :=
  ⟨(at0 id).modSlot 0 fun y => { y with nest := true }, fetched ((at0 id).modSlot 0 fun y => { y with nest := true }) (cx 4), cx 4, fa .l4 0 0 0 0 0,
    ⟨rfl, rfl, rfl, rfl⟩, rfl, rfl, begins_of (by decide +kernel), by decide +kernel, by decide +kernel, by decide +kernel, by decide +kernel, by decide +kernel,
    by decide +kernel⟩

/-- A block of 32 bytes in SRAM, and one of 8. -/
theorem witness_PostIssue :
    (∃ (s s1 s2 : State) (c : Cx) (x : FmtB) (pa : Nat) (h : Fin 40) (f : Finished), c.len = x.len.bytes ∧ Begins s c x.pred s1 ∧ PostFields x 32 ∧ x.mod2 = 0
      ∧ x.ra.toNat ≤ 7 ∧ bit x.ra 0 = false ∧ bit x.mod 5 = false
      ∧ (postTarget c (addressOf x.bs x.ix x.disp x.len (s1.bank c.slot)) 32 .write).exec s1 = (.ok (pa, h), s2)
      ∧ PackedValue 63 ((s2.bank c.slot).getD x.ra).toNat 0 ∧ PackedValue 63 ((s2.bank c.slot).getD (x.ra + 1)).toNat 1
      ∧ finish (pswDOE (s2.bank c.slot).psw) 1 63 (bit x.mod2 0) = .ok f)
    ∧ (∃ (s s1 s2 : State) (c : Cx) (x : FmtB) (pa : Nat) (h : Fin 40), c.len = x.len.bytes ∧ Begins s c x.pred s1 ∧ PostFields x 1 ∧ x.mod2 = 0 ∧ x.ra.toNat ≤ 7
      ∧ bit x.mod 5 = false ∧ (postTarget c (addressOf x.bs x.ix x.disp x.len (s1.bank c.slot)) 1 .read).exec s1 = (.ok (pa, h), s2))
    ∧ ∃ (s s1 s2 : State) (c : Cx) (x : FmtB) (pa : Nat) (h : Fin 40), c.len = x.len.bytes ∧ Begins s c x.pred s1 ∧ x.len = .l12 ∧ x.mod = 0 ∧ x.mod2 = 0
      ∧ addressOf x.bs x.ix x.disp x.len (s1.bank c.slot) % 8 = 0
      ∧ (postTarget c (addressOf x.bs x.ix x.disp x.len (s1.bank c.slot)) 8 .write).exec s1 = (.ok (pa, h), s2) := by
  let f := bk [(2, 0x200000000FE0)]
  refine ⟨?_, ?_, ?_⟩
  · have h := after_of (m := postTarget (cx 8) (addressOf 2 0 0 .l8 ((go f 8).bank (cx 8).slot)) 32 .write) (s := go f 8) (v := (0x200000000FE0, 7)) (by decide +kernel)
    have hd : pswDOE ((after (postTarget (cx 8) (addressOf 2 0 0 .l8 ((go f 8).bank (cx 8).slot)) 32 .write) (go f 8)).bank (cx 8).slot).psw = false := by decide +kernel
    have h0 : (((after (postTarget (cx 8) (addressOf 2 0 0 .l8 ((go f 8).bank (cx 8).slot)) 32 .write) (go f 8)).bank (cx 8).slot).getD 6).toNat = 0xC := by
      decide +kernel
    have h1 : (((after (postTarget (cx 8) (addressOf 2 0 0 .l8 ((go f 8).bank (cx 8).slot)) 32 .write) (go f 8)).bank (cx 8).slot).getD (6 + 1)).toNat = 0x1C := by
      decide +kernel
    exact ⟨at0 f, _, _, cx 8, fb .l8 6 2 0 0x1F 0 0, _, _, _, rfl, begins_of (by decide +kernel), ⟨.inl rfl, by decide, by decide⟩, rfl, by decide, by decide, by decide, h,
      h0 ▸ zero63, h1 ▸ one63, by rw [hd]; rfl⟩
  · have h := after_of (m := postTarget (cx 8) (addressOf 2 0 0 .l8 ((go f 8).bank (cx 8).slot)) 1 .read) (s := go f 8) (v := (0x200000000FE0, 7)) (by decide +kernel)
    exact ⟨at0 f, _, _, cx 8, fb .l8 6 2 0 0 0 0, _, _, rfl, begins_of (by decide +kernel), ⟨.inl rfl, by decide, by decide⟩, rfl, by decide, by decide, h⟩
  · have h := after_of (m := postTarget (cx 12) (addressOf 2 0 0 .l12 ((go f 12).bank (cx 12).slot)) 8 .write) (s := go f 12) (v := (0x200000000FE0, 7)) (by decide +kernel)
    exact ⟨at0 f, _, _, cx 12, fb .l12 6 2 0 0 0 0, _, _, rfl, begins_of (by decide +kernel), rfl, rfl, rfl, by decide +kernel, h⟩

theorem witness_Fences : ∃ (s s1 : State) (c : Cx) (x : FmtA), OnlyRa x ∧ x.ra = 0 ∧ c.len = 4 ∧ Begins s c x.pred s1
    ∧ (((s1.drainAll c.e).awaitPosts c.e).eng c.e).postCheck = none :=
  ⟨at0 id, go id 4, cx 4, fa .l4 0 0 0 0 0, ⟨rfl, rfl, rfl, rfl⟩, rfl, rfl, begins_of (by decide +kernel), none_of (by decide +kernel)⟩

/-- A post of 8 bytes at the first block of the posting region. -/
def post (waited : Bool) (result : Option PostResult) : Post :=
  { kind := .pbn, slot := 0, va := 0x200000000000, pa := 0x200000000000, len := 8, u := false, waited := waited, doe := false, home := 0, ra := 1, val := 1, val2 := 0,
    ilen := 8, arrive := 0, reply := 0, result := result }

/-- The part with posts outstanding. -/
def posting (l : List Post) : State := ({ at0 id with homes := tset [] [] 0 [0] }).modEng 0 fun y => { y with posts := l }

theorem witness_PostsPerformed :
    (∃ (s : State) (u : Fin 40) (e : Eng) (rest : List Eng) (p : Post) (new : List Byte) (r : PostResult), tget [] s.homes u.val = e :: rest
      ∧ (s.eng e).nextPost u = some p ∧ tget none s.mem.errs (p.pa / 64) = none ∧ PostRule p (s.bytesAt p.pa p.len) new r ∧ s.poisoned p.pa = false)
    ∧ (∃ (s : State) (u : Fin 40) (e : Eng) (rest : List Eng) (p : Post), tget [] s.homes u.val = e :: rest ∧ (s.eng e).nextPost u = some p
      ∧ tget none s.mem.errs (p.pa / 64) = none ∧ s.poisoned p.pa = true)
    ∧ (∃ (s : State) (e : Eng) (p : Post) (rest : List Post) (c : Cx) (cc : Option (BitVec 2)) (d : Option (BitVec 256)) (g : Option Word),
      (s.eng e).posts = p :: rest ∧ (s.eng e).postCheck = none ∧ p.waited = true ∧ p.result = some (.done cc d g) ∧ c.e = e ∧ c.slot = p.slot.toNat ∧ c.len = p.ilen.toNat)
    ∧ (∃ (s : State) (e : Eng) (p : Post) (rest : List Post), (s.eng e).posts = p :: rest ∧ (s.eng e).postCheck = none ∧ p.waited = false
      ∧ p.result = some (.done (some 2) none (some 7)))
    ∧ ∃ (s : State) (e : Eng) (p : Post) (rest : List Post), (s.eng e).posts = p :: rest ∧ (s.eng e).postCheck = none ∧ p.waited = false
      ∧ p.result = some (.failed { cause := 0x39, detail := 0, eaddr := 0, ilen := 0 }) := by
  let bad : State := { posting [post true none] with mem := { (posting [post true none]).mem with poison := tset false [] (0x200000000000 / 64) true } }
  refine ⟨⟨posting [post true none], 0, 0, [], post true none, _, _, by decide +kernel, by decide +kernel, by decide +kernel, ⟨rfl, rfl, rfl⟩, by decide +kernel⟩,
    ⟨bad, 0, 0, [], post true none, by decide +kernel, by decide +kernel, by decide +kernel, by decide +kernel⟩,
    ⟨posting [post true (some (.done (some 2) none (some 7)))], 0, post true (some (.done (some 2) none (some 7))), [], cx 8, some 2, none, some 7, by decide +kernel,
      by decide +kernel, rfl, rfl, rfl, by decide, by decide⟩,
    ⟨posting [post false (some (.done (some 2) none (some 7)))], 0, post false (some (.done (some 2) none (some 7))), [], by decide +kernel, by decide +kernel, rfl, rfl⟩,
    ⟨posting [post false (some (.failed { cause := 0x39, detail := 0, eaddr := 0, ilen := 0 }))], 0, post false (some (.failed { cause := 0x39, detail := 0, eaddr := 0, ilen := 0 })), [], by decide +kernel, by decide +kernel, rfl, rfl⟩⟩

/-- The part with a closed store-buffer entry of the last byte of a block. -/
def buffered : SbEntry := { block := 0x210000001000 / 16, data := 0, mask := 0x8000, opened := false, held := false }

theorem witness_StoreDrain : ∃ (s : State) (e : Eng) (y : SbEntry) (r : List SbEntry), Quiet s ∧ (s.eng e).sb = y :: r ∧ y.opened = false ∧ y.held = false := by
  have q := quiet0 id
  have h : ∀ e, ((at0 id).modEng 0 fun x => { x with sb := [buffered] }).eng e
      = if e = 0 then { (at0 id).eng 0 with sb := [buffered] } else (at0 id).eng e := by
    intro e
    split
    · rename_i he
      rw [he]
      exact State.eng_modEng _ _ _
    · exact State.eng_modEng_ne _ _ _ _ (by assumption)
  refine ⟨(at0 id).modEng 0 fun x => { x with sb := [buffered] }, 0, buffered, [], ⟨fun e => ?_, fun _ => rfl, fun _ => rfl, ⟨fun e => ?_, q.undamaged.l2⟩, q.standing⟩,
    by decide +kernel, rfl, rfl⟩
  · rw [h]
    split
    · exact q.posts 0
    · exact q.posts e
  · rw [h]
    split
    · exact ⟨(q.undamaged.engines 0).dcache, (q.undamaged.engines 0).icache, fun y hy => by
        rw [List.mem_singleton] at hy
        rw [hy]
        rfl⟩
    · exact q.undamaged.engines e

theorem stringPieces_of {c : Cx} {acc : Acc} {va n : Nat} {s : State} {ps : List (Nat × Nat)}
    (h : ends (stringPieces c acc (pagePieces va n)) s (fun a _ => a == ps && (addrsOf ps).length == n) = true) : StringPieces c acc va n s ps := by
  obtain ⟨a, t, h, h'⟩ := ends_of h
  simp only [Bool.and_eq_true, beq_iff_eq] at h'
  exact ⟨t, h'.1 ▸ h, h'.2⟩

theorem witness_StringAccesses :
    (∃ (s : State) (c : Cx) (va : Nat) (ps : List (Nat × Nat)), Quiet s ∧ StringPieces c .read va 8 s ps ∧ ∀ l ∈ linesOfPieces ps, tget false s.mem.poison l = false)
    ∧ ∃ (s : State) (c : Cx) (va : Nat) (ps : List (Nat × Nat)) (l : List Byte), Quiet s ∧ StringPieces c .write va l.length s ps ∧ (addrsOf ps).Nodup :=
  ⟨⟨at0 id, cx 4, 0x210000001FFC, [(0x210000001FFC, 4), (0x210000002000, 4)], quiet0 _, stringPieces_of (by decide +kernel), fun _ _ => rfl⟩,
    at0 id, cx 4, 0x210000001FFF, [(0x210000001FFF, 1)], [7], quiet0 _, stringPieces_of (by decide +kernel), by decide⟩

/-- Two operands of `n` and `m` bytes, 0x800 apart. -/
def two (n m : Word) : Bank → Bank := bk [(2, base), (3, base + 0x800), (4, n), (5, m)]

/-- A first segment of 64 bytes with one byte more to do, and a resumed one. -/
theorem witness_StringMoves :
    (∃ (s s1 : State) (c : Cx) (x : FmtA), c.len = x.len.bytes ∧ x.len = .l4 ∧ field x.mod 1 5 = (0 : BitVec 5) ∧ bit x.mod 0 = false ∧ StringRegs x false [] ∧
      let b := s1.bank c.slot
      let d := (b.getG x.ra).toNat
      let a := (b.getG x.rb).toNat
      let n := b.len x.rc
      let k := min 64 n
      ipsOf b = 0 ∧ InRange d n ∧ InRange a n ∧ Works s c x.pred 5 s1 ∧ pswIPR b.psw = false ∧ overlap d n a n = false ∧ n = 65
      ∧ ∃ s2, (perCycle c 8 (mvsCycle c d a n false false) 8 0 k).exec s1 = (.ok (), s2) ∧ (s2.eng 0).postCheck = none ∧ s2.bank 0 = s1.bank 0)
    ∧ (∃ (s s1 : State) (c : Cx) (x : FmtA), c.len = x.len.bytes ∧ x.len = .l4 ∧ bit x.mod 0 = false ∧ StringRegs x false [] ∧
      let b := s1.bank c.slot
      let d := (b.getG x.ra).toNat
      let a := (b.getG x.rb).toNat
      let n := b.len x.rc
      let k := min 64 n
      ipsOf b = 1 ∧ pswIPR b.psw = true ∧ InRange d n ∧ InRange a n ∧ Works s c x.pred 5 s1 ∧ n = 0
      ∧ ∃ s2, (perCycle c 8 (mvsCycle c d a n true (overlap d n a n)) 8 0 k).exec s1 = (.ok (), s2) ∧ (s2.eng 0).postCheck = none ∧ s2.bank 0 = s1.bank 0)
    ∧ (∃ (s s1 : State) (c : Cx) (x : FmtA), c.len = x.len.bytes ∧ x.len = .l4 ∧ field x.mod 1 5 = (0 : BitVec 5) ∧ bit x.mod 0 = true ∧ StringRegs x false [] ∧
      let b := s1.bank c.slot
      ipsOf b = 0 ∧ Works s c x.pred 5 s1 ∧ ∃ s2, (mvsByteSegment c x.ra x.rb x.rc false).exec s1 = (.ok .done, s2) ∧ (s2.eng 0).postCheck = none)
    ∧ (∃ (s s1 : State) (c : Cx) (x : FmtA), c.len = x.len.bytes ∧ x.len = .l6 ∧ x.mod = 0 ∧ field x.imm 8 8 = (0 : BitVec 8) ∧ StringRegs x true [] ∧
      let b := s1.bank c.slot
      let d := (b.getG x.ra).toNat
      let a := (b.getG x.rb).toNat
      let n := b.len x.rc
      let m := b.len (x.rc + 1)
      let k := min 64 n
      ipsOf b = 0 ∧ InRange d n ∧ InRange a m ∧ overlap d n a m = false ∧ Works s c x.pred 6 s1 ∧ m < n
      ∧ ∃ s2, (perCycle c 8 (mvpCycle c d a m (field x.imm 0 8)) 8 0 k).exec s1 = (.ok (), s2) ∧ (s2.eng 0).postCheck = none ∧ s2.bank 0 = s1.bank 0)
    ∧ (∃ (s s1 : State) (c : Cx) (x : FmtA), c.len = x.len.bytes ∧ x.len = .l4 ∧ x.mod = 0 ∧ StringRegs x false [] ∧
      let b := s1.bank c.slot
      let d := (b.getG x.ra).toNat
      let a := (b.getG x.rb).toNat
      let n := b.len x.rc
      let k := min 64 n
      ipsOf b = 0 ∧ InRange d n ∧ a + 256 ≤ 2 ^ 48 ∧ overlap d n a 256 = false ∧ Works s c x.pred 8 s1
      ∧ ∃ s2, (perCycle c 2 (trnCycle c d a) 32 0 k).exec s1 = (.ok (), s2) ∧ (s2.eng 0).postCheck = none ∧ s2.bank 0 = s1.bank 0)
    ∧ ∃ (s s1 : State) (c : Cx) (x : FmtA), c.len = x.len.bytes ∧ x.len = .l4 ∧ field x.mod 1 5 = (0 : BitVec 5) ∧ StringRegs x false [] ∧
      let b := s1.bank c.slot
      let a := (b.getG x.rb).toNat
      let n := b.len x.rc
      ipsOf b = 0 ∧ InRange a n ∧ Works s c x.pred 4 s1
      ∧ ∃ v s2, (crcUnits c (if bit x.mod 0 then 0xEDB88320 else 0x82F63B78) a 8 0 (min 64 n) (field (b.getG x.ra) 0 32)).exec s1 = (.ok v, s2)
        ∧ (s2.eng 0).postCheck = none ∧ s2.bank 0 = s1.bank 0 := by
  refine ⟨?_, ?_, ?_, ?_, ?_, ?_⟩
  · exact ⟨at1 (two 65 0) [1, 2], work (two 65 0) [1, 2] 4 5, cx 4, fa .l4 2 3 4 0 0, rfl, rfl, by decide, by decide, ⟨by decide, by decide⟩, by decide +kernel,
      by unfold InRange; decide +kernel, by unfold InRange; decide +kernel, works_of (by decide +kernel), by decide +kernel, by decide +kernel, by decide +kernel,
      runs_of (by decide +kernel)⟩
  · exact ⟨at1 (resuming (two 0 0) 1) [1], resume (resuming (two 0 0) 1) [1] 4, cx 4, fa .l4 2 3 4 0 0, rfl, rfl, by decide, ⟨by decide, by decide⟩, by decide +kernel,
      by decide +kernel, by unfold InRange; decide +kernel, by unfold InRange; decide +kernel, .inr ⟨resumes_of (by decide +kernel), by decide +kernel⟩, by decide +kernel,
      runs_of (by decide +kernel)⟩
  · have h := ends_of (m := mvsByteSegment (cx 4) 2 3 4 false) (s := work (two 1 0) [1, 2] 4 5) (p := fun a t => (a matches .done) && noCheck t) (by decide +kernel)
    obtain ⟨a, t, h, h'⟩ := h
    refine ⟨at1 (two 1 0) [1, 2], work (two 1 0) [1, 2] 4 5, cx 4, fa .l4 2 3 4 1 0, rfl, rfl, by decide, by decide, ⟨by decide, by decide⟩, by decide +kernel,
      works_of (by decide +kernel), t, ?_, ?_⟩
    · cases a <;> first | exact h | simp at h'
    · exact none_of (by simp only [Bool.and_eq_true] at h'; exact h'.2)
  · exact ⟨at1 (two 65 9) [1, 2], work (two 65 9) [1, 2] 6 6, cx 6, fa .l6 2 3 4 0 0x20, rfl, rfl, rfl, by decide, ⟨by decide, by decide⟩, by decide +kernel,
      by unfold InRange; decide +kernel, by unfold InRange; decide +kernel, by decide +kernel, works_of (by decide +kernel), by decide +kernel, runs_of (by decide +kernel)⟩
  · exact ⟨at1 (two 65 0) [1, 2], work (two 65 0) [1, 2] 4 8, cx 4, fa .l4 2 3 4 0 0, rfl, rfl, rfl, ⟨by decide, by decide⟩, by decide +kernel,
      by unfold InRange; decide +kernel, by decide +kernel, by decide +kernel, works_of (by decide +kernel), runs_of (by decide +kernel)⟩
  · exact ⟨at1 (two 65 0) [1, 2], work (two 65 0) [1, 2] 4 4, cx 4, fa .l4 2 3 4 0 0, rfl, rfl, by decide, ⟨by decide, by decide⟩, by decide +kernel,
      by unfold InRange; decide +kernel, works_of (by decide +kernel), answers_of (by decide +kernel)⟩

/-- Scans that find their byte and ones that do not, of 65 bytes; one under fixed-time mode that reads on to the end; and the end of a resumed one. -/
theorem witness_StringScans :
    (∃ (s s1 : State) (c : Cx) (x : FmtA), c.len = x.len.bytes ∧ x.len = .l4 ∧ x.mod = 0 ∧ StringRegs x false [] ∧
      let b := s1.bank c.slot
      let n := b.len x.rc
      let a1 := (b.getG x.ra).toNat
      let a2 := (b.getG x.rb).toNat
      InRange a1 n ∧ InRange a2 n ∧ Works s c x.pred 5 s1 ∧ ipsOf b = 0
      ∧ ∃ s2, (scanUnits c false 8 [a1, a2] clsTest (min 64 n) 0 (min 64 n) none).exec s1 = (.ok (none, 64), s2) ∧ (s2.eng 0).postCheck = none ∧ s2.bank 0 = s1.bank 0)
    ∧ (∃ (s s1 : State) (c : Cx) (x : FmtA), c.len = x.len.bytes ∧ x.len = .l4 ∧ x.mod = 0 ∧ StringRegs x false [] ∧
      let b := s1.bank c.slot
      let n := b.len x.rc
      let a1 := (b.getG x.ra).toNat
      InRange a1 n ∧ Works s c x.pred 5 s1 ∧ ipsOf b = 0 ∧ pswFTM b.psw = true
      ∧ ∃ r s2, (scanUnits c true 8 [a1] (scnTest (field (b.getG x.rb) 0 8) (bit x.mod 0)) (min 64 n) 0 (min 64 n) none).exec s1 = (.ok r, s2)
        ∧ (s2.eng 0).postCheck = none ∧ s2.bank 0 = s1.bank 0)
    ∧ (∃ (s s1 : State) (c : Cx) (x : FmtA), c.len = x.len.bytes ∧ x.len = .l4 ∧ field x.mod 1 5 = (0 : BitVec 5) ∧ StringRegs x false [] ∧
      let b := s1.bank c.slot
      InRange (b.getG x.ra).toNat (b.len x.rc) ∧ Works s c x.pred 5 s1 ∧ ipsOf b = 3 ∧ pswFTM b.psw = false)
    ∧ (∃ (s s1 : State) (c : Cx) (x : FmtA), c.len = x.len.bytes ∧ x.len = .l4 ∧ x.mod = 0 ∧ StringRegs x true [] ∧
      let b := s1.bank c.slot
      let n := b.len x.rc
      let a1 := (b.getG x.ra).toNat
      let a2 := (b.getG x.rb).toNat
      InRange a1 n ∧ a2 + 256 ≤ 2 ^ 48 ∧ Works s c x.pred 8 s1 ∧ ipsOf b = 0
      ∧ ∃ r s2, (scanUnits c false 2 [a1] (trtTest c a2) (min 64 n) 0 (min 64 n) none).exec s1 = (.ok r, s2) ∧ (s2.eng 0).postCheck = none ∧ s2.bank 0 = s1.bank 0)
    ∧ ∃ (s s1 : State) (c : Cx) (x : FmtA), c.len = x.len.bytes ∧ x.len = .l6 ∧ x.mod = 0 ∧ field x.imm 8 8 = (0 : BitVec 8) ∧ StringRegs x true [] ∧
      let b := s1.bank c.slot
      let n := b.len x.rc
      let m := b.len (x.rc + 1)
      let a1 := (b.getG x.ra).toNat
      let a2 := (b.getG x.rb).toNat
      ipsOf b ≤ 2 ∧ InRange a1 n ∧ InRange a2 m ∧ Works s c x.pred 6 s1
      ∧ ∃ v s2, (clpUnits c a1 a2 n m (field x.imm 0 8) 8 0 (min 64 (max n m)) (ipsOf b)).exec s1 = (.ok v, s2) ∧ (s2.eng 0).postCheck = none ∧ s2.bank 0 = s1.bank 0 := by
  let ftm : Bank → Bank := fun b => { two 65 0 b with psw := setField b.psw 60 1 1 }
  refine ⟨?_, ?_, ?_, ?_, ?_⟩
  · exact ⟨at1 (two 65 0) [], work (two 65 0) [] 4 5, cx 4, fa .l4 2 3 4 0 0, rfl, rfl, rfl, ⟨by decide, by decide⟩, by unfold InRange; decide +kernel,
      by unfold InRange; decide +kernel, works_of (by decide +kernel), by decide +kernel, runs_of (by decide +kernel)⟩
  · exact ⟨at1 ftm [0, 1], work ftm [0, 1] 4 5, cx 4, fa .l4 2 6 4 0 0, rfl, rfl, rfl, ⟨by decide, by decide⟩, by unfold InRange; decide +kernel,
      works_of (by decide +kernel), by decide +kernel, by decide +kernel, answers_of (by decide +kernel)⟩
  · exact ⟨at1 (resuming (two 65 0) 3) [], resume (resuming (two 65 0) 3) [] 4, cx 4, fa .l4 2 6 4 0 0, rfl, rfl, by decide, ⟨by decide, by decide⟩,
      by unfold InRange; decide +kernel, .inr ⟨resumes_of (by decide +kernel), by decide +kernel⟩, by decide +kernel, by decide +kernel⟩
  · exact ⟨at1 (two 65 0) [], work (two 65 0) [] 4 8, cx 4, fa .l4 2 3 4 0 0, rfl, rfl, rfl, ⟨by decide, by decide⟩, by unfold InRange; decide +kernel,
      by decide +kernel, works_of (by decide +kernel), by decide +kernel, answers_of (by decide +kernel)⟩
  · exact ⟨at1 (two 65 9) [1, 2], work (two 65 9) [1, 2] 6 6, cx 6, fa .l6 2 3 4 0 0x20, rfl, rfl, rfl, by decide, ⟨by decide, by decide⟩, by decide +kernel,
      by unfold InRange; decide +kernel, by unfold InRange; decide +kernel, works_of (by decide +kernel), answers_of (by decide +kernel)⟩

/-- An edit plan of one literal step, and one character of UTF-8 transcoded to UTF-8. -/
theorem witness_StringEdits :
    (∃ (s s1 : State) (c : Cx) (x : FmtA) (l : List Byte) (h : PlanHeader), c.len = x.len.bytes ∧ x.len = .l4 ∧ field x.mod 3 3 = (0 : BitVec 3) ∧ StringRegs x true [] ∧
      let b := s1.bank c.slot
      let d := (b.getG x.ra).toNat
      let a := (b.getG x.rb).toNat
      ipsOf b = 0 ∧ pswIPR b.psw = false ∧ InRange a 8 ∧ Works s c x.pred 12 s1 ∧ PackedValue 63 (b.getD ((field x.mod 0 3).setWidth 4)).toNat 0
      ∧ planHeader l = some h ∧ InRange a 16 ∧ InRange d 1 ∧ h.steps = 1 ∧ overlap d 1 a 16 = false
      ∧ ∃ s2 s3 r, (stringRead c a 8).exec s1 = (.ok l, s2) ∧ s2.bank 0 = s1.bank 0
        ∧ (editUnits c h (editMode h 0).1 0 d a 0 1 0 false { fsig := h.steps, ndig := 0, neg := false }).exec s2 = (.ok r, s3) ∧ (s3.eng 0).postCheck = none)
    ∧ ∃ (s s1 : State) (c : Cx) (x : FmtA), c.len = x.len.bytes ∧ x.len = .l6 ∧ x.mod = 0 ∧ field x.imm 12 4 = (0 : BitVec 4) ∧
      let f := xcdFields x
      let b := s1.bank c.slot
      let d := (b.getG x.ra).toNat
      let a := (b.getG x.rb).toNat
      let n := b.len x.rc
      let m := b.len (x.rc + 1)
      f.usesTable = false ∧ f.rt = 0 ∧ f.senc ≤ 3 ∧ f.denc ≤ 3 ∧ f.act ≠ 3 ∧ f.senc ≠ 3 ∧ StringRegs x true [] ∧ ipsOf b = 0 ∧ InRange d n ∧ InRange a m
      ∧ Works s c x.pred 8 s1 ∧ overlap d n a m = false
      ∧ ∃ r s3, (xcdUnits c f 0 0 d a n m 65 0 0).exec s1 = (.ok r, s3) ∧ (s3.eng 0).postCheck = none ∧ s3.bank 0 = s1.bank 0 := by
  constructor
  · let f := bk [(2, base + 0x800), (3, base)]
    let l : List Byte := [1, 0, 1, 0, 0x20, 0x2A, 1, 0]
    have hd : (((work f l 4 12).bank 0).getD ((field (0 : BitVec 6) 0 3).setWidth 4)).toNat = 0xC := by decide +kernel
    have hp : PackedValue 63 (((work f l 4 12).bank 0).getD ((field (0 : BitVec 6) 0 3).setWidth 4)).toNat 0 := by rw [hd]; exact zero63
    refine ⟨at1 f l, work f l 4 12, cx 4, fa .l4 2 3 4 0 0, l, { steps := 1, fill := 0x20, ovfill := 0x2A, digits := 1, zfill := false }, rfl, rfl, by decide,
      ⟨by decide, by decide⟩, by decide +kernel, by decide +kernel,
      by unfold InRange; decide +kernel, works_of (by decide +kernel), hp, rfl, by unfold InRange; decide +kernel, by unfold InRange; decide +kernel, rfl,
      by decide +kernel, after (stringRead (cx 4) (((work f l 4 12).bank 0).getG 3).toNat 8) (work f l 4 12), ?_⟩
    obtain ⟨r, s3, h3, h3', _⟩ := answers_of (m := editUnits (cx 4) { steps := 1, fill := 0x20, ovfill := 0x2A, digits := 1, zfill := false }
      (editMode { steps := 1, fill := 0x20, ovfill := 0x2A, digits := 1, zfill := false } 0).1 0
      (((work f l 4 12).bank 0).getG 2).toNat (((work f l 4 12).bank 0).getG 3).toNat 0 1 0 false { fsig := 1, ndig := 0, neg := false })
      (s := after (stringRead (cx 4) (((work f l 4 12).bank 0).getG 3).toNat 8) (work f l 4 12)) (by decide +kernel)
    exact ⟨s3, r, after_of (by decide +kernel), by decide +kernel, h3, h3'⟩
  · exact ⟨at1 (bk [(2, base + 0x800), (3, base), (4, 4), (5, 1)]) [0x41], work (bk [(2, base + 0x800), (3, base), (4, 4), (5, 1)]) [0x41] 6 8, cx 6, fa .l6 2 3 4 0 0,
      rfl, rfl, rfl, by decide, by decide, by decide, by decide, by decide, by decide, by decide, ⟨by decide, by decide⟩, by decide +kernel,
      by unfold InRange; decide +kernel, by unfold InRange; decide +kernel, works_of (by decide +kernel), by decide +kernel, answers_of (by decide +kernel)⟩

/-- Engine 0 of the running part with a wait, and its slot's wake latch. -/
def waiting (w : Wait) (wake : Bool) : State := ((at0 id).modEng 0 fun x => { x with wait := w }).modSlot 0 fun y => { y with wake := wake }

theorem witness_Waits :
    (∀ wake : Bool, ∃ (s s1 : State) (c : Cx) (x : FmtA), x.len = .l4 ∧ x.rb = 0 ∧ x.rc = 0 ∧ c.len = 4 ∧ Begins s c x.pred s1 ∧
      let s2 := s1.awaitPosts c.e
      (s2.eng c.e).postCheck = none ∧ field x.mod 1 5 = (0 : BitVec 5) ∧ x.mod = 0 ∧ (s2.slot c.slot).wake = wake ∧ ((s2.bank c.slot).getG x.ra).toNat ≤ s2.pcm.chrono.toNat
      ∧ pswKEY (s1.bank c.slot).psw = 0)
    ∧ (∃ (s s1 : State) (c : Cx) (x : FmtA), x.len = .l4 ∧ x.rb = 0 ∧ x.rc = 0 ∧ c.len = 4 ∧ Begins s c x.pred s1 ∧
      let s2 := s1.awaitPosts c.e
      (s2.eng c.e).postCheck = none ∧ x.mod = 0 ∧ s2.pcm.chrono.toNat < ((s2.bank c.slot).getG x.ra).toNat)
    ∧ (∀ wake : Bool, ∃ (s : State) (c : Cx), c.len = 4 ∧ (s.eng c.e).postCheck = none ∧ (s.eng c.e).wait = .wfe (some 0)
      ∧ (s.modEng c.e fun y => { y with wait := .none }).ready c.e = some c.n ∧ (s.slot c.slot).wake = wake ∧ (0 : Word).toNat ≤ s.pcm.chrono.toNat)
    ∧ (∃ (s : State) (c : Cx), c.len = 4 ∧ (s.eng c.e).postCheck = none ∧ (s.eng c.e).wait = .wfe none
      ∧ (s.modEng c.e fun y => { y with wait := .none }).ready c.e = some c.n ∧ (s.slot c.slot).wake = false)
    ∧ (∃ (s : State) (c : Cx), c.len = 4 ∧ (s.eng c.e).postCheck = none ∧ (s.eng c.e).wait = .wuntil 5
      ∧ (s.modEng c.e fun y => { y with wait := .none }).ready c.e = some c.n)
    ∧ ∃ (s : State) (c : Cx), c.len = 4 ∧ (s.eng c.e).postCheck = none ∧ (s.eng c.e).wait = .sev 255 63 ∧ s.running c.e = some c.n := by
  let awake : State := (at0 id).modSlot 0 fun y => { y with wake := true }
  refine ⟨fun wake => ?_, ?_, fun wake => ?_, ?_, ?_, ?_⟩
  · cases wake
    · exact ⟨at0 id, go id 4, cx 4, fa .l4 2 0 0 0 0, rfl, rfl, rfl, rfl, begins_of (by decide +kernel), none_of (by decide +kernel), by decide, rfl, by decide +kernel,
        by decide +kernel, by decide +kernel⟩
    · exact ⟨awake, fetched awake (cx 4), cx 4, fa .l4 2 0 0 0 0, rfl, rfl, rfl, rfl, begins_of (by decide +kernel), none_of (by decide +kernel), by decide, rfl,
        by decide +kernel, by decide +kernel, by decide +kernel⟩
  · exact ⟨at0 (bk [(2, 1)]), go (bk [(2, 1)]) 4, cx 4, fa .l4 2 0 0 0 0, rfl, rfl, rfl, rfl, begins_of (by decide +kernel), none_of (by decide +kernel), rfl, by decide +kernel⟩
  · cases wake
    · exact ⟨waiting (.wfe (some 0)) false, cx 4, rfl, none_of (by decide +kernel), by decide +kernel, by decide +kernel, by decide +kernel, by decide +kernel⟩
    · exact ⟨waiting (.wfe (some 0)) true, cx 4, rfl, none_of (by decide +kernel), by decide +kernel, by decide +kernel, by decide +kernel, by decide +kernel⟩
  · exact ⟨waiting (.wfe none) false, cx 4, rfl, none_of (by decide +kernel), by decide +kernel, by decide +kernel, by decide +kernel⟩
  · exact ⟨waiting (.wuntil 5) false, cx 4, rfl, none_of (by decide +kernel), by decide +kernel, by decide +kernel⟩
  · exact ⟨waiting (.sev 255 63) false, cx 4, rfl, none_of (by decide +kernel), by decide +kernel, by decide +kernel⟩

/-- A source that the event map names, and one that it does not. -/
theorem witness_EventRouting : ∃ s : State, s.events.find? (fun x => x.source == 0x11000) = none
    ∧ s.events.find? (fun x => x.source == 0x11100) = some { source := 0x11100, slot := 1, vector := 16 } :=
  ⟨{ at0 id with events := [{ source := 0x11100, slot := 1, vector := 16 }] }, by decide, by decide⟩

/-- Level 1 of engine 0 has vectors pending, or level 0 runs with an exception held or deferred. -/
theorem witness_EventEntries :
    (∃ (s : State) (e : Eng) (n : Fin 8) (v : Nat), (s.eng e).atPoint = true ∧ (s.eng e).postCheck = none ∧ s.dueLevel e = some n ∧ (s.slot (slotOf e n.val)).xexc = false
      ∧ IsNext (s.slot (slotOf e n.val)) v ∧ v = 63 ∧ bit (entryOf s e n v) 0 = true)
    ∧ (∃ (s : State) (e : Eng) (n m : Fin 8) (v : Nat), (s.eng e).atPoint = true ∧ (s.eng e).postCheck = none ∧ s.dueLevel e = some n
      ∧ (s.slot (slotOf e n.val)).xexc = false ∧ m < n ∧ (routed s 0 16).dueLevel e = some m
      ∧ (((routed s 0 16).tick e 6 1).slot (slotOf e m.val)).xexc = false ∧ IsNext (((routed s 0 16).tick e 6 1).slot (slotOf e m.val)) v)
    ∧ (∃ (s : State) (e : Eng) (n : Fin 8) (x : Exc), (s.eng e).atPoint = true ∧ (s.eng e).postCheck = none ∧ s.running e = some n ∧ s.clusterRuns e = true
      ∧ (s.eng e).checkstop = false ∧ s.dueLevel e = none ∧ (s.dom (s.owner (slotOf e n.val))).state ≠ .quiescing ∧ (s.slot (slotOf e n.val)).heldExc = some x)
    ∧ ∃ (s : State) (e : Eng) (n : Fin 8) (x : Exc) (r : List Exc), (s.eng e).atPoint = true ∧ (s.eng e).postCheck = none ∧ s.running e = some n
      ∧ s.clusterRuns e = true ∧ (s.eng e).checkstop = false ∧ s.dueLevel e = none ∧ (s.dom (s.owner (slotOf e n.val))).state ≠ .quiescing
      ∧ (s.slot (slotOf e n.val)).heldExc = none ∧ (s.slot (slotOf e n.val)).deferred = x :: r := by
  let x : Exc := { cause := 0x39, detail := 0, eaddr := 0, ilen := 0 }
  let due : State := running.modSlot 1 fun y => { y with pend := 0x8000000000010000, lastvec := 16 }
  refine ⟨⟨due, 0, 1, 63, by decide +kernel, none_of (by decide +kernel), by decide +kernel, by decide +kernel, ?_, rfl, by decide +kernel⟩,
    ⟨due, 0, 1, 0, 16, by decide +kernel, none_of (by decide +kernel), by decide +kernel, by decide +kernel, by decide, by decide +kernel, by decide +kernel, ?_⟩,
    ⟨(at0 id).modSlot 0 fun y => { y with heldExc := some x }, 0, 0, x, by decide +kernel, none_of (by decide +kernel), by decide +kernel, by decide +kernel,
      by decide +kernel, by decide +kernel, by decide +kernel, by decide +kernel⟩,
    ⟨(at0 id).modSlot 0 fun y => { y with deferred := [x] }, 0, 0, x, [], by decide +kernel, none_of (by decide +kernel), by decide +kernel, by decide +kernel,
      by decide +kernel, by decide +kernel, by decide +kernel, by decide +kernel, by decide +kernel⟩⟩
  all_goals unfold IsNext; decide +kernel

theorem witness_KeyInstructions :
    (∃ (s : State) (pa : Nat), (s.paClass pa).isNormal = true)
    ∧ (∃ (s s1 : State) (c : Cx) (x : FmtA), x.len = .l4 ∧ x.rb = 0 ∧ x.ra = 0 ∧ x.rc = 0 ∧ x.mod = 0 ∧ c.len = 4 ∧ Begins s c x.pred s1 ∧
      pswPRIV (s1.bank c.slot).psw = true ∧ pswKEY (s1.bank c.slot).psw = 0 ∧ (((s1.drainAll c.e).awaitPosts c.e).eng c.e).postCheck = none
      ∧ ((s1.bank c.slot).getG x.ra).toNat < 256)
    ∧ (∃ (s s1 : State) (c : Cx) (x : FmtA), x.len = .l4 ∧ x.rc = 0 ∧ x.mod = 0 ∧ c.len = 4 ∧ Begins s c x.pred s1 ∧
      let pa := ((s1.bank c.slot).getG x.ra).toNat / 4096 % 2 ^ 34 * 4096
      let t := (s1.drainAll c.e).awaitPosts c.e
      pswPRIV (s1.bank c.slot).psw = true ∧ pswKEY (s1.bank c.slot).psw = 0 ∧ ((s1.bank c.slot).getG x.rb).toNat / 256 ≤ 2 ∧ (s1.paClass pa).isNormal = true
      ∧ s1.paClass pa ≠ .dram ∧ s1.erasing pa = false ∧ (t.eng c.e).postCheck = none ∧ t.paClass pa = s1.paClass pa)
    ∧ (∃ (s s1 : State) (c : Cx) (x : FmtA), x.len = .l4 ∧ x.rc = 0 ∧ x.mod = 0 ∧ c.len = 4 ∧ Begins s c x.pred s1 ∧
      let pa := ((s1.bank c.slot).getG x.ra).toNat / 4096 % 2 ^ 34 * 4096
      let s2 := s1.demandRead (s1.keyLine pa) 0
      let t := (s2.drainAll c.e).awaitPosts c.e
      pswPRIV (s1.bank c.slot).psw = true ∧ pswKEY (s1.bank c.slot).psw = 0 ∧ ((s1.bank c.slot).getG x.rb).toNat / 256 ≤ 2 ∧ s1.paClass pa = .dram
      ∧ s2.keyUnreadable pa = false ∧ s2.erasing pa = false ∧ t.paClass pa = .dram ∧ ((t.writeKeyLine c.e (t.keyLine pa)).eng c.e).postCheck = none)
    ∧ ∃ (s s1 s2 : State) (c : Cx) (x : FmtA) (w : Nat × Leaf), x.len = .l4 ∧ x.rc = 0 ∧ x.mod = 0 ∧ c.len = 4 ∧ Begins s c x.pred s1
      ∧ ((s1.bank c.slot).getG x.rb).toNat < 2 ^ 48 ∧ (s2.eng c.e).postCheck = none
      ∧ (translate c.e c.slot .kget ((s1.bank c.slot).getG x.rb).toNat).exec s1 = (.ok w, s2) := by
  refine ⟨⟨running, 0x20000000FFFF, by decide +kernel⟩,
    ⟨at0 id, go id 4, cx 4, fa .l4 0 0 0 0 0, rfl, rfl, rfl, rfl, rfl, rfl, begins_of (by decide +kernel), by decide +kernel, by decide +kernel, none_of (by decide +kernel),
      by decide +kernel⟩, ?_, ?_, ?_⟩
  · let f := bk [(2, 0x200000000000), (3, 0x2FF)]
    exact ⟨at0 f, go f 4, cx 4, fa .l4 2 3 0 0 0, rfl, rfl, rfl, rfl, begins_of (by decide +kernel), by decide +kernel, by decide +kernel, by decide +kernel, by decide +kernel,
      by decide +kernel, by decide +kernel, none_of (by decide +kernel), by decide +kernel⟩
  · let f := bk [(2, 0x7FEFFFFFF), (3, 0x2FF)]
    exact ⟨at0 f, go f 4, cx 4, fa .l4 2 3 0 0 0, rfl, rfl, rfl, rfl, begins_of (by decide +kernel), by decide +kernel, by decide +kernel, by decide +kernel, by decide +kernel,
      by decide +kernel, by decide +kernel, by decide +kernel, none_of (by decide +kernel)⟩
  · let f := bk [(3, base)]
    obtain ⟨w, t, h, h', _⟩ := answers_of (m := translate 0 (cx 4).slot .kget (((go f 4).bank (cx 4).slot).getG 3).toNat) (s := go f 4) (by decide +kernel)
    exact ⟨at0 f, go f 4, t, cx 4, fa .l4 2 3 0 0 0, w, rfl, rfl, rfl, rfl, begins_of (by decide +kernel), by decide +kernel, h', h⟩

theorem witness_CryptoInstructions :
    (∃ (s s1 : State) (c : Cx) (x : FmtXA), c.len = x.len.bytes ∧ Begins s c x.pred s1 ∧ x.len = .l4 ∧ bit x.mod 1 = false)
    ∧ (∃ (s s1 : State) (c : Cx) (x : FmtXA), c.len = x.len.bytes ∧ Begins s c x.pred s1 ∧ x.len = .l6 ∧ x.mod2.toNat = 10 ∧ x.mod = 0 ∧ x.rc = 0)
    ∧ (∃ (s s1 : State) (c : Cx) (x : FmtXA), c.len = x.len.bytes ∧ Begins s c x.pred s1 ∧ x.len = .l6 ∧ x.mod2.toNat = 7 ∧ x.mod = 1)
    ∧ (∃ (s s1 : State) (c : Cx) (x : FmtXA), c.len = x.len.bytes ∧ Begins s c x.pred s1 ∧ x.len = .l6 ∧ x.mod2 = 0 ∧ x.mod = 0)
    ∧ (∀ k : Fin 2, ∃ (s s1 s2 : State) (c : Cx) (x : FmtXB) (l : List Byte), c.len = x.len.bytes ∧ x.len = .l8 ∧ Begins s c x.pred s1 ∧ (s2.eng c.e).postCheck = none
      ∧ x.mod = 0 ∧ x.mod2.toNat = k.val ∧ (load c (addressOf x.bs 0 x.disp x.len (s1.bank c.slot)) (if k = 0 then 176 else 240) (.aligned 16)
        (.block 0x80 x.ra (2 * k.val))).exec s1 = (.ok (some l), s2))
    ∧ ∀ p ∈ [(16, 16, 0x81, 0), (64, 16, 0x82, 0), (128, 16, 0x82, 1), (24, 8, 0x83, 0)], ∃ (s s1 s2 : State) (c : Cx) (x : FmtXB) (l : List Byte), c.len = x.len.bytes
      ∧ x.len = .l12 ∧ Begins s c x.pred s1 ∧ (s2.eng c.e).postCheck = none ∧ x.mod.toNat = p.2.2.2 ∧ x.mod2 = 0 ∧ bit x.ra 0 = false ∧ field x.ra 0 2 = (0 : BitVec 2)
      ∧ (load c (addressOf x.bs 0 x.disp x.len (s1.bank c.slot)) p.1 (.aligned p.2.1) (.block p.2.2.1 x.ra p.2.2.2)).exec s1 = (.ok (some l), s2) := by
  refine ⟨⟨at0 id, go id 4, cx 4, fxa .l4 1 2 0 1 0, rfl, begins_of (by decide +kernel), rfl, by decide⟩,
    ⟨at0 id, go id 6, cx 6, fxa .l6 1 2 0 0 10, rfl, begins_of (by decide +kernel), rfl, rfl, rfl, rfl⟩,
    ⟨at0 id, go id 6, cx 6, fxa .l6 1 2 3 1 7, rfl, begins_of (by decide +kernel), rfl, rfl, rfl⟩,
    ⟨at0 id, go id 6, cx 6, fxa .l6 1 2 3 0 0, rfl, begins_of (by decide +kernel), rfl, rfl, rfl⟩, ?_, ?_⟩
  · have h (k : Fin 2) : ends (load (cx 8) (addressOf 2 0 0 .l8 ((go (bk [(2, base)]) 8).bank (cx 8).slot)) (if k = 0 then 176 else 240) (.aligned 16)
        (.block 0x80 4 (2 * k.val))) (go (bk [(2, base)]) 8) (fun a t => a.isSome && noCheck t) = true := by revert k; decide +kernel
    intro k
    obtain ⟨l, t, h, h'⟩ := some_of (h k)
    exact ⟨at0 (bk [(2, base)]), _, t, cx 8, fxb .l8 4 2 0 0 (BitVec.ofNat 32 k.val), l, rfl, rfl, begins_of (pred := 0) (by decide +kernel), none_of h', rfl,
      show (BitVec.ofNat 32 k.val).toNat = k.val by clear h; revert k; decide, h⟩
  · have h : ∀ p ∈ [(16, 16, 0x81, 0), (64, 16, 0x82, 0), (128, 16, 0x82, 1), (24, 8, 0x83, 0)],
        ends (load (cx 12) (addressOf 2 0 0 .l12 ((go (bk [(2, base)]) 12).bank (cx 12).slot)) p.1 (.aligned p.2.1) (.block p.2.2.1 4 p.2.2.2))
          (go (bk [(2, base)]) 12) (fun a t => a.isSome && noCheck t) = true ∧ (BitVec.ofNat 2 p.2.2.2).toNat = p.2.2.2 := by decide +kernel
    intro p hp
    obtain ⟨l, t, h1, h'⟩ := some_of (h p hp).1
    exact ⟨at0 (bk [(2, base)]), _, t, cx 12, fxb .l12 4 2 (BitVec.ofNat 2 p.2.2.2) 0 0, l, rfl, rfl, begins_of (pred := 0) (by decide +kernel), none_of h', (h p hp).2, rfl,
      show bit (4 : BitVec 4) 0 = false by decide, show field (4 : BitVec 4) 0 2 = (0 : BitVec 2) by decide, h1⟩

/-- A customer routine at address 0x3000. -/
def run0 : MicroRun := { (default : MicroRun) with pc := 0x3000, shadow := { (default : Bank) with psw := mkPsw 0x210000000000 0 0 true false false false 0 } }

/-- Engine 0 at a micro-word of a SEQ, with a nano-word, frames on its stack, and words made since the last commit point. -/
def microAt (seq : Nat) (nano : BitVec 256) (frames count : Nat) (w : Wait) : State :=
  let cs : CStore := { (default : CStore) with entries := List.replicate 64 0xB000#32, micro := [BitVec.ofNat 32 (0x380 * 2 ^ 22 + seq * 2 ^ 15)], nano := [nano] }
  (at0 id).modEng 0 fun x => { x with micro := some { run0 with stack := List.replicate frames { ret := 0x3002, saved := [] }, count := count }, wait := w, csGen := 1, cs := cs }

/-- A nano-word whose slot 0 moves an immediate into T0. -/
def moves : BitVec 256 := 118842409055961798620550857536

/-- A word of engine 0 that may be made, and whose moves are allowed. -/
def wordOk (s : State) (seq : Nat) (p : MicroRun → Bool) : Bool :=
  match s.nextWord 0 with
  | some (c, r, w, nano) => c.e == 0 && c.n == 0 && (field w 15 4 : BitVec 4).toNat == seq && !(s.eng 0).cs.parity.contains r.pc.toNat
      && !(s.eng 0).cs.parity.contains (0x10000 + (field w 22 10 : BitVec 10).toNat) && p r && ends (runMoves c r nano (r.startsAt nano)) s fun _ t => noCheck t && (t.eng 0).wait == .none
  | none => false

theorem word_of {s : State} {seq : Nat} {p : MicroRun → Bool} (h : wordOk s seq p = true) :
    ∃ (s1 : State) (c : Cx) (r r1 : MicroRun) (w : BitVec 32) (nano : BitVec 256), AtWord s c r w nano ∧ c.e = 0
      ∧ (runMoves c r nano (r.startsAt nano)).exec s = (.ok r1, s1) ∧ (s1.eng c.e).postCheck = none ∧ (s1.eng c.e).wait = .none ∧ (field w 15 4 : BitVec 4).toNat = seq ∧ p r = true := by
  unfold wordOk at h
  split at h
  · next c r w nano hw =>
    simp only [Bool.and_eq_true, beq_iff_eq, Bool.not_eq_true', List.contains_eq_mem, decide_eq_false_iff_not] at h
    obtain ⟨⟨⟨⟨⟨⟨h1, h2⟩, h3⟩, h4⟩, h5⟩, h6⟩, h7⟩ := h
    obtain ⟨r1, t, ht, ht'⟩ := ends_of h7
    simp only [noCheck, Bool.and_eq_true, beq_iff_eq, Option.isNone_iff_eq_none] at ht'
    obtain ⟨e, n, len⟩ := c
    cases (show e = 0 from h1)
    cases (show n = 0 from h2)
    have hc : s.nextWord 0 = some (⟨0, 0, len⟩, r, w, nano) := hw
    exact ⟨t, ⟨0, 0, len⟩, r, r1, w, nano, ⟨hc, h4, h5⟩, rfl, ht, ht'.1, ht'.2, h3, h6⟩
  · cases h

/-- Each SEQ from 0 to 8, with room for a frame and with a frame to return from. -/
theorem witness_MicroWords : ∀ seq : Fin 9, ∃ (s s1 : State) (c : Cx) (r r1 : MicroRun) (w : BitVec 32) (nano : BitVec 256), AtWord s c r w nano ∧ c.e = 0
    ∧ (runMoves c r nano (r.startsAt nano)).exec s = (.ok r1, s1) ∧ (s1.eng c.e).postCheck = none ∧ (s1.eng c.e).wait = .none ∧ (field w 15 4 : BitVec 4).toNat = seq.val
    ∧ (r.stack.length == 3) = true := by
  have h : ∀ seq : Fin 9, wordOk (microAt seq.val moves 3 0 .none) seq.val (fun r => r.stack.length == 3) = true := by decide +kernel
  exact fun seq => ⟨_, word_of (h seq)⟩

theorem witness_MicroSequence :
    (∃ (s : State) (c : Cx) (r : MicroRun) (nano : BitVec 256), liveMoves r nano ≠ [] ∧ ∀ m ∈ liveMoves r nano, (m.imm = true ∨ badPort r.x m.src.toNat = false)
      ∧ badPort r.x m.dst = false ∧ triggerOf m.dst = none ∧ (m.dst = 0x139 → fpcOk (field (movedValue r (s.eng c.e).t (s.bank c.slot) m) 0 32) = true))
    ∧ (∃ (r : MicroRun) (nano : BitVec 256), (field nano 216 2 : BitVec 2) = 0 ∧ r.delay = true)
    ∧ (∃ (r : MicroRun) (a : BitVec 14) (nano : BitVec 256), (field nano 216 2 : BitVec 2) = 0 ∧ r.delay = false
      ∧ ∀ n ∈ r.order, ¬ (r.loops[n].active = true ∧ r.loops[n].stop = a))
    ∧ (∀ k : Fin 3, ∃ (r : MicroRun) (a : BitVec 14) (nano : BitVec 256) (n : Fin 3) (l : List (Fin 3)), (field nano 216 2 : BitVec 2) = 0 ∧ r.delay = false ∧ r.order = n :: l
      ∧ (r.loops[n].active = true ∧ r.loops[n].stop = a) ∧ (∀ m ∈ l, m ≠ n ∧ ¬ (r.loops[m].active = true ∧ r.loops[m].stop = a))
      ∧ (k = 0 → r.loops[n].dbr = true ∧ r.loops[n].count ≠ 1) ∧ (k = 1 → r.loops[n].dbr = false ∧ 1 < r.loops[n].count.toNat) ∧ (k = 2 → r.loops[n].count = 1))
    ∧ ∃ (r : MicroRun) (a : BitVec 14) (nano : BitVec 256) (lit : BitVec 15) (n : Fin 3), (field nano 216 2 : BitVec 2).toNat = n.val + 1 ∧ r.delay = false
      ∧ (∀ m ∈ r.order, m ≠ n → ¬ (r.loops[m].active = true ∧ r.loops[m].stop = a)) ∧ (field lit 0 14 : BitVec 14) ≠ a := by
  let one (dbr : Bool) (count : BitVec 16) : MicroRun :=
    { run0 with order := [0, 1], loops := run0.loops.set 0 { start := 0x3000, stop := 0x3005, count := count, active := true, dbr := dbr } }
  refine ⟨⟨at0 id, cx 4, run0, moves, by decide +kernel, by decide +kernel⟩, ⟨{ run0 with delay := true }, 0, by decide, rfl⟩, ⟨run0, 0x3005, 0, by decide, rfl, by decide⟩,
    fun k => ?_, ⟨run0, 0x3000, BitVec.ofNat 256 (3 * 2 ^ 216), 0x3005, 2, by decide, rfl, by decide, by decide⟩⟩
  match k with
  | 0 => exact ⟨one true 0, 0x3005, 0, 0, [1], by decide, rfl, rfl, by decide, by decide, by decide, by decide, by decide⟩
  | 1 => exact ⟨one false 2, 0x3005, 0, 0, [1], by decide, rfl, rfl, by decide, by decide, by decide, by decide, by decide⟩
  | 2 => exact ⟨one false 1, 0x3005, 0, 0, [1], by decide, rfl, rfl, by decide, by decide, by decide, by decide, by decide⟩

theorem witness_MicroEnds :
    (∀ seq ∈ [4, 5, 9, 10], ∃ (s s1 : State) (c : Cx) (r r1 : MicroRun) (w : BitVec 32) (nano : BitVec 256), AtWord s c r w nano ∧ c.e = 0
      ∧ (runMoves c r nano (r.startsAt nano)).exec s = (.ok r1, s1) ∧ (s1.eng c.e).postCheck = none ∧ (s1.eng c.e).wait = .none ∧ (field w 15 4 : BitVec 4).toNat = seq
      ∧ (r.stack.length == if seq = 4 then 4 else 0) = true)
    ∧ (∃ (s : State) (c : Cx) (r : MicroRun), (s.eng c.e).micro = some r ∧ s.running c.e = some c.n ∧ c.len = r.x.len.bytes ∧ (s.eng c.e).checkstop = false
      ∧ s.clusterRuns c.e = true ∧ (s.eng c.e).postCheck = none ∧ (s.eng c.e).wait = .none ∧ r.count = 4096)
    ∧ ∀ w ∈ [Wait.waittb 0, .waitev], ∃ (s : State) (c : Cx) (r : MicroRun) (word : BitVec 32) (nano : BitVec 256), (s.eng c.e).micro = some r ∧ s.running c.e = some c.n
      ∧ c.len = r.x.len.bytes ∧ (s.eng c.e).checkstop = false ∧ s.clusterRuns c.e = true ∧ (s.eng c.e).postCheck = none
      ∧ (s.modEng c.e fun x => { x with wait := .none }).nextWord c.e = some (c, r.wordStarts, word, nano) ∧ (s.eng c.e).wait = w ∧ (0 : Word).toNat ≤ s.pcm.chrono.toNat
      ∧ (s.slot c.slot).wake = true := by
  refine ⟨?_, ?_, ?_⟩
  · have h : ∀ seq ∈ [4, 5, 9, 10], wordOk (microAt seq moves (if seq = 4 then 4 else 0) 0 .none) seq (fun r => r.stack.length == if seq = 4 then 4 else 0) = true := by
      decide +kernel
    exact fun seq hs => ⟨_, word_of (h seq hs)⟩
  · exact ⟨microAt 0 0 0 4096 .none, cx 4, { run0 with stack := [], count := 4096 }, by decide +kernel, by decide +kernel, rfl, by decide +kernel, by decide +kernel,
      none_of (by decide +kernel), by decide +kernel, rfl⟩
  · intro w hw
    have h : ∀ w ∈ [Wait.waittb 0, .waitev], let s := (microAt 7 0 0 0 w).modSlot 0 fun y => { y with wake := true }
        (s.eng 0).micro = some run0 ∧ s.running 0 = some 0 ∧ (s.eng 0).checkstop = false ∧ s.clusterRuns 0 = true ∧ (s.eng 0).postCheck = none
        ∧ (s.modEng 0 fun x => { x with wait := .none }).nextWord 0 = some (cx 4, run0.wordStarts, BitVec.ofNat 32 (0x380 * 2 ^ 22 + 7 * 2 ^ 15), 0) ∧ (s.eng 0).wait = w
        ∧ (0 : Word).toNat ≤ s.pcm.chrono.toNat ∧ (s.slot 0).wake = true := by decide +kernel
    obtain ⟨h1, h2, h3, h4, h5, h6, h7, h8, h9⟩ := h w hw
    exact ⟨_, cx 4, run0, _, _, h1, h2, rfl, h3, h4, h5, h6, h7, h8, h9⟩

/-- MCALL 63 begun, and resumed from its commit record. -/
theorem witness_MicroCalls :
    (∃ (s s1 : State) (c : Cx) (x : FmtA), x.len = .l4 ∧ c.len = x.len.bytes ∧ Begins s c x.pred s1 ∧ pswIPR (s1.bank c.slot).psw = false ∧ x.mod = 63
      ∧ bit (s1.mcallEntry c.e x.mod) 15 = true)
    ∧ ∃ (s s1 : State) (c : Cx) (x : FmtA), x.len = .l4 ∧ c.len = x.len.bytes ∧ Resumes s c s1 ∧ pswIPR (s1.bank c.slot).psw = true ∧ bit (s1.mcallEntry c.e x.mod) 15 = true
      ∧ (s1.bank c.slot).commit.valid = true ∧ (s1.bank c.slot).commit.n = x.mod ∧ (s1.bank c.slot).commit.gen = (s1.eng c.e).csGen := by
  let cs : CStore := { (default : CStore) with entries := List.replicate 64 0xB000#32 }
  let s : State := (at0 id).modEng 0 fun x => { x with cs := cs }
  let f : Bank → Bank := fun b => { b with psw := withIP b.psw true 5, commit := { b.commit with valid := true, n := 63, resume := 0x3001 } }
  let t : State := (at0 f).modEng 0 fun x => { x with cs := cs }
  have h : (t.ready 0 == some 0 && pswIPR (t.bank 0).psw && (fetch 0 0 (pswIA (t.bank 0).psw) 4 (t.noted (cx 4))).1.isOk) = true := by decide +kernel
  rw [Bool.and_eq_true, Bool.and_eq_true, beq_iff_eq] at h
  exact ⟨⟨s, fetched s (cx 4), cx 4, fa .l4 1 2 3 63 0, rfl, rfl, begins_of (by decide +kernel), by decide +kernel, rfl, by decide +kernel⟩,
    t, ((fetched t (cx 4)).tick 0 25 1).cycles 0 (pswFTM (t.bank 0).psw) 3, cx 4, fa .l4 1 2 3 63 0, rfl, rfl, ⟨h.1.1, h.1.2, _, ok_pair h.2, rfl⟩, by decide +kernel,
    by decide +kernel, by decide +kernel, by decide +kernel, by decide +kernel⟩

/-- The running part with queue 0 configured, its device ring in the local store. -/
def queued (cfg idx : Word) (f : Queue → Queue) : State := running.modQueue 0 fun _ => f { Queue.reset with cfg := cfg, idx := idx, dbase := 0x210000001000 }

/-- An EQ of 4 slots with an entry in it: no entry, all 3 free slots, and one too many; a CQ for the host; a queue of an absent domain. -/
theorem witness_QueueControl :
    let eq := queued 0x21 1 id
    let cq := queued 0x25 0x10001 id
    (∀ p ∈ [(1, 0), (4, 3), (5, 4)], let q := eq.queue 0;
      (eq.dom 0).state = .active ∧ (q.kind, true, true) ∈ ringers ∧ q.en = true ∧ field (BitVec.ofNat 32 p.1 : BitVec 32) 16 16 = (0 : BitVec 16)
        ∧ (p.1 + 65536 - q.pi) % 65536 = p.2 ∧ q.free = 3)
    ∧ (let q := cq.queue 0;
      (cq.dom 0).state = .active ∧ (q.kind, false, false) ∈ ringers ∧ q.en = true ∧ q.avail = 1 ∧ (1 + 65536 - q.ci) % 65536 = 1)
    ∧ (eq.dom 255).state ≠ .active ∧ (0, true, false) ∉ ringers
    ∧ (let off := queued 0 0 id;
      (off.queue 0).en = false ∧ eq.enableOk 0 (eq.queue 0) = false
      ∧ off.enableOk 0 { off.queue 0 with cfg := 0x40 } = true) := by decide +kernel

/-- A load of 8 bytes, and of the 8 after them where `left` says so, that waits for the host. -/
def loading (issued : Bool) (left : Nat) (d : LoadDest) : HostLoad :=
  { bus := 0xFF8, size := 8, issued := issued, got := [], left := left, start := 0, fn := 0, dest := d, ilen := 8, va := 0x380000000FF8, since := 0 }

theorem witness_HostLoads :
    (∀ h ∈ [loading false 0 .lsu, loading true 0 (.g 1 8 false), loading true 8 (.f 1 16), loading true 0 .lsu],
      ((waiting (.host h) false).eng 0).wait = .host h ∧ (waiting (.host h) false).running 0 = some 0)
    ∧ (waiting (.host (loading true 0 .lsu)) false).requestOverdue 0 = false
    ∧ ({ waiting (.host (loading true 0 .lsu)) false with pcm := { running.pcm with chrono := 0x10000000 } }).requestOverdue 0 = true
    ∧ ((at0 id).eng 0).postCheck = none := by decide +kernel

/-- An SQ with a read of 2 entries issued, of which 8 bytes have come, its ring in memory or in no memory; a CQ with an entry for the host. -/
theorem witness_QueueCopies :
    let r : SqRead := { index := 0, count := 2, done := 0, part := List.replicate 8 0, since := 0 }
    let sq := queued 0x43 2 fun q => { q with reads := [r] }
    let lost := queued 0x43 2 fun q => { q with reads := [r], dbase := 0x220000000000 }
    let cq := (queued 0x45 1 id).modFn 0 fun f => { f with busMaster := true }
    let come : List Byte := r.part ++ List.replicate 12 0
    (sq.queue 0).reads[0]? = some r ∧ r.done < r.count ∧ (List.replicate 12 (0 : Byte)).length ≤ (r.count - r.done) * (sq.queue 0).esize - r.part.length
    ∧ come.length / (sq.queue 0).esize = 1
    ∧ (sq.landEntries 0 (sq.queue 0) 1 come 0).1 = none ∧ (lost.landEntries 0 (lost.queue 0) 1 come 0).1.isSome = true
    ∧ (landedRun (modifyNth (fun y => { y with done := y.done + 1, part := come.drop 16 }) 0 (sq.queue 0).reads)).1 = 1
    ∧ sq.moveFault 0 (sq.queue 0).base 16 .write = none ∧ (lost.moveFault 0 (lost.queue 0).base 16 .write).isSome = true
    ∧ (cq.queue 0).kind = 2 ∧ (cq.queue 0).due = 1 ∧ cq.mayMove 0 = true ∧ cq.mayIssue 0 = true ∧ (cq.burstEntries 0 (cq.queue 0) 1 0).1 ≠ []
    ∧ (sq.queue 0).kind ≠ 2 ∧ (cq.queue 0).reads[0]? = none := by decide +kernel

/-- Function 0 with an MSI-X message that may leave, and a function of each domain state. -/
theorem witness_HostCommands :
    (let s := running.modFn 0 fun f => { f with busMaster := true, msixEn := true, pba := 0x80, msix := f.msix.set 7 0 };
      bit (s.fn 0).pba 7 = true ∧ s.mayIssue 0 = true ∧ (s.fn 0).msixEn = true ∧ (s.fn 0).msixMask = false ∧ bit (s.fn 0).msix[7] 96 = false)
    ∧ (∀ st ∈ [DomState.absent, .active, .quiescing, .quiesced, .destroying], let s := running.modDom 255 fun y => { y with state := st };
      s.power.part ≠ .boot ∧ s.power.part ≠ .dormant ∧ (s.dom 255).state = st ∧ (255 : BitVec 8) ≠ 0 ∧ twf Queue.reset s.queues = true)
    ∧ (running.power.fatal = false ∧ running.power.part ≠ .boot ∧ running.power.part ≠ .dormant ∧ running.power.tripped = false ∧ running.power.resetting = false
      ∧ bit (1 : Word) 0 = true)
    ∧ State.reset.power.part = .boot := by decide +kernel

/-- Ring 0 of the running part inserted, as its holder with address 0. -/
def ringed (f : Ring → Ring) : State := running.modRing 0 fun x => f { x with state := .inserted, holder := true, asHolder := true }

/-- A beacon of address 63. -/
def beacon63 : Beacon := { cycle := 5, loop := 100, sdly := 0, tsel := false, wrp := false, handoff := false, swp := false, hold := true, ver := 2, swcyc := 0 }

theorem witness_RingLine :
    (let x : Ring := { (default : Ring) with seenP := some (10, beacon63), seenQ := some (110, beacon63) };
      x.seenP = some (10, beacon63) ∧ x.seenQ = some (110, beacon63) ∧ beacon63.loop ≠ 0 ∧ (110 : BitVec 15).toNat ≤ beacon63.loop.toNat + (10 : BitVec 15).toNat
        ∧ (10 : BitVec 15).toNat ≤ beacon63.loop.toNat + (110 : BitVec 15).toNat)
    ∧ (let s := ringed id;
      (s.ring 0).state = .inserted ∧ s.power.fatal = false ∧ (s.ring 0).holder = true ∧ (s.ring 0).addr63 = false ∧ beacon63.hold ≠ (s.ring 0).addr63
      ∧ ({ beacon63 with hold := false }).hold = (s.ring 0).addr63)
    ∧ (let s := ringed fun x => { x with holder := false, cycle := 5, sync := true };
      (s.ring 0).holder = false ∧ (s.ring 0).sync = true ∧ (s.ring 0).cycle = beacon63.cycle ∧ beacon63.hold ≠ (s.ring 0).addr63
      ∧ ({ beacon63 with hold := false }).hold = (s.ring 0).addr63)
    ∧ (let s := ringed fun x => { x with addr63 := true };
      (s.ring 0).holder = true ∧ (s.ring 0).addr63 = true ∧ ({ beacon63 with hold := false }).hold ≠ (s.ring 0).addr63)
    ∧ (let s := ringed fun x => { x with failE := some .signal, wrapW := true, swcyc := some 1 };
      (s.ring 0).failed .east ≠ none ∧ (s.ring 0).sideWrapped .east = false ∧ (s.ring 0).failed .west = none ∧ (s.ring 0).sideWrapped .west = true
      ∧ (s.ring 0).failed .west ≠ some .wrp ∧ (s.ring 0).state ≠ .off ∧ (s.ring 0).swcyc = some ((s.ring 0).cycle + 1))
    ∧ (let s := ringed id;
      let t := s.receive 0 .west (encodeChars (((s.ring 0).port .west).rxRd) (OrderedSet.bcnA.chars ++ (beaconBytes { beacon63 with hold := false }).map .d)).1
      t.2.first = some .bcnA ∧ (readBeacon t.2.bytes == some { beacon63 with hold := false }) = true)
    ∧ (let s := ringed id;
      let t := s.receive 0 .west (encodeChars (((s.ring 0).port .west).rxRd) (OrderedSet.bcnB.chars ++ (List.replicate 20 1).map .d)).1
      t.2.first = some .bcnB ∧ readBeacon t.2.bytes = none)
    ∧ (running.ring 0).state = .off := by decide +kernel

/-- A ring whose only slot is for the holder's frames to station 1, with a frame to it not acknowledged. -/
def trafficked (f : Ring → Ring) : State :=
  let slot : SlotEntry := { start := 100, len := 1000, owner := 0x40, dirB := false, anyClass := true, cls := 0, peer := 1 }
  let plan : RingPlan := { msofs := 0, slots := [slot], retry := 1, tmo := [], stations := List.replicate 64 { cmask := 0xFFFF, expected := true } }
  let frame : OutFrame := { seq := 0, cls := 1, typ := 1, xid := 0, payload := [], sent := 1, sof := 0, due := false, rsyn := false, oq := 3, oqIndex := 0 }
  ringed fun x => f ({ x with table0 := some plan, qmap0 := [{ station := 1, cls := 1, inn := false, out := true, iq := 0, oq := 3 }], minislots := [0] }.modStation 1 fun y =>
    { y with st := 2, out := [frame], loads := [{ tnum := true, tries := 0, ofs := 0, ended := true }] })

/-- A frame of a station: an acknowledgement alone, or a request of class 1. -/
def frameOf (src cls typ flags : Nat) : List Byte :=
  let l := natLE 1 0 ++ natLE 1 src ++ natLE 1 cls ++ natLE 1 (typ + flags) ++ List.replicate 8 0
  l ++ natLE 4 (crc32c l).toNat

theorem witness_RingTraffic :
    (∀ v ∈ [(0, 0, SeqVerdict.accept), (5, 0, .duplicate), (0, 5, .ahead)], ∃ y : Station, SequenceRule y v.2.1 false v.2.2 ∧ y.rxexp = v.1)
    ∧ (∃ y : Station, SequenceRule y 0 false .discard)
    ∧ (let s := trafficked id;
      let x := s.ring 0
      (x.state = .inserted ∧ s.power.fatal = false ∧ x.holder = true ∧ x.table.isSome = true ∧ x.minislots ≠ [] ∧ (List.replicate 68 (0 : Byte)).length = 68
        ∧ (x.station 1).st = 2 ∧ ((x.station 1).loads.find? fun l => l.ended).isSome = true ∧ ((x.station 1).out.find? fun f => !f.due).isSome = true)
      ∧ ((x.table.bind fun p => p.slots[0]?).any fun e => e.owner == 0x40) = true)
    ∧ (let s := (trafficked id).modQueue 3 fun q => { q with oq := [{ index := 0, since := 0, st := .flying }, { index := 1, since := 0, st := .waiting }] };
      s.oqPair 3 = some (0, 1, 1) ∧ ((s.queue 3).oq.any fun y => y.index == 0 && y.st != .ended) = true ∧ ((s.queue 3).oq.any fun y => y.index == 1 && y.st != .ended) = true
      ∧ (((s.ring 0).station 1).out.find? (fun f => f.oq == 3 && f.oqIndex == 0)).isSome = true
      ∧ ((s.ring 0).station 1).out.find? (fun f => f.oq == 3 && f.oqIndex == 1) = none)
    ∧ (let s := running.modPair 1 1 fun y => { y with openOut := some (7, true, 0) };
      (s.pair (1 : BitVec 8).toNat (1 : BitVec 4).toNat).openOut = some (7, true, 0))
    ∧ (∀ q ∈ [(2, 1, 1, 0), (1, 0, 0, 32), (1, 1, 1, 0)], let l := frameOf q.1 q.2.1 q.2.2.1 q.2.2.2;
      let h := readHeader l
      16 ≤ l.length ∧ h.len + 16 = l.length ∧ h.len ≤ 512 ∧ crc32c (l.take (12 + h.len)) = BitVec.ofNat 32 (fieldLE l (12 + h.len) 4)
        ∧ ((trafficked id).ring 0).headerFault h = none ∧ (h.src = 2 → (((trafficked id).ring 0).station h.src).st ≠ 2)
        ∧ (h.src = 1 → (((trafficked id).ring 0).station h.src).st = 2) ∧ ((lget 0 l 0).toNat % 64 = 0)) := by
  refine ⟨?_, ⟨{ (default : Station) with rxuns := true }, by unfold SequenceRule; decide⟩, by decide +kernel, by decide +kernel, by decide +kernel, by decide +kernel⟩
  intro v hv
  have h : ∀ v ∈ [(0, 0, SeqVerdict.accept), (5, 0, .duplicate), (0, 5, .ahead)], ∀ y : Station, y = { (default : Station) with rxexp := v.1 } →
      v.2.2 = (if y.rxuns = true ∧ false = false then SeqVerdict.discard else if y.rxuns = true ∨ v.2.1 = y.rxexp then .accept
        else if (y.rxexp - v.2.1).toNat ≤ 2048 then .duplicate else if false = true then .accept else .ahead) := by
    intro v hv y hy
    subst hy
    revert v; decide
  exact ⟨{ (default : Station) with rxexp := v.1 }, h v hv _ rfl, rfl⟩

/-- Code groups of a train for the receiver of ring 0 on a side. -/
def trainOn (s : State) (side : Side) (first : OrderedSet) (bytes : List Byte) (last : Option OrderedSet) : List (BitVec 10) :=
  (encodeChars ((s.ring 0).port side).rxRd (first.chars ++ bytes.map .d ++ (last.map OrderedSet.chars).getD [])).1

/-- What ring block 0 receives of a train on a side. -/
def gets (s : State) (side : Side) (first : OrderedSet) (bytes : List Byte) (last : Option OrderedSet) : Received :=
  (s.receive 0 side (trainOn s side first bytes last)).2

/-- Minislots with a sound header and with a bad one, at the holder and at a standby; frames for the holder, of its own, for the standby and to be
forwarded; a slot on a free transmitter, on a busy one, and on the transmitter of a wrapped side; an urgent message of each kind. -/
theorem witness_RingTraffic_line :
    (let s := trafficked id;
      let h : List Byte := [0x80, 0, 5]
      let good := gets s .west .mss (h ++ [crc8 h] ++ List.replicate 64 0) (some .mse)
      let bad := gets s .west .mss (List.replicate 68 1) (some .mse)
      good.first = some .mss ∧ good.last = some .mse ∧ good.bytes.length = 68 ∧ crc8 (good.bytes.take 3) = lget 0 good.bytes 3
        ∧ bad.first = some .mss ∧ bad.last = some .mse ∧ bad.bytes.length = 68 ∧ crc8 (bad.bytes.take 3) ≠ lget 0 bad.bytes 3)
    ∧ (let s := trafficked fun x => { x with holder := false, hold := true };
      let on := gets s .east .mss (List.replicate 68 1) (some .mse)
      let mine := gets s .west .sof (frameOf 63 1 1 0) (some .eof)
      let other := gets s .west .sof (frameOf 5 1 1 0) (some .eof)
      on.first = some .mss ∧ on.last = some .mse ∧ on.bytes.length = 68
        ∧ mine.first = some .sof ∧ (lget 0 mine.bytes 0).toNat % 64 = 0 ∧ (lget 0 mine.bytes 1).toNat % 64 = 63
        ∧ other.first = some .sof ∧ (lget 0 other.bytes 1).toNat % 64 = 5)
    ∧ (let s := trafficked id;
      let mine := gets s .west .sof (5 :: (frameOf 0 1 1 0).drop 1) (some .eof)
      let good := gets s .west .sof (frameOf 1 1 1 0) (some .eof)
      mine.first = some .sof ∧ (lget 0 mine.bytes 0).toNat % 64 = 5 ∧ (lget 0 mine.bytes 1).toNat % 64 = 0 ∧ good.first = some .sof ∧ good.last = some .eof ∧ good.bad = false ∧ (lget 0 good.bytes 0).toNat % 64 = 0)
    ∧ (let x := (trafficked id).ring 0;
      x.failed (lineOut x .a) = none ∧ x.sideWrapped (lineOut x .a) = false ∧ (x.port (lineOut x .a)).busy = 0 ∧ (x.port (lineOut x .a)).transit = [])
    ∧ (((trafficked fun x => x.modPort .east fun p => { p with busy := 8 }).ring 0).port .east).busy ≠ 0
    ∧ ((trafficked fun x => { x with failE := some .signal }).ring 0).failed .east = some .signal
    ∧ (∀ l ∈ [([0x81, 0x1, 0, 0, 0, 0, 0] : List Byte), [0x81, 0xE, 0, 0, 0, 0, 0]],
      bit (lget 0 l 0) 7 = true ∧ crc8 (l.take 7) = lget 0 (l ++ [crc8 l]) 7 ∧ (lget 0 l 0).toNat % 64 = 1)
    ∧ (∃ (t : State) (l : List Ready), (running.candidates 0 1 default) = (t, l) ∧ oldest l = none) := by
  refine ⟨by decide +kernel, by decide +kernel, by decide +kernel, by decide +kernel, by decide +kernel, by decide +kernel, by decide +kernel, _, _, rfl, by decide +kernel⟩

/-- An image of version 1 with nothing in it. -/
def emptyImage : Image := { header := List.replicate 8 0 ++ [1, 0, 0, 0] ++ List.replicate 276 0, body := [], source := 0, forced := false }

/-- The running part with fuses and a flash whose values are known. -/
def fused : State :=
  { running with nv := { flash := [], custHash := 0, enrolled := false,
                         fuses := { industrial := false, uid := 0, vendorHash := 0, development := false, anchorVcore := 750, anchorBody := [] } } }

/-- The same part in another part state, with every cluster GATED. -/
def gated (st : PState) : State :=
  { fused with power := { fused.power with part := st, clusters := Vector.replicate 4 { st := .gated, target := none } } }

/-- The same part with a vendor part and a plan in force. -/
def withImages (s : State) : State :=
  { s with keeper := { s.keeper with inForce := (s.keeper.inForce.set 1 (some emptyImage)).set 3 (some emptyImage) } }

/-- A packet with its parameters and a sound HCRC. -/
def pktOf (o : Nat) (p : List Byte) (flags : Byte := 0) : Packet :=
  { opcode := BitVec.ofNat 16 o, flags := flags, fmt := 1, tag := 7, plen := BitVec.ofNat 32 p.length,
    hcrc := packetCrc (packetHead o flags.toNat 1 7 p.length) p, data := p }

/-- The part with a packet that Keeper has accepted. -/
def submitted (s : State) (o : Nat) (p : List Byte) (flags : Byte := 0) : State :=
  { s with keeper := { s.keeper with busy := true, submitted := some (pktOf o p flags), running := none } }

/-- What `Takes` asks, as a computation. -/
def takesOk (s : State) (o : Nat) (p : List Byte) : Bool :=
  match s.accept .accepted with
  | some (s1, x) => x.fault.isNone && x.pkt.opcode.toNat == o && x.pkt.params == p && (opRow o).any fun row => row.accept.holds s1.power.part p
  | none => false

/-- The state in which Keeper has taken the packet up. -/
def taken (s : State) (o : Nat) : State :=
  match s.accept .accepted with
  | some (s1, x) => if (opRow o).any (·.long) then s1.openJournal o x.pkt.params else s1
  | none => s

theorem takes_of {s : State} {o : Nat} {p : List Byte} (h : takesOk s o p = true) : ∃ x, Takes s .accepted o p x (taken s o) := by
  unfold takesOk at h
  cases ha : s.accept .accepted with
  | none => simp [ha] at h
  | some y =>
    obtain ⟨s1, x⟩ := y
    simp only [ha, Bool.and_eq_true, Option.isNone_iff_eq_none, beq_iff_eq] at h
    obtain ⟨⟨⟨h1, h2⟩, h3⟩, h4⟩ := h
    cases hr : opRow o with
    | none => simp [hr] at h4
    | some row =>
      rw [hr, Option.any_some] at h4
      exact ⟨x, s1, row, ha, h1, h2, h3, hr, h4, by simp [taken, ha, hr, h3]⟩

/-- A command of Keeper's, and what else a clause asks of the state in which it is taken up. -/
structure Case where
  s : State
  o : Nat
  p : List Byte
  asks : State → Bool := fun _ => true
  flags : Byte := 0

/-- The case meets the hypotheses. -/
def Case.ok (c : Case) : Bool := takesOk (submitted c.s c.o c.p c.flags) c.o c.p && c.asks (taken (submitted c.s c.o c.p c.flags) c.o)

theorem cases_of {l : List Case} (h : l.all Case.ok = true) :
    ∀ c ∈ l, ∃ s x, Takes s .accepted c.o c.p x (taken s c.o) ∧ c.asks (taken s c.o) = true := by
  intro c hc
  have := List.all_eq_true.mp h c hc
  unfold Case.ok at this
  rw [Bool.and_eq_true] at this
  obtain ⟨x, hx⟩ := takes_of this.1
  exact ⟨_, x, hx, this.2⟩

/-- A command in progress. -/
def runs (o : Nat) (p : List Byte) (status : BitVec 16) (s : State) : State :=
  { s with keeper := { s.keeper with busy := true, running := some { pkt := pktOf o p, smbus := false, status := status, reply := [0], announced := true, opened := true } } }

/-- The commands whose completion does more, each in a state in which it is done; a failed one; and an idle SMBus. -/
theorem witness_KeeperPort :
    (running.accept .accepted).isNone = true
    ∧ takesOk (submitted running 0x0001 []) 0x0001 [] = true
    ∧ ((submitted running 0x0001 [0]).accept .accepted).any (fun y => y.2.fault == some 0x11) = true
    ∧ running.power.part ≠ .dormant ∧ running.keeper.running = none
    ∧ (∀ s ∈ [runs 0x0101 [1] 0 running, runs 0x0203 [1, 0] 0 running, runs 0x0204 [] 0 running, runs 0x0602 [0] 0 running, runs 0x0401 [] 0 running,
        runs 0x0403 [] 0 running, runs 0x0503 [0] 0 running, runs 0x0505 [] 0 running, runs 0x0802 [] 0 running, runs 0x0701 [] 0 running,
        runs 0x0302 [1] 0 (running.modDom 1 fun y => { y with state := .destroying }), runs 0x0001 [] 0x13 running],
      (s.keeper.running.any fun r => s.commandDone r) = true ∧ s.keeperServes = true ∧ s.switching = none)
    ∧ (let s := runs 0x0303 [1, 0] 0 (running.modDom 1 fun y => { y with state := .quiescing });
      (s.keeper.running.any fun r => s.commandDone r) = false ∧ s.switching = none)
    ∧ running.keeperServes = true ∧ running.keeper.busy = false ∧ running.keeper.smbOff = false ∧ State.reset.keeperServes = false := by decide +kernel

/-- Reports in every part state that a command needs, and their failures. -/
def reportCases : List Case :=
  [{ s := fused, o := 0x0001, p := [] }, { s := fused, o := 0x0002, p := [] }, { s := fused, o := 0x0003, p := [] },
    { s := fused, o := 0x0004, p := [0, 0, 0, 0, 0, 0, 0, 0] }, { s := fused, o := 0x0004, p := [0, 0, 0, 0, 63, 0, 0, 0], asks := fun _ => zeros [0, 0, 0, 0, 63, 0, 0, 0] 6 2 },
    { s := fused, o := 0x0402, p := [169] }, { s := fused, o := 0x0402, p := [168] }, { s := fused, o := 0x0801, p := [] }, { s := fused, o := 0x0601, p := [] },
    { s := gated .held, o := 0x0802, p := List.replicate 100 0 },
    { s := { gated .held with nv := { fused.nv with enrolled := true } }, o := 0x0802, p := List.replicate 96 0 ++ natLE 4 0x454E524C, asks := (·.nv.enrolled) },
    { s := gated .held, o := 0x0802,
      p := natBE 48 0xAA87CA22BE8B05378EB1C71EF320AD746E1D3B628BA79B9859F741E082542A385502F25DBF55296C3A545E3872760AB7
        ++ natBE 48 0x3617DE4A96262C6F5D9E98BF9292DC29F8F41DBD289A147CE9DA3113B5F0B8C00A60B1CE1D7E819D7A431D7C90EA0E5F ++ natLE 4 0x454E524C,
      asks := fun t => !t.nv.enrolled && t.nv.custHash == 0 && (keyPoint (natBE 48 0xAA87CA22BE8B05378EB1C71EF320AD746E1D3B628BA79B9859F741E082542A385502F25DBF55296C3A545E3872760AB7
        ++ natBE 48 0x3617DE4A96262C6F5D9E98BF9292DC29F8F41DBD289A147CE9DA3113B5F0B8C00A60B1CE1D7E819D7A431D7C90EA0E5F)).isSome },
    { s := fused, o := 0x0202, p := [0, 0] }, { s := fused, o := 0x0202, p := [1, 4] }, { s := fused, o := 0x0202, p := [1, 1], asks := fun t => t.imageOf 1 1 == none },
    { s := withImages fused, o := 0x0202, p := [4, 0], asks := fun t => (t.imageOf 4 0).isSome }]

theorem witness_KeeperReports : ∀ c ∈ reportCases, ∃ s x, Takes s .accepted c.o c.p x (taken s c.o) ∧ c.asks (taken s c.o) = true := cases_of (by decide +kernel)

/-- An arm of timer 0 whose target is ACTIVE. -/
def timerArm : Arm := { evclass := 1, evarg := 0, part := 0xFF, clusters := [1, 1, 1, 1] }

/-- What REPLAN finds. -/
def plan700 : PlanFound := { vcore := 700, body := List.replicate 168 0, minMargin := 5, reached := true }

/-- The part with margin plans A and B of 700 mV. -/
def planned (s : State) (f : Sextant → Sextant) : State :=
  { s with sextant := f { s.sextant with slotA := planBytes 1 700 plan700.body, slotB := planBytes 2 700 plan700.body, inForce := 2, vtarget := 750, frozen := false } }

/-- Settings that are taken, and what refuses each. -/
def settingCases : List Case :=
  let ff : List Byte := [0xFF, 0xFF, 0xFF, 0xFF]
  [{ s := fused, o := 0x0101, p := [9, 0, 0, 0] ++ ff, asks := fun t => (t.power.targetBad ([9, 0, 0, 0] ++ ff) 0 4 [1, 2, 3]).isSome && !t.power.busy },
    { s := withImages fused, o := 0x0101, p := [0xFF, 0, 0, 0, 1, 0, 2, 0xFF],
      asks := fun t => t.power.targetBad [0xFF, 0, 0, 0, 1, 0, 2, 0xFF] 0 4 [1, 2, 3] == none && t.mayRun && !t.power.busy },
    { s := fused, o := 0x0101, p := [0xFF, 0, 0, 0, 2, 2, 2, 2],
      asks := fun t => t.power.targetBad [0xFF, 0, 0, 0, 2, 2, 2, 2] 0 4 [1, 2, 3] == none && !t.mayRun && (t.power.targetClusters [2, 2, 2, 2]).any (· == .run) },
    { s := gated .held, o := 0x0101, p := [0xFF, 0, 0, 0] ++ ff, asks := fun t => t.power.targetBad ([0xFF, 0, 0, 0] ++ ff) 0 4 [1, 2, 3] == none && t.power.part == .held },
    { s := gated .watch, o := 0x0101, p := [1, 0, 0, 0] ++ ff, asks := fun t => t.power.targetBad ([1, 0, 0, 0] ++ ff) 0 4 [1, 2, 3] == none && !t.mayDorm },
    { s := { gated .watch with pcm := { fused.pcm with arms := fused.pcm.arms.set 0 (some timerArm) } }, o := 0x0101, p := [1, 0, 0, 0] ++ ff,
      asks := fun t => t.power.targetBad ([1, 0, 0, 0] ++ ff) 0 4 [1, 2, 3] == none && t.mayDorm },
    { s := fused, o := 0x0102, p := 8 :: List.replicate 15 0 }, { s := fused, o := 0x0102, p := [7, 6] ++ List.replicate 14 0 },
    { s := fused, o := 0x0102, p := [7, 1, 0, 0, 32] ++ List.replicate 11 0, asks := fun _ => !evargOk 1 32 },
    { s := fused, o := 0x0102, p := [7, 1, 0, 0, 31, 0, 0, 0, 0xFF] ++ ff ++ [0, 0, 0],
      asks := fun t => evargOk 1 31 && t.power.targetBad ([7, 1, 0, 0, 31, 0, 0, 0, 0xFF] ++ ff ++ [0, 0, 0]) 8 9 [13, 14, 15] == none },
    { s := fused, o := 0x0103, p := [8] }, { s := fused, o := 0x0103, p := [7] }, { s := fused, o := 0x0103, p := [0xFF] },
    { s := fused, o := 0x0701, p := [0, 0, 0, 0] }, { s := fused, o := 0x0701, p := natLE 4 0x52534554 },
    { s := fused, o := 0x0702, p := [32] }, { s := fused, o := 0x0702, p := [31], asks := fun t => t.engineFree 31 },
    { s := { fused.modDom 1 fun y => { y with state := .active } with owners := [(255, 1)] }, o := 0x0702, p := [31], asks := fun t => !t.engineFree 31 },
    { s := planned fused fun x => { x with frozen := true }, o := 0x0602, p := List.replicate 8 0, asks := fun t => t.sextant.frozen && findable plan700 },
    { s := planned fused id, o := 0x0602, p := [0, 0, 1, 0, 0, 0, 0, 0], asks := fun t => !t.sextant.frozen && findable plan700 },
    { s := planned fused id, o := 0x0602, p := List.replicate 8 0, asks := fun t => !t.sextant.frozen && fieldLE (planBytes 3 700 plan700.body) 8 2 != t.sextant.vtarget.toNat },
    { s := fused, o := 0x0603, p := [2] }, { s := fused, o := 0x0603, p := [0] }, { s := fused, o := 0x0603, p := [1], asks := fun t => !planValid (t.marginPlan 1) },
    { s := planned fused fun x => { x with frozen := true }, o := 0x0603, p := [1], asks := fun t => planValid (t.marginPlan 1) && t.sextant.frozen },
    { s := planned fused id, o := 0x0603, p := [1], asks := fun t => planValid (t.marginPlan 1) && !t.sextant.frozen },
    { s := gated .watch, o := 0x0703, p := [0, 1, 0, 0] }, { s := gated .watch, o := 0x0703, p := [0x88, 0, 0, 0] },
    { s := { gated .watch with power := { fused.power with part := .watch } }, o := 0x0703, p := [0x08, 0, 0, 0], asks := fun t => t.power.clusters[0].st != .gated }]

theorem witness_KeeperSettings : ∀ c ∈ settingCases, ∃ s x, Takes s .accepted c.o c.p x (taken s c.o) ∧ c.asks (taken s c.o) = true := cases_of (by decide +kernel)

/-- Domain 1 in a state, with slot 1 of engine 0. -/
def domained (st : DomState) (s : State) : State := { s.modDom 1 fun y => { y with state := st } with owners := [(1, 1)] }

theorem still_of {s : State} {d : Nat}
    (h : ((s.dom d).state == .quiescing && (s.slotsOf d).all (fun i => (s.slot i).qstop) && s.queues == [] && s.engines == []) = true) : Still s d := by
  simp only [Bool.and_eq_true, beq_iff_eq, List.all_eq_true] at h
  obtain ⟨⟨⟨h1, h2⟩, h3⟩, h4⟩ := h
  refine ⟨h1, h2, ?_, ?_⟩
  · rw [h3]
    intro q hq
    cases hq
  · rw [h4]
    intro q hq
    cases hq

theorem not_still {s : State} {d : Nat} (h : (s.dom d).state ≠ .quiescing) : ¬ Still s d := fun k => h k.1

/-- DOMAIN_CREATE of domain 1 with an error queue of 16 entries in frame 0. -/
def creation : List Byte := [1, 0, 0, 1, 0, 0, 0, 0] ++ natLE 8 0x10000 ++ natLE 8 0 ++ [4] ++ List.replicate 7 0

/-- The part in which domain 1 may be created: frame 0 is locked to it. -/
def creatable (s : State) : State :=
  let t := withImages { s with owners := [(1, 1)] }
  { t with keeper := { t.keeper with needInit := false }, mem := { t.mem with keys := [(0, { lock := 1, share := 0 })] } }

def domainCases : List Case :=
  let range : List Byte := [1, 0, 0, 0, 0, 0, 0, 0] ++ natLE 8 0x10000 ++ natLE 4 2 ++ [3, 1, 0, 0]
  let may (t : State) : Bool := (t.dom 1).state == .absent && t.verPlan != 0 && !t.keeper.needInit
  [{ s := fused, o := 0x0301, p := 0 :: creation.drop 1, asks := fun _ => (createFieldBad (0 :: creation.drop 1)).isSome },
    { s := fused, o := 0x0301, p := creation, asks := fun t => createFieldBad creation == none && t.verPlan == 0 },
    { s := { creatable fused with owners := [] }, o := 0x0301, p := creation, asks := fun t => may t && t.slotsOf 1 == [] },
    { s := { creatable fused with owners := [(2, 1)] }, o := 0x0301, p := creation, asks := fun t => may t && t.slotsOf 1 != [] && !t.faultLevelOk 1 1 },
    { s := creatable fused, o := 0x0301, p := [1, 0, 0, 1, 0, 0, 0, 0, 1] ++ creation.drop 9, asks := fun t => may t && t.slotsOf 1 != [] && t.faultLevelOk 1 1 },
    { s := creatable fused, o := 0x0301, p := creation,
      asks := fun t => may t && t.slotsOf 1 != [] && t.faultLevelOk 1 1 && (t.paClass 0x10000).isNormal && (t.paClass 0).isNormal && !t.keyUnreadable 0 && (t.keyOf 0).lock == 1 },
    { s := fused, o := 0x0303, p := [0, 0], asks := fun t => (t.dom 0).state != .quiescing }, { s := fused, o := 0x0303, p := [1, 2], asks := fun t => (t.dom 1).state != .quiescing },
    { s := fused, o := 0x0303, p := [1, 1], asks := fun t => (t.dom 1).state != .quiesced },
    { s := domained .quiesced fused, o := 0x0303, p := [1, 1], asks := fun t => (t.dom 1).state == .quiesced },
    { s := fused, o := 0x0303, p := [1, 0], asks := fun t => (t.dom 1).state == .absent },
    { s := domained .quiesced fused, o := 0x0303, p := [1, 0], asks := fun t => (t.dom 1).state == .quiesced },
    { s := domained .quiescing fused, o := 0x0303, p := [1, 0], asks := fun t => (t.dom 1).state == .quiescing },
    { s := domained .active fused, o := 0x0303, p := [1, 0], asks := fun t => (t.dom 1).state == .active },
    { s := fused, o := 0x0302, p := [0], asks := fun t => (t.dom 0).state != .quiescing }, { s := fused, o := 0x0302, p := [1], asks := fun t => (t.dom 1).state == .absent },
    { s := domained .quiesced fused, o := 0x0302, p := [1], asks := fun t => (t.dom 1).state == .quiesced },
    { s := domained .quiescing fused, o := 0x0302, p := [1], asks := fun t => (t.dom 1).state == .quiescing },
    { s := domained .active fused, o := 0x0302, p := [1], asks := fun t => (t.dom 1).state == .active },
    { s := fused, o := 0x0304, p := List.replicate 8 0 }, { s := fused, o := 0x0304, p := [1, 0, 1] ++ range.drop 3, asks := fun _ => !zeros ([1, 0, 1] ++ range.drop 3) 2 6 },
    { s := fused, o := 0x0304, p := range,
      asks := fun t => zeros range 2 6 && (readRange range 8).2 && t.rangeInMemory (readRange range 8).1 && t.lostLine (readRange range 8).1 == none && t.mem.keys == [] },
    { s := fused, o := 0x0401, p := [], asks := fun t => t.power.part != .held && t.power.clusters[0].st != .gated },
    { s := gated .held, o := 0x0401, p := [], asks := fun t => t.power.part == .held && t.initErrors == ([], []) },
    { s := fused, o := 0x0403, p := [0, 0, 0, 0] }, { s := fused, o := 0x0403, p := natLE 4 0x5A45524F, asks := fun t => (List.finRange 4).all fun r => (t.ring r).stations == [] }]

theorem witness_KeeperDomains :
    (∀ c ∈ domainCases, ∃ s x, Takes s .accepted c.o c.p x (taken s c.o) ∧ c.asks (taken s c.o) = true)
    ∧ (∃ s, Still s 1) ∧ ∃ s, ¬ Still s 1 :=
  ⟨cases_of (by decide +kernel), ⟨domained .quiescing (running.modSlot 1 fun y => { y with qstop := true }), still_of (by decide +kernel)⟩, running, not_still (by decide +kernel)⟩

/-- An image of Keeper firmware of version 1 with an empty body, signed with the key whose secret is 1. -/
def signedImage : List Byte :=
  let key := natBE 48 0xAA87CA22BE8B05378EB1C71EF320AD746E1D3B628BA79B9859F741E082542A385502F25DBF55296C3A545E3872760AB7
    ++ natBE 48 0x3617DE4A96262C6F5D9E98BF9292DC29F8F41DBD289A147CE9DA3113B5F0B8C00A60B1CE1D7E819D7A431D7C90EA0E5F
  natLE 4 0x4D495843 ++ [1, 0, 1, 0] ++ natLE 4 1 ++ List.replicate 8 0 ++ [0, 0, 255, 255, 0, 0, 255, 255, 0, 0, 255, 255] ++ List.replicate 8 0 ++ sha384 []
    ++ List.replicate 8 0 ++ key ++ natBE 48 0x77a41d4606ffa1464793c7e5fdc7d98cb9d3910202dcd06bea4f240d3566da6b408bbae5026580d02d7e5c70500c831
    ++ natBE 48 0x5f1b7905cd87dbcbae394b43162675e2909609f47f7c8c0d53451f13c9b4c0843169fead695c32c176e3bc9a9dcf8ad1

/-- The fuses of a part whose vendor has that key. -/
def vendor : NonVolatile :=
  { fused.nv with fuses := { fused.nv.fuses with
      vendorHash := 0xa19d4db171b582eb8052b0cfe555e17894aa22d1c8a9770950697dd8f796d2fa4bf0a56ad80006b7ea08e1191f814b65 } }

/-- No bound on a plan. -/
def noBound : PlanBound := { installed := 0, regions := none, modes := none }

/-- The image passes the check of those fuses, and no other fuses' check. -/
theorem test_signed_image_passes : (checkImage vendor noBound [] false 1 2 signedImage).isOk = true := by decide +kernel

theorem test_signed_image_needs_its_key : (checkImage fused.nv noBound [] false 1 2 signedImage).isOk = false := by decide +kernel

/-- The part with ring 0 in a state, and a plan with one ring. -/
def withRing (st : RingState) (f : Ring → Ring) : State :=
  let rp : RingPlan := { msofs := 0, slots := [], retry := 1, tmo := [], stations := List.replicate 64 { cmask := 0, expected := false } }
  ({ fused with plan := some { (default : Plan) with rings := [(0, rp)] } }).modRing 0 fun x => f { x with state := st }

/-- The part with the held image of a kind. -/
def holding (k : Fin 4) (s : State) : State := { s with keeper := { s.keeper with heldImg := s.keeper.heldImg.set k (some emptyImage) } }

/-- Twelve zeros and a module of 3,100 MBd. -/
def module31 : List Byte := List.replicate 12 0 ++ [31]

def imageCases : List Case :=
  let load (kind source n : Nat) : List Byte := [BitVec.ofNat 8 kind, BitVec.ofNat 8 source, 0, 0] ++ natLE 4 n ++ List.replicate 8 0
  [{ s := fused, o := 0x0201, p := load 0 0 288 }, { s := fused, o := 0x0201, p := load 1 3 0 },
    { s := fused, o := 0x0201, p := load 1 0 288, flags := 2, asks := fun t => !t.nv.fuses.development },
    { s := fused, o := 0x0201, p := load 2 0 288, asks := fun t => t.power.part != .held },
    { s := { fused with nv := vendor }, o := 0x0201, p := load 1 1 0, asks := fun t => !(checkImage t.nv t.planBound (t.companions 1) false 1 0 (slotBytes t 1 1)).isOk },
    { s := { fused.modFn 0 (fun f => { f with busMaster := true }) with nv := vendor }, o := 0x0201, p := load 1 0 288,
      asks := fun t => t.mayIssue 0 && (checkImage t.nv t.planBound (t.companions 1) false 1 2 signedImage).isOk && signedImage.length == 288 },
    { s := fused, o := 0x0201, p := load 1 0 288, asks := fun t => !t.mayIssue 0 },
    { s := fused, o := 0x0203, p := [0, 0] }, { s := fused, o := 0x0203, p := [1, 2] }, { s := fused, o := 0x0203, p := [1, 1], asks := fun t => t.imageOf 1 1 == none },
    { s := { fused with nv := vendor, keeper := { fused.keeper with inForce := fused.keeper.inForce.set 0 (some { header := signedImage, body := [], source := 2, forced := false }) } },
      o := 0x0203, p := [1, 0],
      asks := fun t => t.imageOf 1 0 == some signedImage && headerBad 1 signedImage == none && signatureFault t.nv 1 signedImage == none },
    { s := fused, o := 0x0204, p := [], asks := fun t => t.keeper.heldImg[2] == none },
    { s := holding 2 (withImages fused), o := 0x0204, p := [], asks := fun t => t.keeper.heldImg[2] == some emptyImage && t.keeper.inForce[1] != none },
    { s := fused, o := 0x0501, p := [4, 0, 0] }, { s := fused, o := 0x0501, p := [3, 1, 0] }, { s := fused, o := 0x0501, p := [3, 63, 2] },
    { s := fused, o := 0x0501, p := [3, 63, 1], asks := fun t => t.plan.bind (fun q => (q.ring 3).map fun y => (y, q.qmap)) == none },
    { s := withRing .inserted id, o := 0x0501, p := [0, 63, 1], asks := fun t => (t.plan.bind (fun q => q.ring 0)).isSome && (t.ring 0).state == .inserted },
    { s := withRing .off id, o := 0x0501, p := [0, 63, 1],
      asks := fun t => (t.plan.bind (fun q => q.ring 0)).isSome && (t.ring 0).state == .off && decide (31 ≤ (lget 0 module31 12).toNat) },
    { s := fused, o := 0x0502, p := [4] }, { s := fused, o := 0x0502, p := [3] },
    { s := fused, o := 0x0503, p := [4] }, { s := fused, o := 0x0503, p := [3], asks := fun t => (t.ring 3).state != .trained },
    { s := withRing .trained id, o := 0x0503, p := [0], asks := fun t => (t.ring 0).state == .trained },
    { s := fused, o := 0x0504, p := [4] }, { s := fused, o := 0x0504, p := [3], asks := fun t => (t.ring 3).state != .inserted },
    { s := withRing .inserted fun x => { x with holder := true, sdly := 30 }, o := 0x0504, p := [0], asks := fun t => (t.ring 0).state == .inserted && (t.ring 0).holder && (t.ring 0).sdly != 0 },
    { s := withRing .inserted id, o := 0x0504, p := [0], asks := fun t => (t.ring 0).state == .inserted && !(t.ring 0).holder },
    { s := fused, o := 0x0505, p := [], asks := fun t => t.heldPlan == none },
    { s := holding 3 fused, o := 0x0505, p := [], asks := fun t => t.heldPlan.any fun y => t.ownersFree y },
    { s := holding 3 (domained .active fused), o := 0x0505, p := [], asks := fun t => t.heldPlan.any fun y => !t.ownersFree y }]

/-- The part that switches its plan while it holds ring 0. -/
def switchingPart (f : Ring → Ring) : State :=
  let s := ringed f
  { s with keeper := { s.keeper with busy := true, running := some { pkt := pktOf 0x0505 [], smbus := false, status := 0, reply := [], announced := false, opened := true } } }

theorem witness_KeeperImages :
    (∀ c ∈ imageCases, ∃ s x, Takes s .accepted c.o c.p x (taken s c.o) ∧ c.asks (taken s c.o) = true)
    ∧ (holding 2 fused).keeper.heldImg[2] = some emptyImage ∧ (holding 3 fused).keeper.heldImg[3] = some emptyImage
    ∧ fused.switching = none ∧ (switchingPart id).switching.isSome = true
    ∧ (let x := (switchingPart fun x => { x with loadFailed := true }).ring 0; x.state = .inserted ∧ x.holder = true ∧ x.loadFailed = true)
    ∧ (∀ x ∈ (switchingPart id).rings.toList, x.loadFailed = false ∧ x.standbyLoad = none ∧ x.stations = [])
    ∧ ((switchingPart fun x => { x with standbyLoad := some default }).ring 0).standbyLoad ≠ none :=
  ⟨cases_of (by decide +kernel), by decide +kernel, by decide +kernel, by decide +kernel, by decide +kernel, by decide +kernel, by decide +kernel, by decide +kernel⟩

/-- Timer 0 set and the Chronometer at 10, with arm 3 for it. -/
def timed (ctl : Word) (cmp : Word) (s : State) : State :=
  { s with pcm := { s.pcm with tmrCtl := tset 0 s.pcm.tmrCtl 0 ctl, tmrCmp := tset 0 s.pcm.tmrCmp 0 cmp, chrono := 10,
                               arms := s.pcm.arms.set 3 (some timerArm), due := 8 } }

/-- Arms that have fired and wait. -/
def fired (s : State) (l : List (Fin 8 × Arm)) : State := { s with pcm := { s.pcm with firing := l } }

/-- Cluster 0 moves to a state. -/
def moving (t : CState) (s : State) : State :=
  { s with power := { s.power with clusters := s.power.clusters.set 0 { s.power.clusters[0] with target := some t } } }

/-- Timers that fire, once and every 4 ticks, and one that does not; an arm in each part state; arms that wait behind a transition, a
power-up and a command, and that need not; targets that fit, do not fit and are barred; a power-down, a power-up and neither; a cluster
that may end its transition, and one that may not; a level of a domain that quiesces. -/
theorem witness_PowerEvents :
    (let due (ctl cmp : Word) : Bool :=
        bit (tget 0 (timed ctl cmp fused).pcm.tmrCtl 0) 0 && (tget 0 (timed ctl cmp fused).pcm.tmrCmp 0).toNat ≤ (timed ctl cmp fused).pcm.chrono.toNat;
      due 1 10 = true ∧ due 0x400000001 1 = true ∧ due 1 11 = false ∧ due 0 0 = false)
    ∧ (∀ st ∈ [PState.watch, .active, .dormant], ArmMay (timed 1 10 (gated st)) 3 timerArm ∧ (timed 1 10 (gated st)).pcm.arms[3] = some timerArm)
    ∧ ¬ ArmMay (timed 1 10 (gated .held)) 3 timerArm ∧ fused.pcm.arms[0] = none
    ∧ (ArmsWait (moving .idle fused) ∧ ArmsWait { fused with power := { fused.power with ups := [(0, .run)] } } ∧ ArmsWait (runs 0x0401 [] 0 fused))
    ∧ (let s := fired (gated .watch) [(3, timerArm)];
      s.pcm.firing = [(3, timerArm)] ∧ (∀ c : Fin 4, s.power.clusters[c].target = none) ∧ s.power.ups = [] ∧ s.keeper.running = none
      ∧ (∀ c : Fin 4, ¬ Barred s timerArm c) ∧ (∀ c : Fin 4, Barred s { timerArm with clusters := [2, 2, 2, 2] } c))
    ∧ (∀ c : Fin 4, fused.power.clusters[c].target = none ∧ (CState.gated).code < (fused.power.clusters[c]).st.code)
    ∧ fused.pcm.firing = []
    ∧ (let s := moving .idle fused;
      s.power.clusters[0].target = some .idle ∧ s.power.clusters[0].st = .run ∧ s.power.resetting = false ∧ s.power.fatal = false ∧ s.power.tripped = false
      ∧ ∀ e : Eng, e.val / 8 = 0 → (s.eng e).atPoint = true)
    ∧ (let s := (at0 id).modDom 0 fun y => { y with state := .quiescing };
      s.running 0 = some 0 ∧ (s.dom (s.owner 0)).state = .quiescing ∧ (s.eng 0).atPoint = true)
    ∧ (at0 id).running 0 = some 0 ∧ ((at0 id).dom ((at0 id).owner 0)).state ≠ .quiescing ∧ fused.running 0 = none := by
  unfold ArmMay ArmsWait Barred
  refine ⟨by decide +kernel, by decide +kernel, by decide +kernel, by decide +kernel, ⟨.inl ⟨0, by decide +kernel⟩, .inr (.inl (by decide +kernel)), .inr (.inr ⟨_, rfl, by decide +kernel⟩)⟩,
    by decide +kernel, by decide +kernel, by decide +kernel, by decide +kernel, by decide +kernel, by decide +kernel, by decide +kernel, by decide +kernel⟩

/-- A module of the table of R344. -/
def goodModule : Module := { typ := .rdimm, ranks := 2, width := 4, density := 16, rate := 5600, gib := 16 }

/-- What training finds. -/
def fitted : BootEnv := { module0 := some goodModule, train0 := true, module1 := some { goodModule with rate := 4800 }, train1 := true }

/-- A part whose flash holds the signed firmware in the selected slot. -/
def bootable (s : State) : State :=
  { s with nv := { vendor with flash := (signedImage.zipIdx).foldl (fun t p => tset 0xFF t (0x10000 + p.2) p.1) [] } }

/-- A part in reset that may boot, and one that DORMANT leaves to arm 3. -/
def resetPart (s : State) : State := { s with power := { s.power with part := .boot, resetting := false, powerOn := false } }

theorem witness_ResetsAndBoot :
    (∃ x, Enabled fitted 0 x) ∧ (∃ x, Enabled fitted 1 x)
    ∧ (∀ m : Fin 2, (fused.dmc m).before.usable = (fused.dmc m).usable)
    ∧ ((resetPart fused).keeper.journal.map fun j => field j 0 16) = none
    ∧ (let s := resetPart { fused with keeper := { fused.keeper with journal := some 0x0201 } };
      (s.keeper.journal.map fun j => field j 0 16) = some (0x0201 : BitVec 16))
    ∧ (running.power.resetting = false ∧ running.power.tripped = false ∧ running.power.part ≠ .dormant
      ∧ ({ running with power := { running.power with resetting := true } }).power.resetting = true)
    ∧ (let s := { fused with power := { fused.power with tripped := true }, sextant := { fused.sextant with temps := Vector.replicate 5 1520 } };
      s.power.tripped = true ∧ ∃ k : Fin 5, (if s.nv.fuses.industrial = true then 1600 else 1520) ≤ (s.sextant.temps[k]).toInt)
    ∧ (running.pcm.dpll = true ∧ running.pcm.firing = [])
    ∧ (let s := { fused with power := { fused.power with dormantDue := true } };
      s.power.dormantDue = true ∧ s.keeper.running = none ∧ s.power.part ≠ .dormant ∧ s.power.part ≠ .boot)
    ∧ (let s := bootable (resetPart fused);
      s.power.part = .boot ∧ s.power.resetting = false ∧ s.power.tripped = false ∧ s.power.fatal = false ∧ s.pcm.rclkOk = true ∧ ∃ fw, FirmwareOf s fw)
    ∧ NoFirmware (resetPart fused)
    ∧ (let s := fired (bootable (gated .dormant)) [(3, timerArm)];
      s.pcm.firing = [(3, timerArm)] ∧ s.power.part = .dormant ∧ s.power.resetting = false ∧ s.pcm.rclkOk = true ∧ ∃ fw, FirmwareOf s fw)
    ∧ NoFirmware (fired (gated .dormant) [(3, timerArm)]) := by
  have firm : ∀ s : State, (s.firmwarePasses (s.nv.selected 1)).isSome = true → ∃ fw, FirmwareOf s fw := fun s h => by
    obtain ⟨fw, h⟩ := Option.isSome_iff_exists.mp h
    exact ⟨fw, .inl h⟩
  unfold NoFirmware Enabled
  refine ⟨⟨goodModule, by decide +kernel⟩, ⟨{ goodModule with rate := 4800 }, rfl, rfl, by decide +kernel, ?_⟩, by decide +kernel, by decide +kernel, by decide +kernel, by decide +kernel,
    by decide +kernel, by decide +kernel, by decide +kernel, ⟨by decide +kernel, by decide +kernel, by decide +kernel, by decide +kernel, by decide +kernel, firm _ (by decide +kernel)⟩,
    by decide +kernel, ⟨by decide +kernel, by decide +kernel, by decide +kernel, by decide +kernel, firm _ (by decide +kernel)⟩, by decide +kernel⟩
  rintro - y hy - -
  cases hy
  exact ⟨rfl, rfl⟩

/-- A domain with an error queue in frame 0, which is locked to it or not; a corrected record of an origin logged, and one that waits. -/
theorem witness_ErrorRecords :
    (∀ st ∈ [DomState.absent, .destroying, .active], ((domained st fused).dom 1).state = st)
    ∧ (let s := (creatable fused).modDom 1 fun y => { y with state := .active, records := y.records + 1 };
      s.recordWritable 1 ((s.dom 1).eqbase.toNat + 64 * ((s.dom 1).eqpi.toNat % 2 ^ (s.dom 1).eqlogn.toNat)) = true
      ∧ (running.modDom 1 fun y => { y with state := .active, eqbase := 0x220000000000, records := y.records + 1 }).recordWritable 1 0x220000000000 = false)
    ∧ (let c : Corrected := { (default : Corrected) with last := some 0, pending := 1 };
      let s : State := { fused with log := { fused.log with corrected := tset default fused.log.corrected 0x20 c }, pcm := { fused.pcm with chrono := 100000000 } };
      tget default s.log.corrected 0x20 = c ∧ (∀ t, c.last = some t → t.toNat + 100000000 ≤ s.pcm.chrono.toNat) ∧ c.last ≠ none ∧ c.pending ≠ 0 ∧ s.power.part ≠ .dormant) := by
  refine ⟨by decide +kernel, by decide +kernel, by decide +kernel, ?_, by decide, by decide, by decide +kernel⟩
  rintro t h
  cases h
  decide +kernel

theorem witness_FatalErrors :
    (running.power.tripped = false ∧ running.pcm.rclkOk = true ∧ running.power.part ≠ .dormant ∧ (gated .dormant).power.part = .dormant ∧ State.reset.pcm.rclkOk = false)
    ∧ (∀ n : Fin 7, (if n.val < 4 then bit running.pcm.cpll n.val else if n.val = 4 then running.pcm.fpll else if n.val = 5 then running.pcm.dpll else running.pcm.kpll) = true)
    ∧ running.pcm.fpll = true ∧ running.power.resetting = false := by decide +kernel

/-- A part in which the reads of line 5 of DRAM find these failing bits. -/
def erring (reads : List (List Nat)) : State := { fused with mem := { fused.mem with errs := tset none fused.mem.errs 5 (some { rank := true, subchannel := false, reads := reads }) } }

theorem readsAs_of {s : State} {line : Nat} {x : LineErr} {r : Ecc} {k : Nat} (h : tget none s.mem.errs line = some x)
    (h1 : let decode := if s.dramLine line then (s.dmc (s.dmcOf line)).decode else secded8
      k ≤ (if s.dramLine line then 2 else 0) ∧ (∀ j, j < k → (x.reads[j]?).map decode = some .uncorrectable)
      ∧ r = (match x.reads[k]? with | none => .clean | some b => decode b) ∧ (k < (if s.dramLine line then 2 else 0) → r ≠ .uncorrectable)) :
    ∃ v, ReadsAs s line r k v := by
  unfold ReadsAs
  rw [h]
  obtain ⟨a, b, c, d⟩ := h1
  refine ⟨_, a, fun j hj => ?_, c, d, rfl⟩
  have := b j hj
  cases e : x.reads[j]? with
  | none => rw [e] at this; cases this
  | some y =>
    rw [e] at this
    exact ⟨y, rfl, Option.some.inj this⟩

/-- A read without an error, one that a re-read corrects or finds clean, and one that stays uncorrectable. -/
theorem witness_reads :
    ReadsAs fused 5 .clean 0 fused ∧ (∃ v, ReadsAs (erring [[0]]) 5 (.corrected none) 0 v) ∧ (∃ v, ReadsAs (erring [[0, 1], [0]]) 5 (.corrected none) 1 v)
    ∧ (∃ v, ReadsAs (erring [[0, 1]]) 5 .clean 1 v) ∧ (∃ v, ReadsAs (erring [[0, 1], [0, 1], [0, 1]]) 5 .uncorrectable 2 v)
    ∧ (erring [[0]]).dramLine 5 = true :=
  ⟨⟨rfl, rfl, rfl⟩, readsAs_of rfl (by decide +kernel), readsAs_of rfl (by decide +kernel), readsAs_of rfl (by decide +kernel), readsAs_of rfl (by decide +kernel), by decide +kernel⟩

/-- Line 128 k in the data cache of engine 0, for each k of a list. -/
def caching (ks : List Nat) : State :=
  let s := running.modEng 0 fun x => { x with dcache := [(0, ks.map fun k => { line := 128 * k, st := .s })] }
  { s with dmcs := Vector.replicate 2 { s.dmc 0 with dir := ks.map (128 * ·) } }

/-- Some set of the directory is full: of 16 × 32,768 + 1 lines, 17 have one set. -/
theorem full_set : ∃ k ks, k ∉ ks ∧ 16 ≤ ks.length ∧ ks.Nodup ∧ (∀ j ∈ k :: ks, j < 16 * 32768 + 1) ∧ ∀ j ∈ ks, Config.dirSet (128 * j) % 32768 = Config.dirSet (128 * k) % 32768 := by
  have h : ∃ y ∈ Finset.range 32768, 16 < ((Finset.range (16 * 32768 + 1)).filter fun k => Config.dirSet (128 * k) % 32768 = y).card := by
    refine Finset.exists_lt_card_fiber_of_mul_lt_card_of_maps_to (fun k _ => Finset.mem_range.mpr (Nat.mod_lt _ (by decide))) ?_
    rw [Finset.card_range, Finset.card_range]
    decide
  obtain ⟨y, -, h⟩ := h
  generalize hf : (Finset.range (16 * 32768 + 1)).filter (fun k => Config.dirSet (128 * k) % 32768 = y) = F at h
  have m : ∀ j ∈ F.toList, j < 16 * 32768 + 1 ∧ Config.dirSet (128 * j) % 32768 = y := fun j hj => by
    rw [Finset.mem_toList, ← hf, Finset.mem_filter, Finset.mem_range] at hj
    exact hj
  have n : F.toList.Nodup := F.nodup_toList
  rw [← Finset.length_toList] at h
  match hl : F.toList with
  | [] => rw [hl] at h; cases h
  | k :: ks =>
    rw [hl] at h m n
    rw [List.nodup_cons] at n
    refine ⟨k, ks, n.1, by simpa using h, n.2, fun j hj => (m j hj).1, fun j hj => ?_⟩
    rw [(m j (List.mem_cons_of_mem _ hj)).2, (m k List.mem_cons_self).2]

theorem caching_held (ks : List Nat) {k : Nat} (h : k ∈ ks) : (caching ks).unheld (128 * k) = false := by
  have : ((caching ks).dcHolds 0 (128 * k)).isSome = true := by
    have e : (caching ks).dcHolds 0 (128 * k) = findLine (tget [] [(0, ks.map fun k => { line := 128 * k, st := .s })] (dcSet (128 * k))) (128 * k) := rfl
    rw [e, show dcSet (128 * k) = 0 from Nat.mul_mod_right 128 k]
    show (Option.map _ _).isSome = true
    rw [Option.isSome_map, List.find?_isSome]
    exact ⟨_, List.mem_map.mpr ⟨k, h, rfl⟩, beq_self_eq_true _⟩
  unfold State.unheld
  rw [Bool.and_eq_false_iff]
  left
  rw [List.all_eq_false]
  refine ⟨0, by decide, ?_⟩
  cases h : (caching ks).dcHolds 0 (128 * k) with
  | none => rw [h] at this; cases this
  | some v => simp

theorem running_installed : running.installed = 2 ^ 35 - 2 ^ 24 := by decide +kernel

theorem dram_of {s : State} {line : Nat} (h : line < 2 ^ 28) (hs : s.installed = running.installed) : s.dramLine line = true := by
  rw [running_installed] at hs
  unfold State.dramLine State.paClass
  rw [if_pos (by omega), if_pos (by omega), hs, if_pos (by omega)]
  rfl

theorem caching_dmc (ks : List Nat) (m : Fin 2) : (caching ks).dmc m = { running.dmc 0 with dir := ks.map (128 * ·) } := by
  match m with
  | 0 => rfl
  | 1 => rfl

theorem caching_installed (ks : List Nat) : (caching ks).installed = running.installed := by
  unfold State.installed
  rw [caching_dmc, caching_dmc]
  rfl

/-- A line that the directory does not hold, whose set is full. -/
theorem full_directory : ∃ s : State, ∃ line v rest live, s.dramLine line = true
    ∧ (s.dmc (s.dmcOf line)).dir.filter (fun l => l == line || !s.unheld l) = live
    ∧ live.filter (fun l => Config.dirSet line % 32768 == Config.dirSet l % 32768) = v :: rest
    ∧ line ∉ live ∧ 16 ≤ (v :: rest).length := by
  obtain ⟨k, ks, hk, hl, -, hb, hd⟩ := full_set
  have bound : 128 * k < 2 ^ 28 := by
    have := hb k List.mem_cons_self
    omega
  have dir : ∀ m, ((caching ks).dmc m).dir = ks.map (128 * ·) := fun m => by rw [caching_dmc]
  have dram : (caching ks).dramLine (128 * k) = true := dram_of bound (caching_installed ks)
  have live : ((caching ks).dmc ((caching ks).dmcOf (128 * k))).dir.filter (fun l => l == 128 * k || !(caching ks).unheld l) = ks.map (128 * ·) := by
    rw [dir, List.filter_eq_self]
    intro l hl
    obtain ⟨j, hj, rfl⟩ := List.mem_map.mp hl
    rw [caching_held ks hj, Bool.not_false, Bool.or_true]
  have mates : (ks.map (128 * ·)).filter (fun l => Config.dirSet (128 * k) % 32768 == Config.dirSet l % 32768) = ks.map (128 * ·) := by
    rw [List.filter_eq_self]
    intro l hl
    obtain ⟨j, hj, rfl⟩ := List.mem_map.mp hl
    rw [hd j hj, beq_self_eq_true]
  refine ⟨caching ks, 128 * k, ks.head? |>.elim 0 (128 * ·), ks.tail.map (128 * ·), _, dram, live, ?_, fun h => ?_, ?_⟩
  · rw [mates]
    cases ks with
    | nil => cases hl
    | cons j js => rfl
  · obtain ⟨i, hi, e⟩ := List.mem_map.mp h
    exact hk (Nat.eq_of_mul_eq_mul_left (by decide) e ▸ hi)
  · rw [List.length_cons, List.length_map, List.length_tail]
    omega

/-- A line without an entry whose set has room; a line with an entry; a copy of a line in a data cache that reads clean, corrected and
lost; a line of an instruction cache that fails parity. -/
theorem witness_directory :
    (running.dramLine 5 = true ∧ 5 ∉ (running.dmc (running.dmcOf 5)).dir)
    ∧ (let s := running.modEng 0 fun x => { x with dcache := [(5, [{ line := 5, st := .m, err := [0, 1] }])], icErr := tset [] x.icErr 5 [7] };
      (s.dcCopy 0 5).any (fun x => secded8 x.err == .uncorrectable && x.st == .m) = true ∧ parityFails (tget [] (s.eng 0).icErr 5) = true)
    ∧ secded8 [3] = .corrected none ∧ secded8 [] = .clean :=
  ⟨by decide +kernel, by decide +kernel, by decide, by decide⟩

/-- A controller that may enter self-refresh, refresh and scrub; a scrubber with a line to read, in the middle of a pass and at the end of it; a fill
with lines left, with one, and with none. -/
theorem witness_DramUpkeep :
    (DmcRuns running 0 ∧ ¬ DmcRuns State.reset 0 ∧ DmcRuns (gated .watch) 0 ∧ (gated .watch).power.part = .watch ∧ ((gated .watch).dmc 0).selfRefresh = false)
    ∧ (let s := running.modDmc 0 fun d => { d with full := true };
      (s.dmc 0).period ≠ 0 ∧ ScrubNext (s.dmc 0) (s.dmc 0).scrubPos 0 ∧ ScrubNext (s.dmc 0) 1 1)
    ∧ (∀ k, ¬ ScrubNext (running.dmc 0) (running.dmc 0).scrubPos k)
    ∧ (let s := running.modDmc 0 fun d => { d with trackers := [{ gran := 3, pos := 16382, marked := [16382] }] };
      let t : Tracker := { gran := 3, pos := 16382, marked := [16382] }
      (s.dmc 0).trackers[0]? = some t ∧ FillNext t t.pos 16383 ∧ ∀ n, ¬ FillNext t 16384 n)
    ∧ ¬ DmcRuns (gated .dormant) 0 := by
  unfold DmcRuns ScrubNext FillNext
  refine ⟨by decide +kernel, ⟨by decide +kernel, ⟨by decide, by decide +kernel, by decide +kernel, fun j h h' => absurd h' (Nat.not_lt.mpr h)⟩,
    ⟨by decide, by decide +kernel, by decide +kernel, fun j h h' => absurd h' (Nat.not_lt.mpr h)⟩⟩, fun k h => ?_, ⟨rfl, ⟨by decide, by decide, by decide, fun j h h' => ?_⟩, fun n h => ?_⟩, by decide +kernel⟩
  · have : ∀ g, (running.dmc 0).granule g = .untouched := fun g => rfl
    rw [this] at h
    exact absurd h.2.2.1 (by decide)
  · obtain rfl : j = 16382 := by
      have : (16382 : Nat) ≤ j := h
      omega
    exact List.mem_singleton.mpr rfl
  · exact absurd h.1 (Nat.not_le.mpr h.2.1)

/-- Three readings that agree, of which one differs, and that all differ; an hour with and without a day before it; a delay register that has failed
once; sensors at the level, above it, and within 3 °C below it with HOT in force. -/
theorem witness_SextantEvents :
    ¬ MonitorPowered running 92 ∧ MonitorPowered running 79 ∧ ¬ MonitorPowered State.reset 0
    ∧ (((1 : BitVec 16) = 1 ∧ (1 : BitVec 16) = 1 ∧ (2 : BitVec 16) ≠ 1) ∧ ((1 : BitVec 16) ≠ 2 ∧ (1 : BitVec 16) ≠ 3 ∧ (2 : BitVec 16) ≠ 3))
    ∧ (running.power.resetting = false ∧ running.power.fatal = false ∧ running.power.tripped = false ∧ running.power.part ≠ .dormant ∧ running.power.part ≠ .boot)
    ∧ running.sextant.history.length < 23 ∧ 23 ≤ ({ running.sextant with history := List.replicate 23 [] }).history.length
    ∧ (let x : Sextant := { running.sextant with dlyFaults := [(3, 31)] }; ((3 : Fin 4), (31 : Fin 32)) ∈ x.dlyFaults ∧ x.inForce = 0 ∧ ({ x with inForce := 1 }).inForce ≠ 0)
    ∧ ((gated .dormant).power.part = .dormant ∧ (gated .dormant).power.tripped = false)
    ∧ HotAfter 1520 false (Vector.replicate 5 1521) ∧ ¬ HotAfter 1520 false (Vector.replicate 5 1520)
    ∧ HotAfter 1520 true (Vector.replicate 5 1473) ∧ ¬ HotAfter 1520 true (Vector.replicate 5 1472) := by
  unfold MonitorPowered HotAfter
  refine ⟨by decide +kernel, by decide +kernel, by decide +kernel, by decide, by decide +kernel, by decide +kernel, by decide +kernel, by decide +kernel, by decide +kernel,
    by decide, by decide, by decide, by decide⟩

/-- A part of which a ball may be tested, with as many balls as its register has cells; with the development fuse intact and blown. -/
theorem witness_TestAccess :
    (List.replicate 1118 true).length = 1118 ∧ (fused.pins.resetN = false ∧ ({ fused.pins with resetN := true }).resetN = true)
    ∧ fused.nv.fuses.development = false ∧ (∃ s : State, s.nv.fuses.development = true)
    ∧ Through [false] [true, true] [false, true] [true] ∧ (exec .bypass fused matches .next _) :=
  ⟨by decide, by decide +kernel, by decide +kernel, ⟨{ fused with nv := { fused.nv with fuses := { fused.nv.fuses with development := true } } }, by decide +kernel⟩,
    ⟨by decide, by decide, by decide⟩, by decide +kernel⟩

/-- A command waits; none waits, in a part that is up and in one that is down, with an engine that waits and with none. -/
theorem witness_StepFront :
    ({ running with pending := [.identify .accepted] }).pending = [Instr.identify .accepted] ∧ running.pending = []
    ∧ ((∀ r : RingId, (running.ring r).state ≠ .inserted ∧ (running.ring r).state ≠ .inserting) ∧ ∀ e, (running.eng e).wait = .none ∨ running.clusterRuns e = false)
    ∧ ((gated .dormant).power.part = .dormant ∧ running.power.part ≠ .dormant ∧ running.power.resetting = false ∧ running.power.fatal = false ∧ running.power.tripped = false)
    ∧ (let s := waiting (.wfe none) false;
      s.running 0 = some 0 ∧ s.clusterRuns 0 = true ∧ (s.eng 0).micro = none ∧ (s.eng 0).wait = .wfe none) := by decide +kernel

/-- A sound state with a command that waits, and one with an enrolled key. -/
theorem witness_StepsKeep :
    State.reset.sound ∧ ({ State.reset with pending := [.tapReset] }).sound ∧ ({ fused with nv := { fused.nv with enrolled := true } }).sound
    ∧ ({ fused with nv := { fused.nv with enrolled := true } }).nv.enrolled = true := by
  unfold State.sound
  decide +kernel

/-- What `Ends` asks of the bank and of 96 bytes from `base`, as a computation: an instruction of `n` bytes in the part with bytes at `base`. -/
def endsOk (i : Instr) (f : Bank → Bank) (l : List Byte) (n : Nat) (g : Bank → Bank) (out : List Byte) : Bool :=
  match exec i (at1 f l) with
  | .next t => { t.bank 0 with commit := ((go1 f l n).bank 0).commit } == (g ((go1 f l n).bank 0)).pass n
      && (List.range 96).map (fun j => t.seen 0 (base.toNat + j)) == out ++ List.replicate (96 - out.length) 0
  | _ => false

/-- Twelve bytes moved up by 10: the operands overlap, and the move runs down. -/
theorem test_mvs_down : endsOk (.mvs 0 (fa .l4 2 3 4 0 0) 0) (bk [(2, base + 10), (3, base), (4, 12)]) [1, 2, 3, 4, 5, 6, 7, 8, 9, 10, 11, 12] 4 (fun b => withG b 4 0)
    [1, 2, 3, 4, 5, 6, 7, 8, 9, 10, 1, 2, 3, 4, 5, 6, 7, 8, 9, 10, 11, 12] = true := by decide +kernel

/-- The CRC-32 of "123456789" is 0xCBF43926; the instruction leaves it before the last inversion. -/
theorem test_crc_check : endsOk (.crc 0 (fa .l4 6 3 4 1 0) 0) (bk [(6, 0xFFFFFFFF), (3, base), (4, 9)]) [0x31, 0x32, 0x33, 0x34, 0x35, 0x36, 0x37, 0x38, 0x39] 4
    (fun b => (withG (withG (withG b 6 (0xFFFFFFFF - 0xCBF43926)) 3 (base.toNat + 9)) 4 0).putCC 2) [0x31, 0x32, 0x33, 0x34, 0x35, 0x36, 0x37, 0x38, 0x39] = true := by decide +kernel

/-- "é", U+00E9, from UTF-8 to UTF-16LE. -/
theorem test_xcd_letter : endsOk (.xcd 0 (fa .l6 2 3 4 0 0x08) 0) (bk [(2, base + 2), (3, base), (4, 8), (5, 2)]) [0xC3, 0xA9] 6
    (fun b => (withG (withG (withG (withG b 2 (base.toNat + 4)) 4 6) 3 (base.toNat + 2)) 5 0).putCC 0) [0xC3, 0xA9, 0xE9, 0x00] = true := by decide +kernel

theorem direct_of {s : State} {acc : Acc} {va n : Nat}
    (h : ((List.range n).all fun j => decide (va + j < 2 ^ 46) && !(s.paClass (va + j)).isDevice && decide (s.paClass (va + j) ≠ .reserved) && !s.keyUnreadable (va + j)
      && (acc != .read || !tget false s.mem.poison ((va + j) / 64))) = true) : Direct s acc va n := by
  intro a ha hn
  have := List.all_eq_true.mp h (a - va) (List.mem_range.mpr (by omega))
  rw [Nat.add_sub_cancel' ha] at this
  simp only [Bool.and_eq_true, decide_eq_true_eq, Bool.not_eq_true', Bool.or_eq_true, bne_iff_ne] at this
  obtain ⟨⟨⟨⟨h1, h2⟩, h3⟩, h4⟩, h5⟩ := this
  exact ⟨h1, h2, h3, h4, fun hr => h5.resolve_left (fun h => h hr)⟩

/-- A part in which nothing waits behind memory, with bytes at `base`. -/
theorem quiet1 (f : Bank → Bank) (l : List Byte) : Quiet (at1 f l) where
  posts _ := rfl
  homes _ := rfl
  errs _ := rfl
  undamaged := ⟨fun _ => ⟨fun _ _ h => (by cases h), fun _ => rfl, fun _ h => (by cases h)⟩, fun _ _ h => (by cases h)⟩
  standing d := show (Domain.initial d).state ≠ _ from by unfold Domain.initial; split <;> decide

/-- An instruction begins in the part with bytes at `base` under key 0. -/
structure Ready (f : Bank → Bank) (l : List Byte) (n : Nat) : Prop where
  quiet : Quiet (at1 f l)
  begins : Begins (at1 f l) (cx n) 0 (go1 f l n)
  key : pswKEY ((go1 f l n).bank 0).psw = 0

theorem ready_of {f : Bank → Bank} {l : List Byte} {n : Nat} (h : (begins (at1 f l) (cx n) 0 && pswKEY ((go1 f l n).bank 0).psw == 0) = true) : Ready f l n := by
  rw [Bool.and_eq_true, beq_iff_eq] at h
  exact ⟨quiet1 f l, begins_of h.1, h.2⟩

/-- Operands of 66 bytes, two segments: apart, overlapping downward and upward; of 256 bytes; and of none; a plan of one step, and a character to
transcode. -/
theorem witness_StringsComplete :
    (let f := two 66 66;
      Ready f [] 4 ∧ Ready f [] 6 ∧ StringRegs (fa .l4 2 3 4 1 0) false [] ∧ StringRegs (fa .l6 2 3 4 0 0x20) true []
      ∧ Direct (go1 f [] 4) .write base.toNat 66 ∧ Direct (go1 f [] 4) .read (base.toNat + 0x800) 256 ∧ Direct (go1 f [] 4) .read base.toNat 66
      ∧ overlap base.toNat 66 (base.toNat + 0x800) 256 = false ∧ pswFTM ((go1 f [] 4).bank 0).psw = false)
    ∧ (overlap (base.toNat + 10) 66 base.toNat 66 = true ∧ base.toNat < base.toNat + 10)
    ∧ Ready (two 0 0) [] 4
    ∧ (let f := bk [(2, base + 0x800), (3, base)];
      let l : List Byte := [1, 0, 1, 0, 0x20, 0x2A, 1, 0]
      Ready f l 4 ∧ PackedValue 63 (((go1 f l 4).bank 0).getD ((field (0 : BitVec 6) 0 3).setWidth 4)).toNat 0
      ∧ planHeader (bytesSeen (go1 f l 4) 0 base.toNat 8) = some { steps := 1, fill := 0x20, ovfill := 0x2A, digits := 1, zfill := false }
      ∧ (planStep { steps := 1, fill := 0x20, ovfill := 0x2A, digits := 1, zfill := false } (bytesSeen (go1 f l 4) 0 (base.toNat + 8) 8)).isSome = true
      ∧ Direct (go1 f l 4) .write (base.toNat + 0x800) 1 ∧ Direct (go1 f l 4) .read base.toNat 16 ∧ overlap (base.toNat + 0x800) 1 base.toNat 16 = false)
    ∧ (let f := bk [(2, base + 0x800), (3, base), (4, 4), (5, 1), (6, base + 0x1000)];
      let l : List Byte := 0x41 :: List.replicate 0xFFF 0 ++ [1, 0]
      let entry (o k : Nat) : Nat := fieldLE (bytesSeen (go1 f l 6) 0 (base.toNat + 0x1000 + o) k) 0 k
      Ready f l 6 ∧ (xcdFields (fa .l6 2 3 4 0 0x61B)).usesTable = true ∧ (xcdFields (fa .l6 2 3 4 0 0)).usesTable = false
      ∧ StringRegs (fa .l6 2 3 4 0 0x61A) true [6] ∧ Direct (go1 f l 6) .read (base.toNat + 0x1000) 1544 ∧ entry 0 2 = 1 ∧ entry 3 5 = 0 ∧ entry 2 1 = 0
      ∧ ∀ k, k < 256 → entry (1032 + 2 * k) 2 ≤ 0) := by
  refine ⟨⟨ready_of (by decide +kernel), ready_of (by decide +kernel), ⟨by decide, by decide⟩, ⟨by decide, by decide⟩, direct_of (by decide +kernel), direct_of (by decide +kernel),
      direct_of (by decide +kernel), by decide +kernel, by decide +kernel⟩, ⟨by decide +kernel, by decide +kernel⟩, ready_of (by decide +kernel), ⟨ready_of (by decide +kernel), ?_, by decide +kernel, by decide +kernel,
      direct_of (by decide +kernel), direct_of (by decide +kernel), by decide +kernel⟩,
    ⟨ready_of (by decide +kernel), by decide, by decide, ⟨by decide, by decide⟩, direct_of (by decide +kernel), by decide +kernel, by decide +kernel, by decide +kernel, by decide +kernel⟩⟩
  have : (((go1 (bk [(2, base + 0x800), (3, base)]) [1, 0, 1, 0, 0x20, 0x2A, 1, 0] 4).bank 0).getD ((field (0 : BitVec 6) 0 3).setWidth 4)).toNat = 0xC := by decide +kernel
  rw [this]
  exact zero63

/-! ### Well-formed terms -/

/-- A term of each form that WellFormed checks. -/
theorem test_wf_accepts :
    ([.add 0 (fa .l6 1 2 3 0x3F 0xFFFF), .ld 0 (fb .l6 1 2 3 0x30 0xFFFFF 0), .ld 0 (fb .l8 1 2 3 0x3F 0xFFFFF 0xFFF), .ld 0 (fb .l12 1 2 3 0x3F 0xFFFFFFFF 0xFFFFFFFF),
      .b 0 (fe .l4 15 0x3FFF 0 0), .call 0 (fe .l12 15 0x3FFF 0xFFFF 0xFFFFFFFFFFFF), .fsqrt 0 (fxa .l6 1 2 3 3 0xFFF), .aesb 0 (fxb .l8 1 2 3 0xFFFFF 0xFFF),
      .minislotReturn 0 [0, 0], .smbusBlockWrite [1] true, .smbusBlockRead 240 true] : List Instr).all Instr.wf = true := by decide +kernel

/-- An ill-formed term for each check. -/
theorem test_wf_refuses :
    ([.add 0 (fa .l4 1 2 3 0 1), .ld 0 (fb .l4 1 2 3 0 1 0), .ld 0 (fb .l4 1 2 3 0 0 1), .ld 0 (fb .l6 1 2 3 0 0x100000 0), .ld 0 (fb .l6 1 2 3 1 0 0), .ld 0 (fb .l6 1 2 3 0 0 1),
      .ld 0 (fb .l8 1 2 3 0 0x100000 0), .ld 0 (fb .l8 1 2 3 0 0 0x1000),
      .dadm 0 { pred := 0, len := .l8, b1 := 1, b2 := 2, l1 := 0, l2 := 0, dp1 := 1, dp2 := 0 }, .dadm 0 { pred := 0, len := .l8, b1 := 1, b2 := 2, l1 := 0, l2 := 0, dp1 := 0, dp2 := 1 },
      .sti 0 { pred := 0, len := .l8, bs := 1, ix := 2, sz := 0, mod := 0, disp := 0x100000, imm := 0 }, .sti 0 { pred := 0, len := .l8, bs := 1, ix := 2, sz := 0, mod := 0, disp := 0, imm := 0x1000 },
      .sti 0 { pred := 0, len := .l4, bs := 1, ix := 2, sz := 0, mod := 0, disp := 1, imm := 0 }, .b 0 (fe .l4 0 0x4000 0 0), .b 0 (fe .l4 0 0 1 0), .b 0 (fe .l6 0 0 1 0), .b 0 (fe .l8 0 0 0 1),
      .b 0 (fe .l12 0 0x4000 0 0), .fsqrt 0 (fxa .l4 1 2 1 0 0), .fsqrt 0 (fxa .l4 1 2 0 0 1), .aesb 0 (fxb .l8 1 2 0 0x100000 0), .aesb 0 (fxb .l8 1 2 0 0 0x1000), .aesb 0 (fxb .l4 1 2 0 1 0),
      .fadd 0 (.reg (fxa .l4 1 2 1 0 0)), .fadd 0 (.mem (fxb .l8 1 2 0 0x100000 0)), .dts 0 (.reg (fa .l4 1 2 3 0 1)), .minislotReturn 0 [0], .frameReceive 0 .a [0], .beaconReceive 0 .b [0] 0,
      .minislotReturn 0 (List.replicate 31251 0), .smbusBlockWrite [] true, .smbusBlockWrite (List.replicate 241 0) true, .smbusBlockRead 0 true, .smbusBlockRead 241 true,
      .samplePreload [true] []] : List Instr).all (fun i => !i.wf) = true := by decide +kernel

theorem test_wf_register_size : (Instr.csrWrite default 0 3 0).wf = false ∧ (Instr.csrWrite default 0 8 0).wf = true := by decide

/-! ### Words written out from the encodings of R89, R94, R118, R134, R175, R179, R188 and R205 -/

/-- A first word, its extension of `n` bytes and the command they spell. -/
def spells (w x n : Nat) (i : Instr) : Bool := decodeMacro 0 0 (natLE 4 w ++ natLE n x) == some i

/-- The six bytes of the example beside R93. -/
theorem test_decode_dld : decodeMacro 0 0 [0xEF, 0x70, 0x05, 0xB5, 0x80, 0xFF] =
    some (.dld 0 { pred := 0xB, len := .l6, ra := 5, bs := 12, ix := 3, mod := 0x20, disp := 0xFFF80, mod2 := 0 }) := by decide +kernel

/-- The word of the example beside R155. -/
theorem test_decode_trt : spells 0x01948D00 0 0 (.trt 0 (fa .l4 2 3 4 0 0) 0) = true := by decide +kernel

/-- A word of each format: PRED [31:28], LC [27:26], OP [25:18] and the fields below. -/
theorem test_decode_formats :
    spells 0x00044C80 0 0 (.add 0 (fa .l4 1 3 2 0 0)) = true
    ∧ spells 0x0438C015 0xBEEF 2 (.mvi 0 (fa .l6 3 0 0 0x15 0xBEEF)) = true
    ∧ spells 0x0C87FFFF 0x8765432112345678 8 (.lds 0 (fb .l12 15 15 15 0x3F 0x12345678 0x87654321)) = true
    ∧ spells 0x0D4048C7 0x0000000200000001 8 (.dadm 0 { pred := 0, len := .l12, b1 := 1, b2 := 2, l1 := 6, l2 := 7, dp1 := 1, dp2 := 2 }) = true
    ∧ spells 0x06840001 0x0002 2 (.bc 0 (fe .l6 0 0x10002 0 0)) = true
    ∧ spells 0x0E8C0000 0xFFFE000000001000 8 (.call 0 (fe .l12 0 0 0xFFFE 0x1000)) = true
    ∧ spells 0x03F81448 0 0 (.fsqrt 0 (fxa .l4 1 2 0 0 0)) = true
    ∧ spells 0x0BFA0048 0x12300010 4 (.fadd 0 (.mem (fxb .l8 1 2 0 0x10 0x123))) = true
    ∧ spells 0x0BFE0448 0x00000010 4 (.ghb 0 (fxb .l8 1 2 0 0x10 0)) = true
    ∧ spells 0x03E00000 0 0 (.mcall 0 (fa .l4 0 0 0 0 0)) = true
    ∧ spells 0x00000000 0 0 (.unassignedOpcode 0 0 .l4 0 0) = true
    ∧ spells 0x03FD0000 0 0 (.unassignedOpcode 0 0 .l4 0xFF 0x40) = true := by decide +kernel

/-! ### The line code of R396 and R397 -/

/-- K28.5 0011111010, D16.2 after it 1001000101, D21.5 1010101010, D0.0 1001110100 and D31.7 1010110001, each from negative running disparity and with bit a
first; their complements decode to the same characters. -/
theorem test_line_code :
    encodeChars false OrderedSet.idle.chars = ([0x17C, 0x289], false) ∧ encodeChar false (.d 0xB5) = 0x155 ∧ encodeChar false (.d 0x00) = 0x0B9
    ∧ encodeChar false (.d 0xFF) = 0x235 ∧ decodeChar 0x17C = some (.k 0xBC) ∧ decodeChar 0x283 = some (.k 0xBC) ∧ decodeChar 0 = none := by decide +kernel

/-- The check value of the CRC-8 of polynomial 0x07 is 0xF4. -/
theorem test_crc8_check : crc8 [0x31, 0x32, 0x33, 0x34, 0x35, 0x36, 0x37, 0x38, 0x39] = 0xF4 := by decide

/-- A bit that no opcode-table row gives spells no command. -/
theorem test_decode_table_word : decodeTableWord 32 0x01948D00 = none := rfl

end Sys2Proof.Tests
end

section
/-! SUPPORT. What power-on reset leaves (R8, R343, R359, R490, R494, R519, R540, R545). -/

namespace Sys2Proof.Machine

/-- Outside the always-on rail every table is empty, so every accessor reads its default (R540, R545). -/
theorem State.coreReset_reset : CoreReset State.reset where
  banks _ := rfl
  slots _ := rfl
  vectors _ _ := rfl
  engines _ := rfl
  domains _ := rfl
  queues _ := rfl
  functions _ := rfl
  caches _ := rfl
  registers _ := rfl
  rings := by decide
  plan := ⟨rfl, rfl, fun i => by unfold State.owner; split <;> rfl⟩
  images := ⟨fun _ => rfl, by decide⟩
  keeper := ⟨rfl, rfl, rfl⟩
  clusters := by decide
  plls := ⟨rfl, rfl, rfl⟩
  pins := ⟨by decide, rfl, rfl⟩
  chip _ _ := rfl
  control := ⟨rfl, rfl, rfl, rfl⟩

@[simp] theorem State.eng_reset (e : Eng) : State.reset.eng e = Engine.reset := rfl

/-- No fatal stop, no trip, and no engine that has run (R540). -/
theorem State.alive_reset : State.reset.alive = true := by
  have hrun : State.reset.power.fatal = false ∧ State.reset.power.tripped = false := ⟨rfl, rfl⟩
  simp [State.alive, hrun, Engine.reset]

@[simp] theorem State.dmc_reset (m : Fin 2) : State.reset.dmc m = Dmc.reset :=
  Vector.getElem_replicate m.isLt

/-- A DRAM controller that nothing has reached has no touched granule and fills none (R354, R359). -/
@[simp] theorem Dmc.granule_reset (g : Nat) : Dmc.reset.granule g = .untouched := rfl

end Sys2Proof.Machine

namespace Sys2Proof.Proofs

open Sys2Proof Sys2Proof.Machine

/-- Settles O59: the core's part is `State.coreReset_reset`; what is left are fields of the reset state, and the DRAM controllers through their
own reset value. -/
theorem resetState : Obligations.ResetState := by
  unfold Obligations.ResetState
  refine ⟨State.coreReset_reset, State.alive_reset, Memory.wf_reset, rfl, fun _ => rfl, rfl, rfl, rfl, rfl, rfl, rfl, rfl, by decide, rfl, rfl, rfl, rfl,
    rfl, ?_, ?_, rfl, rfl, rfl, rfl, rfl, rfl, rfl⟩
  · intro m g
    rw [State.dmc_reset, Dmc.granule_reset]
  · intro m
    rw [State.dmc_reset]
    rfl

end Sys2Proof.Proofs
end

section
/-! SUPPORT. Host writes of registers (R373, R384, R464, R546, R551 to R553): when a write is served, and what the aligned 8-byte write of each register
becomes. -/

namespace Sys2Proof.Machine

/-- The part serves the host: it runs, and has not stopped fatally (R538, R546). -/
def State.HostServed (s : State) : Prop :=
  s.power.fatal = false ∧ s.power.part ≠ .boot ∧ s.power.part ≠ .dormant ∧ s.power.tripped = false ∧ s.power.resetting = false

theorem exec_csrWrite (page : CsrPage) (off : BitVec 26) (n : Nat) (v : Word) (s : State) :
    exec (.csrWrite page off n v) s = execCsrWrite page off n v s := rfl

theorem exec_csrWrite_of_not_served {s : State} (h : ¬ s.HostServed) (page : CsrPage) (off : BitVec 26) (n : Nat) (v : Word) :
    exec (.csrWrite page off n v) s = .next s := by
  rw [exec_csrWrite, execCsrWrite, if_pos]
  by_contra hserved
  simp only [not_or, Bool.not_eq_true] at hserved
  obtain ⟨hfatal, hboot, hdormant, htripped, hresetting, -⟩ := hserved
  exact h ⟨hfatal, hboot, hdormant, htripped, hresetting⟩

/-- A served write is not turned away. -/
theorem State.HostServed.not_refused {s : State} (h : s.HostServed) : ¬ (s.power.fatal = true ∨ s.power.part = .boot ∨ s.power.part = .dormant
    ∨ s.power.tripped = true ∨ s.power.resetting = true ∨ 8 < 8) := by
  obtain ⟨hfatal, hboot, hdormant, htripped, hresetting⟩ := h
  simp [hfatal, hboot, hdormant, htripped, hresetting]

/-- A served write of 8 bytes in the CSR space is counted and made. -/
theorem exec_csrWrite_csr {s : State} (h : s.HostServed) (off : BitVec 26) (v : Word) :
    exec (.csrWrite .csr off 8 v) s = .next ((s.count (hif 8) 1).csrWrite .host off.toNat 8 v) := by
  rw [exec_csrWrite, execCsrWrite, if_neg h.not_refused]
  rfl

/-- A served write of 8 bytes in the page of a VF is counted and made. -/
theorem exec_csrWrite_vf {s : State} (h : s.HostServed) {d : BitVec 8} (hd : d ≠ 0) (off : BitVec 26) (v : Word) :
    exec (.csrWrite (.vf d) off 8 v) s = .next ((s.count (hif 8) 1).vfWrite d.toNat off.toNat 8 v) := by
  rw [exec_csrWrite, execCsrWrite, if_neg h.not_refused]
  simp only [if_neg hd]
  rfl

@[simp] theorem byteMask_word : byteMask 0 8 = 0xFFFFFFFFFFFFFFFF#64 := by decide

/-- The mask of a whole word keeps every bit. -/
@[simp] theorem and_wordMask (v : Word) : v &&& 0xFFFFFFFFFFFFFFFF#64 = v := BitVec.and_allOnes

/-- The offset of a register that takes a plain write of 8 bytes: aligned, outside the doorbells and the buffers (R551). -/
def WordPlace (o : Nat) : Prop :=
  o < 2 ^ 26 ∧ o % 8 = 0 ∧ (o < 0x0C40000 ∨ 0x0C41000 ≤ o) ∧ (o < 0x0C81000 ∨ 0x0C83000 ≤ o) ∧ (o < 0x0400000 ∨ 0x0C00000 ≤ o ∨ o % 128 ≠ 0x20)

/-- A plain write of 8 bytes reaches its register with every bit. -/
theorem State.csrWrite_word (s : State) (w : Writer) {o : Nat} (ho : WordPlace o) (v : Word) :
    s.csrWrite w o 8 v = s.csrWrite8 w o v 0xFFFFFFFFFFFFFFFF#64 := by
  obtain ⟨-, haligned, hpage, hbuffer, hbell⟩ := ho
  have hword : o / 8 * 8 = o := by omega
  have hvalue : BitVec.ofNat 64 (v.toNat * 2 ^ (8 * 0)) = v := by rw [Nat.mul_zero, pow_zero, mul_one, BitVec.ofNat_toNat, BitVec.setWidth_eq]
  have hkpr : ¬ (kprBase + 0x1000 ≤ o ∧ o < kprBase + 0x3000) := by unfold kprBase; omega
  have hhif : ¬ (hifBase ≤ o ∧ o < hifBase + 0x1000) := by unfold hifBase; omega
  unfold State.csrWrite
  rw [if_neg (by omega), if_neg hkpr, if_neg hhif, if_neg (by omega), if_pos (.inl rfl), hword, haligned, hvalue, byteMask_word]

/-- A served plain write of 8 bytes is counted and made. -/
theorem exec_csrWrite_word {s : State} (h : s.HostServed) {o : Nat} (ho : WordPlace o) (v : Word) :
    exec (.csrWrite .csr (BitVec.ofNat 26 o) 8 v) s = .next ((s.count (hif 8) 1).csrWrite8 .host o v 0xFFFFFFFFFFFFFFFF#64) := by
  have hoff : (BitVec.ofNat 26 o).toNat = o := by rw [BitVec.toNat_ofNat, Nat.mod_eq_of_lt ho.1]
  rw [exec_csrWrite_csr h, hoff, State.csrWrite_word _ _ ho]

/-! ### What a write of each register does -/

theorem State.csrWrite8_vector (s : State) (w : Writer) {i : Nat} (hi : i < 16384) (v m : Word) :
    s.csrWrite8 w (0x02A0000 + 8 * i) v m =
      { s with vectors := tset 0 s.vectors i ((tget 0 s.vectors i &&& ~~~(m &&& 0x7FFFFFFFFFFFF)) ||| (v &&& (m &&& 0x7FFFFFFFFFFFF))) } := by
  have hindex : (0x02A0000 + 8 * i - 0x02A0000) / 8 = i := by omega
  rw [State.csrWrite8, if_neg (by omega), if_neg (by omega), if_neg (by omega), if_neg (by omega), if_neg (by omega), if_pos (by omega)]
  simp only [hindex]

theorem engCounter_eq (e : Eng) (k : Nat) : engCounter e k = e.val * 0x10000 + 0x100 + 8 * k := rfl

/-- A counter of an engine takes every bit of a write (R559). -/
theorem plainMasks_engCounter (e : Eng) {k : Nat} (hk : k < 32) : plainMasks (engCounter e k) = (2 ^ 64 - 1, 0) := by
  have he := e.isLt
  have heq := engCounter_eq e k
  have hplace : engCounter e k % 0x10000 = 0x100 + 8 * k := by omega
  simp only [plainMasks, hplace]
  rw [if_pos (by omega), if_neg (by omega), if_pos (by omega)]

theorem State.plainWrite_engCounter (s : State) (e : Eng) {k : Nat} (hk : k < 32) (v : Word) :
    s.plainWrite (engCounter e k) v 0xFFFFFFFFFFFFFFFF#64 = s.setReg (engCounter e k) v := by
  simp [State.plainWrite, plainMasks_engCounter e hk]

/-- A gated cluster drops a write to a register of its engines. -/
theorem State.csrWrite8_engCounter (s : State) (w : Writer) (e : Eng) {k : Nat} (hk : k < 32) (v : Word) :
    s.csrWrite8 w (engCounter e k) v 0xFFFFFFFFFFFFFFFF#64 =
      if (s.power.clusters[clusterOf e]).st = .gated then s else s.setReg (engCounter e k) v := by
  have he := e.isLt
  have heq := engCounter_eq e k
  have hcluster : engCounter e k / 0x80000 = e.val / 8 := by omega
  rw [State.csrWrite8, if_pos (by omega), State.plainWrite_engCounter s e hk]
  simp only [hcluster]
  rfl

/-- A stored word of a queue context (R373). -/
theorem State.csrWrite8_context (s : State) (w : Writer) {id k : Nat} (hid : id < 65536) (hk : k = 0x08 ∨ k = 0x10 ∨ k = 0x18) (v m : Word) :
    s.csrWrite8 w (0x0400000 + k + 128 * id) v m = s.contextWrite id k v m := by
  have hqueue : (0x0400000 + k + 128 * id - 0x0400000) / 128 = id := by omega
  have hword : (0x0400000 + k + 128 * id) % 128 = k := by omega
  rw [State.csrWrite8]
  iterate 7 rw [if_neg (by omega)]
  rw [if_pos (by omega)]
  simp only [hqueue, hword]
  obtain rfl | rfl | rfl := hk <;> rfl

theorem exec_csrWrite_context {s : State} (h : s.HostServed) {id k : Nat} (hid : id < 65536) (hk : k = 0x08 ∨ k = 0x10 ∨ k = 0x18) (v : Word) :
    exec (.csrWrite .csr (BitVec.ofNat 26 (0x0400000 + k + 128 * id)) 8 v) s =
      .next ((s.count (hif 8) 1).contextWrite id k v 0xFFFFFFFFFFFFFFFF#64) := by
  rw [exec_csrWrite_word h (by unfold WordPlace; omega), State.csrWrite8_context _ _ hid hk]

theorem State.contextWrite_idx (s : State) (id : Nat) (v : Word) : s.contextWrite id 0x08 v 0xFFFFFFFFFFFFFFFF#64 =
    if (s.queue id).en then s else s.modQueue id fun q => { q with idx := (q.idx &&& ~~~0x7FFFFFFFFFFFF) ||| (v &&& 0x7FFFFFFFFFFFF) } := by
  simp [State.contextWrite]

theorem State.contextWrite_dbase (s : State) (id : Nat) (v : Word) : s.contextWrite id 0x10 v 0xFFFFFFFFFFFFFFFF#64 =
    if (s.queue id).en then s else s.modQueue id fun q => { q with dbase := (q.dbase &&& ~~~0x3FFFFFFFFFFF) ||| (v &&& 0x3FFFFFFFFFFF) } := by
  simp [State.contextWrite]

theorem State.contextWrite_xbase (s : State) (id : Nat) (v : Word) : s.contextWrite id 0x18 v 0xFFFFFFFFFFFFFFFF#64 =
    if (s.queue id).en then s else s.modQueue id fun q => { q with xbase := v } := by
  simp [State.contextWrite]

theorem State.csrWrite8_hwhi (s : State) (w : Writer) (v : Word) :
    s.csrWrite8 w 0x0C44000 v 0xFFFFFFFFFFFFFFFF#64 = { s with hif := { s.hif with hwhi := field v 43 21 } } := by
  simp [State.csrWrite8]

theorem State.csrWrite8_go (s : State) (w : Writer) {v : Word} (hgo : bit v 0 = true) : s.csrWrite8 w 0x0C80000 v 0xFFFFFFFFFFFFFFFF#64 = s.goWrite := by
  simp [State.csrWrite8, hgo]

/-- GO while the port is idle copies the packet and makes Keeper busy; otherwise it is counted (R464, R466). -/
theorem State.goWrite_of_not_fatal {s : State} (hfatal : s.power.fatal = false) :
    s.goWrite = if s.keeper.busy then s.countErr 0x0C80010 1 else
      { s with keeper := { s.keeper with busy := true, src := false, done := false, opcode := s.packetIn.opcode, submitted := some s.packetIn } } := by
  simp [State.goWrite, hfatal, kprBase]

/-- A write of DSTAT in the page of a VF clears OVF, where the domain is ACTIVE (R30, R31). -/
theorem State.vfWrite_dstat (s : State) (d : Nat) (v : Word) : s.vfWrite d 0x1000 8 v =
    if (s.dom d).state ≠ .active then s else if bit v 48 then s.modDom d fun y => { y with ovf := false } else s := by
  simp [State.vfWrite, pageDoorbell, State.pageWrite]

theorem registerWritesRules_holds : registerWritesRules := by
  intro s v
  refine ⟨fun hdown page off n => exec_csrWrite_of_not_served hdown page off n v, fun hup => ⟨?_, ?_, ?_, ?_, ?_, ?_⟩⟩
  · -- the vector table
    intro i hi
    rw [exec_csrWrite_word hup (by unfold WordPlace; omega), State.csrWrite8_vector _ _ hi]
    simp
  · -- a counter of an engine
    intro e k hk
    have heq := engCounter_eq e k
    rw [exec_csrWrite_word hup (by unfold WordPlace; omega), State.csrWrite8_engCounter _ _ e hk]
    rfl
  · -- an index word and the bases of a queue
    intro id hid
    refine ⟨(exec_csrWrite_context hup hid (.inl rfl) v).trans ?_, (exec_csrWrite_context hup hid (.inr (.inl rfl)) v).trans ?_,
      (exec_csrWrite_context hup hid (.inr (.inr rfl)) v).trans ?_⟩
    · rw [State.contextWrite_idx]
      rfl
    · rw [State.contextWrite_dbase]
      rfl
    · rw [State.contextWrite_xbase]
      rfl
  · -- HWHI
    rw [exec_csrWrite_word hup (by unfold WordPlace; omega), State.csrWrite8_hwhi]
  · -- GO
    intro hgo
    rw [exec_csrWrite_word hup (by unfold WordPlace; omega), State.csrWrite8_go _ _ hgo, State.goWrite_of_not_fatal (s := s.count (hif 8) 1) hup.1]
    rfl
  · -- DSTAT in the page of a VF
    intro d hd
    have hwrite : exec (.csrWrite (.vf d) 0x1000 8 v) s = .next ((s.count (hif 8) 1).vfWrite d.toNat 0x1000 8 v) := exec_csrWrite_vf hup hd _ v
    rw [hwrite, State.vfWrite_dstat, State.dom_count]
    exact ⟨fun hx => by rw [if_pos hx], fun hx => by rw [if_neg (not_not.2 hx)]⟩

end Sys2Proof.Machine
end

section
/-! SUPPORT. What the host does to a function (R38, R391, R392, R520). -/

namespace Sys2Proof.Machine

/-! ### A canonical table with every entry changed -/

theorem tget_of_keysFrom {α : Type} (d : α) {t : Tbl α} {k j : Nat} (ht : keysFrom j t) (hk : k < j) : tget d t k = d := by
  induction t with
  | nil => rfl
  | cons p r ih =>
    obtain ⟨k', v⟩ := p
    have hkey : j ≤ k' := ht _ (List.mem_cons_self ..)
    simp only [tget]
    rw [if_neg (by omega)]
    exact ih fun q hq => ht q (List.mem_cons_of_mem _ hq)

/-- Every entry changed by a function that keeps the default, and the defaults dropped: each key reads what the function makes of it. -/
theorem tget_filter_map {α : Type} [DecidableEq α] {d : α} {f : Nat → α → α} (hf : ∀ k, f k d = d) {t : Tbl α} (h : twf d t = true) (k : Nat) :
    tget d ((t.map fun p => (p.1, f p.1 p.2)).filter fun p => p.2 ≠ d) k = f k (tget d t k) := by
  induction t with
  | nil => exact (hf k).symm
  | cons p r ih =>
    obtain ⟨k', v⟩ := p
    obtain ⟨-, hkeys, hr⟩ := (twf_cons k' v r).1 h
    have ihr := ih hr
    rw [List.map_cons, List.filter_cons]
    generalize (r.map fun p => (p.1, f p.1 p.2)).filter (fun p => p.2 ≠ d) = rest at ihr ⊢
    by_cases hkey : k' = k
    · subst hkey
      have habsent : tget d r k' = d := tget_of_keysFrom d hkeys (by omega)
      by_cases hv : f k' v = d
      · simp [hv, tget, ihr, habsent, hf]
      · simp [hv, tget]
    · by_cases hv : f k' v = d
      · simp [hv, tget, hkey, ihr]
      · simp [hv, tget, hkey, ihr]

/-! ### Function-level reset (R38, R39, R392) -/

/-- A queue disabled with its indexes kept (R392). -/
def Queue.disabled (q : Queue) : Queue := { q with cfg := setField q.cfg 0 1 0, reads := [], oq := [] }

theorem Queue.disabled_reset : Queue.reset.disabled = Queue.reset := by decide

/-- The queues with those of domain `d` disabled. -/
def disableQueues (d : Nat) (t : Tbl Queue) : Tbl Queue :=
  (t.map fun p => (p.1, if p.1 / 256 = d then p.2.disabled else p.2)).filter fun p => p.2 ≠ Queue.reset

theorem tget_disableQueues (d : Nat) {t : Tbl Queue} (h : twf Queue.reset t = true) (id : Nat) :
    tget Queue.reset (disableQueues d t) id = if id / 256 = d then (tget Queue.reset t id).disabled else tget Queue.reset t id :=
  tget_filter_map (f := fun k (q : Queue) => if k / 256 = d then q.disabled else q) (fun k => by simp [Queue.disabled_reset]) h id

/-- The state of a function-level reset before FLRACT clears and its events leave. -/
def State.functionReset (s : State) (d : Nat) : State :=
  { (s.modFn d PcieFn.flr).modDom d fun x => { x with flrq := true } with queues := disableQueues d s.queues }

theorem State.finishFlr_eq (s : State) (d : Nat) :
    s.finishFlr d = (((s.functionReset d).setFlrActive d false).fire (0x11300 + d)).send (.flrDone (BitVec.ofNat 8 d)) := by
  have hmap : (s.queues.map fun p => if queueDomain p.1 = d then (p.1, p.2.disabled) else p)
      = s.queues.map fun p => (p.1, if p.1 / 256 = d then p.2.disabled else p.2) := by
    refine List.map_congr_left fun p _ => ?_
    by_cases hp : p.1 / 256 = d <;> simp [queueDomain, hp]
  simp only [State.functionReset, disableQueues, ← hmap]
  rfl

theorem exec_functionLevelReset (fn : BitVec 8) (s : State) : exec (.functionLevelReset fn) s = execFunctionLevelReset fn s := rfl

section
variable {s : State} {fn : BitVec 8} (hfn : fn.toNat ≠ 0) (hboot : s.power.part ≠ .boot) (hdormant : s.power.part ≠ .dormant)
include hfn hboot hdormant

/-- Without a domain only the function is reset (R38). -/
theorem exec_functionLevelReset_of_absent (h : (s.dom fn.toNat).state = .absent ∨ (s.dom fn.toNat).state = .destroying) :
    exec (.functionLevelReset fn) s =
      .next ((((s.countErr (hifCounter 9) 1).modFn fn.toNat PcieFn.flr).fire (0x11300 + fn.toNat)).send (.flrDone fn)) := by
  rw [exec_functionLevelReset, execFunctionLevelReset, if_neg (by simp [hfn, hboot, hdormant])]
  obtain h | h := h <;> simp only [State.dom_countErr, h]

theorem exec_functionLevelReset_of_active (h : (s.dom fn.toNat).state = .active) : exec (.functionLevelReset fn) s =
    .next ((((s.countErr (hifCounter 9) 1).setFlrActive fn.toNat true).startQuiesce fn.toNat).settle fn.toNat) := by
  rw [exec_functionLevelReset, execFunctionLevelReset, if_neg (by simp [hfn, hboot, hdormant])]
  simp only [State.dom_countErr, h]

theorem exec_functionLevelReset_of_quiescing (h : (s.dom fn.toNat).state = .quiescing) :
    exec (.functionLevelReset fn) s = .next ((s.countErr (hifCounter 9) 1).setFlrActive fn.toNat true) := by
  rw [exec_functionLevelReset, execFunctionLevelReset, if_neg (by simp [hfn, hboot, hdormant])]
  simp only [State.dom_countErr, h]

theorem exec_functionLevelReset_of_quiesced (h : (s.dom fn.toNat).state = .quiesced) : exec (.functionLevelReset fn) s =
    .next (((((s.countErr (hifCounter 9) 1).functionReset fn.toNat).setFlrActive fn.toNat false).fire (0x11300 + fn.toNat)).send (.flrDone fn)) := by
  rw [exec_functionLevelReset, execFunctionLevelReset, if_neg (by simp [hfn, hboot, hdormant])]
  simp only [State.dom_countErr, h, State.finishFlr_eq, BitVec.ofNat_toNat, BitVec.setWidth_eq]

end

/-! ### MSI-X (R391) -/

theorem exec_msixPendingSend (fn : BitVec 8) (vec : Fin 8) (s : State) : exec (.msixPendingSend fn vec) s =
    if bit (s.fn fn.toNat).pba vec.val && s.msixOpen fn.toNat vec then
      .next ((s.modFn fn.toNat fun f => { f with pba := f.pba &&& ~~~(1#8 <<< vec.val) }).msixSend fn.toNat vec)
    else .next s := by
  have hbit : (1#8 <<< vec.val) = BitVec.ofNat 8 (2 ^ vec.val) := by revert vec; decide
  rw [hbit]
  rfl

/-- The message of vector `v` is what the function's table holds, whatever else of the function changes. -/
theorem State.msixSend_modFn_pba (s : State) (fn : BitVec 8) (v : Fin 8) (g : BitVec 8 → BitVec 8) :
    (s.modFn fn.toNat fun f => { f with pba := g f.pba }).msixSend fn.toNat v =
      ((s.modFn fn.toNat fun f => { f with pba := g f.pba }).count (Sys2Proof.hif 10) 1).send
        (.msix fn v (field (s.fn fn.toNat).msix[v] 0 64) (field (s.fn fn.toNat).msix[v] 64 32)) := by
  rw [State.msixSend, State.fn_modFn, BitVec.ofNat_toNat, BitVec.setWidth_eq]
  rfl

theorem msixPendingSend_rule (s : State) (fn : BitVec 8) (vec : Fin 8) :
    let d := fn.toNat
    let sends := bit (s.fn d).pba vec.val = true ∧ s.mayIssue d = true ∧ (s.fn d).msixEn = true ∧ (s.fn d).msixMask = false ∧ bit (s.fn d).msix[vec] 96 = false
    (sends → exec (.msixPendingSend fn vec) s = .next (((s.modFn d fun f => { f with pba := f.pba &&& ~~~(1#8 <<< vec.val) }).count (hif 10) 1).send
      (.msix fn vec (field (s.fn d).msix[vec] 0 64) (field (s.fn d).msix[vec] 64 32))))
    ∧ (¬ sends → exec (.msixPendingSend fn vec) s = .next s) := by
  intro d sends
  have hopen : (bit (s.fn d).pba vec.val && s.msixOpen d vec) = true ↔ sends := by
    simp [State.msixOpen, sends, and_assoc]
  rw [exec_msixPendingSend]
  refine ⟨fun h => ?_, fun h => if_neg (mt hopen.1 h)⟩
  rw [if_pos (hopen.2 h), State.msixSend_modFn_pba s fn vec (· &&& ~~~(1#8 <<< vec.val))]

/-! ### Configuration writes and link recovery (R391, R520, R546) -/

theorem exec_pcieConfigurationWrite (w : CfgWrite) (s : State) : exec (.pcieConfigurationWrite w) s =
    .next (if s.power.part = .boot ∨ s.power.part = .dormant ∨ s.power.resetting = true then s
      else (upFrom 0 256).foldl State.startCopies (s.configure w)) := by
  change execPcieConfigurationWrite w s = _
  rw [execPcieConfigurationWrite]
  split <;> rfl

/-- The PCIe link's targets are the first 8 bytes. -/
theorem Sextant.linkTargets_zero (x : Sextant) : x.linkTargets 0 = { x with serdes := x.serdesDue.take 8 ++ x.serdes.drop 8 } := by
  simp [Sextant.linkTargets]

theorem exec_linkRecovery (s : State) : exec .linkRecovery s = .next (if s.hif.linkUp
    then { s with sextant := { s.sextant with serdes := s.sextant.serdesDue.take 8 ++ s.sextant.serdes.drop 8 } } else s) := by
  change execLinkRecovery s = _
  rw [execLinkRecovery, Sextant.linkTargets_zero]
  split <;> rfl

theorem hostEventsRules_holds : hostEventsRules := by
  intro s fn vec
  obtain ⟨hsends, hkept⟩ := msixPendingSend_rule s fn vec
  refine ⟨hsends, hkept, ?_, fun w => exec_pcieConfigurationWrite w s, exec_linkRecovery s⟩
  intro hfn hboot hdormant
  refine ⟨exec_functionLevelReset_of_absent hfn hboot hdormant, exec_functionLevelReset_of_active hfn hboot hdormant,
    exec_functionLevelReset_of_quiescing hfn hboot hdormant, fun h => ?_⟩
  exact ⟨(s.countErr (hifCounter 9) 1).functionReset fn.toNat, exec_functionLevelReset_of_quiesced hfn hboot hdormant h, rfl,
    fun hwf id => tget_disableQueues _ hwf id⟩

end Sys2Proof.Machine

namespace Sys2Proof.Proofs

open Sys2Proof Sys2Proof.Machine

/-- Settles O43, from what the host does to a function and from what a write of each register becomes. -/
theorem hostCommands : Obligations.HostCommands :=
  ⟨hostEventsRules_holds, registerWritesRules_holds⟩

end Sys2Proof.Proofs
end

section
/-! SUPPORT. What a step answers: a next state, whatever the command, and one that keeps what the Keeps files speak of but for the
command taken from the queue. -/

namespace Sys2Proof.Machine

/-- The outcome is a next state: neither a fault nor a refusal. -/
def Answers (o : Host.Outcome State Fault Refusal) : Prop := ∃ t, o = .next t

theorem Answers.next (t : State) : Answers (.next t) := ⟨t, rfl⟩

theorem Answers.ite {c : Prop} [Decidable c] {o o' : Host.Outcome State Fault Refusal} (h : Answers o) (h' : Answers o') :
    Answers (if c then o else o') := by
  split <;> assumption

/-! ### Commands whose meaning branches in a way of its own -/

theorem arithNext_answers (op : Nat) (e : Eng) (x : FmtX) (s : State) : Answers (arithNext op e x s) := by
  cases x <;> exact .next _

theorem execEventEntry_answers (e : Eng) (late : Option (BitVec 8 × BitVec 6)) (s : State) : Answers (execEventEntry e late s) := by
  unfold execEventEntry
  split
  · exact .next _
  · refine .ite (.next _) (.ite (.next _) ?_)
    dsimp only
    split <;> exact .next _

theorem execDataSlot_answers (r : RingId) (slot : Nat) (s : State) : Answers (execDataSlot r slot s) := by
  unfold execDataSlot
  dsimp only
  split
  · exact .ite (.next _) (.ite (.next _) (.ite (.next _) (.next _)))
  · exact .next _

theorem execTransactionTimeout_answers (t : TimerOf) (s : State) : Answers (execTransactionTimeout t s) := by
  unfold execTransactionTimeout
  cases t with
  | entry oq index =>
    dsimp only
    split
    · exact .ite (.next _) (.next _)
    · exact .next _
  | request g c =>
    dsimp only
    split <;> exact .next _

theorem execInstructionFetchFault_answers (e : Eng) (s : State) : Answers (execInstructionFetchFault e s) := by
  unfold execInstructionFetchFault
  split
  · exact .next _
  · dsimp only
    split <;> exact .next _

theorem execExc_answers (e : Eng) (s : State) : Answers (execExc e s) := by
  unfold execExc
  split
  · exact .next _
  · refine .ite (.next _) ?_
    split <;> exact .next _

theorem execPcieCompletion_answers (e : Eng) (result : Completion) (s : State) : Answers (execPcieCompletion e result s) := by
  unfold execPcieCompletion
  split
  · refine .ite (.next _) ?_
    cases result <;> exact .next _
  · exact .next _

theorem execSqCopyCompletion_answers (qid : BitVec 16) (k : Nat) (result : Completion) (s : State) :
    Answers (execSqCopyCompletion qid k result s) := by
  unfold execSqCopyCompletion
  dsimp only
  split
  · exact .next _
  · refine .ite (.next _) ?_
    cases result <;> exact .next _

theorem execHifCompletionTimeout_answers (r : HostReq) (s : State) : Answers (execHifCompletionTimeout r s) := by
  unfold execHifCompletionTimeout
  cases r with
  | load e =>
    dsimp only
    split <;> exact .next _
  | copy qid k =>
    dsimp only
    split <;> exact .next _

theorem execMalformedCommand_answers (via : Via) (s : State) : Answers (execMalformedCommand via s) := by
  unfold execMalformedCommand
  split
  · exact .next _
  · split <;> exact .next _

theorem execClockInputRestored_answers (c : ClockIn) (s : State) : Answers (execClockInputRestored c s) := by
  cases c with
  | rclk | xtal32 => exact .next _
  | refclk => exact .ite (.next _) (.next _)

theorem execPostReply_answers (e : Eng) (s : State) : Answers (execPostReply e s) := by
  unfold execPostReply
  split
  · exact .next _
  · split
    · exact .next _
    · exact .ite (.next _) (.next _)

theorem execPatrolScrubRead_answers (m : Fin 2) (s : State) : Answers (execPatrolScrubRead m s) := by
  refine .ite (.next _) ?_
  split
  · exact .next _
  · exact .ite (.next _) (.next _)

theorem execFillTrackerStep_answers (m : Fin 2) (k : Nat) (s : State) : Answers (execFillTrackerStep m k s) := by
  refine .ite (.next _) ?_
  split
  · exact .next _
  · split <;> exact .next _

/-! ### Every command -/

/-- Every command answers a next state: a command that does not apply is turned away by a state, not by a fault or a refusal. The arms
stand together by how a meaning branches: on guards, on what an argument or the state holds, on both, in a way of its own, and not at all. -/
theorem exec_answers (i : Instr) (s : State) : Answers (exec i s) := by
  cases i with
  | cqBurst | beaconSend | beaconMissing | sideFailure | sideRecovery | wrap | unwrap | scheduleSwitch | minislotLost | stationLost
  | frameReceive | unassignedOpcode | msixPendingSend | pcieConfigurationWrite | submissionWhileBusy | powerSet | replan | timerFire
  | sextantHourly | delayRegisterFault | thermalSample | linkRecovery | resetN | perstN | resetDeassertion | dormantEntry | thermtrip
  | pllLockLoss | fabricTimeout | samplePreload | selfRefreshEntry | dramRefresh => exact .ite (.next _) (.next _)
  | bootComplete | rclkLoss => exact .ite (.next _) (.ite (.next _) (.next _))
  | minislotReturn => exact .ite (.next _) (.ite (.next _) (.ite (.next _) (.next _)))
  | csrWrite | functionLevelReset | monitorSample =>
    refine .ite (.next _) ?_
    split <;> exact .next _
  | wfeComplete | wuntilComplete | sevSend | waitevEnd | waittbEnd | microRunaway | heldExceptionDelivery | deferredPostingException
  | storeBufferDrain | beaconReceive | minislotSend | tableExtractResend =>
    dsimp only [exec, execWfeComplete, execWuntilComplete, execSevSend, execWaitevEnd, execWaittbEnd, execMicroRunaway,
      execHeldExceptionDelivery, execDeferredPostingException, execStoreBufferDrain, execBeaconReceive, execMinislotSend,
      execTableExtractResend]
    split <;> exact .next _
  | qstopSet | acknowledgementWaitExpiry | clusterTransitionComplete | correctedRecordFlush =>
    dsimp only [exec, execQstopSet, execAcknowledgementWaitExpiry, execClusterTransitionComplete, execCorrectedRecordFlush]
    split
    · exact .next _
    · exact .ite (.next _) (.next _)
  | armFire | wakeComplete | commandComplete =>
    dsimp only [exec, execArmFire, execWakeComplete, execCommandComplete]
    split
    · exact .next _
    · exact .ite (.next _) (.ite (.next _) (.next _))
  | dts e x => cases x <;> exact .next _
  | coreRailLow rail => cases rail <;> exact .next _
  | fadd | fsub | fmul | fdiv | fma => exact arithNext_answers _ _ _ s
  | eventEntry e late => exact execEventEntry_answers e late s
  | dataSlot r slot => exact execDataSlot_answers r slot s
  | transactionTimeout t => exact execTransactionTimeout_answers t s
  | instructionFetchFault e => exact execInstructionFetchFault_answers e s
  | exc e => exact execExc_answers e s
  | pcieCompletion e result => exact execPcieCompletion_answers e result s
  | sqCopyCompletion qid k result => exact execSqCopyCompletion_answers qid k result s
  | hifCompletionTimeout r => exact execHifCompletionTimeout_answers r s
  | malformedCommand via => exact execMalformedCommand_answers via s
  | clockInputRestored c => exact execClockInputRestored_answers c s
  | postReply e => exact execPostReply_answers e s
  | patrolScrubRead m => exact execPatrolScrubRead_answers m s
  | fillTrackerStep m k => exact execFillTrackerStep_answers m k s
  | _ => exact .next _

/-- Every command keeps the queue behind it, the fuses, an enrolled key and canonical memory: the table of `exec`, arm by arm. -/
theorem exec_keeps {s0 : State} (i : Instr) (s : State) (hk : Keeps s0 s) : KO s0 (exec i s) :=
  match i with
  | .add e x => execAdd_keeps e x s hk
  | .sub e x => execSub_keeps e x s hk
  | .and e x => execAnd_keeps e x s hk
  | .or e x => execOr_keeps e x s hk
  | .xor e x => execXor_keeps e x s hk
  | .shl e x => execShl_keeps e x s hk
  | .shr e x => execShr_keeps e x s hk
  | .sar e x => execSar_keeps e x s hk
  | .rol e x => execRol_keeps e x s hk
  | .cmp e x => execCmp_keeps e x s hk
  | .cmpu e x => execCmpu_keeps e x s hk
  | .cmpp e x => execCmpp_keeps e x s hk
  | .mov e x => execMov_keeps e x s hk
  | .mvi e x => execMvi_keeps e x s hk
  | .mul e x => execMul_keeps e x s hk
  | .mulh e x => execMulh_keeps e x s hk
  | .mulhu e x => execMulhu_keeps e x s hk
  | .div e x => execDiv_keeps e x s hk
  | .divu e x => execDivu_keeps e x s hk
  | .ld e x => execLd_keeps e x s hk
  | .lds e x => execLds_keeps e x s hk
  | .st e x => execSt_keeps e x s hk
  | .lea e x => execLea_keeps e x s hk
  | .sti e x => execSti_keeps e x s hk
  | .dad e x => execDad_keeps e x s hk
  | .dsb e x => execDsb_keeps e x s hk
  | .dzp e x => execDzp_keeps e x s hk
  | .dld e x => execDld_keeps e x s hk
  | .dst e x => execDst_keeps e x s hk
  | .dmp e x => execDmp_keeps e x s hk
  | .ddv e x => execDdv_keeps e x s hk
  | .dcp e x => execDcp_keeps e x s hk
  | .dsh e x => execDsh_keeps e x s hk
  | .drn e x => execDrn_keeps e x s hk
  | .dpk e x => execDpk_keeps e x s hk
  | .dup e x => execDup_keeps e x s hk
  | .dtb e x => execDtb_keeps e x s hk
  | .btd e x => execBtd_keeps e x s hk
  | .dts e x => execDts_keeps e x s hk
  | .dadm e x => execDadm_keeps e x s hk
  | .dsbm e x => execDsbm_keeps e x s hk
  | .dcpm e x => execDcpm_keeps e x s hk
  | .dzpm e x => execDzpm_keeps e x s hk
  | .mvs e x stop => execMvs_keeps e x stop s hk
  | .mvp e x stop => execMvp_keeps e x stop s hk
  | .cls e x stop => execCls_keeps e x stop s hk
  | .clp e x stop => execClp_keeps e x stop s hk
  | .trn e x stop => execTrn_keeps e x stop s hk
  | .trt e x stop => execTrt_keeps e x stop s hk
  | .scn e x stop => execScn_keeps e x stop s hk
  | .xcd e x stop => execXcd_keeps e x stop s hk
  | .edt e x stop => execEdt_keeps e x stop s hk
  | .edk e x stop => execEdk_keeps e x stop s hk
  | .crc e x stop => execCrc_keeps e x stop s hk
  | .pst e x => execPst_keeps e x s hk
  | .psx e x => execPsx_keeps e x s hk
  | .prd e x => execPrd_keeps e x s hk
  | .pbn e x => execPbn_keeps e x s hk
  | .sync e x => execSync_keeps e x s hk
  | .syncw e x => execSyncw_keeps e x s hk
  | .syncr e x => execSyncr_keeps e x s hk
  | .fld e x => execFld_keeps e x s hk
  | .fst e x => execFst_keeps e x s hk
  | .fmvg e x => execFmvg_keeps e x s hk
  | .gmvf e x => execGmvf_keeps e x s hk
  | .dtf e x => execDtf_keeps e x s hk
  | .ftd e x => execFtd_keeps e x s hk
  | .fadd e x => execFadd_keeps e x s hk
  | .fsub e x => execFsub_keeps e x s hk
  | .fmul e x => execFmul_keeps e x s hk
  | .fdiv e x => execFdiv_keeps e x s hk
  | .fma e x => execFma_keeps e x s hk
  | .fsqrt e x => execFsqrt_keeps e x s hk
  | .fcmp e x => execFcmp_keeps e x s hk
  | .fcmpp e x => execFcmpp_keeps e x s hk
  | .fcvt e x => execFcvt_keeps e x s hk
  | .frnd e x => execFrnd_keeps e x s hk
  | .ftog e x => execFtog_keeps e x s hk
  | .gtof e x => execGtof_keeps e x s hk
  | .fquant e x => execFquant_keeps e x s hk
  | .pset e x => execPset_keeps e x s hk
  | .b e x => execB_keeps e x s hk
  | .bc e x => execBc_keeps e x s hk
  | .br e x => execBr_keeps e x s hk
  | .call e x => execCall_keeps e x s hk
  | .callr e x => execCallr_keeps e x s hk
  | .ret e x => execRet_keeps e x s hk
  | .dbnz e x => execDbnz_keeps e x s hk
  | .svc e x => execSvc_keeps e x s hk
  | .eret e x => execEret_keeps e x s hk
  | .spsw e x => execSpsw_keeps e x s hk
  | .gpsw e x => execGpsw_keeps e x s hk
  | .gete e x => execGete_keeps e x s hk
  | .sete e x => execSete_keeps e x s hk
  | .krs e x => execKrs_keeps e x s hk
  | .krg e x => execKrg_keeps e x s hk
  | .sfpc e x => execSfpc_keeps e x s hk
  | .gfpc e x => execGfpc_keeps e x s hk
  | .kset e x => execKset_keeps e x s hk
  | .kget e x => execKget_keeps e x s hk
  | .tlbia e x => execTlbia_keeps e x s hk
  | .tlbid e x => execTlbid_keeps e x s hk
  | .tlbix e x => execTlbix_keeps e x s hk
  | .wfe e x => execWfe_keeps e x s hk
  | .wfeComplete e => execWfeComplete_keeps e s hk
  | .wuntil e x => execWuntil_keeps e x s hk
  | .wuntilComplete e => execWuntilComplete_keeps e s hk
  | .sev e x => execSev_keeps e x s hk
  | .sevSend e => execSevSend_keeps e s hk
  | .tbr e x => execTbr_keeps e x s hk
  | .mcall e x => execMcall_keeps e x s hk
  | .aese e x => execAese_keeps e x s hk
  | .aesd e x => execAesd_keeps e x s hk
  | .aesk e x => execAesk_keeps e x s hk
  | .ghmul e x => execGhmul_keeps e x s hk
  | .crcg e x => execCrcg_keeps e x s hk
  | .crcgn e x => execCrcgn_keeps e x s hk
  | .aesb e x => execAesb_keeps e x s hk
  | .ghb e x => execGhb_keeps e x s hk
  | .shb e x => execShb_keeps e x s hk
  | .tdb e x => execTdb_keeps e x s hk
  | .storeBufferDrain e => execStoreBufferDrain_keeps e s hk
  | .postPerform unit => execPostPerform_keeps unit s hk
  | .postReply e => execPostReply_keeps e s hk
  | .deferredPostingException e => execDeferredPostingException_keeps e s hk
  | .next e => execNext_keeps e s hk
  | .jump e => execJump_keeps e s hk
  | .bt e => execBt_keeps e s hk
  | .bf e => execBf_keeps e s hk
  | .microCall e => execMicroCall_keeps e s hk
  | .microRet e => execMicroRet_keeps e s hk
  | .disp e => execDisp_keeps e s hk
  | .waitev e => execWaitev_keeps e s hk
  | .waitevEnd e => execWaitevEnd_keeps e s hk
  | .waittb e => execWaittb_keeps e s hk
  | .waittbEnd e => execWaittbEnd_keeps e s hk
  | .endWord e => execEndWord_keeps e s hk
  | .exc e => execExc_keeps e s hk
  | .microRunaway e => execMicroRunaway_keeps e s hk
  | .eventRouted source => execEventRouted_keeps source s hk
  | .eventEntry e late => execEventEntry_keeps e late s hk
  | .heldExceptionDelivery e => execHeldExceptionDelivery_keeps e s hk
  | .qstopSet e => execQstopSet_keeps e s hk
  | .pend slot value => execPend_keeps slot value s hk
  | .qcfg qid value => execQcfg_keeps qid value s hk
  | .qdbp qid w value => execQdbp_keeps qid w value s hk
  | .qdbc qid w value => execQdbc_keeps qid w value s hk
  | .hdbp fn n w value => execHdbp_keeps fn n w value s hk
  | .hdbc fn n w value => execHdbc_keeps fn n w value s hk
  | .sqCopyCompletion qid k result => execSqCopyCompletion_keeps qid k result s hk
  | .cqBurst qid => execCqBurst_keeps qid s hk
  | .pcieCompletion e result => execPcieCompletion_keeps e result s hk
  | .hifCompletionTimeout r => execHifCompletionTimeout_keeps r s hk
  | .msixPendingSend fn vec => execMsixPendingSend_keeps fn vec s hk
  | .functionLevelReset fn => execFunctionLevelReset_keeps fn s hk
  | .csrWrite page off size value => execCsrWrite_keeps page off size value s hk
  | .beaconSend r measured => execBeaconSend_keeps r measured s hk
  | .beaconReceive r dir groups rt => execBeaconReceive_keeps r dir groups rt s hk
  | .beaconMissing r => execBeaconMissing_keeps r s hk
  | .minislotSend r k => execMinislotSend_keeps r k s hk
  | .minislotReturn r groups => execMinislotReturn_keeps r groups s hk
  | .minislotLost r => execMinislotLost_keeps r s hk
  | .tableExtractResend r a => execTableExtractResend_keeps r a s hk
  | .frameReceive r dir groups => execFrameReceive_keeps r dir groups s hk
  | .dataSlot r slot => execDataSlot_keeps r slot s hk
  | .acknowledgementWaitExpiry r a => execAcknowledgementWaitExpiry_keeps r a s hk
  | .transactionTimeout t => execTransactionTimeout_keeps t s hk
  | .stationLost r a => execStationLost_keeps r a s hk
  | .sideFailure r side cause => execSideFailure_keeps r side cause s hk
  | .wrap r side => execWrap_keeps r side s hk
  | .unwrap r side => execUnwrap_keeps r side s hk
  | .scheduleSwitch r => execScheduleSwitch_keeps r s hk
  | .smbusBlockWrite bytes pecOk => execSmbusBlockWrite_keeps bytes pecOk s hk
  | .smbusBlockRead count pecOk => execSmbusBlockRead_keeps count pecOk s hk
  | .smbusBufferReset pecOk => execSmbusBufferReset_keeps pecOk s hk
  | .smbusAlertResponse => execSmbusAlertResponse_keeps s hk
  | .commandComplete => execCommandComplete_keeps s hk
  | .identify via => execIdentify_keeps via s hk
  | .status via => execStatus_keeps via s hk
  | .versions via => execVersions_keeps via s hk
  | .logRead via => execLogRead_keeps via s hk
  | .powerSet via => execPowerSet_keeps via s hk
  | .armWake via => execArmWake_keeps via s hk
  | .disarm via => execDisarm_keeps via s hk
  | .imageLoad via host => execImageLoad_keeps via host s hk
  | .imageVerify via => execImageVerify_keeps via s hk
  | .imageCommit via programmed => execImageCommit_keeps via programmed s hk
  | .cstoreReload via => execCstoreReload_keeps via s hk
  | .domainCreate via => execDomainCreate_keeps via s hk
  | .domainDestroy via => execDomainDestroy_keeps via s hk
  | .domainQuiesce via => execDomainQuiesce_keeps via s hk
  | .domainResume via => execDomainResume_keeps via s hk
  | .domainKeys via => execDomainKeys_keeps via s hk
  | .memInit via => execMemInit_keeps via s hk
  | .scrubSet via => execScrubSet_keeps via s hk
  | .zeroize via => execZeroize_keeps via s hk
  | .ringStart via modules trained => execRingStart_keeps via modules trained s hk
  | .ringStop via => execRingStop_keeps via s hk
  | .ringInsert via aligned other => execRingInsert_keeps via aligned other s hk
  | .ringBypass via => execRingBypass_keeps via s hk
  | .planSwitch via => execPlanSwitch_keeps via s hk
  | .sxtReport via => execSxtReport_keeps via s hk
  | .replan via found avsOk => execReplan_keeps via found avsOk s hk
  | .planRevert via avsOk => execPlanRevert_keeps via avsOk s hk
  | .resetPart via => execResetPart_keeps via s hk
  | .engineReset via => execEngineReset_keeps via s hk
  | .selftest via pass => execSelftest_keeps via pass s hk
  | .fuseRead via => execFuseRead_keeps via s hk
  | .keyEnroll via => execKeyEnroll_keeps via s hk
  | .timerFire t => execTimerFire_keeps t s hk
  | .armFire n => execArmFire_keeps n s hk
  | .dormantEntry => execDormantEntry_keeps s hk
  | .wakeComplete env => execWakeComplete_keeps env s hk
  | .clusterTransitionComplete c => execClusterTransitionComplete_keeps c s hk
  | .bootComplete env => execBootComplete_keeps env s hk
  | .selfRefreshEntry m => execSelfRefreshEntry_keeps m s hk
  | .dramRefresh m => execDramRefresh_keeps m s hk
  | .patrolScrubRead m => execPatrolScrubRead_keeps m s hk
  | .fillTrackerStep m k => execFillTrackerStep_keeps m k s hk
  | .correctedRecordFlush origin => execCorrectedRecordFlush_keeps origin s hk
  | .monitorSample n c0 c1 c2 => execMonitorSample_keeps n c0 c1 c2 s hk
  | .sextantHourly hours => execSextantHourly_keeps hours s hk
  | .delayRegisterFault c j => execDelayRegisterFault_keeps c j s hk
  | .thermalSample sensors => execThermalSample_keeps sensors s hk
  | .thermtrip sensor => execThermtrip_keeps sensor s hk
  | .rclkLoss => execRclkLoss_keeps s hk
  | .refclkLoss => execRefclkLoss_keeps s hk
  | .xtal32Loss => execXtal32Loss_keeps s hk
  | .pllLockLoss pll => execPllLockLoss_keeps pll s hk
  | .fabricTimeout requester pa => execFabricTimeout_keeps requester pa s hk
  | .coreRailLow rail => execCoreRailLow_keeps rail s hk
  | .powerOnReset => execPowerOnReset_keeps s hk
  | .resetN => execResetN_keeps s hk
  | .perstN => execPerstN_keeps s hk
  | .tapReset => execTapReset_keeps s hk
  | .extest shift => execExtest_keeps shift s hk
  | .idcode => execIdcode_keeps s hk
  | .samplePreload balls shift => execSamplePreload_keeps balls shift s hk
  | .clamp => execClamp_keeps s hk
  | .highz => execHighz_keeps s hk
  | .extestPulse shift => execExtestPulse_keeps shift s hk
  | .extestTrain shift => execExtestTrain_keeps shift s hk
  | .bypass => execBypass_keeps s hk
  | .unassignedOpcode e pred len op xop => execUnassignedOpcode_keeps e pred len op xop s hk
  | .instructionFetchFault e => execInstructionFetchFault_keeps e s hk
  | .sideRecovery r side => execSideRecovery_keeps r side s hk
  | .resetDeassertion => execResetDeassertion_keeps s hk
  | .clockInputRestored c => execClockInputRestored_keeps c s hk
  | .pcieConfigurationWrite w => execPcieConfigurationWrite_keeps w s hk
  | .linkRecovery => execLinkRecovery_keeps s hk
  | .malformedCommand via => execMalformedCommand_keeps via s hk
  | .submissionWhileBusy via => execSubmissionWhileBusy_keeps via s hk

/-! ### The step -/

/-- The state without the command at the front of its queue. -/
def State.dequeued (s : State) : State := { s with pending := s.pending.tail }

theorem State.dequeued_of_empty {s : State} (h : s.pending = []) : s.dequeued = s := by
  unfold State.dequeued
  rw [h, List.tail_nil, ← h]

theorem step_of_empty {s : State} (h : s.pending = []) : step s = .next (idle s) := by
  rw [step, h]

theorem step_of_cons {s : State} {c : Instr} {rest : List Instr} (h : s.pending = c :: rest) : step s = exec c s.dequeued := by
  rw [step, h, State.dequeued, h, List.tail_cons]

/-- A step answers a next state, which keeps what was there once the command at the front had left the queue. -/
theorem step_keeps (s : State) : ∃ t, step s = .next t ∧ Keeps s.dequeued t := by
  cases hp : s.pending with
  | nil =>
    rw [step_of_empty hp, State.dequeued_of_empty hp]
    exact ⟨idle s, rfl, idle_keeps s (Keeps.refl s)⟩
  | cons c rest =>
    rw [step_of_cons hp]
    obtain ⟨t, ht⟩ := exec_answers c s.dequeued
    exact ⟨t, ht, exec_keeps c s.dequeued (Keeps.refl _) t ht⟩

end Sys2Proof.Machine

namespace Sys2Proof.Proofs

open Sys2Proof Sys2Proof.Machine

/-- Settles O60, from what a step keeps of the state whose front command has left the queue. -/
theorem stepsKeep : Obligations.StepsKeep := by
  intro s hs
  obtain ⟨t, ht, hk⟩ := step_keeps s
  obtain ⟨hfuses, hkey⟩ := hk.nv
  exact ⟨t, ht, hk.mem hs, hk.pending, hfuses, hkey⟩

end Sys2Proof.Proofs
end

section
/-! SUPPORT. Fields and flags of a word: what is read after a field is replaced, and after marked bits are taken from another word. -/

namespace Sys2Proof.Machine

theorem getLsbD_field {n : Nat} (x : BitVec n) (lo w i : Nat) : (field x lo w).getLsbD i = (decide (i < w) && x.getLsbD (lo + i)) := by
  simp [field]

/-- A field that has just been replaced. -/
theorem field_setField_same {n : Nat} (x : BitVec n) {lo w : Nat} (v : Nat) (h : lo + w ≤ n) : field (setField x lo w v) lo w = BitVec.ofNat w v := by
  refine BitVec.eq_of_getLsbD_eq fun i hi => ?_
  have hin : lo + i < n := by omega
  rw [getLsbD_field, getLsbD_setField, if_pos (by omega), BitVec.getLsbD_ofNat]
  simp [hin]

/-- A field that lies outside the one replaced. -/
theorem field_setField_outside {n : Nat} (x : BitVec n) {lo w lo' w' : Nat} (v : Nat) (h : lo' + w' ≤ lo ∨ lo + w ≤ lo') :
    field (setField x lo w v) lo' w' = field x lo' w' := by
  refine BitVec.eq_of_getLsbD_eq fun i hi => ?_
  rw [getLsbD_field, getLsbD_field, getLsbD_setField, if_neg (by omega)]

/-- A flag that has just been replaced. -/
theorem bit_setField_same {n : Nat} (x : BitVec n) {lo : Nat} (b : Bool) (h : lo < n) : bit (setField x lo 1 (b2n b)) lo = b := by
  unfold bit
  rw [getLsbD_setField, if_pos (by omega)]
  cases b <;> simp [h, b2n]

/-- A bit outside the field replaced. -/
theorem bit_setField_outside {n : Nat} (x : BitVec n) {lo w k : Nat} (v : Nat) (h : k < lo ∨ lo + w ≤ k) : bit (setField x lo w v) k = bit x k := by
  unfold bit
  rw [getLsbD_setField, if_neg (by omega)]

/-- A flag replaced by what it is. -/
theorem setField_bit_self {n : Nat} (x : BitVec n) {lo : Nat} {b : Bool} (h : bit x lo = b) : setField x lo 1 (b2n b) = x := by
  refine BitVec.eq_of_getLsbD_eq fun i hi => ?_
  rw [getLsbD_setField]
  by_cases hlo : lo ≤ i ∧ i < lo + 1
  · obtain rfl : i = lo := by omega
    rw [if_pos hlo, Nat.sub_self, decide_eq_true hi, ← h]
    unfold bit
    cases x.getLsbD i <;> rfl
  · rw [if_neg hlo]

theorem bit_merge {n : Nat} (x v m : BitVec n) (k : Nat) : bit ((x &&& ~~~m) ||| (v &&& m)) k = if bit m k then bit v k else bit x k := by
  unfold bit
  rw [BitVec.getLsbD_or, BitVec.getLsbD_and, BitVec.getLsbD_and, BitVec.getLsbD_not]
  by_cases hk : k < n
  · cases m.getLsbD k <;> simp [hk]
  · simp [BitVec.getLsbD_of_ge _ k (Nat.le_of_not_lt hk)]

/-- A field of a word of which the bits that `m` marks are taken from another word: one side's, where `m` marks all of it or nothing of it. -/
theorem field_merge {n : Nat} (x v m : BitVec n) {lo w : Nat} {b : Bool} (hm : ∀ i < w, bit m (lo + i) = b) :
    field ((x &&& ~~~m) ||| (v &&& m)) lo w = if b then field v lo w else field x lo w := by
  refine BitVec.eq_of_getLsbD_eq fun i hi => ?_
  have hbit := bit_merge x v m (lo + i)
  rw [hm i hi] at hbit
  unfold bit at hbit
  rw [getLsbD_field, hbit]
  cases b <;> simp

end Sys2Proof.Machine
end

section
/-! SUPPORT. Queue Manager's doorbells and the writes of QCFG (R31, R363 to R373). -/

namespace Sys2Proof.Machine

/-! ### Indexes of a queue (R366 to R368, R370) -/

/-- Index `k` of a queue: 0 PI, 1 XI, 2 CI. -/
def Queue.index (q : Queue) (k : Fin 3) : Nat := (field q.idx (16 * k.val) 16).toNat

/-- The pass parity of index `k`. -/
def Queue.parity (q : Queue) (k : Fin 3) : Bool := bit q.idx (48 + k.val)

/-- Index `k` and its pass parity replaced. -/
def Queue.setIndex (q : Queue) (k : Fin 3) (x : Nat) (p : Bool) : Queue :=
  { q with idx := setField (setField q.idx (16 * k.val) 16 x) (48 + k.val) 1 (b2n p) }

/-- The entries of an OQ replaced. -/
def Queue.withOq (q : Queue) (l : List OqEntry) : Queue := { q with oq := l }

@[simp] theorem Queue.index_withOq (q : Queue) (l : List OqEntry) (k : Fin 3) : (q.withOq l).index k = q.index k := rfl
@[simp] theorem Queue.parity_withOq (q : Queue) (l : List OqEntry) (k : Fin 3) : (q.withOq l).parity k = q.parity k := rfl
@[simp] theorem Queue.cfg_withOq (q : Queue) (l : List OqEntry) : (q.withOq l).cfg = q.cfg := rfl
@[simp] theorem Queue.dbase_withOq (q : Queue) (l : List OqEntry) : (q.withOq l).dbase = q.dbase := rfl
@[simp] theorem Queue.xbase_withOq (q : Queue) (l : List OqEntry) : (q.withOq l).xbase = q.xbase := rfl
@[simp] theorem Queue.reads_withOq (q : Queue) (l : List OqEntry) : (q.withOq l).reads = q.reads := rfl
@[simp] theorem Queue.oq_withOq (q : Queue) (l : List OqEntry) : (q.withOq l).oq = l := rfl

/-- The fields of the index word by their numbers. -/
theorem Queue.fields_index (q : Queue) : q.pi = q.index 0 ∧ q.xi = q.index 1 ∧ q.ci = q.index 2 ∧ q.pph = q.parity 0 ∧ q.xph = q.parity 1
    ∧ q.cph = q.parity 2 := ⟨rfl, rfl, rfl, rfl, rfl, rfl⟩

theorem Queue.index_setIndex (q : Queue) (j k : Fin 3) {x : Nat} (p : Bool) (hx : x < 65536) :
    (q.setIndex k x p).index j = if j = k then x else q.index j := by
  have hj := j.isLt
  have hk := k.isLt
  unfold Queue.index Queue.setIndex
  rw [field_setField_outside _ _ (.inl (by omega))]
  split
  · subst j
    rw [field_setField_same _ _ (by omega), BitVec.toNat_ofNat, Nat.mod_eq_of_lt hx]
  · rw [field_setField_outside _ _ (by omega)]

theorem Queue.parity_setIndex (q : Queue) (j k : Fin 3) (x : Nat) (p : Bool) :
    (q.setIndex k x p).parity j = if j = k then p else q.parity j := by
  have hj := j.isLt
  have hk := k.isLt
  unfold Queue.parity Queue.setIndex
  split
  · subst j
    rw [bit_setField_same _ _ (by omega)]
  · rw [bit_setField_outside _ _ (by omega), bit_setField_outside _ _ (by omega)]

section
variable (q : Queue) (k : Fin 3) (x : Nat) (p : Bool)

@[simp] theorem Queue.cfg_setIndex : (q.setIndex k x p).cfg = q.cfg := rfl
@[simp] theorem Queue.dbase_setIndex : (q.setIndex k x p).dbase = q.dbase := rfl
@[simp] theorem Queue.xbase_setIndex : (q.setIndex k x p).xbase = q.xbase := rfl
@[simp] theorem Queue.reads_setIndex : (q.setIndex k x p).reads = q.reads := rfl
@[simp] theorem Queue.oq_setIndex : (q.setIndex k x p).oq = q.oq := rfl
end

/-- PI and its parity move, and XI follows but in SQ and CQ. -/
theorem Queue.addPi_withOq (q : Queue) (l : List OqEntry) (a : Nat) : { q.addPi a with oq := l } =
    let x := (advance q.logn q.pi q.pph a).1
    let p := (advance q.logn q.pi q.pph a).2
    if q.kind = 1 ∨ q.kind = 2 then (q.withOq l).setIndex 0 x p else ((q.withOq l).setIndex 0 x p).setIndex 1 x p := by
  by_cases hkind : q.kind = 1 ∨ q.kind = 2
  · simp only [if_pos hkind]
    exact congrArg (Queue.withOq · l) (if_pos hkind)
  · simp only [if_neg hkind]
    exact congrArg (Queue.withOq · l) (if_neg hkind)

theorem Queue.addCi_eq (q : Queue) (a : Nat) :
    q.addCi a = q.setIndex 2 (advance q.logn q.ci q.cph a).1 (advance q.logn q.ci q.cph a).2 := rfl

theorem occ_le (n a : Nat) (pa : Bool) (b : Nat) (pb : Bool) : occ n a pa b pb ≤ 2 ^ n := by
  have hmod : (a + 2 ^ 16 - b) % 2 ^ n < 2 ^ n := Nat.mod_lt _ (Nat.two_pow_pos n)
  unfold occ
  dsimp only
  split <;> omega

/-- An advance by at most the size of the ring passes its end at most once. -/
theorem advance_parity {n a : Nat} (x : Nat) (p : Bool) (ha : a ≤ 2 ^ n) : (advance n x p a).2 = (p ^^ decide (2 ^ n ≤ x % 2 ^ n + a)) := by
  have hx : x % 2 ^ n < 2 ^ n := Nat.mod_lt _ (Nat.two_pow_pos n)
  by_cases hend : 2 ^ n ≤ x % 2 ^ n + a
  · have hwraps : (x % 2 ^ n + a) / 2 ^ n = 1 := (Nat.div_eq_iff (Nat.two_pow_pos n)).2 (by omega)
    simp [advance, hwraps, hend]
  · have hwraps : (x % 2 ^ n + a) / 2 ^ n = 0 := Nat.div_eq_of_lt (by omega)
    simp [advance, hwraps, hend]

/-- The index that a doorbell names is its distance ahead of the index that it moves. -/
theorem index_of_distance {x cur : Nat} (hx : x < 65536) (hcur : cur < 65536) : (cur + (x + 65536 - cur) % 65536) % 65536 = x := by omega

section
variable (q : Queue) {x a : Nat} (t : Word)

/-- The doorbell of a producer. -/
theorem Queue.rung_producer (ha : a ≤ q.free) (hx : (q.pi + a) % 65536 = x) :
    Rung q { q.addPi a with oq := if q.kind = 4 then q.oq ++ oqFrom t q.pi a else q.oq } true x a t := by
  have hwrap : (advance q.logn q.pi q.pph a).2 = (q.pph ^^ decide (2 ^ q.logn ≤ q.slot q.pi + a)) :=
    advance_parity _ _ (Nat.le_trans ha (Nat.sub_le ..))
  have hindex : (advance q.logn q.pi q.pph a).1 = x := hx
  have hword : x < 65536 := by omega
  rw [Queue.addPi_withOq, hindex, hwrap]
  by_cases hkind : q.kind = 1 ∨ q.kind = 2
  · have hnot : ¬ (q.kind ≠ 1 ∧ q.kind ≠ 2) := by omega
    simp only [if_pos hkind]
    constructor <;> simp [hnot, Queue.fields_index, Queue.index_setIndex _ _ _ _ hword, Queue.parity_setIndex, oqFrom]
  · have hyes : q.kind ≠ 1 ∧ q.kind ≠ 2 := by omega
    simp only [if_neg hkind]
    constructor <;> simp [hyes, Queue.fields_index, Queue.index_setIndex _ _ _ _ hword, Queue.parity_setIndex, oqFrom]

/-- The doorbell of a consumer. -/
theorem Queue.rung_consumer (ha : a ≤ q.avail) (hx : (q.ci + a) % 65536 = x) : Rung q (q.addCi a) false x a t := by
  have hwrap : (advance q.logn q.ci q.cph a).2 = (q.cph ^^ decide (2 ^ q.logn ≤ q.slot q.ci + a)) :=
    advance_parity _ _ (Nat.le_trans ha (occ_le ..))
  have hindex : (advance q.logn q.ci q.cph a).1 = x := hx
  have hword : x < 65536 := by omega
  rw [Queue.addCi_eq, hindex, hwrap]
  constructor <;> simp [Queue.fields_index, Queue.index_setIndex _ _ _ _ hword, Queue.parity_setIndex]
end

/-! ### Doorbells (R31, R370, R371) -/

theorem satAdd_one (x : BitVec 16) : satAdd x 1 = BitVec.ofNat 16 (min (x.toNat + 1) 0xFFFF) := congrArg (BitVec.ofNat 16) (Nat.min_comm ..)

/-- Who may ring is what the table of R363 lists. -/
theorem mayRing_iff (kind : Nat) (producer : Bool) (w : Writer) : mayRing kind producer w = true ↔ (kind, producer, byEngine w) ∈ ringers := by
  unfold mayRing
  generalize byEngine w = engine
  rcases kind with _ | _ | _ | _ | _ | _ <;> cases producer <;> cases engine <;> simp [ringers]

section
variable {s : State} {id : Nat} {producer : Bool} {w : Writer} {through : Bool} {v : BitVec 32}

theorem State.doorbell_refused (h : (s.dom (id / 256)).state ≠ .active) : s.doorbell id producer w through v = s.refuseDoorbell (id / 256) := if_pos h

/-- A doorbell passes the checks on its writer, its register and its value (R370). -/
def State.bellPasses (s : State) (id : Nat) (producer : Bool) (w : Writer) (through : Bool) (v : BitVec 32) : Prop :=
  through = true ∧ mayRing (s.queue id).kind producer w = true ∧ (s.queue id).en = true ∧ field v 16 16 = 0

theorem State.doorbell_rejected (hd : (s.dom (id / 256)).state = .active) (h : ¬ s.bellPasses id producer w through v) :
    s.doorbell id producer w through v = s.rejectDoorbell (id / 256) := by
  unfold State.doorbell
  refine (if_neg (not_not.2 hd)).trans (if_pos ?_)
  by_contra hpass
  simp only [Bool.or_eq_true, Bool.not_eq_true', bne_iff_ne, not_or, Bool.not_eq_false, not_not] at hpass
  obtain ⟨⟨⟨hthrough, hring⟩, hen⟩, hvalue⟩ := hpass
  exact h ⟨hthrough, hring, hen, hvalue⟩

/-- A doorbell that passes the checks is counted, and moves its index as far as there is room (R370). -/
theorem State.doorbell_rings (hd : (s.dom (id / 256)).state = .active) (h : s.bellPasses id producer w through v) : s.doorbell id producer w through v =
    let q := s.queue id
    let t := s.count (qmg 0x18) 1
    let cur := if producer then q.pi else q.ci
    let a := ((field v 0 16).toNat + 65536 - cur) % 65536
    if a = 0 then t
    else if (if producer then q.free else q.avail) < a then t.queueError id 1 cur 0
    else if producer then
      let u := t.modQueue id fun _ => { q.addPi a with oq := if q.kind = 4 then q.oq ++ oqFrom s.pcm.chrono q.pi a else q.oq }
      if q.kind = 0 then u.queueEvent id else u.startCopy id
    else
      let u := t.modQueue id fun _ => q.addCi a
      if q.kind = 2 ∨ q.kind = 4 then u.queueEvent id else u := by
  obtain ⟨hthrough, hring, hen, hvalue⟩ := h
  unfold State.doorbell
  refine (if_neg (not_not.2 hd)).trans ((if_neg (by simp [hthrough, hring, hen, hvalue])).trans ?_)
  cases producer <;> rfl

end

/-- Only an SQ has copies to start. -/
theorem State.startCopy_of_not_sq {s : State} {id : Nat} (h : (s.queue id).kind ≠ 1) : s.startCopy id = s := if_neg fun hsq => h hsq.1

/-- The rows of the doorbells: the instruction, the queue that it names, its side, and whether an engine writes its register. -/
def doorbellRows (qid : BitVec 16) (fn j : BitVec 8) (w : Writer) (v : BitVec 32) : List (Instr × Nat × Bool × Bool) :=
  [(.qdbp qid w v, qid.toNat, true, true), (.qdbc qid w v, qid.toNat, false, true),
    (.hdbp fn j w v, 256 * fn.toNat + j.toNat, true, false), (.hdbc fn j w v, 256 * fn.toNat + j.toNat, false, false)]

theorem exec_doorbell {qid : BitVec 16} {fn j : BitVec 8} {w : Writer} {v : BitVec 32} {i : Instr} {id : Nat} {producer engine : Bool}
    (h : (i, id, producer, engine) ∈ doorbellRows qid fn j w v) (s : State) :
    exec i s = .next ((if engine then s.writerOrder w else s).doorbell id producer w (byEngine w == engine) v) := by
  simp only [doorbellRows, List.mem_cons, Prod.mk.injEq, List.not_mem_nil, or_false] at h
  obtain ⟨rfl, rfl, rfl, rfl⟩ | ⟨rfl, rfl, rfl, rfl⟩ | ⟨rfl, rfl, rfl, rfl⟩ | ⟨rfl, rfl, rfl, rfl⟩ := h <;> cases w <;> rfl

theorem doorbellsRules_holds : doorbellsRules := by
  intro s0 qid fn j w v i id producer engine hrow s fits d q x cur a room allowed t
  have hs : (if engine then s0.writerOrder w else s0) = s := by cases w <;> cases engine <;> rfl
  have hfits : (byEngine w == engine) = fits := by cases w <;> cases engine <;> rfl
  have hexec : exec i s0 = .next (s.doorbell id producer w fits v) := by rw [exec_doorbell hrow, hs, hfits]
  have hallowed : allowed ↔ s.bellPasses id producer w fits v := by
    refine and_congr_right fun hf => and_congr_left' ?_
    rw [mayRing_iff, beq_iff_eq.1 (hfits.trans hf)]
  rw [hexec]
  refine ⟨fun hd => ?_, fun hd hno => ?_, fun hd hyes => ?_⟩
  · rw [State.doorbell_refused hd, State.refuseDoorbell]
    simp only [satAdd_one]
    rfl
  · rw [State.doorbell_rejected hd (mt hallowed.2 hno), State.rejectDoorbell]
    simp only [satAdd_one]
    rfl
  · rw [State.doorbell_rings hd (hallowed.1 hyes)]
    refine ⟨fun h0 => congrArg _ (if_pos h0), fun hroom => congrArg _ ?_, fun h0 hroom => ?_⟩
    · exact (if_neg (Nat.ne_of_gt (Nat.zero_lt_of_lt hroom))).trans (if_pos hroom)
    · cases producer with
      | true =>
        have hrung := q.rung_producer s.pcm.chrono hroom (index_of_distance (BitVec.isLt _) (BitVec.isLt _))
        refine ⟨_, hrung, congrArg _ ((if_neg h0).trans ((if_neg (Nat.not_lt.2 hroom)).trans ((if_pos rfl).trans ?_)))⟩
        refine Eq.trans (if_congr Iff.rfl rfl ?_) (if_pos rfl).symm
        by_cases hkind : q.kind = 1
        · exact (if_pos hkind).symm
        · refine (State.startCopy_of_not_sq ?_).trans (if_neg hkind).symm
          rw [State.queue_modQueue, Queue.kind, hrung.cfg]
          exact hkind
      | false =>
        have hrung := q.rung_consumer s.pcm.chrono hroom (index_of_distance (BitVec.isLt _) (BitVec.isLt _))
        exact ⟨_, hrung, congrArg _ ((if_neg h0).trans ((if_neg (Nat.not_lt.2 hroom)).trans ((if_neg Bool.false_ne_true).trans (if_neg Bool.false_ne_true).symm)))⟩

/-! ### Writes of QCFG (R365, R372, R373) -/

/-- The bits of QCFG that a write may change (R373). -/
def Queue.writable (q : Queue) : Word := if q.en then qcfgLive else qcfgWritable

/-- A queue with the writable bits of QCFG taken from a word (R373). -/
def Queue.configured (q : Queue) (v : Word) : Queue := { q with cfg := (q.cfg &&& ~~~q.writable) ||| (v &&& q.writable) }

theorem Queue.bit_writable (q : Queue) : bit q.writable 0 = true := by
  unfold Queue.writable
  cases q.en <;> rfl

theorem Queue.en_configured (q : Queue) (v : Word) : (q.configured v).en = bit v 0 := by
  unfold Queue.en Queue.configured
  rw [bit_merge, if_pos q.bit_writable]

/-- A field of QCFG that no write changes. -/
theorem Queue.field_configured_fixed (q : Queue) (v : Word) {lo w : Nat} (h : ∀ i < w, bit qcfgLive (lo + i) = false ∧ bit qcfgWritable (lo + i) = false) :
    field (q.configured v).cfg lo w = field q.cfg lo w := by
  unfold Queue.configured Queue.writable
  rw [field_merge (b := false)]
  · rfl
  · intro i hi
    cases q.en
    · exact (h i hi).2
    · exact (h i hi).1

/-- EVEN, IEN and VEC change with every write. -/
theorem Queue.field_configured_live (q : Queue) (v : Word) : field (q.configured v).cfg 13 5 = field v 13 5 := by
  unfold Queue.configured Queue.writable
  rw [field_merge (b := true)]
  · rfl
  · cases q.en <;> decide

/-- KIND, LOGN, ESZ and BSZ change on a disabled queue. -/
theorem Queue.field_configured_shape (q : Queue) (v : Word) :
    field (q.configured v).cfg 1 12 = if q.en then field q.cfg 1 12 else field v 1 12 := by
  unfold Queue.configured Queue.writable
  cases q.en
  · rw [field_merge (b := true)]
    · rfl
    · decide
  · rw [field_merge (b := false)]
    · rfl
    · decide

theorem exec_qcfg (qid : BitVec 16) (v : Word) (s : State) : exec (.qcfg qid v) s = .next (s.writeQcfg qid.toNat v) := rfl

section
variable {s : State} {id : Nat} {v : Word}

theorem State.writeQcfg_disable (hoff : bit v 0 = false) :
    s.writeQcfg id v = s.modQueue id fun _ => { (s.queue id).configured v with cfg := setField ((s.queue id).configured v).cfg 24 3 0 } :=
  if_pos (by rw [hoff]; rfl)

theorem State.writeQcfg_enabled (hon : bit v 0 = true) (hen : (s.queue id).en = true) :
    s.writeQcfg id v = s.modQueue id fun _ => (s.queue id).configured v :=
  (if_neg (by rw [hon]; decide)).trans (if_pos hen)

theorem State.writeQcfg_enable (hon : bit v 0 = true) (hen : (s.queue id).en = false) (hok : s.enableOk id ((s.queue id).configured v) = true) :
    s.writeQcfg id v =
      let q := (s.queue id).configured v
      (s.modQueue id fun _ => { q with cfg := setField q.cfg 24 3 0, oq := if q.kind = 4 then oqFrom s.pcm.chrono q.ci q.avail else [] }).startCopy id :=
  (if_neg (by rw [hon]; decide)).trans ((if_neg (by rw [hen]; decide)).trans (if_pos hok))

theorem State.writeQcfg_refused (hon : bit v 0 = true) (hen : (s.queue id).en = false) (hok : s.enableOk id ((s.queue id).configured v) = false) :
    s.writeQcfg id v =
      let q := (s.queue id).configured v
      (s.countErr (errCounter 4) 1).modQueue id fun _ => { q with cfg := setField (setField q.cfg 0 1 0) 24 3 4 } :=
  (if_neg (by rw [hon]; decide)).trans ((if_neg (by rw [hen]; decide)).trans (if_neg (by rw [Queue.configured] at hok; exact Bool.eq_false_iff.1 hok)))
end

theorem queueConfigurationRules_holds : queueConfigurationRules := by
  intro s qid v id q
  have hen : (q.configured v).en = bit v 0 := q.en_configured v
  have hcfg : ∀ b, bit v 0 = b → setField (q.configured v).cfg 0 1 (b2n b) = (q.configured v).cfg := fun b hb => setField_bit_self _ (hen.trans hb)
  refine ⟨q.configured v, rfl, rfl, rfl, rfl, rfl, q.field_configured_shape v, hen, q.field_configured_live v,
    q.field_configured_fixed v (by decide), congrArg BitVec.toNat (q.field_configured_fixed v (by decide)), q.field_configured_fixed v (by decide), ?_, ?_, ?_⟩
  · intro hoff
    rw [exec_qcfg, State.writeQcfg_disable hoff]
    simp only [hcfg false hoff]
    rfl
  · intro hon hq
    rw [exec_qcfg, State.writeQcfg_enabled hon hq]
  · intro hon hq
    refine ⟨fun hok => ?_, fun hok => ?_⟩
    · rw [exec_qcfg, State.writeQcfg_refused hon hq hok]
      rfl
    · rw [exec_qcfg, State.writeQcfg_enable hon hq hok]
      simp only [hcfg true hon]
      rfl

end Sys2Proof.Machine

namespace Sys2Proof.Proofs

open Sys2Proof Sys2Proof.Machine

/-- Settles O40: a doorbell by the checks it passes, a write of QCFG by what the queue was and becomes. -/
theorem queueControl : Obligations.QueueControl := ⟨doorbellsRules_holds, queueConfigurationRules_holds⟩

end Sys2Proof.Proofs
end

section
/-! SUPPORT. The return from a level (R204, R285, R324): the slots and the bank that it changes. -/

namespace Sys2Proof.Machine

/-- The level that a return from level `n` restores: the one that NEST and XLVL name, or its own (R285). -/
def State.returnLevel (s : State) (e : Eng) (n : Fin 8) : Fin 8 :=
  let y := s.slot (slotOf e n.val)
  if y.nest then Fin.ofNat 8 y.xlvl.toNat else n

/-- The slots after a return from level `n`. -/
def State.afterReturn (s : State) (e : Eng) (n : Fin 8) : State :=
  if (s.slot (slotOf e n.val)).nest then slotsReturned s e n (s.returnLevel e n) else s.modSlot (slotOf e n.val) fun y => { y with state := .idle }

section
variable (s : State) (e : Eng) (n : Fin 8)

/-- A return changes banks and slots alone. -/
theorem State.eret_eq : s.eret e n = { s with banks := (s.eret e n).banks, slots := (s.eret e n).slots } := by
  unfold State.eret
  dsimp only
  split
  · split <;> rfl
  · rfl

theorem State.afterReturn_eq : s.afterReturn e n = { s with slots := (s.afterReturn e n).slots } := by
  unfold State.afterReturn slotsReturned
  split
  · split <;> rfl
  · rfl

theorem slotOf_inj {m : Fin 8} : slotOf e m.val = slotOf e n.val ↔ m = n := by
  unfold slotOf
  rw [Fin.ext_iff]
  omega

theorem State.slot_modSlot_ite (i : Nat) (f : Slot → Slot) (k : Nat) : (s.modSlot i f).slot k = if k = i then f (s.slot i) else s.slot k := tget_tset ..

theorem State.bank_modBank_ite (i : Nat) (f : Bank → Bank) (k : Nat) : (s.modBank i f).bank k = if k = i then f (s.bank i) else s.bank k := tget_tset ..

/-- A level that no other level's context waits in is parked. -/
theorem State.eret_parks (h : (s.slot (slotOf e n.val)).nest = false) : s.eret e n =
    (s.modBank (slotOf e n.val) fun y => { y with psw := s.restorePsw (slotOf e n.val) (s.bank (slotOf e n.val)).epsw }).modSlot (slotOf e n.val)
      fun y => { y with state := .idle } := if_neg (by simp [h])

theorem State.returnLevel_val {s : State} {e : Eng} {n : Fin 8} (h : (s.slot (slotOf e n.val)).nest = true) :
    (s.returnLevel e n).val = (s.slot (slotOf e n.val)).xlvl.toNat := by
  simp only [State.returnLevel, h, if_true]
  exact Nat.mod_eq_of_lt (BitVec.isLt _)

/-- A level returns to itself. -/
theorem State.eret_self (h : (s.slot (slotOf e n.val)).nest = true) (hm : s.returnLevel e n = n) : s.eret e n =
    ((s.modBank (slotOf e n.val) fun y => { y with psw := s.restorePsw (slotOf e n.val) (s.bank (slotOf e n.val)).epsw }).modSlot (slotOf e n.val)
      fun y => { y with nest := false }).modBank (slotOf e n.val) fun y => { y with commit := y.ecommit } := by
  have hval : (s.slot (slotOf e n.val)).xlvl.toNat = n.val := by rw [← State.returnLevel_val h, hm]
  refine (if_pos h).trans ?_
  simp only [hval, if_true]

/-- A level returns to another one. -/
theorem State.eret_other (h : (s.slot (slotOf e n.val)).nest = true) (hm : s.returnLevel e n ≠ n) : s.eret e n =
    let j := slotOf e (s.returnLevel e n).val
    (((s.modBank j fun y => { y with psw := s.restorePsw j (s.bank (slotOf e n.val)).epsw }).modSlot (slotOf e n.val)
      fun y => { y with nest := false }).modSlot (slotOf e n.val) fun y => { y with state := .idle }).modSlot j fun y => { y with state := .active } := by
  have hne : (s.slot (slotOf e n.val)).xlvl.toNat ≠ n.val := by rwa [← State.returnLevel_val h, ne_eq, ← Fin.ext_iff]
  simp only [State.returnLevel_val h]
  exact (if_pos h).trans (if_neg hne)

/-- The slots after a return are those of R285. -/
theorem State.slot_eret (k : Nat) : (s.eret e n).slot k = (s.afterReturn e n).slot k := by
  by_cases hnest : (s.slot (slotOf e n.val)).nest = true
  · by_cases hm : s.returnLevel e n = n
    · rw [State.eret_self s e n hnest hm, State.afterReturn, if_pos hnest, slotsReturned, if_pos hm]
      rfl
    · have hj : slotOf e (s.returnLevel e n).val ≠ slotOf e n.val := by rwa [ne_eq, slotOf_inj]
      rw [State.eret_other s e n hnest hm, State.afterReturn, if_pos hnest, slotsReturned, if_neg hm]
      simp only [State.slot_modSlot_ite, if_neg hj, if_true, State.slot_modBank]
      split
      · rfl
      · split <;> rfl
  · rw [State.eret_parks s e n (Bool.eq_false_iff.2 hnest), State.afterReturn, if_neg hnest]
    rfl

/-- A return writes the PSW of the level that it restores, and the commit record of one that returns to itself (R324). -/
theorem State.bank_eret (k : Nat) :
    let b := s.bank (slotOf e n.val)
    let m := s.returnLevel e n
    let j := slotOf e m.val
    (s.eret e n).bank k = if k = j then
        { s.bank j with psw := s.restorePsw j b.epsw, commit := if (s.slot (slotOf e n.val)).nest ∧ m = n then b.ecommit else (s.bank j).commit }
      else s.bank k := by
  by_cases hnest : (s.slot (slotOf e n.val)).nest = true
  · by_cases hm : s.returnLevel e n = n
    · rw [State.eret_self s e n hnest hm]
      simp only [hm, hnest, State.bank_modBank_ite, State.bank_modSlot, true_and, if_true]
      split <;> rfl
    · rw [State.eret_other s e n hnest hm]
      simp only [hm, and_false, if_false, State.bank_modSlot]
      exact State.bank_modBank_ite ..
  · have hm : s.returnLevel e n = n := if_neg hnest
    rw [State.eret_parks s e n (Bool.eq_false_iff.2 hnest)]
    simp only [hm, hnest, State.bank_modSlot]
    exact State.bank_modBank_ite ..
end

/-- Slots that are alike but for events stay so when the same is changed in both. -/
theorem still_modSlot {s t : State} (h : ∀ k, (t.slot k).still = (s.slot k).still) (i : Nat) {f : Slot → Slot} (hf : ∀ y, (f y).still = f y.still) (k : Nat) :
    ((t.modSlot i f).slot k).still = ((s.modSlot i f).slot k).still := by
  rw [State.slot_modSlot_ite, State.slot_modSlot_ite]
  split
  · rw [hf, hf, h]
  · exact h k

theorem nest_of_still {x y : Slot} (h : x.still = y.still) : x.nest = y.nest := by
  have h' := congrArg Slot.nest h
  exact h'

theorem xlvl_of_still {x y : Slot} (h : x.still = y.still) : x.xlvl = y.xlvl := by
  have h' := congrArg Slot.xlvl h
  exact h'

theorem returnLevel_of_still {s t : State} (h : ∀ k, (t.slot k).still = (s.slot k).still) (e : Eng) (n : Fin 8) :
    t.returnLevel e n = s.returnLevel e n := by
  simp only [State.returnLevel, nest_of_still (h _), xlvl_of_still (h _)]

theorem still_afterReturn {s t : State} (h : ∀ k, (t.slot k).still = (s.slot k).still) (e : Eng) (n : Fin 8) (k : Nat) :
    ((t.afterReturn e n).slot k).still = ((s.afterReturn e n).slot k).still := by
  unfold State.afterReturn slotsReturned
  rw [nest_of_still (h _), returnLevel_of_still h]
  split
  · split
    · refine still_modSlot h _ ?_ k
      exact fun _ => rfl
    · refine still_modSlot (still_modSlot h _ ?_) _ ?_ k <;> exact fun _ => rfl
  · refine still_modSlot h _ ?_ k
    exact fun _ => rfl

/-- A return after what leaves the slots alone but for events. -/
theorem Aside.eret {s t : State} {e : Eng} (n : Fin 8) (h : Aside s t e) : Aside (s.afterReturn e n) (t.eret e n) e := by
  have hslots : ∀ k, ((t.eret e n).slot k).still = ((s.afterReturn e n).slot k).still := fun k => by
    rw [State.slot_eret, still_afterReturn h.slots]
  rw [s.afterReturn_eq, t.eret_eq] at hslots ⊢
  exact { h with slots := hslots }

theorem Tally.eret {s t : State} {e : Eng} {ks : List (Nat × Nat)} (n : Fin 8) (h : Tally s t e ks) : Tally s (t.eret e n) e ks :=
  h.keep fun o => by
    rw [t.eret_eq]
    rfl

theorem State.eng_eret (s : State) (e d : Eng) (n : Fin 8) : (s.eret e n).eng d = s.eng d := by
  rw [s.eret_eq]
  rfl

theorem exec_eret (e : Eng) (x : FmtA) (s : State) : exec (.eret e x) s = execEret e x s := rfl

theorem Aside.restorePsw {s t : State} {e : Eng} (h : Aside s t e) (i : Nat) (p : BitVec 128) : t.restorePsw i p = s.restorePsw i p := by
  have hdom : ∀ d, t.dom d = s.dom d := fun d => by rw [State.dom, h.domains, State.dom]
  have howner : t.owner i = s.owner i := by rw [State.owner, h.owners, State.owner]
  rw [State.restorePsw, hdom, howner, State.restorePsw]

/-- What ERET leaves, where its checks pass (R204). -/
theorem Begins.eret {s s1 : State} {c : Cx} {x : FmtA} (h : Begins s c x.pred s1) (hra : OnlyRa x) (h0 : x.ra = 0) (hlen : c.len = 4)
    (hpriv : pswPRIV (s1.bank c.slot).psw = true) (hres : pswReserved (s1.bank c.slot).epsw = false) (heven : bit (s1.bank c.slot).epsw 0 = false)
    (hkey : pswKEY (s1.bank c.slot).psw = 0 ∨ pswKEY (s1.bank c.slot).epsw = pswKEY (s1.bank c.slot).psw) :
    exec (.eret c.e x) s = .next ((((((s1.cycles c.e (pswFTM (s1.bank c.slot).psw) 12).eret c.e c.n).tick c.e 7 1).seal c.e false).tick c.e 1 1).modEng c.e
      fun y => { y with lineBuf := [] }) := by
  obtain ⟨hl, hb, hc, hm⟩ := hra
  have hkey' : ¬ (pswKEY (s1.bank c.slot).psw ≠ 0 ∧ pswKEY (s1.bank c.slot).epsw ≠ pswKEY (s1.bank c.slot).psw) := by tauto
  rw [exec_eret, execEret, macroNext, hl, show Len.l4.bytes = c.len from hlen.symm,
    h.done (d := .left) (s2 := ((s1.cycles c.e (pswFTM (s1.bank c.slot).psw) 12).eret c.e c.n).tick c.e 7 1) ?_ (by simp) (by simp)]
  · rw [takePostCheck_none]
    · rfl
    · simp only [State.complete, State.eng_modEng, State.eng_tick, State.eng_seal_false, State.eng_eret, State.eng_cycles]
      exact h.clean
  · have heven' : (s1.bank c.slot).epsw[0] = false := heven
    simp [M.exec_bind, exec_map, onlyRa, hl, hb, hc, hm, h0, hpriv, hres, heven', hkey']

end Sys2Proof.Machine

namespace Sys2Proof.Proofs

open Sys2Proof Sys2Proof.Machine

/-- Settles O21: the banks and the slots are those of `State.eret` after the 12 cycles; the engine and the counters follow from the steps around it. -/
theorem returnRule : Obligations.Return := by
  intro s s1 c x hra h0 hlen hbegins b y m j hpriv hres hres' heven hkey
  have hreserved : pswReserved b.epsw = false := by simp [pswReserved, hres, hres']
  have haside : Aside s1 (s1.cycles c.e (pswFTM b.psw) 12) c.e := cycles_aside ..
  have hlevel : (s1.cycles c.e (pswFTM b.psw) 12).returnLevel c.e c.n = m := returnLevel_of_still haside.slots ..
  have hnest : ((s1.cycles c.e (pswFTM b.psw) 12).slot (slotOf c.e c.n.val)).nest = y.nest := nest_of_still (haside.slots c.slot)
  refine ⟨_, hbegins.eret hra h0 hlen hpriv hreserved heven hkey, fun i => ?_, ?_, ?_, ?_⟩
  · have hbank := State.bank_eret (s1.cycles c.e (pswFTM b.psw) 12) c.e c.n i
    simp only [hlevel, hnest, State.bank_cycles, haside.restorePsw] at hbank
    simp only [State.bank_modEng, State.bank_tick, State.bank_seal]
    exact hbank
  · simp [State.eng_seal_false, State.eng_eret]
    rfl
  · have htally := ((((((Tally.refl s1 c.e).cycles (pswFTM b.psw) 12).eret c.n).tick 7 1 (by omega)).keep fun o => State.reg_seal _ c.e false o).tick 1 1
      (by omega)).keep fun o => State.reg_modEng _ c.e (fun y => { y with lineBuf := [] }) o
    exact htally.perm (((List.Perm.swap ..).cons _).cons _)
  · have hreturn := ((((haside.eret c.n).trans (tick_aside _ c.e _ 7 1)).trans (seal_aside _ _ false)).trans (tick_aside _ c.e _ 1 1)).trans
      (modEng_aside _ _ fun y => { y with lineBuf := [] })
    exact hreturn

end Sys2Proof.Proofs
end

section
/-! SUPPORT. What an exception's entry and the end of a quiesce sequence leave, and the states that refute O18, O49 and O51. -/

namespace Sys2Proof.Machine

/-- An entry ends what a stop at a commit point has kept: something has been entered since (R282). -/
theorem State.intact_enterExc (s : State) (e : Eng) (t : Fin 8) (v : Nat) (n : Option (Fin 8)) (x : Exc) : ((s.enterExc e t v n x).eng e).intact = false := by
  unfold State.enterExc
  exact congrArg Engine.intact (State.eng_modEng ..)

theorem State.deliver_of_target {s : State} {e : Eng} {n : Fin 8} {x : Exc} {t : Fin 8} {v : Nat} (h : s.excTarget e n x.cause.toNat = some (t, v)) :
    s.deliver e n x = s.enterExc e t v (some n) x := by
  rw [State.deliver, h]

end Sys2Proof.Machine

namespace Sys2Proof.Proofs

open Sys2Proof Sys2Proof.Machine

/-! ### An exception's entry (O18) -/

/-- Engine 0 has stopped at a commit point of level 0, whose vector-table entry 1 is VALID. -/
def stoppedAtCommit : State := { State.reset with vectors := [(1, 1)] }.modEng 0 fun y => { y with intact := true }

/-- Refutes O18: an entry clears the mark that the running level has stopped at a commit point (R282), as when the resume of an instruction faults in its
fetch, and `Enters` keeps every field of the engine but its line buffer and its clock. `Enters` leaves out as well the QSTOP that an entry into another
level sets on a level of a domain that quiesces (R34, R292). -/
theorem not_exceptionDelivery : ¬ Obligations.ExceptionDelivery := by
  intro h
  have htarget : stoppedAtCommit.excTarget 0 0 0x20 = some (0, 1) := by decide +kernel
  have hown : OwnTarget stoppedAtCommit 0 0 1 := by unfold OwnTarget; decide +kernel
  have henters := (h stoppedAtCommit 0 0 0 { cause := 0x20, detail := 0, eaddr := 0, ilen := 4 } 1 (by decide) (by decide +kernel)).1 (by decide) hown
  have hengine := congrArg Engine.intact henters.2.1
  rw [State.deliver_of_target htarget, State.intact_enterExc] at hengine
  have hbefore : (stoppedAtCommit.eng 0).intact = true := by decide +kernel
  exact Bool.false_ne_true (hengine.trans hbefore)

/-! ### DOMAIN_CREATE over a key that cannot be read (O49) -/

/-- DOMAIN_CREATE of domain 1, with its level-1 table in the first frame of engine 0's local store and its error queue of 16 entries there too. -/
def creationPacket : Packet :=
  let p : List Byte := [1, 0, 0, 1, 0, 0, 0, 0] ++ natLE 8 0x210000000000 ++ natLE 8 0x210000000000 ++ [4] ++ List.replicate 7 0
  { opcode := 0x0301, flags := 0, fmt := 1, tag := 0, plen := 32, hcrc := packetCrc (packetHead 0x0301 0 1 0 32) p, data := p }

/-- A part in WATCH with a plan of version 1 in force, in which slot 1 belongs to domain 1. That frame is locked to domain 1, and the next read of its entry
in the key store finds two failing bits. Keeper has the packet. -/
def damagedKey : State :=
  let s := State.reset
  let plan : Image := { header := List.replicate 8 0 ++ [1, 0, 0, 0] ++ List.replicate 276 0, body := [], source := 0, forced := false }
  { s with
    power := { s.power with part := .watch },
    owners := [(1, 1)],
    mem := { s.mem with keys := [(0x210000000, { lock := 1, share := 0 })],
                        errs := [(2 ^ 41 + 0x210000000, some { rank := false, subchannel := false, reads := [[0, 1]] })] },
    keeper := { s.keeper with busy := true, running := none, needInit := false, inForce := s.keeper.inForce.set 3 (some plan), submitted := some creationPacket } }

/-- The status of the reply under way. -/
def replyStatus : Host.Outcome State Fault Refusal → Option (BitVec 16)
  | .next u => u.keeper.running.map (·.status)
  | _ => none

/-- DOMAIN_CREATE finds that the key cannot be read, and answers HW_FAULT. -/
theorem replyStatus_damagedKey : replyStatus (exec (.domainCreate .accepted) damagedKey) = some (BitVec.ofNat 16 hwFault) := by decide +kernel

/-- The state in which Keeper has taken the packet up. -/
def damagedKeyTaken : State := { damagedKey with keeper := { damagedKey.keeper with submitted := none } }

/-- The command that Keeper has taken up. -/
def createCommand : Submitted := { pkt := creationPacket, smbus := false, fault := creationPacket.fault false false }

theorem takes_damagedKey : Takes damagedKey .accepted 0x0301 creationPacket.params createCommand damagedKeyTaken :=
  ⟨damagedKeyTaken, _, rfl, by decide +kernel, by decide +kernel, rfl, rfl, by decide +kernel, rfl⟩

/-- Refutes O49: the key of the error queue's frame can be read as far as anything has shown, but Keeper's own read of it finds it lost, and the command
answers HW_FAULT where the statement has OK (R248, R589). -/
theorem not_keeperDomains : ¬ Obligations.KeeperDomains := by
  intro h
  obtain ⟨hcreate, -⟩ := h.2 _ _ _ _ _ _ takes_damagedKey
  obtain ⟨-, -, -, -, hchecked⟩ := hcreate rfl
  have hmay : (damagedKeyTaken.dom 1).state = .absent ∧ damagedKeyTaken.verPlan ≠ 0 ∧ damagedKeyTaken.keeper.needInit = false := by decide +kernel
  obtain ⟨-, hanswers⟩ := hchecked (by decide +kernel) hmay (by decide +kernel) (by decide +kernel)
  obtain ⟨u, hreply, -⟩ := hanswers (by decide +kernel) (by decide +kernel) fun f hfirst hlast => by
    have hbase : (readCreate creationPacket.params).eqbase = 0x210000000000 := by decide +kernel
    have hlogn : (readCreate creationPacket.params).eqlogn = 4 := by decide +kernel
    simp only [hbase, hlogn] at hfirst hlast
    obtain rfl : f = 0x210000000 := by omega
    decide +kernel
  have hok : replyStatus (.next (replying u createCommand 0 [])) = some 0 := rfl
  rw [← hreply, replyStatus_damagedKey] at hok
  exact absurd hok (by decide)

/-! ### A quiesce sequence that ends (O51) -/

/-- An engine without a running level has nothing to stop: every quiesce sequence that can end now ends. -/
theorem exec_qstopSet_of_idle {s : State} {e : Eng} (h : s.running e = none) : exec (.qstopSet e) s = .next s.settleAll := by
  have hexec : exec (.qstopSet e) s = execQstopSet e s := rfl
  rw [hexec, execQstopSet, h]

/-- A part at reset, but for domain 1, which quiesces and owns no slot. -/
def quiescingAlone : State := State.reset.modDom 1 fun y => { y with state := .quiescing }

/-- Refutes O51: QSTOP_SET on an engine without a running level ends every quiesce sequence that has nothing left in progress, domain 1's here, and the
statement has the part unchanged. -/
theorem not_powerEvents : ¬ Obligations.PowerEvents := by
  intro h
  obtain ⟨-, -, -, -, -, hstop⟩ := h
  have hidle : quiescingAlone.running 0 = none := by decide +kernel
  have hkeeps := (hstop quiescingAlone 0).2 hidle
  have hsame : quiescingAlone.settleAll = quiescingAlone := by injection (exec_qstopSet_of_idle hidle).symm.trans hkeeps
  have hend : (quiescingAlone.settleAll.dom 1).state = .quiesced := by decide +kernel
  have hbefore : (quiescingAlone.dom 1).state = .quiescing := by decide +kernel
  rw [hsame, hbefore] at hend
  exact absurd hend (by decide)

end Sys2Proof.Proofs
end

section
/-! SUPPORT. Operands in memory (R79, R91, R92, R102, R175, R226): where an operand lies, what a read and a write of normal memory do, and the integer
loads and stores. -/

namespace Sys2Proof.Machine

/-! ### A work that uses memory and then writes its bank -/

section
variable {s s1 s2 : State} {c : Cx} {pred : BitVec 4} {len : Len} {m : Macro} {n : Nat} {i : Instr}

/-- The completion of an instruction whose work, once memory has left `s2`, changes the bank once. -/
theorem Begins.completesFrom1 {f : Bank → Bank} (h : Begins s c pred s1) (hc : (s2.eng c.e).postCheck = none) (hl : c.len = len.bytes)
    (hi : exec i s = macroNext c.e pred len m s) (hb : (m.body c).exec s1 = (.ok .seq, s2.modBank c.slot f))
    (hm : m.selfTimed = false := by rfl) (hn : m.count c s1 = n := by rfl) : Completes i s s2 c n f :=
  h.completesFrom hc hl hi hb hm hn (Rebank.one _ _ _) rfl rfl

/-- The same, for a work that changes the bank twice. -/
theorem Begins.completesFrom2 {f1 f2 g : Bank → Bank} (h : Begins s c pred s1) (hc : (s2.eng c.e).postCheck = none) (hl : c.len = len.bytes)
    (hi : exec i s = macroNext c.e pred len m s) (hb : (m.body c).exec s1 = (.ok .seq, (s2.modBank c.slot f1).modBank c.slot f2))
    (hfg : f2 (f1 (s2.bank c.slot)) = g (s2.bank c.slot) := by rfl) (hm : m.selfTimed = false := by rfl) (hn : m.count c s1 = n := by rfl) :
    Completes i s s2 c n g :=
  h.completesFrom hc hl hi hb hm hn (Rebank.two _ _ _ _) rfl hfg

/-- The same, for a work that leaves the bank as memory has left it. -/
theorem Begins.completesFrom0 (h : Begins s c pred s1) (hc : (s2.eng c.e).postCheck = none) (hl : c.len = len.bytes)
    (hi : exec i s = macroNext c.e pred len m s) (hb : (m.body c).exec s1 = (.ok .seq, s2))
    (hm : m.selfTimed = false := by rfl) (hn : m.count c s1 = n := by rfl) : Completes i s s2 c n id :=
  h.completesFrom hc hl hi hb hm hn (Rebank.refl _ _) rfl rfl
end

/-! ### Effective addresses (R91) -/

/-- A displacement or an immediate of 32 bits in 12 bytes, and of `w` bits otherwise, extended with its sign. -/
theorem sext_by_length (len : Len) (w : Nat) (x : BitVec 32) :
    sext (if len = .l12 then 32 else w) x.toNat = if len = .l12 then x.signExtend 64 else (x.truncate w).signExtend 64 := by
  split
  · rw [sext, BitVec.ofNat_toNat, BitVec.setWidth_eq]
  · rw [sext, BitVec.ofNat_toNat]

theorem baseDisp_eq (b : Bank) (bs : BitVec 4) (len : Len) (disp : BitVec 32) :
    baseDisp b bs (dispWidth len) disp = b.getG bs + if len = .l12 then disp.signExtend 64 else (disp.truncate 20).signExtend 64 :=
  congrArg (b.getG bs + ·) (sext_by_length len 20 disp)

/-- The address of a base, a displacement and an index. -/
theorem addressOf_eq (b : Bank) (bs ix : BitVec 4) (disp : BitVec 32) (len : Len) :
    addressOf bs ix disp len b = (if ix = 0 then baseDisp b bs (dispWidth len) disp else baseDisp b bs (dispWidth len) disp + b.getG ix).toNat := by
  rw [addressOf, baseDisp_eq]
  by_cases hix : ix = 0
  · rw [if_pos hix, if_pos hix, add_zero]
  · rw [if_neg hix, if_neg hix]

end Sys2Proof.Machine

namespace Sys2Proof

open Sys2Proof.Machine

theorem FmtB.ea_eq (x : FmtB) (b : Bank) : x.ea b = addressOf x.bs x.ix x.disp x.len b := (addressOf_eq ..).symm

theorem FmtD.ea_eq (x : FmtD) (b : Bank) : x.ea b = addressOf x.bs x.ix x.disp x.len b := (addressOf_eq ..).symm

theorem FmtXB.ea_eq (x : FmtXB) (b : Bank) : x.ea b = addressOf x.bs 0 x.disp x.len b := ((addressOf_eq ..).trans (congrArg _ (if_pos rfl))).symm

/-- The checks on the size of an operand pass. -/
theorem SizeOf.checks {x : FmtB} {k : Nat} (h : SizeOf x k) : [Len.l6, .l8, .l12].contains x.len = true ∧ x.sizeOnly = true ∧ x.sizeCode = k := by
  obtain ⟨hl, rfl⟩ | ⟨hl | hl, hm, hm2, rfl⟩ := h
  · simp [FmtB.sizeOnly, FmtB.sizeCode, hl]
  · simp [FmtB.sizeOnly, FmtB.sizeCode, hl, hm, hm2]
  · simp [FmtB.sizeOnly, FmtB.sizeCode, hl, hm, hm2]

end Sys2Proof

namespace Sys2Proof

open Sys2Proof.Machine

/-! ### Normal memory (R102, R226) -/

section
variable {s : State} {c : Cx} {ea n : Nat} {ps : List (Nat × Nat)} {rule : DeviceRule}

/-- A memory access begins with the wait for posts, of which there are none, and the checks of its pieces, which change caches and TLBs alone. -/
theorem InMemory.checked {acc : Acc} (h : InMemory c acc ea n s ps) (q : Quiet s) (rule : DeviceRule) :
    ∃ t, M.exec (checkedPieces c acc ea n rule) (s.awaitPosts c.e) = (.ok ps, t) ∧ t.anyDevice ps = false ∧ (addrsOf ps).length = n ∧ Calm none s t := by
  obtain ⟨t, ht, hdevice, hlen⟩ := h
  rw [awaitPosts_none s c.e (q.posts c.e)]
  exact ⟨t, checkedPieces_normal ht hdevice, hdevice, hlen, pieces_calm_run q ht⟩

/-- A read of pieces that have passed their checks answers what the engine sees, and changes nothing that it sees. -/
theorem readPieces_reads {t : State} (q : Quiet s) (ht : Calm none s t) (hp : ∀ l ∈ linesOfPieces ps, tget false s.mem.poison l = false) :
    ∃ u, M.exec (readPieces c.e ea ps) t = (.ok ((addrsOf ps).map (s.seen c.e)), u) ∧ Calm (some c.e) s u ∧ ∀ a, u.seen c.e a = s.seen c.e a := by
  have hcalm : Calm (some c.e) s t := ht.loosen c.e
  obtain ⟨l, u, hu⟩ := readPieces_answers ea hcalm q fun l hl => by rw [ht.poison]; exact hp l hl
  obtain ⟨⟨hafter, hseen⟩, rfl⟩ := readPieces_seen hcalm q hu
  have hsame : t.seen c.e = s.seen c.e := funext fun a => ht.seen c.e a
  exact ⟨u, by rw [hu, hsame], hafter, fun a => by rw [hseen, hsame]⟩

/-- A load of an operand in normal memory is the read of its pieces. -/
theorem exec_load_normal {t : State} (hpieces : M.exec (checkedPieces c .read ea n rule) (s.awaitPosts c.e) = (.ok ps, t)) (hdevice : t.anyDevice ps = false)
    (dest : LoadDest) : M.exec (load c ea n rule dest) s = M.exec (some <$> readPieces c.e ea ps) t := by
  rw [map_eq_pure_bind]
  unfold load
  simp only [M.exec_bind, M.exec_modify, hpieces, M.exec_get, hdevice]

theorem exec_loadNormal {t : State} (hpieces : M.exec (checkedPieces c .read ea n .never) (s.awaitPosts c.e) = (.ok ps, t)) :
    M.exec (loadNormal c ea n) s = M.exec (readPieces c.e ea ps) t := by
  unfold loadNormal
  simp only [M.exec_bind, M.exec_modify, hpieces]

/-- A store of an operand in normal memory is the write of its pieces. -/
theorem exec_store_normal {t : State} {l : List Byte} (hpieces : M.exec (checkedPieces c .write ea l.length rule) (s.awaitPosts c.e) = (.ok ps, t))
    (hdevice : t.anyDevice ps = false) : M.exec (store c ea l rule) s = M.exec (writePieces c.e ps l false false) t := by
  unfold store
  simp only [M.exec_bind, M.exec_modify, hpieces, M.exec_get, hdevice]
end

theorem normalReadsRules_holds : normalReadsRules := by
  intro s c ea n ps rule dest q hmem hpoison
  constructor
  · obtain ⟨t, hpieces, hdevice, -, hcalm⟩ := hmem.checked q rule
    obtain ⟨u, hread, hrest⟩ := readPieces_reads (c := c) (ea := ea) q hcalm hpoison
    exact ⟨u, by rw [exec_load_normal hpieces hdevice, exec_map, hread], hrest⟩
  · obtain ⟨t, hpieces, -, -, hcalm⟩ := hmem.checked q .never
    obtain ⟨u, hread, hrest⟩ := readPieces_reads (c := c) (ea := ea) q hcalm hpoison
    exact ⟨u, by rw [exec_loadNormal hpieces, hread], hrest⟩

theorem normalWritesRules_holds : normalWritesRules := by
  intro s c ea l ps rule q hmem
  obtain ⟨t, hpieces, hdevice, hlen, hcalm⟩ := hmem.checked q rule
  obtain ⟨u, hwrite, hafter, hseen⟩ := writePieces_seen (ps := ps) (l := l) false false (hcalm.loosen c.e) q hlen.symm
  have hreads : ∀ a, u.seen c.e a = overs (s.seen c.e) ps l a := fun a => (hseen a).trans (overs_congr (fun b => hcalm.seen c.e b) ps l a)
  refine ⟨u, by rw [exec_store_normal hpieces hdevice, hwrite], hafter, fun a ha => ?_, fun hnodup => ?_⟩
  · rw [hreads, overs_other _ _ _ _ ha]
  · rw [List.map_congr_left fun a _ => hreads a, overs_same _ _ _ hlen.symm hnodup]

end Sys2Proof

namespace Sys2Proof.Machine

/-! ### The integer loads and stores (R79, R175) -/

section
variable {s s1 s2 : State} {c : Cx} {x : FmtB} {k : Nat}

theorem exec_loadOp (hx : SizeOf x k) {signed : Bool} {l : List Byte}
    (hload : (load c (addressOf x.bs x.ix x.disp x.len (s1.bank c.slot)) (2 ^ k) (.aligned (2 ^ k)) (.g x.ra (2 ^ k) signed)).exec s1 = (.ok (some l), s2)) :
    M.exec ((loadOp x signed).body c) s1 = (.ok .seq, s2.modBank c.slot fun b => b.putG x.ra (loadedWord l signed)) := by
  obtain ⟨hlen, hsize, rfl⟩ := hx.checks
  simp only [loadOp, M.exec_bind, exec_lengthIn, hlen, exec_require, hsize, if_true, exec_getBank, x.ea_eq, hload, exec_setG, M.exec_pure]

end

end Sys2Proof.Machine

namespace Sys2Proof.Proofs

open Sys2Proof Sys2Proof.Machine

/-- Settles O10: the pieces are found without a change to what the engine sees, and `readPieces` and `writePieces` do the rest. -/
theorem normalAccess : Obligations.NormalAccess := ⟨normalReadsRules_holds, normalWritesRules_holds⟩

/-- Settles O11: each body is its checks, one access of memory and at most one register. -/
theorem loadStoreResults : Obligations.LoadStoreResults := by
  intro s s1 s2 c hc
  refine ⟨fun x k hl hbegins hx => ⟨fun l hload => ?_, fun l hload => ?_, fun hstore => ?_⟩, fun x hl hbegins hlen hmod hstore => ?_⟩
  · exact hbegins.completesFrom1 hc hl rfl (exec_loadOp hx hload)
  · exact hbegins.completesFrom1 hc hl rfl (exec_loadOp hx hload)
  · obtain ⟨hlen, hsize, rfl⟩ := hx.checks
    refine hbegins.completesFrom0 hc hl rfl ?_
    simp only [M.exec_bind, exec_lengthIn, hlen, exec_require, hsize, if_true, exec_getBank, x.ea_eq, M.exec_pure]
    rw [show (s1.bank c.slot).g[Machine.ix x.ra] = (s1.bank c.slot).getG x.ra from rfl, hstore]
  · refine hbegins.completesFrom0 hc hl rfl ?_
    have himm := sext_by_length x.len 12 x.imm
    have hlen' : [Len.l8, .l12].contains x.len = true := by obtain h | h := hlen <;> rw [h] <;> rfl
    simp only [M.exec_bind, exec_lengthIn, hlen', if_true, exec_zeroField, hmod, exec_getBank, x.ea_eq, himm, M.exec_pure]
    rw [hstore]

end Sys2Proof.Proofs
end

section
/-! SUPPORT. Fixed decimal (R49 to R51, R72 to R76, R106 to R133): the values and the images of operands by their digits, and how the shared steps of the
decimal instructions run. -/

namespace Sys2Proof.Machine

/-! ### Digits (R49, R72) -/

theorem nibbles_eq (n x : Nat) : nibbles n x = (List.range n).map fun i => x / 16 ^ i % 16 := by
  induction n generalizing x with
  | zero => rfl
  | succ n ih =>
    rw [nibbles, ih, List.range_succ_eq_map, List.map_cons, List.map_map]
    simp [Function.comp_def, Nat.pow_succ', Nat.div_div_eq_div_mul]

/-- Digits spell the sum of their weights. -/
theorem digitsVal_map_range (f : Nat → Nat) (n : Nat) : digitsVal ((List.range n).map f) = ((List.range n).map fun i => f i * 10 ^ i).sum := by
  induction n generalizing f with
  | zero => rfl
  | succ n ih =>
    rw [List.range_succ_eq_map, List.map_cons, List.map_map, digitsVal, ih]
    simp only [List.map_cons, List.map_map, List.sum_cons, Function.comp_def, Nat.pow_succ', pow_zero, Nat.mul_one]
    rw [← List.sum_map_mul_left]
    simp only [Nat.mul_left_comm]

theorem digitsVal_append (l k : List Nat) : digitsVal (l ++ k) = digitsVal l + 10 ^ l.length * digitsVal k := by
  induction l with
  | nil => simp [digitsVal]
  | cons d l ih => rw [List.cons_append, digitsVal, ih, digitsVal, List.length_cons, Nat.pow_succ']; ring

/-- No nibble is bad when each is a decimal digit. -/
theorem firstBad_eq_none {l : List Nat} {pos : Nat} : firstBad l pos = none ↔ ∀ d ∈ l, d < 10 := by
  induction l generalizing pos with
  | nil => simp [firstBad]
  | cons d l ih =>
    rw [firstBad]
    split
    · simp; omega
    · simp [ih]; omega

/-- Packed digits are the sum of theirs. -/
theorem bcd_eq (n v : Nat) : bcd n v = ((List.range n).map fun i => v / 10 ^ i % 10 * 16 ^ i).sum := by
  induction n generalizing v with
  | zero => rfl
  | succ n ih =>
    rw [bcd, ih, List.range_succ_eq_map, List.map_cons, List.map_map, List.sum_cons, ← List.sum_map_mul_left]
    simp [Function.comp_def, Nat.pow_succ', Nat.div_div_eq_div_mul, Nat.mul_left_comm]

theorem imageOf_eq (n m sign : Nat) : imageOf n m sign = sign + 16 * bcd n m := by
  rw [imageOf, bcd_eq, ← List.sum_map_mul_left]
  simp only [Nat.pow_succ', Nat.mul_left_comm]

theorem Finished.image_eq (f : Finished) (n : Nat) : f.image n = imageOf n f.mag f.sign := (imageOf_eq ..).symm

theorem signed_eq (minus : Bool) (m : Nat) : signed minus m = (if minus then -1 else 1) * (m : Int) := by
  cases minus <;> simp [signed]

theorem signMinus_iff (x : Nat) : signMinus x = true ↔ x = 0xB ∨ x = 0xD := by simp [signMinus]

theorem resultSign_decide (p : Prop) [Decidable p] (u : Bool) : resultSign (decide p) u = if p then 0xD else if u then 0xF else 0xC := by
  simp [resultSign]

/-! ### Sources (R51, R72 to R74, R106) -/

/-- A source is good when its sign nibble and its digits are. -/
theorem checkDigits_eq_ok {sign : Nat} {ds : List Nat} {v : Int} :
    checkDigits sign ds = .ok v ↔ 10 ≤ sign ∧ (∀ d ∈ ds, d < 10) ∧ v = signed (signMinus sign) (digitsVal ds) := by
  unfold checkDigits signOk
  by_cases hsign : 10 ≤ sign
  · cases hbad : firstBad ds 1 with
    | none => simpa [hsign, eq_comm] using fun _ => firstBad_eq_none.1 hbad
    | some p =>
      have hnot : ¬ ∀ d ∈ ds, d < 10 := fun h => by rw [firstBad_eq_none.2 h] at hbad; cases hbad
      simp only [hsign, hnot]
      simp
  · simp [hsign]

theorem checkPacked_eq_ok {n x : Nat} {v : Int} : checkPacked n x = .ok v ↔ PackedValue n x v := by
  have hdiv : ∀ i, x / 16 / 16 ^ i = x / 16 ^ (i + 1) := fun i => by rw [Nat.div_div_eq_div_mul, Nat.pow_succ']
  rw [checkPacked, checkDigits_eq_ok, PackedValue, nibbles_eq, digitsVal_map_range, signed_eq]
  simp only [signMinus_iff, hdiv, List.mem_map, List.mem_range, forall_exists_index, and_imp, forall_apply_eq_imp_iff₂]

/-- The digits of a good packed image without its sign. -/
theorem digits_of_packedValue {x : Nat} {v : Int} (h : PackedValue 63 (x / 16 * 16 + 0xC) v) :
    (∀ d ∈ nibbles 63 (x / 16), d < 10) ∧ v = digitsVal (nibbles 63 (x / 16)) := by
  have hsign : (x / 16 * 16 + 0xC) % 16 = 0xC := by omega
  have hdigits : (x / 16 * 16 + 0xC) / 16 = x / 16 := by omega
  have hcheck := checkPacked_eq_ok.2 h
  rw [checkPacked, hsign, hdigits, checkDigits_eq_ok] at hcheck
  exact ⟨hcheck.2.1, hcheck.2.2⟩

/-- The value of a decimal pair (R51). -/
theorem checkPair_eq_ok {even odd : Nat} {hi lo : Int} (heven : PackedValue 63 (even / 16 * 16 + 0xC) hi) (hodd : PackedValue 63 (odd / 16 * 16 + 0xC) lo)
    (hsign : 10 ≤ odd % 16) : checkPair even odd = .ok ((if odd % 16 = 0xB ∨ odd % 16 = 0xD then -1 else 1) * (hi * 10 ^ 63 + lo)) := by
  obtain ⟨hhi, rfl⟩ := digits_of_packedValue heven
  obtain ⟨hlo, rfl⟩ := digits_of_packedValue hodd
  rw [checkPair, checkDigits_eq_ok]
  refine ⟨hsign, fun d hd => (List.mem_append.1 hd).elim (hlo d) (hhi d), ?_⟩
  have hlength : (nibbles 63 (odd / 16)).length = 63 := by rw [nibbles_eq]; simp
  simp only [signed_eq, digitsVal_append, hlength, signMinus_iff]
  push_cast
  ring

/-! ### Steps of the decimal instructions -/

section
variable {s : State} {c : Cx} {r : BitVec 4} {v : Int} {n : Nat} {u : Bool} {f : Finished}

theorem exec_source_ok (operand : Nat) {e : Except (Nat × Nat) Int} (h : e = .ok v) : M.exec (source operand e) s = (.ok v, s) := by
  rw [h]
  rfl

theorem exec_sourceD (operand : Nat) (h : PackedValue 63 ((s.bank c.slot).getD r).toNat v) : M.exec (sourceD c operand r) s = (.ok v, s) := by
  unfold sourceD
  simp only [M.exec_bind, exec_getD]
  exact exec_source_ok operand (checkPacked_eq_ok.2 h)

theorem exec_sourceBytes (operand : Nat) {l : List Byte} (h : PackedValue (2 * l.length - 1) (beNat l) v) :
    M.exec (sourceBytes operand l) s = (.ok v, s) := exec_source_ok operand (checkPacked_eq_ok.2 h)

theorem exec_finishM (h : finish (pswDOE (s.bank c.slot).psw) v n u = .ok f) : M.exec (finishM c v n u) s = (.ok f, s) := by
  unfold finishM
  simp only [M.exec_bind, exec_getPsw, h]
  rfl

/-- The state with a finished result in D(r) and in CC. -/
def State.withResult (s : State) (c : Cx) (r : BitVec 4) (f : Finished) : State :=
  (s.modBank c.slot fun b => b.putD r (BitVec.ofNat 256 (f.image 63))).modBank c.slot fun b => b.putCC f.cc

theorem exec_putD (c : Cx) (r : BitVec 4) (f : Finished) (s : State) : M.exec (putD c r f) s = (.ok (), s.withResult c r f) := rfl

/-- The completion of an instruction whose work leaves a finished result in its bank. -/
theorem Begins.completesResult {s1 s2 : State} {pred : BitVec 4} {len : Len} {m : Macro} {n : Nat} {i : Instr} (h : Begins s c pred s1)
    (hc : (s2.eng c.e).postCheck = none) (hl : c.len = len.bytes) (hi : exec i s = macroNext c.e pred len m s)
    (hb : (m.body c).exec s1 = (.ok .seq, s2.withResult c r f)) (hm : m.selfTimed = false := by rfl) (hn : m.count c s1 = n := by rfl) :
    Completes i s s2 c n (putResult r f) :=
  h.completesFrom2 hc hl hi hb rfl hm hn
end

end Sys2Proof.Machine

namespace Sys2Proof.Proofs

open Sys2Proof Sys2Proof.Machine

/-! ### Division, shift and rounding (R51, R116, R117, R122, R125, R126) -/

theorem decimalDivideRules_holds : decimalDivideRules := by
  intro s s1 c x hi lo q f hlen hc hbegins k even odd u a hra hrb hrc heven hbeven hmod hhi hlo hsign hq hne hfinish
  have hl4 : [Len.l4].contains x.len = true := by rw [hlen]; rfl
  have hsource : M.exec (source 1 (checkPair ((s1.bank c.slot).getD x.rb).toNat ((s1.bank c.slot).getD (x.rb + 1)).toNat)) s1 = (.ok a, s1) :=
    exec_source_ok 1 (checkPair_eq_ok hhi hlo hsign)
  have hresult : M.exec (finishM c (a.tdiv q) 63 (bit x.mod 0)) s1 = (.ok f, s1) := exec_finishM hfinish
  have himage : (⟨(a.tmod q).natAbs, resultSign (decide (a.tmod q < 0)) (bit x.mod 0), f.cc⟩ : Finished).image 63 =
      imageOf 63 (a.tmod q).natAbs (if a.tmod q < 0 then 0xD else if u then 0xF else 0xC) := by
    rw [Finished.image_eq, resultSign_decide]
  refine hbegins.completes3 (f1 := fun b => b.putD x.ra (BitVec.ofNat 256 (f.image 63))) (f2 := fun b => b.putCC f.cc)
    (f3 := fun b => b.putD (x.ra + 1) (BitVec.ofNat 256 (imageOf 63 (a.tmod q).natAbs (if a.tmod q < 0 then 0xD else if u then 0xF else 0xC))))
    (by rw [hlen]; exact hc) rfl ?_ rfl
  simp only [M.exec_bind, exec_lengthIn, hl4, exec_lowReg, hra, hrb, hrc, exec_evenReg, heven, hbeven, exec_zeroField, hmod, exec_getD, hsource,
    exec_sourceD 2 hq, if_neg hne, hresult, exec_putD, State.withResult, exec_setD, Bool.false_eq_true, if_true, if_false, M.exec_pure, himage]

/-- A byte in the low half of an immediate of 16 bits. -/
theorem field_zeroExtend_byte (v : BitVec 8) : field (v.zeroExtend 16) 0 8 = v ∧ field (v.zeroExtend 16) 8 8 = (0 : BitVec 8) := by
  constructor
  · refine BitVec.eq_of_getLsbD_eq fun i hi => ?_
    simp [hi]
    omega
  · refine BitVec.eq_of_getLsbD_eq fun i hi => ?_
    simp

/-- The fields of DSH and DRN pass their checks and name the places `v`. -/
theorem exec_placesField {s : State} {c : Cx} {x : FmtA} {v : BitVec 8} (hra : x.ra.toNat ≤ 7) (hrb : x.rb.toNat ≤ 7) (hmod : field x.mod 4 2 = 0)
    (hmode : (field x.mod 0 3).toNat < 7)
    (hv : x.len = .l4 ∧ v = field ((s.bank c.slot).getG x.rc) 0 8 ∨ x.len = .l6 ∧ x.rc = 0 ∧ x.imm = v.zeroExtend 16) :
    M.exec (placesField c x) s = (.ok v, s) := by
  have hnot7 : ((field x.mod 0 3 : BitVec 3) != 7) = true := by
    rw [bne_iff_ne]
    intro h
    rw [h] at hmode
    exact absurd hmode (by decide)
  unfold placesField
  obtain ⟨hlen, rfl⟩ | ⟨hlen, hrc, himm⟩ := hv
  · have hl : [Len.l4, .l6].contains x.len = true := by rw [hlen]; rfl
    have hnot6 : x.len ≠ .l6 := by rw [hlen]; decide
    simp only [M.exec_bind, exec_lengthIn, hl, exec_lowReg, hra, hrb, exec_zeroField, hmod, exec_require, hnot7, if_true, if_neg hnot6, exec_getG,
      M.exec_pure]
  · have hl : [Len.l4, .l6].contains x.len = true := by rw [hlen]; rfl
    obtain ⟨hlow, hhigh⟩ := field_zeroExtend_byte v
    simp only [M.exec_bind, exec_lengthIn, hl, exec_lowReg, hra, hrb, exec_zeroField, hmod, exec_require, hnot7, if_true, if_pos hlen, hrc, himm, hhigh, hlow,
      M.exec_pure]

theorem decimalShiftRules_holds : decimalShiftRules := by
  intro s s1 c x a v f hl hbegins k mode hra hrb hmod hmode hq hv
  have hplaces := exec_placesField hra hrb hmod hmode hv
  refine ⟨fun hlow hhigh hfinish => ?_, fun hp hfinish => ?_⟩
  · have hresult : M.exec (finishM c (if 0 ≤ v.toInt then a * 10 ^ v.toInt.toNat else roundKept a (-v.toInt).toNat (field x.mod 0 3).toNat) 63 (bit x.mod 3)) s1
        = (.ok f, s1) := exec_finishM hfinish
    refine hbegins.completesResult hbegins.clean hl rfl ?_
    simp only [M.exec_bind, hplaces, exec_require, decide_eq_true hlow, decide_eq_true hhigh, Bool.and_self, if_true, exec_sourceD 1 hq, hresult, exec_putD,
      M.exec_pure]
  · have hresult : M.exec (finishM c (roundKept a v.toNat (field x.mod 0 3).toNat * 10 ^ v.toNat) 63 (bit x.mod 3)) s1 = (.ok f, s1) := exec_finishM hfinish
    refine hbegins.completesResult hbegins.clean hl rfl ?_
    simp only [M.exec_bind, hplaces, exec_require, decide_eq_true hp, if_true, exec_sourceD 1 hq, hresult, exec_putD, M.exec_pure]

/-- Settles O6: each body is its checks, its sources by their digits, and one result by the result rule. -/
theorem decimalDivideAndShift : Obligations.DecimalDivideAndShift := ⟨decimalDivideRules_holds, decimalShiftRules_holds⟩

end Sys2Proof.Proofs

namespace Sys2Proof.Machine

/-! ### Packed and zoned operands (R113, R118, R120, R123, R127 to R130) -/

/-- The checks of a packed operand's fields. -/
theorem checks_of_packedLen {x : FmtB} {n : Nat} (h : PackedLen x n) : [Len.l6, .l8, .l12].contains x.len = true ∧ packedLen x = n ∧ x.mod2 = 0
    ∧ (x.len ≠ .l6 → [Len.l8, .l12].contains x.len = true) := by
  obtain ⟨hmod2, ⟨hlen, rfl⟩ | ⟨hlen | hlen, rfl⟩⟩ := h <;> simp [packedLen, hlen, hmod2]

theorem field_one_eq_zero {n : Nat} {x : BitVec n} {k : Nat} (h : bit x k = false) : (field x k 1 : BitVec 1) = 0 := by
  refine BitVec.eq_of_getLsbD_eq fun i hi => ?_
  obtain rfl : i = 0 := by omega
  have hk : x.getLsbD k = false := h
  rw [getLsbD_field, Nat.add_zero, hk, Bool.and_false]
  rfl

theorem exec_zonedFields {x : FmtB} {n : Nat} {form : ZonedForm} (h : Zoned x n form) (s : State) : M.exec (zonedFields x) s = (.ok (n, form), s) := by
  obtain ⟨hlen, hra, hmod2, rfl, hn, hform⟩ := h
  have hl : [Len.l8, .l12].contains x.len = true := by obtain h | h := hlen <;> rw [h] <;> rfl
  have hzoned : zonedForm (field x.mod2 0 2 : BitVec 2).toNat = some form := by rw [hform]; cases form <;> rfl
  unfold zonedFields
  simp only [M.exec_bind, exec_lengthIn, hl, exec_lowReg, hra, exec_zeroField, hmod2, exec_require, decide_eq_true hn, if_true, hzoned, M.exec_pure]

theorem zonedCount_eq {x : FmtB} {n : Nat} {form : ZonedForm} (h : Zoned x n form) : zonedCount x = 6 + (zonedBytes n form + 7) / 8 := by
  obtain ⟨-, -, -, rfl, -, hform⟩ := h
  rw [zonedCount, hform]
  cases form <;> rfl

end Sys2Proof.Machine

namespace Sys2Proof.Proofs

open Sys2Proof Sys2Proof.Machine

section
variable {s s1 s2 s3 : State} {c : Cx} {x : FmtB}

theorem exec_writesTo {ea n : Nat} {ps : List (Nat × Nat)} (h : WritesTo c ea n s1 s2 ps) :
    M.exec (checkedPieces c .write ea n .never) (s1.awaitPosts c.e) = (.ok ps, s2) := by
  unfold WritesTo at h
  rwa [M.exec_bind, M.exec_modify] at h
end

theorem decimalMemoryRules_holds : decimalMemoryRules := by
  intro s s1 s2 s3 c x hl hbegins ea ew doe
  refine ⟨fun hc l => ⟨fun n v hn hra h5 hload hv => ?_, fun n hn hlen h5 hra hload => ?_, fun n form v f hx hload hv hfinish => ?_⟩,
    fun hc hra ps v f hv => ⟨fun n hn hto hfinish hwrite => ?_, fun n form hx hto hfinish hwrite => ?_⟩⟩
  · obtain ⟨hl6, rfl, hmod2, -⟩ := checks_of_packedLen hn
    have hload' : M.exec (loadNormal c (x.ea (s1.bank c.slot)) (packedLen x)) s1 = (.ok l, s2) := by rw [x.ea_eq]; exact hload
    refine hbegins.completesFrom2 (f1 := fun b => b.putD x.ra (BitVec.ofNat 256 (beNat l))) (f2 := fun b => b.putCC (ccValue v)) hc hl rfl ?_
    by_cases hlen : x.len = .l6
    · simp only [M.exec_bind, exec_lengthIn, hl6, exec_lowReg, hra, if_neg (not_not.2 hlen), if_true, exec_zeroField, hmod2, exec_getBank, hload',
        exec_sourceBytes 1 hv, exec_setD, exec_setCC, M.exec_pure]
    · simp only [M.exec_bind, exec_lengthIn, hl6, exec_lowReg, hra, if_pos hlen, if_true, exec_zeroField, field_one_eq_zero (h5 hlen), hmod2, exec_getBank, hload',
        exec_sourceBytes 1 hv, exec_setD, exec_setCC, M.exec_pure]
  · obtain ⟨-, rfl, hmod2, hl8⟩ := checks_of_packedLen hn
    have hbytes : packedLen x = (field x.mod 0 5 : BitVec 5).toNat + 1 := if_neg hlen
    have hload' : M.exec (loadNormal c (x.ea (s1.bank c.slot)) ((field x.mod 0 5 : BitVec 5).toNat + 1)) s1 = (.ok l, s2) := by
      rw [x.ea_eq, ← hbytes]
      exact hload
    rw [hbytes]
    refine hbegins.completesFrom1 hc hl rfl ?_
    simp only [M.exec_bind, exec_lengthIn, hl8 hlen, if_true, exec_zeroField, hra, field_one_eq_zero h5, hmod2, exec_getBank, hload', exec_setCC, M.exec_pure]
  · have hload' : M.exec (loadNormal c (x.ea (s1.bank c.slot)) (zonedBytes n form)) s1 = (.ok l, s2) := by rw [x.ea_eq]; exact hload
    refine hbegins.completesResult hc hl rfl ?_ rfl (zonedCount_eq hx)
    simp only [M.exec_bind, exec_zonedFields hx, exec_getBank, hload', exec_source_ok 1 hv, exec_finishM hfinish, exec_putD, M.exec_pure]
  · obtain ⟨hl6, rfl, hmod2, -⟩ := checks_of_packedLen hn
    have hpieces : M.exec (checkedPieces c .write (x.ea ((s1.awaitPosts c.e).bank c.slot)) (packedLen x) .never) (s1.awaitPosts c.e) = (.ok ps, s2) := by
      rw [x.ea_eq]
      exact exec_writesTo hto
    have hu : (x.len != .l6 && bit x.mod 5) = decide (x.len ≠ .l6 ∧ bit x.mod 5 = true) := by
      rw [Bool.eq_iff_iff, decide_eq_true_eq, Bool.and_eq_true, bne_iff_ne]
    have hresult : M.exec (finishM c v (2 * packedLen x - 1) (x.len != .l6 && bit x.mod 5)) s2 = (.ok f, s2) := by
      rw [hu]
      exact exec_finishM hfinish
    refine hbegins.completesFrom1 hc hl rfl ?_
    simp only [M.exec_bind, exec_lengthIn, hl6, exec_lowReg, hra, if_true, exec_zeroField, hmod2, M.exec_modify, exec_getBank, hpieces, exec_sourceD 1 hv, hresult,
      hwrite, exec_setCC, M.exec_pure]
  · have hpieces : M.exec (checkedPieces c .write (x.ea ((s1.awaitPosts c.e).bank c.slot)) (zonedBytes n form) .never) (s1.awaitPosts c.e) = (.ok ps, s2) := by
      rw [x.ea_eq]
      exact exec_writesTo hto
    refine hbegins.completesFrom1 hc hl rfl ?_ rfl (zonedCount_eq hx)
    simp only [M.exec_bind, exec_zonedFields hx, M.exec_modify, exec_getBank, hpieces, exec_sourceD 1 hv, exec_finishM hfinish, hwrite, exec_setCC, M.exec_pure]

/-! ### Memory to memory (R120, R123) -/

section
variable {s s1 s2 s3 s4 s5 : State} {c : Cx} {x : FmtC} {a1 a2 : Nat} {p1 p2 : List (Nat × Nat)} {l1 l2 : List Byte} {v1 v2 : Int} {f : Finished}

/-- The work of DADM and DSBM. -/
theorem exec_memoryAdd {g : Int → Int → Int} (hboth : M.exec (bothOperands c x .read true) s1 = (.ok (a1, p1, a2, p2), s2))
    (hread1 : M.exec (readPieces c.e a1 p1) s2 = (.ok l1, s3)) (hread2 : M.exec (readPieces c.e a2 p2) s3 = (.ok l2, s4))
    (hv1 : PackedValue (2 * l1.length - 1) (beNat l1) v1) (hv2 : PackedValue (2 * l2.length - 1) (beNat l2) v2)
    (hfinish : finish (pswDOE (s4.bank c.slot).psw) (g v1 v2) (2 * FmtC.len1 x - 1) false = .ok f)
    (hwrite : M.exec (writePieces c.e p1 (f.packed (FmtC.len1 x)) false true) s4 = (.ok (), s5)) :
    M.exec ((memoryAdd x g).body c) s1 = (.ok .seq, s5.modBank c.slot fun b => b.putCC f.cc) := by
  simp only [memoryAdd, M.exec_bind, hboth, hread1, hread2, exec_sourceBytes 1 hv1, exec_sourceBytes 2 hv2, exec_finishM hfinish, hwrite, exec_setCC, M.exec_pure]
end

theorem decimalMemoryToMemoryRules_holds : decimalMemoryToMemoryRules := by
  intro s s1 s2 s3 s4 s5 c x a1 a2 p1 p2 l1 l2 v1 v2 f hlen hc hbegins n1 n2 doe written hv2
  have hl : c.len = x.len.bytes := by rw [hlen]; exact hc
  refine ⟨fun back hboth hread1 hread2 hv1 => ⟨fun hback hwrite hclean => ⟨fun hfinish => ?_, fun hfinish => ?_⟩, fun hback hclean => ?_⟩,
    fun hboth hread hfinish hwrite hclean => ?_⟩
  · subst hback
    exact hbegins.completesFrom1 hclean hl rfl (exec_memoryAdd (g := fun a b => a + b) hboth hread1 hread2 hv1 hv2 hfinish hwrite)
  · subst hback
    exact hbegins.completesFrom1 hclean hl rfl (exec_memoryAdd (g := fun a b => a - b) hboth hread1 hread2 hv1 hv2 hfinish hwrite)
  · subst hback
    refine hbegins.completesFrom1 hclean hl rfl ?_
    simp only [M.exec_bind, hboth, hread1, hread2, exec_sourceBytes 1 hv1, exec_sourceBytes 2 hv2, exec_setCC, M.exec_pure]
    rfl
  · refine hbegins.completesFrom1 hclean hl rfl ?_
    have hresult : M.exec (finishM c v2 (2 * FmtC.len1 x - 1) false) s4 = (.ok f, s4) := exec_finishM hfinish
    have hwrite' : M.exec (writePieces c.e p1 (f.packed (FmtC.len1 x)) false false) s4 = (.ok (), s5) := hwrite
    simp only [M.exec_bind, hboth, hread, exec_sourceBytes 2 hv2, hresult, hwrite', exec_setCC, M.exec_pure]

/-- Settles O12: each body is its checks, the accesses of memory, its sources by their digits, and CC with at most one register. -/
theorem decimalMemory : Obligations.DecimalMemory := ⟨decimalMemoryRules_holds, decimalMemoryToMemoryRules_holds⟩

end Sys2Proof.Proofs
end

section
/-! SUPPORT. Floating point (R53, R61, R179 to R186): reading a datum, signalling masked conditions and writing a result. -/

namespace Sys2Proof.Machine

/-! ### Conditions (R61, R183) -/

/-- Masked conditions enable no trap. -/
theorem firstEnabled_eq_none {conds enables : Nat} (h : conds &&& enables = 0) : firstEnabled conds enables = none := by
  have hbit : ∀ i, ¬ (conds.testBit i = true ∧ enables.testBit i = true) := fun i hi => by
    have hand := Nat.testBit_and conds enables i
    rw [h, hi.1, hi.2, Nat.zero_testBit] at hand
    exact absurd hand (by decide)
  rw [firstEnabled, Option.map_eq_none_iff, List.find?_eq_none]
  intro i _ hi
  rw [Bool.and_eq_true, beq_iff_eq, beq_iff_eq] at hi
  exact hbit i ⟨by rw [Nat.testBit_eq_decide_div_mod_eq, hi.1]; rfl, by rw [Nat.testBit_eq_decide_div_mod_eq, hi.2]; rfl⟩

section
variable {s : State} {c : Cx} {k : Nat} {w : Conds}

/-- Masked conditions set their FLAGS bits. -/
theorem exec_signal (h : Masked w (s.bank c.slot)) (code : Nat) : M.exec (signal c code w) s = (.ok (), s.modBank c.slot fun b => Bank.flag b w) := by
  unfold signal
  simp only [M.exec_bind, exec_getBank, firstEnabled_eq_none h]
  rfl

@[simp] theorem exec_getFV (c : Cx) (k : Nat) (r : BitVec 4) (s : State) : M.exec (getFV c k r) s = (.ok (datum k r (s.bank c.slot)), s) := rfl

@[simp] theorem exec_modeOf (c : Cx) (k : Nat) (s : State) : M.exec (modeOf c k) s = (.ok (roundingMode k (s.bank c.slot)), s) := rfl

/-- The state with a datum in F(r) and the FLAGS of its conditions. -/
def State.withDatum (s : State) (c : Cx) (k : Nat) (r : BitVec 4) (v : FVal × Conds) : State :=
  (s.modBank c.slot fun b => Bank.flag b v.2).modBank c.slot fun b => b.putF r (encodeF k v.1)

/-- A result whose conditions are masked is written. -/
theorem exec_putF {v : FVal × Conds} (h : Masked v.2 (s.bank c.slot)) (r : BitVec 4) : M.exec (putF c k r v) s = (.ok (), s.withDatum c k r v) := by
  unfold putF
  simp only [M.exec_bind, exec_signal h, exec_setF]
  rfl

/-- The completion of an instruction whose work leaves a datum in its bank. -/
theorem Begins.completesDatum {s1 : State} {pred : BitVec 4} {len : Len} {m : Macro} {n : Nat} {i : Instr} {r : BitVec 4} {v : FVal × Conds}
    (h : Begins s c pred s1) (hl : c.len = len.bytes) (hi : exec i s = macroNext c.e pred len m s)
    (hb : (m.body c).exec s1 = (.ok .seq, s1.withDatum c k r v)) (hm : m.selfTimed = false) (hn : m.count c s1 = n) :
    Completes i s s1 c n (putDatum k r v) :=
  h.completesFrom2 h.clean hl hi hb rfl hm hn
end

/-! ### Formats (R179, R184) -/

/-- A row of R184 by the code of a format. -/
theorem fpRow_eq (a b d e : Nat) {k : Nat} (hk : k < 4) : fpRow a b d e k = cyOf [a, b, d, e] k := by
  obtain rfl | rfl | rfl | rfl : k = 0 ∨ k = 1 ∨ k = 2 ∨ k = 3 := by omega
  all_goals rfl

theorem fcvtCount_eq {dst src : Nat} (hdst : dst < 4) (hsrc : src < 4) :
    fcvtCount dst src = if (dst < 2) = (src < 2) then cyOf [3, 3, 4, 5] (max dst src) else 24 := by
  rw [fcvtCount, fpRow_eq _ _ _ _ (max_lt hdst hsrc)]
  by_cases hd : dst < 2 <;> by_cases hs : src < 2 <;> simp [hd, hs]

end Sys2Proof.Machine

namespace Sys2Proof.Proofs

open Sys2Proof Sys2Proof.Machine

/-- The relations that FCMPP names. -/
theorem fpRelation_eq (code : Fin 4) (cmp : Nat) : fpRelation code.val cmp = some (relationOf code cmp) := by
  fin_cases code <;> rfl

theorem floatOperationsRules_holds : floatOperationsRules := by
  intro s s1 c x hl h
  dsimp only
  have hk : x.mod.toNat < 4 := x.mod.isLt
  refine ⟨fun hlen => ?_, fun hlen => ?_⟩
  · have hl4 : [Len.l4].contains x.len = true := by rw [hlen]; rfl
    refine ⟨fun hmask => ?_, fun hmask => ?_, fun w hw hmask => ?_⟩
    · refine h.completesDatum hl rfl ?_ rfl (fpRow_eq _ _ _ _ hk)
      simp only [M.exec_bind, exec_lengthIn, hl4, if_true, exec_modeOf, exec_getFV, exec_putF hmask, M.exec_pure]
    · refine h.completesDatum hl rfl ?_ rfl (fpRow_eq _ _ _ _ hk)
      simp only [M.exec_bind, exec_lengthIn, hl4, if_true, exec_modeOf, exec_getFV, exec_putF hmask, M.exec_pure]
    · refine h.completes2 (f1 := fun b => Bank.flag b w) (f2 := fun b => b.putCC (compareF (fmtOf x.mod.toNat) (datum x.mod.toNat x.ra (s1.bank c.slot))
        (datum x.mod.toNat x.rb (s1.bank c.slot)))) hl rfl ?_ rfl rfl (fpRow_eq _ _ _ _ hk)
      subst hw
      simp only [M.exec_bind, exec_lengthIn, hl4, if_true, exec_getFV, exec_signal hmask, exec_setCC, M.exec_pure]
  · have hl6 : [Len.l6].contains x.len = true := by rw [hlen]; rfl
    refine ⟨fun hmod2 hdecimal hmask => ?_, fun code hmod2 hcode hra w hw hmask => ?_, fun hrc hmod2 hmask => ?_,
      fun hrc hmod2 => ⟨fun hmask => ?_, fun hmask => ?_⟩⟩
    · refine h.completesDatum hl rfl ?_ rfl ?_
      · simp only [M.exec_bind, exec_lengthIn, hl6, if_true, exec_zeroField, hmod2, exec_require, decide_eq_true hdecimal, exec_modeOf, exec_getFV, exec_putF hmask,
          M.exec_pure]
      · obtain hk2 | hk3 : x.mod.toNat = 2 ∨ x.mod.toNat = 3 := by omega
        · rw [hk2]; rfl
        · rw [hk3]; rfl
    · have hcode' : (field x.mod2 0 3 : BitVec 3).toNat = code.val := by rw [hcode, BitVec.toNat_ofNat]; omega
      have hless : (code.val == 1 || code.val == 2) = (code == 1 || code == 2) := by fin_cases code <;> rfl
      refine h.completes2 (f1 := fun b => Bank.flag b w) (f2 := fun b => b.setPred x.ra.toNat (relationOf code (compareF (fmtOf x.mod.toNat)
        (datum x.mod.toNat x.rb (s1.bank c.slot)) (datum x.mod.toNat x.rc (s1.bank c.slot))) != bit x.mod2 3)) hl rfl ?_ rfl rfl (fpRow_eq _ _ _ _ hk)
      subst hw
      simp only [M.exec_bind, exec_lengthIn, hl6, if_true, exec_zeroField, hmod2, exec_lowReg, hra, exec_getFV, hcode', fpRelation_eq, hless, exec_signal hmask,
        exec_modBank, M.exec_pure]
    · refine h.completesDatum hl rfl ?_ rfl (fcvtCount_eq hk (field x.mod2 0 2 : BitVec 2).isLt)
      simp only [M.exec_bind, exec_lengthIn, hl6, if_true, exec_zeroField, hrc, hmod2, exec_modeOf, exec_getFV, exec_putF hmask, M.exec_pure]
    · refine h.completesDatum hl rfl ?_ rfl (fpRow_eq _ _ _ _ hk)
      simp only [integerFields, M.exec_bind, exec_lengthIn, hl6, if_true, exec_zeroField, hrc, hmod2, exec_modeOf, exec_getG, exec_putF hmask, M.exec_pure]
    · generalize hw : toInteger _ _ _ _ = w at hmask ⊢
      refine h.completes2 (f1 := fun b => Bank.flag b w.2) (f2 := fun b => b.putG x.ra w.1) hl rfl ?_ rfl rfl (fpRow_eq _ _ _ _ hk)
      subst hw
      simp only [integerFields, M.exec_bind, exec_lengthIn, hl6, if_true, exec_zeroField, hrc, hmod2, exec_modeOf, exec_getFV, exec_signal hmask, exec_setG,
        M.exec_pure]

/-- An invalid operation is masked while its enable is 0. -/
theorem masked_invalid {b : Bank} (h : bit b.fpc 8 = false) : Masked { invalid := true } b := by
  have hbit : (field b.fpc 8 5).getLsbD 0 = false := (getLsbD_field ..).trans (Eq.trans (Bool.true_and _) h)
  have hone : ({ invalid := true } : Conds).bits = 1 := rfl
  rw [BitVec.getLsbD, Nat.testBit_zero, decide_eq_false_iff_not] at hbit
  rw [Masked, hone, Nat.one_and_eq_mod_two]
  omega

theorem floatMovesRules_holds : floatMovesRules := by
  intro s s1 s2 c
  refine ⟨fun x k hl h hx hk3 hc => ?_, fun x hlen hl h => ?_⟩
  · dsimp only
    obtain ⟨hlens, hsize, rfl⟩ := hx.checks
    have hsize' : (x.sizeOnly && x.sizeCode != 3) = true := by rw [hsize, bne_iff_ne.2 (by omega)]; rfl
    refine ⟨fun l hload => ?_, fun hstore => ?_⟩
    · refine h.completesFrom1 hc hl rfl ?_
      simp only [fSize, M.exec_bind, exec_lengthIn, hlens, exec_require, hsize', if_true, M.exec_pure, exec_getBank, x.ea_eq, hload, exec_setF]
    · refine h.completesFrom0 hc hl rfl ?_
      simp only [fSize, M.exec_bind, exec_lengthIn, hlens, exec_require, hsize', if_true, M.exec_pure, exec_getBank, exec_getF, x.ea_eq, hstore]
  · have hl4 : [Len.l4].contains x.len = true := by rw [hlen]; rfl
    have hl' : c.len = x.len.bytes := by rw [hl, hlen]; rfl
    dsimp only
    refine ⟨fun hrc hmod half hhalf => ⟨?_, ?_⟩, fun hmod hrb => ⟨fun v hv q hq hmask => ?_, fun neg coef q hfin => ?_, fun hnot hfpc => ?_⟩⟩
    · refine h.completes1 (f := fun b => b.putG x.ra (field ((s1.bank c.slot).getF x.rb) half 64)) hl' rfl ?_ rfl
      simp only [halfFields, M.exec_bind, exec_lengthIn, hl4, if_true, exec_zeroField, hrc, hmod, exec_getF, exec_setG, M.exec_pure, hhalf]
    · refine h.completes1 (f := fun b => b.putF x.ra (setField ((s1.bank c.slot).getF x.ra) half 64 ((s1.bank c.slot).getG x.rb).toNat)) hl' rfl ?_ rfl
      simp only [halfFields, M.exec_bind, exec_lengthIn, hl4, if_true, exec_zeroField, hrc, hmod, exec_getF, exec_getG, exec_setF, M.exec_pure, hhalf]
    · subst hq
      refine h.completesDatum hl' rfl ?_ rfl rfl
      simp only [M.exec_bind, exec_lengthIn, hl4, if_true, exec_lowReg, hrb, exec_zeroField, hmod, exec_sourceD 1 hv, exec_getG, exec_modeOf,
        exec_putF hmask, M.exec_pure]
    · refine h.completes2 (f1 := fun b => b.putD x.rb (BitVec.ofNat 256 (imageOf 63 coef (if neg then 0xD else 0xC))))
        (f2 := fun b => b.putG x.rc (BitVec.ofInt 64 q)) hl' rfl ?_ rfl
      rw [imageOf_eq]
      simp only [M.exec_bind, exec_lengthIn, hl4, if_true, exec_lowReg, hrb, exec_zeroField, hmod, exec_getFV, hfin, exec_setD, exec_setG, M.exec_pure]
    · refine h.completes3 (f1 := fun b => Bank.flag b { invalid := true }) (f2 := fun b => b.putD x.rb 0xC)
        (f3 := fun b => b.putG x.rc (BitVec.ofNat 64 (2 ^ 63))) hl' rfl ?_ rfl
      simp only [M.exec_bind, exec_lengthIn, hl4, if_true, exec_lowReg, hrb, exec_zeroField, hmod, exec_getFV]
      generalize datum 3 x.ra (s1.bank c.slot) = d at hnot
      cases d with
      | fin neg coef q => exact absurd rfl (hnot neg coef q)
      | _ => simp only [exec_signal (masked_invalid hfpc), exec_setD, exec_setG, M.exec_pure]

/-- Settles O14: each body is its checks, the data it reads, FLAGS for the masked conditions and the write of its result. -/
theorem floatOperations : Obligations.FloatOperations := ⟨floatOperationsRules_holds, floatMovesRules_holds⟩

end Sys2Proof.Proofs
end

section
/-! SUPPORT. The states that refute O13, O19, O27, O28, O29 and O34, and what the model makes of them. -/

namespace Sys2Proof

open Sys2Proof.Machine

/-- What a row leaves, looked at by `f`. -/
def leaves {α : Type} (f : State → α) : Host.Outcome State Fault Refusal → Option α
  | .next t => some (f t)
  | _ => none

theorem Completes.leaves_eng {i : Instr} {s s1 : State} {c : Cx} {n : Nat} {f : Bank → Bank} {α : Type} (h : Completes i s s1 c n f) (g : Engine → α) :
    leaves (fun t => g (t.eng c.e)) (exec i s) = some (g ((s1.eng c.e).closed.later n)) := by
  obtain ⟨t, ht, -, heng, -⟩ := h
  rw [ht, leaves, heng]

theorem Completes.leaves_bank {i : Instr} {s s1 : State} {c : Cx} {n : Nat} {f : Bank → Bank} {α : Type} (h : Completes i s s1 c n f) (g : Bank → α) :
    leaves (fun t => g (t.bank c.slot)) (exec i s) = some (g ((f (s1.bank c.slot)).pass c.len)) := by
  obtain ⟨t, ht, hbank, -⟩ := h
  rw [ht, leaves, hbank, if_pos rfl]

/-- An instruction whose own work leaves the mark of a stop at a commit point alone. -/
theorem Goes.leaves_intact {i : Instr} {s s1 : State} {c : Cx} {target : Option Nat} {ks : List (Nat × Nat)} {f : Bank → Bank}
    (h : Goes i s s1 c target ks f id) : leaves (fun t => (t.eng c.e).intact) (exec i s) = some (s1.eng c.e).intact := by
  obtain ⟨t, ht, -, heng, -⟩ := h
  rw [ht, leaves, heng]
  rfl

/-- A segment that leaves nothing to do ends the instruction. -/
theorem Segment.leaves_intact {i : Instr} {s s1 : State} {c : Cx} {stop left ips past : Nat} {f last : Bank → Bank}
    (h : Segment i s s1 s1 c stop left ips f last past) (hleft : left = 0) (hclean : (s1.eng c.e).postCheck = none) :
    leaves (fun t => (t.eng c.e).intact) (exec i s) = some (s1.eng c.e).intact :=
  Goes.leaves_intact ((h rfl hclean).1 hleft)

end Sys2Proof

namespace Sys2Proof.Machine

/-! ### A segment of nothing -/

theorem exec_perCycle_zero {c : Cx} {u : Nat} {f : Nat → Nat → M Unit} {fuel i k : Nat} {s : State} (h : k = 0) :
    M.exec (perCycle c u f (fuel + 1) i k) s = (.ok (), s) := by
  rw [h]
  rfl

theorem exec_scanUnits_zero {c : Cx} {ftm : Bool} {u : Nat} {addrs : List Nat} {test : List Byte → M (Option Hit)} {fuel i n : Nat}
    {found : Option (Nat × Hit)} {s : State} (h : fuel = 0) : M.exec (scanUnits c ftm u addrs test fuel i n found) s = (.ok (found, i), s) := by
  rw [h]
  rfl

theorem exec_xcdUnits_zero {c : Cx} {f : XFields} {table nb d a n m fuel : Nat} {s : State} (h : m = 0) :
    M.exec (xcdUnits c f table nb d a n m (fuel + 1) 0 0) s = (.ok { cc := some 0, wrote := 0, read := 0 }, s) := by
  rw [h]
  rfl

end Sys2Proof.Machine

namespace Sys2Proof.Proofs

open Sys2Proof Sys2Proof.Machine

/-- A part at reset but for engine 0, whose cluster runs and whose level 0 is ACTIVE with bank `b`. -/
def runningWith (b : Bank) : State :=
  let s := State.reset
  ({ s with power := { s.power with part := .active, powerOn := false, clusters := s.power.clusters.set 0 { st := .run, target := none } } }.modBank 0
    fun _ => b).modSlot 0 fun y => { y with state := .active }

/-- The local store of engine 0, where its code and data lie. -/
def codeAt : Nat := 0x210000000000

/-- The bank of a privileged level with key 0 at an address. -/
def bankAt (ia : Nat) (g : List (Nat × Word)) : Bank :=
  { (default : Bank) with psw := mkPsw ia 0 0 true false false false 0, g := Vector.ofFn fun i => (g.lookup i.val).getD 0 }

/-- An instruction of `n` bytes on engine 0 at level 0. -/
def onEngine0 (n : Nat) : Cx := { e := 0, n := 0, len := n }

/-- What the fetch of an instruction leaves. -/
def fetchedFrom (s : State) (c : Cx) : State := (fetch c.e c.slot (pswIA (s.bank c.slot).psw) c.len (s.noted c)).2

theorem fetch_of_isOk {e : Eng} {slot ia len : Nat} {s : State} (h : (fetch e slot ia len s).1.isOk = true) :
    fetch e slot ia len s = (.ok (), (fetch e slot ia len s).2) := by
  generalize fetch e slot ia len s = r at h ⊢
  obtain ⟨_ | _, t⟩ := r
  · cases h
  · rfl

/-! ### A fetch fault at a stop (O19) -/

/-- Engine 0 has stopped at a commit point of level 0, whose IA lies at the end of the address space and whose vector-table entry 4 is VALID. -/
def stoppedAtEnd : State :=
  { runningWith (bankAt (2 ^ 48 - 2) []) with vectors := [(4, 1)] }.modEng 0 fun y => { y with intact := true }

/-- Refutes O19: an entry clears the mark that the running level has stopped at a commit point (R282), as when the resume of an instruction faults in its
fetch, and `Enters` keeps every field of the engine but its line buffer and its clock. -/
theorem not_exceptionCauses : ¬ Obligations.ExceptionCauses := by
  intro h
  have hready : stoppedAtEnd.ready 0 = some 0 := by decide +kernel
  have hia : pswIA (stoppedAtEnd.bank (slotOf 0 (0 : Fin 8).val)).psw = 2 ^ 48 - 2 := by decide +kernel
  have hown : OwnTarget stoppedAtEnd 0 0 4 := by unfold OwnTarget; decide +kernel
  have hrule := h.2 stoppedAtEnd stoppedAtEnd 0 0 0x23 0 (2 ^ 48 - 2) 4 hready
  simp only [hia] at hrule
  obtain ⟨t, hexec, henters⟩ := hrule.2 (hrule.1 (by decide)) (by decide) (by decide) (by decide +kernel) (by decide +kernel) hown
  have hleft : leaves (fun t => (t.eng 0).intact) (exec (.instructionFetchFault 0) stoppedAtEnd) = some false := by decide +kernel
  have hbefore : (stoppedAtEnd.eng 0).intact = true := by decide +kernel
  rw [hexec, leaves, henters.2.1] at hleft
  exact absurd (hbefore.symm.trans (Option.some.inj hleft)) (by decide)

/-! ### The resume of an instruction whose stop no entry has followed (O27, O28, O29) -/

/-- Engine 0 has stopped an instruction at a commit point of level 0, in which every G register is 0, and nothing has been entered since. -/
def stoppedInString : State :=
  (runningWith { bankAt codeAt [] with psw := mkPsw codeAt 0 0 true false false true 0 }).modEng 0 fun y => { y with intact := true }

/-- The state in which `Resumes` has a resumed instruction make its first access. -/
def resumedIn (s : State) (c : Cx) : State := ((fetchedFrom s c).tick c.e 25 1).cycles c.e (pswFTM (s.bank c.slot).psw) 3

theorem works_resumedIn {s : State} {c : Cx} {pred : BitVec 4} {fixed : Nat} (hready : s.ready c.e = some c.n) (hgoing : pswIPR (s.bank c.slot).psw = true)
    (hok : (fetch c.e c.slot (pswIA (s.bank c.slot).psw) c.len (s.noted c)).1.isOk = true) (hstill : pswIPR ((resumedIn s c).bank c.slot).psw = true) :
    Works s c pred fixed (resumedIn s c) :=
  .inr ⟨⟨hready, hgoing, fetchedFrom s c, fetch_of_isOk hok, rfl⟩, hstill⟩

/-- What `Resumes` makes of the string stopped in `stoppedInString`: nothing is left to do, and the mark of the stop stands. -/
structure NothingLeft (c : Cx) (r : State) : Prop where
  works : ∀ pred fixed, Works stoppedInString c pred fixed r
  going : pswIPR (r.bank c.slot).psw = true
  ips : ipsOf (r.bank c.slot) = 0
  len : ∀ k, (r.bank c.slot).len k = 0
  clean : (r.eng c.e).postCheck = none
  intact : (r.eng c.e).intact = true

theorem nothingLeft_of {c : Cx} {r : State} (hr : r = resumedIn stoppedInString c) (hready : stoppedInString.ready c.e = some c.n)
    (hbank : pswIPR (stoppedInString.bank c.slot).psw = true
      ∧ pswIPR (r.bank c.slot).psw = true ∧ ipsOf (r.bank c.slot) = 0 ∧ ∀ k, (r.bank c.slot).len k = 0)
    (hok : (fetch c.e c.slot (pswIA (stoppedInString.bank c.slot).psw) c.len (stoppedInString.noted c)).1.isOk = true)
    (heng : (r.eng c.e).postCheck = none ∧ (r.eng c.e).intact = true) : NothingLeft c r := by
  obtain ⟨hstopped, hgoing, hips, hlen⟩ := hbank
  subst hr
  exact ⟨fun _ _ => works_resumedIn hready hstopped hok hgoing, hgoing, hips, hlen, heng.1, heng.2⟩

theorem nothingLeft4 : NothingLeft (onEngine0 4) (resumedIn stoppedInString (onEngine0 4)) :=
  nothingLeft_of rfl (by decide +kernel) (by decide +kernel) (by decide +kernel) (by decide +kernel)

theorem nothingLeft6 : NothingLeft (onEngine0 6) (resumedIn stoppedInString (onEngine0 6)) :=
  nothingLeft_of rfl (by decide +kernel) (by decide +kernel) (by decide +kernel) (by decide +kernel)

/-- A segment that leaves nothing to do keeps the mark of the stop, and an instruction that clears the mark has no such segment. -/
theorem NothingLeft.not_segment {i : Instr} {c : Cx} {r : State} {stop left ips past : Nat} {f last : Bank → Bank} (h : NothingLeft c r)
    (hclears : leaves (fun t => (t.eng c.e).intact) (exec i stoppedInString) = some false) (hleft : left = 0) :
    ¬ Segment i stoppedInString r r c stop left ips f last past := fun hsegment =>
  absurd (hclears.symm.trans ((hsegment.leaves_intact hleft h.clean).trans (congrArg some h.intact))) (by decide)

/-- Operands that G2, G3 and G4 name. -/
def namesThree (len : Len) : FmtA := { pred := 0, len := len, ra := 2, rb := 3, rc := 4, mod := 0, imm := 0 }

/-- Refutes O27: MVS of no bytes, resumed with no entry since its stop. R282 has the model skip the resume term and clear the mark of the stop, and the
statement counts the term and keeps the mark. -/
theorem not_stringMoves : ¬ Obligations.StringMoves := by
  intro h
  have hclears : leaves (fun t => (t.eng 0).intact) (exec (.mvs 0 (namesThree .l4) 0) stoppedInString) = some false := by decide +kernel
  obtain ⟨r, hr⟩ : ∃ r, NothingLeft (onEngine0 4) r := ⟨_, nothingLeft4⟩
  have hips : ipsOf (r.bank (onEngine0 4).slot) ≤ 1 := hr.ips.le.trans (by decide)
  have hmvs := (h stoppedInString r r (onEngine0 4) (namesThree .l4) 0 rfl).1 rfl rfl (by unfold StringRegs; decide) hips (.inl (hr.len _)) (.inl (hr.len _))
    (hr.works _ _)
  exact hr.not_segment hclears (by rw [hr.len]; rfl) (hmvs.1 false (by simp [hr.going, hr.ips]) rfl (exec_perCycle_zero (by rw [hr.len]; rfl)))

/-- Refutes O28: CLS of no bytes, resumed with no entry since its stop, as for O27. -/
theorem not_stringScans : ¬ Obligations.StringScans := by
  intro h
  have hclears : leaves (fun t => (t.eng 0).intact) (exec (.cls 0 (namesThree .l4) 0) stoppedInString) = some false := by decide +kernel
  obtain ⟨r, hr⟩ : ∃ r, NothingLeft (onEngine0 4) r := ⟨_, nothingLeft4⟩
  have hcls := (h stoppedInString r r (onEngine0 4) (namesThree .l4) 0 rfl).1 rfl rfl (by unfold StringRegs; decide) (.inl (hr.len _))
    (.inl (hr.len _)) (hr.works _ _)
  exact hr.not_segment hclears (by rw [hr.len]; rfl) (hcls.1 hr.ips r none 0 (exec_scanUnits_zero (by rw [hr.len]; rfl)))

/-- Refutes O29: XCD of no bytes, resumed with no entry since its stop, as for O27. -/
theorem not_stringEdits : ¬ Obligations.StringEdits := by
  intro h
  have hclears : leaves (fun t => (t.eng 0).intact) (exec (.xcd 0 (namesThree .l6) 0) stoppedInString) = some false := by decide +kernel
  obtain ⟨r, hr⟩ : ∃ r, NothingLeft (onEngine0 6) r := ⟨_, nothingLeft6⟩
  have hxcd := (h stoppedInString r r r (onEngine0 6) (namesThree .l6) 0 rfl rfl).2 0 { cc := some 0, wrote := 0, read := 0 } rfl rfl rfl
    (by unfold StringRegs; decide) (.inr rfl) (by decide) (by decide) (by decide) (.inl (by decide)) hr.ips (.inl (hr.len _))
    (.inl (hr.len _)) (hr.works _ _) ⟨rfl, rfl⟩ (by rw [hr.len]; rfl)
  exact hr.not_segment hclears rfl (hxcd (exec_xcdUnits_zero (hr.len _)))

/-! ### Two quiet NaNs (O13) -/

theorem exec_of_toOption {α : Type} {m : M α} {s : State} {v : α} (h : (m.exec s).1.toOption = some v) : m.exec s = (.ok v, (m.exec s).2) := by
  generalize m.exec s = r at h ⊢
  obtain ⟨_ | w, t⟩ := r
  · cases h
  · cases h
    rfl

/-- F1 holds the quiet NaN of payload 1, and the quiet NaN of payload 2 lies where G2 points in the local store. -/
def twoQuietNaNs : State :=
  (runningWith ((bankAt codeAt [(2, 0x210000001000)]).putF 1 0x7FC00001)).putMem 0x210000001000 [2, 0, 0xC0, 0x7F]

/-- FADD of binary32 from memory at G2 to F1. -/
def addFromMemory : FmtXB := { pred := 0, len := .l12, ra := 1, bs := 2, mod := 0, disp := 0, mod2 := 0 }

/-- The read that `addFromMemory` makes. -/
def readsAddend (s : State) : M (Option (List Byte)) :=
  load (onEngine0 12) (addressOf 2 0 0 .l12 (s.bank (onEngine0 12).slot)) 4 (.aligned 4) (.fop 0 1 0)

theorem twoQuietNaNs_begins : Begins twoQuietNaNs (onEngine0 12) 0 (fetchedFrom twoQuietNaNs (onEngine0 12)) where
  ready := by decide +kernel
  fetched := fetch_of_isOk (by decide +kernel)
  fresh := by decide +kernel
  taken := by decide +kernel
  clean := by decide +kernel

/-- The state after the read of the addend. -/
def addendRead : State := ((readsAddend (fetchedFrom twoQuietNaNs (onEngine0 12))).exec (fetchedFrom twoQuietNaNs (onEngine0 12))).2

/-- Refutes O13: of two quiet NaNs the model's memory form returns memory's, its first source, and the statement F(RA)'s. -/
theorem not_floatArithmetic : ¬ Obligations.FloatArithmetic := by
  intro h
  have hread : (readsAddend (fetchedFrom twoQuietNaNs (onEngine0 12))).exec (fetchedFrom twoQuietNaNs (onEngine0 12))
      = (.ok (some [2, 0, 0xC0, 0x7F]), addendRead) :=
    exec_of_toOption (by decide +kernel)
  have hclean : (addendRead.eng 0).postCheck = none := by decide +kernel
  have hmasked : Masked (addF (fmtOf 0) (roundingMode 0 (addendRead.bank 0)) (datum 0 1 (addendRead.bank 0)) (decodeF 0 (leNat [2, 0, 0xC0, 0x7F]))).2
      (addendRead.bank 0) := by
    unfold Masked
    decide +kernel
  have hstated : ((putDatum 0 1 (addF (fmtOf 0) (roundingMode 0 (addendRead.bank 0)) (datum 0 1 (addendRead.bank 0)) (decodeF 0 (leNat [2, 0, 0xC0, 0x7F])))
      (addendRead.bank 0)).pass 12).getF 1 = 0x7FC00001 := by decide +kernel
  have hmodel : leaves (fun t => (t.bank 0).getF 1) (exec (.fadd 0 (.mem addFromMemory)) twoQuietNaNs) = some 0x7FC00002 := by decide +kernel
  have hadd := ((h twoQuietNaNs _ addendRead (onEngine0 12)).2 addFromMemory 0 [2, 0, 0xC0, 0x7F] rfl (.inr rfl) twoQuietNaNs_begins rfl hread hclean).1 rfl hmasked
  exact absurd (hmodel.symm.trans ((Completes.leaves_bank hadd fun b => b.getF 1).trans (congrArg some hstated))) (by decide)

/-! ### A key that cannot be read (O34) -/

/-- G2 holds the address of an on-chip frame whose key-store entry is poisoned. -/
def keyUnreadableOnChip : State :=
  let s := runningWith (bankAt codeAt [(2, 0x210000001000)])
  { s with mem := { s.mem with keyPoison := [(2 ^ 41 + 0x210000001, true)] } }

/-- KSET of the key in G3 to the frame in G2. -/
def setsKey : FmtA := { pred := 0, len := .l4, ra := 2, rb := 3, rc := 0, mod := 0, imm := 0 }

theorem keyUnreadableOnChip_begins : Begins keyUnreadableOnChip (onEngine0 4) 0 (fetchedFrom keyUnreadableOnChip (onEngine0 4)) where
  ready := by decide +kernel
  fetched := fetch_of_isOk (by decide +kernel)
  fresh := by decide +kernel
  taken := by decide +kernel
  clean := by decide +kernel

/-- What SYNC leaves of the state that begins `setsKey`. -/
def syncedForKey : State := ((fetchedFrom keyUnreadableOnChip (onEngine0 4)).drainAll 0).awaitPosts 0

/-- Refutes O34: KSET reads the key-store entry of its frame, on chip as in DRAM, and an entry that cannot be read raises a machine check, in the state
where level 0 is ACTIVE a checkstop. The statement asks that the entry can be read in DRAM alone. -/
theorem not_keyInstructions : ¬ Obligations.KeyInstructions := by
  intro h
  have hclean : (syncedForKey.eng 0).postCheck = none := by decide +kernel
  have hmodel : leaves (fun t => (t.eng 0).checkstop) (exec (.kset 0 setsKey) keyUnreadableOnChip) = some true := by decide +kernel
  have hrules := h.2 keyUnreadableOnChip _ (onEngine0 4) setsKey rfl rfl rfl rfl keyUnreadableOnChip_begins
  have hset := (hrules.2.1 (by decide +kernel) (by decide +kernel) (by decide +kernel)).1 (by decide +kernel) (by decide +kernel) (by decide +kernel) hclean
    (by decide +kernel)
  exact absurd (hmodel.symm.trans (Completes.leaves_eng hset (·.checkstop))) (by decide +kernel)

end Sys2Proof.Proofs
end

section
/-! SUPPORT. Moves, high products and effective addresses (R91, R175). -/

namespace Sys2Proof.Machine

/-- An immediate of 16 bits extended with its sign. -/
theorem sext_imm16 (x : BitVec 16) : sext 16 x.toNat = x.signExtend 64 := by
  rw [sext, BitVec.ofNat_toNat, BitVec.setWidth_eq]

section
variable {s s1 : State} {c : Cx} {x : FmtA}

/-- A high product writes G(RA) alone. -/
theorem exec_highProduct (hlen : x.len = .l4) (hmod : x.mod = 0) (f : Word → Word → Word) :
    M.exec ((highProduct x f).body c) s1
      = (.ok .seq, s1.modBank c.slot fun b => b.putG x.ra (f ((s1.bank c.slot).getG x.rb) ((s1.bank c.slot).getG x.rc))) := by
  have hl4 : [Len.l4].contains x.len = true := by rw [hlen]; rfl
  simp only [highProduct, M.exec_bind, exec_lengthIn, hl4, exec_zeroField, hmod, exec_getG, exec_setG, if_true, M.exec_pure]

theorem Begins.mov_register (h : Begins s c x.pred s1) (hl : c.len = x.len.bytes) (hlen : x.len = .l4) (hmod : x.mod = 0) (hrc : x.rc = 0) :
    Completes (.mov c.e x) s s1 c 1 (fun b => b.putG x.ra ((s1.bank c.slot).getG x.rb)) := by
  have hl4 : [Len.l4, .l6].contains x.len = true := by rw [hlen]; rfl
  have hnot6 : x.len ≠ .l6 := by rw [hlen]; decide
  refine h.completesFrom1 h.clean hl rfl ?_
  simp only [M.exec_bind, exec_lengthIn, hl4, exec_zeroField, hmod, hrc, if_neg hnot6, exec_getG, exec_setG, if_true, M.exec_pure]

theorem Begins.mov_immediate (h : Begins s c x.pred s1) (hl : c.len = x.len.bytes) (hlen : x.len = .l6) (hmod : x.mod = 0) (hrb : x.rb = 0)
    (hrc : x.rc = 0) : Completes (.mov c.e x) s s1 c 1 (fun b => b.putG x.ra (BitVec.signExtend 64 x.imm)) := by
  have hl6 : [Len.l4, .l6].contains x.len = true := by rw [hlen]; rfl
  refine h.completesFrom1 h.clean hl rfl ?_
  simp only [M.exec_bind, exec_lengthIn, hl6, exec_zeroField, hmod, hrb, hrc, if_pos hlen, sext_imm16, exec_setG, if_true, M.exec_pure]

theorem Begins.mvi (h : Begins s c x.pred s1) (hl : c.len = x.len.bytes) (hlen : x.len = .l6) (hmod : field x.mod 3 3 = 0) (hrb : x.rb = 0)
    (hrc : x.rc = 0) : Completes (.mvi c.e x) s s1 c 1 (fun b =>
      b.putG x.ra (setField (if bit x.mod 2 then 0 else b.getG x.ra) (16 * (field x.mod 0 2).toNat) 16 x.imm.toNat)) := by
  have hl6 : [Len.l6].contains x.len = true := by rw [hlen]; rfl
  refine h.completes1 (f := fun b => b.putG x.ra (setField (if bit x.mod 2 then 0 else (s1.bank c.slot).getG x.ra)
    (16 * (field x.mod 0 2).toNat) 16 x.imm.toNat)) hl rfl ?_ rfl
  simp only [M.exec_bind, exec_lengthIn, hl6, exec_zeroField, hmod, hrb, hrc, exec_getG, exec_setG, if_true, M.exec_pure]
end

/-- LEA writes the address that LD would read at (R91). -/
theorem Begins.lea {s s1 : State} {c : Cx} {x : FmtB} (h : Begins s c x.pred s1) (hl : c.len = x.len.bytes) (hlen : x.len ≠ .l4) (hmod : x.mod = 0)
    (hmod2 : x.mod2 = 0) :
    Completes (.lea c.e x) s s1 c 1 (fun b => b.putG x.ra (BitVec.ofNat 64 (addressOf x.bs x.ix x.disp x.len b))) := by
  have hl6 : [Len.l6, .l8, .l12].contains x.len = true := by revert hlen; cases x.len <;> decide
  refine h.completes1 (f := fun b => b.putG x.ra (BitVec.ofNat 64 (addressOf x.bs x.ix x.disp x.len (s1.bank c.slot)))) hl rfl ?_ rfl
  simp only [M.exec_bind, exec_lengthIn, hl6, exec_zeroField, hmod, hmod2, exec_getBank, x.ea_eq, exec_setG, if_true, M.exec_pure]

theorem ofNat_addressOf (bs ix : BitVec 4) (disp : BitVec 32) (len : Len) (b : Bank) : BitVec.ofNat 64 (addressOf bs ix disp len b) =
    b.getG bs + (if len = .l12 then disp.signExtend 64 else (disp.truncate 20).signExtend 64) + if ix = 0 then 0 else b.getG ix := by
  rw [addressOf, BitVec.ofNat_toNat, BitVec.setWidth_eq]

end Sys2Proof.Machine

namespace Sys2Proof.Proofs

open Sys2Proof Sys2Proof.Machine

/-- Settles O3: each body is its checks and one write of G(RA). -/
theorem moveResults : Obligations.MoveResults := by
  intro s s1 c
  refine ⟨fun x hl h => ⟨fun hmod hrc => ⟨fun hlen => ?_, fun hlen hrb => ?_⟩, fun hlen hmod hrb hrc => ?_, fun hlen hmod => ⟨?_, ?_⟩⟩,
    fun x hl h hlen hmod hmod2 => ?_⟩
  · exact h.mov_register hl hlen hmod hrc
  · exact h.mov_immediate hl hlen hmod hrb hrc
  · exact h.mvi hl hlen hmod hrb hrc
  · exact h.completes1 hl rfl (exec_highProduct hlen hmod _) rfl
  · exact h.completes1 hl rfl (exec_highProduct hlen hmod _) rfl
  · have hlea := h.lea hl hlen hmod hmod2
    simp only [ofNat_addressOf] at hlea
    exact hlea

end Sys2Proof.Proofs
end

section
/-! SUPPORT. What the fetch of an instruction, the drain of a store and the accesses of a string instruction leave (R99, R102, R140, R142, R226). -/

namespace Sys2Proof.Machine

/-- A piece that a string access has found, and the pieces after it (R140). -/
theorem stringPieces_calm {b : Option Eng} {s0 : State} (c : Cx) (acc : Acc) (ps : List (Nat × Nat)) : CM b s0 (stringPieces c acc ps) := by
  induction ps with
  | nil => exact CM.ret _
  | cons p r ih =>
    obtain ⟨va, n⟩ := p
    have hrest : ∀ pa : Nat, CM b s0 (do return (pa, n) :: (← stringPieces c acc r)) := fun pa => CM.seq ih fun _ => CM.ret _
    exact CM.seq (translate_calm _ _ _ _) fun pa => CM.readThen fun s _ => CM.ite (CM.seq (CM.trap _) fun _ => hrest pa.1) (hrest pa.1)

end Sys2Proof.Machine

namespace Sys2Proof

open Sys2Proof.Machine

section
variable {s t : State} {c : Cx} {acc : Acc} {va n : Nat} {ps : List (Nat × Nat)} {l : List Byte}

/-- A string access begins with the wait for posts, of which there are none, and its pieces, which change caches and TLBs alone. -/
theorem StringPieces.found (h : StringPieces c acc va n s ps) (q : Quiet s) :
    ∃ t, M.exec (stringPieces c acc (pagePieces va n)) (s.awaitPosts c.e) = (.ok ps, t) ∧ (addrsOf ps).length = n ∧ Calm none s t := by
  obtain ⟨t, ht, hlen⟩ := h
  have hcalm := stringPieces_calm (b := none) (s0 := s) c acc (pagePieces va n) s (CQ.refl none s) q
  change Calm none s (M.exec (stringPieces c acc (pagePieces va n)) s).2 at hcalm
  rw [ht] at hcalm
  rw [awaitPosts_none s c.e (q.posts c.e)]
  exact ⟨t, ht, hlen, hcalm⟩

theorem exec_stringRead (h : M.exec (stringPieces c .read (pagePieces va n)) (s.awaitPosts c.e) = (.ok ps, t)) :
    M.exec (stringRead c va n) s = M.exec (readPieces c.e va ps) t := by
  unfold stringRead
  simp only [M.exec_bind, M.exec_modify, h]

theorem exec_stringWrite (h : M.exec (stringPieces c .write (pagePieces va l.length)) (s.awaitPosts c.e) = (.ok ps, t)) (held : Bool) :
    M.exec (stringWrite c va l held) s = M.exec (writePieces c.e ps l held false) t := by
  unfold stringWrite
  simp only [M.exec_bind, M.exec_modify, h]

/-- A write of pieces that have passed their checks is read back by its engine, held or not, and every other byte reads as before. -/
theorem writePieces_writes (q : Quiet s) (ht : Calm none s t) (hlen : (addrsOf ps).length = l.length) (held crossed : Bool) :
    ∃ u, M.exec (writePieces c.e ps l held crossed) t = (.ok (), u) ∧ Calm (some c.e) s u ∧ (∀ a, a ∉ addrsOf ps → u.seen c.e a = s.seen c.e a)
      ∧ ((addrsOf ps).Nodup → (addrsOf ps).map (u.seen c.e) = l) := by
  obtain ⟨u, hwrite, hafter, hseen⟩ := writePieces_seen (ps := ps) (l := l) held crossed (ht.loosen c.e) q hlen.symm
  have hreads : ∀ a, u.seen c.e a = overs (s.seen c.e) ps l a := fun a => (hseen a).trans (overs_congr (fun b => ht.seen c.e b) ps l a)
  refine ⟨u, hwrite, hafter, fun a ha => ?_, fun hnodup => ?_⟩
  · rw [hreads, overs_other _ _ _ _ ha]
  · rw [List.map_congr_left fun a _ => hreads a, overs_same _ _ _ hlen.symm hnodup]
end

end Sys2Proof

namespace Sys2Proof.Machine

/-! ### The drain of an entry (R102, R226) -/

section
variable {s : State} {e : Eng} {y : SbEntry} {r : List SbEntry}

/-- A closed entry at the front of the store buffer drains. -/
theorem exec_storeBufferDrain_closed (hsb : (s.eng e).sb = y :: r) (hopen : y.opened = false) (hheld : y.held = false) :
    exec (.storeBufferDrain e) s = .next (s.drainOne e) := by
  have hexec : exec (.storeBufferDrain e) s = execStoreBufferDrain e s := rfl
  rw [hexec, execStoreBufferDrain, hsb]
  exact congrArg _ (if_neg (by rw [hopen, hheld]; decide))

/-- Memory takes the bytes that the drained entry holds. -/
theorem State.byteAt_drainOne (q : Quiet s) (hsb : (s.eng e).sb = y :: r) (a : Nat) :
    (s.drainOne e).byteAt a = if y.holds a then y.byte a else s.byteAt a := by
  have hpop : Calm (some e) s (s.modEng e fun x => { x with sb := r }) := (Calm.refl _ s).popSb hsb
  have hq := q.keep hpop
  have hstore := State.performStore_calm e (16 * y.block) (CQ.refl none (s.modEng e fun x => { x with sb := r })) hq
  have hclean : ∀ u, State.entryCheck u e y = u := fun u => q.entry u (by rw [hsb]; exact List.mem_cons_self)
  rw [State.drainOne, hsb]
  simp only [State.performEntry, hq.erasing, performBefore_none _ _ _ hq.homes, hclean, Bool.false_eq_true, if_false, State.byteAt, tget_putEntry,
    hstore.bytes rfl]
  rfl

/-- The bytes that an entry holds. -/
theorem SbEntry.holds_iff (y : SbEntry) (a : Nat) : y.holds a = true ↔ y.block = a / 16 ∧ bit y.mask (a % 16) = true := by
  rw [SbEntry.holds, Bool.and_eq_true, beq_iff_eq]
end

end Sys2Proof.Machine

namespace Sys2Proof.Proofs

open Sys2Proof Sys2Proof.Machine

/-- Settles O9: the fetch is calm, and a change that is calm without a store buffer of its own is seen by no engine. -/
theorem fetchFrame : Obligations.FetchFrame := by
  intro s s1 c pred q h
  have hcalm := h.calm q
  exact ⟨hcalm, fun e a => hcalm.seen e a⟩

/-- Settles O25: a closed entry leaves the store buffer, memory takes its bytes, and its engine sees the same. -/
theorem storeDrain : Obligations.StoreDrain := by
  intro s e y r q hsb hopen hheld
  obtain ⟨hcalm, hseen⟩ := State.drainOne_calm e (CQ.refl (some e) s) q
  have hrest : ((s.drainOne e).eng e).sb = r := by rw [State.drainOne_sb e (Calm.refl _ s) q, hsb, List.drop_one, List.tail_cons]
  refine ⟨s.drainOne e, exec_storeBufferDrain_closed hsb hopen hheld, hcalm, hrest, fun a => ?_, hseen⟩
  rw [State.byteAt_drainOne q hsb]
  simp only [y.holds_iff]
  rfl

/-- Settles O26: the pieces are found without a change to what the engine sees, and `readPieces` and `writePieces` do the rest. -/
theorem stringAccesses : Obligations.StringAccesses := by
  intro s c va ps q
  refine ⟨fun n h hpoison => ?_, fun l held h => ?_⟩
  · obtain ⟨t, hpieces, -, hcalm⟩ := h.found q
    rw [exec_stringRead hpieces]
    exact readPieces_reads q hcalm hpoison
  · obtain ⟨t, hpieces, hlen, hcalm⟩ := h.found q
    rw [exec_stringWrite hpieces]
    exact writePieces_writes q hcalm hlen held false

end Sys2Proof.Proofs
end

section
/-! SUPPORT. Branches (R93, R100, R104, R188, R189): their targets, and what their cost leaves. -/

namespace Sys2Proof.Machine

/-! ### The branch target buffer (R189, R191) -/

/-- The key of a branch rests on the PSW, the secret of its slot and the domain that owns it. -/
theorem Aside.btbKey {s t : State} {e : Eng} {i : Nat} (h : Aside s t e) (hpsw : (t.bank i).psw = (s.bank i).psw) (ia : Nat) :
    t.btbKey i ia = s.btbKey i ia := by
  have hstill := congrArg Slot.secret (h.slots i)
  have hsecret : (t.slot i).secret = (s.slot i).secret := hstill
  have howner : t.owner i = s.owner i := by rw [State.owner, h.owners, State.owner]
  have hdom : ∀ d, t.dom d = s.dom d := fun d => by rw [State.dom, h.domains, State.dom]
  unfold State.btbKey
  rw [hpsw, hsecret, howner, hdom]

section
variable {s t : State} {c : Cx} (h : Aside s t c.e) (hpsw : (t.bank c.slot).psw = (s.bank c.slot).psw)
include h hpsw

theorem Aside.btbAfter (target : Option Nat) (btb : Tbl (List BtbEntry)) : btbAfter t c target btb = btbAfter s c target btb := by
  unfold Sys2Proof.btbAfter
  simp only [hpsw, h.btbKey hpsw]

theorem Aside.branchCycles (hbtb : (t.eng c.e).btb = (s.eng c.e).btb) (target : Option Nat) : branchCycles t c target = branchCycles s c target := by
  unfold Sys2Proof.branchCycles predicted btbEntry
  simp only [hpsw, h.btbKey hpsw, hbtb]
end

/-- What the cost of a branch to `target` leaves: BRTAKEN counted once when it is taken, BRMISS grown by `missed`, and the branch target buffer (R100, R189). -/
structure Costed (s u : State) (c : Cx) (target : Option Nat) (missed : Nat) : Prop where
  banks : ∀ j, u.bank j = s.bank j
  eng : u.eng c.e = { s.eng c.e with btb := btbAfter s c target (s.eng c.e).btb }
  tally : Tally s u c.e [(8, if target.isSome then 1 else 0), (9, missed)]
  aside : Aside s u c.e

/-- A taken branch is counted before its cost. -/
def State.branchTaken (s : State) (c : Cx) (target : Option Nat) : State := if target.isSome then s.tick c.e 8 1 else s

section
variable (s : State) (c : Cx) (target : Option Nat)

@[simp] theorem State.bank_branchTaken (j : Nat) : (s.branchTaken c target).bank j = s.bank j := by
  unfold State.branchTaken
  split <;> simp

@[simp] theorem State.eng_branchTaken (d : Eng) : (s.branchTaken c target).eng d = s.eng d := by
  unfold State.branchTaken
  split <;> simp

theorem branchTaken_aside : Aside s (s.branchTaken c target) c.e := by
  unfold State.branchTaken
  split
  · exact tick_aside ..
  · exact Aside.refl ..

theorem Tally.branchTaken : Tally s (s.branchTaken c target) c.e [(8, if target.isSome then 1 else 0), (9, 0)] := by
  unfold State.branchTaken
  split
  · exact ((Tally.refl s c.e).tick 8 1 (by omega)).of_sum fun o => by simp
  · exact (Tally.refl s c.e).of_sum fun o => by simp
end

section
variable {s v : State} {c : Cx} {target : Option Nat}

/-- A branch that leaves the branch target buffer alone. -/
theorem costed_branchTaken (h : btbAfter s c target (s.eng c.e).btb = (s.eng c.e).btb) : Costed s (s.branchTaken c target) c target 0 where
  banks := s.bank_branchTaken c target
  eng := by rw [s.eng_branchTaken, h]
  tally := Tally.branchTaken s c target
  aside := branchTaken_aside s c target

/-- A branch that writes its set of the branch target buffer. -/
theorem costed_modEng {k : Nat} {l : List BtbEntry} (h : btbAfter s c target (s.eng c.e).btb = tset [] (s.eng c.e).btb k l) :
    Costed s ((s.branchTaken c target).modEng c.e fun x => { x with btb := tset [] x.btb k l }) c target 0 where
  banks := s.bank_branchTaken c target
  eng := by rw [State.eng_modEng, s.eng_branchTaken, h]
  tally := (Tally.branchTaken s c target).keep fun _ => rfl
  aside := (branchTaken_aside s c target).trans (modEng_aside _ _ _)

/-- A wrong prediction is counted. -/
theorem Costed.miss (h : Costed s v c target 0) : Costed s (v.tick c.e 9 1) c target 1 where
  banks j := (State.bank_tick ..).trans (h.banks j)
  eng := (State.eng_tick ..).trans h.eng
  tally := (h.tally.tick 9 1 (by omega)).of_sum fun o => by simp; omega
  aside := h.aside.trans (tick_aside ..)

/-- The end of a branch's cost: 2 cycles, or 5 with a wrong prediction. -/
theorem Costed.counted (h : Costed s v c target 0) {n : Nat} (hftm : pswFTM (s.bank c.slot).psw = false) :
    Costed s (if n = 5 then v.tick c.e 9 1 else v) c target (if n = 5 ∧ pswFTM (s.bank c.slot).psw = false then 1 else 0) := by
  by_cases hn : n = 5
  · rw [if_pos hn, if_pos ⟨hn, hftm⟩]
    exact h.miss
  · rw [if_neg hn, if_neg fun hmiss => hn hmiss.1]
    exact h
end

/-- Fixed-time mode leaves the branch target buffer alone (R104). -/
theorem btbAfter_of_ftm {s : State} {c : Cx} (hftm : pswFTM (s.bank c.slot).psw = true) (target : Option Nat) (btb : Tbl (List BtbEntry)) :
    btbAfter s c target btb = btb := if_pos hftm

theorem exec_branchCost_ftm {s : State} {c : Cx} {target : Option Nat} (hftm : pswFTM (s.bank c.slot).psw = true) :
    M.exec (branchCost c target) s = (.ok 5, s.branchTaken c target) := by
  unfold branchCost State.branchTaken
  cases target <;> simp [M.exec_bind, exec_map, hftm]

/-- The key of the branch at IA (R191). -/
def State.branchKey (s : State) (c : Cx) : BtbKey := s.btbKey c.slot (pswIA (s.bank c.slot).psw)

/-- The set of the branch target buffer in which the branch at IA is looked up. -/
def State.branchSet (s : State) (c : Cx) : List BtbEntry := tget [] (s.eng c.e).btb (s.branchKey c).set

/-- The entry that the branch at IA hits. -/
def State.branchHit (s : State) (c : Cx) : Option BtbEntry := (s.branchKey c).find (s.branchSet c)

theorem State.branchHit_eq (s : State) (c : Cx) : (s.btbKey c.slot (pswIA (s.bank c.slot).psw)).find
    (tget [] (s.eng c.e).btb (s.btbKey c.slot (pswIA (s.bank c.slot).psw)).set) = s.branchHit c := rfl

/-- The set of the branch at IA replaced. -/
def State.putSet (s : State) (c : Cx) (k : BtbKey) (l : List BtbEntry) : State := s.modEng c.e fun x => { x with btb := tset [] x.btb k.set l }

/-- The entry that a taken branch writes (R189, R191). -/
def BtbKey.entry (k : BtbKey) (c : Cx) (t : Nat) : BtbEntry := ⟨k.scrambled, k.tag, k.level, k.key, BitVec.ofNat 3 c.n.val, BitVec.ofNat 48 t ^^^ k.mask⟩

/-- What a branch that reads the branch target buffer leaves before a miss is counted. -/
def State.btbWritten (s : State) (c : Cx) : Option Nat → State
  | none => if (s.branchHit c).isSome then s.putSet c (s.branchKey c) ((s.branchKey c).without (s.branchSet c)) else s
  | some t => (s.tick c.e 8 1).putSet c (s.branchKey c) (((s.branchKey c).entry c t :: (s.branchKey c).without (s.branchSet c)).take 4)

section
variable {s : State} {c : Cx} (hftm : pswFTM (s.bank c.slot).psw = false)
include hftm

/-- A branch that is not taken drops the entry that it hits. -/
theorem btbAfter_not_taken : btbAfter s c none (s.eng c.e).btb =
    if (s.branchHit c).isSome then tset [] (s.eng c.e).btb (s.branchKey c).set ((s.branchKey c).without (s.branchSet c)) else (s.eng c.e).btb := by
  unfold Sys2Proof.btbAfter
  rw [hftm]
  rfl

/-- A taken branch writes its target as the most recent entry of its set. -/
theorem btbAfter_taken (t : Nat) : btbAfter s c (some t) (s.eng c.e).btb =
    tset [] (s.eng c.e).btb (s.branchKey c).set (((s.branchKey c).entry c t :: (s.branchKey c).without (s.branchSet c)).take 4) := by
  unfold Sys2Proof.btbAfter
  rw [hftm]
  rfl

theorem costed_btbWritten (target : Option Nat) : Costed s (s.btbWritten c target) c target 0 := by
  cases target with
  | none =>
    have hafter := btbAfter_not_taken hftm
    unfold State.btbWritten
    by_cases hhit : (s.branchHit c).isSome = true
    · rw [if_pos hhit] at hafter ⊢
      exact costed_modEng hafter
    · rw [if_neg hhit] at hafter ⊢
      exact costed_branchTaken hafter
  | some t => exact costed_modEng (btbAfter_taken hftm t)

theorem branchCycles_eq (target : Option Nat) :
    branchCycles s c target = if (s.branchHit c).map (fun y => (y.target ^^^ (s.branchKey c).mask).toNat) = target then 2 else 5 := by
  unfold Sys2Proof.branchCycles
  rw [hftm]
  rfl

/-- A branch that is not taken is predicted right when it hits no entry. -/
theorem exec_branchCost_not_taken : M.exec (branchCost c none) s = (.ok (branchCycles s c none),
    if branchCycles s c none = 5 then (s.btbWritten c none).tick c.e 9 1 else s.btbWritten c none) := by
  rw [branchCycles_eq hftm, State.btbWritten]
  cases hhit : s.branchHit c with
  | none => simp [branchCost, M.exec_bind, hftm, State.branchHit_eq, hhit]
  | some y => simp [branchCost, M.exec_bind, exec_map, hftm, State.branchHit_eq, hhit, State.putSet, State.branchKey, State.branchSet]

/-- A taken branch is predicted right when it hits an entry of its target. -/
theorem exec_branchCost_taken {t : Nat} (ht : t < 2 ^ 48) : M.exec (branchCost c (some t)) s = (.ok (branchCycles s c (some t)),
    if branchCycles s c (some t) = 5 then (s.btbWritten c (some t)).tick c.e 9 1 else s.btbWritten c (some t)) := by
  have hkey : ∀ ia, (s.tick c.e 8 1).btbKey c.slot ia = s.btbKey c.slot ia := fun ia => (tick_aside s c.e c.e 8 1).btbKey (by rw [State.bank_tick]) ia
  rw [branchCycles_eq hftm, State.btbWritten]
  cases hhit : s.branchHit c with
  | none => simp [branchCost, M.exec_bind, exec_map, hftm, hkey, State.branchHit_eq, hhit, State.putSet, State.branchKey, State.branchSet, BtbKey.entry]
  | some y =>
    have hright : ∀ v : BitVec 48, v.toNat = t ↔ v = BitVec.ofNat 48 t := fun v => by
      rw [← BitVec.toNat_inj, BitVec.toNat_ofNat, Nat.mod_eq_of_lt ht]
    simp only [Option.map_some, Option.some_inj, hright, State.branchKey]
    by_cases hsame : y.target ^^^ (s.btbKey c.slot (pswIA (s.bank c.slot).psw)).mask = BitVec.ofNat 48 t <;>
      simp [branchCost, M.exec_bind, exec_map, hftm, hkey, State.branchHit_eq, hhit, State.putSet, State.branchKey, State.branchSet, BtbKey.entry, hsame]
end

/-! ### Branches (R100, R104, R188) -/

section
variable {s s1 : State} {c : Cx} {target : Option Nat}

/-- The cost of a branch, and what it leaves, under fixed-time mode or not (R100, R104). -/
theorem exec_branchCost (ht : ∀ t, target = some t → t < 2 ^ 48) : ∃ u, M.exec (branchCost c target) s = (.ok (branchCycles s c target), u)
    ∧ Costed s u c target (if branchCycles s c target = 5 ∧ pswFTM (s.bank c.slot).psw = false then 1 else 0) := by
  cases hftm : pswFTM (s.bank c.slot).psw with
  | true =>
    have hcycles : branchCycles s c target = 5 := by rw [branchCycles, hftm]; rfl
    have hcosted := costed_branchTaken (s := s) (c := c) (target := target) (btbAfter_of_ftm hftm ..)
    exact ⟨_, by rw [exec_branchCost_ftm hftm, hcycles], by simpa using hcosted⟩
  | false =>
    have hcosted := (costed_btbWritten hftm target).counted (n := branchCycles s c target) hftm
    rw [hftm] at hcosted
    refine ⟨_, ?_, hcosted⟩
    cases target with
    | none => exact exec_branchCost_not_taken hftm
    | some t => exact exec_branchCost_taken hftm (ht t rfl)

/-- The end of a branch: its cost, its cycles, and where it goes. -/
theorem exec_branchTo (ht : ∀ t, target = some t → t < 2 ^ 48) (extra : Nat) : ∃ u,
    M.exec (branchTo c target extra) s
      = (.ok (doneOf target), u.cycles c.e (pswFTM (s.bank c.slot).psw) (branchCycles s c target + extra))
    ∧ Costed s u c target (if branchCycles s c target = 5 ∧ pswFTM (s.bank c.slot).psw = false then 1 else 0) := by
  obtain ⟨u, hcost, hcosted⟩ := exec_branchCost (s := s) (c := c) ht
  refine ⟨u, ?_, hcosted⟩
  cases target <;> simp [branchTo, branchTo.spendBranch, M.exec_bind, exec_map, hcost, hcosted.banks, doneOf]

/-- The completion of a branch-group instruction whose work, after a change of registers, is the end of a branch. -/
theorem Begins.branches {s2 : State} {pred : BitVec 4} {len : Len} {body : Cx → M Done} {f : Bank → Bank} {extra : Nat} {i : Instr}
    (h : Begins s c pred s1) (hl : c.len = len.bytes) (hi : exec i s = macroNext c.e pred len (branchMacro body) s)
    (ht : ∀ t, target = some t → t < 2 ^ 48) (hb : M.exec (body c) s1 = M.exec (branchTo c target extra) s2)
    (hf : Rebank s1 s2 c.slot f) (hpsw : (f (s1.bank c.slot)).psw = (s1.bank c.slot).psw) (hs : { s2 with banks := s1.banks } = s1) :
    Branches i s s1 c target extra f := by
  have haside : Aside s1 s2 c.e := by
    have hbanks : Aside { s2 with banks := s1.banks } s2 c.e := by constructor <;> intros <;> rfl
    rwa [hs] at hbanks
  have heng : s2.eng c.e = s1.eng c.e := by rw [← hs]; rfl
  have hreg : ∀ o, s2.reg o = s1.reg o := fun o => by rw [← hs]; rfl
  have hpsw2 : (s2.bank c.slot).psw = (s1.bank c.slot).psw := by rw [hf, if_pos rfl, hpsw]
  have hcycles : Sys2Proof.branchCycles s2 c target = Sys2Proof.branchCycles s1 c target := haside.branchCycles hpsw2 (by rw [heng]) target
  obtain ⟨u, hexec, hu⟩ := exec_branchTo (s := s2) (c := c) ht extra
  rw [hpsw2, hcycles] at hexec hu
  have hueng : u.eng c.e = { s1.eng c.e with btb := btbAfter s1 c target (s1.eng c.e).btb } := by rw [hu.eng, haside.btbAfter hpsw2, heng]
  unfold Branches
  refine h.goes hl hi rfl (hb.trans hexec) ?_ ?_ ?_ ?_ ?_
  · rw [State.eng_cycles, hueng]
    exact h.clean
  · intro j
    rw [State.bank_cycles, hu.banks, hf]
  · rw [State.eng_cycles, hueng]
    cases target <;> simp [goneOf, Engine.later, Engine.closed]
  · refine (((Tally.refl s1 c.e).keep hreg).trans hu.tally).cycles _ _ |>.of_sum fun o => ?_
    simp
    omega
  · exact (haside.trans hu.aside).trans (cycles_aside ..)
end

end Sys2Proof.Machine

namespace Sys2Proof

open Sys2Proof.Machine

/-! ### Targets (R93, R188) -/

theorem TargetOf.lt {x : FmtE} {ia t : Nat} (h : TargetOf x ia t) : t < 2 ^ 48 := by
  obtain ⟨-, rfl, -⟩ | ⟨-, -, hlt⟩ := h
  · exact x.tgt.isLt
  · exact hlt

section
variable {s : State} {c : Cx} {x : FmtE} {t : Nat}

theorem exec_branchTarget (h : TargetOf x (pswIA (s.bank c.slot).psw) t) : M.exec (branchTarget c x) s = (.ok t, s) := by
  unfold branchTarget
  obtain ⟨hlen, rfl, heven⟩ | ⟨hlen, htarget, hlt⟩ := h
  · have hodd : ¬ x.tgt.toNat % 2 = 1 := by omega
    simp only [if_pos hlen, if_neg hodd, M.exec_pure]
  · have hin : ¬ ((t : Int) < 0 ∨ 2 ^ 48 ≤ (t : Int)) := by omega
    simp only [if_neg hlen, M.exec_bind, exec_getPsw, BitVec.ofNat_toNat, ← BitVec.truncate_eq_setWidth, ← htarget, if_neg hin, M.exec_pure, Int.toNat_natCast]

/-- A branch may have 4, 6 or 12 bytes (R93). -/
theorem branchLengths (h : x.len ≠ .l8) : [Len.l4, .l6, .l12].contains x.len = true := by revert h; cases x.len <;> decide

/-- MASK is 0, and in 12 bytes W0[13:0] too. -/
theorem exec_plainBranch (hmask : x.mask = 0) (hoff : x.len = .l12 → x.off = 0) (s : State) : M.exec (plainBranch x) s = (.ok (), s) := by
  unfold plainBranch
  by_cases hlen : x.len = .l12
  · simp only [M.exec_bind, exec_zeroField, hmask, hoff hlen, if_pos hlen, if_true]
  · simp only [M.exec_bind, exec_zeroField, hmask, if_neg hlen, if_true, M.exec_pure]

/-- A target in a register is even and below 2^48 (R188). -/
theorem exec_registerTarget (heven : t % 2 = 0) (hlt : t < 2 ^ 48) (s : State) : M.exec (registerTarget t) s = (.ok t, s) := by
  have hodd : ¬ t % 2 = 1 := by omega
  unfold registerTarget
  simp only [if_neg hodd, if_neg (Nat.not_le.2 hlt), M.exec_pure]
end

end Sys2Proof

namespace Sys2Proof.Machine

/-! ### B, BC, BR and DBNZ (R188) -/

section
variable {s s1 : State} {c : Cx} {target : Option Nat} {t : Nat}

/-- A branch whose work changes no register. -/
theorem Begins.branches0 {pred : BitVec 4} {len : Len} {body : Cx → M Done} {i : Instr}
    (h : Begins s c pred s1) (hl : c.len = len.bytes) (hi : exec i s = macroNext c.e pred len (branchMacro body) s)
    (ht : ∀ t, target = some t → t < 2 ^ 48) (hb : M.exec (body c) s1 = M.exec (branchTo c target 0) s1) : Branches i s s1 c target 0 id :=
  h.branches hl hi ht hb (Rebank.refl _ _) rfl rfl

theorem target_lt (ht : t < 2 ^ 48) : ∀ u, some t = some u → u < 2 ^ 48 := by
  rintro _ ⟨⟩
  exact ht

theorem Begins.br {x : FmtA} (h : Begins s c x.pred s1) (hx : OnlyRa x) (hl : c.len = 4) (ht : t = ((s1.bank c.slot).getG x.ra).toNat)
    (heven : t % 2 = 0) (hlt : t < 2 ^ 48) : Branches (.br c.e x) s s1 c (some t) 0 id := by
  obtain ⟨hlen, hrb, hrc, hmod⟩ := hx
  have hl4 : [Len.l4].contains x.len = true := by rw [hlen]; rfl
  refine h.branches0 (by rw [hl, hlen]; rfl) rfl (target_lt hlt) ?_
  simp only [M.exec_bind, exec_lengthIn, hl4, exec_zeroField, hrb, hrc, hmod, if_true, exec_getG, ← ht, exec_registerTarget heven hlt]

variable {x : FmtE} (h : Begins s c x.pred s1) (hl : c.len = x.len.bytes)
include h hl

section
variable (hlen : x.len ≠ .l8) (hmask : x.mask = 0) (hoff : x.len = .l12 → x.off = 0)
include hlen hmask hoff

theorem Begins.b (hm : x.m = 0) (ht : TargetOf x (pswIA (s1.bank c.slot).psw) t) : Branches (.b c.e x) s s1 c (some t) 0 id := by
  refine h.branches0 hl rfl (target_lt ht.lt) ?_
  simp only [M.exec_bind, exec_lengthIn, branchLengths hlen, exec_zeroField, hm, if_true, exec_plainBranch hmask hoff, exec_branchTarget ht]

theorem Begins.bc_taken (hcc : bit x.m (3 - (s1.bank c.slot).cc.toNat) = true) (ht : TargetOf x (pswIA (s1.bank c.slot).psw) t) :
    Branches (.bc c.e x) s s1 c (some t) 0 id := by
  refine h.branches0 hl rfl (target_lt ht.lt) ?_
  simp only [M.exec_bind, exec_lengthIn, branchLengths hlen, if_true, exec_plainBranch hmask hoff, exec_getBank, maskBit, hcc, exec_branchTarget ht]

theorem Begins.bc_not_taken (hcc : bit x.m (3 - (s1.bank c.slot).cc.toNat) = false) : Branches (.bc c.e x) s s1 c none 0 id := by
  refine h.branches0 hl rfl nofun ?_
  simp only [M.exec_bind, exec_lengthIn, branchLengths hlen, if_true, exec_plainBranch hmask hoff, exec_getBank, maskBit, hcc, Bool.false_eq_true, if_false]
end

section
variable (hlen : x.len = .l4 ∨ x.len = .l6)
include hlen

theorem Begins.dbnz_taken (hcount : (s1.bank c.slot).getG x.m ≠ 1) (ht : TargetOf x (pswIA (s1.bank c.slot).psw) t) :
    Branches (.dbnz c.e x) s s1 c (some t) 0 (fun b => b.putG x.m (b.getG x.m - 1)) := by
  have hlens : [Len.l4, .l6].contains x.len = true := by obtain hx | hx := hlen <;> rw [hx] <;> rfl
  have hleft : ¬ (s1.bank c.slot).getG x.m - 1 = 0 := fun hzero => hcount (sub_eq_zero.1 hzero)
  refine h.branches (s2 := s1.modBank c.slot fun b => b.putG x.m ((s1.bank c.slot).getG x.m - 1)) hl rfl (target_lt ht.lt) ?_
    ((Rebank.one _ _ _).congr rfl) rfl rfl
  simp only [M.exec_bind, exec_lengthIn, hlens, if_true, exec_getG, if_neg hleft, exec_branchTarget ht, exec_setG]

theorem Begins.dbnz_ends (hcount : (s1.bank c.slot).getG x.m = 1) : Branches (.dbnz c.e x) s s1 c none 0 (fun b => b.putG x.m 0) := by
  have hlens : [Len.l4, .l6].contains x.len = true := by obtain hx | hx := hlen <;> rw [hx] <;> rfl
  have hleft : (s1.bank c.slot).getG x.m - 1 = 0 := sub_eq_zero.2 hcount
  refine h.branches hl rfl nofun ?_ (Rebank.one _ _ _) rfl rfl
  simp only [M.exec_bind, exec_lengthIn, hlens, if_true, exec_getG, hleft, exec_setG]
end
end

end Sys2Proof.Machine

namespace Sys2Proof.Proofs

open Sys2Proof Sys2Proof.Machine

/-- Settles O16: each body is its checks, its target, and the end of a branch. -/
theorem branchResults : Obligations.BranchResults := by
  intro s s1 c
  refine ⟨fun x t hl h h12 => ⟨fun hmask hlen => ⟨fun hm ht => ?_, fun hcc ht => ?_, fun hcc => ?_⟩, fun hlen => ⟨fun hcount ht => ?_, fun hcount => ?_⟩⟩,
    fun x t hx hl h ht heven hlt => ?_⟩
  · exact h.b hl hlen hmask (fun hx => (h12 hx).2) hm ht
  · exact h.bc_taken hl hlen hmask (fun hx => (h12 hx).2) hcc ht
  · exact h.bc_not_taken hl hlen hmask (fun hx => (h12 hx).2) hcc
  · exact h.dbnz_taken hl hlen hcount ht
  · exact h.dbnz_ends hl hlen hcount
  · exact h.br hx hl ht heven hlt

end Sys2Proof.Proofs
end

section
/-! SUPPORT. The resume of a routine whose stop no entry has followed, which refutes O39 (R282, R326). -/

namespace Sys2Proof.Proofs

open Sys2Proof Sys2Proof.Machine

/-- A row that changes an engine but not its mark of a stop at a commit point. -/
theorem leaves_intact_modEng {o : Host.Outcome State Fault Refusal} {s : State} {e : Eng} {f : Engine → Engine} (h : o = .next (s.modEng e f))
    (hf : ∀ y, (f y).intact = y.intact) : leaves (fun t => (t.eng e).intact) o = some (s.eng e).intact := by
  rw [h, leaves, State.eng_modEng, hf]

/-- A commit record of MCALL 0 under customer generation 0. -/
def routineRecord : CommitRec := { (default : CommitRec) with valid := true, n := 0, gen := 0, resume := 0x3001 }

/-- Engine 0, whose window has 64 valid entries, has stopped MCALL 0 at a commit point of level 0, and nothing has been entered since. -/
def stoppedInRoutine : State :=
  (runningWith { bankAt codeAt [] with psw := mkPsw codeAt 0 0 true false false true 0, commit := routineRecord }).modEng 0
    fun y => { y with intact := true, cs := { y.cs with entries := List.replicate 64 0xB000 } }

theorem stoppedInRoutine_resumes : Resumes stoppedInRoutine (onEngine0 4) (resumedIn stoppedInRoutine (onEngine0 4)) where
  ready := by decide +kernel
  going := by decide +kernel
  fetched := ⟨_, fetch_of_isOk (by decide +kernel), rfl⟩

/-- Refutes O39: MCALL resumed with no entry since its stop. R282 has the model skip the resume term and clear the mark of the stop, and the statement counts
the term and keeps the mark. -/
theorem not_microCalls : ¬ Obligations.MicroCalls := by
  intro h
  have hclears : leaves (fun t => (t.eng (onEngine0 4).e).intact) (exec (.mcall (onEngine0 4).e (namesThree .l4)) stoppedInRoutine) = some false := by
    decide +kernel
  have hresumed := (h stoppedInRoutine _ (onEngine0 4) (namesThree .l4) (.inl rfl) rfl).2 stoppedInRoutine_resumes (by decide +kernel) (by decide +kernel)
    (by decide +kernel) (by decide +kernel) (by decide +kernel)
  have hkept : ((resumedIn stoppedInRoutine (onEngine0 4)).eng (onEngine0 4).e).intact = true := by decide +kernel
  have hkeeps := leaves_intact_modEng hresumed fun _ => rfl
  rw [hclears, hkept] at hkeeps
  exact absurd hkeeps (by decide)

end Sys2Proof.Proofs
end

section
/-! SUPPORT. Fixed decimal in registers (R72 to R75, R106 to R108, R113, R116, R117, R119, R121, R123, R124, R131, R132): the result rule and the rounding modes
by their cases, the field checks of the register forms, and the tests of an image. -/

namespace Sys2Proof.Machine

/-! ### The result rule (R75, R108) -/

section
variable {r : Int} {n : Nat}

theorem finish_of_fits (doe u : Bool) (h : r.natAbs < 10 ^ n) :
    finish doe r n u = .ok ⟨r.natAbs, if r < 0 then 0xD else if u then 0xF else 0xC, if r = 0 then 0 else if r < 0 then 1 else 2⟩ := by
  simp only [finish, if_neg (Nat.not_le.2 h), resultSign_decide, decide_eq_true_eq]

theorem finish_of_overflow (u : Bool) (h : 10 ^ n ≤ r.natAbs) :
    finish false r n u = .ok ⟨r.natAbs % 10 ^ n, if r < 0 ∧ r.natAbs % 10 ^ n ≠ 0 then 0xD else if u then 0xF else 0xC, 3⟩ := by
  simp [finish, if_pos h, resultSign]

theorem finish_of_trap (u : Bool) (h : 10 ^ n ≤ r.natAbs) : finish true r n u = .error (packBits [(0, n), (8, decLength 127 r.natAbs)]) := by
  simp only [finish, if_pos h, if_true]
end

/-! ### Rounding (R116, R117) -/

/-- The kept magnitude is the quotient, or one more where the mode says so. -/
theorem roundKept_eq {a : Int} {p mode : Nat} {up : Bool} (hp : 0 < p)
    (hup : roundUp mode (decide (a < 0)) (a.natAbs / 10 ^ p) (a.natAbs % 10 ^ p) (5 * 10 ^ (p - 1)) = true ↔ up = true) :
    roundKept a p mode = (if a < 0 then -1 else 1) * ((if up then a.natAbs / 10 ^ p + 1 else a.natAbs / 10 ^ p : Nat) : Int) := by
  obtain rfl := Bool.eq_iff_iff.2 hup
  simp only [roundKept, if_neg hp.ne', signed_eq, decide_eq_true_eq]

/-- Half a unit is half of 10^p. -/
theorem two_mul_half {p : Nat} (hp : 0 < p) : 10 ^ p = 2 * (5 * 10 ^ (p - 1)) := by
  obtain ⟨k, rfl⟩ := Nat.exists_eq_succ_of_ne_zero hp.ne'
  rw [Nat.succ_sub_one, Nat.pow_succ]
  ring

/-! ### Fields (R90, R107, R113) -/

/-- A field is zero when each of its bits is 0. -/
theorem field_eq_zero_iff {n : Nat} {x : BitVec n} {lo w : Nat} : (field x lo w : BitVec w) = 0 ↔ ∀ i < w, bit x (lo + i) = false := by
  constructor
  · intro h i hi
    have hbit := getLsbD_field x lo w i
    rw [h, decide_eq_true hi, Bool.true_and] at hbit
    exact hbit.symm.trans BitVec.getLsbD_zero
  · intro h
    refine BitVec.eq_of_getLsbD_eq fun i hi => ?_
    rw [getLsbD_field, decide_eq_true hi, Bool.true_and]
    exact (h i hi).trans BitVec.getLsbD_zero.symm

/-- MOD[5:1] is zero when MOD[1] and MOD[5:2] are. -/
theorem field_one_five {x : BitVec 6} (h : (field x 1 5 : BitVec 5) = 0) : bit x 1 = false ∧ (field x 2 4 : BitVec 4) = 0 := by
  have hbits := field_eq_zero_iff.1 h
  refine ⟨hbits 0 (by decide), field_eq_zero_iff.2 fun i hi => ?_⟩
  rw [show 2 + i = 1 + (i + 1) by omega]
  exact hbits (i + 1) (by omega)

/-- A limit of six bits in an immediate of 16. -/
theorem field_limit {n : Nat} (h : n < 64) :
    (field (BitVec.ofNat 16 n) 6 10 : BitVec 10) = 0 ∧ (field (BitVec.ofNat 16 n) 0 6 : BitVec 6).toNat = n := by
  have hlow : n % 65536 = n := Nat.mod_eq_of_lt (by omega)
  have hhigh : n >>> 6 = 0 := by rw [Nat.shiftRight_eq_div_pow]; exact Nat.div_eq_of_lt h
  refine ⟨BitVec.eq_of_toNat_eq ?_, ?_⟩
  · simp [field, hlow, hhigh]
  · simpa [field, hlow] using h

section
variable {s : State} {x : FmtA} {n : Nat}

theorem lengths_of_limitOf (h : LimitOf x n) : [Len.l4, .l6].contains x.len = true := by
  obtain ⟨hlen, -⟩ | ⟨hlen, -⟩ := h <;> rw [hlen] <;> rfl

theorem exec_limit63 (h : LimitOf x n) : M.exec (limit63 x) s = (.ok n, s) := by
  unfold limit63
  obtain ⟨hlen, rfl⟩ | ⟨hlen, himm, hpos, hn⟩ := h
  · have hnot6 : x.len ≠ .l6 := by rw [hlen]; decide
    simp only [if_neg hnot6, M.exec_pure]
  · obtain ⟨hhigh, hlow⟩ := field_limit hn
    have hne : (n != 0) = true := bne_iff_ne.2 hpos.ne'
    simp only [if_pos hlen, M.exec_bind, exec_zeroField, exec_require, himm, hhigh, hlow, hne, if_true, M.exec_pure]

/-- The fields of DTB and BTD pass their checks (R131, R132). -/
theorem exec_convertFields {d : BitVec 4} (hlen : x.len = .l4) (hd : d.toNat ≤ 7) (hrc : x.rc = 0) (hmod : field x.mod 1 5 = 0) :
    M.exec (convertFields x d) s = (.ok (), s) := by
  have hl4 : [Len.l4].contains x.len = true := by rw [hlen]; rfl
  unfold convertFields
  simp only [M.exec_bind, exec_lengthIn, hl4, exec_lowReg, hd, exec_zeroField, hrc, hmod, if_true]
end

/-! ### Tests (R123, R124, R127) -/

theorem ccValue_eq (v : Int) : ccValue v = if v = 0 then 0 else if v < 0 then 1 else 2 := rfl

/-- A position is named when some nibble is no digit. -/
theorem firstBad_isSome {l : List Nat} {pos : Nat} : (firstBad l pos).isSome = true ↔ ∃ d ∈ l, 10 ≤ d := by
  rw [Option.isSome_iff_ne_none, ne_eq, firstBad_eq_none]
  push Not
  rfl

/-- The test of an image: 1 for its sign, 2 for its digits (R124). -/
theorem testPacked_eq (n x : Nat) [Decidable (∃ i, i < n ∧ 10 ≤ x / 16 ^ (i + 1) % 16)] :
    testPacked n x = (if x % 16 < 10 then 1 else 0) + if ∃ i, i < n ∧ 10 ≤ x / 16 ^ (i + 1) % 16 then 2 else 0 := by
  have hsign : b2n (!signOk (x % 16)) = if x % 16 < 10 then 1 else 0 := by simp [b2n, signOk]
  have hdigits : (firstBad (nibbles n (x / 16)) 1).isSome = true ↔ ∃ i, i < n ∧ 10 ≤ x / 16 ^ (i + 1) % 16 := by
    simp [firstBad_isSome, nibbles_eq, Nat.div_div_eq_div_mul, Nat.pow_succ']
  rw [testPacked, hsign]
  simp [b2n, hdigits]

/-! ### Results (R119, R121, R123) -/

section
variable {s s1 : State} {c : Cx} {x : FmtA} {a q : Int} {n : Nat} {f : Finished}

/-- DAD and DSB write the result of their two sources. -/
theorem exec_decimalAdd (g : Int → Int → Int) (hlimit : LimitOf x n) (hra : x.ra.toNat ≤ 7) (hrb : x.rb.toNat ≤ 7) (hrc : x.rc.toNat ≤ 7)
    (hmod : field x.mod 1 5 = 0) (ha : PackedValue 63 ((s.bank c.slot).getD x.rb).toNat a) (hq : PackedValue 63 ((s.bank c.slot).getD x.rc).toNat q)
    (hfinish : finish (pswDOE (s.bank c.slot).psw) (g a q) n (bit x.mod 0) = .ok f) :
    M.exec ((decimalAdd x g).body c) s = (.ok .seq, s.withResult c x.ra f) := by
  simp only [decimalAdd, M.exec_bind, exec_lengthIn, lengths_of_limitOf hlimit, exec_lowReg, hra, hrb, hrc, exec_zeroField, hmod, exec_limit63 hlimit,
    exec_sourceD 1 ha, exec_sourceD 2 hq, exec_finishM hfinish, exec_putD, if_true, M.exec_pure]

theorem Begins.dzp (h : Begins s c x.pred s1) (hl : c.len = x.len.bytes) (hlimit : LimitOf x n) (hra : x.ra.toNat ≤ 7) (hrb : x.rb.toNat ≤ 7) (hrc : x.rc = 0)
    (hmod : field x.mod 1 5 = 0) (ha : PackedValue 63 ((s1.bank c.slot).getD x.rb).toNat a)
    (hfinish : finish (pswDOE (s1.bank c.slot).psw) a n (bit x.mod 0) = .ok f) : Completes (.dzp c.e x) s s1 c 3 (putResult x.ra f) := by
  refine h.completesResult h.clean hl rfl ?_
  simp only [M.exec_bind, exec_lengthIn, lengths_of_limitOf hlimit, exec_lowReg, hra, hrb, exec_zeroField, hrc, hmod, exec_limit63 hlimit, exec_sourceD 1 ha,
    exec_finishM hfinish, exec_putD, if_true, M.exec_pure]

/-- DMP with S = 1: one register, under a limit. -/
theorem Begins.dmp_single (h : Begins s c x.pred s1) (hl : c.len = x.len.bytes) (hlimit : LimitOf x n) (hra : x.ra.toNat ≤ 7) (hrb : x.rb.toNat ≤ 7)
    (hrc : x.rc.toNat ≤ 7) (hmod : field x.mod 2 4 = 0) (hsingle : bit x.mod 1 = true) (ha : PackedValue 63 ((s1.bank c.slot).getD x.rb).toNat a)
    (hq : PackedValue 63 ((s1.bank c.slot).getD x.rc).toNat q) (hfinish : finish (pswDOE (s1.bank c.slot).psw) (a * q) n (bit x.mod 0) = .ok f) :
    Completes (.dmp c.e x) s s1 c 34 (putResult x.ra f) := by
  refine h.completesResult h.clean hl rfl ?_
  simp only [M.exec_bind, hsingle, exec_lengthIn, lengths_of_limitOf hlimit, exec_lowReg, hra, hrb, hrc, exec_zeroField, hmod, Bool.not_true, Bool.false_eq_true,
    if_false, if_true, exec_limit63 hlimit, exec_sourceD 1 ha, exec_sourceD 2 hq, exec_finishM hfinish, exec_putD, M.exec_pure]

/-- DMP with S = 0: a pair of registers (R51). -/
theorem Begins.dmp_pair (h : Begins s c x.pred s1) (hl : c.len = x.len.bytes) (hlen : x.len = .l4) (hra : x.ra.toNat ≤ 7) (hrb : x.rb.toNat ≤ 7)
    (hrc : x.rc.toNat ≤ 7) (hmod : field x.mod 1 5 = 0) (heven : bit x.ra 0 = false) (ha : PackedValue 63 ((s1.bank c.slot).getD x.rb).toNat a)
    (hq : PackedValue 63 ((s1.bank c.slot).getD x.rc).toNat q) (hfinish : finish (pswDOE (s1.bank c.slot).psw) (a * q) 126 (bit x.mod 0) = .ok f) :
    Completes (.dmp c.e x) s s1 c 34 (fun b => ((b.putD x.ra (BitVec.ofNat 256 (imageOf 63 (f.mag / 10 ^ 63) f.sign))).putD (x.ra + 1)
      (BitVec.ofNat 256 (imageOf 63 f.mag f.sign))).putCC f.cc) := by
  have hl4 : [Len.l4].contains x.len = true := by rw [hlen]; rfl
  obtain ⟨hpair, hzero⟩ := field_one_five hmod
  refine h.completes3 (f1 := fun b => b.putD x.ra (BitVec.ofNat 256 (imageOf 63 (f.mag / 10 ^ 63) f.sign)))
    (f2 := fun b => b.putD (x.ra + 1) (BitVec.ofNat 256 (imageOf 63 f.mag f.sign))) (f3 := fun b => b.putCC f.cc) hl rfl ?_ rfl
  simp only [M.exec_bind, hpair, Bool.not_false, exec_lengthIn, hl4, exec_lowReg, hra, hrb, hrc, exec_zeroField, hzero, exec_evenReg, heven, Bool.false_eq_true,
    if_false, if_true, exec_limit63 (.inl ⟨hlen, rfl⟩), exec_sourceD 1 ha, exec_sourceD 2 hq, exec_finishM hfinish, putPair, exec_setD, exec_setCC, imageOf_eq,
    M.exec_pure]

theorem Begins.dcp (h : Begins s c x.pred s1) (hl : c.len = x.len.bytes) (hlen : x.len = .l4) (hra : x.ra = 0) (hrb : x.rb.toNat ≤ 7) (hrc : x.rc.toNat ≤ 7)
    (hmod : x.mod = 0) (ha : PackedValue 63 ((s1.bank c.slot).getD x.rb).toNat a) (hq : PackedValue 63 ((s1.bank c.slot).getD x.rc).toNat q) :
    Completes (.dcp c.e x) s s1 c 3 (fun b => b.putCC (ccCompare a q)) := by
  have hl4 : [Len.l4].contains x.len = true := by rw [hlen]; rfl
  refine h.completes1 (f := fun b => b.putCC (ccCompare a q)) hl rfl ?_ rfl
  simp only [M.exec_bind, exec_lengthIn, hl4, exec_lowReg, hrb, hrc, exec_zeroField, hra, hmod, exec_sourceD 1 ha, exec_sourceD 2 hq, exec_setCC, if_true,
    M.exec_pure]

/-! ### Conversions and the test of an image (R124, R131, R132) -/

theorem Begins.dtb {fits : Bool} (h : Begins s c x.pred s1) (hl : c.len = x.len.bytes) (hlen : x.len = .l4) (hrb : x.rb.toNat ≤ 7) (hrc : x.rc = 0)
    (hmod : field x.mod 1 5 = 0) (ha : PackedValue 63 ((s1.bank c.slot).getD x.rb).toNat a)
    (hfits : fits = true ↔ if bit x.mod 0 then 0 ≤ a ∧ a < 2 ^ 64 else -2 ^ 63 ≤ a ∧ a < 2 ^ 63)
    (hdoe : fits = true ∨ pswDOE (s1.bank c.slot).psw = false) :
    Completes (.dtb c.e x) s s1 c 18 (fun b => (b.putG x.ra (BitVec.ofInt 64 a)).putCC (if fits then ccValue a else 3)) := by
  have hrange : (if bit x.mod 0 then decide (0 ≤ a) && decide (a < 2 ^ 64) else decide (-2 ^ 63 ≤ a) && decide (a < 2 ^ 63)) = fits := by
    rw [Bool.eq_iff_iff, hfits]
    cases bit x.mod 0 <;> simp
  have hpass : (!fits && pswDOE (s1.bank c.slot).psw) = false := by
    obtain hfit | hoff := hdoe
    · rw [hfit, Bool.not_true, Bool.false_and]
    · rw [hoff, Bool.and_false]
  refine h.completes2 (f1 := fun b => b.putG x.ra (BitVec.ofInt 64 a)) (f2 := fun b => b.putCC (if fits then ccValue a else 3)) hl rfl ?_ rfl
  simp only [M.exec_bind, exec_convertFields hlen hrb hrc hmod, exec_sourceD 1 ha, hrange, exec_getPsw, hpass, Bool.false_eq_true, if_false, exec_setG, exec_setCC,
    M.exec_pure]

theorem Begins.btd (h : Begins s c x.pred s1) (hl : c.len = x.len.bytes) (hlen : x.len = .l4) (hra : x.ra.toNat ≤ 7) (hrc : x.rc = 0) (hmod : field x.mod 1 5 = 0)
    (hfinish : finish (pswDOE (s1.bank c.slot).psw)
      (if bit x.mod 0 then (((s1.bank c.slot).getG x.rb).toNat : Int) else ((s1.bank c.slot).getG x.rb).toInt) 63 (bit x.mod 0) = .ok f) :
    Completes (.btd c.e x) s s1 c 22 (putResult x.ra f) := by
  refine h.completesResult h.clean hl rfl ?_
  simp only [M.exec_bind, exec_convertFields hlen hra hrc hmod, exec_getG, exec_finishM hfinish, exec_putD, M.exec_pure]

theorem Begins.dts_register (h : Begins s c x.pred s1) (hl : c.len = x.len.bytes) (hlen : x.len = .l4) (hra : x.ra = 0) (hrb : x.rb.toNat ≤ 7) (hrc : x.rc = 0)
    (hmod : x.mod = 0) : Completes (.dts c.e (.reg x)) s s1 c 3 (fun b => b.putCC (testPacked 63 ((s1.bank c.slot).getD x.rb).toNat)) := by
  have hl4 : [Len.l4].contains x.len = true := by rw [hlen]; rfl
  refine h.completes1 (f := fun b => b.putCC (testPacked 63 ((s1.bank c.slot).getD x.rb).toNat)) hl rfl ?_ rfl
  simp only [M.exec_bind, exec_lengthIn, hl4, exec_lowReg, hrb, exec_zeroField, hra, hrc, hmod, exec_getD, exec_setCC, if_true, M.exec_pure]
end

end Sys2Proof.Machine

namespace Sys2Proof.Proofs

open Sys2Proof Sys2Proof.Machine

theorem resultRuleRules_holds : resultRuleRules := by
  intro doe u r n plus
  refine ⟨fun hfits => ?_, fun hover hdoe => ?_, fun hover hdoe => ?_⟩
  · exact ⟨_, finish_of_fits doe u hfits, Finished.image_eq .., rfl⟩
  · rw [hdoe]
    exact ⟨_, finish_of_overflow u hover, Finished.image_eq .., rfl⟩
  · rw [hdoe]
    exact ⟨_, finish_of_trap u hover⟩

theorem roundingRules_holds : roundingRules := by
  intro a p
  refine ⟨fun mode => rfl, fun hp => ?_⟩
  have hhalf := two_mul_half hp
  intro m rest keep
  refine ⟨roundKept_eq hp ?_, roundKept_eq hp ?_, roundKept_eq hp ?_, roundKept_eq hp Iff.rfl, roundKept_eq hp ?_, roundKept_eq hp ?_, roundKept_eq hp ?_⟩
  · simp only [roundUp, decide_eq_true_eq]
    omega
  · simp only [roundUp, decide_eq_true_eq, Bool.or_eq_true, Bool.and_eq_true, beq_iff_eq]
    omega
  · simp only [roundUp, decide_eq_true_eq]
    omega
  · simp [roundUp, rest]
  · simp [roundUp, rest]
  · simp [roundUp, rest]

/-- Settles O7: a source is good when its sign and its digits are, and the result rule and the rounding modes go by their cases. -/
theorem decimalRules : Obligations.DecimalRules := ⟨fun _ _ _ => checkPacked_eq_ok, resultRuleRules_holds, roundingRules_holds⟩

/-- Settles O5: each body is its checks, its sources by their digits, and one result by the result rule, or CC. -/
theorem decimalResults : Obligations.DecimalResults := by
  intro s s1 c x a q n hl h k doe u hra hrb hrc ha
  refine ⟨fun hlimit hmod hq f => ⟨fun hfinish => ?_, fun hfinish => ?_⟩, fun hlimit hmod hzero f hfinish => ?_, fun hlimit hmod hsingle hq f hfinish => ?_,
    fun hlen hmod heven hq f hfinish => ?_, fun hlen hmod hzero hq => ?_⟩
  · exact h.completesResult h.clean hl rfl (exec_decimalAdd _ hlimit hra hrb hrc hmod ha hq hfinish)
  · exact h.completesResult h.clean hl rfl (exec_decimalAdd _ hlimit hra hrb hrc hmod ha hq hfinish)
  · exact h.dzp hl hlimit hra hrb hzero hmod ha hfinish
  · exact h.dmp_single hl hlimit hra hrb hrc hmod hsingle ha hq hfinish
  · exact h.dmp_pair hl hlen hra hrb hrc hmod heven ha hq hfinish
  · exact h.dcp hl hlen hzero hrb hrc hmod ha hq

/-- Settles O8: each body is its checks, one source, and one result with CC, or CC alone. -/
theorem decimalConversions : Obligations.DecimalConversions := by
  intro s s1 c x hlen hc h hrc k doe u
  have hl : c.len = x.len.bytes := by rw [hlen]; exact hc
  refine ⟨fun hmod hrb v hv fits hfits hdoe => ?_, fun hmod hra f hfinish => ?_, fun hmod hra hrb image himage => ?_⟩
  · exact h.dtb hl hlen hrb hrc hmod hv hfits hdoe
  · exact h.btd hl hlen hra hrc hmod hfinish
  · subst himage
    have hdts := h.dts_register hl hlen hra hrb hrc hmod
    rwa [testPacked_eq] at hdts

end Sys2Proof.Proofs
end

section
/-! SUPPORT. The two-source integer instructions, the comparisons and the divisions (R54, R175 to R177): the second source, CC of a result, and the shifts. -/

namespace Sys2Proof.Machine

/-! ### The second source (R175) -/

section
variable {x : FmtA} {s : State}

theorem exec_twoSource (hlen : x.len = .l4 ∨ x.len = .l6 ∧ x.rc = 0) (hmod : x.mod = 0) : M.exec (twoSource x) s = (.ok (), s) := by
  unfold twoSource
  obtain hlen | ⟨hlen, hrc⟩ := hlen
  · simp [M.exec_bind, hlen, hmod]
  · simp [M.exec_bind, hlen, hmod, hrc]

theorem exec_src2 (hlen : x.len = .l4 ∨ x.len = .l6 ∧ x.rc = 0) (c : Cx) (signed : Bool) :
    M.exec (src2 c x signed) s = (.ok (secondOf x signed (s.bank c.slot)), s) := by
  unfold src2 secondOf
  obtain hlen | ⟨hlen, -⟩ := hlen
  · simp [hlen]
  · simp [hlen, sext_imm16, BitVec.truncate_eq_setWidth]
end

/-! ### CC of a result (R175) -/

theorem ccResult_eq (v : Word) : ccResult v = if v = 0 then 0 else if v.toInt < 0 then 1 else 2 := by
  have hsign : bit v 63 = true ↔ v.toInt < 0 := by
    have hmsb : bit v 63 = v.msb := rfl
    rw [hmsb, BitVec.msb_eq_toInt, decide_eq_true_iff]
  simp only [ccResult, hsign]

/-- A signed result that is the word's own value fits, and one that is not does not (R175). -/
theorem ofInt_toInt_iff (r : Int) : (BitVec.ofInt 64 r).toInt = r ↔ ¬ (r < -2 ^ 63 ∨ 2 ^ 63 ≤ r) := by
  rw [BitVec.toInt_ofInt, Int.bmod_def]
  omega

theorem ccSigned_eq (r : Int) : ccSigned r = ccOf r := by
  have hword := ofInt_toInt_iff r
  by_cases hfits : r < -2 ^ 63 ∨ 2 ^ 63 ≤ r
  · rw [ccSigned, ccOf, if_pos hfits, if_neg fun h => hword.1 h hfits]
  · have hvalue := hword.2 hfits
    have hzero : BitVec.ofInt 64 r = 0 ↔ r = 0 := by
      rw [← BitVec.toInt_inj, hvalue]
      rfl
    simp only [ccSigned, ccOf, if_neg hfits, ccResult_eq, hzero, hvalue, if_true]

/-- A word is the exact result of a bitwise operation. -/
theorem ccResult_eq_ccOf (v : Word) : ccResult v = ccOf v.toInt := by
  rw [← ccSigned_eq, ccSigned, BitVec.ofInt_toInt, if_pos rfl]

/-! ### Two sources and one result -/

section
variable {s s1 : State} {c : Cx} {x : FmtA} {signed : Bool} {count : Nat} {f : Word → Word → Word × Option Nat} {i : Instr}

/-- A two-source operation that names a CC writes G(RA) and CC. -/
theorem Begins.alu_cc {r : Word} {cc : Nat} (h : Begins s c x.pred s1) (hl : c.len = x.len.bytes) (hx : TwoSource x)
    (hi : exec i s = macroNext c.e x.pred x.len (aluOp x signed count f) s)
    (hf : f ((s1.bank c.slot).getG x.rb) (secondOf x signed (s1.bank c.slot)) = (r, some cc)) :
    Completes i s s1 c count (fun b => (b.putG x.ra r).putCC cc) := by
  obtain ⟨hlen, hmod⟩ := hx
  refine h.completes2 (f1 := fun b => b.putG x.ra r) (f2 := fun b => b.putCC cc) hl hi ?_ rfl
  simp only [aluOp, M.exec_bind, exec_twoSource hlen hmod, exec_getG, exec_src2 hlen, hf, exec_setG, exec_setCC, M.exec_pure]

/-- One that names none writes G(RA) alone. -/
theorem Begins.alu {r : Word} (h : Begins s c x.pred s1) (hl : c.len = x.len.bytes) (hx : TwoSource x)
    (hi : exec i s = macroNext c.e x.pred x.len (aluOp x signed count f) s)
    (hf : f ((s1.bank c.slot).getG x.rb) (secondOf x signed (s1.bank c.slot)) = (r, none)) :
    Completes i s s1 c count (fun b => b.putG x.ra r) := by
  obtain ⟨hlen, hmod⟩ := hx
  refine h.completes1 (f := fun b => b.putG x.ra r) hl hi ?_ rfl
  simp only [aluOp, M.exec_bind, exec_twoSource hlen hmod, exec_getG, exec_src2 hlen, hf, exec_setG, M.exec_pure]
end

/-! ### Shifts (R175) -/

section
variable (a : Word) (k : Nat)

theorem shiftLeft_eq_mul : a <<< k = BitVec.ofNat 64 (a.toNat * 2 ^ k) := by
  rw [← Nat.shiftLeft_eq]
  rfl

theorem ushiftRight_eq_div : a >>> k = BitVec.ofNat 64 (a.toNat / 2 ^ k) := by
  rw [← Nat.shiftRight_eq_div_pow, ← BitVec.toNat_ushiftRight, BitVec.ofNat_toNat, BitVec.setWidth_eq]

theorem sshiftRight_eq_div : a.sshiftRight k = BitVec.ofInt 64 (a.toInt / 2 ^ k) := by
  rw [BitVec.sshiftRight, Int.shiftRight_eq_div_pow, Nat.cast_pow, Nat.cast_ofNat]

theorem rotateLeft_eq_shifts (h : k < 64) : a.rotateLeft k = a <<< k ||| a >>> (64 - k) := by
  rw [BitVec.rotateLeft_def, Nat.mod_eq_of_lt h]
end

/-! ### Comparisons (R54, R175, R176) -/

/-- CC of a comparison by a reading of words as numbers that tells them apart. -/
theorem ccCompare_eq {f : Word → Int} (hf : Function.Injective f) (a q : Word) : ccCompare (f a) (f q) = ccRel (a == q) (decide (f a < f q)) := by
  simp only [ccCompare, ccRel, beq_iff_eq, decide_eq_true_eq, hf.eq_iff]

section
variable {s s1 : State} {c : Cx} {x : FmtA} {i : Instr}

theorem Begins.compare {f : Word → Word → Nat} (h : Begins s c x.pred s1) (hl : c.len = x.len.bytes) (hx : TwoSource x) (hra : x.ra = 0)
    (hi : exec i s = macroNext c.e x.pred x.len (compareOp x f) s) :
    Completes i s s1 c 1 (fun b => b.putCC (f ((s1.bank c.slot).getG x.rb) (secondOf x true (s1.bank c.slot)))) := by
  obtain ⟨hlen, hmod⟩ := hx
  refine h.completesFrom1 h.clean hl hi ?_
  simp only [compareOp, M.exec_bind, exec_twoSource hlen hmod, exec_zeroField, hra, if_true, exec_getG, exec_src2 hlen, exec_setCC, M.exec_pure]

/-- A write of a predicate that RA names; P0 discards it (R54). -/
theorem Bank.setPred_field (b : Bank) (r : BitVec 4) (v : Bool) :
    b.setPred r.toNat v = if r = 0 then b else { b with p := setField b.p r.toNat 1 (b2n v) } := by
  have hzero : r.toNat = 0 ↔ r = 0 := by rw [← BitVec.toNat_inj]; rfl
  simp only [Bank.setPred, hzero]

theorem Begins.cmpp {v : Bool} (h : Begins s c x.pred s1) (hl : c.len = x.len.bytes) (hlen : x.len = .l4 ∨ x.len = .l6 ∧ x.rc = 0)
    (hmod : field x.mod 4 2 = 0) (hra : x.ra.toNat ≤ 7)
    (hv : relation (field x.mod 0 3 : BitVec 3).toNat ((s1.bank c.slot).getG x.rb) (secondOf x true (s1.bank c.slot)) = some v) :
    Completes (.cmpp c.e x) s s1 c 1 (fun b => b.setPred x.ra.toNat (v ^^ bit x.mod 3)) := by
  have hlens : [Len.l4, .l6].contains x.len = true := by obtain hlen | ⟨hlen, -⟩ := hlen <;> rw [hlen] <;> rfl
  refine h.completesFrom1 h.clean hl rfl ?_
  obtain hlen' | ⟨hlen', hrc⟩ := hlen
  · have hnot6 : x.len ≠ .l6 := by rw [hlen']; decide
    simp only [M.exec_bind, exec_lengthIn, hlens, if_true, exec_zeroField, hmod, if_neg hnot6, exec_lowReg, hra, exec_getG, exec_src2 (.inl hlen'), hv,
      exec_modBank, M.exec_pure]
  · simp only [M.exec_bind, exec_lengthIn, hlens, if_true, exec_zeroField, hmod, if_pos hlen', hrc, exec_lowReg, hra, exec_getG,
      exec_src2 (.inr ⟨hlen', hrc⟩), hv, exec_modBank, M.exec_pure]
end

/-! ### Divisions (R177) -/

section
variable {s s1 : State} {c : Cx} {x : FmtA} {i : Instr} {f : Word → Word → Word × Word × Nat} {q r : Word} {cc : Nat}

theorem Begins.divide (h : Begins s c x.pred s1) (hlen : x.len = .l4) (hl : c.len = 4) (hmod : x.mod = 0) (heven : bit x.ra 0 = false)
    (hi : exec i s = macroNext c.e x.pred x.len (divideOp x f) s) (hnonzero : (s1.bank c.slot).getG x.rc ≠ 0)
    (hf : f ((s1.bank c.slot).getG x.rb) ((s1.bank c.slot).getG x.rc) = (q, r, cc)) :
    Completes i s s1 c 38 (fun b => ((b.putG x.ra q).putG (x.ra + 1) r).putCC cc) := by
  have hl4 : [Len.l4].contains x.len = true := by rw [hlen]; rfl
  refine h.completes3 (f1 := fun b => b.putG x.ra q) (f2 := fun b => b.putG (x.ra + 1) r) (f3 := fun b => b.putCC cc) (by rw [hl, hlen]; rfl) hi ?_ rfl
  simp only [divideOp, M.exec_bind, exec_lengthIn, hl4, if_true, exec_zeroField, hmod, exec_evenReg, heven, Bool.false_eq_true, if_false, exec_getG,
    hnonzero, hf, exec_setG, exec_setCC, M.exec_pure]
end

/-- The remainder is what the truncated quotient leaves. -/
theorem tmod_eq_sub (a q : Int) : a.tmod q = a - a.tdiv q * q := by
  rw [Int.tmod_def, mul_comm]

end Sys2Proof.Machine

namespace Sys2Proof.Proofs

open Sys2Proof Sys2Proof.Machine

/-- Settles O1: each body is its checks, its two sources, and the write of G(RA) with the CC that its row names. -/
theorem twoSourceResults : Obligations.TwoSourceResults := by
  intro s s1 c x hx hl h a q u k
  have hk : k < 64 := Nat.mod_lt _ (by decide)
  refine ⟨h.alu_cc hl hx rfl ?_, h.alu_cc hl hx rfl ?_, h.alu_cc hl hx rfl ?_, h.alu_cc hl hx rfl ?_, h.alu_cc hl hx rfl ?_, h.alu_cc hl hx rfl ?_,
    h.alu hl hx rfl ?_, h.alu hl hx rfl ?_, h.alu hl hx rfl ?_, h.alu hl hx rfl ?_⟩
  · rw [ccSigned_eq]
  · rw [ccSigned_eq]
  · rw [ccSigned_eq]
  · rw [ccResult_eq_ccOf]
  · rw [ccResult_eq_ccOf]
  · rw [ccResult_eq_ccOf]
  · exact congrArg (·, none) (shiftLeft_eq_mul a k)
  · exact congrArg (·, none) (ushiftRight_eq_div a k)
  · exact congrArg (·, none) (sshiftRight_eq_div a k)
  · exact congrArg (·, none) (rotateLeft_eq_shifts a k hk)

/-- Settles O2: CMP and CMPU read the words as numbers that differ when the words do, and CMPP's relations are those of its codes. -/
theorem compareResults : Obligations.CompareResults := by
  intro s s1 c x hl h a q
  refine ⟨fun hx hra => ⟨?_, ?_⟩, fun hlen hmod hra code v hcode hv => ?_⟩
  · rw [← ccCompare_eq (f := BitVec.toInt) (fun _ _ => BitVec.toInt_inj.1)]
    exact h.compare (f := fun a b => ccCompare a.toInt b.toInt) hl hx hra rfl
  · have hcc := ccCompare_eq (f := fun w : Word => (w.toNat : Int)) (fun _ _ hn => BitVec.toNat_inj.1 (Int.ofNat.inj hn)) a q
    simp only [Nat.cast_lt] at hcc
    rw [← hcc]
    exact h.compare (f := fun a b => ccCompare a.toNat b.toNat) hl hx hra rfl
  · have hnat : (field x.mod 0 3 : BitVec 3).toNat = code.val := by rw [hcode, BitVec.toNat_ofNat]; omega
    have hrelation : relation (field x.mod 0 3 : BitVec 3).toNat a q = some v := by
      rw [hnat, hv]
      fin_cases code
      · exact congrArg some (beq_eq_decide a q)
      · exact congrArg some ((congrArg not (beq_eq_decide a q)).trans decide_not.symm)
      all_goals rfl
    have hcmpp := h.cmpp hl hlen hmod hra hrelation
    simp only [Bank.setPred_field] at hcmpp
    exact hcmpp

/-- Settles O4: each body is its checks, its two sources, and the writes of G(RA), G(RA + 1) and CC. -/
theorem divideResults : Obligations.DivideResults := by
  intro s s1 c x hlen hmod heven hl h a q hq
  have hpos : 0 < q.toNat := Nat.pos_of_ne_zero fun hzero => hq (BitVec.toNat_inj.1 hzero)
  refine ⟨h.divide hlen hl hmod heven rfl hq ?_, h.divide hlen hl hmod heven rfl hq ?_⟩
  · exact congrArg₂ (fun r cc => (BitVec.ofInt 64 (a.toInt.tdiv q.toInt), BitVec.ofInt 64 r, cc)) (tmod_eq_sub ..) (ccSigned_eq _)
  · exact congrArg (fun cc => (BitVec.ofNat 64 (a.toNat / q.toNat), BitVec.ofNat 64 (a.toNat % q.toNat), cc))
      (if_congr (Nat.div_eq_zero_iff_lt hpos) rfl rfl)

end Sys2Proof.Proofs
end

section
/-! SUPPORT. CALL, CALLR and RET (R192 to R195): the registers of MASK, the frame, and the end of a branch whose work has used memory. -/

namespace Sys2Proof.Machine

/-! ### The registers of MASK (R192, R193) -/

theorem maskRegs_of_regsOf {m : BitVec 16} {rs : List (BitVec 4)} (h : RegsOf m rs) : maskRegs m = rs := by
  obtain ⟨rfl, htop⟩ := h
  have hlow : ∀ l : List Nat, (l.filterMap fun i => if bit m i then some (BitVec.ofNat 4 i) else none) = (l.filter fun i => bit m i).map (BitVec.ofNat 4) := by
    intro l
    induction l with
    | nil => rfl
    | cons i l ih => cases hi : bit m i <;> simp [hi, ih]
  have hlast : ([15].filterMap fun i => if bit m i then some (BitVec.ofNat 4 i) else none) = [] := by
    rw [List.filterMap_cons, htop]
    rfl
  rw [maskRegs, List.range_succ, List.filterMap_append, hlow, hlast, List.append_nil]

theorem exec_maskField {x : FmtE} {rs : List (BitVec 4)} (h : RegsOf x.mask rs) (s : State) : M.exec (maskField x) s = (.ok (), s) := by
  have htop : (field x.mask 15 1 : BitVec 1) = 0 := field_eq_zero_iff.2 fun i hi => by
    obtain rfl : i = 0 := by omega
    exact h.2
  unfold maskField
  rw [exec_zeroField, if_pos htop]

/-- RET's registers take the words of the frame one after the other. -/
theorem exec_restoreRegs (c : Cx) (rs : List (BitVec 4)) (l : List Byte) (s : State) :
    ∃ u, M.exec (restoreRegs c rs l) s = (.ok (), u) ∧ Rebank s u c.slot (loadRegs rs l) ∧ { u with banks := s.banks } = s := by
  induction rs generalizing l s with
  | nil => exact ⟨s, rfl, Rebank.refl _ _, rfl⟩
  | cons r rs ih =>
    obtain ⟨u, hexec, hbanks, hrest⟩ := ih (l.drop 8) (s.modBank c.slot fun b => b.putG r (BitVec.ofNat 64 (fieldLE l 0 8)))
    refine ⟨u, ?_, fun j => ?_, ?_⟩
    · simp only [restoreRegs, M.exec_bind, exec_setG, hexec]
    · rw [hbanks, State.bank_modBank, State.bank_modBank_ite]
      split <;> rfl
    · exact congrArg (fun t : State => { t with banks := s.banks }) hrest

@[simp] theorem psw_loadRegs (rs : List (BitVec 4)) (l : List Byte) (b : Bank) : (loadRegs rs l b).psw = b.psw := by
  induction rs generalizing l b with
  | nil => rfl
  | cons r rs ih => exact ih ..

/-! ### A branch whose work has used memory (R100, R195) -/

/-- A state that differs in its banks alone. -/
theorem aside_of_rebanked {s t : State} (e : Eng) (h : { t with banks := s.banks } = s) : Aside s t e := by
  have hbanks : Aside { t with banks := s.banks } t e := by constructor <;> intros <;> rfl
  rwa [h] at hbanks

section
variable {s s1 s2 s3 : State} {c : Cx} {x : FmtE} {rs : List (BitVec 4)} {ps : List (Nat × Nat)} {t : Nat}

/-- `Begins.branches` for a work that, once memory has left `s2`, changes registers and ends as a branch. -/
theorem Begins.branchesFrom {pred : BitVec 4} {len : Len} {body : Cx → M Done} {f : Bank → Bank} {extra : Nat} {i : Instr} {target : Option Nat}
    (h : Begins s c pred s1) (hc : (s2.eng c.e).postCheck = none) (hl : c.len = len.bytes) (hi : exec i s = macroNext c.e pred len (branchMacro body) s)
    (ht : ∀ t, target = some t → t < 2 ^ 48) (hb : M.exec (body c) s1 = M.exec (branchTo c target extra) s3)
    (hf : Rebank s2 s3 c.slot f) (hpsw : (f (s2.bank c.slot)).psw = (s2.bank c.slot).psw) (hs : { s3 with banks := s2.banks } = s2) :
    Branches i s s2 c target extra f := by
  have haside : Aside s2 s3 c.e := aside_of_rebanked c.e hs
  have heng : s3.eng c.e = s2.eng c.e := by rw [← hs]; rfl
  have hreg : ∀ o, s3.reg o = s2.reg o := fun o => by rw [← hs]; rfl
  have hpsw3 : (s3.bank c.slot).psw = (s2.bank c.slot).psw := by rw [hf, if_pos rfl, hpsw]
  obtain ⟨u, hexec, hu⟩ := exec_branchTo (s := s3) (c := c) ht extra
  rw [hpsw3, haside.branchCycles hpsw3 (by rw [heng]) target] at hexec hu
  have hueng : u.eng c.e = { s2.eng c.e with btb := btbAfter s2 c target (s2.eng c.e).btb } := by rw [hu.eng, haside.btbAfter hpsw3, heng]
  unfold Branches
  refine h.goes hl hi rfl (hb.trans hexec) ?_ (fun j => ?_) ?_ ?_ ((haside.trans hu.aside).trans (cycles_aside ..))
  · rw [State.eng_cycles, hueng]
    exact hc
  · rw [State.bank_cycles, hu.banks, hf]
  · rw [State.eng_cycles, hueng]
    cases target <;> simp [goneOf, Engine.later, Engine.closed]
  · refine (((Tally.refl s2 c.e).keep hreg).trans hu.tally).cycles _ _ |>.of_sum fun o => ?_
    simp
    omega

/-! ### The frame (R192 to R194) -/

/-- The return address of a call (R192). -/
def returnAddress (c : Cx) (b : Bank) : Nat := (pswIA b.psw + c.len) % 2 ^ 48

/-- The words of a frame: the return address with MASK, and the registers (R192). -/
def frameWords (c : Cx) (mask : BitVec 16) (rs : List (BitVec 4)) (b : Bank) : List Nat :=
  (returnAddress c b + 2 ^ 48 * mask.toNat) :: rs.map fun r => (b.getG r).toNat

/-- The stack pointer after a call that pushes `n` registers (R192). -/
def pushed (n : Nat) (b : Bank) : Word := b.getG 15 - BitVec.ofNat 64 (8 * (n + 1))

/-- The bank `b` after a call that started with `b0` and pushed `n` registers: G14 and G15 (R192). -/
def linkedBy (c : Cx) (n : Nat) (b0 b : Bank) : Bank := (b.putG 14 (BitVec.ofNat 64 (returnAddress c b0))).putG 15 (pushed n b0)

/-- A call pushes the frame of the bank that it starts with: `s2` is where its pieces have been found, and `s3` where it has been written. -/
structure Pushes (c : Cx) (x : FmtE) (rs : List (BitVec 4)) (ps : List (Nat × Nat)) (s1 s2 s3 : State) : Prop where
  regs : RegsOf x.mask rs
  aligned : ((s1.bank c.slot).getG 15).toNat % 8 = 0
  pieces : M.exec (framePieces c .write 1 (pushed rs.length (s1.bank c.slot)).toNat (8 * (rs.length + 1))) (s1.awaitPosts c.e) = (.ok ps, s2)
  written : M.exec (writePieces c.e ps ((frameWords c x.mask rs (s1.bank c.slot)).flatMap (natLE 8)) false false) s2 = (.ok (), s3)
  clean : (s3.eng c.e).postCheck = none

/-- A call whose frame can be written pushes it, links, and branches. -/
theorem Pushes.exec_callTo (h : Pushes c x rs ps s1 s2 s3) (t : Nat) :
    M.exec (callTo c x.mask t) s1 = M.exec (branchTo c (some t) (2 + rs.length))
      ((s3.modBank c.slot fun b => b.putG 14 (BitVec.ofNat 64 (returnAddress c (s1.bank c.slot)))).modBank c.slot
        fun b => b.putG 15 (pushed rs.length (s1.bank c.slot))) := by
  have hsp : ¬ (s1.bank c.slot).g[15].toNat % 8 ≠ 0 := not_not.2 h.aligned
  have hpieces : M.exec (framePieces c .write 1 ((s1.bank c.slot).g[15] - BitVec.ofNat 64 (8 * (rs.length + 1))).toNat (8 * (rs.length + 1)))
      (s1.awaitPosts c.e) = (.ok ps, s2) := h.pieces
  have hwritten : M.exec (writePieces c.e ps ((((pswIA (s1.bank c.slot).psw + c.len) % 2 ^ 48 + 2 ^ 48 * x.mask.toNat) ::
      rs.map fun r => (s1.bank c.slot).g[Machine.ix r].toNat).flatMap (natLE 8)) false false) s2 = (.ok (), s3) := h.written
  unfold callTo callTo.putLink
  simp only [M.exec_bind, exec_getBank, maskRegs_of_regsOf h.regs, if_neg hsp, M.exec_modify, hpieces, hwritten, exec_setG, BitVec.ofNat_toNat,
    BitVec.setWidth_eq]
  rfl

/-- What a call leaves in its bank: G14 and G15. -/
theorem Pushes.branches {body : Cx → M Done} {i : Instr} (h : Pushes c x rs ps s1 s2 s3) (hbegins : Begins s c x.pred s1) (hl : c.len = x.len.bytes)
    (hi : exec i s = macroNext c.e x.pred x.len (branchMacro body) s) (hb : M.exec (body c) s1 = M.exec (callTo c x.mask t) s1) (ht : t < 2 ^ 48) :
    Branches i s s3 c (some t) (2 + rs.length) (linkedBy c rs.length (s1.bank c.slot)) :=
  hbegins.branchesFrom h.clean hl hi (target_lt ht) (hb.trans (h.exec_callTo t)) (Rebank.two _ _ _ _) rfl rfl

theorem Pushes.call (h : Pushes c x rs ps s1 s2 s3) (hbegins : Begins s c x.pred s1) (hl : c.len = x.len.bytes) (hm : x.m = 0)
    (hlen : x.len = .l8 ∨ x.len = .l12 ∧ x.off = 0) (ht : TargetOf x (pswIA (s1.bank c.slot).psw) t) :
    Branches (.call c.e x) s s3 c (some t) (2 + rs.length) (linkedBy c rs.length (s1.bank c.slot)) := by
  refine h.branches hbegins hl rfl ?_ ht.lt
  have hlens : [Len.l8, .l12].contains x.len = true := by obtain hx | ⟨hx, -⟩ := hlen <;> rw [hx] <;> rfl
  obtain hx | ⟨hx, hoff⟩ := hlen
  · have hnot12 : x.len ≠ .l12 := by rw [hx]; decide
    simp only [M.exec_bind, exec_lengthIn, hlens, if_true, exec_zeroField, hm, if_neg hnot12, exec_maskField h.regs, exec_branchTarget ht]
  · simp only [M.exec_bind, exec_lengthIn, hlens, if_true, exec_zeroField, hm, if_pos hx, hoff, exec_maskField h.regs, exec_branchTarget ht]

theorem Pushes.callr (h : Pushes c x rs ps s1 s2 s3) (hbegins : Begins s c x.pred s1) (hl : c.len = x.len.bytes) (hlen : x.len = .l8) (hoff : x.off = 0)
    (ht : t = ((s1.bank c.slot).getG x.m).toNat) (heven : t % 2 = 0) (hlt : t < 2 ^ 48) :
    Branches (.callr c.e x) s s3 c (some t) (2 + rs.length) (linkedBy c rs.length (s1.bank c.slot)) := by
  have hl8 : [Len.l8].contains x.len = true := by rw [hlen]; rfl
  refine h.branches hbegins hl rfl ?_ hlt
  simp only [M.exec_bind, exec_lengthIn, hl8, if_true, exec_zeroField, hoff, exec_maskField h.regs, exec_getG, ← ht, exec_registerTarget heven hlt]

/-- RET takes the frame whose first word names its target and its MASK. -/
theorem Begins.ret {l : List Byte} (h : Begins s c x.pred s1) (hl : c.len = x.len.bytes) (hregs : RegsOf x.mask rs) (hclean : (s3.eng c.e).postCheck = none)
    (hsp : ((s1.bank c.slot).getG 15).toNat % 8 = 0)
    (hpieces : M.exec (framePieces c .read 2 ((s1.bank c.slot).getG 15).toNat (8 * (rs.length + 1))) (s1.awaitPosts c.e) = (.ok ps, s2))
    (hread : M.exec (readPieces c.e ((s1.bank c.slot).getG 15).toNat ps) s2 = (.ok l, s3)) (hlen : x.len = .l8) (hm : x.m = 0) (hoff : x.off = 0)
    (hword : leNat (l.take 8) = t + 2 ^ 48 * x.mask.toNat) (heven : t % 2 = 0) (hlt : t < 2 ^ 48) :
    Branches (.ret c.e x) s s3 c (some t) (3 + rs.length) (fun b =>
      (loadRegs rs (l.drop 8) b).putG 15 ((s1.bank c.slot).getG 15 + BitVec.ofNat 64 (8 * (rs.length + 1)))) := by
  have hl8 : [Len.l8].contains x.len = true := by rw [hlen]; rfl
  have hsp' : ¬ ((s1.bank c.slot).getG 15).toNat % 8 ≠ 0 := not_not.2 hsp
  have hword' : fieldLE l 0 8 = t + 2 ^ 48 * x.mask.toNat := hword
  have hmask : ¬ (t + 2 ^ 48 * x.mask.toNat) / 2 ^ 48 ≠ x.mask.toNat := by omega
  have heven' : ¬ (t + 2 ^ 48 * x.mask.toNat) % 2 = 1 := by omega
  have htarget : (t + 2 ^ 48 * x.mask.toNat) % 2 ^ 48 = t := by omega
  obtain ⟨u, hrestore, hbanks, hrest⟩ := exec_restoreRegs c rs (l.drop 8) s3
  refine h.branchesFrom (s3 := u.modBank c.slot fun b => b.putG 15 ((s1.bank c.slot).getG 15 + BitVec.ofNat 64 (8 * (rs.length + 1)))) hclean hl rfl
    (target_lt hlt) ?_ hbanks.step (psw_loadRegs ..) hrest
  simp only [M.exec_bind, exec_lengthIn, hl8, if_true, exec_zeroField, hm, hoff, exec_maskField hregs, maskRegs_of_regsOf hregs, exec_getG, if_neg hsp',
    M.exec_modify, hpieces, hread, hword', if_neg hmask, if_neg heven', htarget, hrestore, exec_setG]
end

end Sys2Proof.Machine

namespace Sys2Proof.Proofs

open Sys2Proof Sys2Proof.Machine

/-- Settles O17: a call pushes its frame and links, RET reads one and restores it, and both end as a branch. -/
theorem callResults : Obligations.CallResults := by
  intro s s1 s2 s3 c x rs ps t hl h hregs hclean b size sp new ret frame hsp
  refine ⟨fun hpieces hwritten => ?_, fun hpieces l hread hlen hm hoff hword heven hlt => ?_⟩
  · have hpushes : Pushes c x rs ps s1 s2 s3 := ⟨hregs, hsp, hpieces, hwritten, hclean⟩
    exact ⟨fun hm hlen ht => hpushes.call h hl hm hlen ht, fun hlen hoff ht heven hlt => hpushes.callr h hl hlen hoff ht heven hlt⟩
  · exact h.ret hl hregs hclean hsp hpieces hread hlen hm hoff hword heven hlt

end Sys2Proof.Proofs
end

section
/-! SUPPORT. An SVC on an engine that bears the mark of a stop at a commit point, which refutes O20 (R203, R282, R288). -/

namespace Sys2Proof.Proofs

open Sys2Proof Sys2Proof.Machine

/-- A part at reset but for engine 0, whose cluster runs, whose level 0 is ACTIVE between two instructions with a VALID vector-table entry 12, and which bears
the mark of a stop at a commit point. -/
def markedAtCall : State := { runningWith (bankAt codeAt []) with vectors := [(12, 1)] }.modEng 0 fun y => { y with intact := true }

/-- SVC 0 in 4 bytes. -/
def callsSupervisor : FmtA := { pred := 0, len := .l4, ra := 0, rb := 0, rc := 0, mod := 0, imm := 0 }

theorem markedAtCall_begins : Begins markedAtCall (onEngine0 4) 0 (fetchedFrom markedAtCall (onEngine0 4)) where
  ready := by decide +kernel
  fetched := fetch_of_isOk (by decide +kernel)
  fresh := by decide +kernel
  taken := by decide +kernel
  clean := by decide +kernel

/-- A level that takes its own exceptions takes them after what leaves the slots but for events, and the vectors, alone. -/
theorem ownTarget_of_aside {s t : State} {e : Eng} (h : Aside s t e) {n : Fin 8} {v : Nat} (hown : OwnTarget s e n v) : OwnTarget t e n v := by
  obtain ⟨hnest, hvalid⟩ := hown
  refine ⟨(nest_of_still (h.slots _)).trans hnest, ?_⟩
  rw [entryOf, State.vector, h.vectors]
  exact hvalid

/-- The owner of a slot, and the state of that domain, stand beside. -/
theorem state_of_aside {s t : State} {e : Eng} (h : Aside s t e) (i : Nat) : (t.dom (t.owner i)).state = (s.dom (s.owner i)).state := by
  rw [State.owner, h.owners, State.dom, h.domains]
  rfl

/-- What the statement has of the mark of a stop: SVC keeps it, whether its exception is delivered or held. -/
theorem leaves_intact_of_supervisorCall (h : Obligations.SupervisorCall) {s s1 : State} {c : Cx} {x : FmtA} (hl : c.len = x.len.bytes)
    (hbegins : Begins s c x.pred s1) (hra : x.ra = 0) (hrb : x.rb = 0) (hrc : x.rc = 0) (hlen : x.len = .l4)
    (hactive : (s1.dom (s1.owner c.slot)).state ≠ .quiescing) (hown : OwnTarget s1 c.e c.n 12) :
    leaves (fun u => (u.eng c.e).intact) (exec (.svc c.e x) s) = some (s1.eng c.e).intact := by
  obtain ⟨t, u, hexec, -, heng, -, haside, henters, hheld⟩ := h s s1 c x x.mod.toNat hl hbegins hra hrb hrc (.inl ⟨hlen, rfl⟩)
  have ht : (t.eng c.e).intact = (s1.eng c.e).intact := by
    rw [heng]
    rfl
  rw [hexec, leaves, ← ht]
  by_cases hdue : t.dueLevel c.e = none
  · have hactive' : (t.dom (t.owner c.slot)).state ≠ .quiescing := (state_of_aside haside _).trans_ne hactive
    obtain ⟨-, hentered, -⟩ := henters hdue hactive' (ownTarget_of_aside haside hown)
    rw [hentered]
    rfl
  · obtain ⟨w, rfl⟩ := hheld hdue
    rfl

/-- Refutes O20: the entry of the supervisor-call exception clears the mark that the running level has stopped at a commit point (R282), and `Enters` keeps
every field of the engine but its line buffer and its clock. The statement is about every state in which SVC begins, one that bears the mark among them. -/
theorem not_supervisorCall : ¬ Obligations.SupervisorCall := by
  intro h
  have hclears : leaves (fun u => (u.eng (onEngine0 4).e).intact) (exec (.svc (onEngine0 4).e callsSupervisor) markedAtCall) = some false := by decide +kernel
  have hmarked : ((fetchedFrom markedAtCall (onEngine0 4)).eng (onEngine0 4).e).intact = true := by decide +kernel
  have hactive : ((fetchedFrom markedAtCall (onEngine0 4)).dom ((fetchedFrom markedAtCall (onEngine0 4)).owner (onEngine0 4).slot)).state ≠ .quiescing := by
    decide +kernel
  have hown : OwnTarget (fetchedFrom markedAtCall (onEngine0 4)) (onEngine0 4).e (onEngine0 4).n 12 := by unfold OwnTarget; decide +kernel
  have hkeeps := leaves_intact_of_supervisorCall h (x := callsSupervisor) rfl markedAtCall_begins rfl rfl rfl rfl hactive hown
  rw [hclears, hmarked] at hkeeps
  exact absurd hkeeps (by decide)

end Sys2Proof.Proofs
end

section
/-! SUPPORT. Waits and events (R197 to R201, R274 to R278): how an instruction completes or leaves its engine waiting, when a WFE may end, and where an event
goes. -/

namespace Sys2Proof.Machine

/-! ### The end of an instruction, and a wait that begins (R85, R97, R197) -/

theorem State.modBank_congr {s : State} {i : Nat} {f g : Bank → Bank} (h : f (s.bank i) = g (s.bank i)) : s.modBank i f = s.modBank i g := by
  rw [State.modBank, h]
  rfl

section
variable (s : State) (c : Cx) (n : Nat)

/-- An instruction that completes goes to the next one. -/
theorem State.complete_seq : s.complete c n .seq = passed s c n := by
  have hbank : s.modBank c.slot (fun b => { b with psw := withIP (withIA b.psw (pswIA (s.bank c.slot).psw + c.len)) false 0 })
      = s.modBank c.slot fun b => b.pass c.len := State.modBank_congr rfl
  unfold State.complete passed
  simp only [hbank]

theorem State.seal_false : s.seal c.e false = s.modEng c.e Engine.closed := rfl

@[simp] theorem State.postCheck_passed : ((passed s c n).eng c.e).postCheck = (s.eng c.e).postCheck := by
  simp [passed, Engine.later]
end

section
variable {s s1 s2 : State} {c : Cx} {n : Nat}

/-- A work that completes, on an engine without a poisoned post. -/
theorem State.finishWork_seq (hc : (s2.eng c.e).postCheck = none) :
    s1.finishWork c n (.ok .seq, s2) = passed (s2.modEng c.e Engine.closed) c n := by
  have hpassed : s1.finishWork c n (.ok .seq, s2) = (passed (s2.modEng c.e Engine.closed) c n).takePostCheck c.e :=
    congrArg (fun t : State => t.takePostCheck c.e) (State.complete_seq ..)
  rw [hpassed, takePostCheck_none]
  rw [State.postCheck_passed, State.eng_modEng]
  exact hc

/-- A work whose engine waits, where no machine check of a post is taken at once. -/
theorem State.finishWork_waits (hc : (s2.eng c.e).postCheck = none ∨ (s2.eng c.e).atPoint = false) :
    s1.finishWork c n (.ok .waits, s2) = s2.cycles c.e (pswFTM (s2.bank c.slot).psw) n := by
  unfold State.finishWork State.complete
  dsimp only
  obtain hclean | hmid := hc
  · rw [takePostCheck_none _ _ (by rw [State.eng_cycles]; exact hclean), ite_self]
  · have hpoint : ((s2.cycles c.e (pswFTM (s2.bank c.slot).psw) n).eng c.e).atPoint = (s2.eng c.e).atPoint := by
      rw [State.eng_cycles]
      rfl
    rw [hpoint, hmid, if_neg Bool.false_ne_true]

/-- What an instruction that begins leaves, in terms of its work. -/
theorem Begins.works {pred : BitVec 4} {len : Len} {m : Macro} {i : Instr} {r : Except Trap Done × State} (h : Begins s c pred s1)
    (hl : c.len = len.bytes) (hi : exec i s = macroNext c.e pred len m s) (hb : (m.body c).exec s1 = r) (hm : m.selfTimed = false := by rfl)
    (hn : m.count c s1 = n := by rfl) : exec i s = .next (s1.finishWork c n r) := by
  rw [hi, macroNext, ← hl, h.runMacro, State.work, hb, hm, hn]
  rfl

/-- The fields of an instruction that names RA alone pass their checks. -/
theorem exec_onlyRa {x : FmtA} (hlen : x.len = .l4) (hrb : x.rb = 0) (hrc : x.rc = 0) (hmod : x.mod = 0) (s : State) :
    M.exec (onlyRa x) s = (.ok (), s) := by
  have hl4 : [Len.l4].contains x.len = true := by rw [hlen]; rfl
  unfold onlyRa
  simp only [M.exec_bind, exec_lengthIn, hl4, if_true, exec_zeroField, hrb, hrc, hmod]
end

/-! ### When a WFE may end (R197) -/

/-- The deadline of a WFE has come. -/
def State.due (s : State) (deadline : Option Word) : Prop := ∃ d, deadline = some d ∧ d.toNat ≤ s.pcm.chrono.toNat

section
variable {s : State} {c : Cx} {deadline : Option Word}

theorem exec_wfeEnd_wake (h : (s.slot c.slot).wake = true) :
    M.exec (wfeEnd c deadline) s = (.ok (some ()), (unlatched s c).modBank c.slot fun b => b.putCC 0) := by
  unfold wfeEnd
  simp only [M.exec_bind, M.exec_get, h, if_true, M.exec_modify, exec_setCC, M.exec_pure]
  rfl

theorem exec_wfeEnd_due (h : (s.slot c.slot).wake = false) (hdue : s.due deadline) :
    M.exec (wfeEnd c deadline) s = (.ok (some ()), s.modBank c.slot fun b => b.putCC 2) := by
  obtain ⟨d, rfl, hd⟩ := hdue
  unfold wfeEnd
  simp only [M.exec_bind, M.exec_get, h, Bool.false_eq_true, if_false, if_pos hd, exec_setCC, M.exec_pure]

theorem exec_wfeEnd_not_due (h : (s.slot c.slot).wake = false) (hdue : ¬ s.due deadline) : M.exec (wfeEnd c deadline) s = (.ok none, s) := by
  unfold wfeEnd
  cases deadline with
  | none => simp only [M.exec_bind, M.exec_get, h, Bool.false_eq_true, if_false, M.exec_pure]
  | some d =>
    have hd : ¬ d.toNat ≤ s.pcm.chrono.toNat := fun hd => hdue ⟨d, rfl, hd⟩
    simp only [M.exec_bind, M.exec_get, h, Bool.false_eq_true, if_false, if_neg hd, M.exec_pure]
end

/-! ### WFE, WUNTIL and SEV (R197, R198, R200) -/

section
variable {s s1 : State} {c : Cx} {x : FmtA}

/-- The deadline that a WFE names (R197). -/
def deadlineOf (x : FmtA) (b : Bank) : Option Word := if bit x.mod 0 then some (b.getG x.ra) else none

/-- The work of a WFE once every post has been performed (R197). -/
def wfeWork (c : Cx) (deadline : Option Word) : M Done := do
  match ← wfeEnd c deadline with
  | some _ => return .seq
  | none =>
    modify (·.modEng c.e fun y => { y with wait := .wfe deadline })
    return .waits

/-- The engine of `c` waits. -/
def State.standing (s : State) (c : Cx) (w : Wait) : State := s.modEng c.e fun y => { y with wait := w }

/-- The engine of `c` waits, and the `n` cycles of its instruction are counted. -/
def State.waits (s : State) (c : Cx) (w : Wait) (n : Nat) : State := (s.standing c w).cycles c.e (pswFTM (s.bank c.slot).psw) n

theorem State.finishWork_standing {w : Wait} {n : Nat}
    (h : (s.eng c.e).postCheck = none ∨ ∀ y : Engine, ({ y with wait := w } : Engine).atPoint = false) :
    s1.finishWork c n (.ok .waits, s.standing c w) = s.waits c w n := by
  have hstanding : (s.standing c w).eng c.e = { s.eng c.e with wait := w } := State.eng_modEng ..
  rw [State.finishWork_waits]
  · rfl
  · rw [hstanding]
    exact h.imp_right fun hmid => hmid _

theorem exec_wfeWork_ends {deadline : Option Word} {s2 : State} (h : M.exec (wfeEnd c deadline) s = (.ok (some ()), s2)) :
    M.exec (wfeWork c deadline) s = (.ok .seq, s2) := by
  unfold wfeWork
  simp only [M.exec_bind, h, M.exec_pure]

theorem exec_wfeWork_waits {deadline : Option Word} (h : M.exec (wfeEnd c deadline) s = (.ok none, s)) :
    M.exec (wfeWork c deadline) s = (.ok .waits, s.standing c (.wfe deadline)) := by
  unfold wfeWork
  simp only [M.exec_bind, h, M.exec_modify, M.exec_pure]
  rfl

section
variable (h : Begins s c x.pred s1) (hl : c.len = 4) (hlen : x.len = .l4) (hrb : x.rb = 0) (hrc : x.rc = 0)
include h hl hlen hrb hrc

theorem Begins.wfe (hmod : field x.mod 1 5 = 0) : exec (.wfe c.e x) s = .next
    (s1.finishWork c 2 (M.exec (wfeWork c (deadlineOf x ((s1.awaitPosts c.e).bank c.slot))) (s1.awaitPosts c.e))) := by
  have hl4 : [Len.l4].contains x.len = true := by rw [hlen]; rfl
  refine h.works (by rw [hl, hlen]; rfl) rfl ?_
  simp only [M.exec_bind, exec_lengthIn, hl4, if_true, exec_zeroField, hrb, hrc, hmod, M.exec_modify, deadlineOf]
  cases bit x.mod 0 <;> rfl

section
variable (hclean : ((s1.awaitPosts c.e).eng c.e).postCheck = none)
include hclean

section
variable (hmod : field x.mod 1 5 = 0)
include hmod

theorem Begins.wfe_wakes (hwake : ((s1.awaitPosts c.e).slot c.slot).wake = true) :
    exec (.wfe c.e x) s = .next (waited (unlatched (s1.awaitPosts c.e) c) c 0 2) := by
  rw [h.wfe hl hlen hrb hrc hmod, exec_wfeWork_ends (exec_wfeEnd_wake hwake), State.finishWork_seq]
  · rfl
  · exact hclean

theorem Begins.wfe_due (hwake : ((s1.awaitPosts c.e).slot c.slot).wake = false)
    (hdue : (s1.awaitPosts c.e).due (deadlineOf x ((s1.awaitPosts c.e).bank c.slot))) :
    exec (.wfe c.e x) s = .next (waited (s1.awaitPosts c.e) c 2 2) := by
  rw [h.wfe hl hlen hrb hrc hmod, exec_wfeWork_ends (exec_wfeEnd_due hwake hdue), State.finishWork_seq]
  · rfl
  · exact hclean

theorem Begins.wfe_waits (hwake : ((s1.awaitPosts c.e).slot c.slot).wake = false)
    (hdue : ¬ (s1.awaitPosts c.e).due (deadlineOf x ((s1.awaitPosts c.e).bank c.slot))) :
    exec (.wfe c.e x) s = .next ((s1.awaitPosts c.e).waits c (.wfe (deadlineOf x ((s1.awaitPosts c.e).bank c.slot))) 2) := by
  rw [h.wfe hl hlen hrb hrc hmod, exec_wfeWork_waits (exec_wfeEnd_not_due hwake hdue), State.finishWork_standing (.inl hclean)]
end

theorem Begins.wuntil_ends (hmod : x.mod = 0)
    (hcome : (((s1.awaitPosts c.e).bank c.slot).getG x.ra).toNat ≤ (s1.awaitPosts c.e).pcm.chrono.toNat) :
    exec (.wuntil c.e x) s = .next (waited (s1.awaitPosts c.e) c 2 2) := by
  rw [h.works (r := (.ok .seq, (s1.awaitPosts c.e).modBank c.slot fun b => b.putCC 2)) (by rw [hl, hlen]; rfl) rfl, State.finishWork_seq]
  · rfl
  · exact hclean
  · simp only [M.exec_bind, exec_onlyRa hlen hrb hrc hmod, M.exec_modify, exec_getG, M.exec_get, if_pos hcome, exec_setCC, M.exec_pure]

theorem Begins.wuntil_waits (hmod : x.mod = 0)
    (hcome : ¬ (((s1.awaitPosts c.e).bank c.slot).getG x.ra).toNat ≤ (s1.awaitPosts c.e).pcm.chrono.toNat) :
    exec (.wuntil c.e x) s = .next ((s1.awaitPosts c.e).waits c (.wuntil (((s1.awaitPosts c.e).bank c.slot).getG x.ra)) 2) := by
  rw [h.works (r := (.ok .waits, (s1.awaitPosts c.e).standing c (.wuntil (((s1.awaitPosts c.e).bank c.slot).getG x.ra)))) (by rw [hl, hlen]; rfl) rfl,
    State.finishWork_standing (.inl hclean)]
  simp only [M.exec_bind, exec_onlyRa hlen hrb hrc hmod, M.exec_modify, exec_getG, M.exec_get, if_neg hcome, M.exec_pure]
  rfl
end

theorem Begins.sev (hmod : x.mod = 0)
    (hmay : ¬ (pswKEY (s1.bank c.slot).psw ≠ 0 ∧ s1.owner (field ((s1.bank c.slot).getG x.ra) 0 8 : BitVec 8).toNat ≠ pswKEY (s1.bank c.slot).psw
      ∧ s1.owner (field ((s1.bank c.slot).getG x.ra) 0 8 : BitVec 8).toNat ≠ 0)) :
    exec (.sev c.e x) s = .next
      ((s1.drainAll c.e).waits c (.sev (field ((s1.bank c.slot).getG x.ra) 0 8) (field ((s1.bank c.slot).getG x.ra) 8 6)) 3) := by
  rw [h.works (r := (.ok .waits, (s1.drainAll c.e).standing c (.sev (field ((s1.bank c.slot).getG x.ra) 0 8) (field ((s1.bank c.slot).getG x.ra) 8 6))))
    (by rw [hl, hlen]; rfl) rfl, State.finishWork_standing (.inr fun _ => rfl)]
  simp only [M.exec_bind, exec_onlyRa hlen hrb hrc hmod, exec_getG, exec_getPsw, M.exec_ask, if_neg hmay, M.exec_modify, M.exec_pure]
  rfl
end
end

/-! ### Where an event goes (R274 to R278) -/

theorem State.dropEvent_eq (s : State) (i : Nat) : s.dropEvent i = dropped s i :=
  congrArg (s.modSlot i) (funext fun y =>
    congrArg (fun v => ({ y with disc := v, ovf := y.ovf || decide (0xFFFE ≤ y.disc.toNat) } : Slot)) (satAdd_one y.disc))

theorem State.pendVector_eq (s : State) (i v : Nat) : s.pendVector i v = routed s i v := by
  have hbit : BitVec.ofNat 64 (2 ^ v) = 1#64 <<< v := by
    rw [shiftLeft_eq_mul]
    simp
  unfold State.pendVector routed
  rw [State.dropEvent_eq, hbit]
  cases (s.dom (s.owner i)).state <;> simp

/-! ### The end of a wait (R197 to R201) -/

section
variable {s s2 : State} {c : Cx} {f : Cx → M (Option Unit)}

/-- A wait that may end leaves the level at the next instruction. -/
theorem State.endWait_ends (hl : c.len = 4) (hready : (s.unwait c.e).ready c.e = some c.n)
    (hend : M.exec (f c) (s.unwait c.e) = (.ok (some ()), s2)) (hc : (s2.eng c.e).postCheck = none) : s.endWait c.e f = passed s2 c 0 := by
  obtain ⟨e, n, len⟩ := c
  obtain rfl : len = 4 := hl
  unfold State.endWait
  simp only [hready, hend]
  rw [State.complete_seq, takePostCheck_none]
  rw [State.postCheck_passed]
  exact hc

theorem State.endWait_stays (hl : c.len = 4) (hready : (s.unwait c.e).ready c.e = some c.n)
    (hend : M.exec (f c) (s.unwait c.e) = (.ok none, s2)) : s.endWait c.e f = s := by
  obtain ⟨e, n, len⟩ := c
  obtain rfl : len = 4 := hl
  unfold State.endWait
  simp only [hready, hend]

theorem State.postCheck_unwait (hc : (s.eng c.e).postCheck = none) : ((s.unwait c.e).eng c.e).postCheck = none :=
  (congrArg Engine.postCheck (State.eng_modEng ..)).trans hc

theorem exec_wfeComplete {deadline : Option Word} (hwait : (s.eng c.e).wait = .wfe deadline) :
    exec (.wfeComplete c.e) s = .next (s.endWait c.e fun c => wfeEnd c deadline) := by
  have hexec : exec (.wfeComplete c.e) s = execWfeComplete c.e s := rfl
  rw [hexec, execWfeComplete, hwait]

/-- A WUNTIL ends at its time (R198). -/
def wuntilEnd (t : Word) (c : Cx) : M (Option Unit) := do
  if t.toNat ≤ (← get).pcm.chrono.toNat then
    setCC c 2
    return some ()
  else return none

theorem exec_wuntilEnd (t : Word) : M.exec (wuntilEnd t c) s =
    if t.toNat ≤ s.pcm.chrono.toNat then (.ok (some ()), s.modBank c.slot fun b => b.putCC 2) else (.ok none, s) := by
  unfold wuntilEnd
  simp only [M.exec_bind, M.exec_get, exec_ite, exec_setCC, M.exec_pure]

theorem exec_wuntilComplete {t : Word} (hl : c.len = 4) (hc : (s.eng c.e).postCheck = none) (hwait : (s.eng c.e).wait = .wuntil t)
    (hready : (s.unwait c.e).ready c.e = some c.n) : exec (.wuntilComplete c.e) s
      = .next (if t.toNat ≤ s.pcm.chrono.toNat then passed ((s.unwait c.e).modBank c.slot fun b => b.putCC 2) c 0 else s) := by
  have hexec : exec (.wuntilComplete c.e) s = .next (s.endWait c.e (wuntilEnd t)) := by
    have hdispatch : exec (.wuntilComplete c.e) s = execWuntilComplete c.e s := rfl
    rw [hdispatch, execWuntilComplete, hwait]
    rfl
  have hend := exec_wuntilEnd (s := s.unwait c.e) (c := c) t
  have hchrono : (s.unwait c.e).pcm.chrono = s.pcm.chrono := rfl
  rw [hchrono] at hend
  rw [hexec]
  by_cases hcome : t.toNat ≤ s.pcm.chrono.toNat
  · rw [if_pos hcome] at hend ⊢
    exact congrArg _ (State.endWait_ends hl hready hend (State.postCheck_unwait hc))
  · rw [if_neg hcome] at hend ⊢
    exact congrArg _ (State.endWait_stays hl hready hend)

theorem exec_sevSend {i : BitVec 8} {v : BitVec 6} (hl : c.len = 4) (hwait : (s.eng c.e).wait = .sev i v) (hrun : s.running c.e = some c.n)
    (hc : (s.eng c.e).postCheck = none) : exec (.sevSend c.e) s = .next (passed (routed (s.unwait c.e) i.toNat v.toNat) c 0) := by
  obtain ⟨e, n, len⟩ := c
  obtain rfl : len = 4 := hl
  have hexec : exec (.sevSend e) s = execSevSend e s := rfl
  have hrest : (((s.unwait e).pendVector i.toNat v.toNat).eng e).postCheck = none := by
    rw [State.eng, (pendVector_rest ..).2.1]
    exact (congrArg Engine.postCheck (State.eng_modEng ..)).trans hc
  rw [State.pendVector_eq] at hrest
  rw [hexec, execSevSend, hwait, hrun]
  dsimp only
  rw [State.complete_seq, State.pendVector_eq, takePostCheck_none _ _ (by rw [State.postCheck_passed]; exact hrest)]
end

end Sys2Proof.Machine

namespace Sys2Proof.Proofs

open Sys2Proof Sys2Proof.Machine

theorem waitInstructionsRules_holds : waitInstructionsRules := by
  intro s s1 c x hlen hrb hrc hl h
  refine ⟨fun hclean hmod => ⟨fun hwake => ?_, fun hwake hdue => ?_, fun hwake hdue => ?_⟩, fun hclean hmod => ⟨fun hcome => ?_, fun hcome => ?_⟩,
    fun hmod hmay => ?_⟩
  · exact h.wfe_wakes hl hlen hrb hrc hclean hmod hwake
  · exact h.wfe_due hl hlen hrb hrc hclean hmod hwake hdue
  · exact h.wfe_waits hl hlen hrb hrc hclean hmod hwake hdue
  · exact h.wuntil_ends hl hlen hrb hrc hclean hmod hcome
  · exact h.wuntil_waits hl hlen hrb hrc hclean hmod (Nat.not_le.2 hcome)
  · exact h.sev hl hlen hrb hrc hmod (by tauto)

theorem waitsEndRules_holds : waitsEndRules := by
  intro s c hl hclean
  refine ⟨fun deadline hwait hready => ⟨fun hwake => ?_, fun hwake hdue => ?_, fun hwake hdue => ?_⟩, fun t hwait hready => ?_,
    fun i v hwait hrun => exec_sevSend hl hwait hrun hclean⟩
  · exact (exec_wfeComplete hwait).trans
      (congrArg _ (State.endWait_ends hl hready (exec_wfeEnd_wake (s := s.unwait c.e) hwake) (State.postCheck_unwait hclean)))
  · exact (exec_wfeComplete hwait).trans
      (congrArg _ (State.endWait_ends hl hready (exec_wfeEnd_due (s := s.unwait c.e) hwake hdue) (State.postCheck_unwait hclean)))
  · exact (exec_wfeComplete hwait).trans (congrArg _ (State.endWait_stays hl hready (exec_wfeEnd_not_due (s := s.unwait c.e) hwake hdue)))
  · exact exec_wuntilComplete hl hclean hwait hready

/-- Settles O31: each body is its checks, what it waits for, and its end or its wait; a wait ends as the instruction would have. -/
theorem waits : Obligations.Waits := ⟨waitInstructionsRules_holds, waitsEndRules_holds⟩

end Sys2Proof.Proofs
end

section
/-! SUPPORT. Host-window loads (R101, R103, R389 to R391, R537): the records of a request that fails leave the Chronometer alone, and how a load ends. -/

namespace Sys2Proof.Machine

/-! ### The Chronometer under what a record does (R391, R528 to R534) -/

/-- An update that is applied for each of a list leaves the Chronometer alone when it does so for one. -/
theorem pcm_foldl {α : Type} {f : State → α → State} (h : ∀ s x, (f s x).pcm = s.pcm) (l : List α) (s : State) : (l.foldl f s).pcm = s.pcm := by
  induction l generalizing s with
  | nil => rfl
  | cons x l ih => rw [List.foldl_cons, ih, h]

section
variable (s : State)

theorem State.pcm_writeIntent (line : Nat) : (s.writeIntent line).2.pcm = s.pcm := by
  unfold State.writeIntent
  dsimp only
  split
  · rfl
  · split <;> rfl
  · split
    · rfl
    · split <;> rfl

theorem State.pcm_dramAwake (line : Nat) : (s.dramAwake line).pcm = s.pcm := by
  unfold State.dramAwake
  dsimp only
  split <;> rfl

theorem State.pcm_dropCopies (line : Nat) : (s.dropCopies line).pcm = s.pcm := by
  unfold State.dropCopies
  dsimp only
  rw [pcm_foldl, pcm_foldl, pcm_foldl]
  · split <;> rfl
  · intro t e
    unfold State.dcDrop
    split <;> rfl
  · intro t e
    unfold State.icDrop
    split <;> rfl
  · intro t c
    unfold State.l2Drop
    split <;> rfl

theorem State.pcm_lineWrite (pa : Nat) (l : List Byte) : (s.lineWrite pa l).pcm = s.pcm := by
  have hread : (if (s.dropCopies (pa / 64)).paClass pa = .dram then (((s.dropCopies (pa / 64)).dramAwake (pa / 64)).writeIntent (pa / 64)).2
      else s.dropCopies (pa / 64)).pcm = s.pcm := by
    split
    · rw [State.pcm_writeIntent, State.pcm_dramAwake, State.pcm_dropCopies]
    · exact State.pcm_dropCopies ..
  unfold State.lineWrite
  dsimp only
  rw [← hread]
  split <;> rfl

/-- An event reaches the arms and the slots alone. -/
theorem State.chrono_fire (src : Nat) : (s.fire src).pcm.chrono = s.pcm.chrono := by
  rw [(fire_aside s 0 src).pcm]

theorem State.pcm_msix (d : Nat) (v : Fin 8) : (s.msix d v).pcm = s.pcm := by
  unfold State.msix
  split <;> rfl

theorem State.chrono_logRec (r : Rec) : (s.logRec r).pcm.chrono = s.pcm.chrono := by
  unfold State.logRec
  dsimp only
  split
  · rw [State.pcm_msix, State.chrono_fire]
  · rw [State.chrono_fire]

theorem State.chrono_record (d : Nat) (sev kind origin : Byte) (detail : List Byte) : (s.record d sev kind origin detail).pcm.chrono = s.pcm.chrono := by
  unfold State.record
  dsimp only
  split
  · exact State.chrono_logRec ..
  · split
    · exact State.chrono_logRec ..
    · split
      · rw [State.chrono_logRec, State.chrono_fire, State.count_pcm, State.modDom_pcm, State.pcm_lineWrite, State.modDom_pcm]
      · rw [State.chrono_logRec, State.modDom_pcm]

theorem State.chrono_hostRecord (d outcome req qid addr : Nat) : (s.hostRecord d outcome req qid addr).pcm.chrono = s.pcm.chrono :=
  State.chrono_record ..

theorem State.aerLog_eq (fn error : Nat) : s.aerLog fn error = aer s fn error := by
  unfold State.aerLog aer
  simp only [hifBase, Nat.reduceAdd, Nat.reducePow, State.setReg_pcm, State.modFn_pcm, State.setReg_draws, State.modFn_draws]

/-- What the counters and the log take of a request that fails (R391, R558). -/
theorem State.requestFailed_eq (fn : Nat) {k : Nat} (hk : k ∈ [1, 2, 3, 4]) : s.requestFailed fn k = failed s fn k := by
  simp only [List.mem_cons, List.not_mem_nil, or_false] at hk
  obtain rfl | rfl | rfl | rfl := hk
  · rfl
  · rfl
  · exact State.aerLog_eq ..
  · exact State.aerLog_eq ..

theorem pcm_aer (fn error : Nat) : (aer s fn error).pcm = s.pcm := by
  unfold aer
  dsimp only
  rw [State.setReg_pcm, State.setReg_pcm, State.setReg_pcm, State.setReg_pcm, State.modFn_pcm]

theorem pcm_failed (fn k : Nat) : (failed s fn k).pcm = s.pcm := by
  unfold failed
  split
  · rfl
  · split
    · rfl
    · split <;> rw [pcm_aer, State.countErr_pcm]
end

/-! ### How a load ends (R103, R175, R310, R389) -/

section
variable {s : State} {e : Eng} {n : Fin 8} {h : HostLoad} {l : List Byte}

theorem waitTerm_aside (s : State) (e : Eng) (k : Nat) : Aside s (s.waitTerm e k) e := by
  unfold State.waitTerm
  dsimp only
  split
  · exact (tick_aside ..).trans (pass_aside ..)
  · exact (tick_aside ..).trans (cycles_aside ..)

theorem State.postCheck_waitTerm (k : Nat) (hc : (s.eng e).postCheck = none) : ((s.waitTerm e k).eng e).postCheck = none := by
  unfold State.waitTerm
  dsimp only
  split <;> simpa [Engine.later] using hc

/-- What a load into a register leaves once its wait term has been counted: `f` writes the register, and its level goes on. -/
def State.loaded (s : State) (e : Eng) (n : Fin 8) (h : HostLoad) (f : Bank → Bank) : State :=
  (passed ((((s.hostWait e h).unwait e).modBank (slotOf e n.val) f).modEng e Engine.closed) { e := e, n := n, len := h.ilen.toNat } 0).takeWindow e

section
variable (hc : (s.eng e).postCheck = none)
include hc

/-- A load whose data completes its instruction. -/
theorem State.loadEnds_of_finish {f : Bank → Bank} (hdest : h.dest ≠ .lsu)
    (hfinish : ∀ t : State, M.exec (finishLoad { e := e, n := n, len := h.ilen.toNat } h.dest l) t = (.ok .seq, t.modBank (slotOf e n.val) f)) :
    s.loadEnds e n h l = s.loaded e n h f := by
  have hends : s.loadEnds e n h l = (((s.hostWait e h).unwait e).finishWork { e := e, n := n, len := h.ilen.toNat } 0
      ((finishLoad { e := e, n := n, len := h.ilen.toNat } h.dest l).exec ((s.hostWait e h).unwait e))).takeWindow e := by
    unfold State.loadEnds
    dsimp only
    split
    · rename_i hlsu
      exact absurd hlsu hdest
    · rfl
  rw [hends, hfinish, State.finishWork_seq]
  · rfl
  · exact State.postCheck_unwait (c := { e := e, n := n, len := h.ilen.toNat }) (State.postCheck_waitTerm _ hc)

theorem State.loadEnds_g {ra : BitVec 4} {sz : Nat} {signed : Bool} (hdest : h.dest = .g ra sz signed) :
    s.loadEnds e n h l = s.loaded e n h fun b => b.putG ra (loadedWord l signed) :=
  State.loadEnds_of_finish hc (by rw [hdest]; exact LoadDest.noConfusion) fun t => by
    rw [hdest, finishLoad]
    simp only [M.exec_bind, exec_setG, M.exec_pure]
    rfl

theorem State.loadEnds_f {ra : BitVec 4} {sz : Nat} (hdest : h.dest = .f ra sz) :
    s.loadEnds e n h l = s.loaded e n h fun b => b.putF ra (BitVec.ofNat 128 (leNat l)) :=
  State.loadEnds_of_finish hc (by rw [hdest]; exact LoadDest.noConfusion) fun t => by
    rw [hdest, finishLoad]
    simp only [M.exec_bind, exec_setF, M.exec_pure]
    rfl
end

/-- A load of a routine's LSU fills its Y, and the routine goes on (R310). -/
theorem State.loadEnds_lsu {r : MicroRun} (hdest : h.dest = .lsu) (hmicro : ((s.hostWait e h).eng e).micro = some r) (hdue : r.due = .none) :
    s.loadEnds e n h l = (((s.hostWait e h).tick e 24 (15 * (s.pcm.chrono - h.start).toNat)).unwait e).modEng e fun y =>
      { y with micro := some (r.modUnit 5 fun u => { u with y := BitVec.ofNat 256 (leNat l) }) } := by
  have hends : s.loadEnds e n h l = ((s.hostWait e h).tick e 24 (15 * ((s.hostWait e h).pcm.chrono - h.start).toNat)).finishLsu e n l := by
    unfold State.loadEnds
    rw [hdest]
  have hchrono : (s.hostWait e h).pcm.chrono = s.pcm.chrono := by
    have haside : Aside s (s.hostWait e h) e := waitTerm_aside ..
    rw [haside.pcm]
  rw [hends, hchrono, State.finishLsu, State.eng_tick, hmicro]
  dsimp only
  rw [State.closeWord, State.unwait, if_neg (by rw [State.eng_modEng]; exact not_not.2 rfl)]
  have hdue' : (r.modUnit 5 fun u => { u with y := BitVec.ofNat 256 (leNat l) }).due = .none := hdue
  rw [hdue']

/-! ### Completions (R389, R391, R537) -/

section
variable (hwait : (s.eng e).wait = .host h) (hrun : s.running e = some n)
include hwait hrun

theorem exec_pcieCompletion_unissued (hissued : h.issued = false) (z : Completion) : exec (.pcieCompletion e z) s = .next s := by
  have hexec : exec (.pcieCompletion e z) s = execPcieCompletion e z s := rfl
  rw [hexec, execPcieCompletion]
  simp only [hwait, hrun, hissued, Bool.not_false, if_true]

theorem exec_hifCompletionTimeout : exec (.hifCompletionTimeout (.load e)) s =
    .next (if h.issued && s.requestOverdue h.since then ((s.loadFails e n h 3).settle h.fn.toNat).issueMore else s) := by
  have hexec : exec (.hifCompletionTimeout (.load e)) s = execHifCompletionTimeout (.load e) s := rfl
  rw [hexec, execHifCompletionTimeout]
  simp only [hwait, hrun]

variable (hissued : h.issued = true)
include hissued

theorem exec_pcieCompletion_data : exec (.pcieCompletion e (.data l)) s =
    .next (if l.length = h.size then ((s.loadData e n h l).settle h.fn.toNat).issueMore else s) := by
  have hexec : exec (.pcieCompletion e (.data l)) s = execPcieCompletion e (.data l) s := rfl
  rw [hexec, execPcieCompletion]
  simp only [hwait, hrun, hissued, Bool.not_true, Bool.false_eq_true, if_false]

theorem exec_pcieCompletion_fails {z : Completion} {k : Nat} (hz : (z, k) ∈ [(Completion.ur, 1), (.ca, 2)]) : exec (.pcieCompletion e z) s =
    .next (((s.loadFails e n h k).settle h.fn.toNat).issueMore) := by
  have hexec : exec (.pcieCompletion e z) s = execPcieCompletion e z s := rfl
  rw [hexec, execPcieCompletion]
  simp only [List.mem_cons, Prod.mk.injEq, List.not_mem_nil, or_false] at hz
  obtain ⟨rfl, rfl⟩ | ⟨rfl, rfl⟩ := hz <;> simp only [hwait, hrun, hissued, Bool.not_true, Bool.false_eq_true, if_false]

theorem exec_pcieCompletion_poisoned : exec (.pcieCompletion e .poisoned) s =
    .next (((((s.requestFailed h.fn.toNat 4).hostRecord h.fn.toNat 4 0 0 h.bus.toNat).loadPoisoned e n h).settle h.fn.toNat).issueMore) := by
  have hexec : exec (.pcieCompletion e .poisoned) s = execPcieCompletion e .poisoned s := rfl
  rw [hexec, execPcieCompletion]
  simp only [hwait, hrun, hissued, Bool.not_true, Bool.false_eq_true, if_false]
end

/-- A load whose read ends without data ends with bytes 0xFF and a record (R391). -/
theorem State.loadFails_eq {k : Nat} (hk : k ∈ [1, 2, 3, 4]) : s.loadFails e n h k =
    ((failed s h.fn.toNat k).hostRecord h.fn.toNat k 0 0 h.bus.toNat).loadEnds e n h (List.replicate (h.got.length + h.size + h.left) 0xFF) := by
  rw [State.loadFails, State.requestFailed_eq _ _ hk]

/-- The physical address that a machine check of a poisoned completion names (R537). -/
theorem State.loadPoisoned_eq : s.loadPoisoned e n h = (s.waitTerm e (15 * (s.pcm.chrono - h.start).toNat)).microTrap
    { e := e, n := n, len := h.ilen.toNat } (.mcheck 0x17 h.va.toNat ((0x380000000000 + h.bus.toNat % 2 ^ 43) / 64 * 64)) := by
  have hbus : (field h.bus 0 43 : BitVec 43).toNat = h.bus.toNat % 2 ^ 43 := by simp [field]
  rw [State.loadPoisoned, hbus]
  rfl
end

end Sys2Proof.Machine

namespace Sys2Proof.Proofs

open Sys2Proof Sys2Proof.Machine

/-- Settles O41: each completion is its branch of the model, a request that fails leaves the Chronometer alone, and a load ends by what its destination is. -/
theorem hostLoads : Obligations.HostLoads := by
  intro s e n h hwait hrun
  have htimeout := exec_hifCompletionTimeout hwait hrun
  refine ⟨fun hissued z => ⟨exec_pcieCompletion_unissued hwait hrun hissued z, ?_⟩, fun hissued => ⟨fun l hsize => ?_, fun l hsize hleft => ?_,
    fun l hsize hleft => ?_, fun hearly => ?_, fun i k hcase hdue => ?_, ?_⟩, fun t l hclean =>
      ⟨fun ra sz signed hdest => ?_, fun ra sz hdest => ?_, fun hdest r hmicro hdue => ?_⟩⟩
  · rw [htimeout, hissued]
    rfl
  · rw [exec_pcieCompletion_data hwait hrun hissued, if_neg hsize]
  · rw [exec_pcieCompletion_data hwait hrun hissued, if_pos hsize, State.loadData, if_pos hleft]
  · rw [exec_pcieCompletion_data hwait hrun hissued, if_pos hsize, State.loadData, if_neg hleft]
    rfl
  · rw [htimeout, hearly, Bool.and_false, if_neg Bool.false_ne_true]
  · rw [List.mem_cons, List.mem_cons, List.mem_singleton] at hcase
    obtain ⟨rfl, rfl⟩ | ⟨rfl, rfl⟩ | ⟨rfl, rfl⟩ := hcase
    · rw [exec_pcieCompletion_fails hwait hrun hissued (k := 1) (by decide), State.loadFails_eq (by decide)]
    · rw [exec_pcieCompletion_fails hwait hrun hissued (k := 2) (by decide), State.loadFails_eq (by decide)]
    · rw [htimeout, hissued, hdue rfl, Bool.and_self, if_pos rfl, State.loadFails_eq (by decide)]
  · rw [exec_pcieCompletion_poisoned hwait hrun hissued, State.requestFailed_eq _ _ (by decide), State.loadPoisoned_eq, State.chrono_hostRecord, pcm_failed]
  · exact State.loadEnds_g hclean hdest
  · exact State.loadEnds_f hclean hdest
  · exact State.loadEnds_lsu hdest hmicro hdue

end Sys2Proof.Proofs
end

section
/-! SUPPORT. Fences (R225, R229): the store buffer drains, no post is outstanding, and the fence completes. -/

namespace Sys2Proof.Machine

section
variable {s s1 : State} {c : Cx} {x : FmtA}

/-- The work of a fence: its fields pass their checks, stores and posts are waited for, and then comes its own effect. -/
theorem exec_fence (hx : OnlyRa x) (hra : x.ra = 0) (count : Nat) (after : Cx → State → State) :
    M.exec ((fence x count after).body c) s1 = (.ok .seq, after c ((s1.drainAll c.e).awaitPosts c.e)) := by
  obtain ⟨hlen, hrb, hrc, hmod⟩ := hx
  have hl4 : [Len.l4].contains x.len = true := by rw [hlen]; rfl
  unfold fence
  simp only [M.exec_bind, exec_lengthIn, hl4, if_true, exec_zeroField, hra, hrb, hrc, hmod, M.exec_modify, M.exec_pure]

/-- A fence completes from the state that its waits and its own effect have left. -/
theorem Begins.fence {count : Nat} {after : Cx → State → State} {i : Instr} (h : Begins s c x.pred s1) (hx : OnlyRa x) (hra : x.ra = 0) (hl : c.len = 4)
    (hi : exec i s = macroNext c.e x.pred x.len (fence x count after) s)
    (hc : ((after c ((s1.drainAll c.e).awaitPosts c.e)).eng c.e).postCheck = none) :
    Completes i s (after c ((s1.drainAll c.e).awaitPosts c.e)) c count id :=
  h.completesFrom0 hc (by rw [hl, hx.1]; rfl) hi (exec_fence hx hra count after)
end

end Sys2Proof.Machine

namespace Sys2Proof.Proofs

open Sys2Proof Sys2Proof.Machine

/-- Settles O23: the three fences are one body, of which SYNCR alone adds an effect, which leaves the posts of its engine as they are. -/
theorem fences : Obligations.Fences := by
  intro s s1 c x hx hra hl h
  dsimp only
  intro hclean
  refine ⟨h.fence (after := fun _ t => t) hx hra hl rfl hclean, h.fence (after := fun _ t => t) hx hra hl rfl hclean,
    h.fence (after := fun c t => t.modEng c.e fun y => { y with lineBuf := [] }) hx hra hl rfl ?_⟩
  rw [State.eng_modEng]
  exact hclean

end Sys2Proof.Proofs
end

section
/-! SUPPORT. The issue of a post (R216 to R222): what an instruction that completes leaves, what the issue leaves, and the checks of the four posting
instructions. -/

namespace Sys2Proof.Machine

/-! ### A level that goes to its next instruction (R85, R97, R559) -/

section
variable {s t : State} {c : Cx} {n : Nat} {ks : List (Nat × Nat)}

theorem rebank_passed : Rebank s (passed s c n) c.slot fun b => b.pass c.len := by
  intro j
  have hbank := Rebank.one s c.slot (fun b => b.pass c.len) j
  rwa [passed, State.bank_cycles, State.bank_tick]

theorem eng_passed : (passed s c n).eng c.e = (s.eng c.e).later n := by
  rw [passed, State.eng_cycles, State.eng_tick]
  rfl

theorem Tally.passes (h : Tally s t c.e ks) :
    Tally s (passed t c n) c.e ((10, if pswFTM (t.bank c.slot).psw then n else 0) :: (0, n) :: (1, 1) :: ks) := by
  have hbank : Tally s (t.modBank c.slot fun b => b.pass c.len) c.e ks := h.keep fun _ => State.reg_modBank ..
  exact (hbank.tick 1 1 (by omega)).cycles _ n

theorem Aside.passes (h : Aside s t c.e) : Aside s (passed t c n) c.e :=
  ((h.trans (modBank_aside ..)).trans (tick_aside ..)).trans (cycles_aside ..)
end

/-! ### Issue (R221, R222) -/

/-- The post with the moment before which it is not at its home (R222). -/
def State.sentPost (s : State) (e : Eng) (n : Nat) (p : Post) : Post :=
  { p with arrive := (s.eng e).clock + n + (postTerm e p.home).cycles - postBack e p.home }

/-- The engines whose posts wait at home `u`, with engine `e` the last. -/
def State.queuedHomes (s : State) (e : Eng) (u : Fin 40) : Tbl (List Eng) := tset [] s.homes u.val (tget [] s.homes u.val ++ [e])

/-- The engine with its youngest post outstanding, for which it waits where the post does. -/
def Engine.withPost (x : Engine) (q : Post) : Engine := { x with posts := x.posts ++ [q], wait := if q.waited then .post else x.wait }

theorem Engine.withPost_waited {x : Engine} {q : Post} (h : q.waited = true) : x.withPost q = { x with posts := x.posts ++ [q], wait := .post } := by
  rw [Engine.withPost, if_pos h]

theorem Engine.withPost_unwaited {x : Engine} {q : Post} (h : ¬ q.waited = true) : x.withPost q = { x with posts := x.posts ++ [q] } := by
  rw [Engine.withPost, if_neg h]

/-- The state with the post outstanding and counted. -/
def State.posted (s : State) (e : Eng) (n : Nat) (p : Post) : State := (s.modEng e fun x => x.withPost (s.sentPost e n p)).tick e 18 1

/-- What the issue of a post leaves, once its engine has waited: the post outstanding, and its engine in the queue of its home. -/
def State.issued (s : State) (e : Eng) (n : Nat) (p : Post) : State :=
  { s.posted e n p with homes := (s.posted e n p).queuedHomes e p.home }

theorem exec_issue (c : Cx) (n : Nat) (p : Post) (s : State) :
    M.exec (issue c n p) s = (.ok (if p.waited then .waits else .seq), (beforeIssue s c.e p).issued c.e n p) := by
  have halone : (p.waited || ((s.drainAll c.e).eng c.e).posts.any (fun q => q.home != p.home)) = true
      ↔ p.waited = true ∨ ∃ q ∈ ((s.drainAll c.e).eng c.e).posts, q.home ≠ p.home := by
    simp only [Bool.or_eq_true, List.any_eq_true, bne_iff_ne]
  unfold issue beforeIssue
  simp only [M.exec_bind, M.exec_modify, M.exec_get, exec_ite, halone]
  split <;> rfl

section
variable (s : State) (e : Eng) (n : Nat) (p : Post)

@[simp] theorem State.bank_issued (i : Nat) : (s.issued e n p).bank i = s.bank i := State.bank_tick ..

@[simp] theorem State.eng_issued : (s.issued e n p).eng e = (s.eng e).withPost (s.sentPost e n p) :=
  (State.eng_tick ..).trans (State.eng_modEng ..)

theorem tally_issued : Tally s (s.issued e n p) e [(18, 1)] := by
  have hpost : Tally s (s.modEng e fun x => x.withPost (s.sentPost e n p)) e [] := (Tally.refl s e).keep fun _ => State.reg_modEng ..
  exact (hpost.tick 18 1 (by omega)).keep fun _ => rfl

theorem issued_aside : Aside { s with homes := s.queuedHomes e p.home } (s.issued e n p) e := by
  have hpost : Aside s (s.posted e n p) e := (modEng_aside ..).trans (tick_aside ..)
  have hqueue : (s.issued e n p).homes = s.queuedHomes e p.home := by
    rw [State.issued, State.queuedHomes, State.queuedHomes, hpost.homes]
  exact { hpost with homes := hqueue }
end

section
variable {s s1 s2 : State} {c : Cx} {n : Nat} {p : Post} {i : Instr}

/-- An instruction that issues a post and waits for its reply. -/
theorem issues_of_waited (hwaited : p.waited = true) (h : ((beforeIssue s2 c.e p).eng c.e).postCheck = none →
    exec i s = .next (((beforeIssue s2 c.e p).issued c.e n p).cycles c.e (pswFTM ((beforeIssue s2 c.e p).bank c.slot).psw) n)) : Issues i s s2 c n p := by
  unfold Issues
  dsimp only
  generalize beforeIssue s2 c.e p = s3 at h ⊢
  intro hclean
  simp only [if_pos hwaited]
  refine ⟨_, h hclean, fun j => ?_, ?_, ?_, (issued_aside ..).trans (cycles_aside ..)⟩
  · rw [State.bank_cycles, State.bank_issued]
    split
    · rename_i hj
      rw [hj]
    · rfl
  · rw [State.eng_cycles, State.eng_issued, Engine.withPost_waited (q := s3.sentPost c.e n p) hwaited]
    rfl
  · refine (Tally.cycles (tally_issued s3 c.e n p) _ n).of_sum fun o => ?_
    simp [Nat.add_comm, Nat.add_left_comm, Nat.add_assoc]

/-- An instruction that issues a post and goes on. -/
theorem issues_of_unwaited (hwaited : ¬ p.waited = true) (h : ((beforeIssue s2 c.e p).eng c.e).postCheck = none →
    exec i s = .next (passed (((beforeIssue s2 c.e p).issued c.e n p).modEng c.e Engine.closed) c n)) : Issues i s s2 c n p := by
  unfold Issues
  dsimp only
  generalize beforeIssue s2 c.e p = s3 at h ⊢
  intro hclean
  have hclosed : Tally s3 ((s3.issued c.e n p).modEng c.e Engine.closed) c.e [(18, 1)] :=
    Tally.keep (tally_issued s3 c.e n p) fun _ => State.reg_modEng ..
  simp only [if_neg hwaited]
  refine ⟨_, h hclean, fun j => ?_, ?_, ?_, ((issued_aside ..).trans (modEng_aside ..)).passes⟩
  · rw [rebank_passed, State.bank_modEng, State.bank_modEng, State.bank_issued, State.bank_issued]
  · rw [eng_passed, State.eng_modEng, State.eng_issued, Engine.withPost_unwaited (q := s3.sentPost c.e n p) hwaited]
    rfl
  · refine hclosed.passes.of_sum fun o => ?_
    simp [Nat.add_comm, Nat.add_left_comm, Nat.add_assoc]

/-- An instruction whose work is to issue a post leaves the post at its home, and completes or waits for the reply. -/
theorem Begins.issues {pred : BitVec 4} {len : Len} {m : Macro} (h : Begins s c pred s1) (hl : c.len = len.bytes)
    (hi : exec i s = macroNext c.e pred len m s) (hb : (m.body c).exec s1 = M.exec (issue c n p) s2)
    (hm : m.selfTimed = false := by rfl) (hn : m.count c s1 = n := by rfl) : Issues i s s2 c n p := by
  have hwork := h.works hl hi (hb.trans (exec_issue c n p s2)) hm hn
  have hissued : ((beforeIssue s2 c.e p).eng c.e).postCheck = none → (((beforeIssue s2 c.e p).issued c.e n p).eng c.e).postCheck = none := fun hclean => by
    rw [State.eng_issued]
    exact hclean
  by_cases hwaited : p.waited = true
  · rw [if_pos hwaited] at hwork
    exact issues_of_waited hwaited fun hclean => by rw [hwork, State.finishWork_waits (.inl (hissued hclean)), State.bank_issued]
  · rw [if_neg hwaited] at hwork
    exact issues_of_unwaited hwaited fun hclean => by rw [hwork, State.finishWork_seq (hissued hclean)]
end

/-! ### The posting instructions (R216 to R220) -/

/-- A post of the context with no values, which waits. -/
theorem exec_mkPost (c : Cx) (kind : PostKind) (ra : BitVec 4) (ea pa len : Nat) (u : Fin 40) (s : State) :
    M.exec (mkPost c kind ra ea pa len u) s = (.ok (postOf c (s.bank c.slot) kind ra ea pa len u false true 0 0), s) := rfl

theorem posting_lengths {l : Len} (h : l = .l8 ∨ l = .l12) : [Len.l8, .l12].contains l = true := by
  obtain rfl | rfl := h <;> rfl

section
variable {s s1 s2 : State} {c : Cx} {x : FmtB} {pa n : Nat} {u : Fin 40} (h : Begins s c x.pred s1) (hl : c.len = x.len.bytes)
include h hl

theorem Begins.pst {v : Int} (hx : PostFields x n) (hra : x.ra.toNat ≤ 7)
    (ht : (postTarget c (addressOf x.bs x.ix x.disp x.len (s1.bank c.slot)) n .write).exec s1 = (.ok (pa, u), s2))
    (hv : PackedValue 63 ((s2.bank c.slot).getD x.ra).toNat v) :
    Issues (.pst c.e x) s s2 c 8 (postOf c (s2.bank c.slot) .pst x.ra (addressOf x.bs x.ix x.disp x.len (s1.bank c.slot)) pa n u
      (bit x.mod2 0) (bit x.mod 5) ((s2.bank c.slot).getD x.ra) 0) := by
  obtain ⟨hlen, rfl, hmod2⟩ := hx
  refine h.issues hl rfl ?_
  simp only [M.exec_bind, exec_lengthIn, posting_lengths hlen, if_true, exec_lowReg, hra, exec_zeroField, hmod2, exec_getBank, FmtB.ea_eq, ht,
    exec_sourceD 1 hv, exec_getD, exec_mkPost]
  rfl

theorem Begins.psx {v w : Int} {f : Finished} (hx : PostFields x n) (hra : x.ra.toNat ≤ 7) (heven : bit x.ra 0 = false) (hmod : bit x.mod 5 = false)
    (ht : (postTarget c (addressOf x.bs x.ix x.disp x.len (s1.bank c.slot)) n .write).exec s1 = (.ok (pa, u), s2))
    (hv : PackedValue 63 ((s2.bank c.slot).getD x.ra).toNat v) (hw : PackedValue 63 ((s2.bank c.slot).getD (x.ra + 1)).toNat w)
    (hf : finish (pswDOE (s2.bank c.slot).psw) w (2 * n - 1) (bit x.mod2 0) = .ok f) :
    Issues (.psx c.e x) s s2 c 10 (postOf c (s2.bank c.slot) .psx x.ra (addressOf x.bs x.ix x.disp x.len (s1.bank c.slot)) pa n u
      (bit x.mod2 0) true ((s2.bank c.slot).getD x.ra) ((s2.bank c.slot).getD (x.ra + 1))) := by
  obtain ⟨hlen, rfl, hmod2⟩ := hx
  refine h.issues hl rfl ?_
  simp only [M.exec_bind, exec_lengthIn, posting_lengths hlen, if_true, exec_lowReg, hra, exec_evenReg, heven, Bool.false_eq_true, if_false, exec_zeroField,
    field_one_eq_zero hmod, hmod2, exec_getBank, FmtB.ea_eq, ht, exec_sourceD 1 hv, exec_sourceD 2 hw, exec_finishM hf, exec_getD, exec_mkPost]
  rfl

theorem Begins.prd (hx : PostFields x n) (hra : x.ra.toNat ≤ 7) (hmod : bit x.mod 5 = false) (hmod2 : x.mod2 = 0)
    (ht : (postTarget c (addressOf x.bs x.ix x.disp x.len (s1.bank c.slot)) n .read).exec s1 = (.ok (pa, u), s2)) :
    Issues (.prd c.e x) s s2 c 6 (postOf c (s2.bank c.slot) .prd x.ra (addressOf x.bs x.ix x.disp x.len (s1.bank c.slot)) pa n u false true 0 0) := by
  obtain ⟨hlen, rfl, -⟩ := hx
  refine h.issues hl rfl ?_
  simp only [M.exec_bind, exec_lengthIn, posting_lengths hlen, if_true, exec_lowReg, hra, exec_zeroField, field_one_eq_zero hmod, hmod2, exec_getBank,
    FmtB.ea_eq, ht, exec_mkPost]

theorem Begins.pbn (hlen : x.len = .l8 ∨ x.len = .l12) (hmod : x.mod = 0) (hmod2 : x.mod2 = 0)
    (halign : addressOf x.bs x.ix x.disp x.len (s1.bank c.slot) % 8 = 0)
    (ht : (postTarget c (addressOf x.bs x.ix x.disp x.len (s1.bank c.slot)) 8 .write).exec s1 = (.ok (pa, u), s2)) :
    Issues (.pbn c.e x) s s2 c 6 (postOf c (s2.bank c.slot) .pbn x.ra (addressOf x.bs x.ix x.disp x.len (s1.bank c.slot)) pa 8 u false true
      (((s2.bank c.slot).getG x.ra).zeroExtend 256) 0) := by
  refine h.issues hl rfl ?_
  simp only [M.exec_bind, exec_lengthIn, posting_lengths hlen, if_true, exec_zeroField, hmod, hmod2, exec_getBank, FmtB.ea_eq, exec_require,
    decide_eq_true halign, ht, exec_getG, exec_mkPost]
  rfl
end

end Sys2Proof.Machine

namespace Sys2Proof.Proofs

open Sys2Proof Sys2Proof.Machine

/-- Settles O22: each body is its checks, its target, its sources, and the issue of one post. -/
theorem postIssue : Obligations.PostIssue := by
  intro s s1 s2 c x pa u hl h
  refine ⟨fun n v hx hra ht hv => ⟨h.pst hl hx hra ht hv, fun heven hmod w f hw hf => ?_⟩, fun n hx hmod2 hra hmod ht => ?_,
    fun hlen hmod hmod2 halign ht => ?_⟩
  · exact h.psx hl hx hra heven hmod ht hv hw hf
  · exact h.prd hl hx hra hmod hmod2 ht
  · exact h.pbn hl hlen hmod hmod2 halign ht

end Sys2Proof.Proofs
end

section
/-! SUPPORT. A post at its home (R210, R217 to R220, R224): what the work of a posting unit leaves alone, and what the unit makes of a total. -/

namespace Sys2Proof.Machine

/-! ### What the work of a home leaves alone -/

/-- From `s` to `t` nothing changed but memory, the first-touch map and self-refresh of a DRAM channel, counters and what the event of a counter sets. -/
structure HomeWork (s t : State) : Prop where
  state : t = { s with mem := t.mem, dmcs := t.dmcs, csr := t.csr, slots := t.slots, pcm := t.pcm }
  events : EventsOnly s t
  dmcs : ∀ m, (t.dmc m).config = (s.dmc m).config
  regs : ∀ o, ¬ counterArea o → t.reg o = s.reg o

theorem HomeWork.refl (s : State) : HomeWork s s := ⟨rfl, ⟨fun _ => rfl, rfl⟩, fun _ => rfl, fun _ _ => rfl⟩

section
variable {s t u : State}

theorem HomeWork.trans (h : HomeWork s t) (k : HomeWork t u) : HomeWork s u where
  state := by rw [k.state, h.state]
  events := ⟨fun i => (k.events.1 i).trans (h.events.1 i), by rw [k.events.2, h.events.2]⟩
  dmcs m := (k.dmcs m).trans (h.dmcs m)
  regs o ho := (k.regs o ho).trans (h.regs o ho)

theorem HomeWork.eng (h : HomeWork s t) (d : Eng) : t.eng d = s.eng d := by
  rw [h.state]
  rfl

theorem HomeWork.putMem (h : HomeWork s t) (pa : Nat) (l : List Byte) : HomeWork s (t.putMem pa l) :=
  h.trans ⟨rfl, ⟨fun _ => rfl, rfl⟩, fun _ => rfl, fun _ _ => rfl⟩

theorem HomeWork.dropErrs (h : HomeWork s t) (f : Nat → Bool) : HomeWork s (t.dropErrs f) :=
  h.trans ⟨rfl, ⟨fun _ => rfl, rfl⟩, fun _ => rfl, fun _ _ => rfl⟩

theorem HomeWork.count (h : HomeWork s t) {o : Nat} (ho : counterArea o) (n : Nat) : HomeWork s (t.count o n) :=
  h.trans ⟨rfl, ⟨fun _ => rfl, rfl⟩, fun _ => rfl, fun _ hk => State.reg_setReg_ne _ _ _ _ fun heq => hk (heq ▸ ho)⟩

theorem State.dmc_modDmc (s : State) (m : Fin 2) (f : Dmc → Dmc) (k : Fin 2) : (s.modDmc m f).dmc k = if k = m then f (s.dmc m) else s.dmc k := by
  unfold State.modDmc State.dmc
  by_cases hk : k = m
  · rw [if_pos hk, hk]
    simp only [Fin.getElem_fin, Vector.getElem_set_self]
  · have hne : m.val ≠ k.val := fun h => hk (Fin.ext h.symm)
    rw [if_neg hk]
    simp only [Fin.getElem_fin, Vector.getElem_set_ne _ _ hne]

theorem HomeWork.modDmc (h : HomeWork s t) (m : Fin 2) (f : Dmc → Dmc) (hf : ∀ d, (f d).config = d.config) : HomeWork s (t.modDmc m f) := by
  refine h.trans ⟨rfl, ⟨fun _ => rfl, rfl⟩, fun k => ?_, fun _ _ => rfl⟩
  rw [State.dmc_modDmc]
  split
  · rename_i hk
    rw [hf, hk]
  · rfl

theorem HomeWork.endFill (h : HomeWork s t) (m : Fin 2) (g : Nat) : HomeWork s (t.endFill m g) :=
  HomeWork.modDmc (h.dropErrs _) m (fun d => d.endTracker g) fun _ => rfl

/-- An engine's own counters are counters of the part (R549). -/
theorem engArea (e : Eng) {k : Nat} (hk : k < 0x10000) : counterArea (engBase e.val + k) := by
  left
  have := e.isLt
  unfold engBase
  omega

theorem State.pendVector_state (s : State) (i v : Nat) : s.pendVector i v = { s with slots := (s.pendVector i v).slots } := by
  unfold State.pendVector State.dropEvent
  split
  · rfl
  · rfl
  · split <;> rfl

theorem State.armSource_state (s : State) (src : Nat) : s.armSource src = { s with pcm := (s.armSource src).pcm } := by
  unfold State.armSource
  split <;> rfl

theorem State.fire_state (s : State) (src : Nat) : s.fire src = { s with slots := (s.fire src).slots, pcm := (s.fire src).pcm } := by
  unfold State.fire
  dsimp only
  split
  · rw [State.armSource_state]
  · rw [State.pendVector_state, State.armSource_state]

theorem State.tick_state (s : State) (e : Eng) (k n : Nat) :
    s.tick e k n = { s with csr := (s.tick e k n).csr, slots := (s.tick e k n).slots, pcm := (s.tick e k n).pcm } := by
  unfold State.tick
  split
  · rfl
  · dsimp only
    split
    · rfl
    · rw [State.fire_state]
      rfl

theorem HomeWork.tick (h : HomeWork s t) (e : Eng) {k : Nat} (hk : k < 32) (n : Nat) : HomeWork s (t.tick e k n) := by
  have haside := tick_aside t e e k n
  have hcounter : counterArea (engCounter e k) := by
    rw [engCounter, Nat.add_assoc]
    exact engArea e (by omega)
  have hwrap : counterArea (engWrap e) := engArea e (by omega)
  have hregs : ∀ o, ¬ counterArea o → (t.tick e k n).reg o = t.reg o := fun o ho =>
    State.reg_tick_ne _ _ _ _ _ (fun heq => ho (heq ▸ hcounter)) fun heq => ho (heq ▸ hwrap)
  refine h.trans ⟨?_, ⟨haside.slots, haside.pcm⟩, fun m => ?_, hregs⟩
  · rw [State.tick_state]
  · rw [State.dmc, haside.dmcs, State.dmc]

/-! ### A write intent and a posting unit's read (R347, R355 to R357) -/

theorem HomeWork.writeIntent (h : HomeWork s t) (line : Nat) : HomeWork s (t.writeIntent line).2 := by
  have harea := dmcArea' (t.granOfLine line).1 0x120
  unfold State.writeIntent
  dsimp only
  split
  · exact h
  · split
    · dsimp only
      exact ((h.dropErrs _).count (harea 13 (by omega)) 1).modDmc _ _ fun _ => rfl
    · exact h
  · dsimp only
    refine HomeWork.modDmc (HomeWork.count (HomeWork.count (HomeWork.dropErrs ?_ _) (harea 6 (by omega)) 1) (harea 13 (by omega)) 1) _ _ fun _ => rfl
    split
    · exact h
    · split
      · exact h.endFill ..
      · exact h

theorem State.bytes_writeIntent (s : State) (line : Nat) : (s.writeIntent line).2.mem.bytes = s.mem.bytes := by
  unfold State.writeIntent
  dsimp only
  split
  · rfl
  · split <;> rfl
  · split
    · rfl
    · split <;> rfl

/-- A read of a line that holds no error changes nothing. -/
theorem State.demandRead_clean {line : Nat} (h : tget none s.mem.errs line = none) (finder : Nat) : s.demandRead line finder = s := by
  unfold State.demandRead State.arrayRead
  rw [h]
  rfl

theorem State.countPost_state (s : State) (u : Fin 40) : s.countPost u = { s with csr := (s.countPost u).csr } := by
  unfold State.countPost
  split <;> rfl

theorem HomeWork.countPost (h : HomeWork s t) (u : Fin 40) : HomeWork s (t.countPost u) := by
  unfold State.countPost
  split
  · exact h
  · have hunit := u.isLt
    have hchannel : (u.val - 32) / 4 < 2 := by omega
    exact h.count (dmcArea' ⟨(u.val - 32) / 4, hchannel⟩ 0x200 (u.val % 4) (by omega)) 1

/-- What the unit of home `u` leaves of the state once it has read the line of a block and counted the post (R355, R558). -/
def State.atUnit (s : State) (u : Fin 40) (line : Nat) : State := (s.unitRead line).countPost u

section
variable {line : Nat} (h : tget none s.mem.errs line = none)
include h

theorem State.unitRead_cases : s.unitRead line = s ∨ ∃ m : Fin 2, s.unitRead line = s.count (dmcBase m.val + 0x100) 1 := by
  unfold State.unitRead
  rw [State.demandRead_clean h]
  split
  · dsimp only
    split
    · exact .inr ⟨_, rfl⟩
    · exact .inl rfl
  · exact .inl rfl

theorem State.unitRead_state : s.unitRead line = { s with csr := (s.unitRead line).csr } := by
  obtain hread | ⟨m, hread⟩ := State.unitRead_cases h
  · rw [hread]
  · rw [hread]
    rfl

theorem HomeWork.unitRead : HomeWork s (s.unitRead line) := by
  obtain hread | ⟨m, hread⟩ := State.unitRead_cases h
  · rw [hread]
    exact HomeWork.refl s
  · rw [hread]
    exact (HomeWork.refl s).count (dmcArea m 0x100 (by omega)) 1

theorem State.atUnit_state (u : Fin 40) : s.atUnit u line = { s with csr := (s.atUnit u line).csr } := by
  rw [State.atUnit, State.countPost_state, State.unitRead_state h]

theorem HomeWork.atUnit (u : Fin 40) : HomeWork s (s.atUnit u line) := (HomeWork.unitRead h).countPost u
end
end

/-! ### The operation (R217 to R220) -/

theorem length_natLE (n v : Nat) : (natLE n v).length = n := by
  induction n generalizing v with
  | zero => rfl
  | succ n ih => rw [natLE, List.length_cons, ih]

theorem length_natBE (n v : Nat) : (natBE n v).length = n := by rw [natBE, List.length_reverse, length_natLE]

/-- How a result that does not fit fails at a home: the precise exception of a post that waits, or a deferred posting exception (R217, R223). -/
theorem postFailure_overflow (p : Post) (d : Nat) : postFailure p 5 d 2 0 = .failed (if p.waited
    then { cause := 0x32, detail := BitVec.ofNat 16 d, eaddr := 0, ilen := p.ilen }
    else { cause := 0x39, detail := BitVec.ofNat 16 (5 * 4096 + 2 * 256 + d / 256 % 128), eaddr := p.va, ilen := 0 }) := by
  have hdetail : dataDetail 5 2 (d / 256 % 128) = 5 * 4096 + 2 * 256 + d / 256 % 128 := by
    simp [dataDetail, packBits]
  unfold postFailure
  simp only [if_true, hdetail]
  split <;> rfl

/-- What a home does with a total for which a result is given: it leaves the total, or writes the new one in its place. -/
theorem postEffect_of_rule {p : Post} {old new : List Byte} {r : PostResult} (h : PostRule p old new r) :
    (postEffect p old = (r, none) ∧ new = old) ∨ (postEffect p old = (r, some new) ∧ new.length = p.len ∧ p.kind ≠ .prd) := by
  unfold PostRule at h
  unfold postEffect
  cases hkind : p.kind with
  | pbn =>
    simp only [hkind] at h
    obtain ⟨hlen, rfl, rfl⟩ := h
    refine .inr ⟨?_, by rw [length_natLE, hlen], by decide⟩
    simp only [ccSigned_eq]
  | prd =>
    simp only [hkind] at h
    obtain ⟨v, hold, rfl, rfl⟩ := h
    refine .inl ⟨?_, rfl⟩
    simp only [checkPacked_eq_ok.2 hold, ccValue_eq]
    split_ifs <;> rfl
  | pst =>
    simp only [hkind] at h
    obtain ⟨v, w, hold, hval, ⟨f, hf, rfl, rfl⟩ | ⟨d, hd, rfl, rfl⟩⟩ := h
    · refine .inr ⟨?_, length_natBE .., by decide⟩
      simp only [checkPacked_eq_ok.2 hold, checkPacked_eq_ok.2 hval, hf]
    · refine .inl ⟨?_, rfl⟩
      simp only [checkPacked_eq_ok.2 hold, checkPacked_eq_ok.2 hval, hd, postFailure_overflow]
  | psx =>
    simp only [hkind] at h
    obtain ⟨v, a, b, hold, hcompared, hval, hrest⟩ := h
    simp only [checkPacked_eq_ok.2 hold, checkPacked_eq_ok.2 hcompared, checkPacked_eq_ok.2 hval]
    by_cases heq : v = a
    · rw [if_pos heq] at hrest ⊢
      obtain ⟨f, hf, rfl, rfl⟩ := hrest
      refine .inr ⟨?_, length_natBE .., by decide⟩
      simp only [hf]
    · rw [if_neg heq] at hrest ⊢
      obtain ⟨rfl, rfl⟩ := hrest
      exact .inl ⟨rfl, rfl⟩

/-! ### The home performs a post (R210, R224) -/

/-- The state with the post that home `u` performs marked. -/
def State.marked (s : State) (e : Eng) (u : Fin 40) (p : Post) (first : Bool) (r : PostResult) : State :=
  s.modEng e fun x => x.performed e u p first r

/-- The line of a block that a post writes is asked for: the first touch of a DRAM line is counted (R356). -/
def State.toWrite (s : State) (e : Eng) (pa : Nat) : Bool × State :=
  let (first, s) := if s.paClass pa = .dram then s.writeIntent (pa / 64) else (false, s)
  (first, if first then s.tick e 31 1 else s)

section
variable {s t : State} {e : Eng} {pa : Nat}

theorem State.toWrite_dram (h : s.paClass pa = .dram) : s.toWrite e pa =
    ((s.writeIntent (pa / 64)).1, if (s.writeIntent (pa / 64)).1 then (s.writeIntent (pa / 64)).2.tick e 31 1 else (s.writeIntent (pa / 64)).2) := by
  rw [State.toWrite, if_pos h]

theorem State.toWrite_onChip (h : s.paClass pa ≠ .dram) : s.toWrite e pa = (false, s) := by
  rw [State.toWrite, if_neg h]
  rfl

theorem HomeWork.toWrite (h : HomeWork s t) : HomeWork s (t.toWrite e pa).2 := by
  by_cases hdram : t.paClass pa = .dram
  · rw [State.toWrite_dram hdram]
    dsimp only
    split
    · exact (h.writeIntent _).tick e (by omega) 1
    · exact h.writeIntent _
  · rw [State.toWrite_onChip hdram]
    exact h

theorem State.bytes_toWrite : (s.toWrite e pa).2.mem.bytes = s.mem.bytes := by
  by_cases hdram : s.paClass pa = .dram
  · rw [State.toWrite_dram hdram]
    dsimp only
    split
    · rw [(tick_aside _ e e 31 1).mem, State.bytes_writeIntent]
    · exact State.bytes_writeIntent ..
  · rw [State.toWrite_onChip hdram]

theorem State.dram_of_toWrite (h : (s.toWrite e pa).1 = true) : s.paClass pa = .dram := by
  by_contra hdram
  rw [State.toWrite_onChip hdram] at h
  exact absurd h Bool.false_ne_true
end

/-- Bytes written to memory are read back, and every other byte stays. -/
theorem State.byteAt_putMem_laid (s : State) (pa : Nat) (l : List Byte) : (s.putMem pa l).byteAt = laid s.byteAt pa l :=
  funext fun a => State.byteAt_putMem s pa l a

section
variable {s : State} {u : Fin 40} {e : Eng} {rest : List Eng} {p : Post} {new : List Byte} {r : PostResult}

/-- The state without the first engine in the queue of home `u`. -/
def State.served (s : State) (u : Fin 40) (rest : List Eng) : State := { s with homes := tset [] s.homes u.val rest }

/-- What the unit of home `u` finds for the post at the front of its queue. -/
def State.found (s : State) (u : Fin 40) (rest : List Eng) (p : Post) : State := (s.served u rest).atUnit u (p.pa / 64)

/-- The unit finds memory, and the class of an address, as they were. -/
theorem State.found_state (herrs : tget none s.mem.errs (p.pa / 64) = none) :
    s.found u rest p = { s.served u rest with csr := (s.found u rest p).csr } := State.atUnit_state (s := s.served u rest) herrs u

theorem HomeWork.found (herrs : tget none s.mem.errs (p.pa / 64) = none) : HomeWork (s.served u rest) (s.found u rest p) :=
  HomeWork.atUnit (s := s.served u rest) herrs u

section
variable (hqueue : tget [] s.homes u.val = e :: rest) (hpost : (s.eng e).nextPost u = some p)
include hqueue hpost

theorem State.performAt_front : s.performAt u = if (s.found u rest p).poisoned p.pa then (s.found u rest p).marked e u p false .poisoned
    else match postEffect p ((s.found u rest p).bytesAt p.pa p.len) with
      | (r, none) => (s.found u rest p).marked e u p false r
      | (r, some l) => (((s.found u rest p).toWrite e p.pa).2.putMem p.pa l).marked e u p ((s.found u rest p).toWrite e p.pa).1 r := by
  have hserved : ((s.served u rest).eng e).nextPost u = some p := hpost
  have hunit : ((s.served u rest).unitRead (p.pa / 64)).countPost u = s.found u rest p := rfl
  have hpops : ({ s with homes := tset [] s.homes u.val rest } : State) = s.served u rest := rfl
  unfold State.performAt
  simp only [hqueue, hpops, hserved, hunit]
  split
  · rfl
  · obtain ⟨r, _ | l⟩ := postEffect p ((s.found u rest p).bytesAt p.pa p.len) <;> rfl

/-- A home performs the post at the front of its queue: the block takes its new bytes, no other byte changes, and the post is marked. -/
theorem State.performAt_of_rule (herrs : tget none s.mem.errs (p.pa / 64) = none) (hrule : PostRule p (s.bytesAt p.pa p.len) new r ∧ s.poisoned p.pa = false
      ∨ s.poisoned p.pa = true ∧ new = s.bytesAt p.pa p.len ∧ r = .poisoned) :
    ∃ t first, s.performAt u = t.marked e u p first r ∧ HomeWork (s.served u rest) t ∧ (first = true → s.paClass p.pa = .dram ∧ p.kind ≠ .prd)
      ∧ t.bytesAt p.pa p.len = new ∧ ∀ a, a < p.pa ∨ p.pa + p.len ≤ a → t.byteAt a = s.byteAt a := by
  have hfound := State.found_state (u := u) (rest := rest) herrs
  have hbyte : (s.found u rest p).byteAt = s.byteAt := by rw [hfound]; rfl
  have hbytes : (s.found u rest p).bytesAt p.pa p.len = s.bytesAt p.pa p.len := by rw [State.bytesAt, hbyte, State.bytesAt]
  have hpoison : (s.found u rest p).poisoned p.pa = s.poisoned p.pa := by rw [hfound]; rfl
  have hclass : (s.found u rest p).paClass p.pa = s.paClass p.pa := by rw [hfound]; rfl
  have hwork : HomeWork (s.served u rest) (s.found u rest p) := HomeWork.found herrs
  rw [State.performAt_front hqueue hpost, hpoison, hbytes]
  obtain ⟨hrule, hclean⟩ | ⟨hpoisoned, rfl, rfl⟩ := hrule
  · rw [if_neg (by rw [hclean]; exact Bool.false_ne_true)]
    obtain ⟨heffect, rfl⟩ | ⟨heffect, hlen, hkind⟩ := postEffect_of_rule hrule
    · rw [heffect]
      exact ⟨_, false, rfl, hwork, fun h => absurd h Bool.false_ne_true, hbytes, fun a _ => congrFun hbyte a⟩
    · rw [heffect]
      have hkept : ((s.found u rest p).toWrite e p.pa).2.byteAt = s.byteAt :=
        (funext fun a => congrArg (tget 0 · a) State.bytes_toWrite : _ = (s.found u rest p).byteAt).trans hbyte
      refine ⟨_, _, rfl, hwork.toWrite.putMem p.pa new, fun hfirst => ⟨hclass ▸ State.dram_of_toWrite hfirst, hkind⟩, ?_, fun a ha => ?_⟩
      · rw [State.bytesAt, State.byteAt_putMem_laid, ← hlen, map_over_upFrom]
      · rw [State.byteAt_putMem_laid, laid, if_neg (by omega), hkept]
  · rw [if_pos hpoisoned]
    exact ⟨_, false, rfl, hwork, fun h => absurd h Bool.false_ne_true, hbytes, fun a _ => congrFun hbyte a⟩
end
end

end Sys2Proof.Machine

namespace Sys2Proof.Proofs

open Sys2Proof Sys2Proof.Machine

theorem postPerformedRules_holds : postPerformedRules := by
  intro s u e rest p new r hqueue hpost herrs hrule
  obtain ⟨t, first, hperform, hwork, hfirst, hnew, hother⟩ := State.performAt_of_rule hqueue hpost herrs hrule
  have hexec : exec (.postPerform u) s = .next (t.marked e u p first r) := congrArg _ hperform
  refine ⟨_, hexec, hwork.events, ?_, hnew, hother, ⟨first, ?_, hfirst⟩, fun d hd => ?_, hwork.dmcs, hwork.regs⟩
  · rw [State.marked, hwork.state]
    rfl
  · rw [State.marked, State.eng_modEng, hwork.eng]
    rfl
  · rw [State.marked, State.eng_modEng_ne _ _ _ _ hd, hwork.eng]
    rfl

end Sys2Proof.Proofs
end

section
/-! SUPPORT. The reply of a post (R217 to R223): the wait for it, the registers it writes, and the deferred exception of an unwaited post that failed. -/

namespace Sys2Proof.Machine

/-! ### The wait for a reply (R222) -/

section
variable {s : State} {e : Eng}

@[simp] theorem State.bank_waitTerm (n i : Nat) : (s.waitTerm e n).bank i = s.bank i := by
  unfold State.waitTerm
  dsimp only
  split <;> simp

@[simp] theorem State.eng_waitTerm (n : Nat) : (s.waitTerm e n).eng e = (s.eng e).later n := by
  unfold State.waitTerm
  dsimp only
  split <;> simp

theorem tally_waitTerm (n : Nat) : ∃ ks, Tally s (s.waitTerm e n) e ks := by
  have hterm : Tally s (s.tick e 16 n) e [(16, n)] := (Tally.refl s e).tick 16 n (by omega)
  unfold State.waitTerm
  dsimp only
  split
  · exact ⟨_, hterm.keep fun _ => State.reg_pass ..⟩
  · exact ⟨_, hterm.cycles _ n⟩

/-- The engine has waited for the reply of a post that reaches it at moment `m`, and the wait is counted. -/
def State.awaitedReply (s : State) (e : Eng) (m : Nat) (t : LineTerm) : State := (s.waitPost e m).countTerm e t

variable {t : LineTerm}

@[simp] theorem State.bank_countTerm (i : Nat) : (s.countTerm e t).bank i = s.bank i := by
  cases t with
  | hit => rfl
  | same | other | dram | first => exact State.bank_tick ..

@[simp] theorem State.eng_countTerm (d : Eng) : (s.countTerm e t).eng d = s.eng d := by
  cases t with
  | hit => rfl
  | same | other | dram | first => exact State.eng_tick ..

theorem countTerm_aside : Aside s (s.countTerm e t) e := by
  cases t with
  | hit => exact Aside.refl s e
  | same | other | dram | first => exact tick_aside ..

theorem tally_countTerm {u : State} {ks : List (Nat × Nat)} (h : Tally u s e ks) : ∃ ls, Tally u (s.countTerm e t) e ls := by
  cases t with
  | hit => exact ⟨_, h⟩
  | same | other | dram | first => exact ⟨_, h.tick _ 1 (by omega)⟩

variable {m : Nat}

theorem State.bank_awaitedReply (i : Nat) : (s.awaitedReply e m t).bank i = s.bank i := by simp [State.awaitedReply, State.waitPost]

theorem State.eng_awaitedReply : (s.awaitedReply e m t).eng e = (s.eng e).later (m - (s.eng e).clock) := by simp [State.awaitedReply, State.waitPost]

theorem awaitedReply_aside : Aside s (s.awaitedReply e m t) e := ((tick_aside ..).trans (waitTerm_aside ..)).trans countTerm_aside

theorem tally_awaitedReply : ∃ ks, Tally s (s.awaitedReply e m t) e ks := by
  have hwait : Tally s (s.tick e 19 (m - (s.eng e).clock)) e [(19, m - (s.eng e).clock)] := (Tally.refl s e).tick 19 _ (by omega)
  obtain ⟨ks, hterm⟩ := tally_waitTerm (s := s.tick e 19 (m - (s.eng e).clock)) (e := e) (m - (s.eng e).clock)
  exact tally_countTerm (hwait.trans hterm)
end

/-! ### What a reply writes (R217 to R220) -/

/-- The state with what a reply writes in bank `i`. -/
def State.withReply (s : State) (i : Nat) (ra : BitVec 4) (cc : Option (BitVec 2)) (d : Option (BitVec 256)) (g : Option Word) : State :=
  let s := match cc with | some v => s.modBank i fun b => b.putCC v.toNat | none => s
  let s := match d with | some v => s.modBank i fun b => b.putD ra v | none => s
  match g with | some v => s.modBank i fun b => b.putG ra v | none => s

section
variable {s : State} (i : Nat) (ra : BitVec 4) (cc : Option (BitVec 2)) (d : Option (BitVec 256)) (g : Option Word)

theorem exec_postWrites (c : Cx) (p : Post) : M.exec (postWrites c p cc d g) s = (.ok .seq, s.withReply c.slot p.ra cc d g) := by
  cases cc <;> cases d <;> cases g <;> rfl

theorem rebank_withReply : Rebank s (s.withReply i ra cc d g) i (replied ra cc d g) := by
  have hcc : Rebank s (s.withReply i ra cc none none) i (replied ra cc none none) := by
    cases cc with
    | none => exact Rebank.refl s i
    | some v => exact Rebank.one s i _
  have hd : Rebank s (s.withReply i ra cc d none) i (replied ra cc d none) := by
    cases d with
    | none => exact hcc
    | some v => exact hcc.step
  cases g with
  | none => exact hd
  | some v => exact hd.step

/-- A reply writes registers of a bank alone. -/
theorem State.withReply_state : { s.withReply i ra cc d g with banks := s.banks } = s := by
  have hwrite : ∀ (t : State) (f : Bank → Bank), { t with banks := s.banks } = s → { t.modBank i f with banks := s.banks } = s := fun _ _ h => h
  have hcc : { s.withReply i ra cc none none with banks := s.banks } = s := by
    cases cc with
    | none => rfl
    | some v => exact hwrite _ _ rfl
  have hd : { s.withReply i ra cc d none with banks := s.banks } = s := by
    cases d with
    | none => exact hcc
    | some v => exact hwrite _ _ hcc
  cases g with
  | none => exact hd
  | some v => exact hwrite _ _ hd
end

/-! ### The reply of the oldest post (R221 to R223) -/

/-- A context is its engine, its slot and its length. -/
theorem Cx.eq_of_slot {c : Cx} {e : Eng} {i len : Nat} (he : c.e = e) (hi : c.slot = i) (hl : c.len = len) :
    ({ e := e, n := Fin.ofNat 8 (i % 8), len := len } : Cx) = c := by
  obtain ⟨d, n, l⟩ := c
  obtain rfl : d = e := he
  obtain rfl : slotOf d n.val = i := hi
  obtain rfl : l = len := hl
  have hn : Fin.ofNat 8 (slotOf d n.val % 8) = n := Fin.ext (by
    have := n.isLt
    simp only [slotOf, Fin.val_ofNat]
    omega)
  rw [hn]

/-- The state with the oldest post no longer outstanding. -/
def State.replyTaken (s : State) (e : Eng) (rest : List Post) : State := s.modEng e fun x => { x with posts := rest }

/-- The state in which the engine has waited for the reply of its oldest post, and waits no longer. -/
def State.replyCome (s : State) (e : Eng) (p : Post) (rest : List Post) : State :=
  ((s.replyTaken e rest).modEng e fun x => { x with wait := .none }).awaitedReply e p.reply (postTerm e p.home)

section
variable {s : State} {e : Eng} {p : Post} {rest : List Post} (hposts : (s.eng e).posts = p :: rest)
include hposts

theorem exec_postReply_waited {r : PostResult} (hwaited : p.waited = true) (hresult : p.result = some r) {c : Cx} (he : c.e = e)
    (hi : c.slot = p.slot.toNat) (hl : c.len = p.ilen.toNat) :
    exec (.postReply e) s = .next ((s.replyCome e p rest).finishWork c 0 ((waitedReply c p r).exec (s.replyCome e p rest))) := by
  have hexec : exec (.postReply e) s = execPostReply e s := rfl
  rw [hexec, execPostReply]
  simp only [hposts, hresult, hwaited, if_true, Cx.eq_of_slot he hi hl]
  rfl

theorem exec_postReply_unwaited {r : PostResult} (hwaited : p.waited = false) (hresult : p.result = some r)
    (hc : (((s.replyTaken e rest).unwaitedReply e p r).eng e).postCheck = none) :
    exec (.postReply e) s = .next ((s.replyTaken e rest).unwaitedReply e p r) := by
  have hexec : exec (.postReply e) s = execPostReply e s := rfl
  rw [hexec, execPostReply]
  simp only [hposts, hresult, hwaited, Bool.false_eq_true, if_false]
  refine congrArg _ ?_
  split
  · exact takePostCheck_none _ _ hc
  · rfl
end

section
variable {s : State} {e : Eng} {p : Post} {rest : List Post}

theorem State.eng_replyTaken : (s.replyTaken e rest).eng e = { s.eng e with posts := rest } := State.eng_modEng ..

theorem State.eng_replyCome : (s.replyCome e p rest).eng e =
    ({ s.eng e with posts := rest, wait := .none } : Engine).later (p.reply - (s.eng e).clock) := by
  rw [State.replyCome, State.eng_awaitedReply, State.eng_modEng, State.eng_replyTaken]

theorem State.bank_replyCome (i : Nat) : (s.replyCome e p rest).bank i = s.bank i := by
  rw [State.replyCome, State.bank_awaitedReply]
  rfl

theorem replyCome_aside : Aside s (s.replyCome e p rest) e := ((modEng_aside ..).trans (modEng_aside ..)).trans awaitedReply_aside

theorem tally_replyCome : ∃ ks, Tally s (s.replyCome e p rest) e ks := by
  have htaken : Tally s ((s.replyTaken e rest).modEng e fun x => { x with wait := .none }) e [] := (Tally.refl s e).keep fun _ => rfl
  obtain ⟨ks, hawaited⟩ := tally_awaitedReply (s := (s.replyTaken e rest).modEng e fun x => { x with wait := .none }) (e := e) (m := p.reply)
    (t := postTerm e p.home)
  exact ⟨_, htaken.trans hawaited⟩

/-- A post that could not be done and was not waited for leaves its failure in the slot that issued it, the youngest there (R223). -/
theorem failed_aside (x : Exc) : Aside (s.modSlot p.slot.toNat fun y => { y with deferred := y.deferred ++ [x] })
    ((s.replyTaken e rest).unwaitedReply e p (.failed x)) e := by
  have hticked : Aside s ((s.replyTaken e rest).tick e 20 1) e := (modEng_aside ..).trans (tick_aside ..)
  have hslots := still_modSlot hticked.slots p.slot.toNat (f := fun y => { y with deferred := y.deferred ++ [x] }) fun _ => rfl
  exact { hticked with slots := hslots }
end

end Sys2Proof.Machine

namespace Sys2Proof.Proofs

open Sys2Proof Sys2Proof.Machine

/-- The reply of a post that waits completes its instruction. -/
theorem postReply_completes {s : State} {c : Cx} {p : Post} {rest : List Post} {cc : Option (BitVec 2)} {d : Option (BitVec 256)} {g : Option Word}
    (hposts : (s.eng c.e).posts = p :: rest) (hclean : (s.eng c.e).postCheck = none) (hwaited : p.waited = true)
    (hresult : p.result = some (.done cc d g)) (hi : c.slot = p.slot.toNat) (hl : c.len = p.ilen.toNat) :
    ∃ t ks, exec (.postReply c.e) s = .next t ∧ Rebank s t c.slot (fun b => (replied p.ra cc d g b).pass c.len)
      ∧ t.eng c.e = ({ (s.eng c.e).closed with posts := rest, wait := .none } : Engine).later (p.reply - (s.eng c.e).clock)
      ∧ Tally s t c.e ((1, 1) :: ks) ∧ Aside s t c.e := by
  have hexec := exec_postReply_waited hposts hwaited hresult rfl hi hl
  obtain ⟨ks, hcome⟩ := tally_replyCome (s := s) (e := c.e) (p := p) (rest := rest)
  have heng := State.eng_replyCome (s := s) (e := c.e) (p := p) (rest := rest)
  have hbank := fun j => State.bank_replyCome (s := s) (e := c.e) (p := p) (rest := rest) j
  have haside := replyCome_aside (s := s) (e := c.e) (p := p) (rest := rest)
  generalize s.replyCome c.e p rest = u at hexec hcome heng hbank haside
  have hwrites := rebank_withReply (s := u) c.slot p.ra cc d g
  have hstate := State.withReply_state (s := u) c.slot p.ra cc d g
  have hreply : M.exec (waitedReply c p (.done cc d g)) u = (.ok .seq, u.withReply c.slot p.ra cc d g) := exec_postWrites cc d g c p
  generalize u.withReply c.slot p.ra cc d g = v at hwrites hstate hreply
  have hsame : v.eng c.e = u.eng c.e := by rw [← hstate]; rfl
  have hregs : ∀ o, v.reg o = u.reg o := fun o => by rw [← hstate]; rfl
  rw [hreply, State.finishWork_seq (by rw [hsame, heng]; exact hclean)] at hexec
  have hclosed : Tally s (v.modEng c.e Engine.closed) c.e ks := hcome.keep hregs
  refine ⟨_, _, hexec, fun j => ?_, ?_, hclosed.passes.perm (List.perm_middle (l₁ := [_, _])),
    ((haside.trans (aside_of_rebanked c.e hstate)).trans (modEng_aside ..)).passes⟩
  · rw [rebank_passed, State.bank_modEng, State.bank_modEng, hwrites, hwrites, if_pos rfl, hbank, hbank]
    split <;> rfl
  · rw [eng_passed, State.eng_modEng, hsame, heng]
    rfl

theorem postRepliesRules_holds : postRepliesRules := by
  intro s e p rest hposts hclean
  have htaken : ((s.replyTaken e rest).eng e).postCheck = none := by rw [State.eng_replyTaken]; exact hclean
  refine ⟨fun c cc d g hwaited hresult he hi hl => ?_, fun cc d g hwaited hresult => ?_, fun x hwaited hresult => ?_⟩
  · subst he
    exact postReply_completes hposts hclean hwaited hresult hi hl
  · exact exec_postReply_unwaited hposts hwaited hresult htaken
  · have hfailed : ((s.replyTaken e rest).unwaitedReply e p (.failed x)).eng e = { s.eng e with posts := rest } :=
      (State.eng_tick ..).trans State.eng_replyTaken
    have hregs : Tally s (s.replyTaken e rest) e [] := (Tally.refl s e).keep fun _ => rfl
    refine ⟨_, exec_postReply_unwaited hposts hwaited hresult (by rw [hfailed]; exact hclean), fun i => ?_, hfailed,
      (hregs.tick 20 1 (by omega)).keep fun _ => rfl, failed_aside x⟩
    exact State.bank_tick ..

/-- Settles O24: a home performs a post by what its total is worth, and a reply by whether its post waits. -/
theorem postsPerformed : Obligations.PostsPerformed := ⟨postPerformedRules_holds, postRepliesRules_holds⟩

end Sys2Proof.Proofs
end

section
/-! SUPPORT. Event sources and PEND (R274 to R278, R503): the arms that a source reaches and the target that the event map has for it; and the state that
refutes O33. -/

namespace Sys2Proof.Machine

theorem packBits_eq_sum (l : List (Nat × Nat)) : packBits l = (l.map fun f => f.2 * 2 ^ f.1).sum := by
  rw [packBits, List.sum_eq_foldl, List.foldl_map]

/-- An event source makes due the arms that it reaches (R503). -/
theorem State.armSource_eq (s : State) (src : Nat) : s.armSource src = armed s src := by
  unfold State.armSource armed
  by_cases h : s.power.part = .watch ∨ s.power.part = .active
  · have hreaches : ∀ i, reachesArm s src i = s.pcm.arms[i].any fun a => (a.evclass == 4 && a.evarg.toNat == src) || (a.evclass == 5 && src == 0x11513) :=
      fun i => by rw [reachesArm, decide_eq_true h, Bool.true_and]
    simp only [if_pos h, Pcm.meet, packBits_eq_sum, List.map_map, hreaches]
    rfl
  · have hreaches : ∀ i, reachesArm s src i = false := fun i => by rw [reachesArm, decide_eq_false h, Bool.false_and]
    simp [if_neg h, hreaches, b2n]

/-- The event map is looked up by the number of a source. -/
theorem State.eventEntry_toNat (s : State) (src : BitVec 20) : s.eventEntry src.toNat = s.events.find? fun x => x.source == src := by
  have hsame : ∀ x : EventEntry, (x.source.toNat == src.toNat) = (x.source == src) := fun x => by
    rw [Bool.eq_iff_iff, beq_iff_eq, beq_iff_eq, BitVec.toNat_inj]
  simp only [State.eventEntry, hsame]

/-- A source with no entry in the event map reaches its arms alone (R276, R503). -/
theorem State.fire_unmapped {s : State} {src : BitVec 20} (h : s.events.find? (fun x => x.source == src) = none) :
    s.fire src.toNat = armed s src.toNat := by
  have hentry : (armed s src.toNat).eventEntry src.toNat = none := (State.eventEntry_toNat _ src).trans h
  unfold State.fire
  simp only [State.armSource_eq, hentry]

/-- A source reaches its arms, and then the slot and the vector that the event map names for it (R274, R503). -/
theorem State.fire_mapped {s : State} {src : BitVec 20} {x : EventEntry} (h : s.events.find? (fun x => x.source == src) = some x) :
    s.fire src.toNat = routed (armed s src.toNat) x.slot.toNat x.vector.toNat := by
  have hentry : (armed s src.toNat).eventEntry src.toNat = some x := (State.eventEntry_toNat _ src).trans h
  unfold State.fire
  simp only [State.armSource_eq, hentry, State.pendVector_eq]

theorem exec_eventRouted (s : State) (src : BitVec 20) : exec (.eventRouted src) s = .next (s.fire src.toNat) := rfl

/-- PEND writes the register of its slot (R277). -/
theorem exec_pend (s : State) (i : BitVec 8) (v : Word) :
    exec (.pend i v) s = .next (s.modSlot i.toNat fun y => { y with pend := y.pend &&& ~~~v }) := by
  have hexec : exec (.pend i v) s = .next (s.csrWrite8 .host (0x0280000 + 8 * i.toNat) v (~~~0)) := rfl
  have hi := i.isLt
  have hslot : (0x0280000 + 8 * i.toNat - 0x0280000) / 8 = i.toNat := by omega
  have hall : v &&& ~~~0 = v := by simp
  rw [hexec, State.csrWrite8, if_neg (by omega), if_neg (by omega), if_pos (by omega), hslot, hall]

end Sys2Proof.Machine

namespace Sys2Proof.Proofs

open Sys2Proof Sys2Proof.Machine

/-- Settles O32: a source that fires reaches its arms and the target that the event map has for it, and PEND is a write of its slot's register. -/
theorem eventRouting : Obligations.EventRouting := by
  refine fun s src => ⟨fun hnone => ?_, fun x hsome => ?_, exec_pend s⟩
  · rw [exec_eventRouted, State.fire_unmapped hnone]
  · rw [exec_eventRouted, State.fire_mapped hsome]

/-! ### An entry over a level that quiesces (O33) -/

/-- A part at reset, but for engine 0, whose cluster runs: level 1 runs for domain 1, which quiesces, and level 0 is IDLE with vector 16 pending and its
vector-table entry VALID. -/
def urgentOverQuiescing : State :=
  (({ runningWith (bankAt codeAt []) with vectors := [(16, 1)], owners := [(1, 1)] }.modDom 1 fun y => { y with state := .quiescing }).modSlot 0
    fun y => { y with state := .idle, pend := 1#64 <<< 16 }).modSlot 1 fun y => { y with state := .active }

/-- QSTOP of level 1 of engine 0. -/
def level1Stopped (u : State) : Bool := (u.slot (slotOf 0 1)).qstop

/-- EVENT_ENTRY stops the level that loses the engine (R34, R292). -/
theorem level1Stopped_eventEntry : leaves level1Stopped (exec (.eventEntry 0 none) urgentOverQuiescing) = some true := by decide +kernel

theorem level1Stopped_entered : level1Stopped (entered urgentOverQuiescing 0 0 16) = false := by decide +kernel

/-- Refutes O33: an entry is an interruption point of the level that loses the engine, and sets its QSTOP where its domain quiesces (R34, R292), but `entered`
leaves that QSTOP as it was. It leaves out as well that an entry clears the mark of a stop at a commit point (R282). -/
theorem not_eventEntries : ¬ Obligations.EventEntries := by
  intro h
  have hdue : urgentOverQuiescing.dueLevel 0 = some 0 := by decide +kernel
  have hfree : (urgentOverQuiescing.slot (slotOf 0 0)).xexc = false := by decide +kernel
  have hnext : IsNext (urgentOverQuiescing.slot (slotOf 0 0)) 16 := by unfold IsNext; decide +kernel
  have hvalid : bit (entryOf urgentOverQuiescing 0 0 16) 0 = true := by decide +kernel
  obtain ⟨hentries, -⟩ := h urgentOverQuiescing 0 0 (by decide +kernel) (by decide +kernel)
  have hentry : exec (.eventEntry 0 none) urgentOverQuiescing = .next (entered urgentOverQuiescing 0 0 16) := by
    simpa only [lt_irrefl, if_false, hvalid, if_true] using hentries none 0 16 hdue hfree hdue hfree hnext
  have hstops := level1Stopped_eventEntry
  rw [hentry, leaves, level1Stopped_entered] at hstops
  exact absurd hstops (by decide)

end Sys2Proof.Proofs
end

section
/-! SUPPORT. Micro-words (R299 to R303, R310 to R325): a word that stands at its moves, how a word ends, and where each sequence code goes. -/

namespace Sys2Proof.Machine

/-! ### Clocks -/

theorem le_foldl_max {α : Type} (g : α → Nat) (l : List α) (n : Nat) : n ≤ l.foldl (fun m a => max m (g a)) n := by
  induction l generalizing n with
  | nil => exact Nat.le_refl n
  | cons a l ih => exact (Nat.le_max_left n (g a)).trans (ih _)

/-- A word starts no earlier than the routine's clock (R310). -/
theorem MicroRun.clock_le_startsAt (r : MicroRun) (nano : BitVec 256) : r.clock ≤ r.startsAt nano := le_foldl_max ..

/-- The clock at the end of a word that starts at `start`. -/
theorem clock_add_wordClocks {r : MicroRun} {start : Nat} (h : r.clock ≤ start) (w : BitVec 32) :
    r.clock + wordClocks r w start = start + (field w 20 2 : BitVec 2).toNat + 1 := by
  unfold wordClocks
  omega

section
variable (s : State) (c : Cx) (u : MicroRun) (n : Nat)

@[simp] theorem State.eng_clocked : (clocked s c n).eng c.e = (s.eng c.e).later n := by simp [clocked]

theorem State.microTime_eq : s.microTime c n = clocked s c n := rfl

theorem State.postCheck_clocked : ((clocked s c n).eng c.e).postCheck = (s.eng c.e).postCheck := by
  rw [State.eng_clocked]
  rfl

/-! ### EVOP (R301, R320) -/

theorem State.evop_eq (nano : BitVec 256) : s.evop c u nano = evopOf s c u nano := by
  unfold State.evop evopOf
  generalize (field nano 228 2 : BitVec 2) = v
  obtain rfl | rfl | rfl | rfl : v = 0 ∨ v = 1 ∨ v = 2 ∨ v = 3 := by bv_omega
  all_goals rfl

theorem State.eng_evopOf (nano : BitVec 256) (e : Eng) : (evopOf s c u nano).1.eng e = s.eng e := by
  unfold evopOf
  dsimp only
  split <;> rfl

/-! ### Commit points and the end of a word (R310, R321, R322) -/

theorem State.eng_written (e : Eng) : (written s c u).eng e = s.eng e := by
  have hfar : ∀ (l : List (Nat × Bank)) (t : State),
      (l.foldl (fun t p => t.modBank (slotOf c.e p.1) fun b => b.takePending p.2) t).eng e = t.eng e := by
    intro l
    induction l with
    | nil => exact fun _ => rfl
    | cons p l ih => exact fun t => ih _
  exact hfar _ _

variable {s c u}

/-- A commit point, on an engine without a poisoned post. -/
theorem State.microCommit_point (hclean : (s.eng c.e).postCheck = none) : (s.microCommit c u u.pc).atMicroPoint c = committed s c u := by
  have hrest : ((s.microCommit c u u.pc).eng c.e).postCheck = none := by
    have hwritten : ((s.applyPending c u).eng c.e).postCheck = none := by
      have happly : s.applyPending c u = written s c u := rfl
      rw [happly, State.eng_written]
      exact hclean
    unfold State.microCommit
    simp only [State.eng_modEng, State.eng_tick, State.eng_seal_false, State.eng_modBank]
    exact hwritten
  unfold State.atMicroPoint
  rw [takePostCheck_none _ _ hrest]
  rfl

end

end Sys2Proof.Machine

namespace Sys2Proof

open Sys2Proof.Machine

/-! ### The end of a word (R310, R318, R319, R322) -/

section
variable {s : State} {c : Cx} {u : MicroRun}

/-- The wait of a routine that has not been ended begins (R319). -/
def waiting (t : State) (c : Cx) (w : Wait) : State := t.modEng c.e fun x => { x with wait := if x.micro.isSome then w else x.wait }

/-- A host-window load of the routine's LSU delays what its word still has to do (R310). -/
theorem closeWord_busy (hwait : (s.eng c.e).wait ≠ .none) : s.closeWord c u = standing s c u u.due := if_pos hwait

theorem closeWord_none (hdue : u.due = .none) : s.closeWord c u = standing s c u .none := by
  unfold State.closeWord
  rw [hdue]
  refine (ite_self _).trans ?_
  rw [standing, ← hdue]

theorem closeWord_commit (hwait : (s.eng c.e).wait = .none) (hclean : (s.eng c.e).postCheck = none) (hdue : u.due = .commit) :
    s.closeWord c u = committed s c u := by
  unfold State.closeWord
  rw [if_neg (not_not.2 hwait), hdue]
  exact State.microCommit_point hclean

/-- The wait of WAITEV or WAITTB begins (R319). -/
theorem closeWord_wait {w : Wait} (hclean : (s.eng c.e).postCheck = none) (hdue : u.due = .wait w) : s.closeWord c u =
    if (s.eng c.e).wait ≠ .none then standing s c u (.wait w)
    else if u.stack.isEmpty then waiting (committed s c u) c w else waiting (standing s c u .none) c w := by
  split
  · next hwait => rw [closeWord_busy hwait, hdue]
  · next hwait =>
    have hbegins : s.closeWord c u = s.beginWait c u w := by
      unfold State.closeWord
      rw [if_neg hwait, hdue]
    rw [hbegins, State.beginWait, State.microCommit_point hclean]
    rfl
end

section
variable {s s1 : State} {c : Cx} {r r1 : MicroRun} {w : BitVec 32} {nano : BitVec 256}

/-- A word that starts at `start` ends, on an engine without a poisoned post. -/
theorem endOfWord_eq {start : Nat} (hstart : r.clock ≤ start) (hclean : (s.eng c.e).postCheck = none) (u : MicroRun) (bubble : Nat) :
    s.endOfWord c r u w nano start bubble
      = wordEnd s c r u w nano (start + (field w 20 2 : BitVec 2).toNat + 1 + bubble) (r.count + 1) := by
  have hrest : ∀ n, ((clocked (evopOf s c u nano).1 c n).eng c.e).postCheck = none := fun n => by
    rw [State.postCheck_clocked, State.eng_evopOf]
    exact hclean
  unfold State.endOfWord wordEnd
  rw [State.evop_eq, clock_add_wordClocks hstart]
  simp only [State.microTime_eq, MicroRun.idleAt]
  cases bit w 19 && !r.delay && r.stack.isEmpty with
  | false =>
    simp only [Bool.false_eq_true, if_false, if_true]
    rw [closeWord_none rfl]
    rfl
  | true =>
    simp only [if_true, Bool.true_eq_false, if_false]
    split
    · next hwait =>
      rw [closeWord_commit hwait (hrest _) rfl]
      rfl
    · next hwait =>
      rw [closeWord_busy hwait]
      rfl

/-! ### A word at its moves (R297, R303) -/

section
variable (h : AtWord s c r w nano)
include h

theorem AtWord.parityCheck : s.parityCheck c r w = none := by
  obtain ⟨-, hword, hnano⟩ := h
  unfold State.parityCheck
  exact if_pos (by rw [List.filter_eq_nil_iff]; simpa using ⟨hword, hnano⟩)

variable (hmoves : (runMoves c r nano (r.startsAt nano)).exec s = (.ok r1, s1)) {seq : BitVec 4} (hseq : (field w 15 4 : BitVec 4) = seq)
include hmoves hseq

theorem AtWord.microStep (close : Cx → MicroRun → MicroRun → State → BitVec 32 → BitVec 256 → Nat → State) :
    s.microStep c.e seq close = close c r r1 s1 w nano (r.startsAt nano) := by
  unfold State.microStep
  simp only [h.next, hseq, ne_eq, not_true_eq_false, if_false, h.parityCheck, hmoves]

variable (hclean : (s1.eng c.e).postCheck = none)
include hclean

/-- A word that goes on as `o` says. -/
theorem AtWord.microRow {after : MicroRun → MicroRun → Vector Word 32 → BitVec 15 → BitVec 256 → Except Trap Onward} {o : Onward}
    (ho : after r r1 (s1.eng c.e).t (field w 0 15) nano = .ok o) :
    s.microRow c.e seq after = wordEnd (s1.modEng c.e fun x => { x with t := o.t }) c r o.run w nano
      (r.startsAt nano + (field w 20 2 : BitVec 2).toNat + 1 + o.bubble) (r.count + 1) := by
  unfold State.microRow
  rw [h.microStep hmoves hseq, ho]
  refine endOfWord_eq (r.clock_le_startsAt nano) ?_ _ _
  rw [State.eng_modEng]
  exact hclean

/-- A word that waits (R319). -/
theorem AtWord.microWait (wait : State → BitVec 15 → Wait) : s.microWait c.e seq wait
    = waitBegun s1 c r { r1 with pc := r.pc } (r.startsAt nano + (field w 20 2 : BitVec 2).toNat + 1) (wait s1 (field w 0 15)) := by
  unfold State.microWait
  rw [h.microStep hmoves hseq]
  simp only [clock_add_wordClocks (r.clock_le_startsAt nano), State.microTime_eq]
  rw [closeWord_wait ((State.postCheck_clocked ..).trans hclean) rfl]
  rfl

/-- A word that goes on to `u`, with the T registers `t`. -/
theorem AtWord.goesTo {after : MicroRun → MicroRun → Vector Word 32 → BitVec 15 → BitVec 256 → Except Trap Onward} {u : MicroRun} {bubble : Nat} {t : Vector Word 32}
    {i : Instr} (hi : exec i s = .next (s.microRow c.e seq after)) (ho : after r r1 (s1.eng c.e).t (field w 0 15) nano = .ok ⟨u, bubble, t⟩) :
    exec i s = .next (wordEnd (s1.modEng c.e fun x => { x with t := t }) c r u w nano
      (r.startsAt nano + (field w 20 2 : BitVec 2).toNat + 1 + bubble) (r.count + 1)) := by
  rw [hi, h.microRow hmoves hseq hclean ho]

end
end

/-- How a word in sequence goes on. -/
theorem inSequence_eq (r u : MicroRun) (t : Vector Word 32) (lit : BitVec 15) (nano : BitVec 256) :
    inSequence r u t lit nano = ⟨(u.onward r.pc nano lit).1, (u.onward r.pc nano lit).2, t⟩ := by
  unfold inSequence
  rcases u.onward r.pc nano lit with ⟨v, n⟩
  rfl

end Sys2Proof

namespace Sys2Proof.Proofs

open Sys2Proof Sys2Proof.Machine

/-- Settles O36: every sequence code is a row of R300, whose word makes its moves and then goes on as the row says. -/
theorem microWords : Obligations.MicroWords := by
  intro s s1 c r r1 w nano start h hstart hmoves hclean lit T ends waits goesOn branches flag near seq
  subst hstart
  have hforward : ∀ l, .ok (inSequence r r1 T l nano) = (.ok ⟨(r1.onward r.pc nano l).1, (r1.onward r.pc nano l).2, T⟩ : Except Trap Onward) :=
    fun l => congrArg Except.ok (inSequence_eq r r1 T l nano)
  refine ⟨fun hseq => ?_, fun hseq => ?_, fun hseq => ?_, fun hseq => ?_, fun hseq hdepth => ?_, fun hseq f fs hstack => ?_, fun hseq => ?_,
    fun hseq => ?_, fun hseq => ?_⟩
  · exact h.goesTo hmoves hseq hclean rfl (hforward lit)
  · exact h.goesTo hmoves hseq hclean rfl rfl
  · split
    · next hflag => exact h.goesTo hmoves hseq hclean rfl (congrArg Except.ok (if_pos (beq_iff_eq.2 hflag)))
    · next hflag => exact h.goesTo hmoves hseq hclean rfl ((congrArg Except.ok (if_neg (mt beq_iff_eq.1 hflag))).trans (hforward 0))
  · split
    · next hflag => exact h.goesTo hmoves hseq hclean rfl (congrArg Except.ok (if_pos (beq_iff_eq.2 hflag)))
    · next hflag => exact h.goesTo hmoves hseq hclean rfl ((congrArg Except.ok (if_neg (mt beq_iff_eq.1 hflag))).trans (hforward 0))
  · exact h.goesTo hmoves hseq hclean rfl (if_neg (Nat.not_le.2 hdepth))
  · refine h.goesTo hmoves hseq hclean rfl ?_
    rw [hstack]
    rfl
  · exact h.goesTo hmoves hseq hclean rfl rfl
  · exact congrArg Host.Outcome.next (h.microWait hmoves hseq hclean _)
  · exact congrArg Host.Outcome.next (h.microWait hmoves hseq hclean _)

end Sys2Proof.Proofs
end

section
/-! SUPPORT. The moves of a word that triggers no unit (R301 to R305, R310), and where a routine goes on (R312 to R315). -/

namespace Sys2Proof.Machine

/-! ### Writes by destination port (R303, R304) -/

/-- The last write to a port is one that no later write replaces (R303). -/
theorem find?_reverse_lastMoves (k : Nat) (ws : List (Nat × BitVec 256)) :
    (lastMoves ws).reverse.find? (fun p => p.1 == k) = ws.reverse.find? fun p => p.1 == k := by
  induction ws with
  | nil => rfl
  | cons p ws ih =>
    unfold lastMoves
    rw [List.reverse_cons, List.find?_append]
    split
    · next hlater =>
      rw [ih]
      by_cases hk : p.1 = k
      · obtain ⟨q, hq, hport⟩ := List.any_eq_true.1 hlater
        have hfound : (ws.reverse.find? fun p => p.1 == k).isSome = true :=
          List.find?_isSome.2 ⟨q, List.mem_reverse.2 hq, by simpa [hk] using hport⟩
        obtain ⟨x, hx⟩ := Option.isSome_iff_exists.1 hfound
        rw [hx]
        rfl
      · simp [hk]
    · rw [List.reverse_cons, List.find?_append, ih]

theorem mem_of_mem_lastMoves {ws : List (Nat × BitVec 256)} {p : Nat × BitVec 256} (h : p ∈ lastMoves ws) : p ∈ ws := by
  induction ws with
  | nil => exact h
  | cons q ws ih =>
    unfold lastMoves at h
    split at h
    · exact List.mem_cons_of_mem _ (ih h)
    · obtain rfl | h := List.mem_cons.1 h
      · exact List.mem_cons_self
      · exact List.mem_cons_of_mem _ (ih h)

/-- A port of a T register is no port of a G or a D register. -/
theorem gPort_dPort_of_t (x : FmtA) {p : Nat} (hlo : 0x20 ≤ p) (hhi : p < 0x40) : gPort x p = none ∧ dPort x p = none := by
  constructor
  · unfold gPort
    rw [if_neg (by omega)]
    split <;> first | omega | rfl
  · unfold dPort
    rw [if_neg (by omega)]
    split <;> first | omega | rfl

/-- What a write does to a T register. -/
theorem writePort_t (r : MicroRun) (t : Vector Word 32) (p : Nat × BitVec 256) (i : Fin 32) :
    (writePort (r, t) p).2[i] = if p.1 = 0x20 + i.val then low64 p.2 else t[i] := by
  obtain ⟨k, v⟩ := p
  by_cases hport : 0x20 ≤ k ∧ k < 0x40
  · obtain ⟨hg, hd⟩ := gPort_dPort_of_t r.x hport.1 hport.2
    unfold writePort
    simp only [hg, hd, hport, and_self, if_true]
    have hreg : (Fin.ofNat 32 (k - 0x20)).val = k - 0x20 := Nat.mod_eq_of_lt (by omega)
    rw [Fin.getElem_fin, Vector.getElem_set]
    refine if_congr ?_ rfl rfl
    rw [hreg]
    omega
  · rw [if_neg (by omega)]
    unfold writePort
    dsimp only
    split
    · rfl
    · rfl
    · rw [if_neg hport]
      split
      · rfl
      · split
        · rfl
        · split
          · rfl
          · split
            · rfl
            · split <;> rfl

/-- What a list of writes leaves in a T register: the value of the last write to its port. -/
theorem foldl_writePort_t (ws : List (Nat × BitVec 256)) (r : MicroRun) (t : Vector Word 32) (i : Fin 32) :
    (ws.foldl writePort (r, t)).2[i] = ((ws.reverse.find? fun p => p.1 == 0x20 + i.val).map fun p => low64 p.2).getD t[i] := by
  induction ws generalizing r t with
  | nil => rfl
  | cons p ws ih =>
    rw [List.foldl_cons, ih (writePort (r, t) p).1 (writePort (r, t) p).2, writePort_t, List.reverse_cons, List.find?_append]
    cases ws.reverse.find? fun p => p.1 == 0x20 + i.val with
    | some q => rfl
    | none =>
      by_cases hp : p.1 = 0x20 + i.val
      · simp [hp]
      · simp [hp]

/-! ### What moves leave of a routine -/

/-- Two routines go on alike: the next word, a branch that is due, the stack, the order of the loops and the clock are the same. -/
def MicroRun.Along (r u : MicroRun) : Prop :=
  u.pc = r.pc ∧ u.stack = r.stack ∧ u.delay = r.delay ∧ u.target = r.target ∧ u.order = r.order ∧ u.clock = r.clock

theorem MicroRun.Along.refl (r : MicroRun) : r.Along r := ⟨rfl, rfl, rfl, rfl, rfl, rfl⟩

theorem MicroRun.Along.trans {r u v : MicroRun} (h : r.Along u) (k : u.Along v) : r.Along v := by
  obtain ⟨h1, h2, h3, h4, h5, h6⟩ := h
  obtain ⟨k1, k2, k3, k4, k5, k6⟩ := k
  exact ⟨k1.trans h1, k2.trans h2, k3.trans h3, k4.trans h4, k5.trans h5, k6.trans h6⟩

theorem along_operandPort (r : MicroRun) (p : Nat × BitVec 256) : r.Along (operandPort r p) := by
  unfold operandPort
  split
  · split
    · exact ⟨rfl, rfl, rfl, rfl, rfl, rfl⟩
    · split
      · exact ⟨rfl, rfl, rfl, rfl, rfl, rfl⟩
      · split <;> exact ⟨rfl, rfl, rfl, rfl, rfl, rfl⟩
  · exact ⟨rfl, rfl, rfl, rfl, rfl, rfl⟩

theorem along_writePort (st : MicroRun × Vector Word 32) (p : Nat × BitVec 256) : st.1.Along (writePort st p).1 := by
  unfold writePort
  dsimp only
  split
  · exact ⟨rfl, rfl, rfl, rfl, rfl, rfl⟩
  · exact ⟨rfl, rfl, rfl, rfl, rfl, rfl⟩
  · split
    · exact ⟨rfl, rfl, rfl, rfl, rfl, rfl⟩
    · split
      · exact ⟨rfl, rfl, rfl, rfl, rfl, rfl⟩
      · split
        · exact ⟨rfl, rfl, rfl, rfl, rfl, rfl⟩
        · split
          · exact ⟨rfl, rfl, rfl, rfl, rfl, rfl⟩
          · split
            · exact ⟨rfl, rfl, rfl, rfl, rfl, rfl⟩
            · split <;> exact ⟨rfl, rfl, rfl, rfl, rfl, rfl⟩

theorem along_foldl_operandPort (ws : List (Nat × BitVec 256)) (r : MicroRun) : r.Along (ws.foldl operandPort r) := by
  induction ws generalizing r with
  | nil => exact ⟨rfl, rfl, rfl, rfl, rfl, rfl⟩
  | cons p ws ih => exact (along_operandPort r p).trans (ih _)

theorem along_foldl_writePort (ws : List (Nat × BitVec 256)) (st : MicroRun × Vector Word 32) : st.1.Along (ws.foldl writePort st).1 := by
  induction ws generalizing st with
  | nil => exact ⟨rfl, rfl, rfl, rfl, rfl, rfl⟩
  | cons p ws ih => exact (along_writePort st p).trans (ih _)

theorem along_keep (r : MicroRun) (c : Cx) (level : Nat) (b : Bank) : r.Along (r.keep c level b) := by
  unfold MicroRun.keep
  split <;> exact ⟨rfl, rfl, rfl, rfl, rfl, rfl⟩

/-! ### Words whose moves are allowed and trigger no unit -/

/-- A write that is allowed and triggers no unit (R303, R305). -/
def Plain (x : FmtA) (p : Nat × BitVec 256) : Prop :=
  badPort x p.1 = false ∧ triggerOf p.1 = none ∧ (p.1 = 0x139 → fpcOk (field p.2 0 32) = true)

section
variable {c : Cx} {x : FmtA} {ws : List (Nat × BitVec 256)}

theorem exec_moveFault {p : Nat × BitVec 256} (h : Plain x p) (s : State) : M.exec (moveFault c x p) s = (.ok (), s) := by
  obtain ⟨hport, htrigger, hfpc⟩ := h
  have hvalue : ¬ (p.1 = 0x139 ∧ fpcOk (field p.2 0 32) = false) := by
    rintro ⟨h139, hbad⟩
    rw [hfpc h139] at hbad
    exact absurd hbad (by decide)
  unfold moveFault
  simp only [hport, htrigger, if_neg hvalue, Bool.false_eq_true, if_false, M.exec_pure]

theorem exec_checkMoves (h : ∀ p ∈ ws, Plain x p) (s : State) : M.exec (checkMoves c x ws) s = (.ok (), s) := by
  induction ws with
  | nil => rfl
  | cons p ws ih =>
    unfold checkMoves
    rw [M.exec_bind, exec_moveFault (h p List.mem_cons_self)]
    exact ih fun q hq => h q (List.mem_cons_of_mem _ hq)

theorem exec_startUnits (h : ∀ p ∈ ws, triggerOf p.1 = none) (mbk : Byte) (start : Nat) (r : MicroRun) (s : State) :
    M.exec (startUnits c mbk start ws r) s = (.ok r, s) := by
  induction ws with
  | nil => rfl
  | cons p ws ih =>
    unfold startUnits
    rw [h p List.mem_cons_self]
    exact ih fun q hq => h q (List.mem_cons_of_mem _ hq)
end

section
variable {s : State} {c : Cx} {r : MicroRun} {nano : BitVec 256}

/-- A word that triggers no unit starts when the units it reads are ready (R310). -/
theorem MicroRun.startsAt_of_untriggered (h : ∀ m ∈ r.live nano, triggerOf m.dst = none) :
    r.startsAt nano = ((r.live nano).filterMap waitsFor).foldl (fun n u => max n (r.unit u).ready) r.clock := by
  have hnone : ((r.live nano).filterMap fun m => (triggerOf m.dst).map (·.1)) = [] :=
    List.filterMap_eq_nil_iff.2 fun m hm => by rw [h m hm]; rfl
  unfold MicroRun.startsAt
  simp only [hnone, List.append_nil]

/-- The moves of a word that reads and writes allowed ports and triggers no unit (R303, R305). -/
theorem exec_runMoves (start : Nat) (hreads : ∀ m ∈ r.live nano, m.imm = true ∨ badPort r.x m.src.toNat = false)
    (hwrites : ∀ p ∈ { r with shadow := r.view c (r.level c nano) (s.bank (slotOf c.e (r.level c nano))) }.writes (s.eng c.e).t
      (s.bank (slotOf c.e (r.level c nano))) nano, Plain r.x p) :
    let r0 := { r with shadow := r.view c (r.level c nano) (s.bank (slotOf c.e (r.level c nano))) }
    let ws := r0.writes (s.eng c.e).t (s.bank (slotOf c.e (r.level c nano))) nano
    let out := ws.foldl writePort (ws.foldl operandPort r0, (s.eng c.e).t)
    M.exec (runMoves c r nano start) s
      = (.ok (out.1.keep c (r.level c nano) r.shadow), s.modEng c.e fun x => { x with t := out.2 }) := by
  intro r0 ws out
  have hsources : ((r.live nano).find? fun m => !m.imm && badPort r.x m.src.toNat) = none := by
    refine List.find?_eq_none.2 fun m hm => ?_
    obtain himm | hport := hreads m hm
    · simp [himm]
    · simp [hport]
  unfold runMoves
  simp only [M.exec_bind, M.exec_ask, hsources, M.exec_pure]
  rw [exec_checkMoves hwrites]
  dsimp only
  rw [exec_startUnits fun p hp => ?_]
  · rfl
  · obtain hp | hp := List.mem_append.1 hp
    · exact (hwrites p (List.mem_filter.1 hp).1).2.1
    · exact (hwrites p (List.mem_filter.1 hp).1).2.1
end

/-! ### Where a routine goes on (R312 to R315) -/

section
variable {r : MicroRun} {a : BitVec 14} {nano : BitVec 256} {lit : BitVec 15}

/-- LOOP of a nano-word: the register set, and whether it arms a DBR loop (R301). -/
theorem field_loop (nano : BitVec 256) : field (field nano 216 3 : BitVec 3) 0 2 = (field nano 216 2 : BitVec 2) := by
  ext i hi
  simp
  omega

theorem bit_loop (nano : BitVec 256) : bit (field nano 216 3 : BitVec 3) 2 = bit nano 218 := by simp

theorem MicroRun.arm_of_unarmed (h : (field nano 216 2 : BitVec 2) = 0) (lit : BitVec 14) : r.arm a (field nano 216 3) lit = (r, none) := by
  unfold MicroRun.arm
  simp only [field_loop nano, h]
  rfl

/-- What arming loop `n` at address `a` leaves of a routine (R314, R315). -/
def MicroRun.armed (r : MicroRun) (a : BitVec 14) (n : Fin 3) (dbr : Bool) (lit : BitVec 14) : MicroRun :=
  { r with
    loops := r.loops.set n { r.loops[n] with start := a + 1, stop := lit, active := !(dbr && r.loops[n].count == 0), dbr := dbr },
    order := n :: r.order.filter (· != n) }

theorem MicroRun.arm_of_armed {n : Fin 3} (h : (field nano 216 2 : BitVec 2).toNat = n.val + 1) (lit : BitVec 14) : r.arm a (field nano 216 3) lit
    = (r.armed a n (bit nano 218) lit, if bit nano 218 && r.loops[n].count == 0 then some (lit + 1) else none) := by
  have hreg : Fin.ofNat 3 (n.val + 1 - 1) = n := Fin.ext (Nat.mod_eq_of_lt n.isLt)
  unfold MicroRun.arm
  simp only [field_loop nano, h, bit_loop, if_neg (Nat.succ_ne_zero _), hreg]
  rfl

@[simp] theorem MicroRun.loops_modLoop_self (r : MicroRun) (n : Fin 3) (f : LoopReg → LoopReg) : (r.modLoop n f).loops[n] = f r.loops[n] :=
  Vector.getElem_set_self ..

theorem MicroRun.loops_modLoop_ne (r : MicroRun) {n m : Fin 3} (h : m ≠ n) (f : LoopReg → LoopReg) : (r.modLoop n f).loops[m] = r.loops[m] :=
  Vector.getElem_set_ne n.isLt m.isLt fun hv => h (Fin.ext hv.symm)

/-- Loop `n` is active and ends at address `a` (R315). -/
def MicroRun.EndsAt (r : MicroRun) (a : BitVec 14) (n : Fin 3) : Prop := r.loops[n].active = true ∧ r.loops[n].stop = a

theorem MicroRun.endsAt_iff (r : MicroRun) (a : BitVec 14) (n : Fin 3) : (!r.loops[n].active || r.loops[n].stop != a) = true ↔ ¬ r.EndsAt a n := by
  unfold MicroRun.EndsAt
  cases r.loops[n].active <;> simp

/-- No loop ends here. -/
theorem MicroRun.loopEnd_of_none {l : List (Fin 3)} (h : ∀ n ∈ l, ¬ r.EndsAt a n) : r.loopEnd a l = (r, none) := by
  induction l with
  | nil => rfl
  | cons n l ih =>
    unfold MicroRun.loopEnd
    rw [if_pos ((r.endsAt_iff a n).2 (h n List.mem_cons_self))]
    exact ih fun m hm => h m (List.mem_cons_of_mem _ hm)

section
variable {n : Fin 3} {l : List (Fin 3)} (h : r.EndsAt a n)
include h

/-- A DBR loop goes on while its count is not used up, with a bubble. -/
theorem MicroRun.loopEnd_dbr (hdbr : r.loops[n].dbr = true) (hcount : r.loops[n].count ≠ 1) :
    r.loopEnd a (n :: l) = (r.modLoop n fun x => { x with count := x.count - 1 }, some (r.loops[n].start, 1)) := by
  rw [MicroRun.loopEnd]
  rw [if_neg (mt (r.endsAt_iff a n).1 (not_not.2 h)), if_pos hdbr, if_neg (mt sub_eq_zero.1 hcount)]
  rfl

/-- A counted loop goes on while more than one pass is left. -/
theorem MicroRun.loopEnd_counted (hdbr : r.loops[n].dbr = false) (hcount : 1 < r.loops[n].count.toNat) :
    r.loopEnd a (n :: l) = (r.modLoop n fun x => { x with count := x.count - 1 }, some (r.loops[n].start, 0)) := by
  rw [MicroRun.loopEnd]
  rw [if_neg (mt (r.endsAt_iff a n).1 (not_not.2 h)), if_neg (Bool.not_eq_true _ ▸ hdbr), if_neg (Nat.not_le.2 hcount)]

/-- A loop at its last pass ends, and loops around it that end here follow. -/
theorem MicroRun.loopEnd_last (hcount : r.loops[n].count = 1) :
    r.loopEnd a (n :: l) = (r.modLoop n fun x => { x with count := 0, active := false }).loopEnd a l := by
  rw [MicroRun.loopEnd]
  rw [if_neg (mt (r.endsAt_iff a n).1 (not_not.2 h)), hcount]
  cases r.loops[n].dbr
  · rw [if_neg Bool.false_ne_true, if_pos (by decide)]
  · rw [if_pos rfl, if_pos (by decide)]
    rfl
end

/-- In sequence, after what an unarmed word leaves of the loops. -/
theorem MicroRun.onward_of_redirect (h : (field nano 216 2 : BitVec 2) = 0) (hdelay : r.delay = false) {u : MicroRun} {p : BitVec 14} {n : Nat}
    (hloops : r.loopEnd a r.order = (u, some (p, n))) : r.onward a nano lit = ({ u with pc := p }, n) := by
  unfold MicroRun.onward
  rw [MicroRun.arm_of_unarmed h]
  dsimp only
  rw [hdelay, hloops, if_neg Bool.false_ne_true]

theorem MicroRun.onward_of_no_redirect (h : (field nano 216 2 : BitVec 2) = 0) (hdelay : r.delay = false) {u : MicroRun}
    (hloops : r.loopEnd a r.order = (u, none)) : r.onward a nano lit = ({ u with pc := a + 1 }, 0) := by
  unfold MicroRun.onward
  rw [MicroRun.arm_of_unarmed h]
  dsimp only
  rw [hdelay, hloops, if_neg Bool.false_ne_true]

/-- A delay slot goes on at the branch target, whatever loops end there (R312). -/
theorem MicroRun.onward_of_delay (h : (field nano 216 2 : BitVec 2) = 0) (hdelay : r.delay = true) :
    r.onward a nano lit = ({ r with pc := r.target.getD (a + 1), target := none, delay := false }, 0) := by
  unfold MicroRun.onward
  rw [MicroRun.arm_of_unarmed h]
  exact if_pos hdelay

/-- No loop ends at the word that arms one beyond it. -/
theorem MicroRun.loopEnd_armed {n : Fin 3} {dbr : Bool} {stop : BitVec 14} (hothers : ∀ m ∈ r.order, m ≠ n → ¬ r.EndsAt a m) (hstop : stop ≠ a) :
    (r.armed a n dbr stop).loopEnd a (r.armed a n dbr stop).order = (r.armed a n dbr stop, none) := by
  refine MicroRun.loopEnd_of_none fun m hm => ?_
  have hloops : r.armed a n dbr stop = { r.modLoop n fun x => { x with start := a + 1, stop := stop, active := !(dbr && x.count == 0), dbr := dbr } with
    order := n :: r.order.filter (· != n) } := rfl
  unfold MicroRun.EndsAt
  obtain rfl | hne := eq_or_ne m n
  · rw [hloops, MicroRun.loops_modLoop_self]
    exact fun h => hstop h.2
  · obtain rfl | hm := List.mem_cons.1 hm
    · exact absurd rfl hne
    · rw [hloops, MicroRun.loops_modLoop_ne _ hne]
      exact hothers m (List.mem_filter.1 hm).1 hne

theorem MicroRun.onward_of_armed {n : Fin 3} (h : (field nano 216 2 : BitVec 2).toNat = n.val + 1) (hdelay : r.delay = false)
    (hothers : ∀ m ∈ r.order, m ≠ n → ¬ r.EndsAt a m) (hstop : (field lit 0 14 : BitVec 14) ≠ a) :
    r.onward a nano lit = if bit nano 218 && r.loops[n].count == 0 then ({ r.armed a n (bit nano 218) (field lit 0 14) with pc := field lit 0 14 + 1 }, 1)
      else ({ r.armed a n (bit nano 218) (field lit 0 14) with pc := a + 1 }, 0) := by
  have hrest : ¬ (r.armed a n (bit nano 218) (field lit 0 14)).delay = true := fun htrue => Bool.false_ne_true (hdelay.symm.trans htrue)
  unfold MicroRun.onward
  rw [MicroRun.arm_of_armed h]
  dsimp only
  rw [MicroRun.loopEnd_armed hothers hstop, if_neg hrest]
  cases bit nano 218 && r.loops[n].count == 0 with
  | false => rfl
  | true => rfl
end

end Sys2Proof.Machine

namespace Sys2Proof.Proofs

open Sys2Proof Sys2Proof.Machine

/-- The moves of a word (R301 to R305, R310). -/
theorem microMovesRules_holds : microMovesRules := by
  intro s c r nano ms level b shadow v hmoves
  let r0 : MicroRun := { r with shadow := shadow }
  have hwrites : ∀ p ∈ r0.writes (s.eng c.e).t b nano, Plain r.x p := by
    intro p hp
    obtain ⟨m, hm, rfl⟩ := List.mem_map.1 (mem_of_mem_lastMoves hp)
    obtain ⟨-, hport, htrigger, hfpc⟩ := hmoves m hm
    exact ⟨hport, htrigger, hfpc⟩
  have hreads : ∀ m ∈ r.live nano, m.imm = true ∨ badPort r.x m.src.toNat = false := fun m hm => (hmoves m hm).left
  have htriggers : ∀ m ∈ r.live nano, triggerOf m.dst = none := fun m hm => have ⟨_, _, htrigger, _⟩ := hmoves m hm; htrigger
  refine ⟨MicroRun.startsAt_of_untriggered htriggers, _, _, exec_runMoves _ hreads hwrites, fun i => ?_, ?_⟩
  · have hlast : (r0.writes (s.eng c.e).t b nano).reverse.find? (fun p => p.1 == 0x20 + i.val)
        = (ms.reverse.find? fun m => m.dst == 0x20 + i.val).map fun m => (m.dst, v m) :=
      (find?_reverse_lastMoves _ _).trans (by rw [← List.map_reverse, List.find?_map]; rfl)
    refine (foldl_writePort_t ..).trans ?_
    refine (congrArg (fun x : Option (Nat × BitVec 256) => (x.map fun p => low64 p.2).getD (s.eng c.e).t[i]) hlast).trans ?_
    cases ms.reverse.find? fun m => m.dst == 0x20 + i.val with
    | none => rfl
    | some m => rfl
  · exact (along_foldl_operandPort _ r0).trans ((along_foldl_writePort _ _).trans (along_keep ..))

/-- Where a routine goes on (R312 to R315). -/
theorem microSequenceRules_holds : microSequenceRules := by
  intro r a nano lit unarmed ends
  refine ⟨fun h hdelay => MicroRun.onward_of_delay h hdelay, fun h hdelay hnone => MicroRun.onward_of_no_redirect h hdelay (MicroRun.loopEnd_of_none hnone),
    fun h hdelay n l horder hends => ⟨fun hdbr hcount => ?_, fun hdbr hcount => ?_, fun hcount hothers => ?_⟩,
    fun n h hdelay hothers hstop => MicroRun.onward_of_armed h hdelay hothers hstop⟩
  · exact MicroRun.onward_of_redirect h hdelay (by rw [horder, MicroRun.loopEnd_dbr hends hdbr hcount])
  · exact MicroRun.onward_of_redirect h hdelay (by rw [horder, MicroRun.loopEnd_counted hends hdbr hcount])
  · refine MicroRun.onward_of_no_redirect h hdelay (u := r.modLoop n fun x => { x with count := 0, active := false }) ?_
    rw [horder, MicroRun.loopEnd_last hends hcount]
    refine MicroRun.loopEnd_of_none fun m hm => ?_
    obtain ⟨hne, hm⟩ := hothers m hm
    unfold MicroRun.EndsAt
    rw [MicroRun.loops_modLoop_ne _ hne]
    exact hm

/-- Settles O37: the moves read before they write, by their ports; the loops are asked from the most recently armed on. -/
theorem microSequence : Obligations.MicroSequence := ⟨microMovesRules_holds, microSequenceRules_holds⟩

end Sys2Proof.Proofs
end

section
/-! SUPPORT. A runaway in a domain that quiesces: the machine check that enters level 0 is an interruption point of the routine's level (R34, R290, R292). -/

namespace Sys2Proof.Machine

/-- A window that CSTORE_RELOAD writes changes no slot (R296). -/
theorem State.slot_takeWindow (s : State) (e : Eng) (i : Nat) : (s.takeWindow e).slot i = s.slot i := by
  unfold State.takeWindow
  split
  · rfl
  · split <;> rfl

end Sys2Proof.Machine

namespace Sys2Proof.Proofs

open Sys2Proof Sys2Proof.Machine

/-! ### A runaway over a level that quiesces (O38) -/

/-- A customer routine whose next address lies outside its window (R333). -/
def strayRoutine : MicroRun := { (default : MicroRun) with pc := 0x2FFF }

/-- A part at reset, but for engine 0, whose cluster runs: level 1 is in a routine that has left its window, for domain 1, which quiesces, and level 0 is
IDLE with its vector-table entry 0 VALID. -/
def strayInQuiescing : State :=
  ((({ runningWith (bankAt codeAt []) with vectors := [(0, 1)], owners := [(1, 1)] }.modDom 1 fun y => { y with state := .quiescing }).modSlot 0
    fun y => { y with state := .idle }).modSlot 1 fun y => { y with state := .active }).modEng 0 fun y => { y with micro := some strayRoutine }

/-- The runaway stops level 1: its quiesce sequence has what it waits for (R34 step 3, R292). -/
theorem qstop_strayInQuiescing : leaves (fun u => (u.slot 1).qstop) (exec (.microRunaway 0) strayInQuiescing) = some true := by decide +kernel

/-- Refutes O38: a runaway's machine check that enters level 0 is an interruption point of the routine's level, and sets its QSTOP where its domain quiesces
(R34, R292), but `Enters` leaves every slot's QSTOP as it was. It leaves out as well that an entry clears the mark of a stop at a commit point (R282). -/
theorem not_microEnds : ¬ Obligations.MicroEnds := by
  intro h
  obtain ⟨-, -, hruns⟩ := h strayInQuiescing ⟨0, 1, strayRoutine.x.len.bytes⟩ strayRoutine
  obtain ⟨hrunaway, -⟩ := hruns (by decide +kernel) (by decide +kernel) rfl (by decide +kernel) (by decide +kernel) (by decide +kernel)
  obtain ⟨u, hu, hchecks, -⟩ := hrunaway (by decide +kernel) (.inr (by decide))
  obtain ⟨-, -, -, haside⟩ := hchecks (by decide +kernel)
  have hkept : (u.slot 1).qstop = false := (congrArg Slot.qstop (haside.slots 1)).trans (by decide +kernel)
  have hstopped := qstop_strayInQuiescing
  rw [hu, leaves, State.slot_takeWindow, hkept] at hstopped
  exact absurd hstopped (by decide)

end Sys2Proof.Proofs
end

section
/-! SUPPORT. Images, their slots and their windows: the checks of an image (R480, R481), the flash (R486 to R488), the windows that CSTORE_RELOAD writes (R296),
and the switch of the plan (R21, R424). -/

namespace Sys2Proof.Machine

/-! ### The checks of an image (R480, R481) -/

theorem firstWrong_eq_none {l : List (Bool × Nat)} : firstWrong l = none ↔ ∀ c ∈ l, c.1 = true := by
  unfold firstWrong
  rw [Option.map_eq_none_iff, List.find?_eq_none]
  simp

/-- A header without a fault (R479, R480). -/
theorem headerBad_none {kind : Nat} {l : List Byte} (h : headerBad kind l = none) :
    fieldLE l 0 4 = 0x4D495843 ∧ fieldLE l 4 1 = kind ∧ fieldLE l 8 4 ≠ 0 ∧ 288 + fieldLE l 32 4 ≤ slotSize kind := by
  have hall := firstWrong_eq_none.1 h
  have hmagic := hall (fieldLE l 0 4 == 0x4D495843, 0) (by simp)
  have hkind := hall (fieldLE l 4 1 == kind, 4) (by simp)
  have hversion := hall (fieldLE l 8 4 != 0, 8) (by simp)
  have hsize := hall (decide (288 + fieldLE l 32 4 ≤ slotSize kind) && decide (288 + fieldLE l 32 4 ≤ l.length), 32) (by simp)
  simp only [Bool.and_eq_true, decide_eq_true_eq] at hsize
  exact ⟨beq_iff_eq.1 hmagic, beq_iff_eq.1 hkind, bne_iff_ne.1 hversion, hsize.1⟩

section
variable {nv : NonVolatile} {kind : Nat} {l : List Byte}

theorem signatureFault_some {f : ImageFault} (h : signatureFault nv kind l = some f) : (f.stage, f.f.code) ∈ [(3, 0x30), (4, 0x30)] := by
  unfold signatureFault at h
  dsimp only at h
  generalize hashBytes _ = fused at h
  split at h
  · obtain rfl := Option.some.inj h
    decide
  · split at h
    · obtain rfl := Option.some.inj h
      decide
    · split at h
      · obtain rfl := Option.some.inj h
        decide
      · split at h
        · obtain rfl := Option.some.inj h
          decide
        · cases h

/-- An image with the right signer, key, signature and body hash (R480). -/
theorem signatureFault_none (h : signatureFault nv kind l = none) :
    fieldLE l 5 1 = b2n (decide (3 ≤ kind) && nv.enrolled)
      ∧ sha384 ((l.drop 96).take 96) = hashBytes (if decide (3 ≤ kind) && nv.enrolled then nv.custHash else nv.fuses.vendorHash)
      ∧ signatureOk ((l.drop 96).take 96) (sha384 (l.take 192)) ((l.drop 192).take 96) = true
      ∧ sha384 ((l.drop 288).take (fieldLE l 32 4)) = (l.drop 40).take 48 := by
  unfold signatureFault at h
  dsimp only at h
  generalize hashBytes _ = fused at h ⊢
  split at h
  · cases h
  · next hsigner =>
    split at h
    · cases h
    · next hkey =>
      split at h
      · cases h
      · next hsignature =>
        split at h
        · cases h
        · next hbody => exact ⟨not_not.1 hsigner, not_not.1 hkey, by simpa using hsignature, not_not.1 hbody⟩

end

section
variable {i : Image} {others : List Image}

theorem compatFault_some {f : ImageFault} (h : compatFault i others = some f) : f.stage = 5 ∧ f.f.code = 0x31 := by
  obtain ⟨o, -, ho⟩ := List.exists_of_findSome?_eq_some h
  split at ho
  · obtain rfl := Option.some.inj ho
    exact ⟨rfl, rfl⟩
  · split at ho
    · obtain rfl := Option.some.inj ho
      exact ⟨rfl, rfl⟩
    · cases ho

/-- The image agrees with every other one, both ways (R481). -/
theorem compatFault_none (h : compatFault i others = none) {o : Image} (ho : o ∈ others) : o.refuses i = false ∧ i.refuses o = false := by
  have hone := List.findSome?_eq_none_iff.1 h o ho
  split at hone
  · cases hone
  · next htheirs =>
    split at hone
    · cases hone
    · next hours => exact ⟨Bool.eq_false_iff.2 htheirs, Bool.eq_false_iff.2 hours⟩
end

section
variable {nv : NonVolatile} {w : PlanBound} {others : List Image} {forced : Bool} {kind : Nat} {source : Byte} {l : List Byte}

/-- The image that a list of bytes holds. -/
def imageFrom (l : List Byte) (source : Byte) (forced : Bool) : Image :=
  { header := l.take 288, body := (l.drop 288).take (fieldLE l 32 4), source := source, forced := forced }

/-- What a refusal names: its stage and its status (R469, R480). -/
theorem checkImage_error {f : ImageFault} (h : checkImage nv w others forced kind source l = .error f) :
    (f.stage, f.f.code) ∈ [(2, 0x13), (3, 0x30), (4, 0x30), (5, 0x31), (6, 0x13)] := by
  unfold checkImage at h
  split at h
  · obtain rfl := Except.error.inj h
    exact List.mem_cons_self
  · dsimp only at h
    split at h
    · next x hx =>
      obtain rfl := Except.error.inj h
      have hmem := signatureFault_some hx
      simp only [List.mem_cons, List.not_mem_nil, or_false] at hmem ⊢
      tauto
    · split at h
      · next x hx =>
        obtain rfl := Except.error.inj h
        cases forced
        · obtain ⟨hstage, hcode⟩ := compatFault_some hx
          rw [hstage, hcode]
          decide
        · cases hx
      · split at h
        · obtain rfl := Except.error.inj h
          simp [failAt, badParam]
        · cases h

/-- An image that passes has passed each check (R480). -/
theorem checkImage_ok {i : Image} (h : checkImage nv w others forced kind source l = .ok i) :
    i = imageFrom l source forced ∧ headerBad kind l = none ∧ signatureFault nv kind l = none ∧ (forced = false → compatFault i others = none)
      ∧ contentBad w kind i.body = none := by
  unfold checkImage at h
  split at h
  · cases h
  · next hheader =>
    dsimp only at h
    split at h
    · cases h
    · next hsignature =>
      split at h
      · cases h
      · next hcompat =>
        split at h
        · cases h
        · next hcontent =>
          obtain rfl := Except.ok.inj h
          refine ⟨rfl, hheader, hsignature, fun hforced => ?_, hcontent⟩
          rw [hforced] at hcompat
          exact hcompat
end

/-! ### The flash (R486) -/

theorem tget_tdrop {α : Type} (d : α) (t : Tbl α) (f : Nat → Bool) (a : Nat) : tget d (tdrop t f) a = if f a then d else tget d t a := by
  induction t with
  | nil => exact (ite_self d).symm
  | cons p t ih =>
    obtain ⟨k, v⟩ := p
    have hdrop : tdrop ((k, v) :: t) f = if f k then tdrop t f else (k, v) :: tdrop t f := by
      unfold tdrop
      rw [List.filter_cons]
      cases f k <;> rfl
    rw [hdrop]
    by_cases hk : k = a
    · subst hk
      cases hf : f k with
      | true => rw [if_pos rfl, ih, if_pos hf, if_pos rfl]
      | false => simp [tget]
    · have hskip : tget d ((k, v) :: t) a = tget d t a := if_neg hk
      rw [hskip, ← ih]
      split
      · rfl
      · exact if_neg hk

/-- Programmed bytes are read back, and every other byte stays. -/
theorem tget_putFlash (t : Tbl Byte) (off : Nat) (l : List Byte) (a : Nat) : tget 0xFF (putFlash t off l) a = laid (tget 0xFF t) off l a := by
  induction l generalizing t off with
  | nil =>
    unfold laid
    rw [if_neg (by simp)]
    rfl
  | cons b l ih =>
    rw [putFlash, ih]
    unfold laid
    rw [tget_tset, List.length_cons]
    by_cases hhere : a = off
    · subst hhere
      rw [if_neg (by omega), if_pos rfl, if_pos (by omega), Nat.sub_self]
      rfl
    · rw [if_neg hhere]
      by_cases hlater : off + 1 ≤ a ∧ a < off + 1 + l.length
      · rw [if_pos hlater, if_pos (by omega), show a - off = a - (off + 1) + 1 by omega]
        rfl
      · rw [if_neg hlater, if_neg (by omega)]

/-- What a byte of the flash reads after a range is erased and programmed. -/
theorem tget_program (v : NonVolatile) (off size : Nat) (l : List Byte) (a : Nat) : tget 0xFF (v.program off size l).flash a
    = laid (fun a => if off ≤ a ∧ a < off + size then 0xFF else tget 0xFF v.flash a) off l a := by
  have herased : tget 0xFF (tdrop v.flash fun a => decide (off ≤ a) && decide (a < off + size))
      = fun a => if off ≤ a ∧ a < off + size then 0xFF else tget 0xFF v.flash a := by
    funext b
    rw [tget_tdrop]
    simp
  have hprogram : (v.program off size l).flash = putFlash (tdrop v.flash fun a => decide (off ≤ a) && decide (a < off + size)) off l := rfl
  rw [hprogram, tget_putFlash, herased]

theorem flashBytes_congr {u v : NonVolatile} {off n : Nat} (h : ∀ a, off ≤ a → a < off + n → tget 0xFF u.flash a = tget 0xFF v.flash a) :
    u.flashBytes off n = v.flashBytes off n :=
  List.map_congr_left fun a ha => have ⟨hlo, hhi⟩ := (mem_upFrom off n a).1 ha; h a hlo hhi

theorem length_upFrom (a n : Nat) : (upFrom a n).length = n := by
  induction n generalizing a with
  | zero => rfl
  | succ n ih => rw [upFrom, List.length_cons, ih]

theorem flashBytes_of_erased {v : NonVolatile} {off n : Nat} (h : ∀ a, off ≤ a → a < off + n → tget 0xFF v.flash a = 0xFF) :
    v.flashBytes off n = List.replicate n 0xFF := by
  refine List.eq_replicate_iff.2 ⟨(List.length_map ..).trans (length_upFrom ..), fun b hb => ?_⟩
  obtain ⟨a, ha, rfl⟩ := List.mem_map.1 hb
  obtain ⟨hlo, hhi⟩ := (mem_upFrom off n a).1 ha
  exact h a hlo hhi

/-! ### Windows (R296) -/

section
variable (s : State) (e : Eng)

theorem State.takeWindow_rest : (s.takeWindow e).keeper = s.keeper ∧ (s.takeWindow e).power = s.power := by
  unfold State.takeWindow
  split
  · exact ⟨rfl, rfl⟩
  · split <;> exact ⟨rfl, rfl⟩

theorem State.eng_takeWindow_ne {d : Eng} (h : d ≠ e) : (s.takeWindow e).eng d = s.eng d := by
  unfold State.takeWindow
  split
  · rfl
  · split
    · exact State.eng_modEng_ne _ _ _ _ h
    · rfl

/-- An engine whose window has been written. -/
def Engine.windowed (y : Engine) (k : Keeper) (cs : CStore) : Engine :=
  { y with cs := cs, csGen := k.generation, csDue := false, micro := none, wait := if y.micro.isSome then .none else y.wait }

variable {s e}

theorem State.eng_takeWindow {cs : CStore} (h : s.keeper.reload = some cs) : (s.takeWindow e).eng e =
    if (s.eng e).csDue && ((s.eng e).atPoint || (s.eng e).checkstop) then (s.eng e).windowed s.keeper cs else s.eng e := by
  unfold State.takeWindow
  rw [h]
  dsimp only
  split
  · exact State.eng_modEng ..
  · rfl
end

/-- CSTORE_RELOAD writes the window of an engine that does not run without waiting for it (R296). -/
def State.reloadsNow (s : State) (e : Eng) : Bool := (s.power.clusters[clusterOf e]).st != .run || (s.eng e).checkstop

/-- An engine whose window is due, and whose routine is gone where it is written now. -/
def Engine.reloads (x : Engine) (now : Bool) : Engine :=
  { x with csDue := true, micro := if now then none else x.micro, wait := if now && x.micro.isSome then .none else x.wait }

theorem Engine.atPoint_reloads {x : Engine} (h : x.atPoint = true) : (x.reloads true).atPoint = true := by
  unfold Engine.atPoint at h
  unfold Engine.reloads Engine.atPoint
  cases hmicro : x.micro with
  | none =>
    rw [hmicro] at h
    exact h
  | some r => rfl

/-- What CSTORE_RELOAD does at one engine (R296). -/
def State.reloadAt (s : State) (e : Eng) : State := (s.modEng e fun x => x.reloads (s.reloadsNow e)).takeWindow e

theorem State.startReload_eq (s : State) (cs : CStore) : s.startReload cs
    = (List.finRange 32).foldl State.reloadAt { s with keeper := { s.keeper with generation := s.keeper.generation + 1, reload := some cs } } := rfl

section
variable {s : State} {e : Eng} {cs : CStore}

theorem State.reloadAt_rest (s : State) (e : Eng) : (s.reloadAt e).keeper = s.keeper ∧ (s.reloadAt e).power = s.power := State.takeWindow_rest ..

theorem State.eng_reloadAt_ne (s : State) {d e : Eng} (h : d ≠ e) : (s.reloadAt e).eng d = s.eng d :=
  (State.eng_takeWindow_ne _ _ h).trans (State.eng_modEng_ne _ _ _ _ h)

theorem State.eng_reloadAt (hreload : s.keeper.reload = some cs) : (s.reloadAt e).eng e =
    if ((s.eng e).reloads (s.reloadsNow e)).atPoint || (s.eng e).checkstop then ((s.eng e).reloads (s.reloadsNow e)).windowed s.keeper cs
    else (s.eng e).reloads (s.reloadsNow e) := by
  refine (State.eng_takeWindow (s := s.modEng e fun x => x.reloads (s.reloadsNow e)) hreload).trans ?_
  rw [State.eng_modEng]
  rfl

/-- An engine of a running cluster takes its window at an interruption point, and has it due elsewhere. -/
theorem State.eng_reloadAt_run (hreload : s.keeper.reload = some cs) (hrun : (s.power.clusters[clusterOf e]).st = .run) (hgoes : (s.eng e).checkstop = false) :
    (s.reloadAt e).eng e = if (s.eng e).atPoint = true then (s.eng e).windowed s.keeper cs else { s.eng e with csDue := true } := by
  have hnow : s.reloadsNow e = false := by
    rw [State.reloadsNow, hrun, hgoes]
    rfl
  rw [State.eng_reloadAt hreload, hnow, hgoes, Bool.or_false]
  rfl

/-- An engine that is stopped takes its window at once, and so does one outside RUN that stands at an interruption point. -/
theorem State.eng_reloadAt_stopped (hreload : s.keeper.reload = some cs)
    (hstopped : (s.eng e).checkstop = true ∨ (s.power.clusters[clusterOf e]).st ≠ .run ∧ (s.eng e).atPoint = true) :
    (s.reloadAt e).eng e = (s.eng e).windowed s.keeper cs := by
  have hnow : s.reloadsNow e = true := by
    unfold State.reloadsNow
    obtain hstop | ⟨hcluster, -⟩ := hstopped
    · rw [hstop, Bool.or_true]
    · rw [bne_iff_ne.2 hcluster, Bool.true_or]
  have hpoint : (((s.eng e).reloads true).atPoint || (s.eng e).checkstop) = true := by
    obtain hstop | ⟨-, hpoint⟩ := hstopped
    · rw [hstop, Bool.or_true]
    · rw [Engine.atPoint_reloads hpoint, Bool.true_or]
  rw [State.eng_reloadAt hreload, hnow, if_pos hpoint]
  rfl

/-- What a pass over distinct engines leaves in one of them, where each step changes its own engine alone. -/
theorem exists_eng_foldl_reloadAt {l : List Eng} (hn : l.Nodup) (he : e ∈ l) (s : State) : ∃ t : State, t.keeper = s.keeper ∧ t.power = s.power
    ∧ t.eng e = s.eng e ∧ (l.foldl State.reloadAt s).eng e = (t.reloadAt e).eng e := by
  induction l generalizing s with
  | nil => exact absurd he List.not_mem_nil
  | cons d l ih =>
    obtain ⟨hd, hn⟩ := List.nodup_cons.1 hn
    by_cases hde : e = d
    · subst hde
      refine ⟨s, rfl, rfl, rfl, ?_⟩
      have hrest : ∀ (m : List Eng) (u : State), e ∉ m → (m.foldl State.reloadAt u).eng e = u.eng e := by
        intro m
        induction m with
        | nil => exact fun _ _ => rfl
        | cons a m ih =>
          intro u hm
          exact (ih _ (List.not_mem_of_not_mem_cons hm)).trans (State.eng_reloadAt_ne u (List.ne_of_not_mem_cons hm))
      exact hrest _ _ hd
    · obtain ⟨t, hkeeper, hpower, heng, hfold⟩ := ih hn ((List.mem_cons.1 he).resolve_left hde) (s.reloadAt d)
      obtain ⟨hk, hp⟩ := State.reloadAt_rest s d
      exact ⟨t, hkeeper.trans hk, hpower.trans hp, heng.trans (State.eng_reloadAt_ne s hde), hfold⟩

theorem keeper_foldl_reloadAt (l : List Eng) (s : State) : (l.foldl State.reloadAt s).keeper = s.keeper := by
  induction l generalizing s with
  | nil => rfl
  | cons d l ih => exact (ih _).trans (State.reloadAt_rest s d).1
end

/-! ### CSTORE_RELOAD and PLAN_SWITCH as they complete (R21, R296) -/

section
variable (s : State) (i : Image)

/-- The customer part that CSTORE_RELOAD leaves (R296, R484). -/
theorem State.endReload_images (h : s.keeper.heldImg[2] = some i) :
    s.endReload.keeper.inForce[2] = some i ∧ s.endReload.keeper.heldImg[2] = none ∧ s.endReload.keeper.reload = none := by
  unfold State.endReload
  rw [h]
  exact ⟨Vector.getElem_set_self .., Vector.getElem_set_self .., rfl⟩

/-- The windows that CSTORE_RELOAD leaves (R296). -/
theorem State.keeper_startReload (cs : CStore) : (s.startReload cs).keeper = { s.keeper with generation := s.keeper.generation + 1, reload := some cs } := by
  rw [State.startReload_eq]
  exact keeper_foldl_reloadAt ..

theorem State.exists_eng_startReload (cs : CStore) (e : Eng) : ∃ t : State, t.keeper = { s.keeper with generation := s.keeper.generation + 1, reload := some cs }
    ∧ t.power = s.power ∧ t.eng e = s.eng e ∧ (s.startReload cs).eng e = (t.reloadAt e).eng e := by
  rw [State.startReload_eq]
  exact exists_eng_foldl_reloadAt (List.nodup_finRange 32) (List.mem_finRange e)
    { s with keeper := { s.keeper with generation := s.keeper.generation + 1, reload := some cs } }

theorem State.eng_startReload_run (cs : CStore) (e : Eng) (hrun : (s.power.clusters[clusterOf e]).st = .run) (hgoes : (s.eng e).checkstop = false) :
    (s.startReload cs).eng e = if (s.eng e).atPoint = true then (s.eng e).windowed (s.startReload cs).keeper cs else { s.eng e with csDue := true } := by
  obtain ⟨t, hkeeper, hpower, heng, hfold⟩ := s.exists_eng_startReload cs e
  rw [hfold, State.eng_reloadAt_run (cs := cs) (by rw [hkeeper]) (by rw [hpower, hrun]) (by rw [heng, hgoes]), heng, hkeeper, State.keeper_startReload]

theorem State.eng_startReload_stopped (cs : CStore) (e : Eng)
    (hstopped : (s.eng e).checkstop = true ∨ (s.power.clusters[clusterOf e]).st ≠ .run ∧ (s.eng e).atPoint = true) :
    (s.startReload cs).eng e = (s.eng e).windowed (s.startReload cs).keeper cs := by
  obtain ⟨t, hkeeper, hpower, heng, hfold⟩ := s.exists_eng_startReload cs e
  rw [hfold, State.eng_reloadAt_stopped (cs := cs) (by rw [hkeeper]) (by rw [hpower, heng]; exact hstopped), heng, hkeeper, State.keeper_startReload]

theorem State.foldl_modRing_rest (f : RingId → Ring → Ring) (l : List RingId) : (l.foldl (fun s r => s.modRing r (f r)) s).plan = s.plan
    ∧ (l.foldl (fun s r => s.modRing r (f r)) s).keeper = s.keeper := by
  induction l generalizing s with
  | nil => exact ⟨rfl, rfl⟩
  | cons r l ih => exact ih (s.modRing r (f r))

theorem State.ring_foldl_modRing_of_not_mem (f : RingId → Ring → Ring) {l : List RingId} {r : RingId} (hr : r ∉ l) :
    (l.foldl (fun s r => s.modRing r (f r)) s).ring r = s.ring r := by
  induction l generalizing s with
  | nil => rfl
  | cons q l ih => exact (ih _ (List.not_mem_of_not_mem_cons hr)).trans (State.ring_modRing_ne _ _ _ _ (List.ne_of_not_mem_cons hr))

/-- A pass over distinct rings changes each of them once. -/
theorem State.ring_foldl_modRing (f : RingId → Ring → Ring) {l : List RingId} {r : RingId} (hn : l.Nodup) (hr : r ∈ l) :
    (l.foldl (fun s r => s.modRing r (f r)) s).ring r = f r (s.ring r) := by
  induction l generalizing s with
  | nil => exact absurd hr List.not_mem_nil
  | cons q l ih =>
    obtain ⟨hq, hn⟩ := List.nodup_cons.1 hn
    obtain rfl | hr := List.mem_cons.1 hr
    · exact (State.ring_foldl_modRing_of_not_mem _ f hq).trans (State.ring_modRing ..)
    · exact (ih _ hn hr).trans (congrArg (f r) (State.ring_modRing_ne _ _ _ _ (ne_of_mem_of_not_mem hr hq)))

theorem State.adoptPlan_rest : s.adoptPlan.plan = s.plan ∧ s.adoptPlan.keeper = s.keeper := by
  unfold State.adoptPlan
  split
  · exact ⟨rfl, rfl⟩
  · exact ⟨rfl, rfl⟩

theorem State.planAwaits_rest : s.planAwaits.plan = s.plan ∧ s.planAwaits.keeper = s.keeper := by
  unfold State.planAwaits
  split
  · exact ⟨rfl, rfl⟩
  · exact s.adoptPlan_rest

/-- The plan that PLAN_SWITCH leaves (R21). -/
theorem State.switchPlan_plan (h : s.keeper.heldImg[3] = some i) :
    s.switchPlan.plan = some (readPlan i.body) ∧ s.switchPlan.keeper.inForce[3] = some i ∧ s.switchPlan.keeper.heldImg[3] = none := by
  have hswitch : s.switchPlan = ((List.finRange 4).foldl (fun s r => s.modRing r fun x => x.takePlan ((readPlan i.body).ring r) (readPlan i.body).qmap)
      (s.planInForce i (readPlan i.body))).planAwaits := by
    unfold State.switchPlan State.heldPlan
    rw [h]
    rfl
  obtain ⟨hplan, hkeeper⟩ := State.planAwaits_rest ((List.finRange 4).foldl
    (fun s r => s.modRing r fun x => x.takePlan ((readPlan i.body).ring r) (readPlan i.body).qmap) (s.planInForce i (readPlan i.body)))
  obtain ⟨hplan', hkeeper'⟩ := State.foldl_modRing_rest (s.planInForce i (readPlan i.body))
    (fun r x => x.takePlan ((readPlan i.body).ring r) (readPlan i.body).qmap) (List.finRange 4)
  rw [hswitch, hplan, hplan', hkeeper, hkeeper']
  exact ⟨rfl, Vector.getElem_set_self .., Vector.getElem_set_self ..⟩
end

/-! ### The announcement of PLAN_SWITCH (R424, R454) -/

section
variable {s : State}

theorem State.planAnnounce_of_not_switching (h : s.switching = none) : s.planAnnounce = s := by
  unfold State.planAnnounce
  rw [h]

theorem Ring.isHeld_iff (x : Ring) : x.isHeld = true ↔ x.state = .inserted ∧ x.holder = true := by
  unfold Ring.isHeld
  rw [Bool.and_eq_true, beq_iff_eq]

theorem Ring.loaded_iff (x : Ring) :
    x.loaded = true ↔ x.standbyLoad = none ∧ ∀ y ∈ x.stations, y.2.st = 2 → ∀ l ∈ y.2.loads, l.tnum = x.tsel := by
  unfold Ring.loaded
  rw [Bool.and_eq_true, Option.isNone_iff_eq_none, List.all_eq_true]
  refine and_congr_right fun _ => forall₂_congr fun y _ => ?_
  rw [Bool.or_eq_true, bne_iff_ne, List.all_eq_true, ← imp_iff_not_or]
  simp only [beq_iff_eq]

theorem State.loadFailed_iff : (s.rings.toList.any fun x => x.isHeld && x.loadFailed) = true
    ↔ ∃ x ∈ s.rings.toList, x.state = .inserted ∧ x.holder = true ∧ x.loadFailed = true := by
  simp only [List.any_eq_true, Bool.and_eq_true, Ring.isHeld_iff, and_assoc]

theorem State.allLoaded_iff : (s.rings.toList.all fun x => !x.isHeld || x.loaded) = true
    ↔ ∀ x ∈ s.rings.toList, x.state = .inserted → x.holder = true →
      x.standbyLoad = none ∧ ∀ y ∈ x.stations, y.2.st = 2 → ∀ l ∈ y.2.loads, l.tnum = x.tsel := by
  simp only [List.all_eq_true, Bool.or_eq_true, Bool.not_eq_true', ← Bool.not_eq_true, ← imp_iff_not_or, Ring.isHeld_iff, Ring.loaded_iff, and_imp]

variable {r : Running}

theorem State.planAnnounce_failed (hr : s.switching = some r) (hf : (s.rings.toList.any fun x => x.isHeld && x.loadFailed) = true) :
    s.planAnnounce = { s with keeper := { s.keeper with running := some r.unconfirmed } } := by
  unfold State.planAnnounce
  rw [hr]
  exact if_pos hf

theorem State.planAnnounce_loaded (hr : s.switching = some r) (hf : ¬ (s.rings.toList.any fun x => x.isHeld && x.loadFailed) = true)
    (hl : (s.rings.toList.all fun x => !x.isHeld || x.loaded) = true) :
    s.planAnnounce = { s with keeper := { s.keeper with running := some { r with announced := true } }, pcm := { s.pcm with opj := setField s.pcm.opj 16 8 2 },
                              rings := s.rings.map fun x => if x.isHeld then { x with swcyc := some (x.cycle + 20) } else x } := by
  unfold State.planAnnounce
  rw [hr]
  exact (if_neg hf).trans (if_pos hl)

theorem State.planAnnounce_loading (hr : s.switching = some r) (hf : ¬ (s.rings.toList.any fun x => x.isHeld && x.loadFailed) = true)
    (hl : ¬ (s.rings.toList.all fun x => !x.isHeld || x.loaded) = true) : s.planAnnounce = s := by
  unfold State.planAnnounce
  rw [hr]
  exact (if_neg hf).trans (if_neg hl)
end

/-! ### What a command of Keeper's answers (R460 to R466, R491) -/

section
variable {ε α β : Type} {f : Unit → K α} {s : State}

theorem after_demand_then {ok : Bool} {pos : Nat} (h : ok = true) : after (demand ok pos >>= f) s = after (f ()) s := by
  rw [after_bind, after_demand, if_pos h]

theorem after_demand_stop {ok : Bool} {pos : Nat} (h : ok = false) : after (demand ok pos >>= f) s = (.error (failAt badParam pos), s) := by
  rw [after_bind, after_demand, h]
  rfl

theorem after_check_then {ok : Bool} {e : Failure} (h : ok = true) : after (check ok e >>= f) s = after (f ()) s := by
  rw [after_bind, after_check, if_pos h]

theorem after_check_stop {ok : Bool} {e : Failure} (h : ok = false) : after (check ok e >>= f) s = (.error e, s) := by
  rw [after_bind, after_check, h]
  rfl

theorem after_permit_then {ok : Bool} (h : ok = true) : after (permit ok >>= f) s = after (f ()) s := after_check_then h

theorem after_permit_stop {ok : Bool} (h : ok = false) : after (permit ok >>= f) s = (.error (fail wrongState), s) := after_check_stop h

theorem after_look_then (g : State → β) (f : β → K α) : after (look g >>= f) s = after (f (g s)) s := after_bind ..

theorem after_alter_then (g : State → State) : after (alter g >>= f) s = after (f ()) (g s) := after_bind ..

end

theorem State.takeUp_pcm {s t : State} {x : Submitted} (h : s.takeUp = some (t, x)) : t.pcm = s.pcm := by
  unfold State.takeUp at h
  split at h
  · cases h
  · obtain ⟨rfl, -⟩ := Prod.mk.inj (Option.some.inj h)
    rfl

theorem State.goWrite_pcm (s : State) : s.goWrite.pcm = s.pcm := by
  unfold State.goWrite
  split
  · exact State.countErr_pcm ..
  · split
    · rfl
    · rfl

/-- What a submission that is accepted leaves as it was: Keeper runs nothing (R464 to R466). -/
theorem State.accept_pcm {s t : State} {via : Via} {x : Submitted} (h : s.accept via = some (t, x)) : t.pcm = s.pcm ∧ s.keeper.running.isSome = false := by
  unfold State.accept at h
  split at h
  · cases h
  · next hidle =>
    refine ⟨?_, by simp_all⟩
    cases via with
    | accepted => exact State.takeUp_pcm h
    | mailbox =>
      dsimp only at h
      split at h
      · cases h
      · exact (State.takeUp_pcm h).trans s.goWrite_pcm
    | smbus =>
      dsimp only at h
      split at h
      · cases h
      · obtain rfl := congrArg Prod.fst (Option.some.inj h)
        exact State.count_pcm ..

section
variable {s t u : State} {via : Via} {opcode : Nat} {p : List Byte} {x : Submitted} {mine : List Byte → Bool}
  {work : List Byte → K (Nat × List Byte)} {f : Failure} {n : Nat} {l : List Byte}

theorem idle_of_takes (h : Takes s via opcode p x t) : s.keeper.running.isSome = false := by
  obtain ⟨s1, row, haccept, -⟩ := h
  exact (State.accept_pcm haccept).2

/-- What the work of a command makes of the state that takes it up, with the answer it will give. -/
def keeperEnds (s : State) (x : Submitted) : Except Failure (Nat × List Byte) × State → State
  | (.ok (n, l), u) => replying u x n l
  | (.error f, u) => if f.code = hwFault then replying u x f.code (f.data x.pkt.opcode) else refusing s u x f.code (f.data x.pkt.opcode)

/-- A command that is taken up does its work in the state that its acceptance leaves. -/
theorem keeperRow_of_takes (h : Takes s via opcode p x t) (hmine : mine p = true) : s.keeperRow via opcode mine work = keeperEnds s x (after (work p) t) := by
  obtain ⟨s1, row, haccept, hfault, rfl, rfl, hrow, hstate, rfl⟩ := h
  obtain ⟨hpcm, -⟩ := State.accept_pcm haccept
  have hserve : s.keeperRow via x.pkt.opcode.toNat mine work = s1.serve x work := by
    unfold State.keeperRow
    rw [haccept]
    simp [hfault, hmine]
  have hlong : ((opRow x.pkt.opcode.toNat).any fun y => y.long) = row.long := by rw [hrow]; rfl
  rw [hserve]
  unfold State.serve
  rw [hrow]
  refine (if_neg (by simp [hstate])).trans ?_
  generalize hworked : after (work x.pkt.params) (if row.long = true then s1.openJournal x.pkt.opcode.toNat x.pkt.params else s1) = r
  dsimp only [after] at hworked ⊢
  rw [hworked]
  obtain ⟨f | ⟨n, l⟩, u⟩ := r
  · unfold keeperEnds replying refusing State.journalOf
    rw [hlong, ← hpcm]
    rfl
  · unfold keeperEnds replying
    rw [hlong]
    rfl

theorem keeperRow_replies (h : Takes s via opcode p x t) (hmine : mine p = true) (hwork : after (work p) t = (.ok (n, l), u)) :
    s.keeperRow via opcode mine work = replying u x n l := by
  rw [keeperRow_of_takes h hmine, hwork]
  rfl

theorem keeperRow_refuses (h : Takes s via opcode p x t) (hmine : mine p = true) (hwork : after (work p) t = (.error f, u)) (hcode : f.code ≠ hwFault) :
    s.keeperRow via opcode mine work = refusing s u x f.code (f.data x.pkt.opcode) := by
  rw [keeperRow_of_takes h hmine, hwork]
  exact if_neg hcode

theorem keeperRow_fails (h : Takes s via opcode p x t) (hmine : mine p = true) (hwork : after (work p) t = (.error (fail hwFault), u)) :
    s.keeperRow via opcode mine work = replying u x 0x0040 (errorData x 0xFFFFFFFF) := by
  rw [keeperRow_of_takes h hmine, hwork]
  rfl
end

section
variable {s t u : State} {via : Via} {opcode : Nat} {p : List Byte} {x : Submitted} {work : List Byte → K (List Byte)} {l : List Byte}

theorem after_status_zero {m : K (List Byte)} : after (do return (0, ← m) : K (Nat × List Byte)) t
    = match after m t with | (.ok l, u) => (.ok (0, l), u) | (.error f, u) => (.error f, u) := by
  rw [after_bind]
  obtain ⟨_ | l, u⟩ := after m t
  · rfl
  · rfl

/-- A command whose work comes to its end replies OK. -/
theorem keeperNext_replies (h : Takes s via opcode p x t) (hwork : after (work p) t = (.ok l, u)) :
    keeperNext via opcode work s = .next (replying u x 0 l) := by
  refine congrArg Host.Outcome.next (keeperRow_replies h rfl ?_)
  rw [after_status_zero, hwork]

theorem keeperNext_refuses (h : Takes s via opcode p x t) {f : Failure} (hwork : after (work p) t = (.error f, u)) (hcode : f.code ≠ hwFault) :
    keeperNext via opcode work s = .next (refusing s u x f.code (f.data x.pkt.opcode)) := by
  refine congrArg Host.Outcome.next (keeperRow_refuses h rfl ?_ hcode)
  rw [after_status_zero, hwork]

theorem keeperNext_bad (h : Takes s via opcode p x t) {pos : Nat} (hwork : after (work p) t = (.error (failAt badParam pos), u)) :
    keeperNext via opcode work s = .next (refusing s u x 0x0013 (errorData x pos)) := keeperNext_refuses h hwork (show badParam ≠ hwFault by decide)

theorem keeperNext_wrong (h : Takes s via opcode p x t) (hwork : after (work p) t = (.error (fail wrongState), u)) :
    keeperNext via opcode work s = .next (refusing s u x 0x0020 (errorData x 0xFFFFFFFF)) := keeperNext_refuses h hwork (show wrongState ≠ hwFault by decide)

theorem keeperNext_fails (h : Takes s via opcode p x t) (hwork : after (work p) t = (.error (fail hwFault), u)) :
    keeperNext via opcode work s = .next (replying u x 0x0040 (errorData x 0xFFFFFFFF)) := by
  refine congrArg Host.Outcome.next (keeperRow_fails h rfl ?_)
  rw [after_status_zero, hwork]
end

/-! ### IMAGE_COMMIT and CSTORE_RELOAD (R296, R484, R488) -/

section
variable {s t : State} {via : Via} {p : List Byte} {x : Submitted} {l : List Byte} {programmed : Bool}

theorem validKind_true {kind : Nat} (hlo : 1 ≤ kind) (hhi : kind ≤ 4) : (decide (1 ≤ kind) && decide (kind ≤ 4)) = true := by
  simp [hlo, hhi]

theorem validKind_false {kind : Nat} (h : kind = 0 ∨ 4 < kind) : (decide (1 ≤ kind) && decide (kind ≤ 4)) = false := by
  simp only [Bool.and_eq_false_iff, decide_eq_false_iff_not]
  omega

theorem imageCommit_bad_kind (h : Takes s via 0x0203 p x t) (hkind : fieldLE p 0 1 = 0 ∨ 4 < fieldLE p 0 1) :
    exec (.imageCommit via programmed) s = .next (refusing s t x 0x0013 (errorData x 0)) :=
  keeperNext_bad h (after_demand_stop (validKind_false hkind))

section
variable (h : Takes s via 0x0203 p x t) (hlo : 1 ≤ fieldLE p 0 1) (hhi : fieldLE p 0 1 ≤ 4)
include h hlo hhi

theorem imageCommit_bad_which (hwhich : 1 < fieldLE p 1 1) :
    exec (.imageCommit via programmed) s = .next (refusing s t x 0x0013 (errorData x 1)) :=
  keeperNext_bad h ((after_demand_then (validKind_true hlo hhi)).trans (after_demand_stop (decide_eq_false (by omega))))

theorem imageCommit_wrong (hwhich : fieldLE p 1 1 ≤ 1) (hnone : t.imageOf (fieldLE p 0 1) (fieldLE p 1 1) = none) :
    exec (.imageCommit via programmed) s = .next (refusing s t x 0x0020 (errorData x 0xFFFFFFFF)) := by
  refine keeperNext_wrong h ((after_demand_then (validKind_true hlo hhi)).trans ((after_demand_then (decide_eq_true hwhich)).trans ((after_look_then ..).trans ?_)))
  rw [hnone]
  rfl

/-- What the command has done before it looks at the slot again (R488). -/
def State.committing (t : State) (kind : Nat) (l : List Byte) (programmed : Bool) : State := (t.programSlot kind l programmed).journalStep 3

/-- IMAGE_COMMIT programs the slot, and its answer is what the read-back and the image's check say (R488). -/
theorem imageCommit_replies (hwhich : fieldLE p 1 1 ≤ 1) (hsome : t.imageOf (fieldLE p 0 1) (fieldLE p 1 1) = some l)
    (hcheck : (programmed && (headerBad (fieldLE p 0 1) l).isNone
      && (signatureFault (t.committing (fieldLE p 0 1) l programmed).nv (fieldLE p 0 1) l).isNone) = true) :
    exec (.imageCommit via programmed) s = .next (replying (t.committing (fieldLE p 0 1) l programmed) x 0 []) := by
  refine keeperNext_replies h ((after_demand_then (validKind_true hlo hhi)).trans ((after_demand_then (decide_eq_true hwhich)).trans ((after_look_then ..).trans ?_)))
  rw [hsome]
  exact (after_alter_then ..).trans ((after_alter_then ..).trans ((after_look_then ..).trans (after_check_then hcheck)))

theorem imageCommit_fails (hwhich : fieldLE p 1 1 ≤ 1) (hsome : t.imageOf (fieldLE p 0 1) (fieldLE p 1 1) = some l) (hprogrammed : programmed = false) :
    exec (.imageCommit via programmed) s = .next (replying (t.committing (fieldLE p 0 1) l programmed) x 0x0040 (errorData x 0xFFFFFFFF)) := by
  refine keeperNext_fails h ((after_demand_then (validKind_true hlo hhi)).trans ((after_demand_then (decide_eq_true hwhich)).trans ((after_look_then ..).trans ?_)))
  rw [hsome]
  exact (after_alter_then ..).trans ((after_alter_then ..).trans ((after_look_then ..).trans (after_check_stop (by rw [hprogrammed]; rfl))))
end

theorem cstoreReload_wrong (h : Takes s via 0x0204 p x t) (hmissing : t.keeper.heldImg[2] = none ∨ t.keeper.inForce[1] = none) :
    exec (.cstoreReload via) s = .next (refusing s t x 0x0020 (errorData x 0xFFFFFFFF)) := by
  refine keeperNext_wrong h ((after_look_then ..).trans ?_)
  cases hheld : t.keeper.heldImg[2] with
  | none => rfl
  | some im =>
    obtain hnone | hnone := hmissing
    · cases hheld.symm.trans hnone
    · exact (after_look_then ..).trans (after_permit_stop (by rw [hnone]; rfl))

/-- CSTORE_RELOAD starts to write the windows, and reports the generation (R296, R484). -/
theorem cstoreReload_replies (h : Takes s via 0x0204 p x t) {im : Image} (hheld : t.keeper.heldImg[2] = some im) (hvendor : t.keeper.inForce[1] ≠ none) :
    exec (.cstoreReload via) s = .next (replying (t.startReload (customerParts im.body)) x 0 [t.keeper.generation + 1, 0, 0, 0]) := by
  refine keeperNext_replies h ((after_look_then ..).trans ?_)
  rw [hheld]
  refine (after_look_then ..).trans ((after_permit_then (Option.isSome_iff_ne_none.2 hvendor)).trans ((after_alter_then ..).trans ((after_look_then ..).trans ?_)))
  rw [State.keeper_startReload]
  rfl
end

/-! ### RING_START, RING_STOP, RING_INSERT and RING_BYPASS (R395, R416 to R419) -/

theorem aligns_iff (l : List Bool) : aligns l = true
    ↔ ∃ k, (l.drop k).take 7 ∈ [[false, false, true, true, true, true, true], [true, true, false, false, false, false, false]] := by
  induction l with
  | nil => simp [aligns]
  | cons b l ih =>
    rw [aligns, Bool.or_eq_true, List.contains_iff_mem, ih]
    constructor
    · rintro (hhere | ⟨k, hlater⟩)
      · exact ⟨0, hhere⟩
      · exact ⟨k + 1, hlater⟩
    · rintro ⟨_ | k, hk⟩
      · exact .inl hk
      · exact .inr ⟨k, hk⟩

theorem declares_iff (m : Option (List Byte)) : declares m = true ↔ ∃ l, m = some l ∧ 31 ≤ (lget 0 l 12).toNat := by
  cases m with
  | none => simp [declares]
  | some l => simp [declares]

theorem mayTrain_iff (east west : Option (List Byte)) (trained : Bool) : (declares east && declares west && trained) = true
    ↔ (∃ l, east = some l ∧ 31 ≤ (lget 0 l 12).toNat) ∧ (∃ l, west = some l ∧ 31 ≤ (lget 0 l 12).toNat) ∧ trained = true := by
  rw [Bool.and_eq_true, Bool.and_eq_true, declares_iff, declares_iff, and_assoc]

section
variable {α : Type} {p : List Byte} {f : RingId → K α} {t : State}

theorem after_ringOf_then (h : fieldLE p 0 1 ≤ 3) : after (ringOf p >>= f) t = after (f (Fin.ofNat 4 (fieldLE p 0 1))) t := by
  have hring : after (ringOf p) t = (.ok (Fin.ofNat 4 (fieldLE p 0 1)), t) := after_demand_then (decide_eq_true h)
  rw [after_bind, hring]

theorem after_ringOf_stop (h : ¬ fieldLE p 0 1 ≤ 3) : after (ringOf p >>= f) t = (.error (failAt badParam 0), t) := by
  have hring : after (ringOf p) t = (.error (failAt badParam 0), t) := after_demand_stop (decide_eq_false h)
  rw [after_bind, hring]
end

theorem validAddress {a : Nat} (h : a = 0 ∨ a = 63) : (a == 0 || a == 63) = true := by
  rw [Bool.or_eq_true, beq_iff_eq, beq_iff_eq]
  exact h

/-- The sections of a ring in the plan in force, with the plan's map. -/
def State.planOf (t : State) (r : RingId) : Option (RingPlan × List QMapEntry) := t.plan.bind fun q => (q.ring r).map fun y => (y, q.qmap)

theorem mayStart_iff (x : RingState) : (x == .off || x == .trained) = true ↔ x = .off ∨ x = .trained := by
  rw [Bool.or_eq_true, beq_iff_eq, beq_iff_eq]

section
variable {s t : State} {via : Via} {p : List Byte} {x : Submitted} {modules : Option (List Byte) × Option (List Byte)} {trained : Bool}

theorem ringStart_bad_ring (h : Takes s via 0x0501 p x t) (hring : ¬ fieldLE p 0 1 ≤ 3) :
    exec (.ringStart via modules trained) s = .next (refusing s t x 0x0013 (errorData x 0)) := keeperNext_bad h (after_ringOf_stop hring)

section
variable (h : Takes s via 0x0501 p x t) (hring : fieldLE p 0 1 ≤ 3)
include h hring

theorem ringStart_bad_address (hzero : fieldLE p 1 1 ≠ 0) (hlast : fieldLE p 1 1 ≠ 63) :
    exec (.ringStart via modules trained) s = .next (refusing s t x 0x0013 (errorData x 1)) :=
  keeperNext_bad h ((after_ringOf_then hring).trans (after_demand_stop (by simp [hzero, hlast])))

theorem ringStart_bad_role (haddr : fieldLE p 1 1 = 0 ∨ fieldLE p 1 1 = 63) (hrole : 1 < fieldLE p 2 1) :
    exec (.ringStart via modules trained) s = .next (refusing s t x 0x0013 (errorData x 2)) :=
  keeperNext_bad h ((after_ringOf_then hring).trans ((after_demand_then (validAddress haddr)).trans (after_demand_stop (decide_eq_false (by omega)))))

variable (haddr : fieldLE p 1 1 = 0 ∨ fieldLE p 1 1 = 63) (hrole : fieldLE p 2 1 ≤ 1)
include haddr hrole

theorem ringStart_bad_plan (hplan : t.planOf (Fin.ofNat 4 (fieldLE p 0 1)) = none) :
    exec (.ringStart via modules trained) s = .next (refusing s t x 0x0013 (errorData x 0)) := by
  refine keeperNext_bad h ((after_ringOf_then hring).trans ((after_demand_then (validAddress haddr)).trans ((after_demand_then (decide_eq_true hrole)).trans ((after_look_then ..).trans ?_))))
  unfold State.planOf at hplan
  rw [hplan]
  rfl

variable {y : RingPlan} {q : List QMapEntry} (hplan : t.planOf (Fin.ofNat 4 (fieldLE p 0 1)) = some (y, q))
include hplan

theorem ringStart_wrong (hstate : ¬ ((t.ring (Fin.ofNat 4 (fieldLE p 0 1))).state = .off ∨ (t.ring (Fin.ofNat 4 (fieldLE p 0 1))).state = .trained)) :
    exec (.ringStart via modules trained) s = .next (refusing s t x 0x0020 (errorData x 0xFFFFFFFF)) := by
  refine keeperNext_wrong h ((after_ringOf_then hring).trans ((after_demand_then (validAddress haddr)).trans ((after_demand_then (decide_eq_true hrole)).trans ((after_look_then ..).trans ?_))))
  unfold State.planOf at hplan
  rw [hplan]
  exact (after_look_then ..).trans (after_permit_stop (Bool.eq_false_iff.2 (mt (mayStart_iff _).1 hstate)))

variable (hstate : (t.ring (Fin.ofNat 4 (fieldLE p 0 1))).state = .off ∨ (t.ring (Fin.ofNat 4 (fieldLE p 0 1))).state = .trained)
include hstate

theorem ringStart_fails (huntrained : ¬ (declares modules.1 && declares modules.2 && trained) = true) :
    exec (.ringStart via modules trained) s = .next (replying (t.readCages (Fin.ofNat 4 (fieldLE p 0 1))) x 0x0040 (errorData x 0xFFFFFFFF)) := by
  refine keeperNext_fails h ((after_ringOf_then hring).trans ((after_demand_then (validAddress haddr)).trans ((after_demand_then (decide_eq_true hrole)).trans ((after_look_then ..).trans ?_))))
  unfold State.planOf at hplan
  rw [hplan]
  exact (after_look_then ..).trans ((after_permit_then ((mayStart_iff _).2 hstate)).trans ((after_alter_then ..).trans (after_check_stop (Bool.eq_false_iff.2 huntrained))))

/-- RING_START reads the cages and leaves the ring trained (R394, R395, R417). -/
theorem ringStart_replies (htrained : (declares modules.1 && declares modules.2 && trained) = true) :
    exec (.ringStart via modules trained) s = .next (replying ((t.readCages (Fin.ofNat 4 (fieldLE p 0 1))).modRing (Fin.ofNat 4 (fieldLE p 0 1))
      fun z => z.start y q (fieldLE p 1 1 == 63) (lget 0 p 2 == 0)) x 0 []) := by
  refine keeperNext_replies h ((after_ringOf_then hring).trans ((after_demand_then (validAddress haddr)).trans ((after_demand_then (decide_eq_true hrole)).trans ((after_look_then ..).trans ?_))))
  unfold State.planOf at hplan
  rw [hplan]
  exact (after_look_then ..).trans ((after_permit_then ((mayStart_iff _).2 hstate)).trans ((after_alter_then ..).trans ((after_check_then htrained).trans (after_alter_then ..))))
end

/-- What a ring that leaves the loop is: its pin is released (R416, R427). -/
theorem State.leaveRing_left (s : State) (r : RingId) (st : RingState) :
    ((s.leaveRing r st).ring r).state = st ∧ ((s.leaveRing r st).ring r).holder = false ∧ (s.leaveRing r st).pins.ringIns[r] = false := by
  unfold State.leaveRing
  rw [State.ring_modRing]
  exact ⟨rfl, rfl, Vector.getElem_set_self ..⟩

theorem ringStop_bad (h : Takes s via 0x0502 p x t) (hring : ¬ fieldLE p 0 1 ≤ 3) :
    exec (.ringStop via) s = .next (refusing s t x 0x0013 (errorData x 0)) := keeperNext_bad h (after_ringOf_stop hring)

theorem ringStop_replies (h : Takes s via 0x0502 p x t) (hring : fieldLE p 0 1 ≤ 3) :
    exec (.ringStop via) s = .next (replying (t.leaveRing (Fin.ofNat 4 (fieldLE p 0 1)) .off) x 0 []) :=
  keeperNext_replies h ((after_ringOf_then hring).trans (after_alter_then ..))

section
variable {bits : List Bool × List Bool} {other : Option Beacon}

theorem ringInsert_bad (h : Takes s via 0x0503 p x t) (hring : ¬ fieldLE p 0 1 ≤ 3) :
    exec (.ringInsert via bits other) s = .next (refusing s t x 0x0013 (errorData x 0)) := keeperNext_bad h (after_ringOf_stop hring)

variable (h : Takes s via 0x0503 p x t) (hring : fieldLE p 0 1 ≤ 3)
include h hring

theorem ringInsert_wrong (hstate : (t.ring (Fin.ofNat 4 (fieldLE p 0 1))).state ≠ .trained) :
    exec (.ringInsert via bits other) s = .next (refusing s t x 0x0020 (errorData x 0xFFFFFFFF)) :=
  keeperNext_wrong h ((after_ringOf_then hring).trans ((after_look_then ..).trans (after_permit_stop (beq_false_of_ne hstate))))

variable (hstate : (t.ring (Fin.ofNat 4 (fieldLE p 0 1))).state = .trained)
include hstate

theorem ringInsert_fails (hunaligned : ¬ (aligns bits.1 && aligns bits.2) = true) :
    exec (.ringInsert via bits other) s = .next (replying t x 0x0040 (errorData x 0xFFFFFFFF)) :=
  keeperNext_fails h ((after_ringOf_then hring).trans ((after_look_then ..).trans ((after_permit_then (beq_iff_eq.2 hstate)).trans
    (after_check_stop (Bool.eq_false_iff.2 hunaligned)))))

/-- RING_INSERT up to its step 4: both transmitters send IDLE, the pin is low, and the ring has its role (R418). -/
theorem ringInsert_replies (haligned : (aligns bits.1 && aligns bits.2) = true) : exec (.ringInsert via bits other) s
    = .next (replying (((t.sendIdle (Fin.ofNat 4 (fieldLE p 0 1))).insertRing (Fin.ofNat 4 (fieldLE p 0 1)) other).journalStep 4) x 0 []) :=
  keeperNext_replies h ((after_ringOf_then hring).trans ((after_look_then ..).trans ((after_permit_then (beq_iff_eq.2 hstate)).trans
    ((after_check_then haligned).trans ((after_alter_then ..).trans (after_alter_then ..))))))
end

/-- The ring that RING_INSERT leaves (R418). -/
theorem State.insertRing_inserting (s : State) (r : RingId) (other : Option Beacon) :
    ((s.insertRing r other).ring r).state = .inserting ∧ ((s.insertRing r other).ring r).holder = ((s.ring r).asHolder && other.isNone)
      ∧ ((s.insertRing r other).ring r).miss = 0 ∧ ((s.insertRing r other).ring r).loop = 0 ∧ ((s.insertRing r other).ring r).tsel = (s.ring r).tsel
      ∧ (s.insertRing r other).pins.ringIns[r] = true := by
  unfold State.insertRing
  rw [State.ring_modRing]
  exact ⟨rfl, rfl, rfl, rfl, rfl, Vector.getElem_set_self ..⟩

/-- What RING_BYPASS does to an inserted ring (R419). -/
def State.bypass (t : State) (r : RingId) : State :=
  if (t.ring r).holder && (t.ring r).sdly != 0 then t.modRing r fun y => { y with handoff := .asked } else t.leaveRing r .trained

theorem State.bypass_handing {r : RingId} (hholder : (t.ring r).holder = true) (hsdly : (t.ring r).sdly ≠ 0) :
    t.bypass r = t.modRing r fun y => { y with handoff := .asked } :=
  if_pos (Bool.and_eq_true_iff.2 ⟨hholder, bne_iff_ne.2 hsdly⟩)

theorem State.bypass_leaving {r : RingId} (halone : (t.ring r).holder = false ∨ (t.ring r).sdly = 0) : t.bypass r = t.leaveRing r .trained := by
  refine if_neg fun hboth => ?_
  obtain ⟨hholder, hsdly⟩ := Bool.and_eq_true_iff.1 hboth
  obtain hno | hno := halone
  · exact Bool.false_ne_true (hno.symm.trans hholder)
  · exact bne_iff_ne.1 hsdly hno

section
variable (h : Takes s via 0x0504 p x t)
include h

theorem ringBypass_bad (hring : ¬ fieldLE p 0 1 ≤ 3) :
    exec (.ringBypass via) s = .next (refusing s t x 0x0013 (errorData x 0)) := keeperNext_bad h (after_ringOf_stop hring)

variable (hring : fieldLE p 0 1 ≤ 3)
include hring

theorem ringBypass_wrong (hstate : (t.ring (Fin.ofNat 4 (fieldLE p 0 1))).state ≠ .inserted) :
    exec (.ringBypass via) s = .next (refusing s t x 0x0020 (errorData x 0xFFFFFFFF)) :=
  keeperNext_wrong h ((after_ringOf_then hring).trans ((after_look_then ..).trans (after_permit_stop (beq_false_of_ne hstate))))

theorem ringBypass_replies (hstate : (t.ring (Fin.ofNat 4 (fieldLE p 0 1))).state = .inserted) :
    exec (.ringBypass via) s = .next (replying (t.bypass (Fin.ofNat 4 (fieldLE p 0 1))) x 0 []) :=
  keeperNext_replies h ((after_ringOf_then hring).trans ((after_look_then ..).trans ((after_permit_then (beq_iff_eq.2 hstate)).trans (after_alter_then ..))))
end
end

/-! ### PLAN_SWITCH (R273, R424) -/

section
variable {s t : State} {via : Via} {p : List Byte} {x : Submitted}

/-- Step 1 of PLAN_SWITCH at every ring (R424). -/
def State.loadPlans (t : State) (y : Plan) : State := (List.finRange 4).foldl (fun s r => s.modRing r fun x => x.loadPlan (y.ring r) y.qmap) t

theorem State.ring_loadPlans (t : State) (y : Plan) (r : RingId) : (t.loadPlans y).ring r = (t.ring r).loadPlan (y.ring r) y.qmap :=
  State.ring_foldl_modRing t (fun r x => x.loadPlan (y.ring r) y.qmap) (List.nodup_finRange 4) (List.mem_finRange r)

/-- The announcement has nothing to do for a command that is refused. -/
theorem planAnnounce_refusing (u : State) (data : List Byte) : (refusing s u x 0x0020 data).planAnnounce = refusing s u x 0x0020 data := by
  refine State.planAnnounce_of_not_switching ?_
  unfold State.switching
  exact Option.filter_eq_none_iff.2 fun r hr => by
    obtain rfl := Option.some.inj hr
    simp

/-- PLAN_SWITCH looks at once whether it can announce the switch. -/
theorem exec_planSwitch {u : State} {work : List Byte → K (Nat × List Byte)} (h : Takes s via 0x0505 p x t)
    (hrow : s.keeperRow via 0x0505 (fun _ => true) work = u) : (if s.keeper.running.isSome then s.keeperRow via 0x0505 (fun _ => true) work
      else (s.keeperRow via 0x0505 (fun _ => true) work).planAnnounce) = u.planAnnounce := by
  rw [if_neg (by rw [idle_of_takes h]; decide), hrow]

theorem planSwitch_wrong (h : Takes s via 0x0505 p x t) (hrefused : t.heldPlan = none ∨ ∃ y, t.heldPlan = some y ∧ t.ownersFree y = false) :
    exec (.planSwitch via) s = .next (refusing s t x 0x0020 (errorData x 0xFFFFFFFF)) := by
  rw [← planAnnounce_refusing]
  refine congrArg Host.Outcome.next (exec_planSwitch h (keeperRow_refuses (f := fail wrongState) h rfl ?_ (show wrongState ≠ hwFault by decide)))
  refine (after_look_then ..).trans ?_
  obtain hnone | ⟨y, hsome, howners⟩ := hrefused
  · rw [hnone]
    rfl
  · rw [hsome]
    exact (after_look_then ..).trans (after_permit_stop howners)

theorem planSwitch_replies (h : Takes s via 0x0505 p x t) {y : Plan} (hplan : t.heldPlan = some y) (howners : t.ownersFree y = true) :
    exec (.planSwitch via) s = .next (replying ((t.loadPlans y).journalStep 1) x 0 []).planAnnounce := by
  refine congrArg Host.Outcome.next (exec_planSwitch h (keeperRow_replies h rfl ?_))
  refine (after_look_then ..).trans ?_
  rw [hplan]
  exact (after_look_then ..).trans ((after_permit_then howners).trans ((after_alter_then ..).trans (after_alter_then ..)))
end

/-! ### IMAGE_LOAD (R482, R483) -/

/-- The bytes that a row brings are as many as the packet asks for. -/
def hostFits (host : KeeperRead) (p : List Byte) : Bool :=
  fieldLE p 1 1 != 0 || match host with | .data l => l.length == fieldLE p 4 4 | _ => true

theorem hostFits_of {host : KeeperRead} {p : List Byte} (h : fieldLE p 1 1 ≠ 0 ∨ ∀ l, host = .data l → l.length = fieldLE p 4 4) :
    hostFits host p = true := by
  unfold hostFits
  rw [Bool.or_eq_true, bne_iff_ne]
  refine h.imp_right fun hlength => ?_
  cases host with
  | data l => exact beq_iff_eq.2 (hlength l rfl)
  | _ => rfl

/-- The FORCED flag of the packet that a row brings. -/
def State.forcedBy (s : State) (via : Via) : Bool := match s.accept via with | some (_, x) => bit x.pkt.flags 1 | none => false

/-- The end of IMAGE_LOAD: the image is checked and takes effect, or is held (R480, R483). -/
def takeImage (kind source : Nat) (forced : Bool) (l : List Byte) : K (Nat × List Byte) := do
  match ← look fun s => checkImage s.nv s.planBound (s.companions kind) forced kind (if source = 0 then 2 else BitVec.ofNat 8 (source - 1)) l with
  | .error x => throw x.f
  | .ok i =>
    let held := kind == 1 || (← look fun s => s.power.part != .held)
    alter fun s => if held then s.putHeld kind (some i) else s.putInForce kind i
    return (0, natLE 4 i.version ++ natLE 2 i.epoch ++ [if held then 1 else 0, 0])

/-- IMAGE_LOAD after the checks of its fields: whether the image may be forced and loaded, its bytes, and the image. -/
def loadPermittedImage (host : KeeperRead) (forced : Bool) (p : List Byte) : K (Nat × List Byte) := do
  check (!forced || (← look (·.nv.fuses.development))) (fail badParam)
  permit (← look (·.loadPermitted (fieldLE p 0 1)))
  let l ← imageBytes (fieldLE p 0 1) (fieldLE p 1 1) (fieldLE p 8 8) (fieldLE p 4 4) host
  takeImage (fieldLE p 0 1) (fieldLE p 1 1) forced l

/-- The work of IMAGE_LOAD. -/
def imageLoadWork (host : KeeperRead) (forced : Bool) (p : List Byte) : K (Nat × List Byte) := do
  demand (decide (1 ≤ fieldLE p 0 1) && decide (fieldLE p 0 1 ≤ 4)) 0
  demand (decide (fieldLE p 1 1 ≤ 2)) 1
  demand (zeros p 2 2) 2
  demand ((fieldLE p 4 4 == 0) == (fieldLE p 1 1 != 0)) 4
  demand (fieldLE p 1 1 == 0 || fieldLE p 8 8 == 0) 8
  loadPermittedImage host forced p

/-- The fields of IMAGE_LOAD are as R469 has them. -/
def LoadFields (p : List Byte) : Prop :=
  1 ≤ fieldLE p 0 1 ∧ fieldLE p 0 1 ≤ 4 ∧ fieldLE p 1 1 ≤ 2 ∧ zeros p 2 2 = true ∧ (fieldLE p 4 4 = 0 ↔ fieldLE p 1 1 ≠ 0) ∧ (fieldLE p 1 1 = 0 ∨ fieldLE p 8 8 = 0)

section
variable {s t u : State} {via : Via} {host : KeeperRead} {p : List Byte} {x : Submitted} {forced : Bool} {kind source : Nat} {l : List Byte}

theorem exec_imageLoad (h : Takes s via 0x0201 p x t) :
    exec (.imageLoad via host) s = .next (s.keeperRow via 0x0201 (hostFits host) (imageLoadWork host (bit x.pkt.flags 1))) := by
  obtain ⟨s1, row, haccept, -⟩ := h
  have hforced : s.forcedBy via = bit x.pkt.flags 1 := by
    unfold State.forcedBy
    rw [haccept]
  rw [← hforced]
  rfl

theorem after_takeImage_error {f : ImageFault}
    (h : checkImage t.nv t.planBound (t.companions kind) forced kind (if source = 0 then 2 else BitVec.ofNat 8 (source - 1)) l = .error f) :
    after (takeImage kind source forced l) t = (.error f.f, t) := by
  refine (after_look_then ..).trans ?_
  rw [h]
  rfl

theorem after_takeImage_ok {i : Image}
    (h : checkImage t.nv t.planBound (t.companions kind) forced kind (if source = 0 then 2 else BitVec.ofNat 8 (source - 1)) l = .ok i) :
    after (takeImage kind source forced l) t
      = (.ok (0, natLE 4 i.version ++ natLE 2 i.epoch ++ [if kind = 1 ∨ t.power.part ≠ .held then 1 else 0, 0]), imageTaken t kind i) := by
  refine (after_look_then ..).trans ?_
  rw [h]
  have hheld : (kind == 1 || t.power.part != .held) = true ↔ kind = 1 ∨ t.power.part ≠ .held := by
    rw [Bool.or_eq_true, beq_iff_eq, bne_iff_ne]
  refine (after_look_then ..).trans ((after_alter_then ..).trans ?_)
  unfold imageTaken
  simp only [hheld]
  rfl

/-- With correct fields the command goes on to the checks of the part (R462). -/
theorem after_imageLoadWork (h : LoadFields p) : after (imageLoadWork host forced p) t = after (loadPermittedImage host forced p) t := by
  obtain ⟨hlo, hhi, hsource, hzeros, hlength, haddr⟩ := h
  have hsize : ((fieldLE p 4 4 == 0) == (fieldLE p 1 1 != 0)) = true := by
    rw [beq_iff_eq, Bool.eq_iff_iff, beq_iff_eq, bne_iff_ne]
    exact hlength
  have hplace : (fieldLE p 1 1 == 0 || fieldLE p 8 8 == 0) = true := by
    rw [Bool.or_eq_true, beq_iff_eq, beq_iff_eq]
    exact haddr
  exact (after_demand_then (validKind_true hlo hhi)).trans ((after_demand_then (decide_eq_true hsource)).trans ((after_demand_then hzeros).trans
    ((after_demand_then hsize).trans (after_demand_then hplace))))

theorem State.loadPermitted_iff (t : State) (kind : Nat) : t.loadPermitted kind = true
    ↔ (kind = 2 → t.power.part = .held) ∧ (kind = 3 → t.power.part = .held → t.keeper.inForce[1].isSome = true) := by
  unfold State.loadPermitted
  split
  · next h => simp [h]
  · next h =>
    split
    · next h3 => simp [h3]
    · next h3 => simp only [h, false_imp_iff, true_and, true_iff]; exact fun hkind hpart => absurd ⟨hkind, hpart⟩ h3

/-- An image that may be loaded is read (R463, R482). -/
theorem after_loadPermittedImage (hforced : (!forced || t.nv.fuses.development) = true) (hmay : t.loadPermitted (fieldLE p 0 1) = true)
    (hbytes : after (imageBytes (fieldLE p 0 1) (fieldLE p 1 1) (fieldLE p 8 8) (fieldLE p 4 4) host) t = (.ok l, u)) :
    after (loadPermittedImage host forced p) t = after (takeImage (fieldLE p 0 1) (fieldLE p 1 1) forced l) u := by
  refine (after_look_then ..).trans ((after_check_then hforced).trans ((after_look_then ..).trans ((after_permit_then hmay).trans ?_)))
  rw [after_bind, hbytes]

theorem after_loadPermittedImage_failed (hforced : (!forced || t.nv.fuses.development) = true) (hmay : t.loadPermitted (fieldLE p 0 1) = true) {f : Failure}
    (hbytes : after (imageBytes (fieldLE p 0 1) (fieldLE p 1 1) (fieldLE p 8 8) (fieldLE p 4 4) host) t = (.error f, u)) :
    after (loadPermittedImage host forced p) t = (.error f, u) := by
  refine (after_look_then ..).trans ((after_check_then hforced).trans ((after_look_then ..).trans ((after_permit_then hmay).trans ?_)))
  rw [after_bind, hbytes]

variable {addr n : Nat}

/-- The bytes of a slot. -/
theorem after_imageBytes_slot (hsource : source ≠ 0) : after (imageBytes kind source addr n host) t = (.ok (slotBytes t kind source), t) := by
  unfold imageBytes
  rw [if_neg hsource]
  rfl

theorem after_imageBytes_barred (hissue : t.mayIssue 0 = false) : after (imageBytes kind 0 addr n host) t = (.error (fail hwFault), t.hostRecord 0 5 3 0 addr) := by
  refine (after_look_then ..).trans ?_
  rw [hissue]
  rfl

variable (hissue : t.mayIssue 0 = true)
include hissue

theorem after_imageBytes_data : after (imageBytes kind 0 addr n (.data l)) t = (.ok l, t.keeperReads addr n) := by
  refine (after_look_then ..).trans ?_
  rw [hissue]
  rfl

/-- A read of host memory that fails is counted and recorded (R391, R482). -/
theorem after_imageBytes_failed {o : Nat} (ho : (host, o) ∈ [(KeeperRead.ur, 1), (.ca, 2), (.timeout, 3), (.poisoned, 4)]) :
    after (imageBytes kind 0 addr n host) t = (.error (fail hwFault), ((t.keeperReads addr n).requestFailed 0 o).hostRecord 0 o 3 0 addr) := by
  refine (after_look_then ..).trans ?_
  rw [hissue]
  simp only [List.mem_cons, Prod.mk.injEq, List.not_mem_nil, or_false] at ho
  obtain ⟨rfl, rfl⟩ | ⟨rfl, rfl⟩ | ⟨rfl, rfl⟩ | ⟨rfl, rfl⟩ := ho
  · rfl
  · rfl
  · rfl
  · rfl
end

section
variable {s t u : State} {via : Via} {host : KeeperRead} {p : List Byte} {x : Submitted} {l : List Byte}
  (h : Takes s via 0x0201 p x t) (hfits : hostFits host p = true)
include h hfits

theorem imageLoad_bad {pos : Nat} (hwork : after (imageLoadWork host (bit x.pkt.flags 1) p) t = (.error { code := badParam, reason := 0, pos := pos }, t)) :
    exec (.imageLoad via host) s = .next (refusing s t x 0x0013 (errorData x pos)) :=
  (exec_imageLoad h).trans (congrArg Host.Outcome.next (keeperRow_refuses h hfits hwork (show badParam ≠ hwFault by decide)))

theorem imageLoad_bad_kind (hkind : fieldLE p 0 1 = 0 ∨ 4 < fieldLE p 0 1) :
    exec (.imageLoad via host) s = .next (refusing s t x 0x0013 (errorData x 0)) :=
  imageLoad_bad h hfits (after_demand_stop (validKind_false hkind))

theorem imageLoad_bad_source (hlo : 1 ≤ fieldLE p 0 1) (hhi : fieldLE p 0 1 ≤ 4) (hsource : 2 < fieldLE p 1 1) :
    exec (.imageLoad via host) s = .next (refusing s t x 0x0013 (errorData x 1)) :=
  imageLoad_bad h hfits ((after_demand_then (validKind_true hlo hhi)).trans (after_demand_stop (decide_eq_false (by omega))))

variable (hfields : LoadFields p)
include hfields

/-- A forced image is for a part in development (R480). -/
theorem imageLoad_bad_forced (hbarred : (!bit x.pkt.flags 1 || t.nv.fuses.development) = false) :
    exec (.imageLoad via host) s = .next (refusing s t x 0x0013 (errorData x 0xFFFFFFFF)) :=
  imageLoad_bad h hfits ((after_imageLoadWork hfields).trans ((after_look_then ..).trans (after_check_stop hbarred)))

variable (hforced : (!bit x.pkt.flags 1 || t.nv.fuses.development) = true)
include hforced

theorem imageLoad_wrong (hbarred : t.loadPermitted (fieldLE p 0 1) = false) :
    exec (.imageLoad via host) s = .next (refusing s t x 0x0020 (errorData x 0xFFFFFFFF)) :=
  (exec_imageLoad h).trans (congrArg Host.Outcome.next (keeperRow_refuses (f := fail wrongState) h hfits ((after_imageLoadWork hfields).trans
    ((after_look_then ..).trans ((after_check_then hforced).trans ((after_look_then ..).trans (after_permit_stop hbarred))))) (show wrongState ≠ hwFault by decide)))

variable (hmay : t.loadPermitted (fieldLE p 0 1) = true)
include hmay

theorem imageLoad_fails
    (hbytes : after (imageBytes (fieldLE p 0 1) (fieldLE p 1 1) (fieldLE p 8 8) (fieldLE p 4 4) host) t = (.error (fail hwFault), u)) :
    exec (.imageLoad via host) s = .next (replying u x 0x0040 (errorData x 0xFFFFFFFF)) :=
  (exec_imageLoad h).trans (congrArg Host.Outcome.next (keeperRow_fails h hfits ((after_imageLoadWork hfields).trans
    (after_loadPermittedImage_failed hforced hmay hbytes))))

variable (hbytes : after (imageBytes (fieldLE p 0 1) (fieldLE p 1 1) (fieldLE p 8 8) (fieldLE p 4 4) host) t = (.ok l, u))
include hbytes

/-- An image that the check refuses changes nothing, and the reply names its status (R480). -/
theorem imageLoad_refuses {f : ImageFault} (hcheck : checkImage u.nv u.planBound (u.companions (fieldLE p 0 1)) (bit x.pkt.flags 1) (fieldLE p 0 1)
      (if fieldLE p 1 1 = 0 then 2 else BitVec.ofNat 8 (fieldLE p 1 1 - 1)) l = .error f) :
    exec (.imageLoad via host) s = .next (refusing s u x f.f.code (f.f.data x.pkt.opcode)) := by
  have hcode : f.f.code ≠ hwFault := by
    have hmem := List.mem_map_of_mem (f := Prod.snd) (checkImage_error hcheck)
    intro heq
    simp only [heq] at hmem
    exact absurd hmem (by decide)
  exact (exec_imageLoad h).trans (congrArg Host.Outcome.next (keeperRow_refuses h hfits ((after_imageLoadWork hfields).trans
    ((after_loadPermittedImage hforced hmay hbytes).trans (after_takeImage_error hcheck))) hcode))

/-- An image that passes the check is taken (R483). -/
theorem imageLoad_replies {i : Image} (hcheck : checkImage u.nv u.planBound (u.companions (fieldLE p 0 1)) (bit x.pkt.flags 1) (fieldLE p 0 1)
      (if fieldLE p 1 1 = 0 then 2 else BitVec.ofNat 8 (fieldLE p 1 1 - 1)) l = .ok i) :
    exec (.imageLoad via host) s = .next (replying (imageTaken u (fieldLE p 0 1) i) x 0
      (natLE 4 i.version ++ natLE 2 i.epoch ++ [if fieldLE p 0 1 = 1 ∨ u.power.part ≠ .held then 1 else 0, 0])) :=
  (exec_imageLoad h).trans (congrArg Host.Outcome.next (keeperRow_replies h hfits ((after_imageLoadWork hfields).trans
    ((after_loadPermittedImage hforced hmay hbytes).trans (after_takeImage_ok hcheck)))))
end

end Sys2Proof.Machine

namespace Sys2Proof.Proofs

open Sys2Proof Sys2Proof.Machine

theorem imageRules_holds : imageRules := by
  intro nv w others forced kind source l
  refine ⟨fun f => checkImage_error, fun i h => ?_⟩
  obtain ⟨rfl, hheader, hsignature, hcompat, hcontent⟩ := checkImage_ok h
  obtain ⟨hmagic, hkind, hversion, hsize⟩ := headerBad_none hheader
  obtain ⟨hsigner, hkey, hvalid, hbody⟩ := signatureFault_none hsignature
  exact ⟨rfl, rfl, rfl, rfl, hmagic, hkind, hversion, hsize, hsigner, hkey, hvalid, hbody, hcontent, fun hforced _ ho => compatFault_none (hcompat hforced) ho⟩

theorem flashRules_holds : flashRules := by
  intro v off size l hsize
  refine ⟨?_, ?_, fun o n hoff => flashBytes_congr fun a hlo hhi => ?_, rfl⟩
  · exact (List.map_congr_left fun a _ => tget_program ..).trans (map_over_upFrom ..)
  · refine flashBytes_of_erased fun a hlo hhi => ?_
    rw [tget_program]
    exact (if_neg (by omega)).trans (if_pos (by omega))
  · rw [tget_program]
    exact (if_neg (by omega)).trans (if_neg (by omega))

/-- Settles O50: the checks of an image and the flash by the laws of `checkImage` and `program`; CSTORE_RELOAD, PLAN_SWITCH and its announcement by
what each leaves of the state; each command by following its work from the state that takes it up to its reply. -/
theorem keeperImages : Obligations.KeeperImages := by
  unfold Obligations.KeeperImages
  refine ⟨imageRules_holds, flashRules_holds, State.endReload_images, fun s cs => ⟨s.keeper_startReload cs, fun e => ⟨fun hrun hgoes => ?_, fun hstopped => ?_⟩⟩,
    State.switchPlan_plan, fun s => ⟨State.planAnnounce_of_not_switching, fun r hr => ⟨fun hf => ?_, fun hf hl => ?_, fun hf hl => ?_⟩⟩,
    fun s via opcode p x t ht => ⟨?load, ?commit, ?reload, ?start, ?stop, ?insert, ?bypass, ?switch⟩⟩
  · rw [s.eng_startReload_run cs e hrun hgoes, s.keeper_startReload]
    rfl
  · rw [s.eng_startReload_stopped cs e hstopped, s.keeper_startReload]
    rfl
  · exact State.planAnnounce_failed hr (State.loadFailed_iff.2 hf)
  · rw [State.planAnnounce_loaded hr (mt State.loadFailed_iff.1 hf) (State.allLoaded_iff.2 hl)]
    simp only [Ring.isHeld_iff]
  · exact State.planAnnounce_loading hr (mt State.loadFailed_iff.1 hf) (mt State.allLoaded_iff.1 hl)
  case load =>
    rintro rfl host
    refine ⟨fun hfits => imageLoad_bad_kind ht (hostFits_of hfits), fun hfits => imageLoad_bad_source ht (hostFits_of hfits), fun hfits hfields => ⟨?_, ?_⟩⟩
    · intro hforced hfused
      exact imageLoad_bad_forced ht (hostFits_of hfits) hfields (by rw [hforced, hfused]; rfl)
    · intro hallowed
      have hforced : (!bit x.pkt.flags 1 || t.nv.fuses.development) = true := by
        rw [Bool.or_eq_true, Bool.not_eq_true']
        exact hallowed
      refine ⟨fun hmay => ?_, fun hmay => ?_⟩
      · exact imageLoad_wrong ht (hostFits_of hfits) hfields hforced (Bool.eq_false_iff.2 (mt (t.loadPermitted_iff _).1 hmay))
      · have hmay := (t.loadPermitted_iff _).2 hmay
        refine ⟨fun hsource => ?_, fun hsource hissue l hhost => ?_, fun hsource hissue => ?_, fun o ho hsource hissue => ?_⟩
        · have hbytes := after_imageBytes_slot (t := t) (host := host) (kind := fieldLE p 0 1) (addr := fieldLE p 8 8) (n := fieldLE p 4 4) hsource
          exact ⟨fun f => imageLoad_refuses ht (hostFits_of hfits) hfields hforced hmay hbytes,
            fun im => imageLoad_replies ht (hostFits_of hfits) hfields hforced hmay hbytes⟩
        · subst hhost
          have hbytes : after (imageBytes (fieldLE p 0 1) (fieldLE p 1 1) (fieldLE p 8 8) (fieldLE p 4 4) (.data l)) t
              = (.ok l, t.keeperReads (fieldLE p 8 8) (fieldLE p 4 4)) := by
            rw [hsource]
            exact after_imageBytes_data hissue
          exact ⟨fun f => imageLoad_refuses ht (hostFits_of hfits) hfields hforced hmay hbytes,
            fun im => imageLoad_replies ht (hostFits_of hfits) hfields hforced hmay hbytes⟩
        · refine imageLoad_fails ht (hostFits_of hfits) hfields hforced hmay ?_
          rw [hsource]
          exact after_imageBytes_barred hissue
        · refine imageLoad_fails ht (hostFits_of hfits) hfields hforced hmay ?_
          rw [hsource]
          exact after_imageBytes_failed hissue ho
  case commit =>
    rintro rfl programmed
    refine ⟨imageCommit_bad_kind ht, imageCommit_bad_which ht, fun hlo hhi hwhich => ⟨imageCommit_wrong ht hlo hhi hwhich, fun l hl => ⟨?_, ?_⟩⟩⟩
    · rintro rfl hheader hsignature
      refine imageCommit_replies ht hlo hhi hwhich hl ?_
      have hfault : signatureFault (t.committing (fieldLE p 0 1) l true).nv (fieldLE p 0 1) l = none := hsignature
      rw [hheader, hfault]
      rfl
    · rintro rfl
      exact imageCommit_fails ht hlo hhi hwhich hl rfl
  case reload =>
    rintro rfl
    exact ⟨cstoreReload_wrong ht, fun im => cstoreReload_replies ht⟩
  case start =>
    rintro rfl east west trained
    refine ⟨ringStart_bad_ring ht, ringStart_bad_address ht, ringStart_bad_role ht, fun hring haddr hrole => ⟨ringStart_bad_plan ht hring haddr hrole, fun y q hplan => ?_⟩⟩
    exact ⟨ringStart_wrong ht hring haddr hrole hplan, fun hidle hnot => ringStart_fails ht hring haddr hrole hplan hidle (mt (mayTrain_iff ..).1 hnot),
      fun hidle heast hwest htrained => ringStart_replies ht hring haddr hrole hplan hidle ((mayTrain_iff ..).2 ⟨heast, hwest, htrained⟩)⟩
  case stop =>
    rintro rfl
    exact ⟨ringStop_bad ht, fun hring => ⟨_, ringStop_replies ht hring, t.leaveRing_left _ _⟩⟩
  case insert =>
    rintro rfl east west other
    have haligned : (aligns east && aligns west) = true ↔ _ := (Bool.and_eq_true ..).to_iff.trans (and_congr (aligns_iff east) (aligns_iff west))
    refine ⟨ringInsert_bad ht, ringInsert_wrong ht, fun hring hstate hnot => ringInsert_fails ht hring hstate (mt haligned.1 hnot),
      fun hring hstate heast hwest => ⟨_, ?_, ringInsert_replies ht hring hstate (haligned.2 ⟨heast, hwest⟩), ?_⟩⟩
    · exact List.append_assoc ..
    · obtain ⟨hinserting, hholder, hmiss, hloop, htsel, hpin⟩ := (t.sendIdle (Fin.ofNat 4 (fieldLE p 0 1))).insertRing_inserting (Fin.ofNat 4 (fieldLE p 0 1)) other
      refine ⟨hpin, hinserting, hholder, hmiss, hloop, htsel, ?_⟩
      exact (field_setField_outside _ _ (by omega)).trans (field_setField_same _ _ (by omega))
  case bypass =>
    rintro rfl
    refine ⟨ringBypass_bad ht, ringBypass_wrong ht, fun hring hstate => ⟨fun hholder hsdly => ?_, fun halone => ⟨_, ringBypass_replies ht hring hstate, ?_⟩⟩⟩
    · rw [← State.bypass_handing hholder hsdly]
      exact ringBypass_replies ht hring hstate
    · rw [State.bypass_leaving halone]
      exact t.leaveRing_left _ _
  case switch =>
    rintro rfl
    exact ⟨fun hnone => planSwitch_wrong ht (.inl hnone), fun y hplan => ⟨fun howners => planSwitch_wrong ht (.inr ⟨y, hplan, howners⟩),
      fun howners => ⟨_, planSwitch_replies ht hplan howners, t.ring_loadPlans y⟩⟩⟩

end Sys2Proof.Proofs
end
